-- ==== Sys2Proof/Word.lean ====
section
/-!
DEFINITION. The word types of the KX40 (R3, R4, R56). Bits are numbered from the least significant end, as `BitVec` does.
-/
namespace Sys2Proof

abbrev Byte := BitVec 8
abbrev H16 := BitVec 16
abbrev W32 := BitVec 32
abbrev W64 := BitVec 64
abbrev W128 := BitVec 128

end Sys2Proof
end

