-- ==== Sys2Proof/Config.lean ====
section
/-!
DEFINITION. What one KX40 fixes and what the spec leaves open. Every constant here is opaque: no proof can see its value.
`State.draws` is the counter a free value is applied to, so that each use takes a fresh one.
-/
namespace Sys2Proof
namespace Config

/-- Which of the enabled agents and operations moves next (log 2). -/
opaque choice : Nat → Nat
/-- Nanoseconds of the package time base that one step takes (log 5). -/
opaque pace : Nat → Nat
/-- Set of an L2 slice in which a line stands, modulo 1,024; the spec gives no set function (R177; log 9). -/
opaque l2Set : Nat → Nat
/-- Packages of the pod that firmware forms at a package reset, less one and modulo 64, and this package's number among them (R392, R394;
log 99). -/
opaque podPeers : Nat → Nat
opaque podNumber : Nat → Nat
/-- A free yes-or-no decision: stale or new translation (log 10), order of arrival. -/
opaque flip : Nat → Bool
/-- A free 32-bit value the spec does not state (log 11). -/
opaque word : Nat → W32
/-- A free index of a cache line to drop where the spec names no replacement rule (log 8). -/
opaque victim : Nat → Nat
/-- Quotient of an infinite difference by an infinite direction in the box test: bound, origin, direction (R323; log 23). -/
opaque slabQuot : Nat → Nat → Nat → Nat
/-- Outcome of the triangle test for a ray with an infinite direction component: t, u, v, facing (R324; log 23). -/
opaque infRay : List Nat → List Nat → Option (Nat × Nat × Nat × Bool)
/-- FCAP0 and FCAP1, the features the package offers (R397; log 6). Only the bits of R403 are used. -/
opaque fcap0 : W64
opaque fcap1 : W64
/-- SAVEMAX, fixed per part (R397; log 6). -/
opaque saveMax : W64
/-- Bytes a save of a context needs beyond its waves' registers and memories, from the numbers of waves, queues, launches and regions: a
layout of the device's own (R399; log 12). -/
opaque saveNeed : List Nat → Nat
/-- The remainder of a save area, a layout of the device's own (R399; log 12). -/
opaque saveByte : Nat → Nat → Byte
/-- Firmware: version of the flash image, its acceptance at boot, digest, fused state, keys and signatures (R413 to R416; log 13). -/
opaque fwVersion : W64
opaque fwFlashOk : Bool
opaque fwDigest : Nat → Byte
opaque fuse : W64
opaque akey : Nat → Byte
opaque acert : Nat → Byte
opaque sign : Nat → List Byte → Nat → Byte
/-- Whether a signature verifies over a digest with the fused key (R413; log 13), and whether an image's flash write fails. -/
opaque fwVerify : List Byte → List Byte → Bool
opaque fwFlashFails : Nat → Bool
/-- Version, length and offset of the signature that an image's header gives; where they stand in the header is not stated (R413; log 13). -/
opaque fwVersionOf : List Byte → W64
opaque fwLengthOf : List Byte → Nat
opaque fwSigOf : List Byte → Nat

end Config
end Sys2Proof
end

