-- ==== Sys2Proof/Syntax.lean ====
section
/-!
DEFINITION. The instructions and events of spec/opcode_table.json, one constructor per row, and the operand
records they carry. An instruction's form (base, extended, with literal) is not kept: R65 makes a base form stand for its
extended form, and an immediate is kept as the pattern R67 gives it.
-/
namespace Sys2Proof

/-- Operand kind K (R62): `vv` 00, `vs` 01, `uu` 10 (drill), `vi` 11. -/
inductive Kind where | vv | vs | uu | vi
deriving DecidableEq, Repr

/-- Operand types in the order of their TY codes (R64). -/
inductive Ty where
  | b32 | i32 | n32 | f32 | f16 | bf16 | i8 | n8 | i16 | n16 | i64 | n64 | b64 | b8 | b16
deriving DecidableEq, Repr

/-- Rounding modes in the order of their RND codes (R64); `dyn` is "as %fpmode gives". -/
inductive Rnd where | dyn | rn | rz | ru | rd
deriving DecidableEq, Repr

/-- Scopes in the order of their SC codes (R64). -/
inductive Scope where | wave | core | quad | die | pkg | pod | sys
deriving DecidableEq, Repr

/-- Memory orders in the order of their ORD codes (R64). -/
inductive Ord where | rlx | acq | rel | ar
deriving DecidableEq, Repr

/-- Guard PN, PG (R66). -/
structure Guard where
  neg  : Bool
  pred : Nat
deriving DecidableEq, Repr

/-- No guard: PN = 0, PG = 0. -/
def Guard.none : Guard := { neg := false, pred := 0 }

/-- Source B: a vector register, a uniform register, or the immediate as a 64-bit pattern (R62, R67). -/
inductive Src where
  | v   (n : Nat)
  | s   (n : Nat)
  | imm (w : W64)
deriving DecidableEq, Repr

/-- The fields of the extended form (R63), which a base form fills by R65. -/
structure Ops where
  k   : Kind
  g   : Guard
  d   : Nat
  a   : Nat
  b   : Src
  c   : Nat
  ty  : Ty
  rnd : Rnd
  sat : Bool
  sc  : Scope
  ord : Ord
  x   : Nat
deriving DecidableEq, Repr

/-- The fields of the coprocessor form (R69); ENG and FN are the constructor's. -/
structure Cop where
  g   : Guard
  rf  : Bool
  rr  : Nat
  sa  : Nat
  sb  : Nat
  ta  : Nat
  tb  : Nat
  cm  : Nat
  lit : Option W64
deriving DecidableEq, Repr

/-- Counter classes ld, st, cp, mx, tx (R29). -/
inductive Cls where | ld | st | cp | mx | tx
deriving DecidableEq, Repr

/-- Host AtomicOps (R201). -/
inductive HostOp where | fetchAdd | swap | cas
deriving DecidableEq, Repr

/-- Units that count corrected events (R408): a core, a way of an L2 slice, a row of a weight-store bank. -/
inductive Unit3 where
  | core  (die core : Nat)
  | l2way (die slice way : Nat)
  | wsrow (die bank row : Nat)
deriving DecidableEq, Repr

/-- Copies of lines: a core's L1, the replicas of its quad, the caches of its traversal and texture units. -/
inductive CopyKind where | l1 | replica | node | texture
deriving DecidableEq, Repr

/-- What an uncorrectable error strikes (R404): a memory sector, the registers, VIQ or return queue of a wave, a scratchpad word, a copy
of a line in a cache of a core, the data packet of an operation in flight, or that of the next read of a `bri` table or of a launch
descriptor that a wave makes. -/
inductive ErrSite where
  | sector (pa : Nat)
  | wave   (uid unit : Nat)
  | pad    (uid off : Nat)
  | copy   (k : CopyKind) (die core pa : Nat)
  | packet (fid : Nat)
  | read   (uid n : Nat)
deriving DecidableEq, Repr

/-- A control packet that is dropped (R407): of an operation in flight, a lazy-release write-back of a core, a phase completion on its way to
the wave that waits, another package's tick marker, or a launch's completion record. -/
inductive CtlSite where
  | flight     (fid : Nat)
  | writeBack  (die core : Nat)
  | phase      (uid : Nat)
  | marker     (pkg tick : Nat)
  | completion (launch : Nat)
deriving DecidableEq, Repr

/-- One constructor per row of spec/opcode_table.json, in the table's order. The events (from `regangRelease` on) have no
encoding; their operands name the wave, flight, core, die, unit or value the event is about. -/
inductive Instr where
  | iadd (o : Ops) | isub (o : Ops) | imul (o : Ops) | imulh (o : Ops) | iand (o : Ops) | ior (o : Ops) | ixor (o : Ops)
  | ishl (o : Ops) | ishr (o : Ops) | isra (o : Ops) | imin (o : Ops) | imax (o : Ops) | inot (o : Ops) | iabs (o : Ops)
  | ipopc (o : Ops) | iclz (o : Ops)
  | fadd (o : Ops) | fsub (o : Ops) | fmul (o : Ops) | fmin (o : Ops) | fmax (o : Ops) | fdiv (o : Ops) | fsqrt (o : Ops)
  | frcp (o : Ops) | frsq (o : Ops) | fexp2 (o : Ops) | flog2 (o : Ops) | fsin (o : Ops) | fcos (o : Ops)
  | fclass (o : Ops) | frnd (o : Ops) | hadd2 (o : Ops) | hmul2 (o : Ops)
  | mov (o : Ops) | movi (o : Ops) | bcast (o : Ops) | gets (o : Ops) | sets (o : Ops) | rng (o : Ops)
  | ld (o : Ops) | st (o : Ops) | ldu (o : Ops) | stu (o : Ops) | lds (o : Ops) | sts (o : Ops) | ldp (o : Ops)
  | stp (o : Ops) | pf (o : Ops)
  /-- `br`: condition q[q] xor n (R107); `off` counts words. -/
  | br (g : Guard) (n : Bool) (q : Nat) (off : BitVec 24)
  | brv (g : Guard) (n : Bool) (k : Nat) (off : BitVec 24)
  | jmp (g : Guard) (off : BitVec 24)
  /-- `bri`: table address in s[a]; index in v[b] (`vec`) or s[b] (R114). -/
  | bri (g : Guard) (vec : Bool) (a b : Nat)
  | call (g : Guard) (off : BitVec 24)
  | ret (g : Guard)
  /-- `loop`: `imm` is I; `n` the trip count or the s-register; `off` is OFF14 (R116). -/
  | loop (g : Guard) (imm : Bool) (n : Nat) (off : Nat)
  | regang (g : Guard) | yield (g : Guard) | exit (g : Guard) | nop (g : Guard) | fsync (g : Guard)
  /-- `wait`: a threshold for each class waited for (R71, R204). -/
  | wait (g : Guard) (ld st cp mx tx : Option Nat)
  | fence (g : Guard) (sc : Scope) (ord : Ord)
  | done (g : Guard)
  | deq (g : Guard) (d q : Nat) (w : Bool)
  | icmp (o : Ops) | isel (o : Ops) | imad (o : Ops) | ibfx (o : Ops) | ibfi (o : Ops)
  | ffma (o : Ops) | fcmp (o : Ops) | hfma2 (o : Ops) | cvt (o : Ops) | pack (o : Ops) | unpack (o : Ops)
  | shfl (o : Ops) | vote (o : Ops) | gred (o : Ops) | gscan (o : Ops)
  | atom (o : Ops) | red (o : Ops)
  | barInit (o : Ops) | barArr (o : Ops) | barExp (o : Ops) | barWait (o : Ops)
  | estAdd (o : Ops) | estMrg (o : Ops) | estLd (o : Ops) | estClr (o : Ops)
  | trap (o : Ops) | xret (o : Ops) | xclr (o : Ops) | cfgr (o : Ops) | cfgw (o : Ops) | live (o : Ops) | tlbi (o : Ops)
  | spawn (o : Ops) | amsg (o : Ops) | enq (o : Ops) | dlaunch (o : Ops)
  | trace (o : Ops) | tget (o : Ops) | hgf (o : Ops) | hgs (o : Ops) | tex (o : Ops) | tld (o : Ops)
  /-- `fcall` (R121): offset, LIVE mask, number of return registers and the registers. -/
  | fcall (g : Guard) (off : BitVec 21) (live : W32) (rc rva rvb : Nat)
  | tdefBytes (o : Cop) | tdefPlane (o : Cop) | tset (o : Cop) | tq (o : Cop)
  | cpyLd (o : Cop) | cpySt (o : Cop) | cpyGth (o : Cop) | cpyWs (o : Cop) | cpyFill (o : Cop)
  | glTopk (o : Cop) | glSmax (o : Cop) | glSamp (o : Cop)
  | mlease (o : Cop) | mrel (o : Cop) | mmo (o : Cop) | mclr (o : Cop) | mdrain (o : Cop)
  | estAdv (o : Cop) | estClose (o : Cop)
  | regangRelease (uid : Nat) | gangDemotion (uid : Nat) | partSwap (uid slice : Nat) | starvedWaveChoice (uid : Nat)
  | forkResolution (uid : Nat) | delivery (uid : Nat)
  | preemptionRequest (uid : Nat) | preemptionTimeout (uid : Nat) | save (uid : Nat) | restore (uid : Nat)
  | carveChange (die core : Nat) | deqTimeout (uid : Nat)
  | loadCompletion (fid : Nat) | storeCompletion (fid : Nat) | lazyWriteBack (die core : Nat)
  | lateError (fid : Nat) | barrierOperation (fid : Nat)
  | hostAtomic (op : HostOp) (pa size : Nat) (x y : W64)
  | hostDmaWeightWrite (pa : Nat) (bytes : List Byte)
  | refreshWindow (die bank : Nat)
  | copyCommandStart (fid : Nat) | copyPartCompletion (fid part : Nat) | gleanCompletion (fid : Nat)
  | leaseGrant (eng : Nat) | matrixCommandStart (fid : Nat) | mmoCompletion (fid : Nat) | drainCompletion (fid : Nat)
  | addOnStore (fid line : Nat)
  | flush (die core entry : Nat) | merge (fid : Nat) | stage (fid : Nat) | reseedRequest (fid : Nat)
  | epochNotice (fid : Nat) | fold (fid : Nat)
  | rayCompletion (fid lane : Nat) | textureCompletion (fid : Nat) | chunk (fid : Nat) | hgsAdd (fid : Nat)
  | recordArrival (fid : Nat) | dispatch (die : Nat) | batchArrival (fid : Nat) | draw (fid : Nat)
  | weightReturn (fid : Nat) | dependenceMet (launch : Nat)
  | flock | notify (v : W32) | evhead (v : W64) | go | registerWrite (off : Nat) (v : W64)
  | launch | ctxload | ctxsave | ctxreset | nopCmd | attest | commandRefetch | eventRingResume
  | packageReset | tickBoundary | markerArrival (pkg tick : Nat) | tickExchangeStalled (pkg : Nat)
  | timeBaseOutOfBound (off : W32)
  | stationPowerDown (st : Nat) | wake (st : Nat) | linkDown (link : Nat)
  | controlPacketDropped (die unit num : Nat) (ps : List CtlSite)
  | correctedError (u : Unit3) | errorWindow | uncorrectableError (e : ErrSite) | scrub (die bank : Nat)
  | frequencyChange (island n : Nat) | powerCap (exceeded : Bool) (powers : List Nat) | thermalLimit (island : Nat)
  /-- A host read (`bytes` empty) or write of memory on the package (R212, R401). -/
  | hostAccess (pa len : Nat) (bytes : List Byte)
  | rowCopy (die bank row : Nat)
deriving DecidableEq, Repr

end Sys2Proof
end

