-- ==== Sys2Proof/WellFormed.lean ====
section
/-!
DEFINITION. Which instructions decode without ILLEGAL (R57, R63 to R68, R73, R75, R76, R78), and which registers each
one reads and writes. An instruction that fails `Instr.wf` raises ILLEGAL when it is executed. What depends on the wave (the
footprint, R27) or on the feature word (R77) is checked by the machine.
-/
namespace Sys2Proof

/-- Width of a type in bits (R64, R82). -/
def Ty.bits : Ty → Nat
  | .b32 | .i32 | .n32 | .f32 => 32
  | .f16 | .bf16 | .i16 | .n16 | .b16 => 16
  | .i8 | .n8 | .b8 => 8
  | .i64 | .n64 | .b64 => 64

/-- Whether a vector operand of the type is an even register pair (R56, R82). -/
def Ty.is64 (t : Ty) : Bool := t.bits == 64

def Ty.isFloat : Ty → Bool
  | .f32 | .f16 | .bf16 => true
  | _ => false

/-- Types of an integer instruction with signed or unsigned values. -/
def Ty.isSigned : Ty → Bool
  | .i8 | .i16 | .i32 | .i64 => true
  | _ => false

/-- A register an instruction names (R56). -/
inductive RegRef where
  | v (n : Nat) | s (n : Nat) | k (n : Nat) | q (n : Nat)
deriving DecidableEq, Repr

/-- What a register field of an instruction names. -/
inductive Role where
  /-- not used: must be zero (R62) -/
  | no
  /-- a value of the type: a vector register or pair on the vector side, an s-register on the drill -/
  | val (t : Ty)
  /-- as `val`, with the operand after it as well (`atom.cas`, R200) -/
  | val2 (t : Ty)
  /-- a lane predicate on the vector side, a uniform predicate on the drill -/
  | pred
  /-- an s-register on either side -/
  | sreg
  /-- four s-registers from a multiple of 4 -/
  | squad
  /-- consecutive 32-bit vector registers -/
  | run (n : Nat)
  /-- a number that is no register (a special register, R58) -/
  | num
deriving DecidableEq, Repr

/-- The immediates an instruction takes (R67, R68). -/
inductive ImmKind where
  /-- none -/
  | none
  /-- a value of the operand type, in every form -/
  | val
  /-- a constant of this many bits, only as a literal (R95) -/
  | lit (w : Nat)
  /-- a signed 64-bit offset, in every form -/
  | off
  /-- a signed 64-bit offset, only as a literal beside a register in C8 (R63, `atom` and `red`) -/
  | atomOff
  /-- a signed IMM24, no literal (R153, R206, R377) -/
  | imm24
deriving DecidableEq, Repr

/-- What one instruction accepts in each field of the extended form. -/
structure OpSpec where
  ks   : List Kind
  tys  : List Ty
  d    : Role
  dst  : Bool
  dsrc : Bool
  a    : Role
  b    : Role
  imm  : ImmKind
  immReq : Bool
  c    : Role
  rnd  : Bool
  sat  : Bool
  scord : Bool
  x    : Bool
deriving DecidableEq, Repr

def kAll : List Kind := [.vv, .vs, .uu, .vi]
def kReg : List Kind := [.vv, .vs, .uu]
def kVec : List Kind := [.vv, .vs, .vi]
def kTwo : List Kind := [.vv, .uu]
def tInt : List Ty := [.i32, .n32, .i64, .n64]
def tBit : List Ty := [.b32, .b64]
def tFlt : List Ty := [.f32, .f16, .bf16]
def tMem : List Ty := [.b8, .i8, .n8, .b16, .i16, .n16, .b32, .b64]
def tSto : List Ty := [.b8, .b16, .b32, .b64]

/-- Base of every specification: nothing but the destination, one type, no modifier. -/
def spec0 (o : Ops) : OpSpec :=
  { ks := kAll, tys := [.b32], d := .val o.ty, dst := true, dsrc := false, a := .val o.ty, b := .no, imm := .none,
    immReq := false, c := .no, rnd := false, sat := false, scord := (o.sc == .wave && o.ord == .rlx), x := o.x == 0 }

/-- D, A, B with an immediate (R73). -/
def specAlu3 (o : Ops) (tys : List Ty) (rnd sat : Bool) : OpSpec :=
  { spec0 o with tys := tys, b := .val o.ty, imm := .val, rnd := rnd, sat := sat }

/-- D, A (R73). -/
def specAlu2 (o : Ops) (tys : List Ty) (rnd sat : Bool) : OpSpec :=
  { spec0 o with ks := kTwo, tys := tys, rnd := rnd, sat := sat }

/-- Scale code of a lane offset (R187): 0 to 4 under K = 00, else 0. -/
def scaleOk (k : Kind) (code : Nat) : Bool := if k = .vv then decide (code ≤ 4) else code == 0

/-- Address operands of a memory instruction (R187): uniform base A, offset B. -/
def specMem (o : Ops) (ks : List Kind) (tys : List Ty) (load : Bool) : OpSpec :=
  { spec0 o with ks := ks, tys := tys, dst := load, dsrc := !load, a := .sreg, b := .val .b32, imm := .off, x := scaleOk o.k o.x }

/-- Orders of plain loads and stores (R193): relaxed with SC = 000, or the one order with any scope. -/
def ordOne (o : Ops) (w : Ord) : Bool := (o.ord == .rlx && o.sc == .wave) || o.ord == w

/-- Operation and type agree (R100, R200): codes of the XMEM table of R75. -/
def redTyOk (op : Nat) (t : Ty) : Bool :=
  if op ≤ 2 then tInt.contains t else if op ≤ 7 then tBit.contains t else decide (op ≤ 10) && t == .f32

/-- Special registers (R58): number, readable into v, readable into s, writable. -/
def specialSides (n : Nat) : Option (Bool × Bool × Bool) :=
  match n with
  | 0x00 | 0x01 | 0x0E => some (true, false, false)
  | 0x02 | 0x03 | 0x04 | 0x05 | 0x06 | 0x08 | 0x09 => some (true, true, false)
  | 0x07 | 0x0A | 0x0B => some (false, true, false)
  | 0x0C | 0x0D => some (true, true, true)
  | 0x10 | 0x11 | 0x17 => some (false, true, true)
  | 0x12 | 0x13 | 0x14 | 0x15 | 0x16 => some (false, true, false)
  | _ => none

/-- Readable into the class the destination has, writable (R58). -/
def specialGets (n : Nat) (vec : Bool) : Bool :=
  match specialSides n with
  | some (v, s, _) => if vec then v else s
  | none => false
def specialSets (n : Nat) : Bool :=
  match specialSides n with
  | some (_, _, w) => w
  | none => false

/-- Privileged special registers (R58). -/
def specialPriv (n : Nat) : Bool := decide (0x10 ≤ n ∧ n ≤ 0x17)

/-- Conversion types (R96). -/
def tCvt : List Ty := [.i8, .n8, .i16, .n16, .i32, .n32, .i64, .n64, .f16, .bf16, .f32]

/-- TY codes in order (R64). -/
def Ty.ofCode (n : Nat) : Option Ty :=
  [Ty.b32, .i32, .n32, .f32, .f16, .bf16, .i8, .n8, .i16, .n16, .i64, .n64, .b64, .b8, .b16][n]?

def Ty.code : Ty → Nat
  | .b32 => 0 | .i32 => 1 | .n32 => 2 | .f32 => 3 | .f16 => 4 | .bf16 => 5 | .i8 => 6 | .n8 => 7 | .i16 => 8
  | .n16 => 9 | .i64 => 10 | .n64 => 11 | .b64 => 12 | .b8 => 13 | .b16 => 14

/-- Source type of a conversion, X[3:0] (R96). -/
def cvtSrc (o : Ops) : Ty := (Ty.ofCode (o.x % 16)).getD .b32

/-- Whether a conversion accepts a rounding mode and SAT (R96). -/
def cvtRnd (s d : Ty) : Bool :=
  if s.isFloat then (if d.isFloat then !(d == .f32) else true) else d.isFloat
def cvtSat (s d : Ty) : Bool := !s.isFloat && !d.isFloat

def cvtOk (o : Ops) : Bool :=
  decide (o.x < 16) && (Ty.ofCode o.x).isSome && tCvt.contains (cvtSrc o) && !(cvtSrc o == o.ty)

def bitAt (x n : Nat) : Bool := x / 2 ^ n % 2 == 1

/-- `shfl` X (R100). -/
def shflX (o : Ops) : Bool :=
  decide (o.x < 128) && !bitAt o.x 2 &&
  (if bitAt o.x 6 then o.x % 4 == 0 && o.k == .vs && o.x / 8 % 8 == 0 else true)

/-- Immediate target word of `spawn`, `amsg`, `enq` (R377): only the bits the instruction allows. -/
def targetOk (allowed : Nat) (w : Nat) : Bool := decide (w < 2 ^ 24) && (w &&& allowed) == w
def spawnMask : Nat := 0xFFF
def amsgMask : Nat := 0xFFFFF
def enqMask (w : Nat) : Nat := if bitAt w 20 then 0x1E0FFF else 0xFFF

def Src.immNat : Src → Option Nat
  | .imm w => some w.toNat
  | _ => none

def targetImmOk (mask : Nat → Nat) (b : Src) : Bool :=
  match b.immNat with
  | some w => targetOk (mask w) w
  | none => true

def taskSpec (o : Ops) (mask : Nat → Nat) : OpSpec :=
  { spec0 o with
    ks := [.uu], d := .no, dst := false, a := .squad, b := .sreg, imm := .imm24,
    x := decide (o.x < 2) && targetImmOk mask o.b }

def barSpec (o : Ops) (peer : Bool) : OpSpec :=
  { spec0 o with
    ks := [.uu], d := .no, dst := false, a := .sreg, b := .sreg, imm := .imm24,
    x := if peer then decide (o.x < 2) else o.x == 0 }

def sysSpec (o : Ops) : OpSpec := { spec0 o with ks := [.uu], d := .no, dst := false, a := .no }

def estSpec (o : Ops) (d : Role) (load : Bool) (x : Bool) : OpSpec :=
  { specMem o kVec [.b32] load with d := d, x := x }

def texSpec (o : Ops) (d : Role) (load : Bool) (b c : Role) (x : Bool) : OpSpec :=
  { spec0 o with ks := [.vv], d := d, dst := load, a := .sreg, b := b, c := c, x := x }

/-- Destination of a cross-lane instruction: X[6] selects v or s (R100). -/
def laneDst (o : Ops) (t : Ty) : Role := if bitAt o.x 6 then .sreg else .val t

/-- Grid instructions: L x F values and D coordinates from X (R342). -/
def gridCount (o : Ops) : Nat := o.x % 64 + 1
def gridDim (o : Ops) : Nat := if bitAt o.x 6 then 3 else 2

/-- The operand record of an instruction in the extended form and what the instruction accepts in it. -/
def Instr.spec : Instr → Option (Ops × OpSpec)
  | .iadd o | .isub o => some (o, specAlu3 o tInt false true)
  | .imul o | .imulh o | .imin o | .imax o => some (o, specAlu3 o tInt false false)
  | .iand o | .ior o | .ixor o | .ishl o | .ishr o | .isra o => some (o, specAlu3 o tBit false false)
  | .inot o | .ipopc o | .iclz o => some (o, specAlu2 o tBit false false)
  | .iabs o => some (o, specAlu2 o [.i32, .i64] false true)
  | .fadd o | .fsub o | .fmul o => some (o, specAlu3 o tFlt true true)
  | .fmin o | .fmax o => some (o, specAlu3 o tFlt false false)
  | .fdiv o => some (o, specAlu3 o [.f32] true false)
  | .fsqrt o | .fexp2 o | .flog2 o => some (o, specAlu2 o [.f32] true false)
  | .frcp o | .frsq o | .fsin o | .fcos o => some (o, specAlu2 o [.f32] false false)
  | .fclass o => some (o, specAlu2 o tFlt false false)
  | .frnd o => some (o, specAlu2 o tFlt true false)
  | .hadd2 o | .hmul2 o => some (o, { specAlu3 o [.f16] true true with ks := kVec, imm := .lit 32 })
  | .mov o => some (o, specAlu2 o tBit false false)
  | .movi o => some (o, { specAlu3 o [.b32, .b64, .f32, .f16, .bf16] false false with
                          ks := [.vi, .uu], a := .no, immReq := true })
  | .bcast o => some (o, { spec0 o with ks := [.vs], tys := tBit, a := .no, b := .sreg })
  | .gets o => some (o, { spec0 o with
      ks := kTwo, d := .val .b32, a := .num,
      x := o.x == 0 && specialGets o.a (o.k == .vv) })
  | .sets o => some (o, { spec0 o with
      ks := [.uu], d := .no, dst := false, a := .num, b := .sreg,
      x := o.x == 0 && specialSets o.a })
  | .rng o => some (o, { spec0 o with
      ks := [.vs, .uu], tys := [.b32, .b64, .f32], a := .sreg, b := .sreg,
      x := if o.k == .vs then decide (o.x < 64) else o.x == 0 })
  | .ld o => some (o, { specMem o kVec tMem true with scord := ordOne o .acq })
  | .st o => some (o, { specMem o kVec tSto false with scord := ordOne o .rel })
  | .ldu o => some (o, { specMem o [.uu] (tMem ++ [.i32, .n32]) true with scord := ordOne o .acq })
  | .stu o => some (o, { specMem o [.uu] tSto false with scord := ordOne o .rel })
  | .lds o | .ldp o => some (o, specMem o kVec tMem true)
  | .sts o | .stp o => some (o, specMem o kVec tSto false)
  | .pf o => some (o, { specMem o kAll [.b32] false with
                        d := .no, dsrc := false, x := decide (o.x < 16) && scaleOk o.k (o.x % 8) })
  | .icmp o => some (o, { specAlu3 o tInt false false with d := .pred, x := decide (o.x < 6) })
  | .isel o => some (o, { specAlu3 o tBit false false with ks := kReg, imm := .none, c := .pred })
  | .imad o => some (o, { specAlu3 o tInt false false with ks := kReg, imm := .none, c := .val o.ty })
  | .ibfx o => some (o, { specAlu3 o tInt false false with ks := kReg, imm := .none, c := .val o.ty })
  | .ibfi o => some (o, { specAlu3 o tBit false false with ks := kReg, imm := .none, c := .val o.ty, dsrc := true })
  | .ffma o => some (o, { specAlu3 o tFlt true true with ks := kReg, imm := .none, c := .val o.ty })
  | .fcmp o => some (o, { specAlu3 o tFlt false false with d := .pred, x := decide (o.x < 8) })
  | .hfma2 o => some (o, { specAlu3 o [.f16] true true with ks := [.vv, .vs], imm := .none, c := .val o.ty })
  | .cvt o => some (o, { specAlu2 o tCvt (cvtRnd (cvtSrc o) o.ty) (cvtSat (cvtSrc o) o.ty) with
                         ks := kReg, a := .val (cvtSrc o), x := cvtOk o })
  | .pack o => some (o, { specAlu3 o [.b32] (decide (o.x < 2)) false with ks := kReg, imm := .none, x := decide (o.x < 5) })
  | .unpack o => some (o, { specAlu2 o [.b32] false false with ks := kReg, x := decide (o.x < 8) })
  | .shfl o => some (o, { specAlu3 o tBit false false with
      ks := [.vv, .vs], imm := .none, d := laneDst o o.ty, b := .val .b32, c := .val o.ty, x := shflX o })
  | .vote o => some (o, { spec0 o with
      ks := [.vv, .vs], d := laneDst o .b32,
      a := if o.x % 4 == 3 then .val .b32 else .pred, x := decide (o.x < 128) && o.x / 4 % 16 == 0 })
  | .gred o => some (o, { spec0 o with
      ks := [.vv, .vs], tys := [o.ty], d := laneDst o o.ty, c := .val o.ty,
      rnd := o.x % 16 == 8, x := decide (o.x < 128) && o.x / 16 % 4 == 0 && redTyOk (o.x % 16) o.ty &&
        !(o.x % 16 == 6) && !(o.x % 16 == 7) })
  | .gscan o => some (o, { spec0 o with
      ks := [.vv, .vs], tys := [o.ty], c := .val o.ty,
      rnd := o.x % 16 == 8, x := decide (o.x < 32) && redTyOk (o.x % 16) o.ty && !(o.x % 16 == 6) && !(o.x % 16 == 7) })
  | .atom o => some (o, { spec0 o with
      tys := [o.ty], a := .sreg, b := .val .b32, imm := .atomOff,
      c := if o.x % 16 == 7 then .val2 o.ty else .val o.ty, scord := true,
      x := decide (o.x < 128) && redTyOk (o.x % 16) o.ty && scaleOk o.k (o.x / 16) })
  | .red o => some (o, { spec0 o with
      tys := [o.ty], d := .no, dst := false, a := .sreg, b := .val .b32, imm := .atomOff,
      c := .val o.ty, scord := o.ord == .rlx || o.ord == .rel,
      x := decide (o.x < 128) && redTyOk (o.x % 16) o.ty && scaleOk o.k (o.x / 16) &&
        !(o.x % 16 == 6) && !(o.x % 16 == 7) })
  | .barInit o => some (o, barSpec o false)
  | .barArr o | .barExp o => some (o, barSpec o true)
  | .barWait o => some (o, barSpec o false)
  | .estAdd o => some (o, estSpec o (.run 2) false (decide (o.x < 8) && scaleOk o.k o.x))
  | .estMrg o => some (o, estSpec o (.run 4) false (decide (o.x < 8) && scaleOk o.k o.x))
  | .estLd o => some (o, estSpec o (.run 3) true (decide (o.x < 16) && scaleOk o.k (o.x % 8)))
  | .estClr o => some (o, { estSpec o .no false (decide (o.x < 8) && scaleOk o.k o.x) with dsrc := false })
  | .trap o => some (o, { sysSpec o with imm := .imm24, immReq := true })
  | .xret o => some (o, sysSpec o)
  | .xclr o => some (o, { sysSpec o with a := if o.b.immNat.isSome then .no else .sreg, imm := .imm24 })
  | .cfgr o => some (o, { sysSpec o with d := .sreg, dst := true, imm := .imm24, immReq := true })
  | .cfgw o => some (o, { sysSpec o with a := .sreg, imm := .imm24, immReq := true })
  | .live o => some (o, { sysSpec o with a := .sreg, b := .sreg, c := .sreg })
  | .tlbi o => some (o, { sysSpec o with a := if o.x == 1 || o.x == 2 then .sreg else .no, x := decide (o.x < 4) })
  | .spawn o => some (o, taskSpec o (fun _ => spawnMask))
  | .amsg o => some (o, taskSpec o (fun _ => amsgMask))
  | .enq o => some (o, taskSpec o enqMask)
  | .dlaunch o => some (o, { sysSpec o with
      d := if o.x == 1 then .sreg else .no, dst := o.x == 1, a := .sreg, x := decide (o.x < 2) })
  | .trace o => some (o, texSpec o .no false (.run 9) (if bitAt o.x 0 then .run 2 else .no) (decide (o.x < 3)))
  | .tget o => some (o, { texSpec o (.run 8) true .no .no (decide (o.x < 2)) with a := .no })
  | .hgf o => some (o, texSpec o (.run (gridCount o)) true (.run (gridDim o)) .no (decide (o.x < 128)))
  | .hgs o => some (o, texSpec o .no false (.run (gridDim o)) (.run (gridCount o)) (decide (o.x < 128)))
  | .tex o | .tld o => some (o, texSpec o (.run 4) true (.run 2) .no (o.x == 0))
  | _ => none

/-- Registers a field names. `vec` says that the field's class is the vector one. -/
def Role.refs (vec : Bool) (n : Nat) : Role → List RegRef
  | .no | .num => []
  | .val t => if vec then (if t.is64 then [.v n, .v (n + 1)] else [.v n]) else [.s n]
  | .val2 t => if vec then (if t.is64 then [.v n, .v (n + 1), .v (n + 2), .v (n + 3)] else [.v n, .v (n + 1)])
               else [.s n, .s (n + 1)]
  | .pred => if vec then [.k n] else [.q n]
  | .sreg => [.s n]
  | .squad => [.s n, .s (n + 1), .s (n + 2), .s (n + 3)]
  | .run m => (List.range m).map (fun i => .v (n + i))

/-- A register reference inside its class (R56, R57). -/
def RegRef.ok : RegRef → Bool
  | .v n => decide (n < 256)
  | .s n => decide (n < 64)
  | .k n => decide (n < 8)
  | .q n => decide (n < 4)

/-- A field's number is one the role allows (R57, R62). -/
def Role.ok (vec : Bool) (n : Nat) (r : Role) : Bool :=
  (r.refs vec n).all RegRef.ok &&
  (match r with
   | .no => n == 0
   | .val t | .val2 t => !(vec && t.is64 && n % 2 == 1)
   | .squad => n % 4 == 0
   | _ => true)

/-- Class of B and of C under each kind (R62, R63). -/
def Kind.bVec (k : Kind) : Bool := k == .vv
def Kind.cVec (k : Kind) : Bool := k == .vv || k == .vi
def Kind.vec (k : Kind) : Bool := !(k == .uu)

/-- Class of a predicate field: k on the vector side, q on the drill (R62, R87). -/
def Role.cls (r : Role) (k : Kind) (byKind : Bool) : Bool := match r with | .pred => k.vec | _ => byKind

/-- Guard number inside its class (R66). -/
def Guard.ok (g : Guard) (vec : Bool) : Bool := if vec then decide (g.pred < 8) else decide (g.pred < 4)

/-- The immediate is one the instruction can carry (R67, R68). -/
def immOk (sp : OpSpec) (t : Ty) (w : W64) : Bool :=
  match sp.imm with
  | .none => false
  | .val => decide (w.toNat < 2 ^ t.bits)
  | .lit n => decide (w.toNat < 2 ^ n)
  | .off | .atomOff => true
  | .imm24 => decide (w.toNat < 2 ^ 23 ∨ 2 ^ 64 - 2 ^ 23 ≤ w.toNat)

/-- The B field: a register of the class that K selects, zero when B is not used, or an immediate (R62, R63). -/
def srcOk (sp : OpSpec) (o : Ops) : Bool :=
  match o.b with
  | .v n => o.k == .vv && !sp.immReq && sp.b.ok (sp.b.cls o.k true) n
  | .s n => (o.k == .vs || o.k == .uu) && !sp.immReq && sp.b.ok (sp.b.cls o.k false) n
  | .imm w => (o.k == .vi || o.k == .uu) && immOk sp o.ty w

/-- Every field of an extended form is one the instruction accepts (R57, R63 to R68, R78). -/
def Ops.ok (o : Ops) (sp : OpSpec) : Bool :=
  sp.ks.contains o.k && o.g.ok o.k.vec && sp.tys.contains o.ty &&
  sp.d.ok (sp.d.cls o.k o.k.vec) o.d && !(sp.dst && sp.d == .pred && o.d == 0) &&
  sp.a.ok (sp.a.cls o.k o.k.vec) o.a && srcOk sp o && sp.c.ok (sp.c.cls o.k o.k.cVec) o.c &&
  (sp.rnd || o.rnd == .dyn) && (sp.sat || !o.sat) && sp.scord && sp.x

/-- Coprocessor fields inside their widths (R69) and the guard on q0 to q3. -/
def Cop.base (o : Cop) : Bool :=
  o.g.ok false && decide (o.rr < 64) && decide (o.sa < 64) && decide (o.sb < 64) && decide (o.ta < 64) &&
  decide (o.tb < 64) && decide (o.cm < 65536) && (o.rf || o.rr == 0) &&
  (match o.lit with | some w => decide (w.toNat < 2 ^ 64) | none => true)

def Cop.noLit (o : Cop) : Bool := o.lit.isNone
def Cop.litNat (o : Cop) : Nat := match o.lit with | some w => w.toNat | none => 0

/-- Bits h down to l of a number (R3). -/
def field (x h l : Nat) : Nat := x / 2 ^ l % 2 ^ (h - l + 1)

/-- Format number 1 to 24 (R76, R262). -/
def fmtOk (f : Nat) : Bool := decide (1 ≤ f ∧ f ≤ 24)

/-- Copy CM fields (R284). -/
def Cop.pb (o : Cop) : Bool := bitAt o.cm 8
def Cop.bar (o : Cop) : Bool := bitAt o.cm 7
def Cop.str (o : Cop) : Bool := bitAt o.cm 6
def Cop.fmt (o : Cop) : Nat := o.cm % 32

/-- CM of `cpy.ld`, `cpy.st`, `cpy.ws` (R284). -/
def cpyCmOk (o : Cop) : Bool :=
  decide (o.cm < 512) && !bitAt o.cm 5 && fmtOk o.fmt && (!o.pb || o.bar) && (o.bar || o.sb == 0) &&
  (!o.str || !(o.sa == 63)) && (o.str || !(decide (17 ≤ o.fmt ∧ o.fmt ≤ 20)))

/-- Glean CM and literal (R291). -/
def gleanN (o : Cop) : Nat := field o.litNat 22 0
def gleanNOk (o : Cop) : Bool := o.lit.isSome && decide (1 ≤ gleanN o ∧ gleanN o ≤ 2 ^ 22) && field o.litNat 31 23 == 0

/-- Matrix drain CM (R314). -/
def drainCmOk (o : Cop) : Bool :=
  decide (field o.cm 15 12 = 0) && decide (field o.cm 11 7 ≤ 32) && decide (field o.cm 6 4 ≤ 5) &&
  (if bitAt o.cm 2 then o.sa == 0 && !bitAt o.cm 3 else o.ta == 0) && (!bitAt o.cm 3 || !(o.sa == 63))

/-- What each coprocessor function accepts (R76, and its own chapter). -/
def Instr.copOk : Instr → Option (Cop × Bool)
  | .tdefBytes o => some (o, o.lit.isSome && !o.rf && o.sa == 0 && o.sb == 0 && o.tb == 0 && o.cm == 0 &&
      decide (1 ≤ field o.litNat 35 12) && field o.litNat 63 36 == 0)
  | .tdefPlane o => some (o, o.lit.isSome && !o.rf && o.sa == 0 && o.sb == 0 && o.tb == 0 && o.cm == 0 &&
      decide (1 ≤ field o.litNat 27 12) && decide (8 ≤ field o.litNat 47 28) && field o.litNat 47 28 % 8 == 0 &&
      decide (1 ≤ field o.litNat 52 48 ∧ field o.litNat 52 48 ≤ 24) && field o.litNat 63 53 == 0)
  | .tset o => some (o, o.noLit && !o.rf && o.sa == 0 && o.sb == 0 && o.tb == 0 && decide (o.cm < 8) &&
      !(o.cm / 2 % 4 == 3) && (bitAt o.cm 0 || o.cm / 2 % 4 == 0))
  | .tq o => some (o, o.noLit && o.rf && o.sa == 0 && o.sb == 0 && o.tb == 0 && o.cm == 0)
  | .cpyLd o | .cpyWs o => some (o, o.noLit && o.tb == 0 && cpyCmOk o)
  | .cpySt o => some (o, o.noLit && o.tb == 0 && cpyCmOk o && !(o.fmt == 24))
  | .cpyGth o => some (o, o.lit.isSome && o.tb == 0 && decide (o.cm < 256) && !o.str && !bitAt o.cm 5 && fmtOk o.fmt &&
      !(decide (17 ≤ o.fmt ∧ o.fmt ≤ 20)) && field o.litNat 63 56 == 0 && (o.bar || field o.litNat 55 32 == 0))
  | .cpyFill o => some (o, o.noLit && o.tb == 0 && decide (o.cm < 512) && o.cm % 128 == 0 && (!o.pb || o.bar) &&
      (o.bar || o.sb == 0))
  | .glTopk o => some (o, o.ta == 0 && o.tb == 0 && decide (o.cm < 4096) && gleanNOk o && field o.litNat 63 32 == 0 &&
      decide (1 ≤ o.cm % 512 ∧ o.cm % 512 ≤ 256))
  | .glSmax o => some (o, o.ta == 0 && o.tb == 0 && decide (o.cm < 4096) && gleanNOk o && o.cm % 512 == 0)
  | .glSamp o => some (o, o.noLit && o.rf && o.ta == 0 && o.tb == 0 && decide (o.cm < 2048) && !bitAt o.cm 9 &&
      decide (1 ≤ o.cm % 512 ∧ o.cm % 512 ≤ 256))
  | .mlease o => some (o, o.noLit && o.sa == 0 && o.sb == 0 && o.ta == 0 && o.tb == 0 && decide (1 ≤ o.cm ∧ o.cm < 256))
  | .mrel o => some (o, o.noLit && !o.rf && o.sa == 0 && o.sb == 0 && o.ta == 0 && o.tb == 0 && o.cm == 0)
  | .mmo o => some (o, o.noLit && !o.rf && decide (o.cm < 64) && decide (o.cm % 8 < 6) && (bitAt o.cm 5 || o.sb == 0) &&
      (bitAt o.cm 4 || o.sa == 0))
  | .mclr o => some (o, o.noLit && !o.rf && o.sa == 0 && o.sb == 0 && o.ta == 0 && o.tb == 0 && decide (o.cm < 6))
  | .mdrain o => some (o, o.noLit && !o.rf && o.sb == 0 && o.tb == 0 && drainCmOk o)
  | .estAdv o | .estClose o => some (o, o.noLit && o.sb == 0 && o.ta == 0 && o.tb == 0 && o.cm == 0)
  | _ => none

/-- `wait` (R71): the base form names at least one class and gives all of them one threshold, without a guard; the extended
form gives a threshold to every class. -/
def waitOk (g : Guard) (ths : List (Option Nat)) : Bool :=
  ths.all (fun t => match t with | some n => decide (n < 64) | none => true) &&
  (if ths.all Option.isSome then g.ok false
   else g == Guard.none && (match ths.filterMap id with | [] => false | t :: ts => ts.all (· == t)))

/-- Whether the instruction decodes without ILLEGAL, footprint and features apart (R78). Events are no instructions of a
program; they count as well formed. -/
def Instr.wf (i : Instr) : Bool :=
  match i.spec with
  | some (o, sp) => o.ok sp
  | none =>
    match i.copOk with
    | some (o, b) => o.base && b
    | none =>
      match i with
      | .br g _ q _ => g.ok false && decide (q < 4)
      | .brv g _ k _ => g.ok true && decide (k < 8)
      | .jmp g _ | .call g _ | .ret g | .regang g | .yield g | .exit g | .nop g | .fsync g | .done g => g.ok false
      | .bri g vec a b => g.ok vec && decide (a < 64) && (if vec then decide (b < 128) else decide (b < 64))
      | .loop g _ n off => g.ok false && decide (n < 64) && decide (2 ≤ off ∧ off < 2 ^ 14)
      | .wait g a b c d e => waitOk g [a, b, c, d, e]
      | .fence g _ ord => g.ok false && !(ord == .rlx)
      | .deq g d q _ => g.ok false && decide (d < 64) && d % 4 == 0 && decide (q < 4)
      | .fcall g _ _ rc rva rvb => g.ok false && decide (rc ≤ 2) && decide (rva < 256) && decide (rvb < 256) &&
          (!(rc == 0) || rva == 0) && (decide (2 ≤ rc) || rvb == 0) && !(rc == 2 && rva == rvb)
      | _ => true

/-- The guard of a program instruction. -/
def Instr.guard (i : Instr) : Guard :=
  match i.spec with
  | some (o, _) => o.g
  | none =>
    match i.copOk with
    | some (o, _) => o.g
    | none =>
      match i with
      | .br g _ _ _ | .brv g _ _ _ | .jmp g _ | .call g _ | .ret g | .regang g | .yield g | .exit g | .nop g | .fsync g
      | .done g | .bri g _ _ _ | .loop g _ _ _ | .wait g _ _ _ _ _ | .fence g _ _ | .deq g _ _ _ | .fcall g _ _ _ _ _ => g
      | _ => Guard.none

/-- Whether the instruction is guarded by a lane predicate (R43, R66). -/
def Instr.vecGuard (i : Instr) : Bool :=
  match i.spec with
  | some (o, _) => o.k.vec
  | none => match i with | .brv _ _ _ _ => true | .bri _ vec _ _ => vec | _ => false

/-- The guard's register, when the guard tests one. -/
def Instr.guardRefs (i : Instr) : List RegRef :=
  if i.guard.pred == 0 then [] else if i.vecGuard then [.k i.guard.pred] else [.q i.guard.pred]

/-- Registers an engine command reads: those of the fields its function uses (R53, R76). -/
def Instr.copReads (i : Instr) : List RegRef :=
  match i with
  | .cpyLd o | .cpySt o | .cpyWs o =>
    .s o.sa :: (if o.str then [.s (o.sa + 1)] else []) ++ (if o.bar then [.s o.sb] else [])
  | .cpyFill o => .s o.sa :: (if o.bar then [.s o.sb] else [])
  | .cpyGth o | .glTopk o | .glSmax o | .glSamp o => [.s o.sa, .s o.sb]
  | .mmo o => (if bitAt o.cm 4 then [.s o.sa] else []) ++ (if bitAt o.cm 5 then [.s o.sb] else [])
  | .mdrain o => if bitAt o.cm 2 then [] else .s o.sa :: (if bitAt o.cm 3 then [.s (o.sa + 1)] else [])
  | .estAdv o | .estClose o => [.s o.sa]
  | _ => []

/-- Registers an instruction reads (R53, R129). -/
def Instr.reads (i : Instr) : List RegRef :=
  i.guardRefs ++
  match i.spec with
  | some (o, sp) =>
    (if sp.dsrc then sp.d.refs (sp.d.cls o.k o.k.vec) o.d else []) ++ sp.a.refs (sp.a.cls o.k o.k.vec) o.a ++
    (match o.b with | .v n => sp.b.refs true n | .s n => sp.b.refs false n | .imm _ => []) ++
    sp.c.refs (sp.c.cls o.k o.k.cVec) o.c
  | none =>
    match i.copOk with
    | some _ => i.copReads
    | none =>
      match i with
      | .br _ _ q _ => [.q q]
      | .brv _ _ k _ => [.k k]
      | .bri _ vec a b => [.s a, if vec then .v b else .s b]
      | .loop _ imm n _ => if imm then [] else [.s n]
      | _ => []

/-- Registers an instruction writes (R53). -/
def Instr.writes (i : Instr) : List RegRef :=
  match i.spec with
  | some (o, sp) =>
    (if sp.dst then sp.d.refs (sp.d.cls o.k o.k.vec) o.d else []) ++
    (match i with | .shfl o => if o.x / 8 % 8 == 0 then [] else [.k (o.x / 8 % 8)] | _ => [])
  | none =>
    match i.copOk with
    | some (o, _) => if o.rf then [.s o.rr] else []
    | none =>
      match i with
      | .deq _ d q _ => [.s d, .s (d + 1), .s (d + 2), .s (d + 3)] ++ (if q == 0 then [] else [.q q])
      | _ => []

/-- Tile indices an instruction names (R27): TA of tile, copy and matrix functions, TB of `mmo`. -/
def Instr.tiles (i : Instr) : List Nat :=
  match i with
  | .tdefBytes o | .tdefPlane o | .tset o | .tq o | .cpyLd o | .cpySt o | .cpyGth o | .cpyWs o | .cpyFill o => [o.ta]
  | .mmo o => [o.ta, o.tb]
  | .mdrain o => if bitAt o.cm 2 then [o.ta] else []
  | _ => []

/-- One above the highest vector register named, return registers and LIVE groups of `fcall` included (R27, R122). -/
def Instr.vtop (i : Instr) : Nat :=
  let rs := (i.reads ++ i.writes).map (fun r => match r with | .v n => n + 1 | _ => 0)
  let fs := match i with
    | .fcall _ _ lv rc rva rvb =>
      (if rc == 0 then 0 else rva + 1) :: (if rc == 2 then rvb + 1 else 0) ::
      ((List.range 32).map (fun g => if lv.getLsbD g then 8 * g + 1 else 0))
    | _ => []
  (rs ++ fs).foldl max 0

/-- Rows of the table that are no instruction of a program: events of the machine and of its surroundings. -/
def Instr.isEvent (i : Instr) : Bool :=
  match i.spec, i.copOk with
  | none, none =>
    match i with
    | .br _ _ _ _ | .brv _ _ _ _ | .jmp _ _ | .call _ _ | .ret _ | .regang _ | .yield _ | .exit _ | .nop _ | .fsync _
    | .done _ | .bri _ _ _ _ | .loop _ _ _ _ | .wait _ _ _ _ _ _ | .fence _ _ _ | .deq _ _ _ _ | .fcall _ _ _ _ _ _ => false
    | _ => true
  | _, _ => false

end Sys2Proof
end

