-- ==== Sys2Proof/Machine/Float.lean ====
section
/-!
DEFINITION. Floating-point arithmetic on bit patterns: exact dyadic values, one rounding, special values and flags
(R80, R81, R88 to R97, R264). Patterns are natural numbers. Transcendental functions are computed with 384 bits and rounded
once; their exact values at the operands treated here as inexact are irrational, so 384 bits place them on the right side of
every rounding boundary of binary32 (log 15).
-/
namespace Sys2Proof.Machine

/-- A floating format (R264): mantissa bits, bias, total width, largest finite magnitude pattern, canonical NaN if any,
and whether the pattern after the largest finite one is an infinity. -/
structure FFmt where
  mb     : Nat
  bias   : Nat
  width  : Nat
  maxPat : Nat
  nan    : Option Nat
  hasInf : Bool
deriving DecidableEq, Repr

def fmtF32 : FFmt := { mb := 23, bias := 127, width := 32, maxPat := 0x7F7FFFFF, nan := some 0x7FC00000, hasInf := true }
def fmtF16 : FFmt := { mb := 10, bias := 15, width := 16, maxPat := 0x7BFF, nan := some 0x7E00, hasInf := true }
def fmtBf16 : FFmt := { mb := 7, bias := 127, width := 16, maxPat := 0x7F7F, nan := some 0x7FC0, hasInf := true }
def fmtE4m3 : FFmt := { mb := 3, bias := 7, width := 8, maxPat := 0x7E, nan := some 0x7F, hasInf := false }
def fmtE5m2 : FFmt := { mb := 2, bias := 15, width := 8, maxPat := 0x7B, nan := some 0x7E, hasInf := true }
def fmtE3m2 : FFmt := { mb := 2, bias := 3, width := 6, maxPat := 0x1F, nan := none, hasInf := false }
def fmtE2m3 : FFmt := { mb := 3, bias := 1, width := 6, maxPat := 0x1F, nan := none, hasInf := false }

/-- The format of a floating operand type. -/
def fmtOfTy : Ty → FFmt
  | .f16 => fmtF16
  | .bf16 => fmtBf16
  | _ => fmtF32

/-- The value a pattern encodes: a finite value is (-1)^neg x m x 2^e. -/
inductive FV where
  | nan
  | inf (neg : Bool)
  | fin (neg : Bool) (m : Nat) (e : Int)
deriving DecidableEq, Repr

/-- Sign bit and magnitude pattern. -/
def fNeg (F : FFmt) (p : Nat) : Bool := bitAt p (F.width - 1)
def fMag (F : FFmt) (p : Nat) : Nat := p % 2 ^ (F.width - 1)

/-- Value of a pattern (R264). -/
def fvOf (F : FFmt) (p : Nat) : FV :=
  let mag := fMag F p
  if F.maxPat < mag then
    (if F.hasInf && mag == F.maxPat + 1 then .inf (fNeg F p) else .nan)
  else if mag < 2 ^ F.mb then .fin (fNeg F p) mag (1 - F.bias - F.mb)
  else .fin (fNeg F p) (2 ^ F.mb + mag % 2 ^ F.mb) (Int.ofNat (mag / 2 ^ F.mb) - F.bias - F.mb)

/-- Canonical NaN of the format (R90); 0 for a format without NaNs. -/
def fNaN (F : FFmt) : Nat := F.nan.getD 0

/-- Sign placed over a magnitude pattern. -/
def fSigned (F : FFmt) (neg : Bool) (mag : Nat) : Nat := if neg then 2 ^ (F.width - 1) + mag else mag

/-- Infinity, or the largest finite value where the format has none. -/
def fInf (F : FFmt) (neg : Bool) : Nat := fSigned F neg (if F.hasInf then F.maxPat + 1 else F.maxPat)

/-- Exact result of an operation before rounding. `num` is (-1)^neg x r x 2^e with m <= r < m + 1, r = m unless `st`. -/
inductive Ex where
  | nan
  | invalid
  | inf (neg dz : Bool)
  | zero (neg : Bool)
  | num (neg : Bool) (m : Nat) (e : Int) (st : Bool)
deriving DecidableEq, Repr

/-- Bits of `%fpflags` (R89). -/
def flNV : Nat := 1
def flDZ : Nat := 2
def flOF : Nat := 4
def flUF : Nat := 8
def flNX : Nat := 16
def flDN : Nat := 32

/-- Whether the truncated quotient is raised by one unit (R64, R80). -/
def roundsUp (mode : Rnd) (neg odd : Bool) (rem half : Nat) (st : Bool) : Bool :=
  match mode with
  | .dyn | .rn => decide (half < rem) || (rem == half && decide (0 < half) && (st || odd))
  | .rz => false
  | .ru => !neg && (decide (0 < rem) || st)
  | .rd => neg && (decide (0 < rem) || st)

/-- Which overflow gives the largest finite value instead of an infinity (R80). -/
def overflowsToMax (mode : Rnd) (neg : Bool) : Bool :=
  match mode with
  | .dyn | .rn => false
  | .rz => true
  | .ru => neg
  | .rd => !neg

/-- A rounded result: pattern, inexact, overflow, tiny before rounding. -/
structure Rounded where
  pat  : Nat
  nx   : Bool
  ovf  : Bool
  tiny : Bool
deriving DecidableEq, Repr

/-- RNBF keeps its largest finite value below 2^128 (1 - 2^-25), as R80 states for it beside RN32. -/
def bfStays (F : FFmt) (mode : Rnd) (m : Nat) (e : Int) : Bool :=
  F.mb == 7 && F.bias == 127 && mode == .rn &&
  decide (m * 2 ^ (e - 103).toNat < (2 ^ 25 - 1) * 2 ^ (103 - e).toNat)

/-- One rounding of (-1)^neg x m x 2^e (with sticky part) to the format (R80, RUB of R90). OF and NX go by RUB, so a bfloat16 result that
R80 keeps at the largest finite value raises both where its unbounded rounding lies beyond (log 130). -/
def roundNum (F : FFmt) (mode : Rnd) (neg : Bool) (m : Nat) (e : Int) (st : Bool) : Rounded :=
  let len : Int := Int.ofNat (Nat.log2 m) + 1
  let lsbMin : Int := 1 - F.bias - F.mb
  let lsb := max (e + len - (F.mb + 1)) lsbMin
  let sh := lsb - e
  let q := if sh ≤ 0 then m * 2 ^ (-sh).toNat else m / 2 ^ sh.toNat
  let rem := if sh ≤ 0 then 0 else m % 2 ^ sh.toNat
  let half := if sh ≤ 0 then 0 else 2 ^ (sh.toNat - 1)
  let q' := if roundsUp mode neg (q % 2 == 1) rem half st then q + 1 else q
  let mag := (lsb - lsbMin).toNat * 2 ^ F.mb + q'
  let ovf := decide (F.maxPat < mag)
  { pat := if ovf then (if overflowsToMax mode neg || bfStays F mode m e then fSigned F neg F.maxPat else fInf F neg) else fSigned F neg mag
    nx := decide (0 < rem) || st || ovf
    ovf := ovf
    tiny := decide (e + len ≤ 1 - F.bias) }

/-- Rounding and flushing control in force for one format (R88). -/
structure FEnv where
  rm  : Rnd
  daz : Bool
  ftz : Bool
deriving DecidableEq, Repr

/-- Nearest even, subnormals kept: the environment of the engines (R200, R238, R273, R293, R308, R338). -/
def envRN : FEnv := { rm := .rn, daz := false, ftz := false }

/-- Last steps of R90: rounding, flags, flush to zero. -/
def fFinish (F : FFmt) (env : FEnv) : Ex → Nat × Nat
  | .nan => (fNaN F, 0)
  | .invalid => (fNaN F, flNV)
  | .inf neg dz => (fInf F neg, if dz then flDZ else 0)
  | .zero neg => (fSigned F neg 0, 0)
  | .num neg m e st =>
    let r := roundNum F env.rm neg m e st
    let fl := (if r.nx then flNX else 0) ||| (if r.ovf then flOF ||| flNX else 0) |||
              (if r.nx && r.tiny then flUF else 0)
    if env.ftz && decide (0 < fMag F r.pat ∧ fMag F r.pat < 2 ^ F.mb) then (fSigned F neg 0, fl ||| flUF ||| flNX)
    else (r.pat, fl)

/-- SAT: clamp to 0 to 1, NaN to +0, no flag (R90). -/
def fSat (F : FFmt) (p : Nat) : Nat :=
  match fvOf F p with
  | .nan => 0
  | .inf true => 0
  | .fin true _ _ => 0
  | _ => min p (F.bias * 2 ^ F.mb)

/-- Operand after DAZ, with the DN flag (R88, R90). -/
def fDaz (F : FFmt) (env : FEnv) (p : Nat) : Nat × Nat :=
  if env.daz && decide (0 < fMag F p ∧ fMag F p < 2 ^ F.mb) then (fSigned F (fNeg F p) 0, flDN) else (p, 0)

def FV.isNan : FV → Bool
  | .nan => true
  | _ => false

/-- The procedure of R90 around an exact operation: DAZ, NaN operands, exact result, rounding, flags, SAT. An operation that is invalid
beside a NaN says so itself (`ffma`, R92). -/
def fRun (F : FFmt) (env : FEnv) (sat : Bool) (xs : List Nat) (f : List FV → Ex) : Nat × Nat :=
  let ds := xs.map (fDaz F env)
  let vs := ds.map (fun d => fvOf F d.1)
  let dn := ds.foldl (fun a d => a ||| d.2) 0
  let r := if vs.any FV.isNan && !(f vs == .invalid) then (fNaN F, 0) else fFinish F env (f vs)
  (if sat then fSat F r.1 else r.1, dn ||| r.2)

/-- Signed integer mantissa. -/
def sgnInt (neg : Bool) (m : Nat) : Int := if neg then -(Int.ofNat m) else Int.ofNat m

/-- Exact value from an integer mantissa; `zneg` is the sign of an exact zero. -/
def exOfInt (zneg : Bool) (i : Int) (e : Int) : Ex :=
  if i = 0 then .zero zneg else .num (decide (i < 0)) i.natAbs e false

/-- a + b; the sign of an exact zero is the one IEEE 754 gives (R81). -/
def exAdd (rm : Rnd) : FV → FV → Ex
  | .nan, _ | _, .nan => .nan
  | .inf n1, .inf n2 => if n1 == n2 then .inf n1 false else .invalid
  | .inf n, _ | _, .inf n => .inf n false
  | .fin n1 m1 e1, .fin n2 m2 e2 =>
    let e := min e1 e2
    let s := sgnInt n1 (m1 * 2 ^ (e1 - e).toNat) + sgnInt n2 (m2 * 2 ^ (e2 - e).toNat)
    exOfInt (if m1 == 0 && m2 == 0 && n1 == n2 then n1 else rm == .rd) s e

def FV.negate : FV → FV
  | .nan => .nan
  | .inf n => .inf (!n)
  | .fin n m e => .fin (!n) m e

/-- a x b. -/
def exMul : FV → FV → Ex
  | .nan, _ | _, .nan => .nan
  | .inf n1, .inf n2 => .inf (n1 != n2) false
  | .inf n1, .fin n2 m _ | .fin n2 m _, .inf n1 => if m == 0 then .invalid else .inf (n1 != n2) false
  | .fin n1 m1 e1, .fin n2 m2 e2 => if m1 * m2 == 0 then .zero (n1 != n2) else .num (n1 != n2) (m1 * m2) (e1 + e2) false

/-- a x b + c, one rounding; 0 x inf is invalid whatever c is (R92). -/
def exFma (rm : Rnd) (a b c : FV) : Ex :=
  match exMul a b with
  | .nan => .nan
  | .invalid => .invalid
  | .inf n _ => exAdd rm (.inf n) c
  | .zero n => exAdd rm (.fin n 0 0) c
  | .num n m e _ => exAdd rm (.fin n m e) c

/-- Quotient of positive mantissas with at least 100 significant bits. -/
def exQuot (neg : Bool) (m1 : Nat) (e1 : Int) (m2 : Nat) (e2 : Int) : Ex :=
  let k := 128 + Nat.log2 m2
  .num neg (m1 * 2 ^ k / m2) (e1 - e2 - k) (decide (0 < m1 * 2 ^ k % m2))

/-- a / b (R92). -/
def exDiv : FV → FV → Ex
  | .nan, _ | _, .nan => .nan
  | .inf _, .inf _ => .invalid
  | .inf n1, .fin n2 _ _ => .inf (n1 != n2) false
  | .fin n1 _ _, .inf n2 => .zero (n1 != n2)
  | .fin n1 m1 e1, .fin n2 m2 e2 =>
    if m2 == 0 then (if m1 == 0 then .invalid else .inf (n1 != n2) true)
    else if m1 == 0 then .zero (n1 != n2)
    else exQuot (n1 != n2) m1 e1 m2 e2

/-- Integer square root, bit by bit from 2^i. -/
def isqrtFrom (n : Nat) : Nat → Nat → Nat
  | 0, r => if (r + 1) * (r + 1) ≤ n then r + 1 else r
  | i + 1, r => isqrtFrom n i (if (r + 2 ^ (i + 1)) * (r + 2 ^ (i + 1)) ≤ n then r + 2 ^ (i + 1) else r)
def isqrt (n : Nat) : Nat := isqrtFrom n (Nat.log2 n / 2 + 1) 0

/-- Square root of a positive value. -/
def exRoot (m : Nat) (e : Int) : Ex :=
  let k : Nat := if (e % 2 : Int) = 0 then 160 else 161
  let r := isqrt (m * 2 ^ k)
  .num false r ((e - k) / 2) (decide (r * r < m * 2 ^ k))

/-- Square root (R92). -/
def exSqrt : FV → Ex
  | .nan => .nan
  | .inf n => if n then .invalid else .inf false false
  | .fin n m e => if m == 0 then .zero n else if n then .invalid else exRoot m e

/-- 1 / a (R93). -/
def exRcp : FV → Ex
  | .nan => .nan
  | .inf n => .zero n
  | .fin n m e => if m == 0 then .inf n true else exQuot n 1 0 m e

/-- 1 / sqrt a (R93). -/
def exRsq : FV → Ex
  | .nan => .nan
  | .inf n => if n then .invalid else .zero false
  | .fin n m e =>
    if m == 0 then .inf n true else if n then .invalid
    else
      let m' := if (e % 2 : Int) = 0 then m else 2 * m
      let e' := if (e % 2 : Int) = 0 then e else e - 1
      let k : Nat := 200
      let r := isqrt (2 ^ (2 * k) / m')
      .num false r (-(e' / 2) - k) (decide (r * r * m' < 2 ^ (2 * k)))

/-- floor of pi x 2^384 and of ln 2 x 2^384. -/
def piFix : Nat := 0x3243f6a8885a308d313198a2e03707344a4093822299f31d0082efa98ec4e6c89452821e638d01377be5466cf34e90c6c
def ln2Fix : Nat := 0xb17217f7d1cf79abc9e3b39803f2f6af40f343267298b62d8a0d175b8baafa2be7b876206debac98559552fb4afa1b10
def fixBits : Nat := 384

/-- Partial sums of e^t - 1 in fixed point: term k is t^k / k!. -/
def expSum (t : Nat) : Nat → Nat → Nat → Nat → Nat
  | 0, _, _, acc => acc
  | n + 1, k, term, acc =>
    let term' := term * t / 2 ^ fixBits / k
    expSum t n (k + 1) term' (acc + term')

/-- 2^(f / 2^fixBits) in fixed point, for 0 <= f < 2^fixBits. -/
def exp2Fix (f : Nat) : Nat := expSum (f * ln2Fix / 2 ^ fixBits) 90 1 (2 ^ fixBits) (2 ^ fixBits)

/-- Integer part of a dyadic, rounded down, and its fraction in fixed point. -/
def dyFloor (i : Int) (e : Int) : Int := if 0 ≤ e then i * 2 ^ e.toNat else i / 2 ^ (-e).toNat
def dyFracFix (i : Int) (e : Int) : Nat :=
  if 0 ≤ e then 0 else ((i % 2 ^ (-e).toNat) * 2 ^ fixBits / 2 ^ (-e).toNat).toNat

/-- 2^a (R92, R293). -/
def exExp2 : FV → Ex
  | .nan => .nan
  | .inf n => if n then .zero false else .inf false false
  | .fin n m e =>
    let i := sgnInt n m
    let fl := max (-1000) (min (dyFloor i e) 1000)
    if fl = 1000 then .num false 1 1000 true
    else if fl = -1000 then .num false (2 ^ 64) (-1064) true
    else
      let fr := dyFracFix i e
      if fr = 0 ∧ (0 ≤ e ∨ i % 2 ^ (-e).toNat = 0) then .num false 1 fl false
      else .num false (exp2Fix fr) (fl - fixBits) true

/-- Partial sums of atanh t in fixed point: term k is t^(2k+1) / (2k+1). -/
def atanhSum (t2 : Nat) : Nat → Nat → Nat → Nat → Nat
  | 0, _, _, acc => acc
  | n + 1, k, pw, acc =>
    let pw' := pw * t2 / 2 ^ fixBits
    atanhSum t2 n (k + 2) pw' (acc + pw' / k)

/-- log2 a (R92). -/
def exLog2 : FV → Ex
  | .nan => .nan
  | .inf n => if n then .invalid else .inf false false
  | .fin n m e =>
    if m == 0 then .inf true true else if n then .invalid
    else
      let l := Nat.log2 m
      let ex : Int := e + l
      if m == 2 ^ l then exOfInt false ex 0
      else
        let t := (m - 2 ^ l) * 2 ^ fixBits / (m + 2 ^ l)
        let s := atanhSum (t * t / 2 ^ fixBits) 125 3 t t
        let frac : Nat := 2 * s * 2 ^ fixBits / ln2Fix
        let v : Int := ex * (2 : Int) ^ fixBits + Int.ofNat frac
        .num (decide (v < 0)) (if v < 0 then (-v).toNat - 1 else v.toNat) (-(fixBits : Int)) true

/-- Partial sums of sin in fixed point: term k is (-1)^k t^(2k+1) / (2k+1)!. -/
def sinSum (t2 : Nat) : Nat → Nat → Nat → Int → Int
  | 0, _, _, acc => acc
  | n + 1, k, term, acc =>
    let term' := term * t2 / 2 ^ fixBits / (k * (k + 1))
    sinSum t2 n (k + 2) term' (if k % 4 == 2 then acc - Int.ofNat term' else acc + Int.ofNat term')

/-- sin 2 pi r for r = i x 2^e with 0 < r <= 1/4; exact at 1/4. -/
def exSinTurn (neg : Bool) (i : Nat) (e : Int) : Ex :=
  if e < 0 ∧ i * 4 = 2 ^ (-e).toNat then .num neg 1 0 false
  else
    let t := 2 * piFix * i / 2 ^ (-e).toNat
    let s := sinSum (t * t / 2 ^ fixBits) 60 2 t (Int.ofNat t)
    .num neg s.toNat (-(fixBits : Int)) true

/-- sin 2 pi r, exact reduction: r in turns as i x 2^e with e < 0 and -1/2 <= r < 1/2 (R93). -/
def exSinRed (i : Int) (e : Int) : Ex :=
  let h : Int := 2 ^ (-e).toNat
  let a : Int := i.natAbs
  let b := if 4 * a ≤ h then a else h / 2 - a
  if b = 0 then .zero false else exSinTurn (decide (i < 0)) b.toNat e

/-- r := x - floor(x + 1/2), as an integer mantissa over 2^e with e <= -2 (R93). -/
def turnRed (neg : Bool) (m : Nat) (e : Int) : Int × Int :=
  if 0 ≤ e then (0, -2)
  else
    let e' := min e (-2)
    let i := sgnInt neg (m * 2 ^ (e - e').toNat)
    let h : Int := 2 ^ (-e').toNat
    ((i + h / 2) % h - h / 2, e')

/-- sin 2 pi a (R93). -/
def exSin : FV → Ex
  | .nan => .nan
  | .inf _ => .invalid
  | .fin n m e =>
    if m == 0 then .zero n
    else exSinRed (turnRed n m e).1 (turnRed n m e).2

/-- cos 2 pi a = sin 2 pi (1/4 - |r|) (R93). -/
def exCos : FV → Ex
  | .nan => .nan
  | .inf _ => .invalid
  | .fin n m e =>
    let r := turnRed n m e
    exSinRed (2 ^ (-r.2).toNat / 4 - Int.ofNat r.1.natAbs) r.2

/-- A value rounded to an integer in the given mode, with inexactness. -/
def intRound (mode : Rnd) (neg : Bool) (m : Nat) (e : Int) : Int × Bool :=
  if 0 ≤ e then (sgnInt neg (m * 2 ^ e.toNat), false)
  else
    let d := 2 ^ (-e).toNat
    let q := m / d
    let r := m % d
    (sgnInt neg (if roundsUp mode neg (q % 2 == 1) r (d / 2) false then q + 1 else q), decide (0 < r))

/-- a rounded to an integral value in the format (R92). -/
def exRint (mode : Rnd) : FV → Ex
  | .nan => .nan
  | .inf n => .inf n false
  | .fin n m e => exOfInt n (intRound mode n m e).1 0

/-- Order key of a number: -0 and +0 compare equal (R92). -/
def fKey (F : FFmt) (p : Nat) : Int := sgnInt (fNeg F p) (fMag F p)

/-- Smaller or larger operand, -0 below +0, NaN yields the other (R92). -/
def fPick (F : FFmt) (env : FEnv) (isMax : Bool) (x y : Nat) : Nat × Nat :=
  let a := fDaz F env x
  let b := fDaz F env y
  let fl := a.2 ||| b.2
  match (fvOf F a.1).isNan, (fvOf F b.1).isNan with
  | true, true => (fNaN F, fl)
  | true, false => (b.1, fl)
  | false, true => (a.1, fl)
  | false, false =>
    let lt := decide (fKey F a.1 < fKey F b.1) || (fKey F a.1 == fKey F b.1 && fNeg F a.1)
    (if isMax then (if lt then b.1 else a.1) else (if lt then a.1 else b.1), fl)

/-- `fmin` and `fmax` (R92): FTZ applies to the result (R90), and no flag but DN is raised. -/
def fMinMax (F : FFmt) (env : FEnv) (isMax : Bool) (x y : Nat) : Nat × Nat :=
  let r := fPick F env isMax x y
  (if env.ftz && decide (0 < fMag F r.1 ∧ fMag F r.1 < 2 ^ F.mb) then fSigned F (fNeg F r.1) 0 else r.1, r.2)

/-- `fcmp` conditions (R75, R92) with the DN flag. -/
def fCompare (F : FFmt) (env : FEnv) (cond x y : Nat) : Bool × Nat :=
  let a := fDaz F env x
  let b := fDaz F env y
  let un := (fvOf F a.1).isNan || (fvOf F b.1).isNan
  let ka := fKey F a.1
  let kb := fKey F b.1
  (match cond with
   | 0 => !un && decide (ka = kb)
   | 1 => un || !decide (ka = kb)
   | 2 => !un && decide (ka < kb)
   | 3 => !un && decide (ka ≤ kb)
   | 4 => !un && decide (kb < ka)
   | 5 => !un && decide (kb ≤ ka)
   | 6 => un
   | _ => !un, a.2 ||| b.2)

/-- Class mask (R94), without DAZ. -/
def fClassMask (F : FFmt) (p : Nat) : Nat :=
  let neg := fNeg F p
  let mag := fMag F p
  if F.maxPat + 1 < mag then (if bitAt mag (F.mb - 1) then 2 ^ 9 else 2 ^ 8)
  else if mag == F.maxPat + 1 then (if neg then 2 ^ 0 else 2 ^ 7)
  else if 2 ^ F.mb ≤ mag then (if neg then 2 ^ 1 else 2 ^ 6)
  else if 0 < mag then (if neg then 2 ^ 2 else 2 ^ 5)
  else (if neg then 2 ^ 3 else 2 ^ 4)

/-- Exact value of one float format rounded to another by R90 (R96). -/
def fConvert (S D : FFmt) (envS envD : FEnv) (p : Nat) : Nat × Nat :=
  let d := fDaz S envS p
  let r := fFinish D envD (match fvOf S d.1 with
    | .nan => .nan
    | .inf n => .inf n false
    | .fin n m e => if m == 0 then .zero n else .num n m e false)
  (r.1, d.2 ||| r.2)

/-- Integer to float: rounding of the integer, flags NX and OF (R96). -/
def fOfInt (F : FFmt) (rm : Rnd) (i : Int) : Nat × Nat :=
  fFinish F { rm := rm, daz := false, ftz := false } (exOfInt false i 0)

/-- Float to integer in lo to hi: NaN gives 0 with NV, a clamp sets NV, an inexact rounding NX (R96). -/
def fToInt (F : FFmt) (env : FEnv) (lo hi : Int) (p : Nat) : Int × Nat :=
  let d := fDaz F env p
  let r : Int × Nat := match fvOf F d.1 with
    | .nan => (0, flNV)
    | .inf n => (if n then lo else hi, flNV)
    | .fin n m e =>
      let x := intRound env.rm n m e
      let nx := if x.2 then flNX else 0
      if x.1 < lo then (lo, flNV ||| nx) else if hi < x.1 then (hi, flNV ||| nx) else (x.1, nx)
  (r.1, d.2 ||| r.2)

/-- binary32 operations of the engines: nearest even, subnormals kept, no flag (R200, R238, R308). -/
def rn32 (x : Ex) : Nat := (fFinish fmtF32 envRN x).1
def f32Add (a b : Nat) : Nat := rn32 (exAdd .rn (fvOf fmtF32 a) (fvOf fmtF32 b))
def f32Sub (a b : Nat) : Nat := rn32 (exAdd .rn (fvOf fmtF32 a) (fvOf fmtF32 b).negate)
def f32Mul (a b : Nat) : Nat := rn32 (exMul (fvOf fmtF32 a) (fvOf fmtF32 b))
def f32Div (a b : Nat) : Nat := rn32 (exDiv (fvOf fmtF32 a) (fvOf fmtF32 b))
def f32Sqrt (a : Nat) : Nat := rn32 (exSqrt (fvOf fmtF32 a))
def f32Exp2 (a : Nat) : Nat := rn32 (exExp2 (fvOf fmtF32 a))
def f32Abs (a : Nat) : Nat := a % 2 ^ 31
def f32IsNan (a : Nat) : Bool := (fvOf fmtF32 a).isNan
def f32IsZero (a : Nat) : Bool := fMag fmtF32 a == 0
def f32Lt (a b : Nat) : Bool := (fCompare fmtF32 envRN 2 a b).1
def f32Le (a b : Nat) : Bool := (fCompare fmtF32 envRN 3 a b).1

end Sys2Proof.Machine
end

