-- ==== Sys2Proof/Decode.lean ====
section
/-!
DEFINITION. Decoding and encoding (R56 to R78, R105, R121). `decode` is total on any bytes. It refuses an unassigned opcode,
a form the opcode does not have, a non-zero reserved bit and an unlisted modifier code by name; what an instruction accepts
in its fields is `Instr.wf`. Either way the machine raises ILLEGAL.
-/
namespace Sys2Proof

/-- Why bytes are no instruction (R72, R74, R78). -/
inductive DecodeError where
  | short | opcode | minor | function | form | kind | reserved | literal | modifier
deriving DecidableEq, Repr

/-- Little-endian value of bytes (R4). -/
def leNat : List Byte → Nat
  | [] => 0
  | b :: bs => b.toNat + 256 * leNat bs

/-- The low n bytes of a value, least significant first (R4). -/
def leBytes : Nat → Nat → List Byte
  | 0, _ => []
  | n + 1, x => BitVec.ofNat 8 (x % 256) :: leBytes n (x / 256)

/-- Words of an instruction that starts with this word: LEN in bits 31:30 (R59). -/
def instrWords (w0 : Nat) : Nat :=
  match w0 / 2 ^ 30 % 4 with
  | 0 => 1
  | 1 => 3
  | 2 => 3
  | _ => 5

/-- n 32-bit words from the front of a byte list. -/
def wordsOf : Nat → List Byte → List Nat
  | 0, _ => []
  | n + 1, bs => leNat (bs.take 4) :: wordsOf n (bs.drop 4)

/-- Sign extension of an n-bit field to 64 bits (R8). -/
def sext64 (n x : Nat) : W64 := if 2 ^ (n - 1) ≤ x % 2 ^ n then BitVec.ofNat 64 (2 ^ 64 + x % 2 ^ n - 2 ^ n) else BitVec.ofNat 64 (x % 2 ^ n)

def Kind.ofCode (n : Nat) : Kind := match n with | 0 => .vv | 1 => .vs | 2 => .uu | _ => .vi
def Kind.code : Kind → Nat | .vv => 0 | .vs => 1 | .uu => 2 | .vi => 3
def Rnd.ofCode (n : Nat) : Option Rnd := [Rnd.dyn, .rn, .rz, .ru, .rd][n]?
def Rnd.code : Rnd → Nat | .dyn => 0 | .rn => 1 | .rz => 2 | .ru => 3 | .rd => 4
def Scope.ofCode (n : Nat) : Option Scope := [Scope.wave, .core, .quad, .die, .pkg, .pod, .sys][n]?
def Scope.code : Scope → Nat | .wave => 0 | .core => 1 | .quad => 2 | .die => 3 | .pkg => 4 | .pod => 5 | .sys => 6
def Ord.ofCode (n : Nat) : Ord := match n with | 0 => .rlx | 1 => .acq | 2 => .rel | _ => .ar
def Ord.code : Ord → Nat | .rlx => 0 | .acq => 1 | .rel => 2 | .ar => 3

/-- Base primaries (R72) and minor opcodes (R75): the instruction of an opcode and minor opcode. -/
def rowOf (op min : Nat) : Option (Ops → Instr) :=
  match op, min with
  | 0x01, 0 => some .iadd | 0x02, 0 => some .isub | 0x03, 0 => some .imul | 0x04, 0 => some .imulh
  | 0x05, 0 => some .iand | 0x06, 0 => some .ior | 0x07, 0 => some .ixor | 0x08, 0 => some .ishl
  | 0x09, 0 => some .ishr | 0x0A, 0 => some .isra | 0x0B, 0 => some .imin | 0x0C, 0 => some .imax
  | 0x0D, 0 => some .inot | 0x0E, 0 => some .iabs | 0x0F, 0 => some .ipopc | 0x10, 0 => some .iclz
  | 0x11, 0 => some .fadd | 0x12, 0 => some .fsub | 0x13, 0 => some .fmul | 0x14, 0 => some .fmin
  | 0x15, 0 => some .fmax | 0x16, 0 => some .fdiv | 0x17, 0 => some .fsqrt | 0x18, 0 => some .frcp
  | 0x19, 0 => some .frsq | 0x1A, 0 => some .fexp2 | 0x1B, 0 => some .flog2 | 0x1C, 0 => some .fsin
  | 0x1D, 0 => some .fcos | 0x1E, 0 => some .fclass | 0x1F, 0 => some .frnd | 0x20, 0 => some .hadd2
  | 0x21, 0 => some .hmul2 | 0x22, 0 => some .mov | 0x23, 0 => some .movi | 0x24, 0 => some .bcast
  | 0x25, 0 => some .gets | 0x26, 0 => some .sets | 0x27, 0 => some .rng | 0x28, 0 => some .ld | 0x29, 0 => some .st
  | 0x2A, 0 => some .ldu | 0x2B, 0 => some .stu | 0x2C, 0 => some .lds | 0x2D, 0 => some .sts | 0x2E, 0 => some .ldp
  | 0x2F, 0 => some .stp | 0x30, 0 => some .pf | 0x70, 1 => some .icmp | 0x70, 2 => some .isel | 0x70, 3 => some .imad
  | 0x70, 4 => some .ibfx | 0x70, 5 => some .ibfi | 0x71, 1 => some .ffma | 0x71, 2 => some .fcmp
  | 0x71, 3 => some .hfma2 | 0x71, 4 => some .cvt | 0x71, 5 => some .pack | 0x71, 6 => some .unpack
  | 0x72, 1 => some .shfl | 0x72, 2 => some .vote | 0x72, 3 => some .gred | 0x72, 4 => some .gscan
  | 0x73, 1 => some .atom | 0x73, 2 => some .red | 0x74, 1 => some .barInit | 0x74, 2 => some .barArr
  | 0x74, 3 => some .barExp | 0x74, 4 => some .barWait | 0x75, 1 => some .estAdd | 0x75, 2 => some .estMrg
  | 0x75, 3 => some .estLd | 0x75, 4 => some .estClr | 0x76, 1 => some .trap | 0x76, 2 => some .xret
  | 0x76, 3 => some .xclr | 0x76, 4 => some .cfgr | 0x76, 5 => some .cfgw | 0x76, 6 => some .live
  | 0x76, 7 => some .tlbi | 0x77, 1 => some .spawn | 0x77, 2 => some .amsg | 0x77, 3 => some .enq
  | 0x77, 4 => some .dlaunch | 0x78, 1 => some .trace | 0x78, 2 => some .tget | 0x78, 3 => some .hgf
  | 0x78, 4 => some .hgs | 0x78, 5 => some .tex | 0x78, 6 => some .tld
  | _, _ => none

/-- Opcode, minor opcode and operands of an instruction with an extended form. -/
def opcodeOf : Instr → Option (Nat × Nat × Ops)
  | .iadd o => some (0x01, 0, o) | .isub o => some (0x02, 0, o) | .imul o => some (0x03, 0, o)
  | .imulh o => some (0x04, 0, o) | .iand o => some (0x05, 0, o) | .ior o => some (0x06, 0, o)
  | .ixor o => some (0x07, 0, o) | .ishl o => some (0x08, 0, o) | .ishr o => some (0x09, 0, o)
  | .isra o => some (0x0A, 0, o) | .imin o => some (0x0B, 0, o) | .imax o => some (0x0C, 0, o)
  | .inot o => some (0x0D, 0, o) | .iabs o => some (0x0E, 0, o) | .ipopc o => some (0x0F, 0, o)
  | .iclz o => some (0x10, 0, o) | .fadd o => some (0x11, 0, o) | .fsub o => some (0x12, 0, o)
  | .fmul o => some (0x13, 0, o) | .fmin o => some (0x14, 0, o) | .fmax o => some (0x15, 0, o)
  | .fdiv o => some (0x16, 0, o) | .fsqrt o => some (0x17, 0, o) | .frcp o => some (0x18, 0, o)
  | .frsq o => some (0x19, 0, o) | .fexp2 o => some (0x1A, 0, o) | .flog2 o => some (0x1B, 0, o)
  | .fsin o => some (0x1C, 0, o) | .fcos o => some (0x1D, 0, o) | .fclass o => some (0x1E, 0, o)
  | .frnd o => some (0x1F, 0, o) | .hadd2 o => some (0x20, 0, o) | .hmul2 o => some (0x21, 0, o)
  | .mov o => some (0x22, 0, o) | .movi o => some (0x23, 0, o) | .bcast o => some (0x24, 0, o)
  | .gets o => some (0x25, 0, o) | .sets o => some (0x26, 0, o) | .rng o => some (0x27, 0, o)
  | .ld o => some (0x28, 0, o) | .st o => some (0x29, 0, o) | .ldu o => some (0x2A, 0, o)
  | .stu o => some (0x2B, 0, o) | .lds o => some (0x2C, 0, o) | .sts o => some (0x2D, 0, o)
  | .ldp o => some (0x2E, 0, o) | .stp o => some (0x2F, 0, o) | .pf o => some (0x30, 0, o)
  | .icmp o => some (0x70, 1, o) | .isel o => some (0x70, 2, o) | .imad o => some (0x70, 3, o)
  | .ibfx o => some (0x70, 4, o) | .ibfi o => some (0x70, 5, o) | .ffma o => some (0x71, 1, o)
  | .fcmp o => some (0x71, 2, o) | .hfma2 o => some (0x71, 3, o) | .cvt o => some (0x71, 4, o)
  | .pack o => some (0x71, 5, o) | .unpack o => some (0x71, 6, o) | .shfl o => some (0x72, 1, o)
  | .vote o => some (0x72, 2, o) | .gred o => some (0x72, 3, o) | .gscan o => some (0x72, 4, o)
  | .atom o => some (0x73, 1, o) | .red o => some (0x73, 2, o) | .barInit o => some (0x74, 1, o)
  | .barArr o => some (0x74, 2, o) | .barExp o => some (0x74, 3, o) | .barWait o => some (0x74, 4, o)
  | .estAdd o => some (0x75, 1, o) | .estMrg o => some (0x75, 2, o) | .estLd o => some (0x75, 3, o)
  | .estClr o => some (0x75, 4, o) | .trap o => some (0x76, 1, o) | .xret o => some (0x76, 2, o)
  | .xclr o => some (0x76, 3, o) | .cfgr o => some (0x76, 4, o) | .cfgw o => some (0x76, 5, o)
  | .live o => some (0x76, 6, o) | .tlbi o => some (0x76, 7, o) | .spawn o => some (0x77, 1, o)
  | .amsg o => some (0x77, 2, o) | .enq o => some (0x77, 3, o) | .dlaunch o => some (0x77, 4, o)
  | .trace o => some (0x78, 1, o) | .tget o => some (0x78, 2, o) | .hgf o => some (0x78, 3, o)
  | .hgs o => some (0x78, 4, o) | .tex o => some (0x78, 5, o) | .tld o => some (0x78, 6, o)
  | _ => none

/-- Coprocessor functions (R76). -/
def copRowOf (eng fn : Nat) : Option (Cop → Instr) :=
  match eng, fn with
  | 0, 0x01 => some .tdefBytes | 0, 0x02 => some .tdefPlane | 0, 0x03 => some .tset | 0, 0x04 => some .tq
  | 1, 0x01 => some .cpyLd | 1, 0x02 => some .cpySt | 1, 0x03 => some .cpyGth | 1, 0x04 => some .cpyWs
  | 1, 0x05 => some .cpyFill | 1, 0x10 => some .glTopk | 1, 0x11 => some .glSmax | 1, 0x12 => some .glSamp
  | 2, 0x01 => some .mlease | 2, 0x02 => some .mrel | 2, 0x03 => some .mmo | 2, 0x04 => some .mclr
  | 2, 0x05 => some .mdrain | 3, 0x01 => some .estAdv | 3, 0x02 => some .estClose
  | _, _ => none

/-- Engine, function and operands of a coprocessor instruction. -/
def copcodeOf : Instr → Option (Nat × Nat × Cop)
  | .tdefBytes o => some (0, 0x01, o) | .tdefPlane o => some (0, 0x02, o) | .tset o => some (0, 0x03, o)
  | .tq o => some (0, 0x04, o) | .cpyLd o => some (1, 0x01, o) | .cpySt o => some (1, 0x02, o)
  | .cpyGth o => some (1, 0x03, o) | .cpyWs o => some (1, 0x04, o) | .cpyFill o => some (1, 0x05, o)
  | .glTopk o => some (1, 0x10, o) | .glSmax o => some (1, 0x11, o) | .glSamp o => some (1, 0x12, o)
  | .mlease o => some (2, 0x01, o) | .mrel o => some (2, 0x02, o) | .mmo o => some (2, 0x03, o)
  | .mclr o => some (2, 0x04, o) | .mdrain o => some (2, 0x05, o) | .estAdv o => some (3, 0x01, o)
  | .estClose o => some (3, 0x02, o)
  | _ => none

/-- Default type of a base form (R73). -/
def baseTy (op : Nat) (k : Kind) : Ty :=
  if (1 ≤ op ∧ op ≤ 4) ∨ op = 0x0B ∨ op = 0x0C ∨ op = 0x0E then (if k = .uu then .i64 else .i32)
  else if (5 ≤ op ∧ op ≤ 0x10) ∨ op = 0x22 ∨ op = 0x23 ∨ op = 0x27 then (if k = .uu then .b64 else .b32)
  else if 0x11 ≤ op ∧ op ≤ 0x1F then .f32
  else if op = 0x20 ∨ op = 0x21 then .f16
  else if op = 0x2A ∨ op = 0x2B then .b64
  else .b32

/-- Lane-offset scale of a base form: the access size of `ld` to `stp` under K = 00 (R65, R187). -/
def baseX (op : Nat) (k : Kind) : Nat := if k = .vv ∧ 0x28 ≤ op ∧ op ≤ 0x2F then 2 else 0

/-- The immediates an instruction takes, whatever its operands. -/
def immKindOf (mk : Ops → Instr) (o : Ops) : ImmKind :=
  match (mk o).spec with
  | some (_, sp) => sp.imm
  | none => .none

/-- The pattern of an immediate of n bits (R67): sign-extended to the operand type, or for a float type the integer value
(base forms) or bits 31:8 of a binary32 pattern (IMM24). -/
def immPattern (kind : ImmKind) (t : Ty) (n raw : Nat) : W64 :=
  match kind with
  | .val =>
    if t.isFloat then
      (if n = 24 then BitVec.ofNat 64 (if t = .f32 then raw * 256
         else (Machine.fConvert Machine.fmtF32 (Machine.fmtOfTy t) Machine.envRN Machine.envRN (raw * 256)).1)
       else BitVec.ofNat 64 (Machine.fOfInt (Machine.fmtOfTy t) .rn (sext64 n raw).toInt).1)
    else BitVec.ofNat 64 ((sext64 n raw).toNat % 2 ^ t.bits)
  | _ => sext64 n raw

/-- An operand record with everything zero. -/
def ops0 : Ops :=
  { k := .vv, g := Guard.none, d := 0, a := 0, b := .v 0, c := 0, ty := .b32, rnd := .dyn, sat := false, sc := .wave,
    ord := .rlx, x := 0 }

/-- The literal, words n and n + 1 (R59). -/
def litOf (ws : List Nat) (n : Nat) : W64 := BitVec.ofNat 64 (ws.getD n 0 + 2 ^ 32 * ws.getD (n + 1) 0)

/-- Base form of a primary 0x01 to 0x30 (R61, R62, R65, R67, R68). -/
def decodeBase (op : Nat) (ws : List Nat) : Except DecodeError Instr :=
  match rowOf op 0 with
  | none => .error .opcode
  | some mk =>
    let w0 := ws.getD 0 0
    let k := Kind.ofCode (w0 % 4)
    let bf := field w0 8 2
    let lit := ws.length == 3
    let t := baseTy op k
    let o := { ops0 with k := k, d := field w0 22 16, a := field w0 15 9, ty := t, x := baseX op k }
    let isImm := k == .vi || (k == .uu && bitAt bf 6)
    let ik := immKindOf mk o
    if lit && !isImm then .error .literal
    else if isImm then
      (if lit then
        (if bf % 64 == 0 && (k == .uu || bf == 0) then .ok (mk { o with b := .imm (litOf ws 1) }) else .error .literal)
       else match ik with
        | .lit _ => .error .literal
        | _ => .ok (mk { o with b := .imm (immPattern ik t (if k == .uu then 6 else 7) bf) }))
    else .ok (mk { o with b := if k == .vv then .v bf else .s bf })

/-- Extended form of a primary 0x01 to 0x30 or of a group (R63 to R68, R74, R75). -/
def decodeExt (op : Nat) (ws : List Nat) : Except DecodeError Instr :=
  let w0 := ws.getD 0 0
  let w1 := ws.getD 1 0
  let w2 := ws.getD 2 0
  match rowOf op (field w2 31 24) with
  | none => if (rowOf op 0).isSome || (0x70 ≤ op ∧ op ≤ 0x78) then .error .minor else .error .opcode
  | some mk =>
    let k := Kind.ofCode (w0 % 4)
    let ui := bitAt w0 14
    let imh := field w0 22 15
    let lit := ws.length == 5
    let isImm := k == .vi || (k == .uu && ui)
    if field w0 13 2 != 0 || (ui && k != .uu) || (imh != 0 && !isImm) then .error .reserved
    else
      match Ty.ofCode (field w2 19 16), Rnd.ofCode (field w2 15 13), Scope.ofCode (field w2 11 9) with
      | some t, some rnd, some sc =>
        let o : Ops :=
          { k := k, g := { neg := bitAt w2 23, pred := field w2 22 20 }, d := field w1 31 24, a := field w1 23 16,
            b := if k == .vv then .v (field w1 15 8) else .s (field w1 15 8), c := field w1 7 0, ty := t, rnd := rnd,
            sat := bitAt w2 12, sc := sc, ord := Ord.ofCode (field w2 8 7), x := field w2 6 0 }
        let ik := immKindOf mk o
        if !isImm then (if lit then .error .literal else .ok (mk o))
        else
          let i24 := imh * 65536 + w1 % 65536
          if lit then
            match ik with
            | .val | .lit _ | .off => if i24 == 0 then .ok (mk { o with b := .imm (litOf ws 3) }) else .error .literal
            | .atomOff => if imh == 0 && field w1 15 8 == 0 then .ok (mk { o with b := .imm (litOf ws 3) })
                          else .error .literal
            | _ => .error .literal
          else
            match ik with
            | .val | .off | .imm24 => .ok (mk { o with b := .imm (immPattern ik t 24 i24), c := 0 })
            | _ => .error .kind
      | _, _, _ => .error .modifier

/-- Coprocessor form (R69, R76). -/
def decodeCop (ws : List Nat) : Except DecodeError Instr :=
  let w0 := ws.getD 0 0
  let w1 := ws.getD 1 0
  let w2 := ws.getD 2 0
  if field w0 30 30 = 0 then .error .form
  else if w0 % 4 != 2 then .error .kind
  else if field w0 22 2 != 0 || w1 % 4 != 0 then .error .reserved
  else
    match copRowOf (field w1 31 28) (field w1 27 21) with
    | none => .error .function
    | some mk => .ok (mk
        { g := { neg := bitAt w2 31, pred := field w2 30 28 }, rf := bitAt w1 20, rr := field w1 19 14,
          sa := field w1 13 8, sb := field w1 7 2, ta := field w2 27 22, tb := field w2 21 16, cm := w2 % 65536,
          lit := if ws.length == 5 then some (litOf ws 3) else none })

/-- A threshold of a base `wait` for a class whose mask bit is 1 (R71). -/
def waitTh (w0 bit : Nat) : Option Nat := if bitAt w0 bit then some (field w0 17 12) else none

/-- Control and synchronisation layouts (R71, R105, R121). -/
def decodeCtl (op : Nat) (ws : List Nat) : Except DecodeError Instr :=
  let w0 := ws.getD 0 0
  let w1 := ws.getD 1 0
  let w2 := ws.getD 2 0
  let ext := ws.length == 3
  let k := w0 % 4
  let g : Guard := if ext then { neg := bitAt w2 23, pred := field w2 22 20 } else Guard.none
  let kOk := if op = 0x32 then k == 0 else if op = 0x34 then k == 0 || k == 1 else k == 2
  let w2Ok := !ext || w2 / 2 ^ 20 % 16 * 2 ^ 20 == w2
  let off24 (n : Nat) : BitVec 24 := if ext then BitVec.ofNat 24 w1 else (BitVec.ofNat n (w0 / 4)).signExtend 24
  let brOk (n : Nat) := w2Ok && (!ext || (field w0 (n + 1) 2 == 0 && field w1 31 24 == 0))
  let plainOk (h : Nat) := w2Ok && (!ext || w1 == 0) && field w0 h 2 == 0
  let plain (mk : Guard → Instr) : Except DecodeError Instr := if plainOk 22 then .ok (mk g) else .error .reserved
  if field w0 31 31 = 1 then .error .literal
  else if !kOk then .error .kind
  else
    match op with
    | 0x31 => if brOk 18 then .ok (.br g (bitAt w0 22) (field w0 21 20) (off24 18)) else .error .reserved
    | 0x32 => if brOk 17 then .ok (.brv g (bitAt w0 22) (field w0 21 19) (off24 17)) else .error .reserved
    | 0x33 => if brOk 21 then .ok (.jmp g (off24 21)) else .error .reserved
    | 0x34 => if w2Ok && (!ext || w1 == 0) && field w0 22 16 == 0 then .ok (.bri g (k == 0) (field w0 15 9) (field w0 8 2))
              else .error .reserved
    | 0x35 => if brOk 21 then .ok (.call g (off24 21)) else .error .reserved
    | 0x36 => plain .ret
    | 0x37 => if w2Ok && (!ext || w1 == 0) then .ok (.loop g (bitAt w0 22) (field w0 21 16) (field w0 15 2))
              else .error .reserved
    | 0x38 => plain .regang
    | 0x39 => plain .yield
    | 0x3A => plain .exit
    | 0x3B => plain .nop
    | 0x3C =>
      if !ext then .error .form
      else if w2 / 2 ^ 24 == 0 && w2 % 4 == 0 then
        .ok (.fcall g (BitVec.ofNat 21 (w0 / 4)) (BitVec.ofNat 32 w1) (field w2 19 18) (field w2 17 10) (field w2 9 2))
      else .error .reserved
    | 0x3D => plain .fsync
    | 0x3E =>
      if ext then
        (if w2Ok && field w0 22 2 == 0 && field w1 31 30 == 0 then
           .ok (.wait g (some (field w1 29 24)) (some (field w1 23 18)) (some (field w1 17 12)) (some (field w1 11 6))
             (some (field w1 5 0)))
         else .error .reserved)
      else if field w0 11 2 == 0 then
        .ok (.wait g (waitTh w0 22) (waitTh w0 21) (waitTh w0 20) (waitTh w0 19) (waitTh w0 18))
      else .error .reserved
    | 0x3F =>
      if plainOk 17 then
        match Scope.ofCode (field w0 22 20) with
        | some sc => .ok (.fence g sc (Ord.ofCode (field w0 19 18)))
        | none => .error .modifier
      else .error .reserved
    | 0x40 => plain .done
    | 0x41 => if plainOk 12 then .ok (.deq g (field w0 22 16) (field w0 15 14) (bitAt w0 13)) else .error .reserved
    | _ => .error .opcode

/-- One instruction from its words: OP selects the layout (R61, R72). -/
def decodeWords (ws : List Nat) : Except DecodeError Instr :=
  let op := field (ws.getD 0 0) 29 23
  if op = 0x7F then decodeCop ws
  else if 0x31 ≤ op ∧ op ≤ 0x41 then decodeCtl op ws
  else if field (ws.getD 0 0) 30 30 = 0 then (if 0x70 ≤ op ∧ op ≤ 0x78 then .error .form else decodeBase op ws)
  else decodeExt op ws

/-- One instruction from the front of a byte list, with its length in words (R59). -/
def decode (bs : List Byte) : Except DecodeError (Instr × Nat) :=
  if bs.length < 4 then .error .short
  else
    let n := instrWords (leNat (bs.take 4))
    if bs.length < 4 * n then .error .short
    else match decodeWords (wordsOf n bs) with
      | .ok i => .ok (i, n)
      | .error e => .error e

/-- Words of an instruction in the extended form, with a literal where the instruction takes one (R63, R68). -/
def encodeOps (op min : Nat) (o : Ops) (ik : ImmKind) : List Nat :=
  let isImm := o.b.immNat.isSome
  let v := (o.b.immNat).getD 0
  let lit := isImm && !(ik == .imm24)
  let i24 := if lit || !isImm then 0 else v % 2 ^ 24
  let b8 := match o.b with | .v n => n | .s n => n | .imm _ => i24 / 256 % 256
  let c8 := if isImm && !(ik == .atomOff) then i24 % 256 else o.c
  let w0 := (if lit then 3 else 1) * 2 ^ 30 + op * 2 ^ 23 + i24 / 65536 * 2 ^ 15 +
    (if isImm && o.k == .uu then 2 ^ 14 else 0) + o.k.code
  let w1 := o.d * 2 ^ 24 + o.a * 2 ^ 16 + b8 * 2 ^ 8 + c8
  let w2 := min * 2 ^ 24 + (if o.g.neg then 2 ^ 23 else 0) + o.g.pred * 2 ^ 20 + o.ty.code * 2 ^ 16 + o.rnd.code * 2 ^ 13 +
    (if o.sat then 2 ^ 12 else 0) + o.sc.code * 2 ^ 9 + o.ord.code * 2 ^ 7 + o.x
  [w0, w1, w2] ++ (if lit then [v % 2 ^ 32, v / 2 ^ 32] else [])

/-- Words of a coprocessor instruction (R69). -/
def encodeCop (eng fn : Nat) (o : Cop) : List Nat :=
  let w0 := (if o.lit.isSome then 3 else 1) * 2 ^ 30 + 0x7F * 2 ^ 23 + 2
  let w1 := eng * 2 ^ 28 + fn * 2 ^ 21 + (if o.rf then 2 ^ 20 else 0) + o.rr * 2 ^ 14 + o.sa * 2 ^ 8 + o.sb * 2 ^ 2
  let w2 := (if o.g.neg then 2 ^ 31 else 0) + o.g.pred * 2 ^ 28 + o.ta * 2 ^ 22 + o.tb * 2 ^ 16 + o.cm
  [w0, w1, w2] ++ (match o.lit with | some v => [v.toNat % 2 ^ 32, v.toNat / 2 ^ 32] | none => [])

/-- Words of a control instruction in the extended form: layout bits of word 0, word 1, guard (R71). -/
def encodeCtl (op k bits w1 : Nat) (g : Guard) : List Nat :=
  [2 ^ 30 + op * 2 ^ 23 + bits + k, w1, (if g.neg then 2 ^ 23 else 0) + g.pred * 2 ^ 20]

/-- Mask bit and threshold of one class of a base `wait` (R71). -/
def waitBit (bit : Nat) (t : Option Nat) : Nat := if t.isSome then 2 ^ bit else 0

/-- `wait`: extended with a threshold for every class, else base with one threshold (R71). -/
def encodeWait (g : Guard) (a b c d e : Option Nat) : List Nat :=
  if [a, b, c, d, e].all Option.isSome then
    encodeCtl 0x3E 2 0 (a.getD 0 * 2 ^ 24 + b.getD 0 * 2 ^ 18 + c.getD 0 * 2 ^ 12 + d.getD 0 * 2 ^ 6 + e.getD 0) g
  else
    [0x3E * 2 ^ 23 + waitBit 22 a + waitBit 21 b + waitBit 20 c + waitBit 19 d + waitBit 18 e +
     (([a, b, c, d, e].filterMap id).headD 0) * 2 ^ 12 + 2]

/-- Words of a control instruction. -/
def encodeControl : Instr → List Nat
  | .br g n q off => encodeCtl 0x31 2 ((if n then 2 ^ 22 else 0) + q * 2 ^ 20) off.toNat g
  | .brv g n k off => encodeCtl 0x32 0 ((if n then 2 ^ 22 else 0) + k * 2 ^ 19) off.toNat g
  | .jmp g off => encodeCtl 0x33 2 0 off.toNat g
  | .bri g vec a b => encodeCtl 0x34 (if vec then 0 else 1) (a * 2 ^ 9 + b * 2 ^ 2) 0 g
  | .call g off => encodeCtl 0x35 2 0 off.toNat g
  | .ret g => encodeCtl 0x36 2 0 0 g
  | .loop g imm n off => encodeCtl 0x37 2 ((if imm then 2 ^ 22 else 0) + n * 2 ^ 16 + off * 2 ^ 2) 0 g
  | .regang g => encodeCtl 0x38 2 0 0 g
  | .yield g => encodeCtl 0x39 2 0 0 g
  | .exit g => encodeCtl 0x3A 2 0 0 g
  | .nop g => encodeCtl 0x3B 2 0 0 g
  | .fcall g off lv rc rva rvb =>
    [2 ^ 30 + 0x3C * 2 ^ 23 + off.toNat * 2 ^ 2 + 2, lv.toNat,
     (if g.neg then 2 ^ 23 else 0) + g.pred * 2 ^ 20 + rc * 2 ^ 18 + rva * 2 ^ 10 + rvb * 2 ^ 2]
  | .fsync g => encodeCtl 0x3D 2 0 0 g
  | .wait g a b c d e => encodeWait g a b c d e
  | .fence g sc ord => encodeCtl 0x3F 2 (sc.code * 2 ^ 20 + ord.code * 2 ^ 18) 0 g
  | .done g => encodeCtl 0x40 2 0 0 g
  | .deq g d q w => encodeCtl 0x41 2 (d * 2 ^ 16 + q * 2 ^ 14 + (if w then 2 ^ 13 else 0)) 0 g
  | _ => []

/-- The words of an instruction; none for an event, which has no encoding. -/
def encodeWords (i : Instr) : List Nat :=
  match opcodeOf i with
  | some (op, min, o) => encodeOps op min o (match i.spec with | some (_, sp) => sp.imm | none => .none)
  | none =>
    match copcodeOf i with
    | some (eng, fn, o) => encodeCop eng fn o
    | none => encodeControl i

/-- The bytes of an instruction as memory holds them (R4). -/
def encode (i : Instr) : List Byte := (encodeWords i).flatMap (leBytes 4)

/-- Longest instruction in bytes (R59). -/
def maxInstrBytes : Nat := 20

/-- The bytes of an instruction whose bits are w, zero above nbits (bit 0 is the least significant of the first word). -/
def tableBytes (nbits w : Nat) : List Byte := leBytes maxInstrBytes (w % 2 ^ nbits)

/-- What the decoder reads from an instruction whose bits are w. -/
def decodeTableWord (nbits w : Nat) : Option Instr :=
  match decode (tableBytes nbits w) with
  | .ok (i, _) => some i
  | .error _ => none

end Sys2Proof
end

