-- ==== Sys2Proof/Machine/State.lean ====
section
/-!
DEFINITION. The state of one KX40 package: plain data. Sparse maps are lists of key and value in rising order of key that
list no default value (`Store`, `Mem`), so equal contents are equal lists.
-/
namespace Sys2Proof.Machine

/-- A sparse map in canonical form; its default and its operations are in Ops. -/
abbrev Store (α : Type) := List (Nat × α)

/-- Bytes of the package by physical address (R4, R167); an unlisted byte reads as 0 (log 4). -/
abbrev Mem := List Host.Cell

/-- Page types (R170). -/
inductive PType where | normal | estimator | weight | device
deriving DecidableEq, Repr

/-- What a translated page gives an access (R170): type, cache level CL, write policy WP, eviction priority EVP, and whether the home
slice may compress its lines (CMP). -/
structure Page where
  ptype : PType
  cl    : Nat
  wp    : Nat
  evp   : Nat
  cmp   : Bool
deriving DecidableEq, Repr

/-- Where a byte lives: physical memory, or a wave's scratchpad allocation. -/
inductive Loc where
  | mem (pa : Nat)
  | pad (uid off : Nat)
deriving DecidableEq, Repr

/-! ### Waves -/

/-- Loop-stack entry (R116). -/
structure LoopEnt where
  start : W64
  stop  : W64
  left  : W64
deriving DecidableEq, Repr

/-- Mark of an `fcall` on a return-stack entry (R123): its address and return registers. -/
structure FcMark where
  pc  : W64
  rc  : Nat
  rva : Nat
  rvb : Nat
deriving DecidableEq, Repr

/-- Return-stack entry (R108, R123). -/
structure RetEnt where
  addr  : W64
  depth : Nat
  fc    : Option FcMark
deriving DecidableEq, Repr

/-- A part of a slice (R110): its lanes (ascending), PC, loop stack and return stack, tops first. -/
structure Part where
  lanes : List Nat
  pc    : W64
  loops : List LoopEnt
  rets  : List RetEnt
deriving DecidableEq, Repr

/-- A slice (R21, R35, R37, R39, R110, R134). -/
structure Slice where
  live   : Bool
  run    : Part
  parked : List Part
  idle   : Nat
  /-- the iteration so far changed a register or performed an operation of R39 -/
  busy   : Bool
  /-- waiting at a `regang`, with the address after it -/
  atRegang : Option W64
  atRet  : Bool
deriving DecidableEq, Repr

/-- Record of one cause whose xcause bit is set (R145, R146). -/
structure CauseRec where
  cause  : Nat
  lanes  : W32
  more   : Bool
  addr   : W64
  pc     : W64
  detail : W64
deriving DecidableEq, Repr

/-- Trap registers (R144, R145). xcause is the set of causes of `recs`; `held` are deferred causes not yet delivered. -/
structure Trap where
  xpc   : W64
  xvec  : W64
  csel  : Nat
  pte   : Bool
  defr  : Bool
  ppriv : Bool
  prv   : Bool
  h     : Bool
  recs  : List CauseRec
  held  : List CauseRec
deriving DecidableEq, Repr

/-- Footprint (R25, R353). -/
structure Foot where
  slices : Nat
  vregs  : Nat
  spad   : Nat
  tiles  : Nat
  forks  : Nat
  mx     : Bool
deriving DecidableEq, Repr

/-- Tile states (R277). -/
inductive TState where | empty | filling | ready | draining
deriving DecidableEq, Repr

/-- Tile-table entry (R277). `base` in units of 256 bytes; ENC 0 signed, 1 unsigned, 2 bipolar. -/
structure Tile where
  plane  : Bool
  base   : Nat
  size   : Nat
  rows   : Nat
  cols   : Nat
  planes : Nat
  enc    : Nat
  loss   : Bool
  st     : TState
deriving DecidableEq, Repr

/-- A record: payload words and hardware header (R355). `quad` is the pinned quad; `seq` the task index of a range task. -/
structure Record where
  asid   : Nat
  node   : Nat
  launch : Nat
  depth  : Nat
  weight : Nat
  quad   : Option Nat
  seq    : Option Nat
  pay    : List W32
  rerun  : Bool
  /-- affinity bypasses of this record while it was the oldest (R368) -/
  bypass : Nat
  /-- core a rerun task must avoid (R382) -/
  avoid  : Option Nat
deriving DecidableEq, Repr

/-- What a save keeps (R157, R159): all, or the groups, ranges (in 256-byte units), tiles and ACC of a `live`. -/
inductive SaveHint where
  | full
  | hint (groups : Nat) (ranges : List (Nat × Nat)) (tiles : Nat) (acc : Bool)
deriving DecidableEq, Repr

/-- A fork (R124 to R134), kept by its shadow wave. -/
structure Fork where
  home   : Nat
  /-- wave context and register-file bytes the shadow takes (R124) -/
  ctx    : Nat
  bytes  : Nat
  slices : List Nat
  mark   : FcMark
  /-- return address, and depth of the return stack above the fcall entry -/
  depth  : Nat
  /-- (register, base, stride) of each predicted return register -/
  pred   : List (Nat × W32 × W32)
  groups : List Nat
  rset   : List RegRef
  wrote  : List RegRef
  homeWrote : List RegRef
  returned  : List Nat
  /-- operations numbered below this were outstanding at the fork: their results reach the copies as well (R127) -/
  born      : Nat
  /-- stopped before an instruction it may not run, until the fork is resolved (R132) -/
  stopped   : Bool
deriving DecidableEq, Repr

/-- An entry of the vector instruction queue (R44): the instruction, the slices of its gang as they were steered, its next sequential
address, and the uniform operands as they were captured. -/
structure VEnt where
  instr  : Instr
  gang   : List Nat
  slices : List Slice
  npc    : W64
  s      : Store W64
  hs     : Store W64
  q      : BitVec 4
  h      : Bool
deriving DecidableEq, Repr

/-- An entry of the return queue (R46): the registers whose values the drill still awaits, in allocation order. -/
structure RetqEnt where
  regs : List RegRef
deriving DecidableEq, Repr

/-- A return whose predictor entry still awaits registers (R126): mark, slices, how many entries of the VIQ are older than the `ret`, the
return registers awaited, and the values of the others as they stood at the `ret`. -/
structure Training where
  mark   : FcMark
  slices : List Nat
  older  : Nat
  await  : List Nat
  vals   : Store W32
deriving DecidableEq, Repr

/-- A gang that waits at `bar.wait` (R206, R207): offset of the object, phase awaited, and whether the keeper has released it. -/
structure BarHold where
  off      : Nat
  phase    : Nat
  released : Bool
deriving DecidableEq, Repr

/-- A wave, or the shadow context of one (R29). Stores default to zero. Vector register n of lane l is key 256 l + n. -/
structure Wave where
  uid    : Nat
  die    : Nat
  core   : Nat
  wctx   : Nat
  asid   : Nat
  launch : Nat
  node   : Nat
  depth  : Nat
  weight : Nat
  widx   : Nat
  age    : Nat
  /-- where its registers stand in the slot's file, and its allocation in the core's scratchpad, in bytes (R26, R163) -/
  vbase  : Nat
  sbase  : Nat
  foot   : Foot
  slices : List Slice
  path   : List (List Nat)
  cur    : Nat
  npc    : W64
  v      : Store W32
  k      : Store W32
  s      : Store W64
  hs     : Store W64
  q      : BitVec 4
  fpmode : W32
  fpflags : W32
  trap   : Trap
  pad    : Store Byte
  /-- poisoned 8-byte words of the scratchpad (R404) -/
  padBad : List Nat
  tiles  : List Tile
  lease  : Nat
  slots  : Store W32
  seqs   : Store Nat
  blocked : Option Nat
  preq   : Option Nat
  saveReq : Option SaveHint
  /-- cycle of its core's clock since which a `deq.w` waits, and its q register (R379) -/
  deqFrom : Option (Nat × Nat)
  /-- cycle since which siblings wait at a `regang` (R36) -/
  regangFrom : Option Nat
  orig   : Record
  tookMore : Bool
  /-- cycle of its core's clock at which it was placed; of a saved wave, the cycles it was resident (R369) -/
  placed : Nat
  /-- cycle in which its slot last chose it, for vector issue and for the drill (R42, R210) -/
  chosen : Nat
  dchosen : Nat
  /-- vector instruction queue and return queue, oldest first (R44, R46) -/
  viq    : List VEnt
  retq   : List RetqEnt
  /-- cycles in which the first and the newest `yield` were executed that no issue (greedy-then-oldest) or no issue choice (round-robin) has spent yet
  (R52, R211) -/
  yielding : Option (Nat × Nat)
  /-- the data packet of its next read of a `bri` table or of a launch descriptor that arrives poisoned (R404): 0 that of the table's first
  word, l + 1 that of lane l's entry, any that of a descriptor -/
  lostRead : Option Nat
  barHold : Option BarHold
  /-- returns whose predictor entry still awaits a register (R126) -/
  trains : List Training
  fork   : Option Fork
deriving DecidableEq, Repr

/-! ### Operations in flight -/

/-- Identity an operation keeps of its wave (R155), with the lanes of the running parts of its gang (R146). -/
structure Who where
  uid    : Nat
  die    : Nat
  core   : Nat
  wctx   : Nat
  asid   : Nat
  launch : Nat
  widx   : Nat
  pc     : W64
  lanes  : W32
deriving DecidableEq, Repr

/-- Destination of a load (R82, R188). `uid` is the wave whose register is written; `reg` of an s-register is its bank key (R147). -/
structure LoadDst where
  uid : Nat
  vec : Bool
  reg : Nat
  ty  : Ty
deriving DecidableEq, Repr

/-- One lane's access. -/
structure Acc where
  lane : Nat
  loc  : Loc
  va   : Nat
  page : Page
deriving DecidableEq, Repr

/-- A partial estimator: M, S, W as FP32 patterns, and N (R238). -/
structure Partial where
  m : Nat
  s : Nat
  w : Nat
  n : Nat
deriving DecidableEq, Repr

/-- An estimator cell: context, region, index, physical address (R236). -/
structure CellRef where
  asid   : Nat
  region : Nat
  idx    : Nat
  pa     : Nat
deriving DecidableEq, Repr

/-- A staged record of an ordered region (R245). -/
structure Staged where
  part : Partial
  lane : Nat
  cell : Nat
  seq  : Nat
  widx : Nat
  lno  : Nat
deriving DecidableEq, Repr

/-- Barrier operations at the keeper (R206). -/
inductive BarOp where
  | init (n : Nat)
  | arr (n : Nat)
  | exp (n : W64)
deriving DecidableEq, Repr

/-- Tile commands (R278, R279). -/
inductive TileCmd where
  | defBytes (base size : Nat)
  | defPlane (base rows cols planes : Nat)
  | set (ready : Bool) (enc : Nat)
deriving DecidableEq, Repr

/-- Copy functions (R284). -/
inductive CopyFn where | ld | st | gth | ws | fill
deriving DecidableEq, Repr

/-- A copy command (R284 to R290). `geo` is the tile as the commands before it leave it; `img` the pieces to write, once started,
as offsets from the destination's first byte; `todo` lists the parts still to complete, `total` and `done` count bytes. -/
structure CopyCmd where
  fn     : CopyFn
  tile   : Nat
  geo    : Tile
  addr   : W64
  stride : Int
  fmt    : Nat
  bar    : Option (Nat × Nat)
  idx    : Nat
  started : Bool
  first  : W64
  img    : List (Nat × List Byte)
  todo   : List Nat
  total  : Nat
  done   : Nat
  lo     : Int
  hi     : Int
deriving DecidableEq, Repr

/-- Glean functions (R292 to R294). -/
inductive GleanFn where
  | topk (k : Nat)
  | smax (scale : Nat)
  | samp (u p : Nat)
deriving DecidableEq, Repr

/-- A glean command. A source or destination is a virtual address or a scratchpad offset. `words` are the words it still writes,
`ans` its reply, formed when it starts (R292 to R294). -/
structure GleanCmd where
  fn    : GleanFn
  n     : Nat
  bf16  : Bool
  src   : W64
  srcPad : Bool
  dst   : W64
  dstPad : Bool
  started : Bool
  words : List Nat
  ans   : W64
deriving DecidableEq, Repr

/-- Bank modes (R296): none, then the semirings in the order of their codes. -/
inductive BMode where | none | f32 | i32 | minplus | maxplus | maxtimes | orand
deriving DecidableEq, Repr

/-- Matrix commands (R303 to R315). `lease` marks a request and gives the count after it (R300, R303); `zb` is a bitmap's offset,
`peer` the wave of a pair. -/
inductive MatFn where
  | lease (request : Bool) (count : Nat)
  | rel
  | clr (bank fill : Nat)
  | mmo (bank : Nat) (mode : BMode) (ta tb : Nat) (zb : Option Nat) (peer : Option Nat)
  | drain (bank : Nat) (add : Bool) (tile : Option Nat) (addr : W64) (stride : Option Int) (rows cols : Nat)
deriving DecidableEq, Repr

/-- A matrix command in its engine `eng`. `ends` marks the command that took the lease count to 0, `cycle` is the core's cycle in which it
reached the engine (R300). Once started, `words` are the
bank words an `mmo` will write (key 256 row + column), `out` the words a drain still has to store (place in row-major order). -/
structure MatCmd where
  eng    : Nat
  fn     : MatFn
  ends   : Bool
  cycle  : Nat
  started : Bool
  failed : Option (Nat × Nat)
  words  : Store W32
  out    : List (Nat × W32)
  rows   : Nat
  cols   : Nat
  ovf    : Bool
  mode   : BMode
deriving DecidableEq, Repr

/-- Rays of one `trace` (R318, R327): per lane the nine registers; in queue mode the two payload words, the depth and the share of
weight of its records (R331). -/
structure TraceCmd where
  desc  : W64
  queue : Bool
  slot  : Nat
  depth : Nat
  rays  : List (Nat × List W32)
  pays  : List (Nat × List W32)
  share : Nat
  /-- records still to be enqueued in lane order (R331): lane, node, payload -/
  out   : List (Nat × Nat × List W32)
  /-- records on their way to the queues, by flight -/
  sent  : List Nat
deriving DecidableEq, Repr

/-- Texture-unit instructions (R339, R340, R349, R350). -/
inductive TexFn where | hgf | hgs | tex | tld
deriving DecidableEq, Repr

/-- A command of the texture unit (R338 to R350). -/
structure TexCmd where
  fn    : TexFn
  desc  : W64
  cnt   : Nat
  dim   : Nat
  dst   : Nat
  lanes : List (Nat × List W32 × List W32)
  /-- `hgs`: chunks still to send, once formed; each a list of (gradient address, FP32 value) -/
  formed : Bool
  chunks : List (List (W64 × Nat))
  /-- sources the unit has read ahead of the rest (R347): address over 8, and the 8 bytes -/
  got    : List (Nat × List Byte)
deriving DecidableEq, Repr

/-- What an operation in flight will do. -/
inductive Act where
  /-- nothing more than completing -/
  | nop
  | load (dst : LoadDst) (size : Nat) (accs : List Acc) (acq : Option Scope)
  | store (size : Nat) (accs : List (Acc × Nat))
  | atom (dst : Option LoadDst) (op : Nat) (ty : Ty) (accs : List (Acc × Nat × Nat)) (sc : Scope) (ord : Ord)
  /-- a lazy release: record for the release-buffer entry of the core with this flight's number (R223) -/
  | rel
  | bar (uid off : Nat) (op : BarOp)
  | estClr (cells : List CellRef)
  /-- lanes with destination register; the share of weight carried for each region with RS = 1 (R249) -/
  | estLd (uid reg : Nat) (nr : Bool) (cells : List (Nat × CellRef)) (shares : List (Nat × Nat))
  /-- merge to a cell's home (R241); waves that wait for it; the est.adv or est.close it belongs to -/
  | merge (cell : CellRef) (part : Partial) (waits : List Nat) (cmd : Option Nat)
  | stage (recs : List (CellRef × Staged))
  /-- requests of one est.ld (lane order): cell, W, se, M, epoch; share (R248, R249) -/
  | reseed (asid region : Nat) (reqs : List (CellRef × W32 × W32 × W32 × Nat)) (share : Nat)
  /-- est.adv or est.close: region, phase, count folded, OVF before (R254, R255) -/
  | region (asid region : Nat) (adv : Bool) (phase folded : Nat) (ovf : Bool)
  | notice (asid region epoch cmd : Nat)
  | fold (cell : CellRef) (recs : List Staged) (cmd : Nat)
  | tile (t : Nat) (c : TileCmd)
  | copy (c : CopyCmd)
  | glean (c : GleanCmd)
  | matrix (c : MatCmd)
  | trace (c : TraceCmd)
  | tex (c : TexCmd)
  /-- one add of an `hgs` chunk; the hgs flight (R341) -/
  | hgsAdd (va : W64) (pa : Nat) (val : Nat) (cmd : Nat)
  /-- a record on its way to a die, or a sink record (R363); error records that are written at a node -/
  | record (die : Nat) (r : Record) (err : Bool)
  /-- a batch of ring records on its way on chip (R364) -/
  | batch (die asid node : Nat) (rs : List Record)
  /-- weight on its way to a launch's root (R375, R376) -/
  | wreturn (launch amount : Nat)
  /-- a draw from the root for a quad pool, or for a wave directly when the quad has no pool for it (R375) -/
  | draw (quad launch : Nat) (uid : Option Nat)
deriving DecidableEq, Repr

/-- An operation in flight. `rr` is the bank key of the reply register still pending (R70, R147); `held` marks a completion that waits behind an
older one of its class (R195); `tick` is the exchange tick it was sent in, for a packet held by R395; `vis` numbers the stores that
their core's L1 already shows, in the order it took them (R176, R201). -/
structure Flight where
  id   : Nat
  who  : Who
  cls  : Option Cls
  act  : Act
  rr   : Option Nat
  held : Bool
  tick : Option Nat
  vis  : Option Nat
  /-- registers, with lanes, that a continuation has written since and that a commit made the wave's (R135) -/
  skip : List (RegRef × List Nat)
deriving DecidableEq, Repr

/-! ### Cores, quads, dies -/

/-- Return-value predictor entry (R125): two (base, stride) pairs and a confidence. -/
structure PredEnt where
  b0 : W32
  s0 : W32
  b1 : W32
  s1 : W32
  conf : Nat
deriving DecidableEq, Repr

/-- Combining-buffer entry (R239); `waves` are the wave contexts of the mask; `since` the cycle of the last lane combined. -/
structure EcbEnt where
  cell  : CellRef
  epoch : Nat
  part  : Partial
  waves : List Nat
  since : Nat
deriving DecidableEq, Repr

/-- A cached line: physical line number (address / 256), ASID for tagged caches, valid sectors with their 32 bytes, and those of them that an
error of the cache has poisoned (R404). -/
structure Line where
  line    : Nat
  asid    : Nat
  sectors : List (Nat × List Byte)
  bad     : List Nat
deriving DecidableEq, Repr

/-- Release-buffer entry (R223): the flight that recorded it, the releasing wave, bytes and scope. `due` marks one that an
event of R224 sends home. -/
structure RelEnt where
  fid  : Nat
  who  : Who
  pa   : Nat
  va   : Nat
  size : Nat
  val  : Nat
  page : Page
  sc   : Scope
  recorded : Bool
  due  : Bool
deriving DecidableEq, Repr

/-- Fork-load-table entry (R130): fork, address space (memory by ASID, or scratchpad), sector; and the bytes that the fork's loads have
read from it, by offset in the sector (R214, R230). -/
structure FltEnt where
  uid    : Nat
  pad    : Bool
  asid   : Nat
  sector : Nat
  seen   : List (Nat × Byte)
deriving DecidableEq, Repr

/-- Fork-store-buffer entry (R131): fork, slice, PC, the store. -/
structure FsbEnt where
  uid   : Nat
  slice : Nat
  pc    : W64
  size  : Nat
  accs  : List (Acc × Nat)
deriving DecidableEq, Repr

/-- Issue state of a slot (R51, R210): the wave that issued last and the rotation pointer of vector issue, then the same of the drill. -/
structure Slot where
  last  : Option Nat
  ptr   : Nat
  dlast : Option Nat
  dptr  : Nat
deriving DecidableEq, Repr

/-- A core. Its default (never used yet) has SPW 6 and everything empty (R125, R162, R239). -/
structure Core where
  spw   : Nat
  carve : Option (Nat × Nat)
  pred  : Store PredEnt
  ecb   : List EcbEnt
  l1    : List Line
  /-- sectors of the L1 that are older than what another core of the quad has stored, acquired or read: they become no replica (R181; log 9) -/
  l1old : List Nat
  relb  : List RelEnt
  flt   : List FltEnt
  fsb   : List FsbEnt
  ncache : List Line
  tcache : List Line
  /-- a lasting core: nothing new is placed (R409) -/
  lasting : Bool
  /-- a spare has taken its place -/
  spare : Bool
  /-- issue slots by number (R51) -/
  slots : Store Slot
deriving DecidableEq, Repr

/-- A line in an L2 slice (R177 to R181): line number, the tag it takes in its set, EVP and CMP of its page, valid sectors, dirty bit.
The bytes of a home line are the memory's own; a replica keeps its generation, the ASID of its page's context and its own bytes. -/
structure L2Ent where
  line    : Nat
  way     : Nat
  evp     : Nat
  cmp     : Bool
  sectors : List Nat
  dirty   : Bool
  rep     : Option (Nat × Line)
deriving DecidableEq, Repr

/-- An operation that an estimator unit has applied: its cell, the cycle of the unit's quad, and the rank of its source (R243). -/
structure CellOp where
  pa     : Nat
  asid   : Nat
  region : Nat
  cycle  : Nat
  rank   : Nat
deriving DecidableEq, Repr

/-- A quad: its replica generation, the time of the last access to its L2 slice, the lines of the slice, most recently used first, the lines
its stores passed in their newest cycle, the operations its estimator unit applied in theirs, and its weight pools (R177, R180, R182, R243, R375,
R391). -/
structure Quad where
  gen   : Nat
  flit  : Nat
  l2    : List L2Ent
  stored : List (Nat × Nat)
  cells : List CellOp
  pools : List (Nat × Nat)
deriving DecidableEq, Repr

/-- An accumulator bank (R296); word of row r, column c is key 256 r + c, an unlisted word is `fill` (R305). -/
structure Bank where
  fill  : W32
  words : Store W32
  rows  : Nat
  cols  : Nat
  mode  : BMode
  ovf   : Bool
  last  : Option (Nat × Nat)
deriving DecidableEq, Repr

/-- A matrix engine: banks, holder of the lease (wave, context), last ERR of each wave (R296, R300, R303). -/
structure Engine where
  a0     : Bank
  a1     : Bank
  holder : Option (Nat × Nat)
  /-- serial of the context of the newest holder (R300) -/
  lastCtx : Option Nat
  errs   : List (Nat × Nat)
deriving DecidableEq, Repr

/-- The queue of one kernel node on one die (R363, R364): records on chip, records in the ring (oldest first; the bytes are in
memory as well), ring head and tail counts, whether a batch is in flight, and time and rank of the newest arrival (R20). -/
structure NodeQ where
  asid : Nat
  node : Nat
  chip : List Record
  ring : List Record
  head : Nat
  tail : Nat
  batch : Bool
  newest : Option (Nat × Nat)
deriving DecidableEq, Repr

/-- A die: node queues, deficits, launches in order of first dispatch and visiting pointer of each level (R363, R369), spares (R12,
R409), banks in refresh (R184). -/
structure Die where
  queues  : List NodeQ
  deficit : List (Nat × Int)
  order   : List Nat
  ptr     : Store Nat
  coreSpares : Nat
  rowSpares  : Store Nat
  refresh : List Nat
deriving DecidableEq, Repr

/-! ### Contexts and launches -/

/-- A node descriptor as read at load (R353). -/
structure Node where
  valid  : Bool
  sink   : Bool
  entry  : W64
  rerun  : Bool
  aff    : Bool
  foot   : Foot
  spill  : Nat
  log2   : Nat
  cnt    : Nat
deriving DecidableEq, Repr

/-- An estimator region (R235). `epoch` is the keeper's, `known` the one the units and cores last heard of (R243). `desc` is
the descriptor's physical address. -/
structure Region where
  valid  : Bool
  base   : Nat
  count  : Nat
  ord    : Bool
  ovf    : Bool
  rs     : Bool
  node   : Nat
  dec    : Nat
  epoch  : Nat
  known  : Nat
  minw   : W32
  rho    : H16
  left   : Nat
  budget : Nat
  stage  : Nat
  sfill  : Nat
  scap   : Nat
  desc   : Nat
deriving DecidableEq, Repr

/-- Where a context stands between load and switch (R165, R399). -/
inductive CtxPhase where | resident | saving | resuming
deriving DecidableEq, Repr

/-- A loaded context (R396). `serial` tells it from other contexts that have had or will have its ASID. -/
structure Ctx where
  asid  : Nat
  serial : Nat
  rx    : Bool
  root  : Nat
  regt  : W64
  nodet : W64
  recn  : Nat
  errn  : Nat
  ncnt  : Nat
  hbase : W64
  savea : Nat
  savesz : Nat
  nodes : List Node
  regions : List Region
  phase : CtxPhase
deriving DecidableEq, Repr

/-- A die's share of a launch's range (R357, R373). -/
structure Share where
  die  : Nat
  next : Nat
  stop : Nat
  weight : Nat
deriving DecidableEq, Repr

/-- A launch (R357, R360, R372). `home` in units of 2^-64. `begun`: its dependences are met. `others` counts by die the waves of
R358's second kind, `dones` the range tasks dispatched, `tree` the device launches accepted in a host launch's tree. -/
structure Launch where
  num    : Nat
  asid   : Nat
  /-- serial of its context -/
  ctx    : Nat
  host   : Bool
  parent : Nat
  rootDie : Nat
  node   : Nat
  first  : Nat
  count  : Nat
  pq     : Bool
  part   : List Nat
  rr     : Bool
  ixw    : Nat
  priv   : Bool
  wsw    : Bool
  pers   : Bool
  ord    : Bool
  pri    : Nat
  deps   : List Nat
  pay    : List W32
  handler : W64
  home   : Nat
  link   : Nat
  shares : List Share
  others : Store Nat
  dones  : Nat
  begun  : Bool
  tree   : Nat
  err    : Bool
  rst    : Bool
  refused : Bool
  complete : Bool
deriving DecidableEq, Repr

/-- A saved wave with the banks of a lease it kept (R159, R317). -/
structure Saved where
  wave  : Wave
  banks : Option (Bank × Bank)
  /-- saved by a context switch: restored only when its context resumes -/
  ctx   : Bool
deriving DecidableEq, Repr

/-- What CTXSAVE keeps of a context (R399): rings, launches, waves. `serial` stands in word 3 of the save area (log 12). -/
structure Archive where
  serial : Nat
  /-- serial of the context itself -/
  ctx    : Nat
  pkg    : Nat
  version : W64
  queues : List (Nat × NodeQ)
  launches : List Launch
  waves  : List Saved
deriving DecidableEq, Repr

/-! ### The package -/

/-- Device registers (R397, R415) and the command reader's state (R400). -/
structure Regs where
  fcap0 : W64
  fcap1 : W64
  facc0 : W64
  facc1 : W64
  flock : Bool
  crbase : W64
  crlog : Nat
  notify : W32
  crhead : W32
  evbase : W64
  evlog : Nat
  evtail : W64
  evhead : W64
  savemax : W64
  req   : Bool
  go    : Bool
  ok    : Bool
  rej   : Bool
  why   : Nat
  bootlen : W64
  bootoff : W64
  bootwin : Store Byte
  /-- a firmware image has been accepted (R413) -/
  booted : Bool
  fwver : W64
  /-- bytes of an accepted host image; empty for the flash image -/
  fwimg : List Byte
  /-- SEQ expected next and of the newest accepted command (R398, R360) -/
  seq   : Nat
  lastSeq : Nat
  /-- failed reads of the command at CRHEAD and the time of the last (R400) -/
  reads : Nat
  readAt : Nat
  stale : Bool
  /-- events not yet written (R402) -/
  events : List (List W32)
  /-- next index of the attestation key, and of the identity key (R414) -/
  akeyIdx : Nat
  ikeyIdx : Nat
deriving DecidableEq, Repr

/-- An island (R411): frequency in steps of 12.5 MHz, cycles counted up to `since`. -/
structure Island where
  n     : Nat
  cyc   : Nat
  since : Nat
deriving DecidableEq, Repr

/-- A loop station (R391): time of its last flit, and whether it is powered down. -/
structure Station where
  last : Nat
  down : Bool
deriving DecidableEq, Repr

/-- A cached translation (R173): ASID, page base, page size in bits, leaf entry. -/
structure Tlb where
  asid : Nat
  va   : Nat
  bits : Nat
  leaf : Nat
deriving DecidableEq, Repr

/-- Tick exchange and pod (R392 to R395). -/
structure Pod where
  pkg     : Nat
  members : List Nat
  origin  : Nat
  markers : List (Nat × Nat)
  lost    : List Nat
  boundary : Nat
deriving DecidableEq, Repr

/-- Who moves next (log 2): nobody; a wave executes its next instruction; its drill steers it into the VIQ; its oldest VIQ entry
issues; a slot's issue choice finds only waves that a `yield` passes over (R211); an event. -/
inductive Turn where
  | idle
  | wave (uid : Nat)
  | steer (uid : Nat)
  | issue (uid : Nat)
  | pass (die core slot : Nat)
  | event (i : Instr)
deriving DecidableEq, Repr

/-- A byte of code that a store of a launch has replaced (R60): its old value goes on being executed while the writer runs, and after that by
the launches that had started before the writer completed. -/
structure CodeEnt where
  pa     : Nat
  old    : Byte
  writer : Option Nat
  seers  : List Nat
deriving DecidableEq, Repr

/-- The whole package. -/
structure State where
  turn    : Turn
  draws   : Nat
  time    : Nat
  nextUid : Nat
  nextFid : Nat
  inputs  : List Instr
  mem     : Mem
  /-- replaced code bytes, oldest first (R60) -/
  code    : List CodeEnt
  poison  : List Nat
  hostMem : Mem
  tlb     : List Tlb
  regs    : Regs
  ctxs    : List Ctx
  launches : List Launch
  waves   : List Wave
  /-- retired waves whose scratchpad, tile entries or registers an outstanding operation still names (R29) -/
  ghosts  : List Wave
  saved   : List Saved
  archives : List Archive
  flights : List Flight
  cores   : Store Core
  quads   : Store Quad
  engines : Store Engine
  dies    : Store Die
  islands : Store Island
  lowered : List Nat
  stations : Store Station
  linksDown : List Nat
  errs    : List (Unit3 × Nat)
  errWindow : Nat
  retired : List Unit3
  rowCopies : List (Nat × Nat × Nat)
  /-- events of rows whose uncorrectable or corrected state a scrub will rewrite (R404) -/
  scrubs  : List (Nat × Nat)
  pod     : Pod
deriving DecidableEq, Repr

/-- Why the model stops. -/
inductive Fault where
  /-- Raised by a host access, a host AtomicOp, a DMA write or a command-ring read at a physical address outside every
  populated range of R167, for which the spec states no outcome. Safe: the hardware may go on, the model does not. -/
  | noSuchAddress (pa : Nat)
deriving DecidableEq, Repr

/-- Why the model gives an instruction no meaning. -/
inductive Refusal where
  /-- Raised by the dispatch of an instruction whose meaning has not been written. Safe: nothing is claimed about it. -/
  | notModelled (mnemonic : String)
deriving DecidableEq, Repr

/-- Result of a meaning. -/
abbrev Out := Host.Outcome State Fault Refusal

/-- The boot ROM accepts the flash image: its signature verifies and its version is at least the fused minimum (R413; log 13). -/
def flashBoots : Bool := Config.fwFlashOk && decide (Config.fuse.toNat % 2 ^ 32 ≤ Config.fwVersion.toNat)

/-- Device registers at reset (R397, R415): FCAP and SAVEMAX as the part gives them, the rest zero (log 6). The boot ROM has
accepted the flash image, or asks the host for one (R413, R415). -/
def regsReset : Regs :=
  { fcap0 := Config.fcap0, fcap1 := Config.fcap1, facc0 := 0, facc1 := 0, flock := false, crbase := 0, crlog := 0,
    notify := 0, crhead := 0, evbase := 0, evlog := 0, evtail := 0, evhead := 0, savemax := Config.saveMax,
    req := !flashBoots, go := false, ok := false, rej := false, why := 0, bootlen := 0, bootoff := 0, bootwin := [],
    booted := flashBoots, fwver := Config.fwVersion, fwimg := [], seq := 1, lastSeq := 0, reads := 0, readAt := 0,
    stale := false, events := [], akeyIdx := 0, ikeyIdx := 1 }

/-- A pod of one: package 0 alone (R394). -/
def podReset : Pod := { pkg := 0, members := [0], origin := 0, markers := [], lost := [], boundary := 0 }

/-- The package right after reset: nothing loaded, nothing resident, nobody to move (log 3, log 6, log 7). -/
def State.reset : State :=
  { turn := .idle, draws := 0, time := 0, nextUid := 1, nextFid := 0, inputs := [], mem := [], code := [], poison := [], hostMem := [],
    tlb := [], regs := regsReset, ctxs := [], launches := [], waves := [], ghosts := [], saved := [], archives := [], flights := [],
    cores := [], quads := [], engines := [], dies := [], islands := [], lowered := [], stations := [], linksDown := [],
    errs := [], errWindow := 0, retired := [], rowCopies := [], scrubs := [], pod := podReset }

end Sys2Proof.Machine
end

