-- ==== Sys2Proof/Machine/Store.lean ====
section
/-!
DEFINITION. Sparse maps and memory bytes: one reader and one writer each, both keeping the canonical form (keys strictly
rising, no default value listed), and little-endian access of any width (R4).
-/
namespace Sys2Proof.Machine

/-- Value at a key; an unlisted key has the default. -/
def stGet {α : Type} (d : α) (k : Nat) : Store α → α
  | [] => d
  | (a, x) :: r => if k = a then x else stGet d k r

/-- Map without a key. -/
def stDel {α : Type} (k : Nat) (m : Store α) : Store α := m.filter (fun e => !(e.1 == k))

/-- Map with an entry in its place. -/
def stIns {α : Type} (k : Nat) (x : α) : Store α → Store α
  | [] => [(k, x)]
  | (a, y) :: r => if k < a then (k, x) :: (a, y) :: r else (a, y) :: stIns k x r

/-- Map with a new value at a key; the default is removed. -/
def stSet {α : Type} [DecidableEq α] (d : α) (k : Nat) (x : α) (m : Store α) : Store α :=
  if x = d then stDel k m else stIns k x (stDel k m)

/-- Canonical form of a map with the given default. -/
def stWf {α : Type} [DecidableEq α] (d : α) : Store α → Bool
  | [] => true
  | [(_, x)] => !decide (x = d)
  | (a, x) :: (b, y) :: r => decide (a < b) && !decide (x = d) && stWf d ((b, y) :: r)

/-- What a byte that nothing has written reads as (log 4). -/
def unlistedByte : Byte := 0

/-- Canonical form of a memory. -/
def Mem.wf (m : Mem) : Bool := stWf unlistedByte m

/-- One byte. -/
def memGet (m : Mem) (pa : Nat) : Byte := stGet unlistedByte pa m
def memSet (m : Mem) (pa : Nat) (b : Byte) : Mem := stSet unlistedByte pa b m

/-- n bytes from an address upwards. -/
def memBytes (m : Mem) (pa : Nat) : Nat → List Byte
  | 0 => []
  | n + 1 => memGet m pa :: memBytes m (pa + 1) n

/-- The value of n bytes, little-endian (R4). -/
def memNat (m : Mem) (pa n : Nat) : Nat := leNat (memBytes m pa n)

/-- Bytes written from an address upwards. -/
def memPut (m : Mem) (pa : Nat) : List Byte → Mem
  | [] => m
  | b :: bs => memPut (memSet m pa b) (pa + 1) bs

/-- A value of n bytes, little-endian (R4). -/
def memPutNat (m : Mem) (pa n x : Nat) : Mem := memPut m pa (leBytes n x)

/-- Bytes of a scratchpad, same form. -/
def padBytes (p : Store Byte) (off n : Nat) : List Byte := memBytes p off n
def padPut (p : Store Byte) (off : Nat) (bs : List Byte) : Store Byte := memPut p off bs

/-- Elements from a number upwards. -/
def natsFrom (a : Nat) : Nat → List Nat
  | 0 => []
  | n + 1 => a :: natsFrom (a + 1) n

/-- List helpers: replace the first element that a test picks, or append; insert in rising order without repeats. -/
def putBy {α : Type} (p : α → Bool) (x : α) : List α → List α
  | [] => [x]
  | y :: r => if p y then x :: r else y :: putBy p x r

def insNat (n : Nat) : List Nat → List Nat
  | [] => [n]
  | a :: r => if n < a then n :: a :: r else if n = a then a :: r else a :: insNat n r

def unionNat (xs ys : List Nat) : List Nat := ys.foldl (fun acc y => insNat y acc) xs

end Sys2Proof.Machine
end

