-- ==== Sys2Proof/Machine/Paging.lean ====
section
/-!
DEFINITION. Addresses, the four-level walk, page types and permissions (R166 to R175, R393), and the time base (R394, R411).
-/
namespace Sys2Proof.Machine

/-! ### Time -/

/-- An island never changed: 64 steps of 12.5 MHz, the nominal 800 MHz (R2, R411). -/
def islandDefault : Island := { n := 64, cyc := 0, since := 0 }
def islandAt (s : State) (i : Nat) : Island := stGet islandDefault i s.islands

/-- Cycles an island has counted at a time: n x 12.5 MHz is n / 80 cycles a nanosecond. -/
def islandCycles (isl : Island) (t : Nat) : Nat := isl.cyc + (t - isl.since) * isl.n / 80

/-- Number of an island: 32 x die + quad (R2, R12). -/
def islandOf (die core : Nat) : Nat := 32 * die + core / 4

/-- Cycles of a core's clock since package reset (R58). -/
def coreClock (s : State) (die core : Nat) : Nat := islandCycles (islandAt s (islandOf die core)) s.time

/-- Cycles of a core's clock since it stood at c. -/
def cyclesSince (s : State) (die core c : Nat) : Nat := coreClock s die core - c

/-- Exchange tick of the time base: 10 us each, from pod formation (R394). -/
def tickNow (s : State) : Nat := (s.time - s.pod.origin) / 10000

/-- Whether bank b is in its refresh window, and the nanoseconds to its next window otherwise (R184). -/
def refreshPhase (t b : Nat) : Nat := (t + 32000 - 2000 * b % 32000) % 32000
def inRefresh (t b : Nat) : Bool := decide (refreshPhase t b < 800)
def refreshWait (t b : Nat) : Nat := if inRefresh t b then 0 else 32000 - refreshPhase t b

/-! ### Physical addresses -/

def mainTop : Nat := 2 ^ 40
def wsBase : Nat := 0x010000000000
def wsTop : Nat := wsBase + 2 ^ 33
def devBase : Nat := 0x0F0000000000
def devTop : Nat := 0x100000000000
def podBase : Nat := 0x800000000000
def podTop : Nat := 2 ^ 48

def isMain (pa : Nat) : Bool := decide (pa < mainTop)
def isWeight (pa : Nat) : Bool := decide (wsBase ≤ pa ∧ pa < wsTop)
def isDevice (pa : Nat) : Bool := decide (devBase ≤ pa ∧ pa < devTop)
def isPod (pa : Nat) : Bool := decide (podBase ≤ pa ∧ pa < podTop)

/-- A window address of another package (R393): not the own slot, bit 40 clear. -/
def podOk (own pa : Nat) : Bool := isPod pa && !(field pa 46 41 == own) && !bitAt pa 40

/-- Home slice of a line within its die (R175), and the die. -/
def sliceOf (pa : Nat) : Nat := field pa 12 8 ^^^ field pa 17 13 ^^^ field pa 22 18
def homeDie (pa : Nat) : Nat := if isWeight pa then (pa - wsBase) / 2 ^ 30 else field pa 39 37
/-- Home quad of a line: 32 x die + slice. -/
def homeQuad (pa : Nat) : Nat := 32 * homeDie pa + sliceOf pa
/-- Bank of a weight-store address (R175). -/
def bankOf (pa : Nat) : Nat := field pa 11 8
/-- Where a line is stored (R175): a stack of the package and the offset in it, a bank of a die's weight store, the main memory of
another package at an offset, or no storage, for a device register. -/
inductive Storage where
  | stack (n off : Nat)
  | bank (die n : Nat)
  | remote (pkg off : Nat)
  | none
deriving DecidableEq, Repr
def storageOf (pa : Nat) : Storage :=
  if isMain pa then .stack (2 * homeDie pa + field pa 8 8) (2 ^ 8 * field pa 36 9 + field pa 7 0)
  else if isWeight pa then .bank (homeDie pa) (bankOf pa)
  else if isPod pa then .remote (field pa 46 41) (field pa 39 0)
  else .none
/-- Package, die and quad of the home slice of a line; a device register has none (R175). -/
def homeOf (own pa : Nat) : Option (Nat × Nat × Nat) :=
  if isMain pa || isWeight pa then some (own, homeDie pa, sliceOf pa)
  else if isPod pa then some (field pa 46 41, field pa 39 37, sliceOf pa)
  else none
def lineOf (pa : Nat) : Nat := pa / 256
def sectorOf (pa : Nat) : Nat := pa / 32

/-! ### Page tables -/

/-- Shift and number of index bits of a level (R168). -/
def levelShift : Nat → Nat
  | 0 => 43
  | 1 => 30
  | 2 => 21
  | _ => 16
def levelBits : Nat → Nat
  | 0 => 13
  | 1 => 13
  | 2 => 9
  | _ => 5

/-- Bytes of a level's table, which is also its alignment (R168). -/
def tableBytesAt (l : Nat) : Nat := 8 * 2 ^ levelBits l

def ptypeOf (n : Nat) : PType := match n with | 0 => .normal | 1 => .estimator | 2 => .weight | _ => .device

def pageNormal : Page := { ptype := .normal, cl := 0, wp := 0, evp := 0, cmp := false }
/-- Attributes of a leaf entry (R170). -/
def pageOf (e : Nat) : Page :=
  { ptype := ptypeOf (field e 6 5), cl := field e 8 7, wp := field e 10 9, evp := field e 13 12, cmp := bitAt e 11 }

/-- Attribute table of R171. -/
def leafAttrOk (own e : Nat) : Bool :=
  let pa := field e 51 16 * 2 ^ 16
  match ptypeOf (field e 6 5) with
  | .normal => isMain pa || (podOk own pa && field e 8 7 == 2 && field e 10 9 == 0 && !bitAt e 11)
  | .estimator => isMain pa && !bitAt e 4 && field e 8 7 == 0 && field e 10 9 == 0 && !bitAt e 11
  | .weight => isWeight pa && !bitAt e 4 && decide (field e 8 7 ≤ 1) && field e 10 9 == 0
  | .device => isDevice pa && !bitAt e 4 && field e 8 7 == 2 && field e 10 9 == 0 && !bitAt e 11

/-- A valid leaf at a level (R170, R171). -/
def leafOk (own l e : Nat) : Bool :=
  bitAt e 0 && bitAt e 1 && field e 63 52 == 0 && field e 15 14 == 0 && decide (1 ≤ l) &&
  (field e 51 16 * 2 ^ 16) % 2 ^ levelShift l == 0 && !(field e 10 9 == 3) && !(field e 8 7 == 3) &&
  (!bitAt e 3 || bitAt e 2) && leafAttrOk own e

/-- A valid non-leaf entry at a level (R169, R171). -/
def nonLeafOk (l e : Nat) : Bool :=
  bitAt e 0 && !bitAt e 1 && field e 63 52 == 0 && field e 7 2 == 0 && decide (l < 3) &&
  (field e 51 8 * 2 ^ 8) % tableBytesAt (l + 1) == 0

/-- Walk from a table at level 4 - fuel (R168): the leaf entry and its page size in bits. -/
def walkFrom (m : Mem) (own va : Nat) : Nat → Nat → Option (Nat × Nat)
  | 0, _ => none
  | fuel + 1, table =>
    let l := 3 - fuel
    let e := memNat m (table + 8 * (va / 2 ^ levelShift l % 2 ^ levelBits l)) 8
    if leafOk own l e then some (e, levelShift l)
    else if nonLeafOk l e then walkFrom m own va fuel (field e 51 8 * 2 ^ 8)
    else none

/-- The walk of a virtual address (R166, R168). -/
def walk (m : Mem) (own root va : Nat) : Option (Nat × Nat) :=
  if 2 ^ 56 ≤ va then none else walkFrom m own va 4 root

def findCtx (s : State) (asid : Nat) : Option Ctx := s.ctxs.find? (fun c => c.asid == asid)

/-- A cached translation of the address (R173). -/
def tlbFind (s : State) (asid va : Nat) : Option (Nat × Nat) :=
  (s.tlb.find? (fun t => t.asid == asid && va / 2 ^ t.bits == t.va / 2 ^ t.bits)).map (fun t => (t.leaf, t.bits))

/-- Translation in force: the tables', or a cached one that differs from them, either of which may be used until a `tlbi`
(R164, R173; log 10). -/
def translate (s : State) (asid va : Nat) : Option (Nat × Nat) :=
  match findCtx s asid with
  | none => none
  | some c =>
    let fresh := walk s.mem s.pod.pkg c.root va
    match tlbFind s asid va with
    | none => fresh
    | some old => if va < 2 ^ 56 ∧ fresh ≠ some old ∧ Config.flip (64 * s.draws) = true then some old else fresh

/-- Physical address under a leaf. -/
def paUnder (leaf : Nat × Nat) (va : Nat) : Nat := field leaf.1 51 16 * 2 ^ 16 + va % 2 ^ leaf.2

/-! ### Checks of one lane -/

/-- What one lane raises: cause, ADDR, DETAIL (R142). -/
structure LaneFault where
  cause  : Nat
  addr   : Nat
  detail : Nat
deriving DecidableEq, Repr

def cIllegal : Nat := 0
def cPriv : Nat := 1
def cXlat : Nat := 2
def cPerm : Nat := 3
def cMisalign : Nat := 4
def cBounds : Nat := 5
def cPeerGone : Nat := 6
def cPoison : Nat := 7
def cTileState : Nat := 8
def cDepth : Nat := 9
def cEstType : Nat := 10
def cLease : Nat := 11
def cBreak : Nat := 12
def cSoft : Nat := 13
def cEngineErr : Nat := 14
def cPreempt : Nat := 15

/-- Deferred causes (R142). -/
def isDeferred (c : Nat) : Bool := c == cPoison || c == cSoft || c == cEngineErr || c == cPreempt

/-- Kinds of access that R172 and R174 tell apart. -/
inductive AKind where
  | fetch | load | store | atomic | estRead | estWrite
deriving DecidableEq, Repr

/-- First permission an access lacks, as DETAIL of PERM (R142, R172). -/
def permLack (k : AKind) (e : Nat) : Option Nat :=
  match k with
  | .fetch => if bitAt e 4 then none else some 2
  | .load | .estRead => if bitAt e 2 then none else some 0
  | .store | .estWrite => if bitAt e 3 then none else some 1
  | .atomic => if !bitAt e 2 then some 0 else if !bitAt e 3 then some 1 else none

/-- What the page's type denies (R174): PERM for stores and atomics on weight and atomics on device pages. -/
def typeDenies (k : AKind) (t : PType) (wsw : Bool) : Bool :=
  match k, t with
  | .store, .weight => !wsw
  | .atomic, .weight | .atomic, .device => true
  | _, _ => false

/-- Whether the type makes the access EST_TYPE (R174). -/
def typeMismatch (k : AKind) (t : PType) : Bool :=
  match k, t with
  | .store, .estimator | .atomic, .estimator => true
  | .estRead, .estimator | .estWrite, .estimator => false
  | .estRead, _ | .estWrite, _ => true
  | _, _ => false

/-- Checks of an address in the order of R143: XLAT, device widths, PERM, EST_TYPE. Alignment is checked before. -/
def checkPage (s : State) (asid : Nat) (wsw : Bool) (k : AKind) (va size : Nat) : Except LaneFault (Nat × Page) :=
  match translate s asid va with
  | none => .error { cause := cXlat, addr := va, detail := asid }
  | some leaf =>
    let pg := pageOf leaf.1
    if pg.ptype == .device && (k == .load || k == .store) && !(size == 4 || size == 8) then
      .error { cause := cMisalign, addr := va, detail := size }
    else
      match permLack k leaf.1 with
      | some d => .error { cause := cPerm, addr := va, detail := d }
      | none =>
        if typeDenies k pg.ptype wsw then .error { cause := cPerm, addr := va, detail := 1 }
        else if typeMismatch k pg.ptype then .error { cause := cEstType, addr := va, detail := 0 }
        else .ok (paUnder leaf va, pg)

/-- An aligned access of one lane to memory (R143, R189). -/
def checkMem (s : State) (asid : Nat) (wsw : Bool) (k : AKind) (va size : Nat) : Except LaneFault (Nat × Page) :=
  if va % size ≠ 0 then .error { cause := cMisalign, addr := va, detail := size }
  else checkPage s asid wsw k va size

/-- Cache a translation that an access used (R173). -/
def tlbFill (s : State) (asid va : Nat) : State :=
  match tlbFind s asid va, translate s asid va with
  | none, some leaf => { s with tlb := { asid := asid, va := va, bits := leaf.2, leaf := leaf.1 } :: s.tlb }
  | _, _ => s

end Sys2Proof.Machine
end

