-- ==== Sys2Proof/Machine/Ops.lean ====
section
/-!
DEFINITION. Named operations over the state: lookups, registers, gangs and parts (R30 to R37, R110 to R118), operations in
flight and counters (R194, R195), the end of a wave (R29, R152, R376, R382), taking an exception and returning from it (R142 to
R153), and the frame every instruction runs in (R66, R77, R78).
-/
namespace Sys2Proof.Machine

/-! ### Lookups -/

def findWave (s : State) (uid : Nat) : Option Wave := s.waves.find? (fun w => w.uid == uid)
def putWave (s : State) (w : Wave) : State := { s with waves := s.waves.map (fun x => if x.uid == w.uid then w else x) }
def dropWave (s : State) (uid : Nat) : State := { s with waves := s.waves.filter (fun x => !(x.uid == uid)) }

/-- A wave, or a retired one that an operation still names (R17, R29). -/
def holder (s : State) (uid : Nat) : Option Wave :=
  match findWave s uid with
  | some w => some w
  | none => s.ghosts.find? (fun w => w.uid == uid)
def updHolder (s : State) (uid : Nat) (f : Wave → Wave) : State :=
  { s with
    waves := s.waves.map (fun x => if x.uid == uid then f x else x)
    ghosts := s.ghosts.map (fun x => if x.uid == uid then f x else x) }

/-- The wave whose instruction is being executed. -/
def curWave (s : State) : Option Wave :=
  match s.turn with
  | .wave uid | .issue uid => findWave s uid
  | _ => none

def findLaunch (s : State) (num : Nat) : Option Launch := s.launches.find? (fun l => l.num == num)
def putLaunch (s : State) (l : Launch) : State := { s with launches := s.launches.map (fun x => if x.num == l.num then l else x) }
def updLaunch (s : State) (num : Nat) (f : Launch → Launch) : State :=
  { s with launches := s.launches.map (fun x => if x.num == num then f x else x) }
def updCtx (s : State) (asid : Nat) (f : Ctx → Ctx) : State :=
  { s with ctxs := s.ctxs.map (fun c => if c.asid == asid then f c else c) }

/-- A core never used (R125, R162, R239). -/
def coreDefault : Core :=
  { spw := 6, carve := none, pred := [], ecb := [], l1 := [], l1old := [], relb := [], flt := [], fsb := [], ncache := [], tcache := [],
    spare := false, lasting := false, slots := [] }
def coreKey (die core : Nat) : Nat := 128 * die + core
def coreAt (s : State) (die core : Nat) : Core := stGet coreDefault (coreKey die core) s.cores
def putCore (s : State) (die core : Nat) (c : Core) : State := { s with cores := stSet coreDefault (coreKey die core) c s.cores }

/-- Issue state of a slot of a core (R51, R210): both rotations start at context 0 with no wave served last, which the spec leaves open (log 106). -/
def slotDefault : Slot := { last := none, ptr := 0, dlast := none, dptr := 0 }
def slotAt (s : State) (die core i : Nat) : Slot := stGet slotDefault i (coreAt s die core).slots
def putIssue (s : State) (die core i : Nat) (x : Slot) : State :=
  let c := coreAt s die core
  putCore s die core { c with slots := stSet slotDefault i x c.slots }

/-- Quad of a core: 32 x die + quad (R13). -/
def quadOf (die core : Nat) : Nat := 32 * die + core / 4
def quadDefault : Quad := { gen := 0, flit := 0, l2 := [], stored := [], cells := [], pools := [] }
def quadAt (s : State) (q : Nat) : Quad := stGet quadDefault q s.quads
def putQuad (s : State) (q : Nat) (x : Quad) : State := { s with quads := stSet quadDefault q x s.quads }

/-- Bank words, extents and modes of an engine never used (log 6). -/
def bankClear : Bank := { fill := 0, words := [], rows := 0, cols := 0, mode := .none, ovf := false, last := none }
def engineDefault : Engine := { a0 := bankClear, a1 := bankClear, holder := none, lastCtx := none, errs := [] }
/-- Engine of a core: 64 x die + pair (R296). -/
def engineOf (die core : Nat) : Nat := 64 * die + core / 2
def engineAt (s : State) (e : Nat) : Engine := stGet engineDefault e s.engines
def putEngine (s : State) (e : Nat) (x : Engine) : State := { s with engines := stSet engineDefault e x s.engines }

/-- A die never used; 8 spare cores (R12). -/
def dieDefault : Die := { queues := [], deficit := [], order := [], ptr := [], coreSpares := 8, rowSpares := [], refresh := [] }
def dieAt (s : State) (d : Nat) : Die := stGet dieDefault d s.dies
def putDie (s : State) (d : Nat) (x : Die) : State := { s with dies := stSet dieDefault d x s.dies }

/-- Node descriptor of a context (R353). -/
def nodeOf (s : State) (asid node : Nat) : Option Node := (findCtx s asid).bind (fun c => c.nodes[node]?)
/-- Region descriptor of a context (R235). -/
def regionOf (s : State) (asid r : Nat) : Option Region := (findCtx s asid).bind (fun c => c.regions[r]?)
def updRegion (s : State) (asid r : Nat) (f : Region → Region) : State :=
  updCtx s asid (fun c => { c with regions := c.regions.modify r f })

/-! ### Registers -/

/-- s-register; s60 to s63 are the handler's bank while H = 1 (R147). -/
def rdS (w : Wave) (n : Nat) : W64 := if w.trap.h && decide (60 ≤ n) then stGet 0 n w.hs else stGet 0 n w.s
def wrS (w : Wave) (n : Nat) (x : W64) : Wave :=
  if w.trap.h && decide (60 ≤ n) then { w with hs := stSet 0 n x w.hs } else { w with s := stSet 0 n x w.s }

/-- Bank and number of an s-register as an operation keeps it: 64 more for the handler's bank (R147). -/
def bankKey (w : Wave) (n : Nat) : Nat := if w.trap.h && decide (60 ≤ n) then n + 64 else n
def wrBank (w : Wave) (key : Nat) (x : W64) : Wave :=
  if 64 ≤ key then { w with hs := stSet 0 (key - 64) x w.hs } else { w with s := stSet 0 key x w.s }

/-- Vector register of a lane (R56). -/
def rdV (w : Wave) (lane n : Nat) : W32 := stGet 0 (256 * lane + n) w.v
def wrV (w : Wave) (lane n : Nat) (x : W32) : Wave := { w with v := stSet 0 (256 * lane + n) x w.v }

/-- Lane predicate; k0 reads as true (R56). -/
def rdK (w : Wave) (n lane : Nat) : Bool := n == 0 || (stGet 0 n w.k).getLsbD lane
def setBit {n : Nat} (x : BitVec n) (i : Nat) (b : Bool) : BitVec n :=
  if b then x ||| (1#n <<< i) else x &&& ~~~(1#n <<< i)
def wrK (w : Wave) (n lane : Nat) (b : Bool) : Wave := { w with k := stSet 0 n (setBit (stGet 0 n w.k) lane b) w.k }

/-- Uniform predicate; q0 reads as true (R56). -/
def rdQ (w : Wave) (n : Nat) : Bool := n == 0 || w.q.getLsbD n
def wrQ (w : Wave) (n : Nat) (b : Bool) : Wave := { w with q := setBit w.q n b }

/-! ### Gangs and parts -/

def sliceDead : Slice :=
  { live := false, run := { lanes := [], pc := 0, loops := [], rets := [] }, parked := [], idle := 0, busy := false,
    atRegang := none, atRet := false }

/-- The current gang (R32). -/
def gang (w : Wave) : List Nat := w.path.getD w.cur []
def sliceAt (w : Wave) (i : Nat) : Slice := w.slices.getD i sliceDead
/-- The running part that stands for a gang. -/
def gangPart (w : Wave) (g : List Nat) : Part := (sliceAt w (g.headD 0)).run
/-- PC of the current gang. -/
def gpc (w : Wave) : W64 := (gangPart w (gang w)).pc
/-- Lanes of the running parts of the current gang, ascending (R110). -/
def runLanes (w : Wave) : List Nat := (gang w).flatMap (fun i => (sliceAt w i).run.lanes)

def updSlices (w : Wave) (g : List Nat) (f : Slice → Slice) : Wave :=
  { w with slices := w.slices.mapIdx (fun i x => if g.contains i then f x else x) }

/-- Mask of lanes (R145). -/
def laneMask (ls : List Nat) : W32 := ls.foldl (fun m l => setBit m l true) 0

/-- Back-edges at the next sequential address (R117). -/
def backEdge (next : W64) : List LoopEnt → W64 × List LoopEnt
  | [] => (next, [])
  | t :: r =>
    if next = t.stop then
      (if t.left - 1 = 0 then backEdge next r else (t.start, { t with left := t.left - 1 } :: r))
    else (next, t :: r)

/-- Loop entries that stay at a taken branch to t (R118). -/
def popLoops (t : W64) : List LoopEnt → List LoopEnt
  | [] => []
  | l :: r => if l.start.toNat ≤ t.toNat ∧ t.toNat < l.stop.toNat then l :: r else popLoops t r

def partSeq (next : W64) (p : Part) : Part :=
  { p with pc := (backEdge next p.loops).1, loops := (backEdge next p.loops).2 }
def partTo (t : W64) (p : Part) : Part := { p with pc := t, loops := popLoops t p.loops }

/-- Whether two parts stand at one place with equal stacks (R30, R33, R108, R112). -/
def samePlace (p q : Part) : Bool := p.pc == q.pc && p.loops == q.loops && p.rets == q.rets

/-- Parked parts that stand where the running part does join it (R112). -/
def unite (sl : Slice) : Slice :=
  { sl with
    run := { sl.run with lanes := (sl.parked.filter (samePlace sl.run)).foldl (fun a p => unionNat a p.lanes) sl.run.lanes }
    parked := sl.parked.filter (fun p => !samePlace sl.run p) }

/-- The current gang merges with every gang that stands where it does; the result takes the earliest place (R33). A gang that waits at a
`regang` or a held `ret` has executed it and merges there only (R35, R134; log 84). -/
def mergeGangs (w : Wave) : Wave :=
  let g := gang w
  let here := (w.path.mapIdx (fun i x => (i, x))).filter
    (fun p => p.1 == w.cur || (!p.2.isEmpty && !g.isEmpty && !(p.2 ++ g).any (fun i => (sliceAt w i).atRegang.isSome || (sliceAt w i).atRet) &&
      samePlace (gangPart w g) (gangPart w p.2)))
  match here with
  | (i0, _) :: _ :: _ =>
    let all := here.foldl (fun a p => unionNat a p.2) []
    { w with
      path := (w.path.mapIdx (fun i x => (i, x))).filterMap
        (fun p => if p.1 == i0 then some all else if here.any (fun h => h.1 == p.1) then none else some p.2)
      cur := i0 }
  | _ => w

/-- What happens at an issue boundary: unite, then merge (R33, R112); not in handler mode (R149). -/
def settle (w : Wave) : Wave := if w.trap.h then w else mergeGangs (updSlices w (gang w) unite)

/-- The current gang goes on at the next instruction (R117). -/
def goSeq (w : Wave) : Wave := settle (updSlices w (gang w) (fun sl => { sl with run := partSeq w.npc sl.run }))
/-- The current gang takes a branch to t (R118). -/
def goTo (w : Wave) (t : W64) : Wave := settle (updSlices w (gang w) (fun sl => { sl with run := partTo t sl.run }))

/-- Whether a gang waits at a `regang` (R35) or at a held `ret` (R134). -/
def gangWaits (w : Wave) (g : List Nat) : Bool :=
  g.any (fun i => (sliceAt w i).atRegang.isSome || (sliceAt w i).atRet)

/-- First place from a list of candidates whose gang does not wait. -/
def firstFree (w : Wave) : List Nat → Option Nat
  | [] => none
  | i :: r => if gangWaits w (w.path.getD i []) then firstFree w r else some i

/-- The current gang gives way to the next gang of the list that does not wait (R32). -/
def giveWay (w : Wave) : Wave :=
  let n := w.path.length
  match firstFree w ((List.range n).map (fun i => (w.cur + 1 + i) % n)) with
  | some i => { w with cur := i }
  | none => { w with cur := (w.cur + 1) % max n 1 }

/-- Replace the current gang in the path list by the given gangs; empty ones are left out (R31, R112, R114). -/
def splitGang (w : Wave) (gs : List (List Nat)) : Wave :=
  { w with path := w.path.take w.cur ++ gs.filter (fun g => !g.isEmpty) ++ w.path.drop (w.cur + 1) }

/-- Swap of a slice (R112): the top parked part runs; the old one goes to the bottom when it is kept. The idle count starts again, which
R112 does not say (log 85). -/
def swapPart (keep : Bool) (sl : Slice) : Slice :=
  match sl.parked with
  | [] => sl
  | p :: r => { sl with run := p, parked := if keep then r ++ [sl.run] else r, idle := 0, atRegang := none }

/-- Slices of the current gang that swapped leave a gang of several slices and stand alone after it, in ascending order (R112; log 85). -/
def leaveGang (w : Wave) (out : List Nat) : Wave :=
  if (gang w).length ≤ 1 then w
  else splitGang w ((gang w).filter (fun i => !out.contains i) :: out.map (fun i => [i]))

/-! ### Operations in flight -/

def findFlight (s : State) (fid : Nat) : Option Flight := s.flights.find? (fun f => f.id == fid)
def putFlight (s : State) (f : Flight) : State := { s with flights := s.flights.map (fun x => if x.id == f.id then f else x) }
def setAct (s : State) (f : Flight) (a : Act) : State := putFlight s { f with act := a }
def dropFlight (s : State) (fid : Nat) : State := { s with flights := s.flights.filter (fun f => !(f.id == fid)) }

/-- Identity of the wave for an operation of its current instruction (R155); a shadow's operations are its home's (R138). -/
def whoOf (w : Wave) : Who :=
  { uid := match w.fork with | some f => f.home | none => w.uid
    die := w.die, core := w.core, wctx := w.wctx, asid := w.asid, launch := w.launch, widx := w.widx, pc := gpc w
    lanes := laneMask (runLanes w) }

/-- Identity of an operation that no wave issued. -/
def whoNone (die asid launch : Nat) : Who :=
  { uid := 0, die := die, core := 0, wctx := 0, asid := asid, launch := launch, widx := 0, pc := 0, lanes := 0 }

/-- Two byte ranges meet. -/
def locHit (a : Loc) (na : Nat) (b : Loc) (nb : Nat) : Bool :=
  match a, b with
  | .mem p, .mem q => decide (p < q + nb) && decide (q < p + na)
  | .pad u p, .pad v q => u == v && decide (p < q + nb) && decide (q < p + na)
  | _, _ => false

/-- Two accesses of one wave that keep program order: shared bytes, or both to device pages (R48, R174). -/
def accHit (x y : Acc × Nat) : Bool :=
  locHit x.1.loc x.2 y.1.loc y.2 || (x.1.page.ptype == .device && y.1.page.ptype == .device)

def cellAcc (c : CellRef) : Acc × Nat :=
  ({ lane := 0, loc := .mem c.pa, va := 0, page := { pageNormal with ptype := .estimator } }, 16)

/-- Accesses of an operation in the per-wave path, with sizes. -/
def actAccs : Act → List (Acc × Nat)
  | .load _ n as _ => as.map (fun a => (a, n))
  | .store n as => as.map (fun a => (a.1, n))
  | .atom _ _ t as _ _ => as.map (fun a => (a.1, t.bits / 8))
  | .bar u off _ => [({ lane := 0, loc := .pad u off, va := 0, page := pageNormal }, 16)]
  | .estClr cs => cs.map cellAcc
  | .estLd _ _ _ cs _ => cs.map (fun c => cellAcc c.2)
  | .stage rs => rs.map (fun r => cellAcc r.1)
  | _ => []

/-- Package whose window a physical address lies in (R393). -/
def podPkg (pa : Nat) : Option Nat := if isPod pa then some (field pa 46 41) else none

/-- The same of a virtual address of a context. -/
def windowAt (s : State) (asid : Nat) (va : W64) : Option Nat := (translate s asid va.toNat).bind (fun leaf => podPkg (paUnder leaf va.toNat))

/-- Package an operation goes to, when it is another one (R393, R395): the window its addresses lie in, of an engine's or a unit's command
those that the command itself names; the package an `amsg` names; or the root of a launch that another package holds (log 18). -/
def destPkg (s : State) (asid : Nat) (act : Act) : Option Nat :=
  match act with
  | .record d _ _ => if 8 ≤ d then some (d / 8 - 1) else none
  | .wreturn l _ | .draw _ l _ => if 1 < s.pod.members.length && (findLaunch s l).isNone then some 64 else none
  | .copy c => windowAt s asid c.addr
  | .glean g => (if g.srcPad then none else windowAt s asid g.src).or (if g.dstPad then none else windowAt s asid g.dst)
  | .matrix m => (match m.fn with | .drain _ _ none addr _ _ _ => windowAt s asid addr | _ => none)
  | .trace c => windowAt s asid c.desc
  | .tex c => windowAt s asid c.desc
  | .hgsAdd _ pa _ _ => podPkg pa
  | .merge c _ _ _ | .fold c _ _ => podPkg c.pa
  | .stage rs => rs.findSome? (fun r => podPkg r.1.pa)
  | _ => (actAccs act).findSome? (fun x => match x.1.loc with | .mem pa => podPkg pa | .pad _ _ => none)

/-- Whether the operation crosses to another package in a context with RX = 1 (R395). -/
def crosses (s : State) (asid : Nat) (act : Act) : Bool :=
  (match findCtx s asid with | some c => c.rx | none => false) && (destPkg s asid act).isSome

/-- Start an operation; the newest stands last. The exchange notes the tick it is sent in when it crosses packages (R395). -/
def addFlight (s : State) (who : Who) (cls : Option Cls) (act : Act) (rr : Option Nat) : State :=
  let f : Flight := { id := s.nextFid, who := who, cls := cls, act := act, rr := rr, held := false
                      tick := if crosses s who.asid act then some (tickNow s) else none, vis := none, skip := [] }
  { s with nextFid := s.nextFid + 1, flights := s.flights ++ [f] }

/-- Operations of a wave and class that are outstanding: the counter (R194, R195). -/
def counter (s : State) (uid : Nat) (c : Cls) : Nat :=
  (s.flights.filter (fun f => f.who.uid == uid && f.cls == some c)).length

/-- Completed operations at the front of their class leave (R195). -/
def dropHeld (uid : Nat) (c : Cls) : List Flight → List Flight
  | [] => []
  | f :: r =>
    if f.who.uid == uid && f.cls == some c then (if f.held then dropHeld uid c r else f :: r)
    else f :: dropHeld uid c r

/-- Completion of an operation: counts down when no older one of its class is outstanding, else it is held (R195). -/
def completeFlight (s : State) (f : Flight) : State :=
  match f.cls with
  | none => dropFlight s f.id
  | some c =>
    let s1 := putFlight s { f with act := .nop, held := true, rr := none }
    { s1 with flights := dropHeld f.who.uid c s1.flights }

/-- Weight that goes home to a launch's root (R372, R376). -/
def returnWeight (s : State) (die asid launch amount : Nat) : State :=
  if amount = 0 then s else addFlight s (whoNone die asid launch) none (.wreturn launch amount) none

/-! ### Error records and the end of a wave -/

/-- The 8 words of an error record of kinds 0x01 to 0x04 (R155). -/
def errWords (kind cause : Nat) (who : Who) (addr : W64) : List W32 :=
  [BitVec.ofNat 32 (kind + 2 ^ 8 * cause + 2 ^ 12 * who.die + 2 ^ 15 * (who.core / 4) + 2 ^ 20 * (who.core % 4) + 2 ^ 22 * who.wctx),
   BitVec.ofNat 32 who.launch, BitVec.ofNat 32 (who.launch / 2 ^ 32), BitVec.ofNat 32 who.widx,
   who.pc.truncate 32, (who.pc >>> 32).truncate 32, addr.truncate 32, (addr >>> 32).truncate 32]

/-- Send a record to the context's error node; the launch's completion carries ERR (R155, R156). No sender is named, and R20 then orders it with
the fixed-function units, last (log 124). -/
def sendError (s : State) (die asid launch weight : Nat) (pay : List W32) : State :=
  match findCtx s asid with
  | none => s
  | some c =>
    let r : Record := { asid := asid, node := c.errn, launch := launch, depth := 0, weight := weight, quad := none, seq := none,
                        pay := pay, rerun := false, bypass := 0, avoid := none }
    addFlight (updLaunch s launch (fun l => { l with err := true })) (whoNone die asid launch) none (.record die r true) none

/-- A late error of an operation becomes an error record (R155): kind, cause, failing address. -/
def lateRecord (s : State) (who : Who) (kind cause : Nat) (addr : W64) : State :=
  sendError s who.die who.asid who.launch 0 (errWords kind cause who addr)

/-- Waves whose samples a combining-buffer entry holds (R239). -/
def entryWaves (s : State) (die core : Nat) (e : EcbEnt) : List Nat :=
  e.waves.filterMap (fun c => ((s.waves ++ s.ghosts).find? (fun w => w.fork.isNone && w.die == die && w.core == core && w.wctx == c)).map (fun w => w.uid))

/-- Flush of one combining-buffer entry to its cell's home as a merge (R241); the waves it holds samples of wait for it (R228). -/
def flushEntry (s : State) (die core : Nat) (e : EcbEnt) (waits : List Nat) (cmd : Option Nat) : State :=
  addFlight s { whoNone die e.cell.asid 0 with core := core } none (.merge e.cell e.part (unionNat waits (entryWaves s die core e)) cmd) none

/-- Flush every entry of a core that a test picks, in order of allocation (R241). -/
def flushWhere (s : State) (die core : Nat) (p : EcbEnt → Bool) (waits : List Nat) (cmd : Option Nat) : State :=
  let c := coreAt s die core
  let s1 := putCore s die core { c with ecb := c.ecb.filter (fun e => !p e) }
  (c.ecb.filter p).foldl (fun st e => flushEntry st die core e waits cmd) s1

/-- Shadows of a home wave, those that a test on the fork picks. -/
def shadowsOf (s : State) (uid : Nat) (p : Wave → Fork → Bool) : List Wave :=
  s.waves.filter (fun x => match x.fork with | some f => f.home == uid && p x f | none => false)

def addRefs (rs new : List RegRef) : List RegRef := new.foldl (fun a r => if a.contains r then a else a ++ [r]) rs

/-- Registers that the current gang of a home wave writes count against the read sets of its slices' forks (R134). -/
def noteWrites (t : State) (home : Wave) (rs : List RegRef) : State :=
  { t with waves := t.waves.map (fun x => match x.fork with
    | some f =>
      if f.home == home.uid && f.slices.any (fun k => (gang home).contains k) then { x with fork := some { f with homeWrote := addRefs f.homeWrote rs } }
      else x
    | none => x) }

/-! ### Return-value predictor -/

def predDefault : PredEnt := { b0 := 0, s0 := 0, b1 := 0, s1 := 0, conf := 0 }
/-- Entry of a call site (R125). -/
def predIndex (pc : W64) : Nat := field pc.toNat 9 2 ^^^ field pc.toNat 17 10
def predAt (s : State) (w : Wave) (pc : W64) : PredEnt := stGet predDefault (predIndex pc) (coreAt s w.die w.core).pred
def putPred (s : State) (w : Wave) (pc : W64) (e : PredEnt) : State :=
  let c := coreAt s w.die w.core
  putCore s w.die w.core { c with pred := stSet predDefault (predIndex pc) e c.pred }

/-- Base, stride and fit of a register over the lanes of a slice (R126). -/
def observe (w : Wave) (sl r : Nat) : W32 × W32 × Bool :=
  let l0 := 4 * sl
  let st := rdV w (l0 + 1) r - rdV w l0 r
  let b := rdV w l0 r - st * BitVec.ofNat 32 l0
  (b, st, [2, 3].all (fun j => rdV w (l0 + j) r == b + st * BitVec.ofNat 32 (l0 + j)))

/-- Training by one slice (R126). -/
def trainEnt (w : Wave) (m : FcMark) (e : PredEnt) (sl : Nat) : PredEnt :=
  let a := observe w sl m.rva
  let b := if m.rc = 2 then observe w sl m.rvb else (e.b1, e.s1, true)
  if a.2.2 && b.2.2 then
    (if e.b0 = a.1 ∧ e.s0 = a.2.1 ∧ e.b1 = b.1 ∧ e.s1 = b.2.1 then { e with conf := min (e.conf + 1) 3 }
     else { b0 := a.1, s0 := a.2.1, b1 := b.1, s1 := b.2.1, conf := 0 })
  else { e with conf := 0 }
def train (s : State) (w : Wave) (m : FcMark) (sls : List Nat) : State :=
  if m.rc = 0 then s else putPred s w m.pc (sls.foldl (trainEnt w m) (predAt s w m.pc))

/-! ### Registers still to be written -/

/-- Vector registers of a value of a type. -/
def vregsOf (t : Ty) (n : Nat) : List RegRef := if t.is64 then [.v n, .v (n + 1)] else [.v n]
def runRegs (n k : Nat) : List RegRef := (List.range k).map (fun i => .v (n + i))
def dstRegs (d : LoadDst) : List RegRef := if d.vec then vregsOf d.ty d.reg else [.s d.reg]

/-- Registers an operation in flight still has to write (R53, R70); an s-register by its bank key. -/
def pendingOf (f : Flight) : List RegRef :=
  (match f.rr with | some n => [.s n] | none => []) ++
  (match f.act with
   | .load d _ _ _ => dstRegs d
   | .atom (some d) _ _ _ _ _ => dstRegs d
   | .estLd _ r _ _ _ => runRegs r 3
   | .tex t => match t.fn with | .hgf => runRegs t.dst t.cnt | .hgs => [] | .tex | .tld => runRegs t.dst 4
   | _ => [])
def pendingRegs (s : State) (uid : Nat) : List RegRef :=
  (s.flights.filter (fun f => f.who.uid == uid)).flatMap pendingOf

/-- Registers that operations in flight still write for a wave. A shadow awaits those that were outstanding at its fork, unless it has
written them or they are predicted (R127). -/
def awaitedRegs (s : State) (w : Wave) : List RegRef :=
  match w.fork with
  | none => pendingRegs s w.uid
  | some f => ((s.flights.filter (fun g => g.who.uid == f.home && decide (g.id < f.born))).flatMap pendingOf).filter (fun r =>
      !f.wrote.contains r && !(match r with | .v n => f.pred.any (fun p => p.1 == n) | _ => false))

/-- Return registers of a call. -/
def retRegs (m : FcMark) : List Nat := (if m.rc = 0 then [] else [m.rva]) ++ (if m.rc = 2 then [m.rvb] else [])
/-- Whether one still has to be written. -/
def retsPending (s : State) (uid : Nat) (m : FcMark) : Bool :=
  (pendingRegs s uid).any (fun r => match r with | .v n => (retRegs m).contains n | _ => false)

/-- Lanes of some slices. -/
def sliceLanes (sls : List Nat) : List Nat := sls.flatMap (fun i => [4 * i, 4 * i + 1, 4 * i + 2, 4 * i + 3])

/-- A training takes the values of the registers that have come (R126): what younger instructions write later does not reach it. One that an
older instruction of the VIQ writes has not come. -/
def observeRets (s : State) (w : Wave) (t : Training) : Training :=
  let out (r : Nat) : Bool := (awaitedRegs s w).contains (.v r) || (w.viq.take t.older).any (fun e => e.instr.writes.contains (.v r))
  { t with
    await := t.await.filter out
    vals := (t.await.filter (fun r => !out r)).foldl (fun m r =>
      (sliceLanes t.slices).foldl (fun m l => stSet 0 (256 * l + r) (rdV w l r) m) m) t.vals }

/-- A training takes place once all its registers have come; until then the wave keeps it (R126). -/
def settleTraining (s : State) (uid : Nat) (t : Training) : State :=
  match holder s uid with
  | none => s
  | some w =>
    let x := observeRets s w t
    if x.await.isEmpty then train s { w with v := x.vals } x.mark x.slices
    else updHolder s uid (fun y => { y with trains := y.trains ++ [x] })

/-- A `ret` of some slices trains the predictor with the values its return registers have in program order (R126); `older` entries of the VIQ
stand before it. -/
def trainWhen (s : State) (uid older : Nat) (m : FcMark) (sls : List Nat) : State :=
  if m.rc = 0 ∨ sls.isEmpty then s else settleTraining s uid { mark := m, slices := sls, older := older, await := retRegs m, vals := [] }

/-- The oldest entry of the VIQ has issued. -/
def trainsAfter (ts : List Training) : List Training := ts.map (fun t => { t with older := t.older - 1 })

/-- Trainings of a wave, a retired one included, whose registers have come take place (R126). -/
def settleTrains (s : State) (uid : Nat) : State :=
  match holder s uid with
  | none => s
  | some w => w.trains.foldl (fun st t => settleTraining st uid t) (updHolder s uid (fun y => { y with trains := [] }))

/-! ### Squash -/

/-- Drop shadow contexts of a wave with their table and buffer entries; home slices whose `ret` waits for them go on, and that `ret`
trains the predictor (R126, R133, R136). -/
def squashWhere (s : State) (uid : Nat) (p : Wave → Fork → Bool) : State :=
  let sh := shadowsOf s uid p
  let ids := sh.map (fun x => x.uid)
  if ids.isEmpty then s
  else
    match findWave s uid with
    | none => s
    | some w =>
      let c := coreAt s w.die w.core
      let s1 := putCore s w.die w.core { c with
        flt := c.flt.filter (fun e => !ids.contains e.uid), fsb := c.fsb.filter (fun e => !ids.contains e.uid) }
      let s2 := { s1 with waves := s1.waves.filter (fun x => !ids.contains x.uid) }
      let fs := sh.filterMap (fun x => x.fork)
      let s3 := putWave s2 (updSlices w (fs.flatMap (fun f => f.returned)) (fun sl => { sl with atRet := false }))
      fs.foldl (fun st f => trainWhen st uid 0 f.mark f.returned) s3

/-- Every fork of a wave is squashed (R133). -/
def squashForks (s : State) (uid : Nat) : State := squashWhere s uid (fun _ _ => true)

/-- Pool weight goes home when the last wave of the launch on the quad retires and no draw is pending (R375). -/
def returnPool (s : State) (w : Wave) : State :=
  let q := quadOf w.die w.core
  let others := s.waves.any (fun x => x.launch == w.launch && quadOf x.die x.core == q)
  let drawing := s.flights.any (fun f => match f.act with | .draw q' l _ => q' == q && l == w.launch | _ => false)
  if others || drawing then s
  else
    let x := quadAt s q
    match x.pools.find? (fun p => p.1 == w.launch) with
    | none => s
    | some p =>
      returnWeight (putQuad s q { x with pools := x.pools.filter (fun p => !(p.1 == w.launch)) }) w.die w.asid w.launch p.2

/-- Charge of a retiring wave: resident cycles x slices / 8, by the clock of its core (R369). -/
def chargeOf (s : State) (w : Wave) : Int :=
  Int.ofNat ((coreClock s w.die w.core - w.placed) * w.foot.slices / 8)

/-- A wave retires (R29, R37): forks are squashed, its combining-buffer entries flush (R241), weight and pools go home (R375,
R376), its launch is charged (R369), its contexts are free. -/
def retireWave (s : State) (w : Wave) (weight : Nat) : State :=
  let sq := squashForks s w.uid
  let s0 := dropWave sq w.uid
  let s1 := { s0 with ghosts := { w with trains := match findWave sq w.uid with | some x => x.trains | none => w.trains } :: s0.ghosts }
  let s2 := flushWhere s1 w.die w.core (fun e => e.waves.contains w.wctx) [] none
  let s3 := returnPool (returnWeight s2 w.die w.asid w.launch weight) w
  let d := dieAt s3 w.die
  putDie s3 w.die { d with deficit := d.deficit.map (fun p => if p.1 == w.launch then (p.1, p.2 - chargeOf s w) else p) }

/-- Queue of a node on a die (R363). -/
def queueAt (s : State) (die asid node : Nat) : NodeQ :=
  ((dieAt s die).queues.find? (fun q => q.asid == asid && q.node == node)).getD
    { asid := asid, node := node, chip := [], ring := [], head := 0, tail := 0, batch := false, newest := none }
def putQueue (s : State) (die : Nat) (q : NodeQ) : State :=
  let d := dieAt s die
  putDie s die { d with queues := putBy (fun x => x.asid == q.asid && x.node == q.node) q d.queues }

/-- Whether a task that ends by R152 is placed again instead (R382). -/
def reruns (s : State) (w : Wave) : Bool :=
  (match nodeOf s w.asid w.node with | some n => n.rerun | none => false) &&
  w.trap.recs.any (fun r => r.cause == cSoft || r.cause == cPoison) && !w.tookMore && !w.orig.rerun

/-- Inline rays of a wave that ends so are aborted: they write nothing (R333). -/
def abortRays (s : State) (uid : Nat) : State :=
  { s with
    flights := s.flights.map (fun f => match f.act with
      | .trace c => if f.who.uid == uid && !c.queue then { f with act := .trace { c with rays := [] } } else f
      | _ => f) }

/-- A wave ends by a double fault (kind 3) or without a handler (kind 4): error record with its weight and the cause that ends it, or the
original record again at the head of its queue for a rerunnable task (R152, R155, R376, R382; log 86). -/
def endWave (s : State) (w : Wave) (kind : Nat) (r : Option CauseRec) : State :=
  let s1 := abortRays (retireWave s w 0) w.uid
  if reruns s w then
    let q := queueAt s1 w.die w.asid w.node
    putQueue s1 w.die { q with
      chip := { w.orig with weight := w.weight, rerun := true, avoid := some w.core, seq := some w.widx } :: q.chip }
  else sendError s1 w.die w.asid w.launch w.weight (match r with
    | some c => errWords kind c.cause { whoOf w with pc := c.pc } c.addr
    | none => errWords kind 0 (whoOf w) 0)

/-! ### Exceptions -/

/-- A record joins the records held: the first of its cause keeps ADDR, PC, DETAIL (R146). -/
def addRec (rs : List CauseRec) (r : CauseRec) : List CauseRec :=
  match rs with
  | [] => [r]
  | x :: t =>
    if x.cause = r.cause then { x with lanes := x.lanes ||| r.lanes, more := true } :: t
    else if r.cause < x.cause then r :: x :: t
    else x :: addRec t r
def addRecs (rs new : List CauseRec) : List CauseRec := new.foldl addRec rs

/-- xcause as a bitmap (R142). -/
def xcause (t : Trap) : W32 := t.recs.foldl (fun m r => setBit m r.cause true) 0

/-- Bits 55:2 of xpc and xvec (R145). -/
def xaddrMask : W64 := 0x00FFFFFFFFFFFFFC

/-- Delivery (R148): forks squashed, xpc, DEF, PPRIV, PRV, H written, the current gang at xvec; without a handler the wave ends
(R152). -/
def deliver (s : State) (w : Wave) (xpc : W64) : State :=
  let t := { w.trap with
    recs := addRecs w.trap.recs w.trap.held, held := [], xpc := xpc &&& xaddrMask,
    defr := (addRecs w.trap.recs w.trap.held).all (fun r => isDeferred r.cause),
    ppriv := w.trap.prv, prv := true, h := true }
  let s1 := squashForks (putWave s { w with trap := t }) w.uid
  match findWave s1 w.uid with
  | none => s1
  | some w1 =>
    if w.trap.xvec = 0 then endWave s1 w1 4 t.recs.head?
    else putWave s1 (updSlices w1 (gang w1) (fun sl =>
      { sl with run := { sl.run with pc := w.trap.xvec }, atRegang := none }))

/-- A continuation stops before an instruction it may not run, until its fork is resolved (R132). -/
def stopShadow (s : State) (w : Wave) : State := putWave s { w with fork := w.fork.map (fun f => { f with stopped := true }) }

/-- Taking a precise exception (R142, R148, R149): in a handler it is a double fault; a shadow stops before it (R132). Deferred
causes already arrived are delivered with it (R150). While older instructions stand in the VIQ the forks are squashed and nothing more happens:
the wave stays before its instruction until they have issued (R148). While a full save empties the VIQ a cause is kept for after the restore
(R159). -/
def takeException (s : State) (w : Wave) (new : List CauseRec) (xpc : W64) : State :=
  if w.fork.isSome then stopShadow s w
  else if !w.viq.isEmpty then squashForks s w.uid
  else if w.saveReq == some .full && !w.trap.h then putWave s { w with trap := { w.trap with held := addRecs w.trap.held new } }
  else
    let w1 := { w with trap := { w.trap with recs := addRecs w.trap.recs new } }
    if w.trap.h then endWave (putWave s w1) w1 3 new.head? else deliver (putWave s w1) w1 xpc

/-- The record of one cause raised by lanes in ascending order (R145): ADDR and DETAIL of the lowest. -/
def causeOf (w : Wave) (c : Nat) (fs : List (Nat × LaneFault)) : CauseRec :=
  let mine := fs.filter (fun f => f.2.cause == c)
  { cause := c, lanes := laneMask (mine.map (fun f => f.1)), more := false,
    addr := BitVec.ofNat 64 ((mine.map (fun f => f.2.addr)).headD 0), pc := gpc w,
    detail := BitVec.ofNat 64 ((mine.map (fun f => f.2.detail)).headD 0) }

/-- Precise causes found on the lanes of an instruction (R142, R143). -/
def raiseLanes (s : State) (w : Wave) (fs : List (Nat × LaneFault)) : State :=
  let cs := (List.range 16).filter (fun c => fs.any (fun f => f.2.cause == c))
  takeException s w (cs.map (fun c => causeOf w c fs)) (gpc w)

/-- One precise cause of a drill instruction or command: LANES are the running lanes of the gang (R146). -/
def raiseDrill (s : State) (w : Wave) (c addr detail : Nat) : State :=
  raiseLanes s w ((runLanes w).map (fun l => (l, { cause := c, addr := addr, detail := detail })))

/-- As `raiseDrill`, with the address of word 0 as ADDR (R142). -/
def raisePc (s : State) (w : Wave) (c detail : Nat) : State := raiseDrill s w c (gpc w).toNat detail

/-- A deferred cause arrives for a wave; it waits for DELIVERY (R142, R149). A shadow's operations are its home's. -/
def addDeferred (s : State) (uid : Nat) (r : CauseRec) : State :=
  match findWave s uid with
  | none => s
  | some w => putWave s { w with trap := { w.trap with held := addRec w.trap.held r } }

/-- ENGINE_ERR or POISON of an operation: deferred to its wave, or an error record when the wave has retired (R151, R155). -/
def deferOrRecord (s : State) (who : Who) (kind cause : Nat) (lanes : W32) (addr detail : W64) : State :=
  if (findWave s who.uid).isSome then
    addDeferred s who.uid { cause := cause, lanes := lanes, more := false, addr := addr, pc := who.pc, detail := detail }
  else lateRecord s who kind cause addr

/-- Return from exception (R153): held deferred causes join xcause, H and PRV change, the gang goes to xpc; a cause still set is
delivered again at once. -/
def returnException (s : State) (w : Wave) : State :=
  let recs := addRecs w.trap.recs w.trap.held
  let t := { w.trap with recs := recs, held := [], h := false, prv := w.trap.ppriv }
  let w1 := updSlices { w with trap := t } (gang w) (fun sl => { sl with run := { sl.run with pc := w.trap.xpc } })
  let s1 := putWave s w1
  if recs.isEmpty then putWave s (settle w1) else deliver s1 w1 w.trap.xpc

/-! ### The frame of an instruction -/

/-- Instructions of features (R77, R403): accepted at the lock. -/
def featureOk (s : State) (i : Instr) : Bool :=
  match i with
  | .fcall _ _ _ _ _ _ | .fsync _ => s.regs.flock && s.regs.facc0.getLsbD 0
  | .hgf _ | .hgs _ => s.regs.flock && s.regs.facc0.getLsbD 1
  | .estClose _ => s.regs.flock && s.regs.facc0.getLsbD 2
  | _ => true

/-- Instructions barred in handler mode (R149). -/
def handlerBars (i : Instr) : Bool :=
  match i with
  | .regang _ | .brv _ _ _ _ | .fcall _ _ _ _ _ _ | .fsync _ | .done _ | .spawn _ | .amsg _ | .enq _ | .deq _ _ _ _
  | .dlaunch _ => true
  | .bri _ vec _ _ => vec
  | _ => false

/-- Whether an instruction decodes for this wave (R27, R77, R78, R149). -/
def legal (s : State) (w : Wave) (i : Instr) : Bool :=
  i.wf && featureOk s i && decide (i.vtop ≤ w.foot.vregs) && i.tiles.all (fun t => decide (t < w.foot.tiles)) &&
  !(w.trap.h && handlerBars i)

/-- Lanes whose guard is true: lane predicates on the vector side, all running lanes or none on the drill (R66). -/
def guardLanes (w : Wave) (i : Instr) : List Nat :=
  if i.vecGuard then (runLanes w).filter (fun l => rdK w i.guard.pred l != i.guard.neg)
  else if rdQ w i.guard.pred != i.guard.neg then runLanes w else []

/-- ILLEGAL (R78): one record at word 0, whatever the lanes hold. -/
def raiseIllegal (s : State) (w : Wave) (lanes : List Nat) : State :=
  takeException s w [{ cause := cIllegal, lanes := laneMask lanes, more := false, addr := gpc w, pc := gpc w, detail := 0 }] (gpc w)

/-- LANES of ILLEGAL: the lanes whose guard is true; on the drill, those of the running parts (R78, R146). -/
def illegalLanes (w : Wave) (i : Instr) : List Nat := if i.vecGuard then guardLanes w i else runLanes w

/-- A vote or reduction into an s-register has a result even when no lane is active (R101). -/
def runsEmpty (i : Instr) : Bool := match i with | .vote o | .gred o => bitAt o.x 6 | _ => false

/-- Whether the instruction takes effect: some lane's guard is true (R66, R101; log 92). -/
def takesEffect (w : Wave) (i : Instr) : Bool := !(guardLanes w i).isEmpty || runsEmpty i

/-- Every instruction of a program: ILLEGAL when it does not decode (R78; log 16), nothing but the next PC when its guard is false
everywhere (R66), else its own effect on the lanes whose guard is true. With no wave to move, nothing happens. -/
def runInstr (i : Instr) (s : State) (body : State → Wave → List Nat → Out) : Out :=
  match curWave s with
  | none => .next s
  | some w =>
    if legal s w i then
      (if takesEffect w i then body s w (guardLanes w i) else .next (putWave s (goSeq w)))
    else .next (raiseIllegal s w (illegalLanes w i))

/-- The instruction is over: its wave, changed, goes on at the next instruction. -/
def finish (s : State) (w : Wave) : Out := .next (putWave s (goSeq w))

/-- A privileged instruction outside privileged mode raises PRIV (R142, R153). -/
def privileged (s : State) (w : Wave) (detail : Nat) (k : Out) : Out :=
  if w.trap.prv then k else .next (raisePc s w cPriv detail)

/-- As `finish`, for a wave that other changes of the state may have touched. -/
def goOn (s : State) (uid : Nat) : Out :=
  match findWave s uid with
  | some w => .next (putWave s (goSeq w))
  | none => .next s

/-- The wave waits: the same instruction is tried again when it moves next. -/
def stall (s : State) : Out := .next s

end Sys2Proof.Machine
end

