-- ==== Sys2Proof/Machine/Operands.lean ====
section
/-!
DEFINITION. Operand forms: reading A, B and C and writing D on the vector side and on the drill (R62, R67, R82), signed and
unsigned values, truncation and saturation (R80, R85), and the frame of an instruction that only computes (R83, R84).
-/
namespace Sys2Proof.Machine

/-- Signed value of a w-bit pattern (R80). -/
def sval (w x : Nat) : Int := if 2 ^ (w - 1) ≤ x then (x : Int) - 2 ^ w else x

/-- Value of an operand: signed for `.i` types, unsigned for the others (R85). -/
def tval (t : Ty) (x : Nat) : Int := if t.isSigned then sval t.bits x else x

/-- trunc(e, w) as a pattern (R80). -/
def trunc (w : Nat) (e : Int) : Nat := (e % 2 ^ w).toNat

/-- Range of a type (R80). -/
def tLo (t : Ty) : Int := if t.isSigned then -(2 ^ (t.bits - 1)) else 0
def tHi (t : Ty) : Int := if t.isSigned then 2 ^ (t.bits - 1) - 1 else 2 ^ t.bits - 1

/-- sat(e) as a pattern (R80). -/
def satTo (t : Ty) (e : Int) : Nat := trunc t.bits (max (tLo t) (min e (tHi t)))

/-- trunc or sat, as SAT selects (R85). -/
def fit (t : Ty) (sat : Bool) (e : Int) : Nat := if sat then satTo t e else trunc t.bits e

/-- A vector operand of a type in one lane: a register's low bits, or a pair (R82). -/
def rdVec (w : Wave) (t : Ty) (lane n : Nat) : Nat :=
  if t.is64 then (rdV w lane n).toNat + 2 ^ 32 * (rdV w lane (n + 1)).toNat else (rdV w lane n).toNat % 2 ^ t.bits

/-- A uniform operand of a type: the low bits of an s-register (R82). -/
def rdUni (w : Wave) (t : Ty) (n : Nat) : Nat := (rdS w n).toNat % 2 ^ t.bits

/-- Operand A, B, C of the type t, in a lane (R62, R63). -/
def opA (w : Wave) (o : Ops) (t : Ty) (lane : Nat) : Nat := if o.k.vec then rdVec w t lane o.a else rdUni w t o.a
def opB (w : Wave) (o : Ops) (t : Ty) (lane : Nat) : Nat :=
  match o.b with
  | .v n => rdVec w t lane n
  | .s n => rdUni w t n
  | .imm x => x.toNat % 2 ^ t.bits
def opC (w : Wave) (o : Ops) (t : Ty) (lane : Nat) : Nat := if o.k.cVec then rdVec w t lane o.c else rdUni w t o.c
/-- D as a source. -/
def opD (w : Wave) (o : Ops) (t : Ty) (lane : Nat) : Nat := if o.k.vec then rdVec w t lane o.d else rdUni w t o.d

/-- A predicate operand: k in a lane, or q (R87). -/
def opPred (w : Wave) (o : Ops) (n lane : Nat) : Bool := if o.k.vec then rdK w n lane else rdQ w n

/-- Fill of a result to a register of m bits: signed types of the list by sign, the others with zeros (R82). -/
def fillBits (m : Nat) (signed : Bool) (t : Ty) (x : Nat) : Nat := if signed then trunc m (sval t.bits x) else x

/-- Write a result of a type to a vector register or pair (R82). -/
def wrVec (w : Wave) (t : Ty) (lane n x : Nat) : Wave :=
  if t.is64 then wrV (wrV w lane n (BitVec.ofNat 32 x)) lane (n + 1) (BitVec.ofNat 32 (x / 2 ^ 32))
  else wrV w lane n (BitVec.ofNat 32 (fillBits 32 (t == .i8 || t == .i16) t x))

/-- Write a result of a type to an s-register (R82). -/
def wrUni (w : Wave) (t : Ty) (n x : Nat) : Wave :=
  wrS w n (BitVec.ofNat 64 (fillBits 64 (t == .i8 || t == .i16 || t == .i32) t x))

/-- The 64-bit fill of a drill result, for a bank key (R82, R147). -/
def wrUniKey (w : Wave) (t : Ty) (key x : Nat) : Wave :=
  wrBank w key (BitVec.ofNat 64 (fillBits 64 (t == .i8 || t == .i16 || t == .i32) t x))

/-- OR flags into %fpflags (R83). -/
def orFlags (w : Wave) (fl : Nat) : Wave := { w with fpflags := w.fpflags ||| BitVec.ofNat 32 fl }

/-- Write D from a per-lane result with flags: in every active lane, or once on the drill. Results come from the wave as it was
before the instruction (R82, R83, R101). -/
def writeD (o : Ops) (t : Ty) (f : Nat → Nat × Nat) (w : Wave) (ls : List Nat) : Wave :=
  if o.k.vec then ls.foldl (fun x l => orFlags (wrVec x t l o.d (f l).1) (f l).2) w
  else orFlags (wrUni w t o.d (f 0).1) (f 0).2

/-- Write a predicate D: k[d] in every active lane, or q[d] (R87). -/
def writeP (o : Ops) (f : Nat → Bool × Nat) (w : Wave) (ls : List Nat) : Wave :=
  if o.k.vec then ls.foldl (fun x l => orFlags (wrK x o.d l (f l).1) (f l).2) w
  else orFlags (wrQ w o.d (f 0).1) (f 0).2

/-- An instruction that only computes (R84): D of type t from a per-lane result without flags. -/
def aluRun (i : Instr) (o : Ops) (t : Ty) (f : Wave → Nat → Nat) (s : State) : Out :=
  runInstr i s (fun s w ls => finish s (writeD o t (fun l => (f w l, 0)) w ls))

/-- As `aluRun`, with floating-point flags (R83, R90). -/
def fltRun (i : Instr) (o : Ops) (t : Ty) (f : Wave → Nat → Nat × Nat) (s : State) : Out :=
  runInstr i s (fun s w ls => finish s (writeD o t (f w) w ls))

/-- An instruction that writes a predicate (R87, R92). -/
def predRun (i : Instr) (o : Ops) (f : Wave → Nat → Bool × Nat) (s : State) : Out :=
  runInstr i s (fun s w ls => finish s (writeP o (f w) w ls))

end Sys2Proof.Machine
end

