-- ==== Sys2Proof/Machine/Alu.lean ====
section
/-!
DEFINITION. Integer instructions (R85 to R87), on patterns and exact integers.
-/
namespace Sys2Proof.Machine

/-! ### Results -/

/-- Shifts by a whole unsigned count (R86). -/
def shlBits (w a n : Nat) : Nat := if w ≤ n then 0 else a * 2 ^ n % 2 ^ w
def shrBits (w a n : Nat) : Nat := if w ≤ n then 0 else a / 2 ^ n
def sraBits (w a n : Nat) : Nat :=
  if w ≤ n then (if 2 ^ (w - 1) ≤ a then 2 ^ w - 1 else 0) else trunc w (sval w a / 2 ^ n)

/-- High half of a product (R85). -/
def mulHigh (w : Nat) (e : Int) : Nat := trunc w (e / 2 ^ w)

/-- Number of one bits among the low n bits. -/
def popcount (x : Nat) : Nat → Nat
  | 0 => 0
  | n + 1 => popcount x n + x / 2 ^ n % 2

/-- Number of zero bits above the highest one bit; the width for zero (R85). -/
def clz (w x : Nat) : Nat := if x = 0 then w else w - 1 - Nat.log2 x

/-- Bit-field extract (R86). -/
def bfx (t : Ty) (a b c : Nat) : Nat :=
  let pos := b % 256
  let len := c % 256
  if len = 0 ∨ t.bits ≤ pos then 0
  else
    let n := min (pos + len) t.bits - pos
    let f := a / 2 ^ pos % 2 ^ n
    if t.isSigned then trunc t.bits (sval n f) else f

/-- Bit-field insert (R86). -/
def bfi (t : Ty) (d a b c : Nat) : Nat :=
  let pos := b % 256
  let len := c % 256
  if len = 0 ∨ t.bits ≤ pos then d
  else
    let top := min (pos + len) t.bits
    d % 2 ^ pos + a % 2 ^ (top - pos) * 2 ^ pos + d / 2 ^ top * 2 ^ top

/-- Conditions of `icmp` (R75). -/
def intCond (cond : Nat) (a b : Int) : Bool :=
  match cond with
  | 0 => decide (a = b)
  | 1 => !decide (a = b)
  | 2 => decide (a < b)
  | 3 => decide (a ≤ b)
  | 4 => decide (b < a)
  | _ => decide (b ≤ a)

/-- Values of A, B, C under the operand type (R85). -/
def vA (w : Wave) (o : Ops) (l : Nat) : Int := tval o.ty (opA w o o.ty l)
def vB (w : Wave) (o : Ops) (l : Nat) : Int := tval o.ty (opB w o o.ty l)
def vC (w : Wave) (o : Ops) (l : Nat) : Int := tval o.ty (opC w o o.ty l)
def uA (w : Wave) (o : Ops) (l : Nat) : Nat := opA w o o.ty l
def uB (w : Wave) (o : Ops) (l : Nat) : Nat := opB w o o.ty l
def uC (w : Wave) (o : Ops) (l : Nat) : Nat := opC w o o.ty l

/-! ### Meanings -/

def execIadd (o : Ops) (s : State) : Out := aluRun (.iadd o) o o.ty (fun w l => fit o.ty o.sat (vA w o l + vB w o l)) s
def execIsub (o : Ops) (s : State) : Out := aluRun (.isub o) o o.ty (fun w l => fit o.ty o.sat (vA w o l - vB w o l)) s
def execImul (o : Ops) (s : State) : Out := aluRun (.imul o) o o.ty (fun w l => trunc o.ty.bits (vA w o l * vB w o l)) s
def execImulh (o : Ops) (s : State) : Out := aluRun (.imulh o) o o.ty (fun w l => mulHigh o.ty.bits (vA w o l * vB w o l)) s
def execIand (o : Ops) (s : State) : Out := aluRun (.iand o) o o.ty (fun w l => uA w o l &&& uB w o l) s
def execIor (o : Ops) (s : State) : Out := aluRun (.ior o) o o.ty (fun w l => uA w o l ||| uB w o l) s
def execIxor (o : Ops) (s : State) : Out := aluRun (.ixor o) o o.ty (fun w l => uA w o l ^^^ uB w o l) s
def execIshl (o : Ops) (s : State) : Out := aluRun (.ishl o) o o.ty (fun w l => shlBits o.ty.bits (uA w o l) (uB w o l)) s
def execIshr (o : Ops) (s : State) : Out := aluRun (.ishr o) o o.ty (fun w l => shrBits o.ty.bits (uA w o l) (uB w o l)) s
def execIsra (o : Ops) (s : State) : Out := aluRun (.isra o) o o.ty (fun w l => sraBits o.ty.bits (uA w o l) (uB w o l)) s
def execImin (o : Ops) (s : State) : Out := aluRun (.imin o) o o.ty (fun w l => trunc o.ty.bits (min (vA w o l) (vB w o l))) s
def execImax (o : Ops) (s : State) : Out := aluRun (.imax o) o o.ty (fun w l => trunc o.ty.bits (max (vA w o l) (vB w o l))) s
def execInot (o : Ops) (s : State) : Out := aluRun (.inot o) o o.ty (fun w l => 2 ^ o.ty.bits - 1 - uA w o l) s
def execIabs (o : Ops) (s : State) : Out := aluRun (.iabs o) o o.ty (fun w l => fit o.ty o.sat ((vA w o l).natAbs : Int)) s
def execIpopc (o : Ops) (s : State) : Out := aluRun (.ipopc o) o o.ty (fun w l => popcount (uA w o l) o.ty.bits) s
def execIclz (o : Ops) (s : State) : Out := aluRun (.iclz o) o o.ty (fun w l => clz o.ty.bits (uA w o l)) s
def execImad (o : Ops) (s : State) : Out :=
  aluRun (.imad o) o o.ty (fun w l => trunc o.ty.bits (vA w o l * vB w o l + vC w o l)) s
def execIbfx (o : Ops) (s : State) : Out := aluRun (.ibfx o) o o.ty (fun w l => bfx o.ty (uA w o l) (uB w o l) (uC w o l)) s
/-- `ibfi`; where d is to stay unchanged, a 32-bit drill form writes its low half back zero-extended (R82, R86; log 93). -/
def execIbfi (o : Ops) (s : State) : Out :=
  aluRun (.ibfi o) o o.ty (fun w l => bfi o.ty (opD w o o.ty l) (uA w o l) (uB w o l) (uC w o l)) s
/-- `isel`: selector k or q in C (R87). -/
def execIsel (o : Ops) (s : State) : Out :=
  aluRun (.isel o) o o.ty (fun w l => if opPred w o o.c l then uA w o l else uB w o l) s
def execIcmp (o : Ops) (s : State) : Out := predRun (.icmp o) o (fun w l => (intCond o.x (vA w o l) (vB w o l), 0)) s

end Sys2Proof.Machine
end

