-- ==== Sys2Proof/Machine/Flags.lean ====
section
/-!
DEFINITION. Floating-point control of a wave: %fpmode as an environment per format (R88), the rounding mode RND selects (R64), and
the lane operations of R90 on operand types.
-/
namespace Sys2Proof.Machine

/-- Rounding in force (R64, R88). -/
def rmOf (w : Wave) : Rnd → Rnd
  | .dyn => match field w.fpmode.toNat 1 0 with | 0 => .rn | 1 => .rz | 2 => .ru | _ => .rd
  | r => r

/-- DAZ and FTZ of a type: binary16 only with FTZH (R88). -/
def subCtl (w : Wave) (t : Ty) (bit : Nat) : Bool := w.fpmode.getLsbD bit && (!(t == .f16) || w.fpmode.getLsbD 4)
def fpEnv (w : Wave) (t : Ty) (r : Rnd) : FEnv := { rm := rmOf w r, daz := subCtl w t 2, ftz := subCtl w t 3 }

/-- Result and flags of an exact operation on operands of a type (R90). -/
def fOp (w : Wave) (t : Ty) (r : Rnd) (sat : Bool) (xs : List Nat) (f : Rnd → List FV → Ex) : Nat × Nat :=
  fRun (fmtOfTy t) (fpEnv w t r) sat xs (f (rmOf w r))

def fArg (vs : List FV) (n : Nat) : FV := vs.getD n .nan

/-- Sum, difference, product, fused product and sum as exact operations (R92). -/
def fnAdd (rm : Rnd) (v : List FV) : Ex := exAdd rm (fArg v 0) (fArg v 1)
def fnSub (rm : Rnd) (v : List FV) : Ex := exAdd rm (fArg v 0) (fArg v 1).negate
def fnMul (_ : Rnd) (v : List FV) : Ex := exMul (fArg v 0) (fArg v 1)
def fnFma (rm : Rnd) (v : List FV) : Ex := exFma rm (fArg v 0) (fArg v 1) (fArg v 2)
def fnDiv (_ : Rnd) (v : List FV) : Ex := exDiv (fArg v 0) (fArg v 1)

/-- Flags without underflow, or without inexactness and underflow (R92, R93). -/
def dropUF (fl : Nat) : Nat := fl &&& (63 - flUF)
def dropNXUF (fl : Nat) : Nat := fl &&& (63 - flUF - flNX)

/-- The functions of R93: nearest even whatever RM holds; UF only from FTZ. -/
def fOp93 (w : Wave) (x : Nat) (f : FV → Ex) : Nat × Nat :=
  let env := { fpEnv w .f32 .rn with rm := .rn }
  let plain := fRun fmtF32 { env with ftz := false } false [x] (fun v => f (fArg v 0))
  let full := fRun fmtF32 env false [x] (fun v => f (fArg v 0))
  if full.1 = plain.1 then (plain.1, dropUF plain.2) else full

/-- Two halves of a packed binary16 pair (R95). -/
def lo16 (x : Nat) : Nat := x % 2 ^ 16
def hi16 (x : Nat) : Nat := x / 2 ^ 16 % 2 ^ 16
def packed (lo hi : Nat × Nat) : Nat × Nat := (lo.1 + 2 ^ 16 * hi.1, lo.2 ||| hi.2)

end Sys2Proof.Machine
end

