-- ==== Sys2Proof/Machine/FloatOps.lean ====
section
/-!
DEFINITION. Floating-point instructions (R90 to R97): every lane operation of `fadd` to `unpack`.
-/
namespace Sys2Proof.Machine

/-! ### Shared lane operations -/

/-- One, two and three operand instructions under R90. -/
def flt1 (i : Instr) (o : Ops) (f : Rnd → List FV → Ex) (s : State) : Out :=
  fltRun i o o.ty (fun w l => fOp w o.ty o.rnd o.sat [opA w o o.ty l] f) s
def flt2 (i : Instr) (o : Ops) (f : Rnd → List FV → Ex) (s : State) : Out :=
  fltRun i o o.ty (fun w l => fOp w o.ty o.rnd o.sat [opA w o o.ty l, opB w o o.ty l] f) s
def flt3 (i : Instr) (o : Ops) (f : Rnd → List FV → Ex) (s : State) : Out :=
  fltRun i o o.ty (fun w l => fOp w o.ty o.rnd o.sat [opA w o o.ty l, opB w o o.ty l, opC w o o.ty l] f) s

/-- A packed pair of binary16 operations (R95); a literal supplies both halves. -/
def pair16 (w : Wave) (o : Ops) (xs : List Nat) (f : Rnd → List FV → Ex) : Nat × Nat :=
  packed (fOp w .f16 o.rnd o.sat (xs.map lo16) f) (fOp w .f16 o.rnd o.sat (xs.map hi16) f)

/-! ### Arithmetic (R92, R93) -/

def execFadd (o : Ops) (s : State) : Out := flt2 (.fadd o) o fnAdd s
def execFsub (o : Ops) (s : State) : Out := flt2 (.fsub o) o fnSub s
def execFmul (o : Ops) (s : State) : Out := flt2 (.fmul o) o fnMul s
def execFfma (o : Ops) (s : State) : Out := flt3 (.ffma o) o fnFma s
def execFdiv (o : Ops) (s : State) : Out := flt2 (.fdiv o) o fnDiv s
def execFsqrt (o : Ops) (s : State) : Out := flt1 (.fsqrt o) o (fun _ v => exSqrt (fArg v 0)) s
def execFexp2 (o : Ops) (s : State) : Out := flt1 (.fexp2 o) o (fun _ v => exExp2 (fArg v 0)) s
def execFlog2 (o : Ops) (s : State) : Out := flt1 (.flog2 o) o (fun _ v => exLog2 (fArg v 0)) s
def execFmin (o : Ops) (s : State) : Out :=
  fltRun (.fmin o) o o.ty (fun w l => fMinMax (fmtOfTy o.ty) (fpEnv w o.ty o.rnd) false (opA w o o.ty l) (opB w o o.ty l)) s
def execFmax (o : Ops) (s : State) : Out :=
  fltRun (.fmax o) o o.ty (fun w l => fMinMax (fmtOfTy o.ty) (fpEnv w o.ty o.rnd) true (opA w o o.ty l) (opB w o o.ty l)) s
def execFrcp (o : Ops) (s : State) : Out := fltRun (.frcp o) o .f32 (fun w l => fOp93 w (opA w o .f32 l) exRcp) s
def execFrsq (o : Ops) (s : State) : Out := fltRun (.frsq o) o .f32 (fun w l => fOp93 w (opA w o .f32 l) exRsq) s
def execFsin (o : Ops) (s : State) : Out := fltRun (.fsin o) o .f32 (fun w l => fOp93 w (opA w o .f32 l) exSin) s
def execFcos (o : Ops) (s : State) : Out := fltRun (.fcos o) o .f32 (fun w l => fOp93 w (opA w o .f32 l) exCos) s
/-- `frnd` never raises NX or UF (R92). -/
def execFrnd (o : Ops) (s : State) : Out :=
  fltRun (.frnd o) o o.ty (fun w l =>
    let r := fOp w o.ty o.rnd false [opA w o o.ty l] (fun rm v => exRint rm (fArg v 0))
    (r.1, dropNXUF r.2)) s
def execFclass (o : Ops) (s : State) : Out :=
  fltRun (.fclass o) o o.ty (fun w l => (fClassMask (fmtOfTy o.ty) (opA w o o.ty l), 0)) s
def execFcmp (o : Ops) (s : State) : Out :=
  predRun (.fcmp o) o (fun w l => fCompare (fmtOfTy o.ty) (fpEnv w o.ty o.rnd) o.x (opA w o o.ty l) (opB w o o.ty l)) s

/-! ### Packed binary16 (R95) -/

def execHadd2 (o : Ops) (s : State) : Out :=
  fltRun (.hadd2 o) o .b32 (fun w l => pair16 w o [opA w o .b32 l, opB w o .b32 l] fnAdd) s
def execHmul2 (o : Ops) (s : State) : Out :=
  fltRun (.hmul2 o) o .b32 (fun w l => pair16 w o [opA w o .b32 l, opB w o .b32 l] fnMul) s
def execHfma2 (o : Ops) (s : State) : Out :=
  fltRun (.hfma2 o) o .b32 (fun w l => pair16 w o [opA w o .b32 l, opB w o .b32 l, opC w o .b32 l] fnFma) s

/-! ### Conversion (R96, R97) -/

/-- One value from type S to type D (R96); a widening takes no heed of SAT (log 43). -/
def convert (w : Wave) (src dst : Ty) (rnd : Rnd) (sat : Bool) (x : Nat) : Nat × Nat :=
  match src.isFloat, dst.isFloat with
  | true, true =>
    let env := fpEnv w dst rnd
    fConvert (fmtOfTy src) (fmtOfTy dst) (fpEnv w src rnd) { env with ftz := env.ftz && !(dst == .f32) } x
  | false, true => fOfInt (fmtOfTy dst) (rmOf w rnd) (tval src x)
  | true, false =>
    let r := fToInt (fmtOfTy src) (fpEnv w src rnd) (tLo dst) (tHi dst) x
    (trunc dst.bits r.1, r.2)
  | false, false => (fit dst (sat && decide (dst.bits ≤ src.bits)) (tval src x), 0)

def execCvt (o : Ops) (s : State) : Out :=
  fltRun (.cvt o) o o.ty (fun w l => convert w (cvtSrc o) o.ty o.rnd o.sat (opA w o (cvtSrc o) l)) s

/-- Modes of `pack` (R97) on one 32-bit source. -/
def packHalf (w : Wave) (o : Ops) (x : Nat) : Nat × Nat :=
  match o.x with
  | 0 => convert w .f32 .f16 o.rnd false x
  | 1 => convert w .f32 .bf16 o.rnd false x
  | 2 => (x % 2 ^ 16, 0)
  | 3 => (satTo .i16 (sval 32 x), 0)
  | _ => (satTo .n16 x, 0)
def execPack (o : Ops) (s : State) : Out :=
  fltRun (.pack o) o .b32 (fun w l => packed (packHalf w o (opA w o .b32 l)) (packHalf w o (opB w o .b32 l))) s

/-- Modes of `unpack` (R97). -/
def unpackVal (w : Wave) (m x : Nat) : Nat × Nat :=
  let h := if m % 2 = 0 then lo16 x else hi16 x
  match m / 2 with
  | 0 => convert w .f16 .f32 .dyn false h
  | 1 => convert w .bf16 .f32 .dyn false h
  | 2 => (trunc 32 (sval 16 h), 0)
  | _ => (h, 0)
def execUnpack (o : Ops) (s : State) : Out := fltRun (.unpack o) o .b32 (fun w l => unpackVal w o.x (opA w o .b32 l)) s

end Sys2Proof.Machine
end

