-- ==== Sys2Proof/Machine/Lanes.lean ====
section
/-!
DEFINITION. Cross-lane instructions (R100 to R102): sources are read over the whole gang before anything is written.
-/
namespace Sys2Proof.Machine

/-- X[6], DS: the result goes to an s-register (R100). -/
def laneDs (o : Ops) : Bool := bitAt o.x 6

/-- One result for all active lanes, or for s[d] zero-extended (R100, R101). -/
def writeLane (o : Ops) (t : Ty) (f : Nat → Nat) (w : Wave) (ls : List Nat) : Wave :=
  if laneDs o then wrS w o.d (BitVec.ofNat 64 (f (ls.headD 0))) else ls.foldl (fun x l => wrVec x t l o.d (f l)) w

/-- Lane j of a `shfl` in a lane (R101). -/
def shflSource (mode : Nat) (lane : Nat) (b : Int) : Int :=
  match mode with
  | 0 => b
  | 1 => lane - b
  | 2 => lane + b
  | _ => ((BitVec.ofNat 32 lane ^^^ BitVec.ofInt 32 b).toInt)

/-- Whether a lane number is a source: a lane of the issuing gang (R101). -/
def lanePresent (w : Wave) (j : Int) : Bool := decide (0 ≤ j) && (runLanes w).contains j.toNat

/-- `shfl` value in a lane, and whether the source is present. -/
def shflVal (w : Wave) (o : Ops) (lane : Nat) : Nat × Bool :=
  let j := shflSource (o.x % 4) lane (sval 32 (opB w o .b32 lane))
  if lanePresent w j then (rdVec w o.ty j.toNat o.a, true) else (opC w o o.ty lane, false)

def execShfl (o : Ops) (s : State) : Out :=
  runInstr (.shfl o) s (fun s w ls =>
    let w1 := writeLane o o.ty (fun l => (shflVal w o l).1) w ls
    let pk := o.x / 8 % 8
    finish s (if pk = 0 then w1 else ls.foldl (fun x l => wrK x pk l (shflVal w o l).2) w1))

/-- `vote` over the active lanes (R101). -/
def voteVal (w : Wave) (o : Ops) (ls : List Nat) : Nat :=
  match o.x % 4 with
  | 0 => if ls.all (fun l => rdK w o.a l) then 1 else 0
  | 1 => if ls.any (fun l => rdK w o.a l) then 1 else 0
  | 2 => (laneMask (ls.filter (fun l => rdK w o.a l))).toNat
  | _ => if ls.all (fun l => rdV w l o.a == rdV w (ls.headD 0) o.a) then 1 else 0

def execVote (o : Ops) (s : State) : Out :=
  runInstr (.vote o) s (fun s w ls => finish s (writeLane o .b32 (fun _ => voteVal w o ls) w ls))

/-- One combining operation of a reduction, with its flags (R75, R102). -/
def redOp (w : Wave) (t : Ty) (rnd : Rnd) (op : Nat) (a b : Nat) : Nat × Nat :=
  match op with
  | 0 => (trunc t.bits ((a : Int) + b), 0)
  | 1 => (trunc t.bits (min (tval t a) (tval t b)), 0)
  | 2 => (trunc t.bits (max (tval t a) (tval t b)), 0)
  | 3 => (a &&& b, 0)
  | 4 => (a ||| b, 0)
  | 5 => (a ^^^ b, 0)
  | 8 => fOp w .f32 rnd false [a, b] fnAdd
  | 9 => fMinMax fmtF32 (fpEnv w .f32 .dyn) false a b
  | _ => fMinMax fmtF32 (fpEnv w .f32 .dyn) true a b

/-- Reduction in ascending lane order; the fallback when no lane contributes (R101, R102). -/
def reduce (w : Wave) (o : Ops) (fallback : Nat) (ls : List Nat) : Nat × Nat :=
  match ls.map (fun l => rdVec w o.ty l o.a) with
  | [] => (fallback, 0)
  | x :: xs => xs.foldl (fun p y => ((redOp w o.ty o.rnd (o.x % 16) p.1 y).1, p.2 ||| (redOp w o.ty o.rnd (o.x % 16) p.1 y).2)) (x, 0)

/-- `gred`; without an active lane the result is c of the gang's lowest lane (R101; log 92). -/
def execGred (o : Ops) (s : State) : Out :=
  runInstr (.gred o) s (fun s w ls =>
    let r := reduce w o (opC w o o.ty (ls.headD ((runLanes w).headD 0))) ls
    finish s (orFlags (writeLane o o.ty (fun _ => r.1) w ls) r.2))

/-- Lanes before a lane, itself included unless the scan is exclusive (R101). -/
def scanLanes (o : Ops) (ls : List Nat) (lane : Nat) : List Nat :=
  ls.filter (fun l => if bitAt o.x 4 then decide (l < lane) else decide (l ≤ lane))

def execGscan (o : Ops) (s : State) : Out :=
  runInstr (.gscan o) s (fun s w ls => finish s
    (writeD o o.ty (fun l => reduce w o (opC w o o.ty l) (scanLanes o ls l)) w ls))

end Sys2Proof.Machine
end

