-- ==== Sys2Proof/Machine/Device.lean ====
section
/-!
DEFINITION. Device space: the host interface's registers (R397, R415), the event ring (R402), and access to them by offset.
-/
namespace Sys2Proof.Machine

/-- Take fresh numbers for the opaque constants: the k-th of this step (log 7). -/
def flipAt (s : State) (k : Nat) : Bool := Config.flip (64 * s.draws + k)

def updRegs (s : State) (f : Regs → Regs) : State := { s with regs := f s.regs }

/-! ### Events (R402) -/

/-- Room for one more event in the ring. -/
def eventRoom (r : Regs) : Bool := decide ((r.evtail - r.evhead).toNat < 2 ^ r.evlog)

/-- One event's 32 bytes go to the ring; EVTAIL advances. -/
def writeEvent (s : State) (ws : List W32) : State :=
  let r := s.regs
  let at_ := r.evbase.toNat + 32 * (r.evtail.toNat % 2 ^ r.evlog)
  { s with
    hostMem := memPut s.hostMem at_ (ws.flatMap (fun w => leBytes 4 w.toNat))
    regs := { r with evtail := r.evtail + 1 } }

/-- Waiting events that fit are written in order; the rest go on waiting. -/
def pumpEvents (s : State) : List (List W32) → State
  | [] => { s with regs := { s.regs with events := [] } }
  | e :: es => if eventRoom s.regs then pumpEvents (writeEvent s e) es else { s with regs := { s.regs with events := e :: es } }

/-- A host event: words 0 to 6, then the kind. It waits behind those that found the ring full. -/
def postEvent (s : State) (kind : Nat) (ws : List Nat) : State :=
  let e := (List.range 7).map (fun i => BitVec.ofNat 32 (ws.getD i 0)) ++ [BitVec.ofNat 32 kind]
  if s.regs.events.isEmpty && eventRoom s.regs then writeEvent s e
  else { s with regs := { s.regs with events := s.regs.events ++ [e] } }

/-! ### Registers -/

/-- Features that are defined (R403). -/
def featMask : W64 := 0xF

/-- BOOTST (R415). -/
def bootst (r : Regs) : W64 :=
  BitVec.ofNat 64 ((if r.req then 1 else 0) + (if r.go then 2 else 0) + (if r.ok then 4 else 0) + (if r.rej then 8 else 0) +
    2 ^ 8 * r.why)

/-- Reads of the registers of R397 and R415, a write-only one as zero (R6); `none` where no register stands. -/
def regRead (r : Regs) (off : Nat) : Option W64 :=
  match off with
  | 0x000 => some (r.fcap0 &&& featMask)
  | 0x008 => some 0
  | 0x010 => some r.facc0
  | 0x018 => some r.facc1
  | 0x020 => some (if r.flock then 1 else 0)
  | 0x040 => some r.crbase
  | 0x048 => some (BitVec.ofNat 64 r.crlog)
  | 0x050 => some 0
  | 0x058 => some (r.crhead.zeroExtend 64)
  | 0x060 => some r.evbase
  | 0x068 => some (BitVec.ofNat 64 r.evlog)
  | 0x070 => some r.evtail
  | 0x078 => some r.evhead
  | 0x080 => some r.savemax
  | 0x100 => some (bootst r)
  | 0x108 => some r.bootlen
  | 0x110 => some r.bootoff
  | _ => none

/-- Whether the ring registers may be written: CRHEAD = NOTIFY (R397). -/
def ringIdle (r : Regs) : Bool := r.crhead == r.notify

/-- FLOCK := 1: FACC takes what is offered and asked for; not before an image is accepted (R403, R413). -/
def lockFeatures (r : Regs) : Regs :=
  if r.flock || !r.booted then r
  else { r with flock := true, facc0 := r.facc0 &&& r.fcap0 &&& featMask, facc1 := 0 }

/-- A write to NOTIFY (R400): out of range it is ignored with an event; any value starts a stale command again. -/
def writeNotify (s : State) (v : W32) : State :=
  let r := { s.regs with stale := false, reads := if s.regs.stale then 0 else s.regs.reads }
  if 2 ^ r.crlog < (v - r.crhead).toNat then
    postEvent { s with regs := r } 0x11 [r.crhead.toNat, 0, 0, 0xFFFFFFFF]
  else { s with regs := { r with notify := v } }

/-- A write to EVHEAD counts when it lies between EVHEAD and EVTAIL (R397). -/
def writeEvhead (r : Regs) (v : W64) : Regs :=
  if (v - r.evhead).toNat ≤ (r.evtail - r.evhead).toNat then { r with evhead := v } else r

/-- An 8-byte write to a register (R397, R415); ones written to reserved bits are ignored (R6). -/
def regWrite (s : State) (off : Nat) (v : W64) : State :=
  let r := s.regs
  match off with
  | 0x010 => if r.flock then s else { s with regs := { r with facc0 := v &&& featMask } }
  | 0x018 => if r.flock then s else { s with regs := { r with facc1 := 0 } }
  | 0x020 => if v.getLsbD 0 then { s with regs := lockFeatures r } else s
  | 0x040 => if ringIdle r && v.toNat % 4096 == 0 && isMain v.toNat then { s with regs := { r with crbase := v } } else s
  | 0x048 => if ringIdle r && decide (4 ≤ v.toNat % 32 ∧ v.toNat % 32 ≤ 16) then { s with regs := { r with crlog := v.toNat % 32 } } else s
  | 0x050 => writeNotify s (v.truncate 32)
  | 0x060 => if ringIdle r && v.toNat % 4096 == 0 then { s with regs := { r with evbase := v } } else s
  | 0x068 => if ringIdle r && decide (4 ≤ v.toNat % 32 ∧ v.toNat % 32 ≤ 20) then { s with regs := { r with evlog := v.toNat % 32 } } else s
  | 0x078 => { s with regs := writeEvhead r v }
  | 0x100 => if v.getLsbD 1 then { s with regs := { r with go := true } } else s
  | 0x108 => if r.go then s else { s with regs := { r with bootlen := v } }
  | 0x110 => if r.go then s else { s with regs := { r with bootoff := v &&& 0xF } }
  | _ => s

/-- Bytes written to BOOTWIN: the chunk BOOTOFF selects (R415). -/
def bootWinWrite (s : State) (off : Nat) (bs : List Byte) : State :=
  let r := s.regs
  if r.go then s
  else { s with regs := { r with bootwin := memPut r.bootwin (r.bootoff.toNat * 2 ^ 20 + (off - 0x100000)) bs } }

/-- A read of device space (R167, R397): the register's 8 bytes, zero where no register stands and from the write-only BOOTWIN; a
register read in another size than its 8 bytes gives free ones (log 17). -/
def devRead (s : State) (pa n : Nat) : List Byte :=
  let off := pa - devBase
  if n = 8 then leBytes 8 ((regRead s.regs off).getD 0).toNat
  else if (regRead s.regs (8 * (off / 8))).isSome then
    leBytes n ((Config.word (64 * s.draws)).toNat + 2 ^ 32 * (Config.word (64 * s.draws + 1)).toNat)
  else leBytes n 0

/-- A write to device space: 8 bytes to a register, any bytes to BOOTWIN; nothing else is there (log 17). -/
def devWrite (s : State) (pa : Nat) (bs : List Byte) : State :=
  let off := pa - devBase
  if 0x100000 ≤ off ∧ off < 0x200000 then bootWinWrite s off bs
  else if bs.length = 8 then regWrite s off (BitVec.ofNat 64 (leNat bs))
  else s

end Sys2Proof.Machine
end

