-- ==== Sys2Proof/Machine/Cache.lean ====
section
/-!
DEFINITION. The L2 slices: sets, tags and sector slots (R177), compression (R178), accesses and evictions (R179, R180), and the
replicas of lines that leave an L1 (R181). A home line's bytes are the memory's own; a replica keeps its own.
-/
namespace Sys2Proof.Machine

/-- An access that allocates nothing, such as one that no page describes. -/
def pageDirect : Page := { pageNormal with cl := 2 }

/-- Row of 1 KiB of a weight-store bank that an address lies in (log 111). -/
def weightRow (pa : Nat) : Nat := field pa 29 14

/-- A bank of the weight store is in its refresh window, or its row is being copied: reads wait (R184, R409). -/
def weightShut (s : State) (pa : Nat) : Bool :=
  inRefresh s.time (bankOf pa) || s.rowCopies.contains (homeDie pa, bankOf pa, weightRow pa)

/-- Lines that n bytes from an address touch. -/
def linesOf (pa n : Nat) : List Nat := (natsFrom (lineOf pa) ((pa + n + 255) / 256 - lineOf pa)).map (fun l => 256 * l)

/-! ### Compression (R178) -/

/-- Words of n bytes of a line. -/
def lineWords (n : Nat) (bs : List Byte) : List Nat := (List.range (256 / n)).map (fun i => leNat ((bs.drop (i * n)).take n))

/-- Every n-byte word differs from the first by a two's complement number of k bytes. -/
def deltasFit (n k : Nat) (bs : List Byte) : Bool :=
  let ws := lineWords n bs
  ws.all (fun w =>
    let d := (w + 2 ^ (8 * n) - ws.headD 0) % 2 ^ (8 * n)
    decide (d < 2 ^ (8 * k - 1)) || decide (2 ^ (8 * n) - 2 ^ (8 * k - 1) ≤ d))

/-- Scheme of a line's 256 bytes: the first form, in the order of the table, that holds it. -/
def schemeOf (bs : List Byte) : Nat :=
  if bs.all (fun b => b == 0) then 1
  else if deltasFit 8 1 bs then 2
  else if deltasFit 4 1 bs then 3
  else if deltasFit 8 2 bs then 4
  else 0

/-- Bytes and sector slots of a form. -/
def storedBytes (scheme : Nat) : Nat := match scheme with | 1 => 0 | 2 => 40 | 3 => 68 | 4 => 72 | _ => 256
def formSlots (scheme : Nat) : Nat := (storedBytes scheme + 31) / 32

/-- Slots of a line (R177): of its compressed form, at its home with all 8 sectors valid, else one for each valid sector. -/
def entSlots (m : Mem) (e : L2Ent) : Nat :=
  if e.rep.isNone && e.cmp && e.sectors.length == 8 then formSlots (schemeOf (memBytes m (256 * e.line) 256)) else e.sectors.length

/-! ### Sets (R177, R179) -/

/-- Ways of a slice out of service, and the number still in service (R409). -/
def waysOut (s : State) (die slice : Nat) : List Nat :=
  s.retired.filterMap (fun u => match u with | .l2way d l w => if d == die && l == slice then some w else none | _ => none)
def waysLeft (s : State) (die slice : Nat) : Nat := 24 - (waysOut s die slice).length

/-- Lines that stand in the set of a line. -/
def sameSet (line : Nat) (e : L2Ent) : Bool := Config.l2Set e.line % 1024 == Config.l2Set line % 1024

/-- Whether some lines take more tags, or more slots, than a set of the slice has. -/
def overFull (s : State) (q : Nat) (es : List L2Ent) : Bool :=
  decide (waysLeft s (q / 32) (q % 32) < es.length) || decide (4 * waysLeft s (q / 32) (q % 32) < (es.map (entSlots s.mem)).sum)

/-- Whether the set of a line holds too much. A slice whose lines would fit one set needs no look at the set. -/
def setOver (s : State) (q line : Nat) (es : List L2Ent) : Bool := overFull s q es && overFull s q (es.filter (sameSet line))

/-- Rank of a line for eviction: replicas first, then ascending EVP. -/
def evictRank (e : L2Ent) : Nat := match e.rep with | some _ => 0 | none => e.evp + 1

/-- Line of a set that leaves next: of the lowest rank the least recently used, never a line that is kept. -/
def evictNext (keep : L2Ent → Bool) (line : Nat) (es : List L2Ent) : Option L2Ent :=
  (es.filter (fun e => sameSet line e && !keep e)).foldl (fun b e => match b with
    | some x => if evictRank e ≤ evictRank x then some e else some x
    | none => some e) none

/-- Lines that stay once the set of a line has room; a dirty one is in its storage as it leaves. -/
def evict (s : State) (q line : Nat) : Nat → List L2Ent → List L2Ent
  | 0, es => es
  | n + 1, es =>
    if setOver s q line es then (match evictNext (fun e => e.line == line) line es with | some v => evict s q line n (es.erase v) | none => es) else es

/-- The same of a set as it stands, with no access that a line is for. -/
def evictSet (s : State) (q line : Nat) : Nat → List L2Ent → List L2Ent
  | 0, es => es
  | n + 1, es =>
    if setOver s q line es then (match evictNext (fun _ => false) line es with | some v => evictSet s q line n (es.erase v) | none => es) else es

/-- Tag a line takes: the lowest one of the slice that is in service and that no line of its set has. -/
def freeWay (s : State) (q line : Nat) (es : List L2Ent) : Nat :=
  ((List.range 24).find? (fun w => !(waysOut s (q / 32) (q % 32)).contains w && !es.any (fun e => sameSet line e && e.way == w))).getD 0

/-- Put a line in front; room is made for it (R179). -/
def l2Put (s : State) (q : Nat) (e : L2Ent) : State :=
  let x := quadAt s q
  let es := e :: x.l2.filter (fun y => !(y.line == e.line))
  let r := evict s q e.line es.length es
  putQuad s q { x with l2 := match r with
    | y :: t => { y with way := match x.l2.find? (fun z => z.line == e.line) with | some z => z.way | none => freeWay s q e.line t } :: t
    | [] => [] }

/-- Sectors of a line that n bytes from an address touch. -/
def sectorsIn (line pa n : Nat) : List Nat :=
  (List.range 8).filter (fun k => decide (pa < line + 32 * k + 32) && decide (line + 32 * k < pa + n))

/-- Whether an access takes no sector slots: an uncached or a streaming one (R179). -/
def passes (pg : Page) : Bool := pg.cl == 2 || pg.wp == 2

/-- An access at a line's home slice (R179): a present line is updated and most recently used; what is absent is allocated unless the
access is uncached or streaming. A write to sectors that the slice holds leaves the line dirty, or clean under write-through. -/
def l2Line (s : State) (pg : Page) (write : Bool) (pa n line : Nat) : State :=
  let q := homeQuad line
  let secs := sectorsIn line pa n
  match (quadAt s q).l2.find? (fun e => e.line == lineOf line) with
  | some e => l2Put s q { e with
      evp := if pg.cl == 2 then e.evp else pg.evp
      cmp := if pg.cl == 2 then e.cmp else pg.cmp
      sectors := if passes pg then e.sectors else unionNat e.sectors secs
      dirty := if write && (!passes pg || secs.any (fun k => e.sectors.contains k)) then !(pg.wp == 1) else e.dirty }
  | none =>
    if passes pg then s
    else l2Put s q { line := lineOf line, way := 0, evp := pg.evp, cmp := pg.cmp, sectors := secs, dirty := write && pg.wp == 0,
                     rep := none }

/-- A slice has been accessed: flits have come and gone at its station (R391). -/
def touchSlice (s : State) (q : Nat) : State := putQuad s q { quadAt s q with flit := s.time }

/-- An access to n bytes at their home slices; other packages' slices and device registers are not here. -/
def l2Access (s : State) (pg : Page) (write : Bool) (pa n : Nat) : State :=
  if isMain pa || isWeight pa then (linesOf pa n).foldl (fun st l => l2Line (touchSlice st (homeQuad l)) pg write pa n l) s else s

/-- Whether a sector is present in its home slice. -/
def l2Has (s : State) (pa : Nat) : Bool :=
  (quadAt s (homeQuad pa)).l2.any (fun e => e.line == lineOf pa && e.rep.isNone && e.sectors.contains (pa / 32 % 8))

/-- The lines of a way that retires leave; of every set that then holds more than its slots, others leave too, in the order of R179, with no
line that the room is for (R409). -/
def dropWay (s : State) (q way : Nat) : State :=
  let x := quadAt s q
  let es := x.l2.filter (fun e => !(e.way == way))
  putQuad s q { x with l2 := (es.map (fun e => e.line)).foldl (fun r line => evictSet s q line r.length r) es }

/-! ### Replicas (R181) -/

/-- A valid sector among cached lines. -/
def lineSector (ls : List Line) (pa : Nat) : Option (List Byte) :=
  (ls.find? (fun l => l.line == lineOf pa)).bind (fun l => (l.sectors.find? (fun x => x.1 == pa / 32 % 8)).map (fun x => x.2))

/-- Whether a sector among cached lines is poisoned (R404). -/
def lineBad (ls : List Line) (pa : Nat) : Bool := ls.any (fun l => l.line == lineOf pa && l.bad.contains (pa / 32 % 8))

/-- A current replica's sector. -/
def repSector (q : Quad) (pa : Nat) : Option (List Byte) :=
  (q.l2.find? (fun e => e.line == lineOf pa)).bind (fun e => e.rep.bind (fun r => if r.1 == q.gen then lineSector [r.2] pa else none))

/-- Whether a replica's sector is poisoned (R404). -/
def repBad (q : Quad) (pa : Nat) : Bool := q.l2.any (fun e => match e.rep with | some r => r.1 == q.gen && lineBad [r.2] pa | none => false)

/-- Cycle of a quad's island. -/
def quadCycle (s : State) (q : Nat) : Nat := islandCycles (islandAt s q) s.time

/-- Whether a core shows bytes of a sector that the home does not have yet. -/
def showsOwn (s : State) (die core sec : Nat) : Bool :=
  s.flights.any (fun f => f.vis.isSome && f.who.die == die && f.who.core == core &&
    (match f.act with
     | .store n xs => xs.any (fun x => match x.1.loc with | .mem p => p / 32 == sec || (p + n - 1) / 32 == sec | .pad _ _ => false)
     | _ => false)) ||
  (coreAt s die core).relb.any (fun e => e.pa / 32 == sec)

/-- Number of a sector of a line. -/
def sectorNo (line k : Nat) : Nat := 8 * line + k

/-- A line with the sectors that a test on their numbers picks. -/
def keepSectors (p : Nat → Bool) (l : Line) : Line :=
  { l with sectors := l.sectors.filter (fun x => p (sectorNo l.line x.1)), bad := l.bad.filter (fun k => p (sectorNo l.line k)) }

/-- A line that leaves an L1 becomes a replica of the local quad when its home is elsewhere and its room costs no line of priority above
0. A store of the quad to it in this cycle wins (R180). Sectors older than what the quad has stored, acquired or read are left out, and those
of which the core shows a store that the home has not seen (R181, R214, R220; log 9). -/
def makeReplica (s : State) (die core : Nat) (l0 : Line) : State :=
  let q := quadOf die core
  let x := quadAt s q
  let l := keepSectors (fun k => !(coreAt s die core).l1old.contains k && !showsOwn s die core k) l0
  let e : L2Ent := { line := l.line, way := 0, evp := 0, cmp := false, sectors := l.sectors.map (fun y => y.1), dirty := false,
                     rep := some (x.gen, l) }
  let es := e :: x.l2.filter (fun y => !(y.line == l.line))
  let r := evict s q l.line es.length es
  if homeQuad (256 * l.line) == q || l.sectors.isEmpty ||
     x.stored.contains (l.line, quadCycle s q) || setOver s q l.line r || es.any (fun y => decide (1 < evictRank y) && !r.contains y)
  then s
  else l2Put s q e

/-- Sectors of a line in the L1s of a quad, other than one core's, that a test on their place and bytes picks become no replica: they may be
older than what the quad has read or written. -/
def markOld (s : State) (die core line : Nat) (p : Nat → List Byte → Bool) : State :=
  { s with
    cores := s.cores.map (fun k =>
      if k.1 / 4 == coreKey die core / 4 && !(k.1 == coreKey die core) then
        (match k.2.l1.find? (fun l => l.line == line) with
         | some l => (k.1, { k.2 with l1old := unionNat k.2.l1old ((l.sectors.filter (fun x => p x.1 x.2)).map (fun x => sectorNo line x.1)) })
         | none => k)
      else k) }

/-- A core has read a sector at its home: copies of it in the quad's other L1s that hold other bytes become no replica, and a replica's sector
with other bytes leaves, so that no wave of the quad goes back behind what it has read (R214; log 9). -/
def homeSeen (s : State) (die core pa : Nat) : State :=
  let q := quadOf die core
  let x := quadAt s q
  let now := memBytes s.mem (32 * (pa / 32)) 32
  let other (k : Nat) (bs : List Byte) : Bool := k == pa / 32 % 8 && !(bs == now)
  let stale (e : L2Ent) : Bool := e.line == lineOf pa && (match e.rep with | some r => r.2.sectors.any (fun y => other y.1 y.2) | none => false)
  let without (e : L2Ent) : L2Ent :=
    { e with sectors := e.sectors.filter (fun k => !(k == pa / 32 % 8)), rep := e.rep.map (fun r => (r.1, keepSectors (fun n => !(n == pa / 32)) r.2)) }
  markOld (if x.l2.any stale then
      putQuad s q { x with l2 := (x.l2.map (fun e => if stale e then without e else e)).filter (fun e => e.rep.isNone || !e.sectors.isEmpty) }
    else s) die core (lineOf pa) other

/-- An access that writes passes the local slice (R181): the quad's replica of the line leaves, and the copies of it in the quad's other
L1s become no replica. -/
def dropReplica (s : State) (die core pa : Nat) : State :=
  let q := quadOf die core
  let x := quadAt s q
  let c := quadCycle s q
  let s1 := putQuad s q { x with
    l2 := x.l2.filter (fun e => !(e.line == lineOf pa) || e.rep.isNone)
    stored := (lineOf pa, c) :: x.stored.filter (fun p => p.2 == c) }
  markOld s1 die core (lineOf pa) (fun _ _ => true)

/-- An acquire of `.die` scope or wider of a core advances the quad's generation, and every replica goes when it passes 255 (R182). The
lines of the quad's other L1s become no replica. -/
def newGeneration (s : State) (die core : Nat) : State :=
  let q := quadOf die core
  let x := quadAt s q
  let g := (x.gen + 1) % 256
  let s1 := putQuad s q { x with gen := g, l2 := if g = 0 then x.l2.filter (fun e => e.rep.isNone) else x.l2 }
  { s1 with
    cores := s1.cores.map (fun k =>
      if k.1 / 4 == coreKey die core / 4 && !k.2.l1.isEmpty then (k.1, { k.2 with l1old := k.2.l1.flatMap (fun l => l.sectors.map (fun x => sectorNo l.line x.1)) }) else k) }

end Sys2Proof.Machine
end

