-- ==== Sys2Proof/Machine/Order.lean ====
section
/-!
DEFINITION. The memory path: where bytes are read and written (R15, R176, R181, R214, R223, R406), the order of one wave's accesses
(R48, R174, R215), acquires and releases (R217, R218), lazy release (R223, R224), forks' checks of home accesses (R133), the batches
of the tick exchange (R395), and the ends of operations.
-/
namespace Sys2Proof.Machine

/-! ### Overlap and program order -/

/-- Whether an older operation of the wave keeps these accesses waiting (R48). -/
def pathBusy (s : State) (uid before : Nat) (as : List (Acc × Nat)) : Bool :=
  s.flights.any (fun g => decide (g.id < before) && g.who.uid == uid && (actAccs g.act).any (fun x => as.any (accHit x)))

/-! ### Tick exchange -/

/-- An operation of the memory path starts. -/
def addMem (s : State) (who : Who) (cls : Option Cls) (act : Act) : State := addFlight s who cls act none

/-- Markers of a tick are there of every other package, but for those lost to the exchange (R395). -/
def tickMarked (s : State) (n : Nat) : Bool :=
  s.pod.members.all (fun p => p == s.pod.pkg || s.pod.lost.contains p || s.pod.markers.contains (p, n))

/-- Loads, stores and atomics, which wait for each other on the same bytes only. -/
def memPacket (f : Flight) : Bool := match f.act with | .load _ _ _ _ | .store _ _ | .atom _ _ _ _ _ _ => true | _ => false

/-- Whether the response of an operation is applied before that of another: of one package in send order, and of loads, stores and
atomics an earlier batch and in one batch a lower package first (R395; log 18). -/
def tickFirst (s : State) (g f : Flight) : Bool :=
  let dest (x : Flight) : Nat := (destPkg s x.who.asid x.act).getD 0
  match g.tick, f.tick with
  | some m, some n => !g.held &&
      ((decide (g.id < f.id) && decide (dest g = dest f)) ||
       (memPacket g && memPacket f && (decide (m < n) || (decide (m = n) && decide (dest g < dest f)))))
  | _, _ => false

/-- Packets of tick n are applied two ticks on, once every other package's marker for n is there, and the responses, which are sent then,
another two ticks on with the markers of their tick, batch by batch, lower packages first (R395; log 18). -/
def tickReady (s : State) (f : Flight) : Bool :=
  match f.tick with
  | none => true
  | some n => decide (n + 4 ≤ tickNow s) && tickMarked s n && tickMarked s (n + 2) && !s.flights.any (fun g => tickFirst s g f)

/-! ### Reading bytes -/

/-- The newer of two numbered bytes. -/
def newerByte (b : Option (Nat × Byte)) (v : Nat) (x : Byte) : Option (Nat × Byte) :=
  match b with
  | some (u, y) => if u ≤ v then some (v, x) else some (u, y)
  | none => some (v, x)

/-- A byte in the core's release buffer, the newest entry that covers it, with its number (R224). -/
def bufEntry (es : List RelEnt) (pa : Nat) : Option (Nat × Byte) :=
  es.foldl (fun b e => if e.pa ≤ pa ∧ pa < e.pa + e.size then newerByte b e.fid (BitVec.ofNat 8 (e.val / 2 ^ (8 * (pa - e.pa)))) else b) none
def bufByte (es : List RelEnt) (pa : Nat) : Option Byte := (bufEntry es pa).map (fun x => x.2)

/-- A byte of a store that the core's L1 shows and the home does not have yet, the newest one (R176, R214; log 32). -/
def seenByte (fs : List Flight) (die core pa : Nat) : Option (Nat × Byte) :=
  fs.foldl (fun b f =>
    match f.vis, f.act with
    | some v, .store n xs =>
      if f.who.die == die && f.who.core == core then
        xs.foldl (fun b x => match x.1.loc with
          | .mem p => if p ≤ pa ∧ pa < p + n then newerByte b v (BitVec.ofNat 8 (x.2 / 2 ^ (8 * (pa - p)))) else b
          | .pad _ _ => b) b
      else b
    | _, _ => b) none

/-- The newest byte the core shows that the home does not have: of a store or of the release buffer. -/
def ownByte (s : State) (die core pa : Nat) : Option Byte :=
  match bufEntry (coreAt s die core).relb pa, seenByte s.flights die core pa with
  | some (u, x), some (v, y) => if u ≤ v then some y else some x
  | some (_, x), none => some x
  | none, some (_, y) => some y
  | none, none => none

/-- Bytes from the home, with what the core shows over them. -/
def overlay (s : State) (die core pa : Nat) (bs : List Byte) : List Byte := bs.mapIdx (fun i b => (ownByte s die core (pa + i)).getD b)

/-- Bytes from the home as the core's engines and units read them: with the release buffer over them (R224). A store of the core that
the home has not performed is not seen (R226; log 87). -/
def engineView (s : State) (die core pa : Nat) (bs : List Byte) : List Byte :=
  bs.mapIdx (fun i b => (bufByte (coreAt s die core).relb (pa + i)).getD b)

/-- Lines with a sector put in front; the least recently used line of a full set leaves (R176; log 8). -/
def l1Put (ways : Nat) (ls : List Line) (pa : Nat) (bs : List Byte) : List Line × Option Line :=
  let rest := ls.filter (fun l => !(l.line == lineOf pa))
  match ls.find? (fun l => l.line == lineOf pa) with
  | some l => ({ l with sectors := stSet [] (pa / 32 % 8) bs l.sectors } :: rest, none)
  | none =>
    let new : Line := { line := lineOf pa, asid := 0, sectors := [(pa / 32 % 8, bs)], bad := [] }
    let set := rest.filter (fun l => l.line % 256 == lineOf pa % 256)
    if set.length < ways then (new :: rest, none)
    else
      match set.getLast? with
      | some v => (new :: rest.filter (fun l => !(l.line == v.line)), some v)
      | none => (rest, none)

/-- Fill of one sector into the core's L1 (R176). -/
def l1Fill (s : State) (die core pa : Nat) (bs : List Byte) : State :=
  let c := coreAt s die core
  let r := l1Put (8 - c.spw) c.l1 pa (overlay s die core (32 * (pa / 32)) bs)
  let s1 := putCore s die core { c with l1 := r.1, l1old := c.l1old.filter (fun k => !(k == pa / 32)) }
  match r.2 with
  | some l => makeReplica s1 die core l
  | none => s1

/-- Where a core reads: its L1, then a replica, then the home; its L1, then the home; or the home. -/
inductive ReadAt where | cached | fill | home
deriving DecidableEq, Repr

/-- The quad's replica that served a read is its most recently used line (R179). -/
def touchReplica (s : State) (die core pa : Nat) : State :=
  match (quadAt s (quadOf die core)).l2.find? (fun e => e.line == lineOf pa) with
  | some e => l2Put s (quadOf die core) e
  | none => s

/-- Bytes a core reads at a physical address. The sector that missed is filled; a line present in the L1 shows the core's own stores
already, and what comes from elsewhere has them laid over it. A lazily released byte that the core does not hold is read as the home has it, once
what R220 asks for has gone home (log 119). The flag says that the sector is poisoned where it was read (R176, R181,
R404, R406). -/
def coreRead (s : State) (die core : Nat) (pg : Page) (how : ReadAt) (pa n : Nat) : State × List Byte × Bool :=
  let c := coreAt s die core
  let cut (bs : List Byte) := (bs.drop (pa % 32)).take n
  let shown (bs : List Byte) := overlay s die core pa (cut bs)
  let home := memBytes s.mem (32 * (pa / 32)) 32
  if how == .home then (homeSeen (l2Access s pg false pa n) die core pa, shown home, s.poison.contains (pa / 32))
  else
    match lineSector c.l1 pa, if how == .cached then repSector (quadAt s (quadOf die core)) pa else none with
    | some bs, _ => (putCore s die core { c with l1 := (l1Put (8 - c.spw) c.l1 pa bs).1 }, cut bs, lineBad c.l1 pa)
    | none, some bs =>
      if repBad (quadAt s (quadOf die core)) pa then (touchReplica s die core pa, shown bs, true)
      else (l1Fill (touchReplica s die core pa) die core pa bs, shown bs, false)
    | none, none =>
      if s.poison.contains (pa / 32) then (l2Access s pg false pa n, shown home, true)
      else (l1Fill (homeSeen (l2Access s pg false pa n) die core pa) die core pa home, shown home, false)

/-- Bytes of a scratchpad, of a live wave or of one that operations still name. -/
def padRead (s : State) (uid off n : Nat) : List Byte :=
  match holder s uid with
  | some w => padBytes w.pad off n
  | none => List.replicate n 0

/-- Whether one of n bytes of a scratchpad lies in a poisoned word (R404). -/
def padPoisoned (s : State) (uid off n : Nat) : Bool :=
  match holder s uid with
  | some w => w.padBad.any (fun p => decide (8 * p < off + n) && decide (off < 8 * p + 8))
  | none => false

/-- The first poisoned byte of a scratchpad range, or its start. -/
def padBadAt (s : State) (uid off n : Nat) : Nat :=
  match holder s uid with
  | none => off
  | some w =>
    match w.padBad.filter (fun p => decide (8 * p < off + n) && decide (off < 8 * p + 8)) with
    | [] => off
    | p :: ps => max off (8 * ps.foldl min p)

/-- One lane's read. -/
def readAcc (s : State) (who : Who) (home : Bool) (a : Acc) (n : Nat) : State × List Byte × Bool :=
  match a.loc with
  | .pad u off => (s, padRead s u off n, padPoisoned s u off n)
  | .mem pa =>
    if a.page.ptype == .device then (s, devRead s pa n, false)
    else coreRead s who.die who.core a.page (if home || !(a.page.cl == 0) || a.page.ptype == .estimator then .home else .cached) pa n

/-! ### Writing bytes -/

/-- Bytes written at a home; a sector written whole loses its mark (R406). -/
def putMem (s : State) (pa : Nat) (bs : List Byte) : State :=
  { s with
    mem := memPut s.mem pa bs
    poison := s.poison.filter (fun p => !(decide (pa ≤ 32 * p) && decide (32 * p + 32 ≤ pa + bs.length))) }

/-- Sectors are poisoned; the units' caches hold no poisoned line (R334, R404). -/
def poisonSectors (s : State) (ss : List Nat) : State :=
  let keep (ls : List Line) : List Line := ls.filter (fun l => !ss.any (fun x => x / 8 == l.line))
  { s with
    poison := unionNat s.poison ss
    cores := s.cores.map (fun c => (c.1, { c.2 with ncache := keep c.2.ncache, tcache := keep c.2.tcache })) }

/-- Ranges of memory an operation writes, or acquires from. -/
def memRanges (as : List (Acc × Nat)) : List (Nat × Nat) :=
  as.filterMap (fun x => match x.1.loc with | .mem pa => some (pa, x.2) | .pad _ _ => none)

/-- Whether n bytes from an address all lie in some ranges. -/
def wholly (rs : List (Nat × Nat)) (a n : Nat) : Bool := (List.range n).all (fun i => rs.any (fun r => decide (r.1 ≤ a + i) && decide (a + i < r.1 + r.2)))

/-- One write covered some ranges: the sectors that lie in them whole lose their marks (R406; log 113). -/
def healHome (s : State) (rs : List (Nat × Nat)) : State := { s with poison := s.poison.filter (fun k => !wholly rs (32 * k) 32) }

/-- The same in a core's L1 (R404, R406). -/
def healL1 (s : State) (die core : Nat) (rs : List (Nat × Nat)) : State :=
  let c := coreAt s die core
  if c.l1.all (fun l => l.bad.isEmpty) then s
  else putCore s die core { c with
    l1 := c.l1.map (fun l => { l with bad := l.bad.filter (fun i => !wholly rs (256 * l.line + 32 * i) 32) }) }

/-- The same for the words of the scratchpads that the lanes of one instruction wrote (R404, R406). -/
def healPads (s : State) (n : Nat) (xs : List (Acc × Nat)) : State :=
  let us := (xs.filterMap (fun x => match x.1.loc with | .pad u _ => some u | .mem _ => none)).eraseDups
  us.foldl (fun st u => updHolder st u (fun w =>
    let rs := xs.filterMap (fun x => match x.1.loc with | .pad v off => if v == u then some (off, n) else none | .mem _ => none)
    { w with padBad := w.padBad.filter (fun p => !wholly rs (8 * p) 8) })) s

/-- Bytes written at their homes under a page's attributes: a line that then needs more slots makes room (R179). -/
def memWrite (s : State) (pg : Page) (pa : Nat) (bs : List Byte) : State := l2Access (putMem s pa bs) pg true pa bs.length

/-- Bytes written at their homes by an agent that no page describes: lines present are updated (R179, R212). -/
def hostWrite (s : State) (pa : Nat) (bs : List Byte) : State := memWrite s pageDirect pa bs

/-- Attributes of the page of a virtual address. -/
def pageAt (s : State) (asid va : Nat) : Page := match translate s asid va with | some leaf => pageOf leaf.1 | none => pageNormal

/-- A line leaves the issuing core's L1 as an engine's write, or an atomic at the home, passes (R176, R214; log 19). -/
def dropL1 (s : State) (die core pa : Nat) : State :=
  let c := coreAt s die core
  putCore s die core { c with l1 := c.l1.filter (fun l => !(l.line == lineOf pa)) }

/-- A line leaves the caches of a core's traversal and texture units as a write of the core is performed (R214, R226; log 88). -/
def dropUnits (s : State) (die core pa : Nat) : State :=
  let c := coreAt s die core
  putCore s die core { c with ncache := c.ncache.filter (fun l => !(l.line == lineOf pa)), tcache := c.tcache.filter (fun l => !(l.line == lineOf pa)) }

/-- A write of a core at a home: the bytes, the slice's line, the quad's replica and the units' copies (R179, R181). -/
def homeWrite (s : State) (die core : Nat) (pg : Page) (pa : Nat) (bs : List Byte) : State :=
  (linesOf pa bs.length).foldl (fun st l => dropUnits (dropReplica st die core l) die core l) (memWrite s pg pa bs)

/-- A write at the home made by an engine of a core (R176, R181). -/
def engineWrite (s : State) (die core : Nat) (pg : Page) (pa : Nat) (bs : List Byte) : State :=
  (linesOf pa bs.length).foldl (fun st l => dropL1 st die core l) (homeWrite s die core pg pa bs)

/-- Bytes written to a scratchpad; a word written whole loses its mark (R404). -/
def padWrite (s : State) (uid off : Nat) (bs : List Byte) : State :=
  updHolder s uid (fun w => { w with
    pad := padPut w.pad off bs
    padBad := w.padBad.filter (fun p => !(decide (off ≤ 8 * p) && decide (8 * p + 8 ≤ off + bs.length))) })

/-- A store updates the sectors of a line that the core's L1 holds (R176). It is no use of the line for the least recently used order, of which
R176 does not speak (log 8). -/
def l1Update (s : State) (die core pa : Nat) (bs : List Byte) : State :=
  let c := coreAt s die core
  putCore s die core { c with
    l1 := c.l1.map (fun l =>
      if l.line == lineOf pa then
        { l with sectors := l.sectors.map (fun x =>
            if x.1 == pa / 32 % 8 then (x.1, x.2.take (pa % 32) ++ bs ++ x.2.drop (pa % 32 + bs.length)) else x) }
      else l) }

/-- A store's bytes at the home, the device register or the scratchpad (R194). The core's L1 copy takes them now unless it has shown
them since the issue (R176). -/
def writeAcc (s : State) (who : Who) (seen : Bool) (a : Acc) (bs : List Byte) : State :=
  match a.loc with
  | .pad u off => padWrite s u off bs
  | .mem pa =>
    if a.page.ptype == .device then devWrite s pa bs
    else
      let s1 := homeWrite s who.die who.core a.page pa bs
      if seen then s1 else l1Update s1 who.die who.core pa bs

/-- A store that the core's L1 takes at once (R176, R201). -/
def addSeen (s : State) (who : Who) (cls : Option Cls) (n : Nat) (xs : List (Acc × Nat)) : State :=
  let s1 := xs.foldl (fun st x => match x.1.loc with
    | .mem pa => if x.1.page.ptype == .device then st else l1Update st who.die who.core pa (leBytes n x.2)
    | .pad _ _ => st) s
  let s2 := addMem (healL1 s1 who.die who.core (memRanges (xs.map (fun x => (x.1, n))))) who cls (.store n xs)
  { s2 with flights := s2.flights.map (fun f => if f.id == s.nextFid then { f with vis := some s.nextFid } else f) }

/-- A store enters the path: the L1 takes it at once, or as it is performed when an older access of the wave to its bytes is still
outstanding (R48, R176, R214; log 32). -/
def addStore (s : State) (who : Who) (cls : Option Cls) (n : Nat) (xs : List (Acc × Nat)) : State :=
  if pathBusy s who.uid s.nextFid (xs.map (fun x => (x.1, n))) then addMem s who cls (.store n xs) else addSeen s who cls n xs

/-- Whether one core's older stores to these bytes keep an access at the home waiting: stores that its L1 shows, and lazy releases the
home has not recorded. A store that the L1 shows waits for older ones only (R214, R222; log 32). -/
def homeBusy (s : State) (f : Flight) (rs : List (Nat × Nat)) : Bool :=
  let meets (pa n : Nat) : Bool := rs.any (fun r => locHit (.mem pa) n (.mem r.1) r.2)
  let older (k : Nat) : Bool := match f.vis with | some v => decide (k < v) | none => true
  s.flights.any (fun g => !(g.id == f.id) && g.who.die == f.who.die && g.who.core == f.who.core &&
    (match g.vis, g.act with
     | some v, .store n xs => older v && xs.any (fun x => match x.1.loc with | .mem p => meets p n | .pad _ _ => false)
     | _, _ => false)) ||
  (coreAt s f.who.die f.who.core).relb.any (fun e => !e.recorded && !(e.fid == f.id) && older e.fid && meets e.pa e.size)

/-- Whether the core shows older stores to the bytes of the lazy releases an instruction records. -/
def recordBusy (s : State) (f : Flight) (rs : List (Nat × Nat)) : Bool := homeBusy s { f with vis := some f.id } rs

/-! ### Lazy release -/

/-- Agents with a scope in whose instance both lie (R14, R213). -/
def sameInstance (sc : Scope) (a b : Who) : Bool :=
  match sc with
  | .wave => a.uid == b.uid
  | .core => a.die == b.die && a.core == b.core
  | .quad => a.die == b.die && a.core / 4 == b.core / 4
  | .die => a.die == b.die
  | _ => true

/-- Recorded entries of any core that hold one of n bytes from an address and pass a test (R224). -/
def lazyHit (s : State) (pa n : Nat) (p : RelEnt → Bool) : Bool :=
  s.cores.any (fun c => c.2.relb.any (fun e => e.recorded && locHit (.mem e.pa) e.size (.mem pa) n && p e))

/-- Entries that a test picks are due, and with each of them the older ones of its buffer: they go home in order, so that whoever
synchronises with a release finds what happened before it (R220, R221, R224; log 119). -/
def dueThrough (hit : RelEnt → Bool) : List RelEnt → List RelEnt
  | [] => []
  | e :: r => if hit e || r.any hit then { e with due := true } :: dueThrough hit r else e :: r

/-- Such entries are to be written home before the operation that met them. -/
def lazyDue (s : State) (pa n : Nat) (p : RelEnt → Bool) : State :=
  { s with
    cores := s.cores.map (fun c => (c.1, { c.2 with
      relb := dueThrough (fun e => e.recorded && locHit (.mem e.pa) e.size (.mem pa) n && p e) c.2.relb })) }

/-- The entry of a core's buffer that goes home next: the oldest, once it is due and recorded (R224). -/
def lazyHead (c : Core) : Option RelEnt :=
  match c.relb with
  | e :: _ => if e.due && e.recorded then some e else none
  | [] => none

/-- An operation at the homes of some ranges waits while lazy releases it meets are written back (R224). -/
def afterLazy (s : State) (rs : List (Nat × Nat)) (p : RelEnt → Bool) (k : Out) : Out :=
  if rs.any (fun r => lazyHit s r.1 r.2 p) then .next (rs.foldl (fun st r => lazyDue st r.1 r.2 p) s) else k

/-! ### Acquire and release -/

/-- What an acquire does to the core's caches and the quad's replicas (R182, R217, R332, R346). -/
def acquireAt (s : State) (die core : Nat) (sc : Scope) : State :=
  match sc with
  | .wave | .core => s
  | _ =>
    let c := coreAt s die core
    let s1 := putCore s die core { c with l1 := [], l1old := [], ncache := [], tcache := [] }
    match sc with
    | .quad => s1
    | _ => newGeneration s1 die core

/-- Merges with samples of a wave, whatever flushed them, that are not yet applied (R218, R228, R242). -/
def mergesOut (s : State) (uid : Nat) : Bool :=
  s.flights.any (fun f => match f.act with | .merge _ _ ws _ => ws.contains uid | _ => false)

/-- The wave's combining-buffer entries flush (R241, points 2, 3 and 6). -/
def flushOwn (s : State) (w : Wave) : State :=
  if (coreAt s w.die w.core).ecb.any (fun e => e.waves.contains w.wctx) then
    flushWhere s w.die w.core (fun e => e.waves.contains w.wctx) [w.uid] none
  else s

/-- Every older load, store, atomic and barrier operation of the wave is complete, an L1 atomic's store included (R218). -/
def pathQuiet (s : State) (uid : Nat) : Bool :=
  !s.flights.any (fun f => f.who.uid == uid &&
    (match f.act with | .region _ _ _ _ _ _ => false | .store _ _ => true | _ => f.cls == some .ld || f.cls == some .st))

/-- Scopes that reach beyond the core. -/
def beyondCore (sc : Scope) : Bool := match sc with | .wave | .core => false | _ => true

/-- All of a core's buffered releases are due. -/
def dueAll (s : State) (die core : Nat) : State :=
  let c := coreAt s die core
  if c.relb.isEmpty then s else putCore s die core { c with relb := c.relb.map (fun e => { e with due := true }) }

/-- A release enters the path when older operations are complete and the wave's samples are merged (R218). The core's lazy releases happen
before it, for all it knows: they are recorded first, and at home first when this release itself is performed at once beyond the core
(R220, R221; log 119). -/
def afterRelease (s : State) (w : Wave) (eager : Bool) (k : State → Out) : Out :=
  let s1 := if eager then dueAll (flushOwn s w) w.die w.core else flushOwn s w
  if pathQuiet s1 w.uid && !mergesOut s1 w.uid && (coreAt s1 w.die w.core).relb.all (fun e => e.recorded && !eager) then k s1 else .next s1

/-- Home slices that execute an acquire or a `wait` squash forks whose load table holds an entry (R133). -/
def squashOrdered (s : State) (uid die core : Nat) (sls : List Nat) : State :=
  squashWhere s uid (fun x f => f.slices.any (fun i => sls.contains i) && (coreAt s die core).flt.any (fun e => e.uid == x.uid))
def squashOrder (s : State) (w : Wave) : State := squashOrdered s w.uid w.die w.core (gang w)

/-- Slices with lanes among those an operation was issued for. -/
def whoSlices (who : Who) : List Nat := (List.range 8).filter (fun k => !(who.lanes.toNat / 2 ^ (4 * k) % 16 == 0))

/-- An acquire is performed: loads that continuations have taken since it issued came too early (R230). -/
def squashAcquire (s : State) (f : Flight) : State := squashOrdered s f.who.uid f.who.die f.who.core (whoSlices f.who)

/-- Stores of home slices that write a sector of a fork's load table squash it (R133). -/
def squashStores (s : State) (w : Wave) (sls : List Nat) (as : List (Acc × Nat)) : State :=
  squashWhere s w.uid (fun x f => f.slices.any (fun i => sls.contains i) &&
    (coreAt s w.die w.core).flt.any (fun e => e.uid == x.uid && as.any (fun a =>
      match a.1.loc with
      | .mem _ => !e.pad && e.asid == w.asid && decide (a.1.va / 32 = e.sector)
      | .pad u off => e.pad && u == w.uid && decide (off / 32 = e.sector))))

/-! ### Ends of operations -/

/-- A wave that waited for this operation goes on (R217). -/
def unblock (s : State) (f : Flight) : State :=
  { s with waves := s.waves.map (fun w => if w.blocked == some f.id then { w with blocked := none } else w) }

/-- The operation is complete. -/
def endFlight (s : State) (f : Flight) : State := unblock (completeFlight s f) f

/-- Lanes of a `red` that the L1 performed as it issued send a store of their own, which follows the rest of the instruction. -/
def lanesOut (s : State) (f : Flight) : Option Flight :=
  if f.cls == some .st then s.flights.find? (fun g => g.id == f.id + 1 && g.cls.isNone && g.who == f.who && (match g.act with | .store _ _ => true | _ => false))
  else none

/-- A store is complete once every lane's part is applied: the part still out takes over the counter (R194). -/
def endPart (s : State) (f : Flight) : State :=
  match lanesOut s f with
  | some g => putFlight (dropFlight s f.id) { g with cls := f.cls }
  | none => endFlight s f

/-- Registers that a continuation has written keep its values when an older operation of the callee would write them (R135). -/
def keepRegs (old : Wave) (w : Wave) (r : RegRef × List Nat) : Wave :=
  match r.1 with
  | .v n => r.2.foldl (fun x l => wrV x l n (rdV old l n)) w
  | .s n => wrBank w n (if 64 ≤ n then stGet 0 (n - 64) old.hs else stGet 0 n old.s)
  | _ => w
def keepWritten (s : State) (f : Flight) (o : Out) : Out :=
  if f.skip.isEmpty then o
  else
    match o, findWave s f.who.uid with
    | .next t, some old => .next { t with waves := t.waves.map (fun w => if w.uid == old.uid then f.skip.foldl (keepRegs old) w else w) }
    | o, _ => o

/-- An event about an operation in flight: nothing when there is no such operation, or when it may not happen yet. -/
def onFlight (s : State) (fid : Nat) (k : Flight → Out) : Out :=
  match findFlight s fid with
  | none => .next s
  | some f => if f.held || !tickReady s f then .next s else keepWritten s f (k f)

/-- Engines that keep commands of a kind (R70): copy and glean, matrix, estimator, texture. -/
def replyEngine (a : Act) : Nat :=
  match a with
  | .copy _ | .glean _ | .tile _ _ => 1
  | .matrix _ => 2
  | .region _ _ _ _ _ _ => 3
  | _ => 0

/-- Whether an older command of the wave on the same engine still has its reply to write (R70). -/
def replyBusy (s : State) (f : Flight) : Bool :=
  f.rr.isSome && s.flights.any (fun g => decide (g.id < f.id) && g.who.uid == f.who.uid && g.rr.isSome && replyEngine g.act == replyEngine f.act)

/-- The write of a reply register (R70). -/
def reply (s : State) (f : Flight) (v : W64) : State :=
  match f.rr with
  | none => s
  | some n => { s with waves := s.waves.map (fun w => if w.uid == f.who.uid then wrBank w n v else w) }

/-- Retired waves that nothing outstanding names any more are gone (R29). -/
def sweepGhosts (s : State) : State :=
  { s with
    ghosts := s.ghosts.filter (fun w => s.flights.any (fun f => f.who.uid == w.uid ||
      (match f.act with
       | .merge _ _ ws _ => ws.contains w.uid
       | .matrix m => (match m.fn with | .mmo _ _ _ _ _ (some u) => u == w.uid | _ => false)
       | _ => false) ||
      (actAccs f.act).any (fun x => match x.1.loc with | .pad u _ => u == w.uid | .mem _ => false))) }

end Sys2Proof.Machine
end

