-- ==== Sys2Proof/Machine/Mem.lean ====
section
/-!
DEFINITION. Loads, stores and prefetch (R187 to R199), and the events that complete them (R194, R195, R223, R224, R406).
-/
namespace Sys2Proof.Machine

/-! ### Addresses and checks -/

/-- Offset of a lane: scaled lane value, uniform value or immediate (R187). -/
def offsetOf (w : Wave) (o : Ops) (scale lane : Nat) : W64 :=
  match o.b with
  | .v n => (rdV w lane n).zeroExtend 64 <<< scale
  | .s n => rdS w n
  | .imm x => x

/-- Effective address (R187). -/
def eaOf (w : Wave) (o : Ops) (scale lane : Nat) : W64 := rdS w o.a + offsetOf w o scale lane

/-- Lanes' results, or the faults of those that raise a cause (R190). -/
def gather {α : Type} (f : Nat → Except LaneFault α) : List Nat → Except (List (Nat × LaneFault)) (List α)
  | [] => .ok []
  | l :: ls =>
    match f l, gather f ls with
    | .ok x, .ok xs => .ok (x :: xs)
    | .ok _, .error e => .error e
    | .error e, .ok _ => .error [(l, e)]
    | .error e, .error es => .error ((l, e) :: es)

/-- Whether stores of the wave may reach weight pages: a weight-writing privileged launch (R174, R183). -/
def weightWriter (s : State) (w : Wave) : Bool := match findLaunch s w.launch with | some l => l.wsw | none => false

/-- An access to virtual memory (R192). A weight-writing launch stores to the weight store of the die it runs on, which alone runs
nothing else (R183; log 89). -/
def memAcc (s : State) (w : Wave) (k : AKind) (ea : Nat → W64) (n lane : Nat) : Except LaneFault Acc :=
  match checkMem s w.asid (weightWriter s w) k (ea lane).toNat n with
  | .error e => .error e
  | .ok r =>
    if k == .store && r.2.ptype == .weight && !(homeDie r.1 == w.die) then .error { cause := cPerm, addr := (ea lane).toNat, detail := 1 }
    else .ok { lane := lane, loc := .mem r.1, va := (ea lane).toNat, page := r.2 }

/-- An access to the wave's own scratchpad (R196). -/
def padAcc (w : Wave) (ea : Nat → W64) (n lane : Nat) : Except LaneFault Acc :=
  let a := (ea lane).toNat
  if a % n ≠ 0 then .error { cause := cMisalign, addr := a, detail := n }
  else if w.foot.spad ≤ a then .error { cause := cBounds, addr := a, detail := 0 }
  else .ok { lane := lane, loc := .pad (whoOf w).uid a, va := a, page := pageNormal }

/-- The live peer wave a handle names: context PWAVE of core PCORE of the quad, of the same launch (R197). -/
def peerOf (s : State) (w : Wave) (h : W64) : Option Wave :=
  s.waves.find? (fun x => x.fork.isNone && x.die == w.die && x.core == 4 * (w.core / 4) + field h.toNat 39 38 &&
    x.wctx == field h.toNat 37 32 && x.launch == w.launch)

/-- DETAIL of PEER_GONE (R142). -/
def goneDetail (w : Wave) (h : W64) : Nat := 4 * (w.core / 4) + field h.toNat 39 38 + 2 ^ 8 * field h.toNat 37 32

/-- An offset in the allocation a peer handle names (R143, R197). -/
def peerAt (s : State) (w : Wave) (h : W64) (off : Int) (n : Nat) : Except LaneFault (Nat × Nat) :=
  let p : Int := (field h.toNat 31 0 : Nat) + off
  let addr := (p % 2 ^ 64).toNat
  if p % n ≠ 0 then .error { cause := cMisalign, addr := addr, detail := n }
  else if field h.toNat 63 40 ≠ 0 then .error { cause := cBounds, addr := addr, detail := 0 }
  else
    match peerOf s w h with
    | none => .error { cause := cPeerGone, addr := addr, detail := goneDetail w h }
    | some x => if 0 ≤ p ∧ p < x.foot.spad then .ok (x.uid, p.toNat) else .error { cause := cBounds, addr := addr, detail := 0 }

/-- Lane offset of a peer access, without wrap: a lane offset is unsigned, an immediate signed (R187, R197), and a uniform one signed, which R197
does not say (log 123). -/
def peerOffset (w : Wave) (o : Ops) (scale lane : Nat) : Int :=
  match o.b with
  | .v n => ((rdV w lane n).toNat * 2 ^ scale : Nat)
  | .s n => (rdS w n).toInt
  | .imm x => x.toInt
def peerAcc (s : State) (w : Wave) (o : Ops) (n lane : Nat) : Except LaneFault Acc :=
  (peerAt s w (rdS w o.a) (peerOffset w o o.x lane) n).map (fun r =>
    { lane := lane, loc := .pad r.1 r.2, va := r.2, page := pageNormal })

/-- Bytes of a tile (R271, R277, R278). -/
def tileBytes (t : Tile) : Nat := if t.plane then (t.planes + 1) * t.rows * t.cols / 8 else t.size

/-- Whether scratchpad bytes lie in a tile that is FILLING or DRAINING (R198). -/
def tileBusy (s : State) (uid off n : Nat) : Bool :=
  match holder s uid with
  | some w => w.tiles.any (fun t => (t.st == .filling || t.st == .draining) && locHit (.pad 0 (256 * t.base)) (tileBytes t) (.pad 0 off) n)
  | none => false
def accTileBusy (s : State) (n : Nat) (a : Acc) : Bool :=
  match a.loc with
  | .pad u off => tileBusy s u off n
  | .mem _ => false

/-- Cache the translations an instruction used (R173). -/
def fillTlbs (s : State) (asid : Nat) (as : List Acc) : State :=
  as.foldl (fun st a => match a.loc with | .mem _ => tlbFill st asid a.va | .pad _ _ => st) s

/-! ### Loads -/

/-- Where a load instruction's value goes. -/
def loadDst (w : Wave) (o : Ops) : LoadDst :=
  { uid := w.uid, vec := o.k.vec, reg := if o.k.vec then o.d else bankKey w o.d, ty := o.ty }

/-- Lane values to the destination (R82, R192). -/
def writeLoad (w : Wave) (d : LoadDst) (vs : List (Nat × Nat)) : Wave :=
  vs.foldl (fun x v => if d.vec then wrVec x d.ty v.1 d.reg v.2 else wrUniKey x d.ty d.reg v.2) w

/-- Scope of an acquire, if the access is one (R193). -/
def acqScope (o : Ops) : Option Scope := match o.ord with | .acq | .ar => some o.sc | _ => none
def isRelease (o : Ops) : Bool := match o.ord with | .rel | .ar => true | _ => false

/-- Whether an acquire reads at the home (R217). -/
def acqHome : Option Scope → Bool
  | none | some .wave | some .core => false
  | _ => true

/-- All lanes' reads of a load at once (R191): values of the good lanes, and the poisoned ones. -/
def readAll (s : State) (who : Who) (home : Bool) (n : Nat) : List Acc → State × List (Nat × Nat) × List Acc
  | [] => (s, [], [])
  | a :: as =>
    let r := readAcc s who home a n
    let t := readAll r.1 who home n as
    if r.2.2 then (t.1, t.2.1, a :: t.2.2) else (t.1, (a.lane, leNat r.2.1) :: t.2.1, t.2.2)

/-- The access of a drill instruction stands for no lane. -/
def uniLane : Nat := 32
/-- Lanes that an instruction accesses memory for. -/
def accLanes (o : Ops) (ls : List Nat) : List Nat := if o.k.vec then ls else [uniLane]

/-- POISON of the lanes that read it; of a drill instruction, the lanes of the running parts (R142, R146, R151, R406). -/
def poisonLanes (s : State) (who : Who) (kind : Nat) (bad : List Acc) : State :=
  match bad with
  | [] => s
  | a :: _ => deferOrRecord s who kind cPoison (if a.lane == uniLane then who.lanes else laneMask (bad.map (fun x => x.lane))) (BitVec.ofNat 64 a.va) 0

/-- Faults of an instruction's accesses; those of a drill instruction are raised for the lanes of the running parts (R145, R146). -/
def accFaults (w : Wave) (o : Ops) (es : List (Nat × LaneFault)) : List (Nat × LaneFault) :=
  if o.k.vec then es else es.flatMap (fun e => (runLanes w).map (fun l => (l, e.2)))

/-- Held stores of a fork over the bytes its own loads read (R131). -/
def forkByte (es : List FsbEnt) (uid : Nat) (a : Acc) (i : Nat) : Option Byte :=
  es.foldl (fun b e => if e.uid == uid then
      e.accs.foldl (fun b x =>
        match x.1.loc, a.loc with
        | .mem p, .mem q => if p ≤ q + i ∧ q + i < p + e.size then some (BitVec.ofNat 8 (x.2 / 2 ^ (8 * (q + i - p)))) else b
        | .pad u p, .pad v q =>
          if u == v ∧ p ≤ q + i ∧ q + i < p + e.size then some (BitVec.ofNat 8 (x.2 / 2 ^ (8 * (q + i - p)))) else b
        | _, _ => b) b
    else b) none
def forkOver (es : List FsbEnt) (uid : Nat) (a : Acc) (x n : Nat) : Nat :=
  leNat ((leBytes n x).mapIdx (fun i b => (forkByte es uid a i).getD b))

/-- Entry of the fork load table for an access. -/
def fltOf (w : Wave) (a : Acc) : FltEnt :=
  match a.loc with
  | .mem _ => { uid := w.uid, pad := false, asid := w.asid, sector := a.va / 32, seen := [] }
  | .pad _ off => { uid := w.uid, pad := true, asid := 0, sector := off / 32, seen := [] }
def sameEnt (a b : FltEnt) : Bool := a.uid == b.uid && a.pad == b.pad && a.asid == b.asid && a.sector == b.sector

/-- Sectors a continuation's load adds to the fork load table (R130). -/
def newSectors (c : Core) (w : Wave) (as : List Acc) : List FltEnt :=
  (as.map (fltOf w)).eraseDups.filter (fun e => !c.flt.any (sameEnt e))

/-- Address of an access in its space. -/
def spaceAt (a : Acc) : Nat := match a.loc with | .mem _ => a.va | .pad _ off => off

/-- The entries note the bytes that a load of the fork has read, those that its own held stores do not cover (R131, R230). -/
def noteSeen (fsb : List FsbEnt) (w : Wave) (n : Nat) (as : List Acc) (vs : List (Nat × Nat)) (es : List FltEnt) : List FltEnt :=
  es.map (fun e => { e with
    seen := e.seen ++ as.flatMap (fun a => if sameEnt e (fltOf w a) then
        (match vs.find? (fun v => v.1 == a.lane) with
         | some v => ((List.range n).filter (fun i => (forkByte fsb w.uid a i).isNone)).map (fun i => ((spaceAt a + i) % 32, BitVec.ofNat 8 (v.2 / 2 ^ (8 * i))))
         | none => [])
      else []) })

/-- A load of the wave in some slices has read another byte than a continuation, which follows it in program order, has read there (R214,
R230). -/
def readsOther (s : State) (home : Nat) (sls : List Nat) (n : Nat) (as : List Acc) (vs : List (Nat × Nat)) (x : Wave) (k : Fork) : Bool :=
  k.slices.any (fun i => sls.contains i) &&
  (coreAt s x.die x.core).flt.any (fun e => e.uid == x.uid && as.any (fun a =>
    sameEnt e (fltOf x a) && (match a.loc with | .mem _ => true | .pad u _ => u == home) &&
    (match vs.find? (fun v => v.1 == a.lane) with
     | some v => (List.range n).any (fun i => e.seen.any (fun p => p.1 == (spaceAt a + i) % 32 && !(p.2 == BitVec.ofNat 8 (v.2 / 2 ^ (8 * i)))))
     | none => false)))

/-- A page in another package's window is read through the exchange in a context with RX = 1 (R395): a continuation, whose loads are performed as
they issue, waits with such a one until its fork is resolved (log 127). -/
def forkWindow (s : State) (w : Wave) (as : List Acc) : Bool :=
  (match findCtx s w.asid with | some c => c.rx | none => false) && as.any (fun a => match a.loc with | .mem pa => isPod pa | .pad _ _ => false)

/-- A continuation's load: performed as it issues, entered in the table; a full table, poison, a device or weight page stops the shadow, an
older access in the way keeps it waiting (R130, R132, R230). A continuation of a fork opened earlier, which follows it in program order, is
squashed when it has read another byte there (R137, R214; log 117). -/
def forkLoad (s : State) (w : Wave) (d : LoadDst) (n : Nat) (as : List Acc) : Out :=
  let c := coreAt s w.die w.core
  let new := newSectors c w as
  if pathBusy s (whoOf w).uid s.nextFid (as.map (fun a => (a, n))) || forkWindow s w as then stall s
  else if 64 < c.flt.length + new.length ∨ as.any (fun a => a.page.ptype == .device || a.page.ptype == .weight) then .next (stopShadow s w)
  else
    let r := readAll s (whoOf w) false n as
    if r.2.2.isEmpty then
      let s0 := squashWhere r.1 (whoOf w).uid (fun x k => decide (x.uid < w.uid) && readsOther r.1 (whoOf w).uid (w.fork.elim [] (fun f => f.slices)) n as r.2.1 x k)
      let c1 := coreAt s0 w.die w.core
      let s1 := putCore s0 w.die w.core { c1 with flt := noteSeen c.fsb w n as r.2.1 (c1.flt ++ new) }
      let vs := r.2.1.map (fun v => (v.1, match as.find? (fun a => a.lane == v.1) with
        | some a => forkOver c.fsb w.uid a v.2 n
        | none => v.2))
      finish (addFlight s1 (whoOf w) (some .ld) .nop none) (writeLoad w d vs)
    else .next (stopShadow s w)

/-- The shared body of every load (R187 to R198): counter, checks, then an operation in flight; an acquire holds the gang. -/
def loadBody (o : Ops) (n : Nat) (acc : State → Wave → Nat → Except LaneFault Acc) (s : State) (w : Wave) (ls : List Nat) : Out :=
  if 63 ≤ counter s (whoOf w).uid .ld then stall s
  else
    match gather (acc s w) (accLanes o ls) with
    | .error es => .next (raiseLanes s w (accFaults w o es))
    | .ok as =>
      if as.any (accTileBusy s n) then stall s
      else
        let s1 := fillTlbs s w.asid as
        if w.fork.isSome then forkLoad s1 w (loadDst w o) n as
        else
          let s2 := addMem s1 (whoOf w) (some .ld) (.load (loadDst w o) n as (acqScope o))
          match acqScope o with
          | none => goOn s2 w.uid
          | some _ => goOn (updHolder (squashOrder s2 w) w.uid (fun x => { x with blocked := some s.nextFid })) w.uid

def sizeOf (o : Ops) : Nat := o.ty.bits / 8

def execLd (o : Ops) (s : State) : Out :=
  runInstr (.ld o) s (loadBody o (sizeOf o) (fun s w l => memAcc s w .load (eaOf w o o.x) (sizeOf o) l))
def execLdu (o : Ops) (s : State) : Out :=
  runInstr (.ldu o) s (loadBody o (sizeOf o) (fun s w l => memAcc s w .load (eaOf w o o.x) (sizeOf o) l))
def execLds (o : Ops) (s : State) : Out :=
  runInstr (.lds o) s (loadBody o (sizeOf o) (fun _ w l => padAcc w (eaOf w o o.x) (sizeOf o) l))
def execLdp (o : Ops) (s : State) : Out :=
  runInstr (.ldp o) s (loadBody o (sizeOf o) (fun s w l => peerAcc s w o (sizeOf o) l))

/-! ### Stores -/

/-- Data of a store lane: the low bytes of D (R188). -/
def storeVal (w : Wave) (o : Ops) (lane : Nat) : Nat := opD w o o.ty lane

/-- Only the highest lane of those that name one address stores (R191). -/
def lastLanes : List (Acc × Nat) → List (Acc × Nat)
  | [] => []
  | x :: xs => if xs.any (fun y => y.1.loc == x.1.loc) then lastLanes xs else x :: lastLanes xs

/-- Whether a release of this lane is lazy (R223). -/
def lazyLane (o : Ops) (a : Acc) : Bool :=
  isRelease o && (o.sc == .die || o.sc == .pkg || o.sc == .pod) && a.page.ptype == .normal && decide (a.page.cl ≤ 1) &&
  a.page.wp == 0 && (match a.loc with | .mem _ => true | .pad _ _ => false)

/-- The newest 16 lazy lanes take buffer entries; the others store at once (R223, R224). -/
def splitLazy (o : Ops) (xs : List (Acc × Nat)) : List (Acc × Nat) × List (Acc × Nat) :=
  let lz := xs.filter (fun x => lazyLane o x.1)
  (lz.drop (lz.length - 16), xs.filter (fun x => !lazyLane o x.1) ++ lz.take (lz.length - 16))

/-- The first entries of a release buffer go home to make room; only recorded ones can (R224). -/
def dueFirst (k : Nat) (es : List RelEnt) : List RelEnt :=
  (es.take k).map (fun e => { e with due := e.due || e.recorded }) ++ es.drop k

def lazyPa (a : Acc) : Nat := match a.loc with | .mem pa => pa | .pad _ _ => 0

/-- A continuation's store is held, one entry for each slice that it stores for; a slice whose lanes higher ones overwrite takes none (R131,
R132; log 90). -/
def forkStore (s : State) (w : Wave) (n : Nat) (xs : List (Acc × Nat)) : Out :=
  let c := coreAt s w.die w.core
  let part (x : Acc × Nat) : Nat := if x.1.lane == uniLane then (gang w).headD 0 else x.1.lane / 4
  let sls := (xs.map part).eraseDups
  if 32 < c.fsb.length + sls.length ∨ xs.any (fun x => x.1.page.ptype == .device || x.1.page.ptype == .weight) then .next (stopShadow s w)
  else
    let new := sls.map (fun i => ({ uid := w.uid, slice := i, pc := gpc w, size := n, accs := xs.filter (fun x => part x == i) } : FsbEnt))
    finish (putCore s w.die w.core { c with fsb := c.fsb ++ new }) w

/-- Stores issue: forks that read the sectors are squashed, and the operation is in flight (R133, R194). Lazy releases take their
entries (R223). -/
def issueStore (s : State) (w : Wave) (o : Ops) (n : Nat) (xs : List (Acc × Nat)) : Out :=
  let ps := splitLazy o xs
  let c := coreAt s w.die w.core
  if 16 < c.relb.length + ps.1.length then
    .next (putCore s w.die w.core { c with relb := dueFirst (c.relb.length + ps.1.length - 16) c.relb })
  else
    let ents := ps.1.map (fun x => ({ fid := s.nextFid, who := whoOf w, pa := lazyPa x.1, va := x.1.va, size := n, val := x.2, page := x.1.page, sc := o.sc,
                                      recorded := false, due := false } : RelEnt))
    let s0 := if ents.isEmpty then s else putCore s w.die w.core { c with relb := c.relb ++ ents }
    let s1 := ps.1.foldl (fun st x => l1Update st w.die w.core (lazyPa x.1) (leBytes n x.2)) s0
    let s2 := if ps.2.isEmpty then addMem s1 (whoOf w) (some .st) .rel else addStore s1 (whoOf w) (some .st) n ps.2
    goOn (squashStores s2 w (gang w) (xs.map (fun x => (x.1, n)))) w.uid

/-- A release is performed at once, and beyond the core, for some lane. -/
def eagerRelease (o : Ops) (xs : List (Acc × Nat)) : Bool := beyondCore o.sc && !(splitLazy o xs).2.isEmpty

/-- The shared body of every store (R187 to R198). A continuation's store counts when it drains (R131). -/
def storeBody (o : Ops) (n : Nat) (acc : State → Wave → Nat → Except LaneFault Acc) (s : State) (w : Wave) (ls : List Nat) : Out :=
  if w.fork.isNone && decide (63 ≤ counter s (whoOf w).uid .st) then stall s
  else
    match gather (acc s w) (accLanes o ls) with
    | .error es => .next (raiseLanes s w (accFaults w o es))
    | .ok as =>
      if as.any (accTileBusy s n) then stall s
      else
        let s1 := fillTlbs s w.asid as
        let xs := lastLanes (as.map (fun a => (a, storeVal w o a.lane)))
        if w.fork.isSome then forkStore s1 w n xs
        else if isRelease o then afterRelease s1 w (eagerRelease o xs) (fun s2 => issueStore s2 w o n xs)
        else issueStore s1 w o n xs

def execSt (o : Ops) (s : State) : Out :=
  runInstr (.st o) s (storeBody o (sizeOf o) (fun s w l => memAcc s w .store (eaOf w o o.x) (sizeOf o) l))
def execStu (o : Ops) (s : State) : Out :=
  runInstr (.stu o) s (storeBody o (sizeOf o) (fun s w l => memAcc s w .store (eaOf w o o.x) (sizeOf o) l))
def execSts (o : Ops) (s : State) : Out :=
  runInstr (.sts o) s (storeBody o (sizeOf o) (fun _ w l => padAcc w (eaOf w o o.x) (sizeOf o) l))
def execStp (o : Ops) (s : State) : Out :=
  runInstr (.stp o) s (storeBody o (sizeOf o) (fun s w l => peerAcc s w o (sizeOf o) l))

/-! ### Prefetch -/

/-- Page of a lane of `pf` that raises no cause. -/
def prefetchPage (s : State) (w : Wave) (o : Ops) (lane : Nat) : Option (Nat × Page) :=
  match checkPage s w.asid false .load (eaOf w o (o.x % 8) lane).toNat 4 with
  | .error _ => none
  | .ok r => some r

/-- One lane of `pf`: the line's good sectors enter the home slice, and the L1 unless X[3] names the L2 or the page is not cached there; a
lane that would raise a cause is dropped, and estimator and device pages see nothing of it (R174, R199). -/
def prefetchLane (s : State) (w : Wave) (o : Ops) (lane : Nat) : State :=
  let va := (eaOf w o (o.x % 8) lane).toNat
  match prefetchPage s w o lane with
  | none => s
  | some (pa, pg) =>
    if pg.ptype == .estimator || pg.ptype == .device then s
    else if bitAt o.x 3 || !(pg.cl == 0) then l2Access (tlbFill s w.asid va) pg false (256 * lineOf pa) 256
    else (List.range 8).foldl (fun st i =>
      let p := 256 * lineOf pa + 32 * i
      if st.poison.contains (p / 32) || (lineSector (coreAt st w.die w.core).l1 p).isSome then st
      else l1Fill (homeSeen st w.die w.core p) w.die w.core p (memBytes st.mem p 32)) (l2Access (tlbFill s w.asid va) pg false (256 * lineOf pa) 256)

/-- A line of the weight store that the home slice does not hold whole waits out its bank's refresh window (R184). -/
def prefetchWaits (s : State) (w : Wave) (o : Ops) (lane : Nat) : Bool :=
  match prefetchPage s w o lane with
  | some (pa, _) => isWeight pa && weightShut s pa && !(List.range 8).all (fun i => l2Has s (256 * lineOf pa + 32 * i))
  | none => false

/-- `pf` (R199). In a continuation it takes no entries of the fork load table, since it reads no value, and a device or weight page is
a barrier (R130, R132; log 91). -/
def execPf (o : Ops) (s : State) : Out :=
  runInstr (.pf o) s (fun s w ls =>
    let lanes := accLanes o ls
    let barred := lanes.any (fun l => match prefetchPage s w o l with
      | some r => r.2.ptype == .device || r.2.ptype == .weight
      | none => false)
    if w.fork.isSome && barred then .next (stopShadow s w)
    else if lanes.any (prefetchWaits s w o) then stall s
    else goOn (lanes.foldl (fun st l => prefetchLane st w o l) s) w.uid)

/-! ### Completion -/

/-- A load is performed: all lanes read, the registers of the good ones are written, poison is deferred, an acquire takes effect
(R82, R151, R191, R217, R406) and squashes the forks that loaded meanwhile; so does a byte that a continuation read before it changed (R214,
R230; log 117). -/
def performLoad (s : State) (f : Flight) (d : LoadDst) (n : Nat) (as : List Acc) (acq : Option Scope) : State :=
  let r0 := readAll s f.who (acqHome acq) n as
  let r := (squashWhere r0.1 f.who.uid (fun x k => decide (k.born ≤ f.id) && readsOther r0.1 f.who.uid (whoSlices f.who) n as r0.2.1 x k), r0.2)
  let s1 := updHolder r.1 d.uid (fun w => writeLoad w d r.2.1)
  let s2 := if (findWave s1 f.who.uid).isSome then poisonLanes s1 f.who 1 r.2.2 else s1
  match acq with
  | none => s2
  | some sc => acquireAt (squashAcquire s2 f) f.who.die f.who.core sc

/-- A read of the weight store that meets its bank's refresh window, or the copy of its row, waits; a line that its home slice holds needs
none, nor does one that the core's L1 or a replica holds, unless the read is made at the home (R16, R184, R217, R409). -/
def weightWaits (s : State) (who : Who) (home : Bool) (a : Acc) : Bool :=
  match a.loc with
  | .mem pa => isWeight pa && weightShut s pa && !l2Has s pa &&
      !(!home && a.page.cl == 0 && ((lineSector (coreAt s who.die who.core).l1 pa).isSome || (repSector (quadAt s (quadOf who.die who.core)) pa).isSome))
  | .pad _ _ => false

/-- Entries of R224 that an operation of an agent meets at the homes: acquires that reach them meet inclusive ones, writes meet every
other record. -/
def acqMeets (f : Flight) (acq : Option Scope) (e : RelEnt) : Bool :=
  match acq with
  | none => false
  | some sc => sameInstance e.sc e.who f.who && sameInstance sc e.who f.who

/-- Bytes of an acquire that are read at their homes: all of them at `.quad` and wider, else those that neither the L1 nor a replica holds
(R217, R224). -/
def acqRanges (s : State) (who : Who) (n : Nat) (as : List Acc) (acq : Option Scope) : List (Nat × Nat) :=
  memRanges ((as.filter (fun a => acqHome acq || (match a.loc with
    | .mem pa => !(a.page.cl == 0 && ((lineSector (coreAt s who.die who.core).l1 pa).isSome || (repSector (quadAt s (quadOf who.die who.core)) pa).isSome))
    | .pad _ _ => false))).map (fun a => (a, n)))
def writeMeets (f : Flight) (e : RelEnt) : Bool := !(e.fid == f.id)

/-- The stores of an operation at their homes, in lane order (R191, R194). Lanes act together: the sectors and scratchpad words that they
cover whole lose their marks (R406; log 113). -/
def performStore (s : State) (f : Flight) (n : Nat) (xs : List (Acc × Nat)) : State :=
  let s1 := xs.foldl (fun st x => writeAcc st f.who f.vis.isSome x.1 (leBytes n x.2)) s
  let rs := memRanges (xs.map (fun x => (x.1, n)))
  healPads (if f.vis.isSome then healHome s1 rs else healL1 (healHome s1 rs) f.who.die f.who.core rs) n xs

/-- The home has recorded the lazy releases of an instruction (R223); their records have passed the local slice (R181). -/
def recordReleases (s : State) (f : Flight) : State :=
  let c := coreAt s f.who.die f.who.core
  (c.relb.filter (fun e => e.fid == f.id)).foldl (fun st e => dropReplica st f.who.die f.who.core e.pa)
    (if c.relb.any (fun e => e.fid == f.id) then
      putCore s f.who.die f.who.core { c with relb := c.relb.map (fun e => if e.fid == f.id then { e with recorded := true } else e) }
    else s)

/-- Ranges of the lazy releases an instruction records. -/
def releaseRanges (s : State) (f : Flight) : List (Nat × Nat) :=
  ((coreAt s f.who.die f.who.core).relb.filter (fun e => e.fid == f.id)).map (fun e => (e.pa, e.size))

/-- LAZY_WRITE_BACK: the core's oldest entry, once due, goes to its home (R224). -/
def execLazyWriteBack (die core : Nat) (s : State) : Out :=
  let c := coreAt s die core
  match lazyHead c with
  | none => .next s
  | some e => .next (homeWrite (putCore s die core { c with relb := c.relb.drop 1 }) die core e.page e.pa (leBytes e.size e.val))

end Sys2Proof.Machine
end

