-- ==== Sys2Proof/Machine/Atomics.lean ====
section
/-!
DEFINITION. Atomics and reductions (R200 to R202, R222), fences and `wait` (R203, R204), and host AtomicOps (R201).
-/
namespace Sys2Proof.Machine

/-- The new value of a location (R75, R200). -/
def atomNew (op : Nat) (t : Ty) (old c c2 : Nat) : Nat :=
  match op with
  | 0 => trunc t.bits ((old : Int) + c)
  | 1 => trunc t.bits (min (tval t old) (tval t c))
  | 2 => trunc t.bits (max (tval t old) (tval t c))
  | 3 => old &&& c
  | 4 => old ||| c
  | 5 => old ^^^ c
  | 6 => c
  | 7 => if old = c then c2 else old
  | 8 => f32Add old c
  | 9 => (fMinMax fmtF32 envRN false old c).1
  | _ => (fMinMax fmtF32 envRN true old c).1

/-- What a set of atomic lanes did: old values, poisoned lanes, bytes an L1 atomic still sends home. -/
structure AtomRes where
  olds : List (Nat × Nat)
  bad  : List Acc
  kids : List (Acc × Nat)
deriving DecidableEq, Repr

/-- Where an atomic lane is performed: the core's L1 for scopes `.wave` and `.core` on pages with CL = 00 (R201). -/
def atomLocal (sc : Scope) (a : Acc) : Bool := (sc == .wave || sc == .core) && a.page.cl == 0

/-- Bytes that earlier lanes of the instruction wrote in the L1 stand over those of a line filled again. -/
def overKids (kids : List (Acc × Nat)) (n pa : Nat) (bs : List Byte) : List Byte :=
  bs.mapIdx (fun i b => kids.foldl (fun b k => match k.1.loc with
    | .mem p => if p ≤ pa + i ∧ pa + i < p + n then BitVec.ofNat 8 (k.2 / 2 ^ (8 * (pa + i - p))) else b
    | .pad _ _ => b) b)

/-- One atomic lane: at the core's L1, whose absent line is filled from the home, or at the home (R200, R201, R406). -/
def atomLane (who : Who) (sc : Scope) (op : Nat) (t : Ty) (s : State) (r : AtomRes) (x : Acc × Nat × Nat) : State × AtomRes :=
  let n := t.bits / 8
  match x.1.loc with
  | .pad _ _ => (s, r)
  | .mem pa =>
    let l1 := atomLocal sc x.1
    let b := coreRead s who.die who.core x.1.page (if l1 then .fill else .home) pa n
    if b.2.2 then (b.1, { r with bad := r.bad ++ [x.1] })
    else
      let old := leNat (if l1 then overKids r.kids n pa b.2.1 else b.2.1)
      let new := atomNew op t old x.2.1 x.2.2
      let s1 := if l1 then l1Update b.1 who.die who.core pa (leBytes n new)
                else dropL1 (homeWrite b.1 who.die who.core x.1.page pa (leBytes n new)) who.die who.core pa
      (s1, { r with olds := r.olds ++ [(x.1.lane, old)], kids := if l1 then r.kids ++ [(x.1, new)] else r.kids })

/-- Atomic lanes in ascending order (R200). -/
def atomLanes (who : Who) (sc : Scope) (op : Nat) (t : Ty) (s : State) (xs : List (Acc × Nat × Nat)) : State × AtomRes :=
  xs.foldl (fun a x => atomLane who sc op t a.1 a.2 x) (s, { olds := [], bad := [], kids := [] })

/-- The operand after C of `cas` (R200). A 64-bit C in an s-register, as K = 01 gives it, is followed by s[C + 1] (log 94). -/
def casNew (w : Wave) (o : Ops) (lane : Nat) : Nat :=
  if o.x % 16 = 7 then (if o.k.cVec then rdVec w o.ty lane (o.c + (if o.ty.is64 then 2 else 1)) else rdUni w o.ty (o.c + 1)) else 0

/-- Results of atomic lanes: destination, poison, and the store an L1 atomic sends home. -/
def atomFinish (s : State) (who : Who) (dst : Option LoadDst) (t : Ty) (r : AtomRes) (send : Bool) : State :=
  let s1 := match dst with
    | some d => updHolder s d.uid (fun w => writeLoad w d r.olds)
    | none => s
  let s2 := poisonLanes s1 who 1 r.bad
  if send && !r.kids.isEmpty then addSeen s2 who none (t.bits / 8) (lastLanes r.kids) else s2

/-- An older access of the wave to a lane's bytes that the L1 has not performed. -/
def l1Busy (s : State) (uid : Nat) (a : Acc) (n : Nat) : Bool :=
  s.flights.any (fun g => g.who.uid == uid && g.vis.isNone && (actAccs g.act).any (accHit (a, n)))

/-- Whether an atomic lane reads the L1 copy as it issues: its line is valid there, and no older access of the wave is in its way (R48,
R201). -/
def atomNow (s : State) (w : Wave) (sc : Scope) (n : Nat) (a : Acc) : Bool :=
  atomLocal sc a && !l1Busy s (whoOf w).uid a n && (match a.loc with | .mem pa => (lineSector (coreAt s w.die w.core).l1 pa).isSome | .pad _ _ => false)

/-- An atomic issues (R194, R200, R201, R217, R218): lanes whose line the L1 holds are performed, the others are in flight. -/
def issueAtom (s : State) (w : Wave) (o : Ops) (dst : Option LoadDst) (as : List Acc) : Out :=
  let n := o.ty.bits / 8
  let xs := as.map (fun a => (a, opC w o o.ty a.lane, casNew w o a.lane))
  let cls : Cls := if dst.isSome then .ld else .st
  let now := xs.filter (fun x => atomNow s w o.sc n x.1)
  let late := xs.filter (fun x => !atomNow s w o.sc n x.1)
  let r := atomLanes (whoOf w) o.sc (o.x % 16) o.ty s now
  let s1 :=
    if !late.isEmpty then atomFinish (addMem r.1 (whoOf w) (some cls) (.atom dst (o.x % 16) o.ty late o.sc o.ord)) (whoOf w) dst o.ty r.2 true
    else if dst.isSome then atomFinish (addMem r.1 (whoOf w) (some cls) .nop) (whoOf w) dst o.ty r.2 true
    else atomFinish (addSeen r.1 (whoOf w) (some cls) n (lastLanes r.2.kids)) (whoOf w) dst o.ty r.2 false
  let s2 := squashStores (if (acqScope o).isSome then squashOrder s1 w else s1) w (gang w) (as.map (fun a => (a, n)))
  if (acqScope o).isSome && !late.isEmpty then goOn (updHolder s2 w.uid (fun x => { x with blocked := some s.nextFid })) w.uid
  else goOn s2 w.uid

/-- The shared body of `atom` and `red`. -/
def atomBody (o : Ops) (load : Bool) (s : State) (w : Wave) (ls : List Nat) : Out :=
  if 63 ≤ counter s (whoOf w).uid (if load then .ld else .st) then stall s
  else
    match gather (memAcc s w .atomic (eaOf w o (o.x / 16)) (sizeOf o)) (accLanes o ls) with
    | .error es => .next (raiseLanes s w (accFaults w o es))
    | .ok as =>
      let s1 := fillTlbs s w.asid as
      let dst := if load then some (loadDst w o) else none
      if isRelease o then afterRelease s1 w (beyondCore o.sc) (fun s2 => issueAtom s2 w o dst as) else issueAtom s1 w o dst as

def execAtom (o : Ops) (s : State) : Out := runInstr (.atom o) s (atomBody o true)
def execRed (o : Ops) (s : State) : Out := runInstr (.red o) s (atomBody o false)

/-- An atomic in flight is performed: old values return, an L1 `red` goes on as its store (R194, R201). -/
def performAtom (s : State) (f : Flight) (dst : Option LoadDst) (op : Nat) (t : Ty) (xs : List (Acc × Nat × Nat)) (sc : Scope)
    (ord : Ord) : State :=
  let r := atomLanes f.who sc op t s xs
  let s1 := atomFinish r.1 f.who dst t r.2 dst.isSome
  let s2 := match ord with
    | .acq | .ar => acquireAt (squashAcquire s1 f) f.who.die f.who.core sc
    | _ => s1
  if dst.isNone && !r.2.kids.isEmpty then
    { putFlight s2 { f with act := .store (t.bits / 8) (lastLanes r.2.kids), vis := some s2.nextFid } with nextFid := s2.nextFid + 1 }
  else endPart s2 f

/-- Whether stores of the core keep an atomic at the home waiting (R222). -/
def atomBusy (s : State) (f : Flight) (xs : List (Acc × Nat × Nat)) (sc : Scope) : Bool :=
  homeBusy s f (memRanges ((xs.filter (fun x => !atomLocal sc x.1)).map (fun x => (x.1, (match f.act with | .atom _ _ t _ _ _ => t.bits / 8 | _ => 0)))))

/-! ### Fences and wait -/

/-- Whether a fence acquires, and releases. -/
def ordAcquires : Ord → Bool
  | .acq | .ar => true
  | _ => false
def ordReleases : Ord → Bool
  | .rel | .ar => true
  | _ => false

/-- `fence` (R203, R217, R218). -/
def execFence (g : Guard) (sc : Scope) (ord : Ord) (s : State) : Out :=
  runInstr (.fence g sc ord) s (fun s w _ =>
    let done (t : State) : Out :=
      if ordAcquires ord then
        (if counter t w.uid .ld = 0 then goOn (acquireAt (squashOrder t w) w.die w.core sc) w.uid else .next t)
      else goOn t w.uid
    if ordReleases ord then afterRelease s w (beyondCore sc) done else done s)

/-- Every named counter is at or below its threshold (R204). -/
def countersMeet (s : State) (uid : Nat) (ths : List (Cls × Option Nat)) : Bool :=
  ths.all (fun t => match t.2 with | some n => decide (counter s uid t.1 ≤ n) | none => true)

/-- The shared wait: forks with early loads are squashed, st = 0 flushes and waits for the merges (R133, R204, R242). -/
def waitBody (s : State) (w : Wave) (ths : List (Cls × Option Nat)) (k : State → Out) : Out :=
  let drain := ths.contains (.st, some 0)
  let s1 := squashOrder (if drain then flushOwn s w else s) w
  if countersMeet s1 w.uid ths && !(drain && mergesOut s1 w.uid) then k s1 else .next s1

/-- `wait` (R204). -/
def execWait (g : Guard) (ld st cp mx tx : Option Nat) (s : State) : Out :=
  runInstr (.wait g ld st cp mx tx) s (fun s w _ =>
    waitBody s w [(.ld, ld), (.st, st), (.cp, cp), (.mx, mx), (.tx, tx)] (fun t => goOn t w.uid))

/-! ### Host AtomicOps -/

/-- HOST_ATOMIC: performed at the home slice, 4 or 8 bytes of device memory (R201, R224). -/
def execHostAtomic (op : HostOp) (pa size : Nat) (x y : W64) (s : State) : Out :=
  if !(isMain pa) then .fault (.noSuchAddress pa)
  else if s.poison.contains (pa / 32) then .next s
  else
    afterLazy s [(pa, size)] (fun _ => true) (
      let old := memNat s.mem pa size
      let new := match op with
        | .fetchAdd => (old + x.toNat) % 2 ^ (8 * size)
        | .swap => x.toNat % 2 ^ (8 * size)
        | .cas => if old = x.toNat % 2 ^ (8 * size) then y.toNat % 2 ^ (8 * size) else old
      .next (hostWrite s pa (leBytes size new)))

end Sys2Proof.Machine
end

