-- ==== Sys2Proof/Machine/Barrier.lean ====
section
/-!
DEFINITION. Barrier objects in scratchpad (R205 to R208).
-/
namespace Sys2Proof.Machine

/-- A barrier object (R205). -/
structure BarObj where
  ovr    : Bool
  reload : Nat
  await  : Nat
  phase  : Nat
  bytes  : W64
deriving DecidableEq, Repr

def barOfBytes (bs : List Byte) : BarObj :=
  let w0 := leNat (bs.take 8)
  { ovr := bitAt w0 32, reload := field w0 31 22, await := field w0 21 12, phase := field w0 11 0,
    bytes := BitVec.ofNat 64 (leNat (bs.drop 8)) }
def barToBytes (b : BarObj) : List Byte :=
  leBytes 8 ((if b.ovr then 2 ^ 32 else 0) + 2 ^ 22 * b.reload + 2 ^ 12 * b.await + b.phase) ++ leBytes 8 b.bytes.toNat

/-- A change that leaves AWAIT = 0 and BYTES = 0 completes the phase in the same step (R207). -/
def barSettle (b : BarObj) : BarObj :=
  if b.await = 0 ∧ b.bytes = 0 then { b with phase := (b.phase + 1) % 4096, await := b.reload } else b

/-- One operation at the keeper (R206, R207). -/
def barApply (b : BarObj) : BarOp → BarObj
  | .init n => { ovr := false, reload := n, await := n, phase := 0, bytes := 0 }
  | .arr n => barSettle (if b.await < n then { b with await := 0, ovr := true } else { b with await := b.await - n })
  | .exp n => barSettle { b with bytes := b.bytes + n }

/-- The keeper applies an operation to the object at an offset of a wave's allocation. -/
def barAt (s : State) (uid off : Nat) : BarObj := barOfBytes (padRead s uid off 16)

/-- A completed phase releases the owner's `bar.wait` on the object when its p differs from the new PHASE (R207). -/
def barFree (s : State) (uid off phase : Nat) : State :=
  { s with
    waves := s.waves.map (fun w => match w.barHold with
      | some h => if w.uid == uid && h.off == off && !(h.phase == phase) then { w with barHold := some { h with released := true } } else w
      | none => w) }

/-- The object takes a new value; a change that completed its phase releases waiters. -/
def barPut (s : State) (uid off : Nat) (new : BarObj) (completed : Bool) : State :=
  let s1 := padWrite s uid off (barToBytes new)
  if completed then barFree s1 uid off new.phase else s1
def barDo (s : State) (uid off : Nat) (op : BarOp) : State :=
  let b := barAt s uid off
  let n := barApply b op
  barPut s uid off n (!(n.phase == b.phase) && (match op with | .init _ => false | _ => true))

/-- Address of a barrier: an own offset or a peer handle; `early` is a cause of R143's fourth place (R206). -/
def barAddr (s : State) (w : Wave) (peer : Bool) (a : W64) (early : Bool) : Except LaneFault (Nat × Nat) :=
  let p := if peer then field a.toNat 31 0 else a.toNat
  if p % 16 ≠ 0 then .error { cause := cMisalign, addr := p, detail := 16 }
  else if early then .error { cause := cBounds, addr := (gpc w).toNat, detail := 0 }
  else if peer then peerAt s w a 0 16
  else if w.foot.spad ≤ p then .error { cause := cBounds, addr := p, detail := 0 }
  else .ok (w.uid, p)

/-- The shared body of the counted barrier operations: counter, checks, then an operation in flight (R194, R208). Its object's bytes change as by
a store of the wave, and a fork that has read them is squashed (R139, R230; log 117). -/
def barBody (o : Ops) (bad : Bool) (release : Bool) (op : BarOp) (s : State) (w : Wave) : Out :=
  if 63 ≤ counter s w.uid .st then stall s
  else
    match barAddr s w (bitAt o.x 0) (rdS w o.a) bad with
    | .error e => .next (raiseDrill s w e.cause e.addr e.detail)
    | .ok (uid, off) =>
      let own : Acc := { lane := 0, loc := .pad uid off, va := off, page := pageNormal }
      let go (t : State) : Out := goOn (squashStores (addMem t (whoOf w) (some .st) (.bar uid off op)) w (gang w) [(own, 16)]) w.uid
      if release then afterRelease s w true go else go s

/-- Operand of a barrier instruction, 64 bits (R206). -/
def barArg (w : Wave) (o : Ops) : Nat := opB w o .b64 0
def badCount (n : Nat) : Bool := n == 0 || decide (1023 < n)

def execBarInit (o : Ops) (s : State) : Out :=
  runInstr (.barInit o) s (fun s w _ => barBody o (badCount (barArg w o)) false (.init (barArg w o)) s w)
def execBarArr (o : Ops) (s : State) : Out :=
  runInstr (.barArr o) s (fun s w _ => barBody o (badCount (barArg w o)) true (.arr (barArg w o)) s w)
def execBarExp (o : Ops) (s : State) : Out :=
  runInstr (.barExp o) s (fun s w _ => barBody o false true (.exp (BitVec.ofNat 64 (barArg w o))) s w)

/-- `bar.wait`: the gang waits while PHASE = p, after the wave's own operations on the object, or until a phase's completion has released
it; then it acquires at `.quad` (R206 to R208). -/
def execBarWait (o : Ops) (s : State) : Out :=
  runInstr (.barWait o) s (fun s w _ =>
    match barAddr s w false (rdS w o.a) false with
    | .error e => .next (raiseDrill s w e.cause e.addr e.detail)
    | .ok (uid, off) =>
      let s1 := squashOrder s w
      let own : Acc := { lane := 0, loc := .pad uid off, va := 0, page := pageNormal }
      let p := barArg w o % 4096
      let hold (h : Option BarHold) (t : State) : State := updHolder t w.uid (fun x => { x with barHold := h })
      let mine := match w.barHold with | some h => h.off == off && h.phase == p | none => false
      let free := match w.barHold with | some h => mine && h.released | none => false
      if pathBusy s1 w.uid s1.nextFid [(own, 16)] then .next s1
      else if (barAt s1 uid off).phase == p && !free then
        .next (if mine then s1 else hold (some { off := off, phase := p, released := false }) s1)
      else goOn (acquireAt (hold none s1) w.die w.core .quad) w.uid)

/-- BARRIER_OPERATION: the keeper applies an operation in its wave's order (R207, R208). -/
def execBarrierOperation (fid : Nat) (s : State) : Out :=
  onFlight s fid (fun f =>
    match f.act with
    | .bar uid off op => if pathBusy s f.who.uid f.id (actAccs f.act) then .next s else .next (endFlight (barDo s uid off op) f)
    | _ => .next s)

end Sys2Proof.Machine
end

