-- ==== Sys2Proof/Machine/Weight.lean ====
section
/-!
DEFINITION. Weight and records in transit (R355, R363 to R365, R372 to R376): splitting, pools and draws, ring room, sending.
-/
namespace Sys2Proof.Machine

/-- A full launch's weight (R372). -/
def fullWeight : Nat := 2 ^ 64

/-! ### Draws -/

/-- A quad's pool of a launch (R375). -/
def poolOf (s : State) (q launch : Nat) : Nat := (((quadAt s q).pools.find? (fun p => p.1 == launch)).map (fun p => p.2)).getD 0
def setPool (s : State) (q launch amount : Nat) : State :=
  let x := quadAt s q
  putQuad s q { x with pools := putBy (fun p => p.1 == launch) (launch, amount) x.pools }

/-- Launches with a pool on the quad, or with a draw on its way that opens one. -/
def poolLaunches (s : State) (q : Nat) : List Nat :=
  ((quadAt s q).pools.map (fun p => p.1) ++
   s.flights.filterMap (fun f => match f.act with | .draw q' l none => if q' == q then some l else none | _ => none)).eraseDups

/-- Whether the quad has, or can open, a pool for the launch: 16 launches at most (R375). -/
def poolable (s : State) (q launch : Nat) : Bool := (poolLaunches s q).contains launch || decide ((poolLaunches s q).length < 16)

/-- Whether a draw for the quad and launch is already on its way. -/
def drawing (s : State) (q launch : Nat) : Bool :=
  s.flights.any (fun f => match f.act with | .draw q' l _ => q' == q && l == launch | _ => false)

/-- Give a wave more than one unit: from the pool, or after a draw from the root, for which it waits (R374, R375). -/
def withUnits (s : State) (w : Wave) (k : State → Wave → Out) : Out :=
  if !(w.weight == 1) then k s w
  else
    let q := quadOf w.die w.core
    if 2 ^ 56 ≤ poolOf s q w.launch then k (setPool s q w.launch (poolOf s q w.launch - 2 ^ 56)) { w with weight := w.weight + 2 ^ 56 }
    else if drawing s q w.launch then stall s
    else .next (addFlight s (whoOf w) none (.draw q w.launch (if poolable s q w.launch then none else some w.uid)) none)

/-- Half of a weight goes with a record, rounded down (R374). -/
def halfOf (g : Nat) : Nat := g / 2

/-- DRAW: the root lends min(2^60, floor(home / 2)) to the pool once home is at least 2, or 2^56 to a wave once it holds them (R375). -/
def execDraw (fid : Nat) (s : State) : Out :=
  onFlight s fid (fun f =>
    match f.act with
    | .draw q num uid =>
      match findLaunch s num with
      | none => .next (dropFlight s fid)
      | some l =>
        if l.home < (if uid.isSome then 2 ^ 56 else 2) then .next s
        else
          let amount := if uid.isSome then 2 ^ 56 else min (2 ^ 60) (l.home / 2)
          let s1 := dropFlight (putLaunch s { l with home := l.home - amount }) fid
          match uid with
          | none => .next (setPool s1 q num (poolOf s1 q num + amount))
          | some u =>
            if (findWave s1 u).isSome then .next (updHolder s1 u (fun w => { w with weight := w.weight + amount }))
            else .next (returnWeight s1 (q / 32) l.asid num amount)
    | _ => .next s)

/-! ### Records on their way -/

/-- Records in transit to a queue (R365). -/
def inTransit (s : State) (die asid node : Nat) : Nat :=
  (s.flights.filter (fun f => match f.act with
    | .record d r _ => d == die && r.asid == asid && r.node == node
    | _ => false)).length
def batchLoad (s : State) (die asid node : Nat) : Nat :=
  (s.flights.map (fun f => match f.act with
    | .batch d a n rs => if d == die && a == asid && n == node then rs.length else 0
    | _ => 0)).sum

/-- Whether one more record may be sent: a kernel node's ring holds a place for every record in transit; a sink never makes a
sender wait (R354, R364, R365). -/
def ringRoom (s : State) (die asid node : Nat) : Bool :=
  match nodeOf s asid node with
  | none => true
  | some n =>
    !n.valid || n.sink ||
    decide ((queueAt s die asid node).ring.length + batchLoad s die asid node + inTransit s die asid node < 2 ^ n.log2)

/-- A record leaves for a die's queue (R363, R378). -/
def sendRecord (s : State) (who : Who) (die : Nat) (r : Record) : State := addFlight s who none (.record die r false) none

/-- A record of a launch with a payload. -/
def mkRecord (asid node launch depth weight : Nat) (quad : Option Nat) (pay : List W32) : Record :=
  { asid := asid, node := node, launch := launch, depth := depth, weight := weight, quad := quad, seq := none, pay := pay,
    rerun := false, bypass := 0, avoid := none }

/-- Draw of a unit for a fixed-function unit's share: 2^56 from the launch's root when only one unit remains; it waits until the root
holds them (R249, R331). -/
def unitShare (s : State) (launch share : Nat) : Option (State × Nat) :=
  if !(share == 1) then some (s, share)
  else
    match findLaunch s launch with
    | none => some (s, share)
    | some l => if l.home < 2 ^ 56 then none else some (putLaunch s { l with home := l.home - 2 ^ 56 }, share + 2 ^ 56)

end Sys2Proof.Machine
end

