-- ==== Sys2Proof/Machine/Estimator.lean ====
section
/-!
DEFINITION. Estimator cells, regions, the combining buffer, the units and the keepers (R233 to R257).
-/
namespace Sys2Proof.Machine

/-! ### Cells (R233) -/

/-- A cell: mean, spread and weight as FP32 patterns, sample count, epoch, pending request. -/
structure Cell where
  m : Nat
  s : Nat
  w : Nat
  n : Nat
  g : Nat
  q : Bool
deriving DecidableEq, Repr

def cellOf (m : Mem) (pa : Nat) : Cell :=
  let hi := memNat m (pa + 12) 4
  { m := memNat m pa 4, s := memNat m (pa + 4) 4, w := memNat m (pa + 8) 4, n := field hi 23 0, g := field hi 30 24, q := bitAt hi 31 }
def cellBytes (c : Cell) : List Byte :=
  leBytes 4 c.m ++ leBytes 4 c.s ++ leBytes 4 c.w ++ leBytes 4 (c.n + 2 ^ 24 * c.g + (if c.q then 2 ^ 31 else 0))
def putCell (s : State) (pa : Nat) (c : Cell) : State := putMem s pa (cellBytes c)

/-- Mean and spread of an empty cell read as +0 (R233). -/
def emptied (c : Cell) : Cell := if f32IsZero c.w then { c with m := 0, s := 0 } else c

/-- ((256 - DEC) / 256) ^ age, rounded once (R237). -/
def decayFactor (dec age : Nat) : Nat := rn32 (.num false ((256 - dec) ^ age) (-(8 * age : Nat)) false)

/-- Touch: the cell is brought to the epoch (R237). -/
def touch (dec epoch : Nat) (c0 : Cell) : Cell :=
  let c := emptied c0
  let age := (epoch + 128 - c.g) % 128
  if 64 ≤ age then { m := 0, s := 0, w := 0, n := 0, g := epoch, q := false }
  else if 0 < age then
    let f := decayFactor dec age
    emptied { c with w := f32Mul c.w f, s := f32Mul c.s f, g := epoch, q := false }
  else { c with g := epoch }

/-- The merge (R238): held a, incoming b. -/
def mergePart (a b : Partial) : Partial :=
  let w := f32Add a.w b.w
  if f32IsZero w then a
  else
    let d := f32Sub b.m a.m
    let t := f32Div b.w w
    { m := f32Add a.m (f32Mul d t), s := f32Add (f32Add a.s b.s) (f32Mul (f32Mul d d) (f32Mul a.w t)), w := w,
      n := min (a.n + b.n) 16777215 }
def partialOf (c : Cell) : Partial := { m := c.m, s := c.s, w := c.w, n := c.n }
def withPartial (c : Cell) (p : Partial) : Cell := { c with m := p.m, s := p.s, w := p.w, n := p.n }
def emptyPart : Partial := { m := 0, s := 0, w := 0, n := 0 }

/-! ### Regions (R235, R236) -/

/-- The lowest-numbered valid region that holds an address, with the cell's index. -/
def findRegion (s : State) (asid ea : Nat) : Option (Nat × Region × Nat) :=
  match findCtx s asid with
  | none => none
  | some c =>
    (c.regions.mapIdx (fun i r => (i, r))).findSome? (fun p =>
      if p.2.valid && decide (p.2.base ≤ ea ∧ ea < p.2.base + 16 * p.2.count) then some (p.1, p.2, (ea - p.2.base) / 16) else none)

/-- EPOCH, LEFT, OVF and SFILL of a region go to its descriptor, under the attributes of its page (R179, R234, R254, R255). -/
def writeRegion (s : State) (asid i : Nat) (r : Region) : State :=
  let pg := pageAt s asid ((match findCtx s asid with | some c => c.regt.toNat | none => 0) + 64 * i)
  let w1 := memNat s.mem (r.desc + 8) 8
  let w1' := w1 / 2 ^ 31 * 2 ^ 31 + (if r.ovf then 2 ^ 30 else 0) + field w1 29 7 * 2 ^ 7 + r.epoch
  memWrite (memWrite (memWrite s pg (r.desc + 8) (leBytes 8 w1')) pg (r.desc + 28) (leBytes 4 r.left)) pg (r.desc + 44) (leBytes 4 r.sfill)
def setRegion (s : State) (asid i : Nat) (r : Region) : State := writeRegion (updRegion s asid i (fun _ => r)) asid i r

/-- Die of a region's keeper (R236, R249). -/
def keeperDie (r : Region) : Nat := homeDie r.desc

/-- A cell is written at its home; the line is in the home slice (R179). -/
def homeCell (s : State) (c : CellRef) (r : Region) (x : Cell) : State :=
  l2Access (putCell s c.pa x) (pageAt s c.asid (r.base + 16 * c.idx)) true c.pa 16

/-- Rank of an operation's source at a cell: the cores of the unit's own die, its units, then the other dies (R243). A fold comes from a unit;
of another die R243 ranks the die alone, and its cores are ranked as at home (log 129). -/
def sourceRank (f : Flight) (pa : Nat) : Nat :=
  (if f.who.die = homeDie pa then 0 else 256 * (f.who.die + 1)) + (match f.act with | .fold _ _ _ => 128 | _ => f.who.core)

/-- Operations on one cell in one cycle of its unit come in ascending rank: one behind a higher rank comes in a later cycle (R243). -/
def cellTurn (s : State) (f : Flight) (c : CellRef) : Bool :=
  (quadAt s (homeQuad c.pa)).cells.all (fun o => !(o.pa == c.pa && o.cycle == quadCycle s (homeQuad c.pa)) || decide (o.rank ≤ sourceRank f c.pa))

/-- The unit notes what it applies to a cell, and forgets what it applied in older cycles. -/
def noteCell (s : State) (f : Flight) (c : CellRef) : State :=
  let q := homeQuad c.pa
  let x := quadAt s q
  putQuad s q { x with
    cells := { pa := c.pa, asid := c.asid, region := c.region, cycle := quadCycle s q, rank := sourceRank f c.pa } ::
      x.cells.filter (fun o => o.cycle == quadCycle s q && !(o.pa == c.pa)) }

/-- A unit has applied an operation on a cell of the region in this cycle: a notice that came with it would have been first (R243). -/
def regionTouched (s : State) (asid region : Nat) : Bool :=
  s.quads.any (fun k => k.2.cells.any (fun o => o.asid == asid && o.region == region && o.cycle == quadCycle s k.1))

/-- One operation on a cell at its unit: touch under the epoch the unit knows, then the operation (R243). -/
def atCell (s : State) (w : Flight) (c : CellRef) (f : Cell → Cell) : State :=
  match regionOf s c.asid c.region with
  | none => s
  | some r => homeCell (noteCell s w c) c r (f (touch r.dec r.known (cellOf s.mem c.pa)))

/-! ### Lanes of an estimator instruction -/

/-- A lane's cell: alignment, region, translation, permission, type (R143, R250). -/
def cellAt (s : State) (w : Wave) (o : Ops) (k : AKind) (lane : Nat) : Except LaneFault (Nat × CellRef × Region) :=
  let ea := (eaOf w o (o.x % 8) lane).toNat
  if ea % 16 ≠ 0 then .error { cause := cMisalign, addr := ea, detail := 16 }
  else
    match findRegion s w.asid ea with
    | none => .error { cause := cBounds, addr := ea, detail := 0 }
    | some (i, r, idx) =>
      (checkPage s w.asid false k ea 16).map (fun p => (lane, { asid := w.asid, region := i, idx := idx, pa := p.1 }, r))

/-- The frame of the four instructions: counter, checks, body on the lanes' cells. -/
def estBody (o : Ops) (k : AKind) (cls : Cls) (s : State) (w : Wave) (ls : List Nat)
    (body : State → List (Nat × CellRef × Region) → Out) : Out :=
  if 63 ≤ counter s w.uid cls then stall s
  else
    match gather (cellAt s w o k) ls with
    | .error es => .next (raiseLanes s w es)
    | .ok cs => body (ls.foldl (fun st l => tlbFill st w.asid (eaOf w o (o.x % 8) l).toNat) s) cs

/-- Screen of a lane's weight: dropped with NV, dropped, or kept (R251). -/
def screen (p : Partial) : Option Partial × Bool :=
  if f32IsNan p.w ∨ f32Lt p.w 0 ∨ p.w = 0x7F800000 then (none, true)
  else if f32IsZero p.w then (none, false)
  else (some p, false)
def sampleOf (w : Wave) (o : Ops) (l : Nat) : Partial := { m := (rdV w l o.d).toNat, s := 0, w := (rdV w l (o.d + 1)).toNat, n := 1 }
def partOf (w : Wave) (o : Ops) (l : Nat) : Partial :=
  { m := (rdV w l o.d).toNat, s := (rdV w l (o.d + 1)).toNat, w := (rdV w l (o.d + 2)).toNat, n := (rdV w l (o.d + 3)).toNat % 2 ^ 24 }

/-- One lane combines into the buffer: into the entry of its cell, known by its physical address, and epoch, or a new one; the earliest
entry makes room (R239 to R241). -/
def ecbAdd (s : State) (w : Wave) (c : CellRef) (epoch : Nat) (p : Partial) : State :=
  let k := coreAt s w.die w.core
  let mine (e : EcbEnt) : Bool := e.cell.pa == c.pa && e.cell.asid == c.asid && e.epoch == epoch
  if k.ecb.any mine then
    putCore s w.die w.core { k with ecb := k.ecb.map (fun e =>
      if mine e then { e with part := mergePart e.part p, waves := insNat w.wctx e.waves, since := coreClock s w.die w.core } else e) }
  else
    let new : EcbEnt := { cell := c, epoch := epoch, part := mergePart emptyPart p, waves := [w.wctx], since := coreClock s w.die w.core }
    if k.ecb.length < 64 then putCore s w.die w.core { k with ecb := k.ecb ++ [new] }
    else
      let s1 := putCore s w.die w.core { k with ecb := k.ecb.drop 1 ++ [new] }
      match k.ecb with
      | e :: _ => flushEntry s1 w.die w.core e [] none
      | [] => s1

/-- Numbers of ordered regions named by active lanes (R245). -/
def orderedNamed (cs : List (Nat × CellRef × Region)) : List Nat :=
  ((cs.filter (fun c => c.2.2.ord)).map (fun c => c.2.1.region)).eraseDups

/-- `est.add` and `est.mrg` (R240, R245, R251): screened lanes go to the buffer or to the keepers; SEQ counts each region named. -/
def estAddBody (o : Ops) (val : Wave → Nat → Partial) (s : State) (w : Wave) (ls : List Nat) : Out :=
  estBody o .estWrite .st s w ls (fun s cs =>
    let kept := cs.filterMap (fun c => (screen (val w c.1)).1.map (fun p => (c, p)))
    let w1 := if cs.any (fun c => (screen (val w c.1)).2) then orFlags w flNV else w
    let w2 := { w1 with seqs := (orderedNamed cs).foldl (fun m r => stSet 0 r ((stGet 0 r m + 1) % 2 ^ 24) m) w1.seqs }
    let s1 := (kept.filter (fun k => !k.1.2.2.ord)).foldl (fun st k => ecbAdd st w k.1.2.1 k.1.2.2.known k.2) s
    let recs := (kept.filter (fun k => k.1.2.2.ord)).map (fun k =>
      (k.1.2.1, ({ part := k.2, lane := k.1.1, cell := k.1.2.1.idx, seq := stGet 0 k.1.2.1.region w.seqs, widx := w.widx,
                   lno := w.launch % 2 ^ 32 } : Staged)))
    if kept.isEmpty then finish s1 w2
    else finish (addMem s1 (whoOf w) (some .st) (if recs.isEmpty then .nop else .stage recs)) w2)

def execEstAdd (o : Ops) (s : State) : Out := runInstr (.estAdd o) s (estAddBody o (fun w l => sampleOf w o l))
def execEstMrg (o : Ops) (s : State) : Out := runInstr (.estMrg o) s (estAddBody o (fun w l => partOf w o l))

/-- Bytes of cells that an instruction changes in the wave's program order, for the forks that have read them (R139; log 117). -/
def cellsChanged (cs : List (Nat × CellRef × Region)) : List (Acc × Nat) :=
  cs.map (fun c => ({ (cellAcc c.2.1).1 with va := c.2.2.base + 16 * c.2.1.idx }, 16))

/-- `est.clr`: the core's entries for the cells flush first (R241, R252). -/
def execEstClr (o : Ops) (s : State) : Out :=
  runInstr (.estClr o) s (fun s w ls => estBody o .estWrite .st s w ls (fun s cs =>
    let cells := cs.map (fun c => c.2.1)
    let s1 := flushWhere s w.die w.core (fun e => cells.any (fun c => c.pa == e.cell.pa)) [] none
    goOn (squashStores (addMem s1 (whoOf w) (some .st) (.estClr cells)) w (gang w) (cellsChanged cs)) w.uid))

/-- Split a wave's weight for each of some regions (R249, R374). -/
def splitFor (s : State) (w : Wave) (rs : List Nat) (k : State → Wave → List (Nat × Nat) → Out) : Out :=
  match rs with
  | [] => k s w []
  | r :: rest => withUnits s w (fun s w =>
      let h := halfOf w.weight
      splitFor s { w with weight := w.weight - h } rest (fun s w shares => k s w ((r, h) :: shares)))

/-- `est.ld` (R247 to R250): without `.nr`, a share of weight travels for each region with RS = 1, whose cells may get a pending request. -/
def execEstLd (o : Ops) (s : State) : Out :=
  runInstr (.estLd o) s (fun s w ls => estBody o .estRead .ld s w ls (fun s cs =>
    let nr := bitAt o.x 3
    let rs := if nr then [] else ((cs.filter (fun c => c.2.2.rs)).map (fun c => c.2.1.region)).eraseDups
    splitFor s w rs (fun s w shares =>
      goOn (squashStores (putWave (addMem s (whoOf w) (some .ld) (.estLd w.uid o.d nr (cs.map (fun c => (c.1, c.2.1))) shares)) w) w (gang w)
        (cellsChanged (cs.filter (fun c => rs.contains c.2.1.region)))) w.uid)))

/-! ### At the home -/

/-- Older operations of the same core that must arrive first: merges to the same home, whatever names the same cell, and for a merge an
`est.ld` of the cell by a wave whose samples it carries (R48, R241, R252). -/
def cellBusy (s : State) (f : Flight) (c : CellRef) (isMerge : Bool) : Bool :=
  s.flights.any (fun g => decide (g.id < f.id) && !g.held && g.who.die == f.who.die && g.who.core == f.who.core &&
    (match g.act with
     | .merge c' _ _ _ => c'.pa == c.pa || (isMerge && homeQuad c'.pa == homeQuad c.pa)
     | .estClr cs => cs.any (fun x => x.pa == c.pa)
     | .estLd _ _ _ cs _ => cs.any (fun x => x.2.pa == c.pa) && (match f.act with | .merge _ _ ws _ => ws.contains g.who.uid | _ => false)
     | _ => false))

/-- FLUSH: an entry into which no lane was combined for 4,096 cycles (R241, point 8). -/
def execFlush (die core entry : Nat) (s : State) : Out :=
  let k := coreAt s die core
  match k.ecb[entry]? with
  | none => .next s
  | some e =>
    if 4096 ≤ cyclesSince s die core e.since then
      .next (flushEntry (putCore s die core { k with ecb := k.ecb.eraseIdx entry }) die core e [] none)
    else .next s

/-- MERGE (R243): the unit applies a partial to its cell. -/
def execMerge (fid : Nat) (s : State) : Out :=
  onFlight s fid (fun f =>
    match f.act with
    | .merge c p _ _ =>
      if cellBusy s f c true || !cellTurn s f c then .next s
      else .next (dropFlight (atCell s f c (fun x => withPartial x (mergePart (partialOf x) p))) fid)
    | _ => .next s)

/-- Cells of an `est.clr` or `est.ld` that are not to be touched yet. -/
def cellsWait (s : State) (f : Flight) (cs : List CellRef) : Bool := cs.any (fun c => cellBusy s f c false || !cellTurn s f c)

/-- `est.clr` at the homes (R252); two cells of one sector cover it (R406; log 113). -/
def performClr (s : State) (f : Flight) (cs : List CellRef) : State :=
  healHome (cs.foldl (fun st c => match regionOf st c.asid c.region with
    | none => st
    | some r => homeCell (noteCell st f c) c r { m := 0, s := 0, w := 0, n := 0, g := r.known, q := false }) s) (cs.map (fun c => (c.pa, 16)))

/-- The standard error (R247). -/
def stdErr (c : Cell) : Nat :=
  if f32IsNan c.w ∨ f32IsNan c.s then 0x7FC00000
  else if f32Lt 0x3F800000 c.w then f32Sqrt (f32Div c.s (f32Mul c.w (f32Sub c.w 0x3F800000)))
  else 0x7F800000

/-- Whether the values raise a reseed request (R248). -/
def wantsReseed (r : Region) (nr : Bool) (c : Cell) : Bool :=
  !nr && r.rs && !c.q &&
  (f32Lt (f32Mul (fConvert fmtF16 fmtF32 envRN envRN r.rho.toNat).1 (f32Abs c.m)) (stdErr c) || f32Lt c.w r.minw.toNat)

/-- One lane of `est.ld`: touch, values, request (R247, R248); a poisoned cell gives no values (R406; log 112). -/
def estLdLane (s : State) (f : Flight) (nr : Bool) (c : CellRef) : State × List Nat × Option (CellRef × W32 × W32 × W32 × Nat) :=
  match regionOf s c.asid c.region with
  | none => (s, [0, 0, 0], none)
  | some r =>
    if s.poison.contains (c.pa / 32) then (s, [], none)
    else
    let x := touch r.dec r.known (cellOf s.mem c.pa)
    let want := wantsReseed r nr x
    (homeCell (noteCell s f c) c r { x with q := x.q || want }, [x.m, stdErr x, x.w],
      if want then some (c, BitVec.ofNat 32 x.w, BitVec.ofNat 32 (stdErr x), BitVec.ofNat 32 x.m, r.known) else none)

/-- Lanes of an `est.ld` whose cell is poisoned, as accesses at the cell (R151, R406; log 112). -/
def estBad (s : State) (cells : List (Nat × CellRef)) : List Acc :=
  cells.filterMap (fun c => match regionOf s c.2.asid c.2.region with
    | none => none
    | some r => if s.poison.contains (c.2.pa / 32) then
        some { lane := c.1, loc := .mem c.2.pa, va := r.base + 16 * c.2.idx, page := pageNormal } else none)

/-- All lanes in ascending order and in one step, at whatever homes; the requests of each region go to its keeper with the share in that order,
where R249 has the order of arrival (R248, R249; log 46). -/
def performEstLd (s : State) (f : Flight) (uid reg : Nat) (nr : Bool) (cells : List (Nat × CellRef)) (shares : List (Nat × Nat)) : State :=
  let r := cells.foldl (fun (st : State × List (CellRef × W32 × W32 × W32 × Nat)) c =>
    let x := estLdLane st.1 f nr c.2
    (updHolder x.1 uid (fun w => x.2.1.zipIdx.foldl (fun w v => wrV w c.1 (reg + v.2) (BitVec.ofNat 32 v.1)) w),
     match x.2.2 with | some q => st.2 ++ [q] | none => st.2)) (s, [])
  shares.foldl (fun st sh => addFlight st f.who none
    (.reseed f.who.asid sh.1 (r.2.filter (fun q => q.1.region == sh.1)) sh.2) none) (if (findWave r.1 f.who.uid).isSome then poisonLanes r.1 f.who 1 (estBad s cells) else r.1)

/-! ### Keepers -/

/-- Payload of a reseed record (R249). -/
def reseedPay (region : Nat) (q : CellRef × W32 × W32 × W32 × Nat) : List W32 :=
  [BitVec.ofNat 32 region, BitVec.ofNat 32 q.1.idx, q.2.1, q.2.2.1, q.2.2.2.1, BitVec.ofNat 32 q.2.2.2.2, 0, 0]

/-- RESEED_REQUEST: the keeper decides the next request of an instruction; with none left the share goes home (R248, R249, R365). -/
def execReseedRequest (fid : Nat) (s : State) : Out :=
  onFlight s fid (fun f =>
    match f.act with
    | .reseed asid region reqs share =>
      match reqs, regionOf s asid region with
      | [], _ => .next (returnWeight (dropFlight s fid) f.who.die asid f.who.launch share)
      | _ :: _, none => .next (setAct s f (.reseed asid region [] share))
      | q :: qs, some r =>
        if r.left = 0 then
          .next (setAct (homeCell s q.1 r { cellOf s.mem q.1.pa with q := false }) f (.reseed asid region qs share))
        else if !ringRoom s (keeperDie r) asid r.node then .next s
        else
          match unitShare s f.who.launch share with
          | none => .next s
          | some (s1, sh) =>
            let rec' := mkRecord asid r.node f.who.launch 0 (halfOf sh) none (reseedPay region q)
            .next (setAct (sendRecord (setRegion s1 asid region { r with left := r.left - 1 }) (whoNone (keeperDie r) asid f.who.launch)
              (keeperDie r) rec') f (.reseed asid region qs (sh - halfOf sh)))
    | _ => .next s)

/-- Bytes of a staged record (R245). -/
def stagedBytes (x : Staged) : List Byte :=
  leBytes 4 x.part.m ++ leBytes 4 x.part.s ++ leBytes 4 x.part.w ++ leBytes 3 x.part.n ++ leBytes 1 x.lane ++ leBytes 4 x.cell ++
  leBytes 4 x.seq ++ leBytes 4 x.widx ++ leBytes 4 x.lno
def stagedOf (bs : List Byte) : Staged :=
  let n (i k : Nat) : Nat := leNat ((bs.drop i).take k)
  { part := { m := n 0 4, s := n 4 4, w := n 8 4, n := n 12 3 }, lane := n 15 1 % 32, cell := n 16 4, seq := n 20 3, widx := n 24 4,
    lno := n 28 4 }

/-- Where a ring record stands, if its page is normal and writable (R246). -/
def ringSlot (s : State) (asid va : Nat) : Option Nat :=
  match checkPage s asid false .store va 4 with
  | .ok (pa, pg) => if pg.ptype == .normal then some pa else none
  | .error _ => none

/-- A record is written in the staging ring at its home. -/
def stagedWrite (asid va : Nat) (s : State) (pa : Nat) (bs : List Byte) : State :=
  memWrite s (pageAt s asid va) pa bs

/-- A dropped lane (R246): OVF, and ENGINE_ERR with the failing address. -/
def dropStaged (s : State) (f : Flight) (asid region : Nat) (r : Region) (lane addr : Nat) : State :=
  deferOrRecord (setRegion s asid region { r with ovf := true }) f.who 2 cEngineErr (laneMask [lane]) (BitVec.ofNat 64 addr) 3

/-- STAGE: the keeper appends the next lane's record of an instruction, after the wave's older operations on its cells (R48, R245, R246, R252);
the lanes come in ascending order (log 122). -/
def execStage (fid : Nat) (s : State) : Out :=
  onFlight s fid (fun f =>
    match f.act with
    | .stage [] => .next (endFlight s f)
    | .stage ((c, x) :: rest) =>
      if pathBusy s f.who.uid f.id (actAccs f.act) then .next s
      else
      let after (t : State) : State := if rest.isEmpty then endFlight t f else setAct t f (.stage rest)
      match regionOf s c.asid c.region with
      | none => .next (after s)
      | some r =>
        let va := r.stage + 32 * r.sfill
        if r.sfill = r.scap then .next (after (dropStaged s f c.asid c.region r x.lane (r.base + 16 * c.idx)))
        else
          match ringSlot s c.asid va with
          | none => .next (after (dropStaged s f c.asid c.region r x.lane va))
          | some pa => .next (after (stagedWrite c.asid va (setRegion s c.asid c.region { r with sfill := r.sfill + 1 }) pa (stagedBytes x)))
    | _ => .next s)

/-- Order of staged records: cell, then tag (R245, R255). -/
def stagedKey (x : Staged) : Nat := (((x.cell * 2 ^ 32 + x.lno) * 2 ^ 32 + x.widx) * 2 ^ 5 + x.lane) * 2 ^ 24 + x.seq
def insStaged (x : Staged) : List Staged → List Staged
  | [] => [x]
  | y :: r => if stagedKey x < stagedKey y then x :: y :: r else y :: insStaged x r
def sortStaged (xs : List Staged) : List Staged := xs.foldl (fun a x => insStaged x a) []

/-- The records staged so far, read from the ring. -/
def readStaged (s : State) (asid : Nat) (r : Region) : List Staged :=
  (List.range r.sfill).filterMap (fun i =>
    (ringSlot s asid (r.stage + 32 * i)).map (fun pa => stagedOf (memBytes s.mem pa 32)))

/-- Runs of one cell each (R255). -/
def runsOf (xs : List Staged) : List (Nat × List Staged) :=
  (xs.map (fun x => x.cell)).eraseDups.map (fun c => (c, xs.filter (fun x => x.cell == c)))

/-- First step of a close: the ring is emptied and each cell's run leaves for its home (R255). A run whose page fails is dropped and counted all
the same (log 53). -/
def closeStep (s : State) (f : Flight) (asid region : Nat) (r : Region) : State :=
  let runs := runsOf (sortStaged (readStaged s asid r))
  let s1 := setRegion s asid region { r with sfill := 0, ovf := false }
  runs.foldl (fun st run =>
    match checkPage st asid false .estWrite (r.base + 16 * run.1) 16 with
    | .ok (pa, _) => addFlight st (whoNone (keeperDie r) asid f.who.launch) none
        (.fold { asid := asid, region := region, idx := run.1, pa := pa } run.2 f.id) none
    | .error _ => st) s1

/-- FOLD: the home applies a run as one operation (R255). -/
def execFold (fid : Nat) (s : State) : Out :=
  onFlight s fid (fun f =>
    match f.act with
    | .fold c recs _ =>
      if !cellTurn s f c then .next s
      else .next (dropFlight (atCell s f c (fun x => recs.foldl (fun y q => withPartial y (mergePart (partialOf y) q.part)) x)) fid)
    | _ => .next s)

/-- EPOCH_NOTICE: units and cores take the new epoch; the region's buffer entries flush (R241, R243, R254). -/
def execEpochNotice (fid : Nat) (s : State) : Out :=
  onFlight s fid (fun f =>
    match f.act with
    | .notice asid region epoch cmd =>
      if regionTouched s asid region then .next s
      else
      let s1 := updRegion (dropFlight s fid) asid region (fun r => { r with known := epoch })
      .next (s1.cores.foldl (fun st k =>
        flushWhere st (k.1 / 128) (k.1 % 128) (fun e => e.cell.asid == asid && e.cell.region == region) [] (some cmd)) s1)
    | _ => .next s)

/-- Operations that a command still waits for. -/
def cmdBusy (s : State) (cmd : Nat) : Bool :=
  s.flights.any (fun g => match g.act with
    | .merge _ _ _ (some c) => c == cmd
    | .fold _ _ c => c == cmd
    | .notice _ _ _ c => c == cmd
    | _ => false)

/-- The next step of `est.adv` (R254) or `est.close` (R255) at the keeper. Phase 0 closes, 1 waits for the folds, 2 for the notice
and its merges. -/
def regionStep (s : State) (f : Flight) (asid region : Nat) (adv : Bool) (phase folded : Nat) (ovf : Bool) : State :=
  match regionOf s asid region with
  | none => endFlight s f
  | some r =>
    let older := s.flights.any (fun g => decide (g.id < f.id) && (match g.act with
      | .region a i _ _ _ _ => a == asid && i == region
      | _ => false))
    if older || cmdBusy s f.id then s
    else if phase = 0 && r.ord then setAct (closeStep s f asid region r) f (.region asid region adv 1 r.sfill r.ovf)
    else if phase < 2 && adv then
      let e := (r.epoch + 1) % 128
      let s1 := setRegion s asid region { r with epoch := e, left := r.budget }
      setAct (addFlight s1 (whoNone (keeperDie r) asid f.who.launch) none (.notice asid region e f.id) none) f
        (.region asid region adv 2 e ovf)
    else if adv then endFlight (reply s f (BitVec.ofNat 64 folded)) f
    else endFlight (reply s f (BitVec.ofNat 64 (folded + (if ovf then 2 ^ 32 else 0)))) f

/-- The shared body of the two commands (R253). -/
def regionBody (o : Cop) (adv : Bool) (s : State) (w : Wave) : Out :=
  let n := (rdS w o.sa).toNat
  if 63 ≤ counter s w.uid .st then stall s
  else
    match if n < 256 then regionOf s w.asid n else none with
    | none => .next (raisePc s w cBounds 0)
    | some r =>
      if !r.valid then .next (raisePc s w cBounds 0)
      else finish (addFlight s (whoOf w) (some .st) (.region w.asid n adv 0 0 false) (if o.rf then some (bankKey w o.rr) else none)) w

def execEstAdv (o : Cop) (s : State) : Out := runInstr (.estAdv o) s (fun s w _ => regionBody o true s w)
def execEstClose (o : Cop) (s : State) : Out := runInstr (.estClose o) s (fun s w _ => regionBody o false s w)

end Sys2Proof.Machine
end

