-- ==== Sys2Proof/Machine/Complete.lean ====
section
/-!
DEFINITION. LOAD_COMPLETION and STORE_COMPLETION (R48, R194, R195, R217, R223, R224, R242): an operation of the memory path is
performed where its bytes live, and its counter counts down.
-/
namespace Sys2Proof.Machine

/-- An older operation of the wave on the same bytes goes first (R48); a store that the L1 shows has had its turn. -/
def pathTurn (s : State) (f : Flight) (k : Out) : Out :=
  if f.vis.isNone && pathBusy s f.who.uid f.id (actAccs f.act) then .next s else k

/-- Lanes of an atomic with their sizes. -/
def atomRanges (f : Flight) : List (Nat × Nat) := memRanges (actAccs f.act)

/-- LOAD_COMPLETION (a weight-store read waits out its bank's refresh, R184): a load, an `atom` or an `est.ld` is performed and its registers are written (R82, R191, R194, R247). -/
def execLoadCompletion (fid : Nat) (s : State) : Out :=
  onFlight s fid (fun f =>
    match f.act with
    | .load d n as acq =>
      pathTurn s f (if as.any (weightWaits s f.who (acqHome acq)) || (acqHome acq && homeBusy s f (memRanges (actAccs f.act))) then .next s
        else afterLazy s (acqRanges s f.who n as acq) (acqMeets f acq) (.next (endFlight (performLoad s f d n as acq) f)))
    | .atom (some d) op t xs sc ord =>
      pathTurn s f (if atomBusy s f xs sc then .next s
        else afterLazy s (atomRanges f) (writeMeets f) (.next (performAtom s f (some d) op t xs sc ord)))
    | .estLd uid reg nr cells shares =>
      pathTurn s f (if cellsWait s f (cells.map (fun c => c.2)) then .next s
        else .next (endFlight (performEstLd s f uid reg nr cells shares) f))
    | .nop => if f.cls == some .ld then .next (endFlight s f) else .next s
    | _ => .next s)

/-- STORE_COMPLETION: a store, a `red`, an `est.clr` or a lazy release is performed; a region command takes its next step (R194,
R223, R224, R242, R254, R255). -/
def execStoreCompletion (fid : Nat) (s : State) : Out :=
  onFlight s fid (fun f =>
    match f.act with
    | .store n xs =>
      pathTurn s f (if homeBusy s f (memRanges (actAccs f.act)) || recordBusy s f (releaseRanges s f) then .next s
        else afterLazy s (memRanges (actAccs f.act) ++ releaseRanges s f) (writeMeets f)
          (.next (endPart (recordReleases (performStore s f n xs) f) f)))
    | .rel =>
      pathTurn s f (if recordBusy s f (releaseRanges s f) then .next s
        else afterLazy s (releaseRanges s f) (writeMeets f) (.next (endFlight (recordReleases s f) f)))
    | .atom none op t xs sc ord =>
      pathTurn s f (if atomBusy s f xs sc then .next s
        else afterLazy s (atomRanges f) (writeMeets f) (.next (performAtom s f none op t xs sc ord)))
    | .estClr cells =>
      pathTurn s f (if cellsWait s f cells then .next s else .next (endFlight (performClr s f cells) f))
    | .region asid r adv phase folded ovf => if replyBusy s f then .next s else .next (regionStep s f asid r adv phase folded ovf)
    | .nop => if f.cls == some .ld then .next s else .next (endFlight s f)
    | _ => .next s)

end Sys2Proof.Machine
end

