-- ==== Sys2Proof/Machine/Control.lean ====
section
/-!
DEFINITION. Branches, loops, divergence and the ends of lanes (R31 to R42, R105 to R120), and the events of a wave's gangs.
-/
namespace Sys2Proof.Machine

/-- Target of a direct branch (R105). -/
def target (w : Wave) {n : Nat} (off : BitVec n) : W64 := gpc w + (off.signExtend 64 <<< 2)

/-- `br` (R107). -/
def execBr (g : Guard) (n : Bool) (q : Nat) (off : BitVec 24) (s : State) : Out :=
  runInstr (.br g n q off) s (fun s w _ =>
    if rdQ w q != n then .next (putWave s (goTo w (target w off))) else finish s w)

/-- `jmp` (R107). -/
def execJmp (g : Guard) (off : BitVec 24) (s : State) : Out :=
  runInstr (.jmp g off) s (fun s w _ => .next (putWave s (goTo w (target w off))))

/-- The outcome of `brv` in one slice (R111): a mixed slice counts as not taken, and its taking lanes park at the target with copies of both
stacks; only a slice that takes the branch whole pops loop entries (R118; log 20). -/
def brvSlice (next tgt : W64) (takes : Nat → Bool) (sl : Slice) : Slice :=
  let t := sl.run.lanes.filter takes
  let f := sl.run.lanes.filter (fun l => !takes l)
  if f.isEmpty then { sl with run := partTo tgt sl.run }
  else if t.isEmpty then { sl with run := partSeq next sl.run }
  else { sl with run := partSeq next { sl.run with lanes := f }, parked := { sl.run with lanes := t, pc := tgt } :: sl.parked }

/-- `brv`: outcomes per slice, then the gang splits; parts that meet unite (R31, R111, R112). -/
def brvWave (w : Wave) (takes : Nat → Bool) (tgt : W64) : Wave :=
  let g := gang w
  let taken (i : Nat) : Bool := (sliceAt w i).run.lanes.all takes
  let w1 := updSlices w g (fun sl => unite (brvSlice w.npc tgt takes sl))
  mergeGangs (splitGang w1 [g.filter (fun i => !taken i), g.filter taken])

def execBrv (g : Guard) (n : Bool) (k : Nat) (off : BitVec 24) (s : State) : Out :=
  runInstr (.brv g n k off) s (fun s w ls =>
    .next (putWave s (brvWave w (fun l => ls.contains l && (rdK w k l != n)) (target w off))))

/-! ### Indirect branches -/

/-- Where a lane of `bri` goes: rank (0 for a false guard, entry + 1 otherwise) and target (R114). -/
structure BriLane where
  lane : Nat
  rank : Nat
  tgt  : W64
deriving DecidableEq, Repr

/-- Access of a lane to eight bytes of the table, as a load makes it (R114, R115). -/
def tableAcc (s : State) (w : Wave) (lane : Nat) (va : W64) : Except LaneFault Acc := memAcc s w .load (fun _ => va) 8 lane

/-- Such reads stop a shadow: the page is of a type that a continuation may not read (R132). -/
def tableStops (w : Wave) (as : List Acc) : Bool :=
  w.fork.isSome && as.any (fun a => a.page.ptype == .device || a.page.ptype == .weight)

/-- Such reads are not made now: an older access of the wave to the bytes is outstanding, or a bank is in refresh (R48, R184). -/
def tableWaits (s : State) (w : Wave) (as : List Acc) : Bool :=
  pathBusy s (whoOf w).uid s.nextFid (as.map (fun a => (a, 8))) || as.any (weightWaits s (whoOf w) false)

/-- Accesses of a table read whose packet arrives poisoned (R404): the first word's where `head`, else those of lanes' entries. -/
def tableLost (w : Wave) (head : Bool) (as : List Acc) : List Acc :=
  as.filter (fun a => w.lostRead == some (if head then 0 else a.lane + 1))

/-- Values of the table read in lane order, and the lanes that met poison (R404, R406). A continuation sees its held stores (R131), and a
table takes no entry of the fork load table, since no store of the launch may write it (R115; log 91). -/
def tableRead (s : State) (w : Wave) (head : Bool) (as : List Acc) : State × List (Nat × Nat) × List Acc :=
  let lost := tableLost w head as
  let s1 := if lost.isEmpty then s else updHolder s w.uid (fun x => { x with lostRead := none })
  let r := readAll (fillTlbs s1 w.asid as) (whoOf w) false 8 as
  (r.1, (r.2.1.filter (fun v => !lost.any (fun a => a.lane == v.1))).map (fun v => (v.1, match as.find? (fun a => a.lane == v.1) with
    | some a => forkOver (coreAt s w.die w.core).fsb w.uid a v.2 8
    | none => v.2)), as.filter (fun a => lost.contains a || r.2.2.contains a))

/-- Poison read from the table: deferred for the lanes that read it, and no lane moves (R115, R151; log 50). -/
def tablePoison (s : State) (w : Wave) (lanes : List Nat) (bad : List Acc) : State :=
  match bad with
  | [] => s
  | a :: _ =>
    if w.fork.isSome then stopShadow s w
    else deferOrRecord s (whoOf w) 1 cPoison (laneMask lanes) (BitVec.ofNat 64 a.va) 0

/-- Causes of the lanes of a `bri`, beside poison that has been read. -/
def tableFaults (s : State) (w : Wave) (es : List (Nat × LaneFault)) : State :=
  match findWave s w.uid with
  | some x => raiseLanes s x es
  | none => s

/-- Address of entry i. -/
def entryAt (tab : W64) (i : Nat) : W64 := tab + 16 + BitVec.ofNat 64 (8 * i)

/-- One lane's access to its entry: BOUNDS names the instruction, as R142 gives for control. -/
def entryAcc (s : State) (w : Wave) (tab : W64) (count lane idx : Nat) : Except LaneFault Acc :=
  if count ≤ idx then .error { cause := cBounds, addr := (gpc w).toNat, detail := 0 } else tableAcc s w lane (entryAt tab idx)

/-- One lane's target: alignment of its entry (R115). -/
def briEntry (tab : W64) (lane idx : Nat) (t : Nat) : Except LaneFault BriLane :=
  if t % 4 = 0 then .ok { lane := lane, rank := idx + 1, tgt := BitVec.ofNat 64 t }
  else .error { cause := cMisalign, addr := (entryAt tab idx).toNat, detail := 8 }

/-- Faults among lanes' results. -/
def faultsOf {α : Type} (rs : List (Nat × Except LaneFault α)) : List (Nat × LaneFault) :=
  rs.filterMap (fun r => match r.2 with | .error e => some (r.1, e) | .ok _ => none)
def valuesOf {α : Type} (rs : List (Nat × Except LaneFault α)) : List α :=
  rs.filterMap (fun r => match r.2 with | .error _ => none | .ok x => some x)

/-- The entries of lanes with indices (R114, R115): each lane raises the first cause it finds, and the branch is taken only when none does
(R143). `all` gives the lanes that a lane of this list stands for. Nothing when the reads have to wait. -/
def briTable (s : State) (w : Wave) (tab : W64) (count : Nat) (idx : Nat → Nat) (lanes : List Nat) (all : Nat → List Nat)
    (k : State → List BriLane → Out) : Option Out :=
  let rs := lanes.map (fun l => (l, entryAcc s w tab count l (idx l)))
  let as := valuesOf rs
  if tableStops w as then some (.next (stopShadow s w))
  else if tableWaits s w as then none
  else
    let r := tableRead s w false as
    let xs := r.2.1.map (fun v => (v.1, briEntry tab v.1 (idx v.1) v.2))
    let es := (faultsOf rs ++ faultsOf xs).flatMap (fun e => (all e.1).map (fun l => (l, e.2)))
    let t := tablePoison r.1 w (r.2.2.flatMap (fun a => all a.lane)) r.2.2
    if !es.isEmpty then some (.next (tableFaults t w ((List.range 32).flatMap (fun l => es.filter (fun e => e.1 == l)))))
    else if !r.2.2.isEmpty then some (.next t)
    else some (k t (valuesOf xs))

/-- Lanes of one slice with one target, ascending, with the lowest rank. -/
structure BriGroup where
  tgt   : W64
  rank  : Nat
  lanes : List Nat
deriving DecidableEq, Repr

def addGroup (gs : List BriGroup) (x : BriLane) : List BriGroup :=
  match gs with
  | [] => [{ tgt := x.tgt, rank := x.rank, lanes := [x.lane] }]
  | g :: r => if g.tgt = x.tgt then { g with rank := min g.rank x.rank, lanes := insNat x.lane g.lanes } :: r else g :: addGroup r x
def insGroup (g : BriGroup) : List BriGroup → List BriGroup
  | [] => [g]
  | h :: r => if g.rank < h.rank then g :: h :: r else h :: insGroup g r

/-- Groups in ascending rank. -/
def groupsOf (xs : List BriLane) : List BriGroup := (xs.foldl addGroup []).foldl (fun a g => insGroup g a) []

/-- The part a group's lanes become. Lanes with a false guard go on sequentially, and lanes whose entry names the next instruction go with
them: R114 groups them, and does not say which of R117 and R118 applies (log 95). -/
def briPart (next : W64) (p : Part) (g : BriGroup) : Part :=
  if g.rank = 0 then partSeq next { p with lanes := g.lanes } else partTo g.tgt { p with lanes := g.lanes }

/-- One slice of `bri` under K = 00: the lowest rank runs, the others park with the next-ranked on top (R114). -/
def briSlice (next : W64) (xs : List BriLane) (sl : Slice) : Slice :=
  match groupsOf (xs.filter (fun x => sl.run.lanes.contains x.lane)) with
  | [] => sl
  | g :: r => { sl with run := briPart next sl.run g, parked := r.map (briPart next sl.run) ++ sl.parked }

/-- Slices of a new gang, with the lowest rank among their running parts. -/
structure BriGang where
  rank   : Nat
  slices : List Nat
deriving DecidableEq, Repr

/-- A slice joins the gang that stands where its running part does (R30). -/
def addBriGang (w : Wave) (gs : List BriGang) (i rank : Nat) : List BriGang :=
  match gs with
  | [] => [{ rank := rank, slices := [i] }]
  | g :: r =>
    if samePlace (gangPart w g.slices) (sliceAt w i).run then { rank := min g.rank rank, slices := g.slices ++ [i] } :: r
    else g :: addBriGang w r i rank
def insBriGang (g : BriGang) : List BriGang → List BriGang
  | [] => [g]
  | h :: r => if g.rank < h.rank then g :: h :: r else h :: insBriGang g r

/-- The gang splits by where the running parts go, in ascending rank (R30, R32, R114). -/
def briWave (w : Wave) (xs : List BriLane) : Wave :=
  let g := gang w
  let rank (i : Nat) : Nat :=
    match groupsOf (xs.filter (fun x => (sliceAt w i).run.lanes.contains x.lane)) with
    | [] => 0
    | h :: _ => h.rank
  let w1 := updSlices w g (fun sl => unite (briSlice w.npc xs sl))
  let gs := (g.foldl (fun a i => addBriGang w1 a i (rank i)) []).foldl (fun a h => insBriGang h a) []
  mergeGangs (splitGang w1 (gs.map (fun h => h.slices)))

/-- What a `bri` does on the lanes whose guard is true, or nothing while its table's bytes are not to be read yet (R48, R184). -/
def briOut (vec : Bool) (a b : Nat) (s : State) (w : Wave) (ls : List Nat) : Option Out :=
  let tab := rdS w a
  let raise (e : LaneFault) : Option Out := some (.next (raiseLanes s w (ls.map (fun l => (l, e)))))
  if tab.toNat % 8 ≠ 0 then raise { cause := cMisalign, addr := tab.toNat, detail := 8 }
  else
    match tableAcc s w (ls.headD 0) tab with
    | .error e => raise e
    | .ok h =>
      if tableStops w [h] then some (.next (stopShadow s w))
      else if tableWaits s w [h] then none
      else
        let r := tableRead s w true [h]
        let count := ((r.2.1.map (fun v => v.2)).headD 0) % 2 ^ 32
        if !r.2.2.isEmpty then some (.next (tablePoison r.1 w ls r.2.2))
        else if vec then
          briTable r.1 w tab count (fun l => (rdV w l b).toNat) ls (fun l => [l]) (fun t xs =>
            let rest := (runLanes w).filter (fun l => !ls.contains l)
            .next (putWave t (briWave w (xs ++ rest.map (fun l => { lane := l, rank := 0, tgt := w.npc })))))
        else
          briTable r.1 w tab count (fun _ => (rdS w b).toNat % 2 ^ 32) [uniLane] (fun _ => ls) (fun t xs =>
            match xs with
            | x :: _ => .next (putWave t (goTo w x.tgt))
            | [] => .next t)

/-- `bri` (R114, R115). -/
def execBri (g : Guard) (vec : Bool) (a b : Nat) (s : State) : Out :=
  runInstr (.bri g vec a b) s (fun s w ls => (briOut vec a b s w ls).getD (stall s))

/-- A `bri` waits for its table. One that does not wait has been executed, even when it leads to itself. -/
def briWaits (s : State) (w : Wave) (i : Instr) : Bool :=
  match i with
  | .bri _ vec a b => legal s w i && takesEffect w i && (briOut vec a b s w (guardLanes w i)).isNone
  | _ => false

/-! ### Calls and loops -/

/-- Push of a return-stack entry (R108, R123). -/
def pushRet (w : Wave) (mark : Option FcMark) : Wave :=
  updSlices w (gang w) (fun sl => { sl with
    run := { sl.run with rets := { addr := w.npc, depth := sl.run.loops.length, fc := mark } :: sl.run.rets } })

/-- Branch without popping loop entries (R118). -/
def jumpTo (w : Wave) (t : W64) : Wave := settle (updSlices w (gang w) (fun sl => { sl with run := { sl.run with pc := t } }))

/-- Whether a return stack of the gang is full, or empty (R109). -/
def retsFull (w : Wave) : Bool := decide (8 ≤ (gangPart w (gang w)).rets.length)
def retsEmpty (w : Wave) : Bool := (gangPart w (gang w)).rets.isEmpty

/-- `call` (R108, R109). -/
def execCall (g : Guard) (off : BitVec 24) (s : State) : Out :=
  runInstr (.call g off) s (fun s w _ =>
    if retsFull w then .next (raisePc s w cBounds 0)
    else .next (putWave s (jumpTo (pushRet w none) (target w off))))

/-- `loop` (R116): the body starts after the instruction; a skipped body goes to its end sequentially (log 21). -/
def execLoop (g : Guard) (imm : Bool) (n off : Nat) (s : State) : Out :=
  runInstr (.loop g imm n off) s (fun s w _ =>
    let trips : W64 := if imm then BitVec.ofNat 64 n else rdS w n
    let stop := gpc w + BitVec.ofNat 64 (4 * off)
    if trips = 0 then finish s { w with npc := stop }
    else if 4 ≤ (gangPart w (gang w)).loops.length then .next (raisePc s w cBounds 0)
    else finish s (updSlices w (gang w) (fun sl => { sl with
      run := { sl.run with loops := { start := w.npc, stop := stop, left := trips } :: sl.run.loops } })))

/-! ### Reconvergence -/

/-- Live slices of a wave. -/
def liveSlices (w : Wave) : List Nat := (List.range w.slices.length).filter (fun i => (sliceAt w i).live)

/-- When every live slice waits at one `regang`, all form one gang at the earliest place and go past it (R35). -/
def gatherGang (w : Wave) : Wave :=
  let ls := liveSlices w
  let r := sliceAt w (ls.headD 0)
  if !ls.isEmpty && ls.all (fun i => (sliceAt w i).atRegang.isSome && samePlace (sliceAt w i).run r.run) then
    let w1 := updSlices { w with path := [ls], cur := 0 } ls (fun sl => { sl with atRegang := none })
    updSlices { w1 with regangFrom := none } ls (fun sl => { sl with run := partSeq (r.atRegang.getD 0) sl.run })
  else w

/-- `regang` (R35, R112, R113): slices with parked parts swap, and stand alone in ascending order after the gang (log 85); the others wait;
the last to arrive lets all go on. -/
def execRegang (g : Guard) (s : State) : Out :=
  runInstr (.regang g) s (fun s w _ =>
    let sw := (gang w).filter (fun i => !(sliceAt w i).parked.isEmpty)
    let stay := (gang w).filter (fun i => (sliceAt w i).parked.isEmpty)
    let w1 := updSlices w sw (swapPart true)
    let w2 := updSlices w1 stay (fun sl => { sl with atRegang := some w.npc })
    let w3 := { splitGang w2 (stay :: sw.map (fun i => [i])) with regangFrom := some (coreClock s w.die w.core) }
    let w4 := gatherGang w3
    if stay.isEmpty || (sliceAt w4 (stay.headD 0)).atRegang.isNone then .next (putWave s w4)
    else .next (putWave s (giveWay w4)))

/-- The release timer of a wave's `regang` has run out: its 256th cycle is over, so that a sibling that arrives in it is there first. While a
handler runs, gangs keep their state (R36, R149; log 116). -/
def regangOver (s : State) (w : Wave) : Bool :=
  match w.regangFrom with
  | none => false
  | some t => !w.trap.h && decide (256 < cyclesSince s w.die w.core t)

/-- REGANG_RELEASE: 256 cycles after the last instruction of a sibling, waiting gangs go on as they stand (R36, R113); while a handler
runs they keep their state (R149). -/
def execRegangRelease (uid : Nat) (s : State) : Out :=
  match findWave s uid with
  | none => .next s
  | some w =>
      if regangOver s w then
        .next (putWave s { updSlices w (liveSlices w) (fun sl =>
          match sl.atRegang with
          | some a => { sl with atRegang := none, run := partSeq a sl.run }
          | none => sl) with regangFrom := none })
      else .next s

/-- Whether the launch of a wave issues round-robin (R209). -/
def launchRr (s : State) (w : Wave) : Bool := match findLaunch s w.launch with | some l => l.rr | none => false

/-- `yield` (R52, R211): the wave notes when it yielded, for the issue choices that follow. Under round-robin one that follows a pending one adds
nothing; under greedy-then-oldest it acts on the choice of the next cycle, and what an earlier one left stands until the wave issues. -/
def execYield (g : Guard) (s : State) : Out :=
  runInstr (.yield g) s (fun s w _ =>
    finish s { w with yielding := match w.yielding with
      | some y => if launchRr s w then some y else some (y.1, coreClock s w.die w.core)
      | none => some (coreClock s w.die w.core, coreClock s w.die w.core) })
/-- `nop` takes a cycle (R119). -/
def execNop (g : Guard) (s : State) : Out := runInstr (.nop g) s (fun s w _ => finish s w)

/-! ### Ends of lanes -/

/-- The lanes of the running parts end: slices with parked parts swap and stand alone in ascending order (log 85), the others end (R37,
R112, R120). -/
def endLanes (s : State) (w0 : Wave) : State :=
  let s0 := squashWhere s w0.uid (fun _ f => f.slices.any (fun i => (gang w0).contains i))
  match findWave s0 w0.uid with
  | none => s0
  | some w =>
    let g := gang w
    let sw := g.filter (fun i => !(sliceAt w i).parked.isEmpty)
    let w1 := updSlices w g (fun sl =>
      if sl.parked.isEmpty then { sl with live := false, run := { sl.run with lanes := [] }, atRegang := none } else swapPart false sl)
    let w2 := splitGang w1 (sw.map (fun i => [i]))
    if w2.path.isEmpty then retireWave (putWave s0 w2) w2 w2.weight
    else
      let w3 := gatherGang { w2 with cur := w2.cur % w2.path.length }
      putWave s0 (if gangWaits w3 (gang w3) then giveWay w3 else w3)

/-- `exit`: in handler mode it ends the whole wave (R120, R149). -/
def execExit (g : Guard) (s : State) : Out :=
  runInstr (.exit g) s (fun s w _ => .next (if w.trap.h then retireWave s w w.weight else endLanes s w))

/-- `done`: a wait on every class, then `exit` (R380); the task is not rerun from here on (R382). -/
def execDone (g : Guard) (s : State) : Out :=
  runInstr (.done g) s (fun s w _ =>
    waitBody s w [(.ld, some 0), (.st, some 0), (.cp, some 0), (.mx, some 0), (.tx, some 0)] (fun t =>
      match findWave t w.uid with
      | some x => .next (endLanes (putWave t { x with tookMore := true }) x)
      | none => .next t))

/-! ### Spin detector and arbitration -/

/-- Every slice of the current gang is idle for 64 iterations, none has a part to swap in, and another gang stands in the list; what is
steered issues first (R40, R51, R112). -/
def demotes (w : Wave) : Bool :=
  decide (1 < w.path.length) && !w.trap.h && !(gang w).isEmpty && w.viq.isEmpty &&
  (gang w).all (fun i => decide (64 ≤ (sliceAt w i).idle) && (sliceAt w i).parked.isEmpty)

/-- GANG_DEMOTION (R40). -/
def execGangDemotion (uid : Nat) (s : State) : Out :=
  match findWave s uid with
  | none => .next s
  | some w =>
    if demotes w then
      .next (putWave s (giveWay (updSlices w (gang w) (fun sl => { sl with idle := 0 }))))
    else .next s

/-- A slice's running part is idle for 64 iterations and a part waits on its park stack; what is steered issues first (R51, R112). A slice whose
count already stands at 64 when a part is first parked swaps at once (log 85). -/
def swaps (w : Wave) (slice : Nat) : Bool :=
  (gang w).contains slice && !w.trap.h && w.viq.isEmpty && decide (64 ≤ (sliceAt w slice).idle) && !(sliceAt w slice).parked.isEmpty

/-- PART_SWAP: such a slice swaps in its top parked part (R112). -/
def execPartSwap (uid slice : Nat) (s : State) : Out :=
  match findWave s uid with
  | none => .next s
  | some w =>
    if swaps w slice then
      let w1 := leaveGang (updSlices w [slice] (swapPart true)) [slice]
      .next (putWave s w1)
    else .next s

/-- STARVED_WAVE_CHOICE: a wave not chosen for 1,024 cycles is chosen (R42): its oldest queued instruction issues, or the one it stands
at. -/
def execStarvedWaveChoice (uid : Nat) (s : State) : Out :=
  match findWave s uid with
  | none => .next s
  | some w =>
    if 1024 ≤ cyclesSince s w.die w.core w.chosen then .next { putWave s { w with chosen := coreClock s w.die w.core } with turn := if w.viq.isEmpty then .wave uid else .issue uid } else .next s

end Sys2Proof.Machine
end

