-- ==== Sys2Proof/Machine/Fork.lean ====
section
/-!
DEFINITION. Forkable calls (R121 to R141): the call, the return, the predictor, and the resolution of a fork.
-/
namespace Sys2Proof.Machine

/-! ### Room on an issue slot -/

/-- Context a wave or shadow takes on its core, its slices and register-file bytes (R24). -/
def ctxOf (w : Wave) : Nat := match w.fork with | some f => f.ctx | none => w.wctx
def slicesOf (w : Wave) : Nat := match w.fork with | some f => f.slices.length | none => w.foot.slices
def regBytes (w : Wave) : Nat := match w.fork with | some f => f.bytes | none => 16 * w.foot.slices * w.foot.vregs
/-- Waves and shadows of an issue slot, and retired waves whose registers a load still names (R29). -/
def slotWaves (s : State) (die core slot : Nat) : List Wave :=
  s.waves.filter (fun x => x.die == die && x.core == core && ctxOf x / 16 == slot)
def slotGhosts (s : State) (die core slot : Nat) : List Wave :=
  s.ghosts.filter (fun x => x.die == die && x.core == core && x.wctx / 16 == slot &&
    s.flights.any (fun f => f.who.uid == x.uid && (pendingOf f).any (fun r => match r with | .v _ => true | _ => false)))
/-- Lowest free wave context of a slot. -/
def freeCtx (s : State) (die core slot : Nat) : Option Nat :=
  ((List.range 16).map (fun i => 16 * slot + i)).find? (fun c => !(slotWaves s die core slot).any (fun x => ctxOf x == c))
def slotRoom (s : State) (die core slot slices bytes : Nat) : Bool :=
  decide (((slotWaves s die core slot).map slicesOf).sum + slices ≤ 64) &&
  decide (((slotWaves s die core slot).map regBytes).sum + ((slotGhosts s die core slot).map regBytes).sum + bytes ≤ 2 ^ 17)

/-! ### The call -/

/-- LIVE groups, and the groups of return registers outside them (R124). -/
def liveGroups (lv : W32) : List Nat := (List.range 32).filter (fun g => lv.getLsbD g)
def forkGroups (lv : W32) (m : FcMark) : Nat :=
  (liveGroups lv).length + ((((retRegs m).map (fun r => r / 8)).eraseDups).filter (fun g => !lv.getLsbD g)).length

/-- Conditions of R124, apart from the free context. -/
def forkOk (s : State) (w : Wave) (lv : W32) (m : FcMark) : Bool :=
  w.fork.isNone &&
  decide ((shadowsOf s w.uid (fun _ _ => true)).length < w.foot.forks) &&
  (gang w).all (fun i => decide ((shadowsOf s w.uid (fun _ f => f.slices.contains i)).length < 3)) &&
  (gang w).all (fun i => (sliceAt w i).parked.isEmpty) &&
  slotRoom s w.die w.core (w.wctx / 16) (gang w).length (128 * (gang w).length * forkGroups lv m) &&
  (m.rc == 0 || decide (2 ≤ (predAt s w m.pc).conf))

/-- Predictions of the return registers: register, base, stride (R126). -/
def predictions (s : State) (w : Wave) (m : FcMark) : List (Nat × W32 × W32) :=
  let e := predAt s w m.pc
  (retRegs m).mapIdx (fun i r => if i = 0 then (r, e.b0, e.s0) else (r, e.b1, e.s1))

/-- The shadow context: copies taken as the state just after the return, with the predicted values (R127, R128). Results still outstanding
reach its copies as they come. -/
def openShadow (s : State) (w : Wave) (lv : W32) (m : FcMark) (ctx : Nat) : Wave :=
  let g := gang w
  let ps := predictions s w m
  let copied (k : Nat) : Bool := g.contains (k / 256 / 4) && lv.getLsbD (k % 256 / 8)
  let base : Wave := { w with
    uid := s.nextUid
    slices := w.slices.mapIdx (fun i sl => if g.contains i then { sl with run := { sl.run with pc := w.npc } } else sliceDead)
    path := [g], cur := 0
    v := w.v.filter (fun x => copied x.1)
    fpflags := 0
    trap := { w.trap with recs := [], held := [] }
    pad := [], slots := [], seqs := [], lease := 0, blocked := none, preq := none, saveReq := none, deqFrom := none
    regangFrom := none
    viq := [], retq := [], yielding := none, lostRead := none, barHold := none, trains := []
    fork := some { home := w.uid, ctx := ctx, bytes := 128 * g.length * forkGroups lv m, slices := g, mark := m,
                   depth := (gangPart w g).rets.length, pred := ps, groups := liveGroups lv, rset := [], wrote := [],
                   homeWrote := [], returned := [], born := s.nextFid, stopped := false } }
  ps.foldl (fun x p => (sliceLanes g).foldl
    (fun y l => wrV y l p.1 (p.2.1 + p.2.2 * BitVec.ofNat 32 l)) x) base

/-- `fcall` (R121 to R128): always a call; it forks when every condition holds. -/
def execFcall (g : Guard) (off : BitVec 21) (lv : W32) (rc rva rvb : Nat) (s : State) : Out :=
  runInstr (.fcall g off lv rc rva rvb) s (fun s w _ =>
    let m : FcMark := { pc := gpc w, rc := rc, rva := rva, rvb := rvb }
    if retsFull w then .next (raisePc s w cBounds 0)
    else
      let w1 := jumpTo (pushRet w (some m)) (target w off)
      match freeCtx s w.die w.core (w.wctx / 16) with
      | none => .next (putWave s w1)
      | some ctx =>
        if !forkOk s w lv m then .next (putWave s w1)
        else
          let s1 := putWave s w1
          .next { s1 with waves := s1.waves ++ [openShadow s w lv m ctx], nextUid := s1.nextUid + 1 })

/-! ### The return -/

/-- Pop of a part's top entry with the loop entries above the recorded depth (R108). -/
def popRet (p : Part) : Part :=
  match p.rets with
  | [] => p
  | e :: r => { p with pc := e.addr, rets := r, loops := p.loops.drop (p.loops.length - e.depth) }

/-- A fork that this return ends for some slices of the gang (R134). -/
def endsFork (w : Wave) (f : Fork) : Bool :=
  f.home == w.uid && f.slices.any (fun i => (gang w).contains i) && decide ((gangPart w (gang w)).rets.length = f.depth + 1)

/-- Slices of the gang that are home in such a fork, fork by fork. -/
def endingGroups (s : State) (w : Wave) : List (List Nat) :=
  s.waves.filterMap (fun x => match x.fork with
    | some f => if endsFork w f then some ((gang w).filter (fun i => f.slices.contains i)) else none
    | none => none)
def endingSlices (s : State) (w : Wave) : List Nat := (gang w).filter (fun i => (endingGroups s w).any (fun g => g.contains i))

/-- The forks that this return ends take note of the slices that have come home. -/
def markReturned (s : State) (w : Wave) (sls : List Nat) : State :=
  { s with
    waves := s.waves.map (fun x => match x.fork with
      | some f =>
        if endsFork w f then { x with fork := some { f with returned := unionNat f.returned (sls.filter (fun i => f.slices.contains i)) } }
        else x
      | none => x) }

/-- Slices of the gang that are home in a fork wait at the return address, those of each fork in a gang of their own, since one fork may
commit and another be squashed; the others go on in a gang behind them (R134 to R136; log 96). A gang with slices whose forks have still to
come home goes on next; with none the gang stays current, so that no other gang runs
before the call is over (R139; log 96). -/
def holdRet (w : Wave) (groups : List (List Nat)) (awaited : List Nat) : Wave :=
  let w1 := updSlices w (gang w) (fun sl => { sl with run := popRet sl.run })
  let w2 := updSlices w1 groups.flatten (fun sl => { sl with atRet := true })
  let w3 := splitGang w2 (groups ++ [(gang w).filter (fun i => !groups.flatten.contains i)])
  match (List.range w3.path.length).find? (fun i => (w3.path.getD i []).any (fun k => awaited.contains k)) with
  | some i => { w3 with cur := i }
  | none => w3

/-- Home slices of the forks that this return ends which have not come home. -/
def awaitedSlices (s : State) (w : Wave) (sls : List Nat) : List Nat :=
  s.waves.flatMap (fun x => match x.fork with
    | some f => if endsFork w f then f.slices.filter (fun i => !f.returned.contains i && !sls.contains i) else []
    | none => [])

/-- Slices of the gang pop their entry; those that no fork waits for train the predictor, now or when their registers come (R108, R123,
R126). -/
def plainRet (s : State) (w : Wave) (mark : Option FcMark) : State :=
  let s1 := putWave s (settle (updSlices w (gang w) (fun sl => { sl with run := popRet sl.run })))
  match mark with
  | some m => trainWhen s1 w.uid w.viq.length m (gang w)
  | none => s1

/-- Forks that end here and whose own home slices have parked parts are squashed (R133). -/
def squashParked (s : State) (w : Wave) : State :=
  squashWhere s w.uid (fun _ f => endsFork w f && f.slices.any (fun i => (gang w).contains i && !(sliceAt w i).parked.isEmpty))

/-- `ret` (R108, R109, R123, R126, R133, R134). A plain `ret` in a continuation trains the predictor with the continuation's registers as it
executes, whatever becomes of the fork (log 97). -/
def execRet (g : Guard) (s : State) : Out :=
  runInstr (.ret g) s (fun s w _ =>
    match (gangPart w (gang w)).rets with
    | [] => .next (raisePc s w cBounds 0)
    | e :: _ =>
      let t := squashParked s w
      match findWave t w.uid with
      | none => .next t
      | some x =>
        let sls := endingSlices t x
        if sls.isEmpty then .next (plainRet t x e.fc)
        else
          let s1 := markReturned (putWave t (holdRet x (endingGroups t x) (awaitedSlices t x sls))) x sls
          .next (match e.fc with
            | some m => trainWhen s1 x.uid x.viq.length m ((gang x).filter (fun i => !sls.contains i))
            | none => s1))

/-- `fsync` on a home path or outside a fork only takes a cycle; in a continuation it is a barrier (R132, R140). -/
def execFsync (g : Guard) (s : State) : Out := runInstr (.fsync g) s (fun s w _ => finish s w)

/-! ### Resolution -/

/-- Predicted and actual return values agree in every lane of the home slices (R134). -/
def predictionHolds (w : Wave) (f : Fork) : Bool :=
  f.pred.all (fun p => (sliceLanes f.slices).all (fun l =>
    rdV w l p.1 == p.2.1 + p.2.2 * BitVec.ofNat 32 l))

/-- No register of the read set was written by the home slices, return registers apart (R134). -/
def readSetClean (f : Fork) : Bool :=
  f.rset.all (fun r => !f.homeWrote.contains r || (match r with | .v n => (retRegs f.mark).contains n | _ => false))

/-- Special registers of a wave that a `sets` may write, %fpflags apart, which a commit joins (R99, R135). -/
def setRegs (w : Wave) : W32 × W64 × W64 × Nat × Bool × Bool := (w.fpmode, w.trap.xpc, w.trap.xvec, w.trap.csel, w.trap.pte, w.trap.ppriv)

/-- The callee has left the special registers as the continuation found them: R134 counts no such register in the read set, and R139 gives
the wave the results of a plain call (log 126). -/
def specialsHold (x w : Wave) : Bool := setRegs x == setRegs w

/-- Registers a continuation wrote become the wave's (R135). -/
def takeReg (x : Wave) (f : Fork) (w : Wave) (r : RegRef) : Wave :=
  let ls := sliceLanes f.slices
  match r with
  | .v n => ls.foldl (fun y l => wrV y l n (rdV x l n)) w
  | .k n => ls.foldl (fun y l => wrK y n l (rdK x n l)) w
  | .s n => { w with s := stSet 0 n (stGet 0 n x.s) w.s }
  | .q n => wrQ w n (rdQ x n)

/-- The shadow's gangs take the home gangs' place in the path list; every other slice stays in its gang (R135). -/
def takePath (x w : Wave) (f : Fork) : Wave :=
  let isHome (p : List Nat) : Bool := p.any (fun i => f.slices.contains i)
  let pos := w.path.findIdx isHome
  let rest := ((w.path.drop pos).map (fun p => p.filter (fun i => !f.slices.contains i))).filter (fun p => !p.isEmpty)
  let path := w.path.take pos ++ x.path ++ rest
  let cur := if isHome (gang w) || gangWaits w (gang w) then pos + x.cur else path.findIdx (fun p => p == gang w)
  { w with path := path, cur := cur }

/-- Results of the callee that are still outstanding do not reach registers which the continuation, younger than they, has written (R135). -/
def skipWritten (f : Fork) (g : Flight) : Flight :=
  if g.who.uid == f.home && decide (f.born ≤ g.id) then
    { g with skip := g.skip ++ (((pendingOf g).filter (fun r => f.wrote.contains r)).map (fun r => (r, sliceLanes f.slices))) }
  else g

/-- Commit (R135): registers, control state, flags; what the continuation has steered issues on the merged path; held stores enter the path
in order, in one step, whatever the store counter holds (log 118). A `yield` of the continuation that is still pending is the wave's from here
on, in place of one of its own; R135 does not name it (log 125). -/
def commitFork (s : State) (x w : Wave) (f : Fork) : State :=
  let w1 := f.wrote.foldl (takeReg x f) w
  let w2 := takePath x w1 f
  let w3 := { w2 with
    slices := w2.slices.mapIdx (fun i sl => if f.slices.contains i then sliceAt x i else sl)
    fpflags := w2.fpflags ||| x.fpflags
    viq := w2.viq ++ x.viq, retq := w2.retq ++ x.retq
    trains := w2.trains ++ x.trains.map (fun t => { t with older := t.older + w2.viq.length })
    yielding := match x.yielding with | some t => some t | none => w2.yielding }
  let c := coreAt s w.die w.core
  let held := c.fsb.filter (fun e => e.uid == x.uid)
  let s1 := putCore s w.die w.core { c with
    fsb := c.fsb.filter (fun e => !(e.uid == x.uid)), flt := c.flt.filter (fun e => !(e.uid == x.uid)) }
  let s2 := putWave (dropWave s1 x.uid) w3
  let s3 := { s2 with flights := s2.flights.map (skipWritten f), waves := s2.waves.map (fun y => match y.fork with
    | some h => if h.home == w.uid && h.slices.any (fun i => f.slices.contains i) then
        { y with fork := some { h with homeWrote := h.homeWrote ++ f.wrote.filter (fun r => !h.homeWrote.contains r) } } else y
    | none => y) }
  held.foldl (fun st e =>
    let st1 := addStore st { whoOf w with pc := e.pc } (some .st) e.size e.accs
    squashStores st1 w3 f.slices (e.accs.map (fun a => (a.1, e.size)))) s3

/-- FORK_RESOLUTION: once every home slice has returned and the return registers are written, the fork commits or is squashed; the
predictor is trained either way (R126, R134 to R137). A wave about to be saved keeps no fork (R159). -/
def execForkResolution (uid : Nat) (s : State) : Out :=
  match findWave s uid with
  | none => .next s
  | some x =>
    match x.fork with
    | none => .next s
    | some f =>
      match findWave s f.home with
      | none => .next s
      | some w =>
        if f.slices.all (fun i => f.returned.contains i) && !retsPending s w.uid f.mark && w.saveReq.isNone then
          if predictionHolds w f && readSetClean f && specialsHold x w then .next (commitFork (train s w f.mark f.slices) x w f)
          else .next (squashWhere s w.uid (fun y _ => y.uid == uid))
        else .next s

end Sys2Proof.Machine
end

