-- ==== Sys2Proof/Machine/Formats.lean ====
section
/-!
DEFINITION. The 24 storage formats, the plane tile, expansion and packing (R262 to R276). Values are exact (`FV`).
-/
namespace Sys2Proof.Machine

/-! ### Exact dyadic numbers -/

/-- Two dyadic numbers i x 2^e brought to one exponent. -/
def dyAlign (a b : Int × Int) : Int × Int :=
  let e := min a.2 b.2
  (a.1 * 2 ^ (a.2 - e).toNat, b.1 * 2 ^ (b.2 - e).toNat)
def dyEq (a b : Int × Int) : Bool := (dyAlign a b).1 == (dyAlign a b).2
def dyLt (a b : Int × Int) : Bool := decide ((dyAlign a b).1 < (dyAlign a b).2)

/-- A finite value as a dyadic number. -/
def FV.dy : FV → Int × Int
  | .fin n m e => (sgnInt n m, e)
  | _ => (0, 0)
def FV.isFin : FV → Bool
  | .fin _ _ _ => true
  | _ => false
def FV.isZero : FV → Bool
  | .fin _ m _ => m == 0
  | _ => false
def fvInt (i : Int) : FV := .fin (decide (i < 0)) i.natAbs 0
/-- v x 2^k. -/
def FV.scale (v : FV) (k : Int) : FV := match v with | .fin n m e => .fin n m (e + k) | x => x
/-- -0 reads as 0 (R273). -/
def FV.plus (v : FV) : FV := match v with | .fin _ 0 e => .fin false 0 e | x => x

/-- Nearest integer of v x 2^k, ties to even (R273), and whether it is exact. -/
def fvRne (v : FV) (k : Int) : Int × Bool :=
  match v with
  | .fin n m e => let r := intRound .rn n m (e + k); (r.1, dyEq (r.1, 0) (sgnInt n m, e + k))
  | _ => (0, false)

/-! ### Storage (R262 to R268) -/

/-- Bits of an element of a plain format, 1 to 16. -/
def fmtBits (f : Nat) : Nat :=
  match f with
  | 1 => 32 | 2 | 3 | 8 | 9 => 16 | 4 | 5 | 10 | 11 => 8 | 6 | 7 => 6 | 12 | 13 => 4 | 14 => 2 | 15 | 16 => 1
  | _ => 0

/-- Floating layouts. -/
def fmtFloat (f : Nat) : Option FFmt :=
  match f with
  | 1 => some fmtF32 | 2 => some fmtF16 | 3 => some fmtBf16 | 4 => some fmtE4m3 | 5 => some fmtE5m2
  | 6 => some fmtE3m2 | 7 => some fmtE2m3 | _ => none

/-- Signed integer formats. -/
def fmtSigned (f : Nat) : Bool := f == 8 || f == 10 || f == 12 || f == 14
def isK4 (f : Nat) : Bool := decide (17 ≤ f ∧ f ≤ 20)
def isBlk (f : Nat) : Bool := decide (21 ≤ f ∧ f ≤ 23)

/-- Row length in elements that a format's blocks divide (R274). -/
def fmtBlock (f : Nat) : Nat := if isK4 f then 16 else if isBlk f then 32 else 1

/-- Bytes of a packed row; for a K4 format its blocks, without the side list (R263, R266, R267, R269, R284). -/
def rowLen (f k : Nat) : Nat :=
  if f = 24 then 16 * k else if isK4 f then 9 * (k / 16) else if f = 22 then 25 * k / 32 else if isBlk f then 33 * k / 32
  else k * fmtBits f / 8

/-- Element size that addresses and strides must be multiples of (R284). -/
def fmtAlign (f : Nat) : Nat := match f with | 2 | 3 | 8 | 9 => 2 | 1 => 4 | 24 => 16 | _ => 1

/-- w bits from bit i x w of a byte string (R263). -/
def bitsAt (bs : List Byte) (w i : Nat) : Nat := leNat ((bs.drop (i * w / 8)).take (w / 8 + 2)) / 2 ^ (i * w % 8) % 2 ^ w

/-- Value of one plain code (R264, R265). -/
def plainVal (f code : Nat) : FV :=
  match fmtFloat f with
  | some F => fvOf F code
  | none =>
    if f = 15 then fvInt (if code = 1 then 1 else -1)
    else if fmtSigned f then fvInt (sval (fmtBits f) code)
    else fvInt code

/-- Plain format that packs the elements of a block format (R266). -/
def blkPlain (f : Nat) : Nat := match f with | 21 => 4 | 22 => 6 | _ => 10
def blkBytes (f : Nat) : Nat := if f = 22 then 25 else 33

/-- Element of a block-scaled row (R266). -/
def blkVal (f : Nat) (row : List Byte) (i : Nat) : FV :=
  let b := row.drop (blkBytes f * (i / 32))
  let sc := leNat (b.take 1)
  if sc = 255 then .nan
  else (plainVal (blkPlain f) (bitsAt (b.drop 1) (fmtBits (blkPlain f)) (i % 32))).scale (sc - 127)

/-- Twice the magnitudes of types 01, 10 and 11 (R267). -/
def k4Mags (ty : Nat) : List Nat :=
  match ty with
  | 1 => [0, 1, 2, 3, 4, 6, 8, 12]
  | 2 => [0, 2, 4, 8, 16, 32, 64, 128]
  | _ => [0, 2, 4, 6, 8, 12, 16, 24]

/-- Value of a side list's first entry for an element (R268). -/
def sideVal (bs : List Byte) (i : Nat) : FV :=
  let n := leNat (bs.take 2)
  let e := (List.range (min n ((bs.length - 2) / 4))).find? (fun j => leNat ((bs.drop (2 + 4 * j)).take 2) == i)
  match e with
  | some j => fvOf fmtF16 (leNat ((bs.drop (4 + 4 * j)).take 2))
  | none => .nan

/-- Element of a K4 row of k elements; the bytes reach to the stride (R267, R268). -/
def k4Val (k : Nat) (row : List Byte) (i : Nat) : FV :=
  let b := row.drop (9 * (i / 16))
  let sc := leNat (b.take 1)
  let code := bitsAt (b.drop 1) 4 (i % 16)
  let ty := sc / 64
  let up : Int := (sc % 64 : Nat) - 32
  if ty = 0 then (fvInt (sval 4 code)).scale up
  else if ty = 1 ∧ code = 8 then sideVal (row.drop (9 * (k / 16))) i
  else (FV.fin (bitAt code 3) ((k4Mags ty).getD (code % 8) 0) (-1)).scale up

/-- Mean of a cell, +0 where its weight is zero (R269). -/
def estVal (row : List Byte) (i : Nat) : FV :=
  let c := row.drop (16 * i)
  if f32IsZero (leNat ((c.drop 8).take 4)) then .fin false 0 0 else fvOf fmtF32 (leNat (c.take 4))

/-- Element i of a row of k elements (R263 to R269). -/
def decodeElem (f k : Nat) (row : List Byte) (i : Nat) : FV :=
  (if f = 24 then estVal row i
   else if isK4 f then k4Val k row i
   else if isBlk f then blkVal f row i
   else plainVal f (bitsAt row (fmtBits f) i)).plus

/-- Fixed exponent of the block of 8 elements that starts at element i (R262, R266, R267). -/
def fixedExp (f : Nat) (row : List Byte) (i : Nat) : Option Nat :=
  if 8 ≤ f ∧ f ≤ 16 then some 127
  else if isK4 f then
    let sc := leNat ((row.drop (9 * (i / 16))).take 1)
    some (sc % 64 + (if sc / 64 = 1 then 94 else 95))
  else if f = 23 then some (leNat ((row.drop (33 * (i / 32))).take 1))
  else none

/-! ### The plane tile (R270 to R274) -/

/-- Encoding a fill gives a tile of P planes (R262): 0 signed, 1 unsigned, 2 bipolar. -/
def fillEnc (f planes : Nat) : Nat :=
  if f = 9 ∨ f = 11 ∨ f = 13 ∨ f = 16 then 1 else if f = 15 ∧ planes = 1 then 2 else 0

/-- Range of m (R270). -/
def mLo (enc planes : Nat) : Int := match enc with | 0 => -(2 ^ (planes - 1)) | 1 => 0 | _ => -1
def mHi (enc planes : Nat) : Int := match enc with | 0 => 2 ^ (planes - 1) - 1 | 1 => 2 ^ planes - 1 | _ => 1

/-- A block of a tile: exponent and the element's m. -/
structure PBlock where
  e  : Nat
  ms : List Int
deriving DecidableEq, Repr

/-- Smallest exponent under which every rounded element is in range, 254 if there is none (R273). -/
def smallExp (lo hi : Int) (vs : List FV) : Nat :=
  ((natsFrom 1 254).find? (fun (e : Nat) => vs.all (fun v => let r := (fvRne v (127 - (e : Int))).1; decide (lo ≤ r ∧ r ≤ hi)))).getD 254

/-- Expansion of one block, and whether it sets LOSS (R273). -/
def expandBlock (planes enc : Nat) (ef : Option Nat) (vs : List FV) : PBlock × Bool :=
  let lo := mLo enc planes
  let hi := mHi enc planes
  if vs.any (fun v => !v.isFin) then ({ e := 255, ms := List.replicate 8 0 }, false)
  else if vs.all FV.isZero && decide (1 < planes) then ({ e := 0, ms := List.replicate 8 0 }, false)
  else
    let fits (e : Nat) : Bool := vs.all (fun v => let r := fvRne v (127 - e); r.2 && decide (lo ≤ r.1 ∧ r.1 ≤ hi))
    match ef with
    | some e =>
      if fits e then ({ e := e, ms := vs.map (fun v => (fvRne v (127 - e)).1) }, false)
      else free lo hi
    | none => free lo hi
where
  /-- The computed exponent. -/
  free (lo hi : Int) : PBlock × Bool :=
    let e := smallExp lo hi vs
    let ms := vs.map (fun v => max lo (min hi (fvRne v (127 - e)).1))
    ({ e := e, ms := ms }, (vs.zip ms).any (fun p => !dyEq (p.2, (e : Int) - 127) p.1.dy))

/-- Expansion into a one-plane tile (R274). -/
def expandOne (vs : List FV) : PBlock := { e := 127, ms := vs.map (fun v => v.dy.1) }

/-- Bit of plane p of an element (R270, R273). -/
def planeBit (enc : Nat) (p : Nat) (m : Int) : Bool := if enc = 2 then decide (0 < m) else bitAt (trunc 24 m) p

/-- The byte of one plane of a block (R271). -/
def planeByte (enc p : Nat) (b : PBlock) : Byte :=
  BitVec.ofNat 8 ((b.ms.mapIdx (fun j m => if planeBit enc p m then 2 ^ j else 0)).sum)

/-- The tile's bytes from its blocks in row order (R271). -/
def tileImage (planes enc : Nat) (bs : List PBlock) : List Byte :=
  (List.range planes).flatMap (fun p => bs.map (planeByte enc p)) ++ bs.map (fun b => BitVec.ofNat 8 b.e)

/-- Element of a tile whose bytes are given: R x K / 8 blocks (R270, R271). -/
def tileElem (planes enc blocks : Nat) (bs : List Byte) (blk j : Nat) : FV :=
  let e := leNat ((bs.drop (planes * blocks + blk)).take 1)
  let bit (p : Nat) : Nat := leNat ((bs.drop (p * blocks + blk)).take 1) / 2 ^ j % 2
  let raw := ((List.range planes).map (fun p => bit p * 2 ^ p)).sum
  let m : Int := match enc with | 0 => sval planes raw | 1 => raw | _ => if raw = 1 then 1 else -1
  if e = 255 then .nan else (fvInt m).scale ((e : Int) - 127)

/-- Row of a tile as values. -/
def tileRow (planes enc rows k : Nat) (bs : List Byte) (row : Nat) : List FV :=
  (List.range (k / 8)).flatMap (fun b => (List.range 8).map (fun j => tileElem planes enc (rows * k / 8) bs (row * (k / 8) + b) j))

/-! ### Packing (R275, R276) -/

/-- Range of an integer format. -/
def intLo (f : Nat) : Int := if fmtSigned f then -(2 ^ (fmtBits f - 1)) else 0
def intHi (f : Nat) : Int := if fmtSigned f then 2 ^ (fmtBits f - 1) - 1 else 2 ^ fmtBits f - 1

/-- One element in a plain format, and LOSS (R275). -/
def packElem (f : Nat) (v : FV) : Nat × Bool :=
  match fmtFloat f with
  | some F =>
    (match v with
     | .fin n m e =>
       let c := if m = 0 then fSigned F n 0 else (roundNum F .rn n m e false).pat
       (c, !((fvOf F c).isFin && dyEq (fvOf F c).dy v.dy))
     | .inf n => (fInf F n, !F.hasInf)
     | .nan => (fNaN F, F.nan.isNone))
  | none =>
    match v with
    | .fin n m _ =>
      if f = 15 then
        let b := if n && !(m == 0) then 0 else 1
        (b, !dyEq (if b = 1 then 1 else -1, 0) v.dy)
      else
        let r := max (intLo f) (min (intHi f) (fvRne v 0).1)
        (trunc (fmtBits f) r, !dyEq (r, 0) v.dy)
    | _ => (0, true)

/-- Codes of one width as a bit string (R263). -/
def packBits (w : Nat) (codes : List Nat) : List Byte :=
  leBytes (codes.length * w / 8) (codes.foldr (fun c acc => c % 2 ^ w + 2 ^ w * acc) 0)

/-- Whether an element rounds inside a block format's finite range (R276). -/
def blkFits (f : Nat) (v : FV) : Bool :=
  match fmtFloat (blkPlain f), v with
  | some F, .fin n m e => m == 0 || !(roundNum F .rn n m e false).ovf
  | none, .fin _ _ _ => let r := (fvRne v 0).1; decide (intLo 10 ≤ r ∧ r ≤ intHi 10)
  | _, _ => false

/-- A block of 32 elements (R276). -/
def packBlk (f : Nat) (vs : List FV) : List Byte × Bool :=
  let p := blkPlain f
  if vs.any (fun v => !v.isFin) then (leBytes 1 255 ++ packBits (fmtBits p) (vs.map (fun _ => 0)), vs.any (fun v => !(v == .nan)))
  else
    let sc : Nat := ((List.range 255).find? (fun (s : Nat) => vs.all (fun v => blkFits f (v.scale (127 - (s : Int)))))).getD 254
    let cs := vs.map (fun v => packElem p (v.scale (127 - sc)))
    (leBytes 1 sc ++ packBits (fmtBits p) (cs.map (fun c => c.1)), cs.any (fun c => c.2))

/-- Twice the value a code stands for in a K4 block without escapes. -/
def k4Twice (ty code : Nat) : Int :=
  if ty = 0 then 2 * sval 4 code else sgnInt (bitAt code 3) ((k4Mags ty).getD (code % 8) 0)

/-- Codes that packing uses: a zero is written as code 0000 (R276; log 22). -/
def k4Codes (ty : Nat) : List Nat := (List.range 16).filter (fun c => ty == 0 || !(c == 8))

/-- Distance of 2 v from twice a code's value. -/
def k4Dist (ty : Nat) (v : FV) (code : Nat) : Int × Int :=
  let a := dyAlign (k4Twice ty code, 0) (v.scale 1).dy
  ((a.1 - a.2).natAbs, min 0 (v.scale 1).dy.2)

/-- Nearest code, the even one of two equally near (R276). -/
def k4Code (ty : Nat) (v : FV) : Nat :=
  (k4Codes ty).foldl (fun best c =>
    if dyLt (k4Dist ty v c) (k4Dist ty v best) || (dyEq (k4Dist ty v c) (k4Dist ty v best) && best % 2 == 1 && c % 2 == 0)
    then c else best) 0

/-- Twice the bound below which a magnitude rounds within the type's: half way to the next step (R276; log 22). -/
def k4Bound (ty : Nat) : Nat := match ty with | 1 => 14 | 2 => 192 | _ => 28
def k4Fits (ty : Nat) (v : FV) : Bool :=
  if ty = 0 then (let r := (fvRne v 0).1; decide (-8 ≤ r ∧ r ≤ 7))
  else dyLt ((v.scale 1).dy.1.natAbs, (v.scale 1).dy.2) (k4Bound ty, 0)

/-- A block of 16 elements (R276); of one with a NaN no E makes every element round within the magnitudes, so E is 63. -/
def packK4 (ty : Nat) (vs : List FV) : List Byte × Bool :=
  if vs.any (fun v => !v.isFin) then (leBytes 1 (64 * ty + 63) ++ packBits 4 (vs.map (fun _ => 0)), true)
  else
    let e : Nat := ((List.range 64).find? (fun (e : Nat) => vs.all (fun v => k4Fits ty (v.scale (32 - (e : Int)))))).getD 63
    let cs := vs.map (fun v => k4Code ty (v.scale (32 - e)))
    (leBytes 1 (64 * ty + e) ++ packBits 4 cs,
      (vs.zip cs).any (fun p => !dyEq (k4Twice ty p.2, (e : Int) - 33) p.1.dy))

/-- Groups of n from a list; the fuel is the list's length. -/
def groupsOfN {α : Type} (n : Nat) : Nat → List α → List (List α)
  | 0, _ => []
  | fuel + 1, xs => if xs.isEmpty then [] else xs.take n :: groupsOfN n fuel (xs.drop n)

/-- A row of values in a format, and LOSS; a K4 row ends with an empty side list (R275, R276). -/
def packRow (f : Nat) (vs : List FV) : List Byte × Bool :=
  if isK4 f then
    let bs := (groupsOfN 16 vs.length vs).map (packK4 (f - 17))
    (bs.flatMap (fun b => b.1) ++ [0, 0], bs.any (fun b => b.2))
  else if isBlk f then
    let bs := (groupsOfN 32 vs.length vs).map (packBlk f)
    (bs.flatMap (fun b => b.1), bs.any (fun b => b.2))
  else
    let cs := vs.map (packElem f)
    (packBits (fmtBits f) (cs.map (fun c => c.1)), cs.any (fun c => c.2))

end Sys2Proof.Machine
end

