-- ==== Sys2Proof/Machine/Tiles.lean ====
section
/-!
DEFINITION. The tile table: definitions, states and the tile order (R277 to R282), and how an engine reads and writes memory
(R172, R174, R226, R290).
-/
namespace Sys2Proof.Machine

/-! ### Engine accesses -/

/-- Page and physical address that an engine's access goes to: permission bit, and a test of both; the failing address otherwise
(R172, R174). -/
def engPage (s : State) (asid bit : Nat) (ok : Page → Nat → Bool) (va : Nat) : Except Nat (Page × Nat) :=
  match translate s asid va with
  | none => .error va
  | some leaf => if bitAt leaf.1 bit && ok (pageOf leaf.1) (paUnder leaf va) then .ok (pageOf leaf.1, paUnder leaf va) else .error va

/-- n bytes read at their homes, as the core's engines see them; poison fails (R224, R226, R290). -/
def engRead (s : State) (die core asid : Nat) (ok : Page → Nat → Bool) : Nat → Nat → Nat → Except Nat (List Byte)
  | 0, _, _ => .ok []
  | fuel + 1, va, n =>
    if n = 0 then .ok []
    else
      let k := min n (32 - va % 32)
      match engPage s asid 2 ok va with
      | .error a => .error a
      | .ok (_, pa) =>
        if s.poison.contains (pa / 32) then .error va
        else
          match engRead s die core asid ok fuel (va + k) (n - k) with
          | .error a => .error a
          | .ok bs => .ok (engineView s die core pa (memBytes s.mem pa k) ++ bs)

/-- Bytes at a virtual address. -/
def engBytes (s : State) (die core asid : Nat) (ok : Page → Nat → Bool) (va : W64) (n : Nat) : Except Nat (List Byte) :=
  engRead s die core asid ok (n / 32 + 2) va.toNat n

/-- Virtual ranges that an engine reads: first byte and length. -/
abbrev VRange := W64 × Nat

/-- Page and physical address of each sector of such ranges that is there. -/
def engSectors (s : State) (asid : Nat) (rs : List VRange) : List (Page × Nat) :=
  rs.flatMap (fun r => (natsFrom (r.1.toNat / 32) ((r.1.toNat + r.2 + 31) / 32 - r.1.toNat / 32)).filterMap (fun k =>
    (translate s asid (32 * k)).map (fun leaf => (pageOf leaf.1, paUnder leaf (32 * k)))))

/-- The reads of an engine pass the home slices; `cpy.ws` reads past them (R179, R285). -/
def engTouch (s : State) (asid : Nat) (rs : List VRange) : State :=
  (engSectors s asid rs).foldl (fun st p => l2Access st p.1 false p.2 32) s

/-- A read of an engine meets a refresh window of a weight-store bank or the copy of a row (R184, R285, R409). -/
def engRefresh (s : State) (asid : Nat) (past : Bool) (rs : List VRange) : Bool :=
  (engSectors s asid rs).any (fun p => isWeight p.2 && weightShut s p.2 && (past || !l2Has s p.2))

/-- One piece of a write: page, physical address and bytes. -/
abbrev Piece := Page × Nat × List Byte

/-- Pieces of a write of bytes at a virtual address, split at sectors. -/
def engPieces (s : State) (asid : Nat) (ok : Page → Nat → Bool) : Nat → Nat → List Byte → Except Nat (List Piece)
  | 0, _, _ => .ok []
  | fuel + 1, va, bs =>
    if bs.isEmpty then .ok []
    else
      let k := min bs.length (32 - va % 32)
      match engPage s asid 3 ok va with
      | .error a => .error a
      | .ok pa =>
        match engPieces s asid ok fuel (va + k) (bs.drop k) with
        | .error a => .error a
        | .ok r => .ok ((pa.1, pa.2, bs.take k) :: r)
def engPlan (s : State) (asid : Nat) (ok : Page → Nat → Bool) (va : W64) (bs : List Byte) : Except Nat (List Piece) :=
  engPieces s asid ok (bs.length / 32 + 2) va.toNat bs

/-- Pages an engine reads as ordinary data, and pages it writes (R174, R286). -/
def readable (p : Page) (_ : Nat) : Bool := p.ptype == .normal || p.ptype == .weight
def writable (p : Page) (_ : Nat) : Bool := p.ptype == .normal

/-- Pieces written at their homes by an engine of a core (R176, R181, R194). -/
def putPieces (s : State) (die core : Nat) (ps : List Piece) : State :=
  ps.foldl (fun st p => engineWrite st die core p.1 p.2.1 p.2.2) s
def pieceRanges (ps : List Piece) : List (Nat × Nat) := ps.map (fun p => (p.2.1, p.2.2.length))

/-- What an event leaves, unless it ends its command while an older one of the wave on the engine still has its reply to write (R70). -/
def inReplyOrder (s : State) (f : Flight) (t : State) : Out :=
  if replyBusy s f && (match findFlight t f.id with | some g => g.rr.isNone | none => true) then .next s else .next t

/-! ### Entries -/

/-- An entry at the start of a wave (R277). -/
def tileEmpty : Tile :=
  { plane := false, base := 0, size := 0, rows := 0, cols := 0, planes := 0, enc := 0, loss := false, st := .empty }
def tileAt (w : Wave) (t : Nat) : Tile := w.tiles.getD t tileEmpty
def holderTile (s : State) (uid t : Nat) : Tile := match holder s uid with | some w => tileAt w t | none => tileEmpty
def updTile (s : State) (uid t : Nat) (f : Tile → Tile) : State :=
  updHolder s uid (fun w => { w with tiles := w.tiles.modify t f })

/-- Effect of a tile command (R278, R279). -/
def tileApply (c : TileCmd) (t : Tile) : Tile :=
  match c with
  | .defBytes base size => { tileEmpty with base := base, size := size }
  | .defPlane base rows cols planes => { tileEmpty with plane := true, base := base, rows := rows, cols := cols, planes := planes }
  | .set ready enc => if ready then { t with st := .ready, enc := if t.plane then enc else t.enc } else { t with st := .empty }

/-- Encoding a fill leaves in a tile (R262, R274, R288). -/
def fillTileEnc (fn : CopyFn) (fmt : Nat) (t : Tile) : Nat :=
  if !t.plane then t.enc else match fn with | .fill => 0 | _ => fillEnc fmt t.planes

/-! ### Tile order (R281, R282) -/

/-- A tile a command names: the wave it belongs to, its index, and whether the command writes it. -/
structure TileUse where
  uid   : Nat
  tile  : Nat
  write : Bool
deriving DecidableEq, Repr

/-- Tiles that a command names; a pair operation reads its peer's tile (R281, R312). -/
def tileUses (f : Flight) : List TileUse :=
  match f.act with
  | .tile t _ => [{ uid := f.who.uid, tile := t, write := true }]
  | .copy c => [{ uid := f.who.uid, tile := c.tile, write := !(c.fn == .st) }]
  | .matrix m =>
    (match m.fn with
     | .mmo _ _ ta tb _ peer =>
       [{ uid := f.who.uid, tile := ta, write := false }, { uid := f.who.uid, tile := tb, write := false }] ++
       (match peer with | some u => [{ uid := u, tile := tb, write := false }] | none => [])
     | .drain _ _ (some t) _ _ _ _ => [{ uid := f.who.uid, tile := t, write := true }]
     | _ => [])
  | _ => []
def usesTile (f : Flight) (uid t : Nat) : Bool := (tileUses f).any (fun u => u.uid == uid && u.tile == t)

/-- Commands that name a tile and have not completed, oldest first. -/
def tileQueue (s : State) (uid t : Nat) : List Flight := s.flights.filter (fun f => !f.held && usesTile f uid t)

/-- Whether a command's turn in a tile's order has come. -/
def tileTurn (s : State) (u : TileUse) (before : Nat) : Bool :=
  (tileQueue s u.uid u.tile).all (fun g => decide (before ≤ g.id) ||
    (!u.write && !(tileUses g).any (fun x => x.uid == u.uid && x.tile == u.tile && x.write)))
def tileTurns (s : State) (f : Flight) : Bool := (tileUses f).all (fun u => tileTurn s u f.id)

/-- What a queued command will leave. -/
def tileAfter (t : Tile) (a : Act) : Tile :=
  match a with
  | .tile _ c => tileApply c t
  | .copy c => if c.fn == .st then t else { t with st := .ready, enc := fillTileEnc c.fn c.fmt t }
  | .matrix m => match m.fn with | .drain _ _ (some _) _ _ _ _ => { t with st := .ready } | _ => t
  | _ => t
def isFill : Act → Bool
  | .copy c => !(c.fn == .st)
  | _ => false

/-- The tile as the queued commands leave it. -/
def tileNext (s : State) (uid t : Nat) : Tile := (tileQueue s uid t).foldl (fun x f => tileAfter x f.act) (holderTile s uid t)

/-- A reader would meet EMPTY with no fill before it (R282). -/
def tileBreach (s : State) (uid t : Nat) : Bool :=
  (tileNext s uid t).st == .empty && !(tileQueue s uid t).any (fun f => isFill f.act)

/-! ### Tile commands -/

/-- Counter check, then the command is queued (R194, R280, R283). -/
def engIssue (s : State) (w : Wave) (cls : Cls) (act : Act) (rr : Option Nat) : Out :=
  finish (addFlight s (whoOf w) (some cls) act rr) w

/-- `tdef` (R278). -/
def tdefBody (s : State) (w : Wave) (t : Nat) (c : TileCmd) : Out :=
  if 63 ≤ counter s w.uid .cp then stall s
  else
    let x := tileApply c tileEmpty
    if w.foot.spad < 256 * x.base + tileBytes x then .next (raisePc s w cBounds 0)
    else engIssue s w .cp (.tile t c) none

def execTdefBytes (o : Cop) (s : State) : Out :=
  runInstr (.tdefBytes o) s (fun s w _ => tdefBody s w o.ta (.defBytes (field o.litNat 11 0) (field o.litNat 35 12)))
def execTdefPlane (o : Cop) (s : State) : Out :=
  runInstr (.tdefPlane o) s (fun s w _ => tdefBody s w o.ta
    (.defPlane (field o.litNat 11 0) (field o.litNat 27 12) (field o.litNat 47 28) (field o.litNat 52 48)))

/-- `tset` (R279). -/
def execTset (o : Cop) (s : State) : Out :=
  runInstr (.tset o) s (fun s w _ =>
    let ready := bitAt o.cm 0
    let enc := field o.cm 2 1
    if 63 ≤ counter s w.uid .cp then stall s
    else
      let x := tileNext s w.uid o.ta
      if ready && enc == 2 && x.plane && !(x.planes == 1) then .next (raisePc s w cTileState o.ta)
      else engIssue s w .cp (.tile o.ta (.set ready enc)) none)

/-- Code of a tile state. -/
def tstateCode : TState → Nat
  | .empty => 0 | .filling => 1 | .ready => 2 | .draining => 3

/-- The word of `tq` (R277). -/
def tileWord (t : Tile) (pend : Bool) : Nat :=
  2 ^ 20 * t.planes + 2 ^ 8 * t.base + (if pend then 2 ^ 6 else 0) + 2 ^ 4 * t.enc + (if t.loss then 2 ^ 3 else 0) +
  (if t.plane then 2 ^ 2 else 0) + tstateCode t.st

/-- `tq` (R280). -/
def execTq (o : Cop) (s : State) : Out :=
  runInstr (.tq o) s (fun s w _ => finish s
    (wrS w o.rr (BitVec.ofNat 64 (tileWord (tileAt w o.ta) (!(tileQueue s w.uid o.ta).isEmpty)))))

end Sys2Proof.Machine
end

