-- ==== Sys2Proof/Machine/Copy.lean ====
section
/-!
DEFINITION. Copy commands (R283 to R290): drill checks, the order among commands of a wave, what a fill and a `cpy.st` write, parts,
failure and completion. The glean functions that share the queue stand in Glean.
-/
namespace Sys2Proof.Machine

/-! ### Spans (R283) -/

/-- Bytes a command reads or writes: scratchpad or virtual memory, from the lowest up to the end. -/
structure Span where
  pad : Bool
  lo  : Int
  hi  : Int
deriving DecidableEq, Repr

def spanHit (a b : Span) : Bool := a.pad == b.pad && decide (a.lo < b.hi) && decide (b.lo < a.hi)
def spansHit (xs ys : List Span) : Bool := xs.any (fun x => ys.any (spanHit x))

/-- Bytes a `cpy.st` writes for a row: a K4 row ends with a side list of no entries (R276). -/
def rowOut (fmt k : Nat) : Nat := rowLen fmt k + if isK4 fmt then 2 else 0

/-- Bytes of a row in memory: those written, those of the packed row, or as far as the side list of a K4 row that is read may reach
(R268, R284). -/
def memRow (c : CopyCmd) : Nat :=
  if c.fn == .st then rowOut c.fmt c.geo.cols
  else if isK4 c.fmt then max c.stride.natAbs (rowLen c.fmt c.geo.cols) else rowLen c.fmt c.geo.cols

/-- Span of rows in memory, or of a bytes tile. -/
def memSpan (c : CopyCmd) : Span :=
  let a : Int := (c.addr.toNat : Nat)
  if !c.geo.plane then { pad := false, lo := a, hi := a + c.geo.size }
  else
    let last : Int := (c.geo.rows - 1 : Nat) * c.stride
    { pad := false, lo := a + min 0 last, hi := a + max 0 last + memRow c }
def tileSpan (t : Tile) : Span := { pad := true, lo := 256 * t.base, hi := 256 * t.base + tileBytes t }

/-- Whole table span of a `cpy.gth` before its list is read (R287). -/
def tableSpan (c : CopyCmd) : Span :=
  let a : Int := (c.addr.toNat : Nat)
  { pad := false, lo := a, hi := a + (2 ^ 32 - 2) * c.stride + memRow c }
def listSpan (c : CopyCmd) : Span := { pad := true, lo := c.idx, hi := c.idx + 4 * c.geo.rows }

def gleanSize (g : GleanCmd) : Nat := match g.fn with | .samp _ _ => 8 | _ => if g.bf16 then 2 else 4
def gleanOut (g : GleanCmd) : Nat := match g.fn with | .topk k => 8 * k | .smax _ => 4 * g.n | .samp _ _ => 0
def gleanSrc (g : GleanCmd) : Span :=
  { pad := g.srcPad, lo := (g.src.toNat : Nat), hi := (g.src.toNat : Nat) + (gleanSize g * g.n : Nat) }
def gleanDst (g : GleanCmd) : Span := { pad := g.dstPad, lo := (g.dst.toNat : Nat), hi := (g.dst.toNat : Nat) + (gleanOut g : Nat) }

/-- Read and write ranges of a command of the copy engine. -/
def readSpans : Act → List Span
  | .copy c =>
    (match c.fn with
     | .ld | .ws => [memSpan c]
     | .gth => [listSpan c, if c.started then { pad := false, lo := c.lo, hi := c.hi } else tableSpan c]
     | .st => [tileSpan c.geo]
     | .fill => [])
  | .glean g => gleanSrc g :: (match g.fn with | .smax _ => [gleanDst g] | _ => [])
  | _ => []
def writeSpans : Act → List Span
  | .copy c => (match c.fn with | .st => [memSpan c] | _ => [tileSpan c.geo])
  | .glean g => [gleanDst g]
  | _ => []

/-- Older commands of the wave on the copy engine. -/
def olderCopies (s : State) (f : Flight) : List Flight :=
  s.flights.filter (fun g => decide (g.id < f.id) && g.who.uid == f.who.uid && !g.held &&
    (match g.act with | .copy _ | .glean _ => true | _ => false))

/-- The two cases of R283 that make a command with these ranges wait. -/
def spanTurn (s : State) (f : Flight) (rd wr : List Span) : Bool :=
  (olderCopies s f).all (fun g => !spansHit rd (writeSpans g.act) && !spansHit wr (readSpans g.act) && !spansHit wr (writeSpans g.act))

/-- Commands in a core's queue (R283). -/
def copyQueued (s : State) (die core : Nat) : Nat :=
  (s.flights.filter (fun g => g.who.die == die && g.who.core == core && !g.held &&
    (match g.act with | .copy _ | .glean _ => true | _ => false))).length
def copyFull (s : State) (w : Wave) : Bool := decide (64 ≤ copyQueued s w.die w.core) || decide (63 ≤ counter s w.uid .cp)

/-! ### Drill checks -/

/-- First fault of a list of checks. -/
def firstFault : List (Option LaneFault) → Option LaneFault
  | [] => none
  | some e :: _ => some e
  | none :: r => firstFault r
def misFault (bad : Bool) (addr size : Nat) : Option LaneFault := if bad then some { cause := cMisalign, addr := addr, detail := size } else none

/-- Fault of a barrier address that is a MISALIGN, or one that is not. -/
def barFault (r : Except LaneFault (Nat × Nat)) (mis : Bool) : Option LaneFault :=
  match r with
  | .error e => if (e.cause == cMisalign) == mis then some e else none
  | .ok _ => none

/-- The barrier a copy names (R284, R287): own offset, peer handle, or the literal of `cpy.gth`. -/
def copyBar (s : State) (w : Wave) (o : Cop) (gth : Bool) : Option (Except LaneFault (Nat × Nat)) :=
  if !o.bar then none
  else some (barAddr s w o.pb (if gth then BitVec.ofNat 64 (field o.litNat 55 32) else rdS w o.sb) false)

/-- Checks of a copy in the order of R143, then the queue (R282 to R287). Every `cpy.ws` of a bytes tile raises TILE_STATE (log 133), and a
misaligned stride is reported at the address of row 1 (log 134). -/
def copyBody (o : Cop) (fn : CopyFn) (s : State) (w : Wave) : Out :=
  if copyFull s w then stall s
  else
    let gth := fn == .gth
    let geo := tileNext s w.uid o.ta
    let addr := rdS w o.sa
    let stride : Int := if gth then (field o.litNat 31 0 : Nat) else if o.str then (rdS w (o.sa + 1)).toInt else (rowLen o.fmt geo.cols : Nat)
    let al := fmtAlign o.fmt
    let idx := (rdS w o.sb).toNat
    let bar := copyBar s w o gth
    let barE (mis : Bool) : Option LaneFault := match bar with | some r => barFault r mis | none => none
    let memory := !(fn == .fill)
    match firstFault [
      misFault (memory && addr.toNat % al != 0) addr.toNat al,
      misFault (memory && o.str && stride % al != 0) (addr + BitVec.ofInt 64 stride).toNat al,
      misFault (gth && idx % 4 != 0) idx 4,
      barE true,
      if gth && decide (w.foot.spad < idx + 4 * geo.rows) then some { cause := cBounds, addr := max idx w.foot.spad, detail := 0 } else none,
      barE false,
      if ((fn == .gth || fn == .ws || (fn == .st && o.str)) && !geo.plane) || (fn == .st && tileBreach s w.uid o.ta) then
        some { cause := cTileState, addr := (gpc w).toNat, detail := o.ta } else none] with
    | some e => .next (raiseDrill s w e.cause e.addr e.detail)
    | none =>
      let barOk : Option (Nat × Nat) := match bar with | some (.ok b) => some b | _ => none
      engIssue s w .cp (.copy { fn := fn, tile := o.ta, geo := geo, addr := addr, stride := stride, fmt := o.fmt, bar := barOk, idx := idx,
                                started := false, first := 0, img := [], todo := [], total := 0, done := 0, lo := 0, hi := 0 })
        (if o.rf then some (bankKey w o.rr) else none)

def execCpyLd (o : Cop) (s : State) : Out := runInstr (.cpyLd o) s (fun s w _ => copyBody o .ld s w)
def execCpySt (o : Cop) (s : State) : Out := runInstr (.cpySt o) s (fun s w _ => copyBody o .st s w)
def execCpyGth (o : Cop) (s : State) : Out := runInstr (.cpyGth o) s (fun s w _ => copyBody o .gth s w)
def execCpyWs (o : Cop) (s : State) : Out := runInstr (.cpyWs o) s (fun s w _ => copyBody o .ws s w)
def execCpyFill (o : Cop) (s : State) : Out := runInstr (.cpyFill o) s (fun s w _ => copyBody o .fill s w)

/-! ### Reading the source -/

/-- Pages a fill may read: estimator pages under format 24 only and for a plane tile, whose elements a format names (R174, R269, R285;
log 132); the own die's weight store for `cpy.ws`. -/
def fillPage (who : Who) (c : CopyCmd) (p : Page) (pa : Nat) : Bool :=
  if c.fn == .ws then p.ptype == .weight && homeDie pa == who.die
  else if c.geo.plane && c.fmt == 24 then p.ptype == .estimator || readable p pa
  else readable p pa

/-- Bytes of a row; a K4 row's side list is read as far as its count and the stride say (R268). -/
def rowBytes (s : State) (who : Who) (c : CopyCmd) (a : W64) : Except Nat (List Byte) :=
  let rd (a : W64) (n : Nat) := engBytes s who.die who.core who.asid (fillPage who c) a n
  let n := rowLen c.fmt c.geo.cols
  if !isK4 c.fmt then rd a n
  else
    let room := c.stride.natAbs - n
    match rd a (n + min 2 room) with
    | .error e => .error e
    | .ok bs =>
      let cnt := if room < 2 then 0 else leNat (bs.drop n)
      match rd (a + BitVec.ofNat 64 (n + 2)) (4 * min cnt ((room - 2) / 4)) with
      | .error e => .error e
      | .ok more => .ok (bs ++ more)

/-- Expansion of one row into plane blocks, and LOSS (R273, R274). -/
def rowBlocks (c : CopyCmd) (bs : List Byte) : List (PBlock × Bool) :=
  let enc := fillEnc c.fmt c.geo.planes
  (List.range (c.geo.cols / 8)).map (fun b =>
    let vs := (List.range 8).map (fun j => decodeElem c.fmt c.geo.cols bs (8 * b + j))
    if c.geo.planes = 1 then (expandOne vs, false) else expandBlock c.geo.planes enc (fixedExp c.fmt bs (8 * b)) vs)

/-- Starts of a fill's rows; `none` for an absent row of `cpy.gth` (R284, R287). -/
def rowStarts (s : State) (uid : Nat) (c : CopyCmd) : List (Option W64) :=
  (List.range c.geo.rows).map (fun r =>
    if c.fn == .gth then
      let i := leNat (padRead s uid (c.idx + 4 * r) 4)
      if i = 2 ^ 32 - 1 then none else some (c.addr + BitVec.ofInt 64 (i * c.stride))
    else some (c.addr + BitVec.ofInt 64 (r * c.stride)))

/-- Rows of a fill in order: blocks and LOSS, or the failing address. -/
def fillRows (s : State) (who : Who) (c : CopyCmd) : List (Option W64) → Except Nat (List (PBlock × Bool))
  | [] => .ok []
  | a :: as =>
    let here : Except Nat (List (PBlock × Bool)) := match a with
      | none => .ok (List.replicate (c.geo.cols / 8) ({ e := 0, ms := List.replicate 8 0 }, false))
      | some va => (rowBytes s who c va).map (rowBlocks c)
    match here with
    | .error e => .error e
    | .ok x => (fillRows s who c as).map (fun y => x ++ y)

/-- A format that does not fit the tile (R274). Rows of a K4 format longer than the 65,536 elements of R268 are copied: no entry names an
element beyond (log 131). -/
def fmtMismatch (fn : CopyFn) (fmt : Nat) (t : Tile) : Bool :=
  t.plane && ((t.cols % fmtBlock fmt != 0) || (!(fn == .st) && t.planes == 1 && !(fmt == 15 || fmt == 16)))

/-- Bytes a fill writes to its tile, and LOSS; the failing address otherwise (R285, R287, R288). -/
def fillImage (s : State) (who : Who) (c : CopyCmd) : Except Nat (List Byte × Bool) :=
  if c.fn == .fill then
    (if c.geo.plane then
       let b := expandBlock c.geo.planes 0 none (List.replicate 8 (fvOf fmtF32 (c.addr.toNat % 2 ^ 32)).plus)
       let b0 : PBlock := if f32IsZero (c.addr.toNat % 2 ^ 32) then { e := 0, ms := List.replicate 8 0 } else b.1
       .ok (tileImage c.geo.planes 0 (List.replicate (c.geo.rows * c.geo.cols / 8) b0), b.2)
     else .ok (((List.replicate (c.geo.size / 8 + 1) (leBytes 8 c.addr.toNat)).flatten).take c.geo.size, false))
  else if !c.geo.plane then (engBytes s who.die who.core who.asid (fillPage who c) c.addr c.geo.size).map (fun bs => (bs, false))
  else if fmtMismatch c.fn c.fmt c.geo then .error 0
  else if c.fn == .gth && padPoisoned s who.uid c.idx (4 * c.geo.rows) then .error (padBadAt s who.uid c.idx (4 * c.geo.rows))
  else (fillRows s who c (rowStarts s who.uid c)).map (fun bs =>
    (tileImage c.geo.planes (fillEnc c.fmt c.geo.planes) (bs.map (fun b => b.1)), bs.any (fun b => b.2)))

/-! ### Destination of `cpy.st` -/

/-- Rows a `cpy.st` writes, as offsets from the lowest byte, and LOSS (R275, R276, R286). -/
def storeRows (s : State) (uid : Nat) (c : CopyCmd) : List (Nat × List Byte) × Bool :=
  let bs := padRead s uid (256 * c.geo.base) (tileBytes c.geo)
  if !c.geo.plane then ([(0, bs)], false)
  else
    let low : Int := min 0 ((c.geo.rows - 1 : Nat) * c.stride)
    let enc := (holderTile s uid c.tile).enc
    let rows := (List.range c.geo.rows).map (fun r =>
      let p := packRow c.fmt (tileRow c.geo.planes enc c.geo.rows c.geo.cols bs r)
      ((r * c.stride - low).toNat, p.1, p.2))
    (rows.map (fun r => (r.1, r.2.1)), rows.any (fun r => r.2.2))

/-- First byte of the destination rows, the lowest that a row holds; bytes of two rows count once (R289; log 135). -/
def storeFirst (c : CopyCmd) : W64 :=
  if !c.geo.plane then c.addr else c.addr + BitVec.ofInt 64 (min 0 ((c.geo.rows - 1 : Nat) * c.stride))

/-- Bytes of the destination rows, whatever they hold. -/
def storeShape (c : CopyCmd) : List (Nat × List Byte) :=
  if !c.geo.plane then [(0, List.replicate c.geo.size 0)]
  else
    let low : Int := min 0 ((c.geo.rows - 1 : Nat) * c.stride)
    (List.range c.geo.rows).map (fun r => ((r * c.stride - low).toNat, List.replicate (rowOut c.fmt c.geo.cols) 0))

/-! ### Parts (R289) -/

/-- Parts of 256 bytes that the pieces touch. -/
def partsOf (img : List (Nat × List Byte)) : List Nat :=
  img.foldl (fun acc p => if p.2.isEmpty then acc else unionNat acc (natsFrom (p.1 / 256) ((p.1 + p.2.length - 1) / 256 - p.1 / 256 + 1))) []

/-- The byte at an offset: the last piece that covers it (R286). -/
def pieceByte (img : List (Nat × List Byte)) (off : Nat) : Option Byte :=
  img.foldl (fun b p => if p.1 ≤ off ∧ off < p.1 + p.2.length then some (p.2.getD (off - p.1) 0) else b) none

/-- Runs of bytes of a part: offset and bytes. -/
def partRuns (img : List (Nat × List Byte)) (part : Nat) : List (Nat × List Byte) :=
  (natsFrom (256 * part) 256).foldr (fun off acc =>
    match pieceByte img off with
    | none => acc
    | some b =>
      match acc with
      | (o, bs) :: r => if o = off + 1 then (off, b :: bs) :: r else (off, [b]) :: acc
      | [] => [(off, [b])]) []
def partLen (img : List (Nat × List Byte)) (part : Nat) : Nat := ((partRuns img part).map (fun r => r.2.length)).sum

/-! ### Start, completion, failure -/

/-- Subtract bytes from the named barrier (R207, R289). -/
def subBar (s : State) (c : CopyCmd) (n : Nat) : State :=
  match c.bar with
  | none => s
  | some (uid, off) => if n = 0 then s else barDo s uid off (.exp (0 - BitVec.ofNat 64 n))

/-- The command completes with its reply (R289): bytes written, LOSS, failure. -/
def endCopy (s : State) (f : Flight) (c : CopyCmd) (failed : Bool) : State :=
  let loss := (holderTile s f.who.uid c.tile).loss
  endFlight (reply s f (BitVec.ofNat 64 (c.done % 2 ^ 32 + (if loss then 2 ^ 32 else 0) + (if failed then 2 ^ 33 else 0)))) f

/-- Failure (R290). -/
def failCopy (s : State) (f : Flight) (c : CopyCmd) (addr : Nat) : State :=
  let s1 := deferOrRecord s f.who 2 cEngineErr f.who.lanes (BitVec.ofNat 64 addr) 1
  let s2 := if c.fn == .st then s1 else updTile s1 f.who.uid c.tile (fun t => { t with st := .empty })
  endCopy (subBar s2 c (c.total - c.done)) f c true

/-- The last part is complete: READY, and the command ends. -/
def allParts (s : State) (f : Flight) (c : CopyCmd) : State :=
  endCopy (if c.fn == .st then s else updTile s f.who.uid c.tile (fun t => { t with st := .ready })) f c false

/-- A command goes on with parts to write; with none left it is complete. -/
def withParts (s : State) (f : Flight) (c : CopyCmd) : State :=
  if c.todo.isEmpty then allParts s f c else setAct s f (.copy c)

/-- Bytes that a fill reads of a row: with the side list of a K4 row as far as it goes (R268). -/
def rowRead (s : State) (who : Who) (c : CopyCmd) (va : W64) : Nat :=
  if isK4 c.fmt then (match rowBytes s who c va with | .ok bs => bs.length | .error _ => rowLen c.fmt c.geo.cols) else rowLen c.fmt c.geo.cols

/-- Memory that a fill reads: the addressed rows. -/
def fillRanges (s : State) (who : Who) (c : CopyCmd) : List VRange :=
  if c.fn == .fill || c.fn == .st then []
  else if !c.geo.plane then [(c.addr, c.geo.size)]
  else (rowStarts s who.uid c).filterMap (fun a => a.map (fun va => (va, rowRead s who c va)))

/-- Span from the lowest to the highest byte that a fill reads of its rows (R283, R287). -/
def rowsSpan (s : State) (who : Who) (c : CopyCmd) : Span :=
  let rs := (fillRanges s who c).map (fun r => (r.1.toNat, r.1.toNat + r.2))
  let lo := rs.foldl (fun m r => min m r.1) (match rs with | r :: _ => r.1 | [] => 0)
  { pad := false, lo := (lo : Nat), hi := (rs.foldl (fun m r => max m r.2) lo : Nat) }

/-- A fill starts: FILLING, LOSS cleared, then set by the expansion (R272, R281). -/
def startFill (s : State) (f : Flight) (c : CopyCmd) : State :=
  let s0 := if c.fn == .ws then s else engTouch s f.who.asid (fillRanges s f.who c)
  let s1 := updTile s0 f.who.uid c.tile (fun t => { t with st := .filling, loss := false, enc := fillTileEnc c.fn c.fmt c.geo })
  let sp := rowsSpan s f.who c
  let c1 := { c with started := true, total := tileBytes c.geo, lo := sp.lo, hi := sp.hi }
  match fillImage s f.who c with
  | .error a => failCopy s1 f c1 a
  | .ok (bs, loss) =>
    let img := [(0, bs)]
    withParts (updTile s1 f.who.uid c.tile (fun t => { t with loss := loss })) f { c1 with img := img, todo := partsOf img }

/-- A `cpy.st` starts: its rows are packed (R286). The bytes that a failing start subtracts are those of its rows (R290). -/
def startStore (s : State) (f : Flight) (c : CopyCmd) : State :=
  let bytes (img : List (Nat × List Byte)) : Nat := ((partsOf img).map (partLen img)).sum
  if fmtMismatch c.fn c.fmt c.geo then failCopy s f { c with total := bytes (storeShape c) } 0
  else if padPoisoned s f.who.uid (256 * c.geo.base) (tileBytes c.geo) then
    failCopy s f { c with total := bytes (storeShape c) } (padBadAt s f.who.uid (256 * c.geo.base) (tileBytes c.geo))
  else
    let r := storeRows s f.who.uid c
    let s1 := updTile s f.who.uid c.tile (fun t => { t with loss := t.loss || r.2 })
    withParts s1 f { c with started := true, first := storeFirst c, img := r.1, todo := partsOf r.1, total := bytes r.1 }

/-- The index list of a `cpy.gth` lies in a tile that is filled or drained (R287). -/
def listBusy (s : State) (uid : Nat) (c : CopyCmd) : Bool := c.fn == .gth && tileBusy s uid c.idx (4 * c.geo.rows)

/-- Read ranges a command must find free: for `cpy.gth` the rows its list names (R287). -/
def startReads (s : State) (who : Who) (c : CopyCmd) : List Span :=
  match c.fn with
  | .gth => [listSpan c, rowsSpan s who c]
  | .ld | .ws => [rowsSpan s who c]
  | _ => readSpans (.copy c)

/-- Physical pieces of runs at offsets from an address. -/
def runsPlan (s : State) (asid : Nat) (first : W64) : List (Nat × List Byte) → Except Nat (List Piece)
  | [] => .ok []
  | r :: rs =>
    match engPlan s asid writable (first + BitVec.ofNat 64 r.1) r.2 with
    | .error e => .error e
    | .ok x => (runsPlan s asid first rs).map (fun y => x ++ y)

/-- One part is written and subtracts from its barrier; the last one ends the command (R289, R290). -/
def copyPart (s : State) (f : Flight) (c : CopyCmd) (part : Nat) : Out :=
  if !c.todo.contains part then .next s
  else
    let runs := partRuns c.img part
    let n := partLen c.img part
    let c1 := { c with todo := c.todo.filter (fun p => !(p == part)), done := c.done + n }
    if c.fn == .st then
      match runsPlan s f.who.asid c.first runs with
      | .error a => inReplyOrder s f (failCopy s f c a)
      | .ok ps =>
        afterLazy s (pieceRanges ps) (fun _ => true)
          (inReplyOrder s f (withParts (subBar (putPieces s f.who.die f.who.core ps) c n) f c1))
    else inReplyOrder s f (withParts (subBar (runs.foldl (fun st r => padWrite st f.who.uid (256 * c.geo.base + r.1) r.2) s) c n) f c1)

/-- COPY_PART_COMPLETION (R289). -/
def execCopyPartCompletion (fid part : Nat) (s : State) : Out :=
  onFlight s fid (fun f =>
    match f.act with
    | .copy c => if c.started then copyPart s f c part else .next s
    | _ => .next s)

end Sys2Proof.Machine
end

