-- ==== Sys2Proof/Machine/Glean.lean ====
section
/-!
DEFINITION. The glean functions (R291 to R294), COPY_COMMAND_START and GLEAN_COMPLETION.
-/
namespace Sys2Proof.Machine

/-! ### Drill checks (R291) -/

/-- A scratchpad range beyond the allocation. -/
def padFault (w : Wave) (pad : Bool) (a : W64) (n : Nat) : Option LaneFault :=
  if pad && decide (w.foot.spad < a.toNat + n) then some { cause := cBounds, addr := max a.toNat w.foot.spad, detail := 0 } else none

def gleanBody (o : Cop) (g : GleanCmd) (dstAlign : Nat) (s : State) (w : Wave) : Out :=
  if copyFull s w then stall s
  else
    match firstFault [
      misFault (g.src.toNat % gleanSize g != 0) g.src.toNat (gleanSize g),
      misFault (g.dst.toNat % dstAlign != 0) g.dst.toNat dstAlign,
      padFault w g.srcPad g.src (gleanSize g * g.n),
      padFault w g.dstPad g.dst (gleanOut g)] with
    | some e => .next (raiseDrill s w e.cause e.addr e.detail)
    | none => engIssue s w .cp (.glean g) (if o.rf then some (bankKey w o.rr) else none)

def gleanCmd (w : Wave) (o : Cop) (fn : GleanFn) (n : Nat) (dst : W64) : GleanCmd :=
  { fn := fn, n := n, bf16 := bitAt o.cm 9, src := rdS w o.sa, srcPad := bitAt o.cm 10, dst := dst, dstPad := bitAt o.cm 11,
    started := false, words := [], ans := 0 }

def execGlTopk (o : Cop) (s : State) : Out :=
  runInstr (.glTopk o) s (fun s w _ => gleanBody o (gleanCmd w o (.topk (o.cm % 512)) (gleanN o) (rdS w o.sb)) 8 s w)
def execGlSmax (o : Cop) (s : State) : Out :=
  runInstr (.glSmax o) s (fun s w _ => gleanBody o (gleanCmd w o (.smax (field o.litNat 63 32)) (gleanN o) (rdS w o.sb)) 4 s w)
def execGlSamp (o : Cop) (s : State) : Out :=
  runInstr (.glSamp o) s (fun s w _ =>
    gleanBody o (gleanCmd w o (.samp (field (rdS w o.sb).toNat 31 0) (field (rdS w o.sb).toNat 63 32)) (o.cm % 512) 0) 8 s w)

/-! ### Source elements -/

/-- Source bytes, or the failing address. -/
def gleanRead (s : State) (who : Who) (g : GleanCmd) : Except Nat (List Byte) :=
  if g.srcPad then
    (if padPoisoned s who.uid g.src.toNat (gleanSize g * g.n) then
       .error (padBadAt s who.uid g.src.toNat (gleanSize g * g.n))
     else .ok (padRead s who.uid g.src.toNat (gleanSize g * g.n)))
  else engBytes s who.die who.core who.asid readable g.src (gleanSize g * g.n)

/-- Elements as FP32 patterns; a BF16 element is converted exactly (R291). -/
def gleanElems (g : GleanCmd) (bs : List Byte) : List Nat :=
  (groupsOfN (gleanSize g) g.n bs).map (fun b => if g.bf16 then leNat b * 2 ^ 16 else leNat b)

/-! ### gl.topk (R292) -/

/-- Whether element x ranks before y: numbers descending, then NaNs; equals by index. -/
def topBefore (x y : Nat × Nat) : Bool :=
  match f32IsNan x.2, f32IsNan y.2 with
  | true, true => decide (x.1 < y.1)
  | true, false => false
  | false, true => true
  | false, false => f32Lt y.2 x.2 || (!f32Lt x.2 y.2 && decide (x.1 < y.1))
def topIns (k : Nat) (x : Nat × Nat) : List (Nat × Nat) → List (Nat × Nat)
  | [] => [x].take k
  | y :: r => if topBefore x y then (x :: y :: r).take k else y :: topIns (k - 1) x r

/-- The k pairs: index, value. -/
def topPairs (k : Nat) (xs : List Nat) : List (Nat × Nat) :=
  let t := (xs.mapIdx (fun i x => (i, x))).foldl (fun acc x => topIns k x acc) []
  (t.map (fun p => (p.1, if f32IsNan p.2 then 0x7FC00000 else p.2))) ++ List.replicate (k - t.length) (0xFFFFFFFF, 0x7FC00000)

/-! ### gl.smax (R293) -/

/-- Running sum of a block. -/
def blockSum (xs : List Nat) : Nat := xs.foldl f32Add 0
/-- Pairwise sums in ascending order. -/
def pairSums : List Nat → List Nat
  | a :: b :: r => f32Add a b :: pairSums r
  | xs => xs
def foldSums : Nat → List Nat → Nat
  | 0, xs => xs.headD 0
  | fuel + 1, xs => if xs.length ≤ 1 then xs.headD 0 else foldSums fuel (pairSums xs)
def smaxSum (es : List Nat) : Nat := foldSums 23 ((groupsOfN 256 es.length es).map blockSum)

/-- Maximum by `fcmp`; the first of equals stays. -/
def smaxMax (xs : List Nat) : Nat := xs.foldl (fun m x => if f32Lt m x then x else m) (xs.headD 0)

/-- mx as the reply gives it: where the maximum is a zero and both zeros stand among the elements, its sign is free (R293; log 114). -/
def smaxReply (s : State) (xs : List Nat) : Nat :=
  if f32IsZero (smaxMax xs) && xs.contains 0 && xs.contains 0x80000000 then (if flipAt s 61 then 0x80000000 else 0) else smaxMax xs

/-- e_i of an element, as the pseudocode of R293 computes it whatever the sign of s (log 136). -/
def smaxExp (scale mx x : Nat) : Nat := f32Exp2 (f32Mul scale (f32Sub x mx))

/-- Whether every probability is NaN. -/
def smaxBad (scale : Nat) (xs : List Nat) : Bool :=
  xs.any f32IsNan || f32IsNan scale || smaxMax xs == 0x7F800000 || smaxMax xs == 0xFF800000

/-- Source and destination overlap in a way that leaves the words open (R293; log 11). -/
def smaxOpen (g : GleanCmd) : Bool :=
  spanHit (gleanSrc g) (gleanDst g) && !(g.src == g.dst && !g.bf16)

/-- Word i of an open destination: free (log 11). -/
def openWord (s : State) (i : Nat) : Nat := (Config.word (2 ^ 64 * (s.draws + 1) + i)).toNat

/-! ### gl.samp (R294) -/

/-- Pairs used: index, value; the list stops before the first end mark, NaN or value that is not above 0. -/
def sampPairs (bs : List Byte) (m : Nat) : List (Nat × Nat) :=
  ((groupsOfN 8 m bs).map (fun b => (leNat (b.take 4), leNat (b.drop 4)))).takeWhile
    (fun p => !(p.1 == 0xFFFFFFFF) && !f32IsNan p.2 && f32Lt 0 p.2)

/-- Running sums c_1, c_2, … -/
def runSums (acc : Nat) : List Nat → List Nat
  | [] => []
  | x :: xs => f32Add acc x :: runSums (f32Add acc x) xs

def sampAns (u p : Nat) (ps : List (Nat × Nat)) : W64 :=
  let cs := runSums 0 (ps.map (fun x => x.2))
  let t := cs.getLastD 0
  let cut := !f32IsNan p && f32Lt 0 p && f32Lt p 0x3F800000
  let cs' := if cut then cs.take ((0 :: cs).findIdx (fun c => f32Le (f32Mul p t) c)) else cs
  if cs'.isEmpty || f32IsNan u then BitVec.ofNat 64 (2 ^ 64 - 1)
  else
    let t' := cs'.getLastD 0
    let u' := if f32Lt u 0 then 0 else u
    let target := f32Mul u' t'
    let j := min (cs'.findIdx (fun c => f32Lt target c)) (cs'.length - 1)
    BitVec.ofNat 64 (2 ^ 32 * j + (ps.getD j (0, 0)).1)

/-! ### Running -/

/-- Pieces of destination bytes in memory; none for a scratchpad destination. -/
def gleanPlan (s : State) (who : Who) (g : GleanCmd) (bs : List Byte) : Except Nat (List Piece) :=
  if g.dstPad then .ok [] else engPlan s who.asid writable g.dst bs

/-- Write destination bytes. -/
def gleanPut (s : State) (who : Who) (g : GleanCmd) (bs : List Byte) (ps : List Piece) : State :=
  if g.dstPad then padWrite s who.uid g.dst.toNat bs else putPieces s who.die who.core ps

/-- Failure: ENGINE_ERR; what is written stays (R290, R291). -/
def failGlean (s : State) (f : Flight) (addr : Nat) : State :=
  endFlight (deferOrRecord s f.who 2 cEngineErr f.who.lanes (BitVec.ofNat 64 addr) 1) f

/-- What a start forms: words still to write, reply, and the words `gl.smax` shows meanwhile (R292 to R294). -/
def gleanForm (s : State) (g : GleanCmd) (bs : List Byte) : List Nat × W64 × List Nat :=
  match g.fn with
  | .topk k =>
    let xs := gleanElems g bs
    ((topPairs k xs).flatMap (fun p => [p.1, p.2]), BitVec.ofNat 64 (xs.filter f32IsNan).length, [])
  | .samp u p => ([], sampAns u p (sampPairs bs g.n), [])
  | .smax sc =>
    let xs := gleanElems g bs
    if smaxBad sc xs then
      (xs.map (fun _ => 0x7FC00000), BitVec.ofNat 64 (0x7FC00000 + 2 ^ 32 * 0x7FC00000), xs.map (fun _ => 0x7FC00000))
    else
      let mx := smaxMax xs
      let es := xs.map (smaxExp sc mx)
      let sum := smaxSum es
      if smaxOpen g then
        (xs.mapIdx (fun i _ => openWord s i), BitVec.ofNat 64 (smaxReply s xs + 2 ^ 32 * openWord s g.n),
          xs.mapIdx (fun i _ => openWord s (g.n + 1 + i)))
      else (es.map (fun e => f32Div e sum), BitVec.ofNat 64 (smaxReply s xs + 2 ^ 32 * sum), es)

def wordBytes (xs : List Nat) : List Byte := xs.flatMap (leBytes 4)

/-- Memory that a glean command reads. -/
def gleanRanges (g : GleanCmd) : List VRange := if g.srcPad then [] else [(g.src, gleanSize g * g.n)]

/-- A glean command starts: the source is read; `gl.smax` writes its e_i (R293). -/
def startGlean (s0 : State) (f : Flight) (g : GleanCmd) : Out :=
  let s := engTouch s0 f.who.asid (gleanRanges g)
  match gleanRead s f.who g with
  | .error a => inReplyOrder s f (failGlean s f a)
  | .ok bs =>
    let r := gleanForm s g bs
    let mid := wordBytes r.2.2
    match gleanPlan s f.who g mid with
    | .error a => inReplyOrder s f (failGlean s f a)
    | .ok ps => afterLazy s (pieceRanges ps) (fun _ => true)
        (.next (setAct (gleanPut s f.who g mid ps) f (.glean { g with started := true, words := r.1, ans := r.2.1 })))

/-- GLEAN_COMPLETION (R292 to R294). -/
def execGleanCompletion (fid : Nat) (s : State) : Out :=
  onFlight s fid (fun f =>
    match f.act with
    | .glean g =>
      if !g.started then .next s
      else
        let bs := wordBytes g.words
        match gleanPlan s f.who g bs with
        | .error a => inReplyOrder s f (failGlean s f a)
        | .ok ps => afterLazy s (pieceRanges ps) (fun _ => true)
            (inReplyOrder s f (endFlight (reply (gleanPut s f.who g bs ps) f g.ans) f))
    | _ => .next s)

/-- COPY_COMMAND_START: a tile command, a copy or a glean command whose turn has come starts (R281, R283, R287). -/
def execCopyCommandStart (fid : Nat) (s : State) : Out :=
  onFlight s fid (fun f =>
    match f.act with
    | .tile t c => if tileTurns s f then .next (endFlight (updTile s f.who.uid t (tileApply c)) f) else .next s
    | .copy c =>
      if c.started || !tileTurns s f || !spanTurn s f [] (writeSpans f.act) || listBusy s f.who.uid c then .next s
      else if c.fn == .gth && !spanTurn s f [listSpan c] [] then .next s
      else if !spanTurn s f (startReads s f.who c) [] then .next s
      else if engRefresh s f.who.asid (c.fn == .ws) (fillRanges s f.who c) then .next s
      else inReplyOrder s f (if c.fn == .st then startStore s f c else startFill s f c)
    | .glean g =>
      if g.started || !spanTurn s f (readSpans f.act) (writeSpans f.act) || engRefresh s f.who.asid false (gleanRanges g) then .next s
      else startGlean s f g
    | _ => .next s)

end Sys2Proof.Machine
end

