-- ==== Sys2Proof/Machine/Matrix.lean ====
section
/-!
DEFINITION. The matrix engine (R296 to R316): leases, `mclr`, `mmo`, `mdrain` and their events.
-/
namespace Sys2Proof.Machine

/-! ### Banks -/

def bankAt (e : Engine) (b : Nat) : Bank := if b = 0 then e.a0 else e.a1
def setBank (e : Engine) (b : Nat) (x : Bank) : Engine := if b = 0 then { e with a0 := x } else { e with a1 := x }
def bankWord (b : Bank) (r c : Nat) : W32 := stGet b.fill (256 * r + c) b.words

/-- Semirings by code (R306). -/
def modeOf (n : Nat) : BMode :=
  match n with | 0 => .f32 | 1 => .i32 | 2 => .minplus | 3 => .maxplus | 4 => .maxtimes | _ => .orand

/-- Fill of `mclr` (R305). -/
def clrFill (n : Nat) : W32 := match n with | 0 => 0 | 1 => 0x7FFFFFFF | _ => 0x80000000

/-! ### Issue (R299, R302) -/

/-- ENG 2 commands on a follower core raise LEASE (R297). -/
def isFollower (w : Wave) : Bool := w.core % 2 == 1
def matCmd (s : State) (w : Wave) (fn : MatFn) (ends : Bool) : MatCmd :=
  { eng := engineOf w.die w.core, fn := fn, ends := ends, cycle := coreClock s w.die w.core, started := false, failed := none, words := [], out := [], rows := 0, cols := 0,
    ovf := false, mode := .none }

/-- `mlease` (R299, R300, R303). -/
def execMlease (o : Cop) (s : State) : Out :=
  runInstr (.mlease o) s (fun s w _ =>
    if isFollower w then .next (raisePc s w cLease 0)
    else
      let n := min (w.lease + o.cm % 256) 255
      finish (addFlight s (whoOf w) none (.matrix (matCmd s w (.lease (w.lease == 0) n) false)) (if o.rf then some (bankKey w o.rr) else none))
        { w with lease := n })

/-- `mrel` (R299, R304). -/
def execMrel (o : Cop) (s : State) : Out :=
  runInstr (.mrel o) s (fun s w _ =>
    if isFollower w then .next (raisePc s w cLease 0)
    else if w.lease = 0 then finish s w
    else finish (addFlight s (whoOf w) none (.matrix (matCmd s w .rel false)) none) { w with lease := 0 })

/-- A drain of a home slice to a tile squashes the forks that have loaded from the bytes it writes (R133); of a drain over the bank's
extent, those that have loaded from the tile (log 80). -/
def squashDrain (s : State) (w : Wave) (t rows cols : Nat) : State :=
  let x := tileNext s w.uid t
  let n := if rows = 0 ∨ cols = 0 then tileBytes x else 4 * rows * cols
  squashWhere s w.uid (fun y f => f.slices.any (fun i => (gang w).contains i) &&
    (coreAt s w.die w.core).flt.any (fun e => e.uid == y.uid && e.pad && decide (8 * x.base ≤ e.sector ∧ 32 * e.sector < 256 * x.base + n)))

/-- A command that takes one from the lease count: counter, checks in the order of R143, then the queue. -/
def leased (s : State) (w : Wave) (early late : List (Option LaneFault)) (fn : MatFn) : Out :=
  if 63 ≤ counter s w.uid .mx then stall s
  else
    let lease := if isFollower w || w.lease == 0 then some { cause := cLease, addr := (gpc w).toNat, detail := 0 } else none
    match firstFault (early ++ [lease] ++ late) with
    | some e => .next (raiseDrill s w e.cause e.addr e.detail)
    | none =>
      let w1 := { w with lease := w.lease - 1 }
      let s1 := addFlight s (whoOf w) (some .mx) (.matrix (matCmd s w fn (w.lease == 1))) none
      match fn with
      | .drain _ _ (some t) _ _ r c => goOn (squashDrain (putWave s1 w1) w t r c) w.uid
      | _ => finish s1 w1

/-- `mclr` (R305). -/
def execMclr (o : Cop) (s : State) : Out :=
  runInstr (.mclr o) s (fun s w _ => leased s w [] [] (.clr (o.cm % 2) (o.cm / 2 % 4)))

def tileFault (w : Wave) (bad : Bool) (t : Nat) : Option LaneFault :=
  if bad then some { cause := cTileState, addr := (gpc w).toNat, detail := t } else none

/-- Planes a semiring allows (R307). -/
def planesBad (m : BMode) (p : Nat) : Bool :=
  match m with | .minplus | .maxplus | .maxtimes => decide (16 < p) | .orand => !(p == 1) | _ => false

/-- Checks of the handle of a pair (R312): BOUNDS of its fields, then PEER_GONE. -/
def pairFault (s : State) (w : Wave) (h : W64) : Option LaneFault :=
  if field h.toNat 63 40 ≠ 0 ∨ field h.toNat 39 38 ≠ w.core % 4 + 1 ∨ field h.toNat 31 0 ≠ 0 then
    some { cause := cBounds, addr := field h.toNat 31 0, detail := 0 }
  else if (peerOf s w h).isNone then some { cause := cPeerGone, addr := 0, detail := goneDetail w h }
  else none

/-- `mmo` (R306, R307, R311, R312). -/
def execMmo (o : Cop) (s : State) : Out :=
  runInstr (.mmo o) s (fun s w _ =>
    let mode := modeOf (o.cm % 8)
    let pair := bitAt o.cm 5
    let zb := bitAt o.cm 4
    let a := tileNext s w.uid o.ta
    let b := tileNext s w.uid o.tb
    let h := rdS w o.sb
    let off := (rdS w o.sa).toNat
    let peer := if pair then peerOf s w h else none
    let badA := !a.plane || !([8, 16, 32, 64, 128].contains a.rows) || planesBad mode a.planes || tileBreach s w.uid o.ta
    let badB := !b.plane || !(b.rows == a.cols) || (if pair then !(b.cols == 128) else decide (128 < b.cols)) || planesBad mode b.planes ||
      tileBreach s w.uid o.tb
    let badP := match peer with
      | none => false
      | some p =>
        let t := tileNext s p.uid o.tb
        decide (p.foot.tiles ≤ o.tb) || !t.plane || !(t.rows == a.cols) || decide (128 < t.cols) || !(t.planes == b.planes) ||
        !(t.enc == b.enc) || tileBreach s p.uid o.tb
    leased s w
      [misFault (zb && off % 2 == 1) off 2,
       if zb && decide (w.foot.spad < off + a.cols / 4) then some { cause := cBounds, addr := max off w.foot.spad, detail := 0 } else none,
       if pair then pairFault s w h else none]
      [tileFault w badA o.ta, tileFault w (badB || badP) o.tb]
      (.mmo (o.cm / 8 % 2) mode o.ta o.tb (if zb then some off else none) (peer.map (fun p => p.uid))))

/-- Rows and columns `mdrain` names; 0 for the extent (R314). -/
def drainRows (cm : Nat) : Nat := match field cm 6 4 with | 0 => 0 | n => 2 ^ (n + 2)
def drainCols (cm : Nat) : Nat := 8 * field cm 11 7

/-- `mdrain` (R314, R315). -/
def execMdrain (o : Cop) (s : State) : Out :=
  runInstr (.mdrain o) s (fun s w _ =>
    let toTile := bitAt o.cm 2
    let str := bitAt o.cm 3
    let addr := rdS w o.sa
    let stride := (rdS w (o.sa + 1)).toInt
    let r := drainRows o.cm
    let c := drainCols o.cm
    let t := tileNext s w.uid o.ta
    leased s w
      [misFault (!toTile && addr.toNat % 4 != 0) addr.toNat 4,
       misFault (!toTile && str && stride % 4 != 0) (addr + BitVec.ofInt 64 stride).toNat 4]
      [tileFault w (toTile && (t.plane || (!(r == 0) && !(c == 0) && decide (t.size < 4 * r * c)))) o.ta]
      (.drain (o.cm % 2) (bitAt o.cm 1) (if toTile then some o.ta else none) addr (if str then some stride else none) r c))

/-! ### Leases -/

/-- Matrix commands of a wave on an engine that have not completed. -/
def matFlights (s : State) (eng uid : Nat) : List Flight :=
  s.flights.filter (fun f => f.who.uid == uid && !f.held && (match f.act with | .matrix m => m.eng == eng | _ => false))

/-- The engine is free: no lease, or its holder has retired and its commands have completed (R301). -/
def leaseFree (s : State) (eng : Nat) : Bool :=
  match (engineAt s eng).holder with
  | none => true
  | some h => (findWave s h.1).isNone && (matFlights s eng h.1).isEmpty && !s.saved.any (fun x => x.wave.uid == h.1)

def endLease (s : State) (eng : Nat) : State := putEngine s eng { engineAt s eng with holder := none }

/-- The reply of `mlease` (R303). -/
def leaseWord (e : Engine) (who : Who) (zeroed : Bool) (count : Nat) : W64 :=
  let err := ((e.errs.find? (fun x => x.1 == who.uid)).map (fun x => x.2)).getD 0
  let other (b : Bank) : Bool := match b.last with | some l => !(l == (who.uid, who.asid)) | none => false
  BitVec.ofNat 64 (2 ^ 12 * err + (if zeroed then 2 ^ 11 else 0) + (if other e.a0 || other e.a1 then 2 ^ 10 else 0) +
    (if e.a1.ovf then 2 ^ 9 else 0) + (if e.a0.ovf then 2 ^ 8 else 0) + count)

/-- Requests that wait for an engine. -/
def leaseRequests (s : State) (eng : Nat) : List Flight :=
  s.flights.filter (fun f => match f.act with
    | .matrix m => m.eng == eng && !f.held && (match m.fn with | .lease true _ => true | _ => false)
    | _ => false)
def askedAt (f : Flight) : Nat := match f.act with | .matrix m => m.cycle | _ => 0

/-- The request that is granted next: of the earliest cycle, once it is over, the one of the lowest `%wave` (R300). -/
def nextLease (s : State) (eng : Nat) : Option Flight :=
  (leaseRequests s eng).foldl (fun b f =>
    if coreClock s f.who.die f.who.core ≤ askedAt f then b
    else match b with
      | none => some f
      | some g => if askedAt f < askedAt g ∨ (askedAt f = askedAt g ∧ f.who.wctx < g.who.wctx) then some f else some g) none

/-- LEASE_GRANT (R300, R303): the next request is granted once the engine is free; another context finds cleared banks. -/
def execLeaseGrant (eng : Nat) (s : State) : Out :=
  if !leaseFree s eng then .next s
  else
    match nextLease s eng with
    | none => .next s
    | some f =>
      match f.act with
      | .matrix m =>
        let e := engineAt s eng
        let mine := (findCtx s f.who.asid).map (fun c => c.serial)
        let fresh := e.lastCtx.isSome && !(e.lastCtx == mine)
        let wipe (b : Bank) : Bank := { b with fill := 0, words := [], rows := 0, cols := 0, mode := .none, ovf := false }
        let e1 := if fresh then { e with a0 := wipe e.a0, a1 := wipe e.a1 } else e
        let e2 := { e1 with holder := some (f.who.uid, f.who.asid), lastCtx := mine }
        let n := match m.fn with | .lease _ n => n | _ => 0
        keepWritten s f (.next (endFlight (reply (putEngine s eng e2) f (leaseWord e2 f.who fresh n)) f))
      | _ => .next s

/-! ### mmo (R308 to R312) -/

/-- A plane tile as it is read: bytes, and its shape. -/
structure Plane where
  bs     : List Byte
  rows   : Nat
  cols   : Nat
  planes : Nat
  enc    : Nat
deriving DecidableEq, Repr

def planeOf (s : State) (uid t : Nat) : Plane :=
  let x := holderTile s uid t
  { bs := padRead s uid (256 * x.base) (tileBytes x), rows := x.rows, cols := x.cols, planes := x.planes, enc := x.enc }
def plBlocks (p : Plane) : Nat := p.rows * p.cols / 8
def plByte (p : Plane) (i : Nat) : Nat := leNat ((p.bs.drop i).take 1)
/-- Exponent of a block, and the raw bits and value of an element (R270, R271). -/
def plExp (p : Plane) (row blk : Nat) : Nat := plByte p (p.planes * plBlocks p + row * (p.cols / 8) + blk)
def plRaw (p : Plane) (row blk j : Nat) : Nat :=
  ((List.range p.planes).map (fun k => plByte p (k * plBlocks p + row * (p.cols / 8) + blk) / 2 ^ j % 2 * 2 ^ k)).sum
def plM (p : Plane) (row blk j : Nat) : Int :=
  match p.enc with | 0 => sval p.planes (plRaw p row blk j) | 1 => plRaw p row blk j | _ => if plRaw p row blk j = 1 then 1 else -1
/-- Column c of a row. -/
def plE' (p : Plane) (row c : Nat) : Nat := plExp p row (c / 8)
def plM' (p : Plane) (row c : Nat) : Int := plM p row (c / 8) (c % 8)

/-- Exponent rule of the exact semirings (R309). -/
def expOk (p : Plane) (row blk : Nat) : Bool :=
  plExp p row blk == 127 || (plExp p row blk == 0 && (List.range 8).all (fun j => plRaw p row blk j == 0))

/-- B under a pair: columns from 128 up come from the follower (R312). -/
def bTile (b : Plane) (b2 : Option Plane) (c : Nat) : Plane × Nat :=
  match b2 with
  | some x => if 128 ≤ c then (x, c - 128) else (b, c)
  | none => (b, c)

/-- Exact sum of a step in plus-times `.f32` (R308). -/
def stepSum (a b : Plane) (i s c : Nat) : Int × Int :=
  (List.range 8).foldl (fun acc k =>
    let x := dyAlign acc (plM a i s k * plM' b (8 * s + k) c, (plExp a i s : Int) + plE' b (8 * s + k) c - 254)
    (x.1 + x.2, min acc.2 ((plExp a i s : Int) + plE' b (8 * s + k) c - 254))) (0, 0)

/-- One word after one step, and whether `.i32` overflowed (R308, R309). -/
def stepWord (mode : BMode) (a b : Plane) (i s c : Nat) (x : W32) : W32 × Bool :=
  let ks := List.range 8
  let prod (k : Nat) : Int := plM a i s k * plM' b (8 * s + k) c
  match mode with
  | .i32 =>
    let e := x.toInt + (ks.map prod).sum
    (BitVec.ofInt 32 e, !(decide (-(2 ^ 31) ≤ e) && decide (e < 2 ^ 31)))
  | .minplus => (BitVec.ofInt 32 (ks.foldl (fun m k => min m (plM a i s k + plM' b (8 * s + k) c)) x.toInt), false)
  | .maxplus => (BitVec.ofInt 32 (ks.foldl (fun m k => max m (plM a i s k + plM' b (8 * s + k) c)) x.toInt), false)
  | .maxtimes => (BitVec.ofInt 32 (ks.foldl (fun m k => max m (prod k)) (x.toNat : Int)), false)
  | .orand => (if ks.any (fun k => plRaw a i s k % 2 == 1 && plRaw b (8 * s + k) (c / 8) (c % 8) % 2 == 1) then x ||| 1 else x, false)
  | _ =>
    if plExp a i s = 255 ∨ ks.any (fun k => plE' b (8 * s + k) c == 255) then (0x7FC00000, false)
    else
      let v := stepSum a b i s c
      (BitVec.ofNat 32 (f32Add x.toNat (rn32 (exOfInt false v.1 v.2))), false)

/-- Row groups the bitmap marks in a step (R311). -/
def marked (zb : Option (List Byte)) (s g : Nat) : Bool :=
  match zb with
  | none => false
  | some bs => bitAt (leNat ((bs.drop (2 * s)).take 2)) g
def groupsIn (m : Nat) (zb : Option (List Byte)) (s : Nat) : List Nat := (List.range (m / 8)).filter (fun g => !marked zb s g)

/-- What an operation reads: its tiles, the follower's, its bitmap. -/
structure MmoIn where
  a    : Plane
  b    : Plane
  b2   : Option Plane
  zb   : Option (List Byte)
  mode : BMode
deriving DecidableEq, Repr

def mmoCols (x : MmoIn) : Nat := match x.b2 with | some p => 128 + p.cols | none => x.b.cols
def mmoSteps (x : MmoIn) : Nat := x.a.cols / 8

/-- Checks before the first step (R310, R311): the ERR of R313, 2 before 1 where both hold, and the ENC rule of max-times also when every
step is skipped (log 138). -/
def mmoCheck (x : MmoIn) : Option Nat :=
  let steps := List.range (mmoSteps x)
  let blocksOk (p : Plane) (s : Nat) : Bool :=
    (List.range 8).all (fun k => (List.range (p.cols / 8)).all (fun blk => expOk p (8 * s + k) blk))
  if steps.any (fun s => (natsFrom (x.a.rows / 8) (16 - x.a.rows / 8)).any (marked x.zb s)) then some 2
  else if x.mode == .f32 then none
  else if x.mode == .maxtimes && !(x.a.enc == 1 && x.b.enc == 1) then some 2
  else if steps.all (fun s =>
      let gs := groupsIn x.a.rows x.zb s
      gs.all (fun g => (List.range 8).all (fun r => expOk x.a (8 * g + r) s)) &&
      (gs.isEmpty || (blocksOk x.b s && (match x.b2 with | some p => blocksOk p s | none => true)))) then none
  else some 1

/-- All words after one step, from those before it; the flag is OVF. -/
def mmoStep (x : MmoIn) (bank : Bank) (s : Nat) (acc : Store W32 × Bool) : Store W32 × Bool :=
  (groupsIn x.a.rows x.zb s).foldl (fun acc g => (List.range 8).foldl (fun acc r =>
    (List.range (mmoCols x)).foldl (fun acc c =>
      let key := 256 * (8 * g + r) + c
      let b := bTile x.b x.b2 c
      let w := stepWord x.mode x.a b.1 (8 * g + r) s b.2 (stGet bank.fill key acc.1)
      (stSet bank.fill key w.1 acc.1, acc.2 || w.2)) acc) acc) acc

/-- Bytes that a step reads of a tile are poisoned: of A by columns, in the row groups that the bitmap does not mark; of B by rows
(R310, R313). -/
def stepPoisoned (s : State) (uid t : Nat) (byRow : Bool) (gs : List Nat) (step : Nat) : Bool :=
  let x := holderTile s uid t
  let per := x.cols / 8
  let bad (row blk : Nat) : Bool :=
    (List.range (x.planes + 1)).any (fun p => padPoisoned s uid (256 * x.base + p * (x.rows * x.cols / 8) + row * per + blk) 1)
  if byRow then (List.range 8).any (fun k => (List.range per).any (fun b => bad (8 * step + k) b))
  else gs.any (fun g => (List.range 8).any (fun r => bad (8 * g + r) step))

/-- Steps done before one that meets poison (R313). -/
def goodSteps (s : State) (uid ta tb : Nat) (peer : Option Nat) (x : MmoIn) : Nat :=
  ((List.range (mmoSteps x)).find? (fun st => !(groupsIn x.a.rows x.zb st).isEmpty &&
    (stepPoisoned s uid ta false (groupsIn x.a.rows x.zb st) st || stepPoisoned s uid tb true [] st ||
     (match peer with | some u => stepPoisoned s u tb true [] st | none => false)))).getD (mmoSteps x)

/-- First poisoned byte of what a step reads of a tile. -/
def stepBadAt (s : State) (uid t : Nat) (byRow : Bool) (gs : List Nat) (step : Nat) : Option Nat :=
  let x := holderTile s uid t
  let per := x.cols / 8
  let bad (row blk : Nat) : List Nat :=
    ((List.range (x.planes + 1)).map (fun p => 256 * x.base + p * (x.rows * x.cols / 8) + row * per + blk)).filter (fun a => padPoisoned s uid a 1)
  let as := if byRow then (List.range 8).flatMap (fun k => (List.range per).flatMap (fun b => bad (8 * step + k) b))
    else gs.flatMap (fun g => (List.range 8).flatMap (fun r => bad (8 * g + r) step))
  match as with | a :: r => some (r.foldl min a) | [] => none

/-- The failing address of the step that meets poison: of A, else of B, else of the follower's B (R313; log 114). -/
def mmoBadAt (s : State) (uid ta tb : Nat) (peer : Option Nat) (x : MmoIn) (st : Nat) : Nat :=
  (((stepBadAt s uid ta false (groupsIn x.a.rows x.zb st) st).or (stepBadAt s uid tb true [] st)).or
    (peer.bind (fun u => stepBadAt s u tb true [] st))).getD 0

/-- A started `mmo`: the words it will write, or why it fails (R310, R313). With poisoned operand data the steps before it count, and the
extent and mode are those of the command; a poisoned bitmap leaves the bank as it is (log 137). -/
def startMmo (s : State) (f : Flight) (m : MatCmd) (bank : Nat) (mode : BMode) (ta tb : Nat) (zb : Option Nat) (peer : Option Nat) : State :=
  let uid := f.who.uid
  let a := planeOf s uid ta
  let x : MmoIn := { a := a, b := planeOf s uid tb, b2 := peer.map (fun u => planeOf s u tb),
                     zb := zb.map (fun o => padRead s uid o (a.cols / 4)), mode := mode }
  let bk := bankAt (engineAt s m.eng) bank
  let m1 := { m with started := true, mode := mode }
  match zb.any (fun o => padPoisoned s uid o (a.cols / 4)), mmoCheck x with
  | true, _ => setAct s f (.matrix { m1 with failed := some (4, padBadAt s uid (zb.getD 0) (a.cols / 4)) })
  | false, some e => setAct s f (.matrix { m1 with failed := some (e, 0) })
  | false, none =>
    let n := goodSteps s uid ta tb peer x
    let r := (List.range n).foldl (fun acc st => mmoStep x bk st acc) (bk.words, false)
    setAct s f (.matrix { m1 with words := r.1, ovf := r.2, rows := a.rows, cols := mmoCols x,
                                  failed := if n < mmoSteps x then some (4, mmoBadAt s uid ta tb peer x n) else none })

/-! ### Ends of commands -/

/-- ENGINE_ERR of a matrix command (R313). -/
def matError (s : State) (f : Flight) (m : MatCmd) : State :=
  match m.failed with
  | none => s
  | some (e, addr) =>
    let x := engineAt s m.eng
    deferOrRecord (putEngine s m.eng { x with errs := putBy (fun p => p.1 == f.who.uid) (f.who.uid, e) x.errs })
      f.who 2 cEngineErr f.who.lanes (BitVec.ofNat 64 addr) 2

/-- The command completes; the one that took the count to 0 ends the lease (R301). -/
def endMatrix (s : State) (f : Flight) (m : MatCmd) : State :=
  let s1 := endFlight (matError s f m) f
  if m.ends then endLease s1 m.eng else s1

/-- The command that took the count to 0 completes behind the wave's earlier ones, so that its lease covers them (R195, R301; log 33). -/
def endWaits (s : State) (f : Flight) (m : MatCmd) : Bool :=
  m.ends && s.flights.any (fun g => g.who.uid == f.who.uid && decide (g.id < f.id) && !g.held &&
    (match g.act with | .matrix x => x.eng == m.eng | _ => false))

/-- MMO_COMPLETION (R308 to R311, R313): the bank takes its words, extent and mode. -/
def execMmoCompletion (fid : Nat) (s : State) : Out :=
  onFlight s fid (fun f =>
    match f.act with
    | .matrix m =>
      match m.fn, m.started && !endWaits s f m with
      | .mmo bank _ _ _ _ _, true =>
        let e := engineAt s m.eng
        let b := bankAt e bank
        let b1 : Bank := if m.rows = 0 then { b with last := some (f.who.uid, f.who.asid) }
          else { b with words := m.words, rows := max b.rows m.rows, cols := max b.cols m.cols, mode := m.mode, ovf := b.ovf || m.ovf,
                        last := some (f.who.uid, f.who.asid) }
        .next (endMatrix (putEngine s m.eng (setBank e bank b1)) f m)
      | _, _ => .next s
    | _ => .next s)

/-! ### Drains (R314 to R316) -/

/-- Address of the word at a place of a memory drain. -/
def drainAddr (m : MatCmd) (addr : W64) (stride : Option Int) (i : Nat) : W64 :=
  addr + BitVec.ofInt 64 ((i / m.cols : Nat) * stride.getD (4 * m.cols) + 4 * (i % m.cols : Nat))

/-- Combination of a destination word with a bank word (R315). -/
def addWord (mode : BMode) (d x : W32) : W32 :=
  match mode with
  | .f32 => BitVec.ofNat 32 (f32Add d.toNat x.toNat)
  | .i32 | .none => d + x
  | .minplus => BitVec.ofInt 32 (min d.toInt x.toInt)
  | .maxplus => BitVec.ofInt 32 (max d.toInt x.toInt)
  | .maxtimes => BitVec.ofNat 32 (max d.toNat x.toNat)
  | .orand => d ||| x

/-- A drain starts: shape, size of a tile, words (R315). -/
def startDrain (s : State) (f : Flight) (m : MatCmd) (bank : Nat) (tile : Option Nat) (rows cols : Nat) : State :=
  let b := bankAt (engineAt s m.eng) bank
  let r := if rows = 0 then b.rows else rows
  let c := if cols = 0 then b.cols else cols
  let e := engineAt s m.eng
  let s1 := putEngine s m.eng (setBank e bank { b with last := some (f.who.uid, f.who.asid) })
  let m1 := { m with started := true, rows := r, cols := c, mode := b.mode }
  let small := match tile with | some t => decide ((holderTile s f.who.uid t).size < 4 * r * c) | none => false
  if small then endMatrix s1 f { m1 with failed := some (5, 0) }
  else
    let out := (List.range (r * c)).map (fun i => (i, bankWord b (i / c) (i % c)))
    let s2 := match tile with | some t => updTile s1 f.who.uid t (fun x => { x with st := .draining }) | none => s1
    setAct s2 f (.matrix { m1 with out := out })

/-- Failure of a word's place in memory (R313). -/
def drainFault (s : State) (f : Flight) (m : MatCmd) (add : Bool) (addr : W64) (stride : Option Int) (i : Nat) : Option (Nat × Nat) :=
  match engPlan s f.who.asid writable (drainAddr m addr stride i) (leBytes 4 0) with
  | .error a => some (3, a)
  | .ok ps => if add && ps.any (fun p => s.poison.contains (p.2.1 / 32)) then some (4, (drainAddr m addr stride i).toNat) else none

/-- Words stored at their homes in order, up to one that cannot be (R313): the state, and the failure. Where rows overlap, the later word
in (r, c) order stays (log 139). -/
def drainWords (s : State) (f : Flight) (m : MatCmd) (add : Bool) (addr : W64) (stride : Option Int) :
    List (Nat × W32) → State × Option (Nat × Nat)
  | [] => (s, none)
  | (i, x) :: r =>
    let va := drainAddr m addr stride i
    match drainFault s f m add addr stride i, engPage s f.who.asid 3 writable va.toNat with
    | none, .ok (pg, pa) =>
      let v := if add then addWord m.mode (BitVec.ofNat 32 (memNat s.mem pa 4)) x else x
      drainWords (engineWrite s f.who.die f.who.core pg pa (leBytes 4 v.toNat)) f m add addr stride r
    | e, _ => (s, some (e.getD (3, va.toNat)))

/-- Ranges in memory of a drain's words, as far as they translate. -/
def drainRanges (s : State) (f : Flight) (m : MatCmd) (addr : W64) (stride : Option Int) (ws : List (Nat × W32)) : List (Nat × Nat) :=
  ws.flatMap (fun w => match engPlan s f.who.asid writable (drainAddr m addr stride w.1) (leBytes 4 0) with
    | .ok ps => pieceRanges ps
    | .error _ => [])

/-- A drain to a tile: all words as one update (R227). -/
def drainTile (s : State) (f : Flight) (m : MatCmd) (add : Bool) (t : Nat) : State :=
  let base := 256 * (holderTile s f.who.uid t).base
  let ready (x : State) : State := updTile x f.who.uid t (fun y => { y with st := .ready })
  if add && padPoisoned s f.who.uid base (4 * m.rows * m.cols) then ready (matError s f { m with failed := some (4, padBadAt s f.who.uid base (4 * m.rows * m.cols)) })
  else
    let bs := m.out.flatMap (fun w =>
      let d := BitVec.ofNat 32 (leNat (padRead s f.who.uid (base + 4 * w.1) 4))
      leBytes 4 (if add then addWord m.mode d w.2 else w.2).toNat)
    ready (padWrite s f.who.uid base bs)

/-- DRAIN_COMPLETION (R313, R316): a plain drain's words are stored; an add-on drain is over when every line is. -/
def execDrainCompletion (fid : Nat) (s : State) : Out :=
  onFlight s fid (fun f =>
    match f.act with
    | .matrix m =>
      match m.fn, m.started && !endWaits s f m with
      | .drain _ add (some t) _ _ _ _, true => .next (endMatrix (drainTile s f m add t) f m)
      | .drain _ false none addr stride _ _, true =>
        afterLazy s (drainRanges s f m addr stride m.out) (fun _ => true) (
          let r := drainWords s f m false addr stride m.out
          let ok := m.out.takeWhile (fun w => (drainFault s f m false addr stride w.1).isNone)
          .next (endMatrix (healHome r.1 (drainRanges s f m addr stride ok)) f { m with failed := r.2 }))
      | .drain _ true none _ _ _ _, true => if m.out.isEmpty then .next (endMatrix s f m) else .next s
      | _, _ => .next s
    | _ => .next s)

/-- ADD_ON_STORE: one line's part of an add-on drain, as one indivisible update at the home (R227, R315). -/
def execAddOnStore (fid line : Nat) (s : State) : Out :=
  onFlight s fid (fun f =>
    match f.act with
    | .matrix m =>
      match m.fn, m.started with
      | .drain _ true none addr stride _ _, true =>
        let here (w : Nat × W32) : Bool := (drainAddr m addr stride w.1).toNat / 256 == line
        let ws := m.out.filter here
        afterLazy s (drainRanges s f m addr stride ws) (fun _ => true) (
          match ws.findSome? (fun w => drainFault s f m true addr stride w.1) with
          | some e => .next (setAct s f (.matrix { m with out := [], failed := some e }))
          | none =>
            let r := drainWords s f m true addr stride ws
            .next (setAct r.1 f (.matrix { m with out := m.out.filter (fun w => !here w), failed := r.2 })))
      | _, _ => .next s
    | _ => .next s)

/-! ### MATRIX_COMMAND_START (R302) -/

/-- Bank a command uses. -/
def matBank : MatFn → Option Nat
  | .clr b _ => some b
  | .mmo b _ _ _ _ _ => some b
  | .drain b _ _ _ _ _ _ => some b
  | _ => none
def matArray : MatFn → Bool
  | .clr _ _ | .mmo _ _ _ _ _ _ => true
  | _ => false

/-- Commands of the engine that go before: older ones of the wave, and those of others that have started. -/
def matOlder (s : State) (f : Flight) (m : MatCmd) : List MatCmd :=
  s.flights.filterMap (fun g => match g.act with
    | .matrix x => if x.eng == m.eng && !g.held && !(g.id == f.id) && (x.started || (g.who.uid == f.who.uid && decide (g.id < f.id))) &&
        decide (g.id < f.id ∨ !(g.who.uid == f.who.uid)) then some x else none
    | _ => none)

/-- Whether an operation's bitmap lies in a tile that is filled or drained (R311). -/
def bitmapBusy (s : State) (f : Flight) (fn : MatFn) : Bool :=
  match fn with
  | .mmo _ _ ta _ (some off) _ => tileBusy s f.who.uid off ((holderTile s f.who.uid ta).cols / 4)
  | _ => false

/-- The conditions of R302. -/
def matReady (s : State) (f : Flight) (m : MatCmd) : Bool :=
  let older := matOlder s f m
  (match (engineAt s m.eng).holder with | some h => h.1 == f.who.uid | none => false) &&
  !older.any (fun x => match x.fn with | .lease true _ | .rel => true | _ => false) &&
  !older.any (fun x => matBank x.fn == matBank m.fn) &&
  !(matArray m.fn && older.any (fun x => matArray x.fn)) &&
  tileTurns s f && !bitmapBusy s f m.fn

def execMatrixCommandStart (fid : Nat) (s : State) : Out :=
  onFlight s fid (fun f =>
    match f.act with
    | .matrix m =>
      if m.started then .next s
      else
        match m.fn with
        | .lease true _ => .next s
        | .lease false n =>
          if (matOlder s f m).isEmpty then .next (endFlight (reply s f (leaseWord (engineAt s m.eng) f.who false n)) f) else .next s
        | .rel => if (matOlder s f m).isEmpty then .next (endLease (endFlight s f) m.eng) else .next s
        | .clr b k =>
          if matReady s f m && !endWaits s f m then
            let e := engineAt s m.eng
            let x := bankAt e b
            .next (endMatrix (putEngine s m.eng (setBank e b { x with
              fill := clrFill k, words := [], rows := 0, cols := 0, mode := .none, ovf := false,
              last := some (f.who.uid, f.who.asid) })) f m)
          else .next s
        | .mmo b mode ta tb zb peer => if matReady s f m then .next (startMmo s f m b mode ta tb zb peer) else .next s
        | .drain b _ tile _ _ rows cols => if matReady s f m && !endWaits s f m then .next (startDrain s f m b tile rows cols) else .next s
    | _ => .next s)

end Sys2Proof.Machine
end

