-- ==== Sys2Proof/Machine/Moves.lean ====
section
/-!
DEFINITION. Moves, special registers and random numbers (R58, R98, R99, R103), and the fields of the trap registers (R144, R145).
-/
namespace Sys2Proof.Machine

/-! ### Moves (R98) -/

def execMov (o : Ops) (s : State) : Out := aluRun (.mov o) o o.ty (fun w l => opA w o o.ty l) s
def execMovi (o : Ops) (s : State) : Out := aluRun (.movi o) o o.ty (fun w l => opB w o o.ty l) s
def execBcast (o : Ops) (s : State) : Out := aluRun (.bcast o) o o.ty (fun w l => opB w o o.ty l) s

/-! ### Trap registers as words (R144, R145) -/

def bit64 (b : Bool) (n : Nat) : W64 := if b then 1#64 <<< n else 0

/-- xstatus (R144). -/
def xstatusOf (t : Trap) : W64 :=
  bit64 t.h 0 ||| bit64 t.prv 1 ||| bit64 t.ppriv 2 ||| bit64 t.defr 3 ||| bit64 t.pte 15 ||| BitVec.ofNat 64 (t.csel * 2 ^ 28)

/-- The record CSEL selects; all-zero when its bit is clear (R145). -/
def selRec (t : Trap) : CauseRec :=
  (t.recs.find? (fun r => r.cause == t.csel)).getD
    { cause := t.csel, lanes := 0, more := false, addr := 0, pc := 0, detail := 0 }

/-- xinfo0 to xinfo3 (R145). -/
def xinfo (t : Trap) (n : Nat) : W64 :=
  let r := selRec t
  match n with
  | 0 => r.lanes.zeroExtend 64 ||| bit64 r.more 32
  | 1 => r.addr
  | 2 => r.pc
  | _ => r.detail

/-! ### Special registers -/

/-- Cycles of the core's clock until bank l mod 16 of the die's weight store next enters its refresh window (R58, R184). -/
def wsRefresh (s : State) (w : Wave) (l : Nat) : Nat :=
  refreshWait s.time (l % 16) * (islandAt s (islandOf w.die w.core)).n / 80

/-- Value of a special register in a lane (R58). -/
def special (s : State) (w : Wave) (n lane : Nat) : W64 :=
  match n with
  | 0x00 => BitVec.ofNat 64 lane
  | 0x01 => BitVec.ofNat 64 (lane / 4)
  | 0x02 => BitVec.ofNat 64 w.wctx
  | 0x03 => BitVec.ofNat 64 w.core
  | 0x04 => BitVec.ofNat 64 (w.core / 4)
  | 0x05 => BitVec.ofNat 64 w.die
  | 0x06 => BitVec.ofNat 64 s.pod.pkg
  | 0x07 => BitVec.ofNat 64 w.launch
  | 0x08 => BitVec.ofNat 64 w.node
  | 0x09 => BitVec.ofNat 64 w.depth
  | 0x0A => BitVec.ofNat 64 (coreClock s w.die w.core)
  | 0x0B => BitVec.ofNat 64 (tickNow s)
  | 0x0C => w.fpmode.zeroExtend 64
  | 0x0D => w.fpflags.zeroExtend 64
  | 0x0E => BitVec.ofNat 64 (wsRefresh s w lane)
  | 0x10 => w.trap.xpc
  | 0x11 => xstatusOf w.trap
  | 0x12 => (xcause w.trap).zeroExtend 64
  | 0x13 => xinfo w.trap 0
  | 0x14 => xinfo w.trap 1
  | 0x15 => xinfo w.trap 2
  | 0x16 => xinfo w.trap 3
  | 0x17 => w.trap.xvec
  | _ => 0

/-- A write to a special register changes its RW fields only (R6, R88, R89, R99, R144, R145). -/
def setSpecial (w : Wave) (n : Nat) (x : W64) : Wave :=
  match n with
  | 0x0C => { w with fpmode := x.truncate 32 &&& 0x1F }
  | 0x0D => { w with fpflags := x.truncate 32 &&& 0x3F }
  | 0x10 => { w with trap := { w.trap with xpc := x &&& xaddrMask } }
  | 0x11 => { w with trap := { w.trap with csel := field x.toNat 31 28, pte := x.getLsbD 15, ppriv := x.getLsbD 2 } }
  | 0x17 => { w with trap := { w.trap with xvec := x &&& xaddrMask } }
  | _ => w

/-- Privileged register: PRIV outside privileged mode, with its number (R58, R142). -/
def regGuard (s : State) (w : Wave) (n : Nat) (k : Out) : Out := if specialPriv n then privileged s w n k else k

/-- Whether older instructions of a wave have operations that are not complete. -/
def opsOut (s : State) (uid : Nat) : Bool := s.flights.any (fun f => f.who.uid == uid && (f.cls.isSome || f.rr.isSome))

/-- `gets` (R99): a 32-bit lane value on the vector side, the zero-extended register on the drill. `%fpflags` waits until every older
instruction has completed (R91). -/
def execGets (o : Ops) (s : State) : Out :=
  runInstr (.gets o) s (fun s w ls => if o.a == 0x0D && opsOut s w.uid then stall s else regGuard s w o.a (finish s
    (writeD o (if o.k.vec then .b32 else .b64) (fun l => ((special s w o.a l).toNat % 2 ^ (if o.k.vec then 32 else 64), 0)) w ls)))

/-- `sets` (R99). -/
def execSets (o : Ops) (s : State) : Out :=
  runInstr (.sets o) s (fun s w _ => regGuard s w o.a (finish s (setSpecial w o.a (BitVec.ofNat 64 (opB w o .b64 0)))))

/-! ### Random numbers (R103) -/

/-- The 64-bit hash of a key and a counter. -/
def rngHash (k c : W64) : W64 :=
  let z0 := c + k * 0x9E3779B97F4A7C15
  let z1 := (z0 ^^^ (z0 >>> 30)) * 0xBF58476D1CE4E5B9
  let z2 := (z1 ^^^ (z1 >>> 27)) * 0x94D049BB133111EB
  z2 ^^^ (z2 >>> 31)

/-- The result a type selects: the hash, its high half, or its top 24 bits as a fraction. -/
def rngOut (t : Ty) (z : W64) : Nat :=
  match t with
  | .b64 => z.toNat
  | .f32 => (fOfInt fmtF32 .rn (z.toNat / 2 ^ 40)).1 - (if z.toNat / 2 ^ 40 = 0 then 0 else 24 * 2 ^ 23)
  | _ => z.toNat / 2 ^ 32

/-- Counter of a lane. -/
def rngCounter (w : Wave) (o : Ops) (lane : Nat) : W64 :=
  BitVec.ofNat 64 (opB w o .b64 lane + (if o.k.vec then lane * 2 ^ o.x else 0))

def execRng (o : Ops) (s : State) : Out :=
  aluRun (.rng o) o o.ty (fun w l => rngOut o.ty (rngHash (rdS w o.a) (rngCounter w o l))) s

end Sys2Proof.Machine
end

