-- ==== Sys2Proof/Machine/System.lean ====
section
/-!
DEFINITION. The system instructions (R153, R154, R157, R162 to R164) and the events of delivery, pre-emption, the carve-out and
late errors (R148 to R150, R155, R158, R163).
-/
namespace Sys2Proof.Machine

/-! ### trap, xret, xclr -/

/-- The immediate of a system instruction (R153). -/
def immOf (o : Ops) : W64 := match o.b with | .imm w => w | _ => 0

/-- `trap`: BREAK with the code as ADDR; the handler returns to the next instruction (R142, R153, R154). No back-edge of R117 is taken
first, which the spec does not settle (log 56). -/
def execTrap (o : Ops) (s : State) : Out :=
  runInstr (.trap o) s (fun s w _ => .next (takeException s w
    [{ cause := cBreak, lanes := laneMask (runLanes w), more := false, addr := immOf o, pc := gpc w, detail := 0 }] w.npc))

/-- `xret` (R153): PRIV outside a handler. -/
def execXret (o : Ops) (s : State) : Out :=
  runInstr (.xret o) s (fun s w _ => privileged s w 0
    (if w.trap.h then .next (returnException s w) else .next (raisePc s w cPriv 0)))

/-- Mask of `xclr`. -/
def xclrMask (w : Wave) (o : Ops) : W64 := match o.b with | .imm x => x | _ => rdS w o.a

/-- `xclr`: bits and their records are cleared together (R146, R153). -/
def execXclr (o : Ops) (s : State) : Out :=
  runInstr (.xclr o) s (fun s w _ => privileged s w 0 (finish s
    { w with trap := { w.trap with recs := w.trap.recs.filter (fun r => !(xclrMask w o).getLsbD r.cause) } }))

/-! ### Configuration registers (R162, R163) -/

/-- Accepted feature word (R403). -/
def accepted (r : Regs) : W64 := if r.flock then r.facc0 else 0

/-- Window of the time base, in seconds. -/
def windowOf (s : State) : Nat := s.time / 10 ^ 9
/-- Counts restart at a boundary (R408). -/
def openWindow (s : State) : State := if s.errWindow < windowOf s then { s with errs := [], errWindow := windowOf s } else s

/-- Corrected events a unit has in the present window (R162, R408). -/
def errCount (s : State) (u : Unit3) : Nat := (((openWindow s).errs.find? (fun e => e.1 == u)).map (fun e => e.2)).getD 0

/-- Value of a configuration register; `none` for an unlisted number. -/
def cfgRead (s : State) (w : Wave) (n : Nat) : Option W64 :=
  match n with
  | 0 => some (BitVec.ofNat 64 (coreAt s w.die w.core).spw)
  | 1 => some (accepted s.regs)
  | 2 => some 0
  | 3 => some (BitVec.ofNat 64 (errCount s (.core w.die w.core)))
  | 4 => some (if w.preq.isSome then 1 else 0)
  | _ => none

/-- `cfgr`: ILLEGAL for an unlisted number (R154). -/
def execCfgr (o : Ops) (s : State) : Out :=
  runInstr (.cfgr o) s (fun s w _ =>
    match cfgRead s w (immOf o).toNat with
    | none => .next (raiseIllegal s w (runLanes w))
    | some x => privileged s w (immOf o).toNat (finish s (wrS w o.d x)))

/-- Bytes of scratchpad under a number of ways. -/
def spadBytes (spw : Nat) : Nat := 65536 * spw

/-- A value `cfg.carve` refuses (R163). -/
def carveBad (w : Wave) (x : Nat) : Bool := x == 0 || decide (8 ≤ x) || decide (spadBytes x < w.sbase + w.foot.spad)

/-- `cfgw` of `cfg.carve` (R163): the write waits for CARVE_CHANGE; another one on the core waits behind it. -/
def execCfgw (o : Ops) (s : State) : Out :=
  runInstr (.cfgw o) s (fun s w _ =>
    if (immOf o).toNat ≠ 0 then .next (raiseIllegal s w (runLanes w))
    else privileged s w 0 (
      let x := (rdS w o.a).toNat
      let c := coreAt s w.die w.core
      if carveBad w x then .next (raisePc s w cBounds 0)
      else if c.carve.isNone then .next (putCore s w.die w.core { c with carve := some (w.uid, x) })
      else stall s))

/-- Whether a carve write of the wave waits: the wave is inside an instruction. -/
def carving (s : State) (w : Wave) : Bool :=
  match (coreAt s w.die w.core).carve with | some c => c.1 == w.uid | none => false

/-- L1 lines that fit a number of ways per set (R162, R163). -/
def l1Trim (ways : Nat) : List Line → List Line
  | [] => []
  | l :: r =>
    let t := l1Trim ways r
    l :: (t.filter (fun x => !(x.line % 256 == l.line % 256)) ++ (t.filter (fun x => x.line % 256 == l.line % 256)).take (ways - 1))

/-- Scratchpad ends of the waves of a core, and of those that operations still name (R29). -/
def spadEnds (s : State) (die core : Nat) : List Nat :=
  ((s.waves.filter (fun x => x.fork.isNone)) ++ s.ghosts).filterMap (fun x =>
    if x.die == die && x.core == core then some (if x.foot.spad = 0 then 0 else x.sbase + x.foot.spad) else none)

/-- CARVE_CHANGE (R163): once no allocation of the core reaches beyond the new size, the split changes and the `cfgw` is over. Lines that
leave the L1 may become replicas (R181). -/
def execCarveChange (die core : Nat) (s : State) : Out :=
  let c := coreAt s die core
  match c.carve with
  | none => .next s
  | some (uid, x) =>
    if (spadEnds s die core).all (fun e => decide (e ≤ spadBytes x)) then
      let keep := l1Trim (8 - x) c.l1
      let out := c.l1.filter (fun l => !keep.any (fun y => y.line == l.line))
      goOn (out.foldl (fun st l => makeReplica st die core l) (putCore s die core { c with carve := none, spw := x, l1 := keep })) uid
    else .next s

/-! ### live (R157) -/

/-- The two ranges of `sr`, empty ones left out: start and length in units of 256 bytes. -/
def liveRanges (sr : Nat) : List (Nat × Nat) :=
  [(field sr 11 0, field sr 23 12), (field sr 35 24, field sr 47 36)].filter (fun r => !(r.2 == 0))
def liveBad (w : Wave) (sr : Nat) : Bool :=
  !(field sr 63 49 == 0) || (liveRanges sr).any (fun r => decide (w.foot.spad < 256 * (r.1 + r.2)))

/-- Nanoseconds after which a wave is pre-empted with its full footprint (R158). -/
def preemptNs : Nat := 100000

/-- A request has waited so long. -/
def preemptLate (s : State) (w : Wave) : Bool := match w.preq with | some t => decide (preemptNs ≤ s.time - t) | none => false

/-- `live`: with a request pending, the wave is pre-empted with this hint, or with its full footprint after 100 us (R157, R158). -/
def execLive (o : Ops) (s : State) : Out :=
  runInstr (.live o) s (fun s w _ =>
    let sr := opB w o .b64 0
    if liveBad w sr then .next (raisePc s w cBounds 0)
    else if w.preq.isNone then finish s w
    else
      let hint : SaveHint := if preemptLate s w then .full else .hint ((rdS w o.a).toNat % 2 ^ 32) (liveRanges sr) (rdS w o.c).toNat (bitAt sr 48)
      goOn (updHolder (squashForks s w.uid) w.uid (fun x => { x with saveReq := some hint })) w.uid)

/-! ### tlbi (R164) -/

def tlbKeep (w : Wave) (x : Nat) (a : W64) (t : Tlb) : Bool :=
  match x with
  | 0 => !(t.asid == w.asid)
  | 1 => !(t.asid == w.asid && a.toNat / 2 ^ t.bits == t.va / 2 ^ t.bits)
  | 2 => !(t.asid == a.toNat % 2 ^ 11)
  | _ => false

def execTlbi (o : Ops) (s : State) : Out :=
  runInstr (.tlbi o) s (fun s w _ => privileged s w 0
    (finish { s with tlb := s.tlb.filter (tlbKeep w o.x (rdS w o.a)) } w))

/-! ### Events -/

/-- The wave stands at an instruction boundary with what is steered issued; a waiting instruction has not been executed (R158). -/
def atBoundary (s : State) (w : Wave) : Bool := w.fork.isNone && w.viq.isEmpty && !carving s w

/-- What a wave abandons when it is taken away from a wait (R158); siblings that wait at a `regang` go on waiting. -/
def abandon (w : Wave) : Wave := updSlices { w with deqFrom := none, barHold := none } (gang w) (fun sl => { sl with atRegang := none })

/-- Deferred causes that have arrived are due for delivery (R148, R149). -/
def delivers (s : State) (w : Wave) : Bool := atBoundary s w && !w.trap.h && !w.trap.held.isEmpty && w.saveReq.isNone

/-- DELIVERY: the deferred causes that have arrived, at the next boundary (R148, R149); the wave resumes where it stands. -/
def execDelivery (uid : Nat) (s : State) : Out :=
  match findWave s uid with
  | none => .next s
  | some w =>
    if delivers s w then .next (deliver s (abandon w) (gpc w)) else .next s

/-- PC of a record that no instruction raised: the spec states no value (log 14). -/
def freePc (s : State) : W64 := (Config.word (64 * s.draws)).zeroExtend 64 ||| ((Config.word (64 * s.draws + 1)).zeroExtend 64 <<< 32)

/-- A pre-emption request for a wave (R158, R370). With PTE = 1 outside a handler, PREEMPT is delivered. -/
def requestPreempt (s : State) (w : Wave) : State :=
  if w.preq.isSome || w.fork.isSome then s
  else
    let s1 := putWave s { w with preq := some s.time }
    if w.trap.pte && !w.trap.h then
      addDeferred s1 w.uid { cause := cPreempt, lanes := 0, more := false, addr := 0, pc := freePc s, detail := 0 }
    else s1

/-- PREEMPTION_REQUEST (R158). -/
def execPreemptionRequest (uid : Nat) (s : State) : Out :=
  match findWave s uid with
  | none => .next s
  | some w => .next (requestPreempt s w)

/-- A wave that has met no `live` in time stands at a boundary of its current gang; what is steered issues as the save begins (R158, R159). -/
def timesOut (s : State) (w : Wave) : Bool := preemptLate s w && w.saveReq.isNone && w.fork.isNone && !carving s w

/-- PREEMPTION_TIMEOUT: no `live` within 100 us of the request (R158); the save first squashes the wave's forks (R159). -/
def execPreemptionTimeout (uid : Nat) (s : State) : Out :=
  match findWave s uid with
  | none => .next s
  | some w =>
    if timesOut s w then .next (updHolder (squashForks s uid) uid (fun x => { x with saveReq := some .full })) else .next s

/-- Sectors a store touches. -/
def storeSectors (n : Nat) (xs : List (Acc × Nat)) : List Nat :=
  xs.flatMap (fun x => match x.1.loc with
    | .mem pa => if x.1.page.ptype == .device then [] else natsFrom (pa / 32) ((pa + n + 31) / 32 - pa / 32)
    | .pad _ _ => [])

end Sys2Proof.Machine
end

