-- ==== Sys2Proof/Machine/Place.lean ====
section
/-!
DEFINITION. Room on cores (R24 to R26, R29, R163, R297, R409), the start of a wave (R144, R232, R356, R358), and the save and the
restore of a wave (R157 to R161, R317).
-/
namespace Sys2Proof.Machine

/-! ### Room -/

/-- Whether a command of a wave writes its scratchpad or its tile entries. -/
def writesPad : Act → Bool
  | .copy c => !(c.fn == .st)
  | .glean g => g.dstPad
  | .matrix m => (match m.fn with | .drain _ _ (some _) _ _ _ _ => true | _ => false)
  | .tile _ _ => true
  | _ => false

/-- A retired wave's scratchpad and tile entries are still held: a copy or a drain still writes them, a peer's access has still to be
performed (R29, R198), or a pair still reads its tile (R312). -/
def padHeld (s : State) (x : Wave) : Bool :=
  s.flights.any (fun f => !f.held &&
    ((f.who.uid == x.uid && writesPad f.act) ||
     (match f.act with
      | .load _ _ as _ => !(f.who.uid == x.uid) && as.any (fun y => match y.loc with | .pad u _ => u == x.uid | .mem _ => false)
      | .matrix m => (match m.fn with | .mmo _ _ _ _ _ (some u) => u == x.uid | _ => false)
      | a => (actAccs a).any (fun y => match y.1.loc with | .pad u _ => u == x.uid | .mem _ => false))))

/-- Waves that hold scratchpad and tile entries of a core. -/
def padUsers (s : State) (die core : Nat) : List Wave :=
  (s.waves.filter (fun x => x.fork.isNone && x.die == die && x.core == core)) ++
  s.ghosts.filter (fun x => x.die == die && x.core == core && padHeld s x)

/-- A range is free of some others. -/
def freeAt (ivs : List (Nat × Nat)) (base len : Nat) : Bool := ivs.all (fun iv => decide (base + len ≤ iv.1) || decide (iv.1 + iv.2 ≤ base))

/-- Places for a range of a length below a top, in steps of a unit. -/
def bases (unit top len : Nat) (ivs : List (Nat × Nat)) : List Nat :=
  if len = 0 then [0] else ((List.range (top / unit)).map (fun i => unit * i)).filter (fun b => decide (b + len ≤ top) && freeAt ivs b len)

/-- Register-file ranges of a slot. Where a shadow's registers stand is open (log 24); their bytes count. -/
def regRanges (s : State) (die core slot : Nat) : List (Nat × Nat) :=
  (((slotWaves s die core slot).filter (fun x => x.fork.isNone)) ++ slotGhosts s die core slot).map (fun x => (x.vbase, regBytes x))
def padRanges (s : State) (die core : Nat) : List (Nat × Nat) := (padUsers s die core).map (fun x => (x.sbase, x.foot.spad))

/-- Scratchpad in force, and what a pending change will leave (R163). -/
def spadTop (c : Core) : Nat := match c.carve with | some k => min (spadBytes c.spw) (spadBytes k.2) | none => spadBytes c.spw

def footBytes (f : Foot) : Nat := 16 * f.slices * f.vregs

/-- A wave context, and positions in the register file and the scratchpad. -/
structure Spot where
  core  : Nat
  wctx  : Nat
  vbase : Nat
  sbase : Nat
deriving DecidableEq, Repr

/-- Contexts that waves of a resuming context await (R399). -/
def awaited (s : State) (die core ctx : Nat) : Bool :=
  s.saved.any (fun x => x.ctx && x.wave.die == die && x.wave.core == core && x.wave.wctx == ctx && (findCtx s x.wave.asid).isSome)

/-- Free contexts of a slot that a new wave may take. -/
def newCtxs (s : State) (die core slot : Nat) : List Nat :=
  ((List.range 16).map (fun i => 16 * slot + i)).filter (fun c =>
    !(slotWaves s die core slot).any (fun x => ctxOf x == c) && !awaited s die core c)

/-- Register-file positions a footprint could take on a slot; none without slice contexts or bytes. -/
def slotBases (s : State) (die core slot : Nat) (f : Foot) : List Nat :=
  if slotRoom s die core slot f.slices (footBytes f) then bases 128 (2 ^ 17) (footBytes f) (regRanges s die core slot) else []
def slotFits (s : State) (die core slot : Nat) (f : Foot) : Bool :=
  !(newCtxs s die core slot).isEmpty && !(slotBases s die core slot f).isEmpty

/-- Scratchpad positions a footprint could take on a core. -/
def coreBases (s : State) (die core : Nat) (f : Foot) : List Nat :=
  bases 256 (spadTop (coreAt s die core)) f.spad (padRanges s die core)
def tileRoom (s : State) (die core : Nat) (f : Foot) : Bool :=
  decide (((padUsers s die core).map (fun x => x.foot.tiles)).sum + f.tiles ≤ 64)

/-- Whether a core takes new waves of a footprint: leader cores only for a matrix kernel (R297), no retired core (R22, R409). -/
def coreTakes (s : State) (die core : Nat) (f : Foot) : Bool := !(coreAt s die core).lasting && !(f.mx && core % 2 == 1)
def coreFits (s : State) (die core : Nat) (f : Foot) : Bool :=
  coreTakes s die core f && decide (f.vregs ≤ 256) && tileRoom s die core f && !(coreBases s die core f).isEmpty &&
  (List.range 4).any (fun slot => slotFits s die core slot f)

/-- Whether an empty core could hold a footprint under its split (R26, R361, R367); a lasting core's place is a spare's. -/
def emptyFits (s : State) (die core : Nat) (f : Foot) : Bool :=
  !(f.mx && core % 2 == 1) && decide (f.tiles ≤ 64) && decide (f.vregs ≤ 256) && decide (f.spad ≤ spadBytes (coreAt s die core).spw) && decide (footBytes f ≤ 2 ^ 17)

/-- Waves of a footprint that an empty core holds at once. -/
def emptyCount (s : State) (die core : Nat) (f : Foot) : Nat :=
  if emptyFits s die core f then
    min (4 * min (min 16 (64 / max f.slices 1)) (2 ^ 17 / max (footBytes f) 1))
      (min (if f.spad = 0 then 64 else spadBytes (coreAt s die core).spw / f.spad) (if f.tiles = 0 then 64 else 64 / f.tiles))
  else 0

/-- An element of a list by a free number. -/
def pickBy {α : Type} (n : Nat) (xs : List α) : Option α := xs[n % max xs.length 1]?

/-- A place for a footprint among some cores of a die, chosen freely (log 24). -/
def freeSpot (s : State) (k die : Nat) (f : Foot) (cores : List Nat) : Option Spot :=
  let n (i : Nat) : Nat := Config.choice (2 ^ 64 * (s.draws + 1) + 8 * k + i)
  match pickBy (n 0) (cores.filter (fun c => coreFits s die c f)) with
  | none => none
  | some c =>
    match pickBy (n 1) ((List.range 4).filter (fun slot => slotFits s die c slot f)) with
    | none => none
    | some slot =>
      match pickBy (n 2) (newCtxs s die c slot), pickBy (n 3) (slotBases s die c slot f), pickBy (n 4) (coreBases s die c f) with
      | some w, some v, some b => some { core := c, wctx := w, vbase := v, sbase := b }
      | _, _, _ => none

/-- The first place on a core: its lowest free context with room (R231; log 24). -/
def firstSpot (s : State) (die core : Nat) (f : Foot) : Option Spot :=
  if coreFits s die core f then
    match (List.range 4).find? (fun slot => slotFits s die core slot f) with
    | none => none
    | some slot =>
      match newCtxs s die core slot, slotBases s die core slot f, coreBases s die core f with
      | w :: _, v :: _, b :: _ => some { core := core, wctx := w, vbase := v, sbase := b }
      | _, _, _ => none
  else none

/-! ### The start of a wave (R356) -/

def startSlice (entry : W64) (i : Nat) : Slice :=
  { live := true, run := { lanes := [4 * i, 4 * i + 1, 4 * i + 2, 4 * i + 3], pc := entry, loops := [], rets := [] }, parked := [],
    idle := 0, busy := false, atRegang := none, atRet := false }

/-- Payload words 2i and 2i + 1 (R356). -/
def payWord (pay : List W32) (i : Nat) : W64 := (pay.getD (2 * i) 0).zeroExtend 64 ||| ((pay.getD (2 * i + 1) 0).zeroExtend 64 <<< 32)
def paySregs (m : Store W64) (d : Nat) (pay : List W32) : Store W64 :=
  (List.range 4).foldl (fun m i => stSet 0 (d + i) (payWord pay i) m) m

def trapReset (priv : Bool) (handler : W64) : Trap :=
  { xpc := 0, xvec := handler &&& xaddrMask, csel := 0, pte := false, defr := false, ppriv := priv, prv := priv, h := false, recs := [], held := [] }

/-- A wave started from a record (R356, R358). -/
def newWave (s : State) (die : Nat) (p : Spot) (l : Launch) (n : Node) (r : Record) (widx : Nat) : Wave :=
  { uid := s.nextUid, die := die, core := p.core, wctx := p.wctx, asid := r.asid, launch := r.launch, node := r.node, depth := r.depth,
    weight := r.weight, widx := widx, age := islandCycles (islandAt s (quadOf die p.core)) s.time, vbase := p.vbase, sbase := p.sbase, foot := n.foot,
    slices := (List.range n.foot.slices).map (startSlice n.entry), path := [List.range n.foot.slices], cur := 0, npc := n.entry,
    v := [], k := [], s := paySregs [] 0 r.pay, hs := [], q := 0, fpmode := 0, fpflags := 0, trap := trapReset l.priv l.handler,
    pad := [], padBad := [], tiles := List.replicate n.foot.tiles tileEmpty, lease := 0, slots := [], seqs := [], blocked := none,
    preq := none, saveReq := none, deqFrom := none, regangFrom := none, orig := r, tookMore := false, placed := coreClock s die p.core,
    chosen := coreClock s die p.core, dchosen := coreClock s die p.core, viq := [], retq := [], yielding := none, lostRead := none
    barHold := none, trains := [], fork := none }

/-- The wave is placed; its start is an acquire at `.pkg` scope on its core and quad (R356). -/
def placeWave (s : State) (w : Wave) : State :=
  let s1 := acquireAt s w.die w.core .pkg
  { s1 with waves := s1.waves ++ [w], nextUid := s1.nextUid + 1 }

/-! ### Save (R157, R159, R161, R317) -/

/-- Operations a save waits for: what is steered, the counters, pending replies, and whatever others still do to the wave's scratchpad. -/
def saveBusy (s : State) (w : Wave) : Bool :=
  !w.viq.isEmpty || s.flights.any (fun f =>
    (f.who.uid == w.uid && (f.cls.isSome || f.rr.isSome || (match f.act with | .matrix _ => true | _ => false))) ||
    (actAccs f.act).any (fun a => match a.1.loc with | .pad u _ => u == w.uid | .mem _ => false) ||
    (match f.act with
     | .copy c => (match c.bar with | some b => b.1 == w.uid | none => false)
     | .matrix m => (match m.fn with | .mmo _ _ _ _ _ (some u) => u == w.uid | _ => false)
     | _ => false))

/-- Scratchpad ranges a hint keeps: its own, and the bytes of the tiles it names. -/
def hintRanges (w : Wave) (ranges : List (Nat × Nat)) (tiles : Nat) : List (Nat × Nat) :=
  ranges.map (fun r => (256 * r.1, 256 * r.2)) ++
  (w.tiles.mapIdx (fun i t => (i, t))).filterMap (fun p => if bitAt tiles p.1 then some (256 * p.2.base, tileBytes p.2) else none)
def inRanges (rs : List (Nat × Nat)) (a : Nat) : Bool := rs.any (fun r => decide (r.1 ≤ a ∧ a < r.1 + r.2))

/-- What a save writes of a wave; the rest reads as zero or EMPTY after restore (R159, R160). -/
def savedWave (s : State) (w : Wave) (h : SaveHint) : Wave :=
  let w1 := { (updSlices w (liveSlices w) (fun sl => { sl with atRegang := none, atRet := false })) with
    blocked := none, preq := none, saveReq := none, deqFrom := none, regangFrom := none, placed := coreClock s w.die w.core - w.placed
    retq := [], yielding := none, lostRead := none, barHold := none, trains := [] }
  match h with
  | .full => w1
  | .hint groups ranges tiles _ =>
    let rs := hintRanges w ranges tiles
    { w1 with
      v := w.v.filter (fun x => bitAt groups (x.1 % 256 / 8))
      pad := w.pad.filter (fun x => inRanges rs x.1)
      padBad := w.padBad.filter (fun p => inRanges rs (8 * p))
      tiles := w.tiles.mapIdx (fun i t => if bitAt tiles i then t else tileEmpty) }

def savesAcc (h : SaveHint) : Bool := match h with | .full => true | .hint _ _ _ acc => acc

/-- A core that takes another's place: its caches and its predictor are empty; its split and what the release buffer still owes go over
(R409; log 120). -/
def spareFor (c : Core) : Core :=
  { c with lasting := false, spare := true, l1 := [], l1old := [], ncache := [], tcache := [], pred := [] }

/-- A unit that is new: no corrected events are counted for it, and it may be retired in its turn (R408, R409). -/
def freshUnit (s : State) (u : Unit3) : State :=
  { s with errs := s.errs.filter (fun p => !(p.1 == u)), retired := s.retired.filter (fun x => !(x == u)) }

/-- A lasting core with no wave left gives its place to a spare, with an event (R409). -/
def swapSpare (s : State) (die core : Nat) : State :=
  let c := coreAt s die core
  if c.lasting && !s.waves.any (fun x => x.die == die && x.core == core) then
    let d := dieAt s die
    postEvent (freshUnit (putDie (putCore s die core (spareFor c)) die { d with coreSpares := d.coreSpares - 1 }) (.core die core))
      0x15 [die, 0, core, d.coreSpares - 1, 0, 0, 0]
  else s

/-- The wave's state leaves its core. -/
def saveWave (s : State) (w : Wave) (h : SaveHint) : State :=
  let eng := engineOf w.die w.core
  let e := engineAt s eng
  let holds := match e.holder with | some x => x.1 == w.uid | none => false
  let keep := holds && savesAcc h
  let w1 := savedWave s w h
  let ctx := match findCtx s w.asid with | some c => c.phase == .saving | none => false
  let x : Saved := { wave := { w1 with lease := if keep then w.lease else 0 }, banks := if keep then some (e.a0, e.a1) else none, ctx := ctx }
  let s1 := dropWave (flushWhere s w.die w.core (fun k => k.waves.contains w.wctx) [] none) w.uid
  let s2 := if holds then endLease s1 eng else s1
  swapSpare { s2 with saved := s2.saved ++ [x] } w.die w.core

/-- SAVE: forks are squashed, and once nothing of the wave is outstanding its state is saved and its
contexts are free (R159). -/
def execSave (uid : Nat) (s : State) : Out :=
  match findWave s uid with
  | none => .next s
  | some w =>
    match w.saveReq with
    | none => .next s
    | some h =>
      if saveBusy s w then .next s
      else
        let s1 := squashForks s uid
        match findWave s1 uid with
        | none => .next s1
        | some w1 => .next (saveWave s1 w1 h)

/-! ### Restore (R160, R317) -/

/-- Launches marked weight-writing (R183). -/
def writesWeights (s : State) (num : Nat) : Bool := match findLaunch s num with | some l => l.wsw | none => false

/-- Whether a die may take a wave of a launch (R183): a weight-writing launch alone on it, others not beside one, nobody while a DMA
write to its weight store waits. -/
def dieOpen (s : State) (die num : Nat) : Bool :=
  let mine := writesWeights s num
  let ok (n : Nat) : Bool := n == num || !(mine || writesWeights s n)
  s.waves.all (fun w => !(w.die == die) || ok w.launch) && s.saved.all (fun x => !(x.wave.die == die) || ok x.wave.launch) &&
  s.flights.all (fun f => f.cls.isNone || !(f.who.die == die) || ok f.who.launch) &&
  !s.inputs.any (fun i => match i with | .hostDmaWeightWrite pa bs => (linesOf pa bs.length).any (fun l => homeDie l == die) | _ => false)

/-- Whether a saved wave's own core and context have room for it again. -/
def restoreFits (s : State) (w : Wave) : Bool :=
  let c := coreAt s w.die w.core
  dieOpen { s with saved := s.saved.filter (fun x => !(x.wave.uid == w.uid)) } w.die w.launch &&
  !c.lasting && !(slotWaves s w.die w.core (w.wctx / 16)).any (fun x => ctxOf x == w.wctx) &&
  tileRoom s w.die w.core w.foot && !(coreBases s w.die w.core w.foot).isEmpty && !(slotBases s w.die w.core (w.wctx / 16) w.foot).isEmpty

/-- RESTORE: the wave returns to its own core and context and keeps its age; a kept lease is held again first (R160, R317, R399). One that an
accepted CTXLOAD starts acquires at `.sys` (R401). -/
def execRestore (uid : Nat) (s : State) : Out :=
  match s.saved.find? (fun x => x.wave.uid == uid) with
  | none => .next s
  | some x =>
    let w := x.wave
    let eng := engineOf w.die w.core
    let loaded := match findCtx s w.asid with | some c => !(c.phase == .saving) | none => false
    let n (i : Nat) : Nat := Config.choice (2 ^ 64 * (s.draws + 1) + i)
    match loaded && restoreFits s w && (x.banks.isNone || leaseFree s eng),
      pickBy (n 0) (slotBases s w.die w.core (w.wctx / 16) w.foot), pickBy (n 1) (coreBases s w.die w.core w.foot) with
    | true, some v, some b =>
      let e := engineAt s eng
      let s1 := match x.banks with
        | some k => putEngine s eng { e with a0 := k.1, a1 := k.2, holder := some (w.uid, w.asid), lastCtx := (findCtx s w.asid).map (fun (c : Ctx) => c.serial) }
        | none => s
      let s2 := if x.ctx then acquireAt s1 w.die w.core .sys else s1
      .next { s2 with
        saved := s2.saved.filter (fun y => !(y.wave.uid == uid))
        waves := s2.waves ++ [{ w with vbase := v, sbase := b, placed := coreClock s w.die w.core - w.placed, chosen := coreClock s w.die w.core, dchosen := coreClock s w.die w.core }] }
    | _, _, _ => .next s

end Sys2Proof.Machine
end

