-- ==== Sys2Proof/Machine/Queues.lean ====
section
/-!
DEFINITION. Launches and records (R353 to R365, R372, R376): acceptance and refusal, completion, weight coming home, queues and spill
rings, records that arrive.
-/
namespace Sys2Proof.Machine

/-! ### Launch descriptor (R357) -/

structure LaunchDesc where
  pq    : Bool
  part  : List Nat
  iss   : Nat
  ixw   : Nat
  priv  : Bool
  wsw   : Bool
  pers  : Bool
  ord   : Bool
  pri   : Nat
  node  : Nat
  count : Nat
  first : Nat
  deps  : List Nat
  pay   : List W32
  bad   : Bool
deriving DecidableEq, Repr

/-- The 64 bytes read as a descriptor; `bad` marks one that is invalid whatever its node. -/
def launchDesc (bs : List Byte) : LaunchDesc :=
  let q (i : Nat) : Nat := leNat ((bs.drop (8 * i)).take 8)
  { pq := bitAt (q 0) 56, part := (List.range 8).map (fun d => field (q 0) 55 24 / 2 ^ (4 * d) % 16), iss := field (q 0) 23 22,
    ixw := field (q 0) 21 18, priv := bitAt (q 0) 17, wsw := bitAt (q 0) 16, pers := bitAt (q 0) 15, ord := bitAt (q 0) 14,
    pri := field (q 0) 13 12, node := field (q 0) 11 0, count := field (q 1) 63 32, first := field (q 1) 31 0,
    deps := [q 2, q 3].filter (fun d => !(d == 0)),
    pay := (List.range 8).map (fun i => BitVec.ofNat 32 (leNat ((bs.drop (32 + 4 * i)).take 4))),
    bad := !(field (q 0) 63 57 == 0) || decide (2 ≤ field (q 0) 23 22) || decide (8 < field (q 0) 21 18) }

/-- Shares of the dies; a PART of zero names one die (R357). -/
def dieShares (d : LaunchDesc) (die : Nat) : List Nat :=
  if d.part.all (fun x => x == 0) then (List.range 8).map (fun i => if i = die then 1 else 0) else d.part
def namedDies (shares : List Nat) : List Nat := (List.range 8).filter (fun i => !(shares.getD i 0 == 0))

/-- First index of a die's part of a range of `count` tasks, from 0 (R357). -/
def partStart (shares : List Nat) (count d : Nat) : Nat := if 8 ≤ d then count else count * (shares.take d).sum / max shares.sum 1
def dieRange (shares : List Nat) (count d : Nat) : Nat × Nat := (partStart shares count d, partStart shares count (d + 1))

/-! ### Launch numbers and dependences (R360) -/

def treeNum (num : Nat) : Nat := num / 2 ^ 32 * 2 ^ 32

/-- A launch among the newest 65,536, whose completion is tracked; of several that had the number, the newest. -/
def tracked (s : State) (num : Nat) : Option Launch := (s.launches.drop (s.launches.length - 65536)).reverse.find? (fun l => l.num == num)

/-- Serial of the context that an ASID names; 0 for none. -/
def ctxSerial (s : State) (asid : Nat) : Nat := match findCtx s asid with | some c => c.serial | none => 0

/-- A dependence that refuses a launch: an unassigned number, or a launch of another context. -/
def depRefused (s : State) (asid dep : Nat) : Bool :=
  let d := (dep / 2 ^ 32 + 2 ^ 32 - s.regs.lastSeq % 2 ^ 32) % 2 ^ 32
  (decide (1 ≤ d) && decide (d ≤ 2 ^ 31 - 1)) ||
  (match tracked s (treeNum dep) with | some t => decide (t.tree < dep % 2 ^ 32) | none => false) ||
  (match tracked s dep with | some l => !(l.ctx == ctxSerial s asid) | none => false)

/-- A dependence is met: the launch has completed, or is no longer tracked. -/
def depMet (s : State) (dep : Nat) : Bool := match tracked s dep with | some l => l.complete | none => true

/-! ### Completion (R362) -/

/-- The completion record; a child's link share goes back to its parent's root (R381). Dependents are released (DEPENDENCE_MET). -/
def completeLaunch (s : State) (num : Nat) : State :=
  match findLaunch s num with
  | none => s
  | some l =>
    let s1 := putLaunch s { l with complete := true, shares := [], home := fullWeight }
    if l.host then
      postEvent s1 0 [num % 2 ^ 32, num / 2 ^ 32, (if l.err then 1 else 0) + (if l.rst then 2 else 0) + (if l.refused then 4 else 0), l.node,
                      l.dones, 0, 0]
    else returnWeight s1 l.rootDie l.asid l.parent l.link

/-! ### Acceptance and refusal (R361, R373) -/

/-- A node of a context that is a kernel. -/
def kernelNode (s : State) (asid node : Nat) : Option Node :=
  match nodeOf s asid node with
  | some n => if n.valid && !n.sink then some n else none
  | none => none

def dieCores : List Nat := List.range 128

/-- Core of task k of a PQ launch on a quad (R231). -/
def pqCore (f : Foot) (quad k : Nat) : Nat := 4 * quad + (if f.mx then 2 * k else k)

/-- Why a launch is refused: the first reason that holds, an invalid descriptor or node before its footprint (log 25). -/
def refuseReason (s : State) (asid : Nat) (host : Bool) (die : Nat) (d : LaunchDesc) : Option Nat :=
  let shares := dieShares d die
  match kernelNode s asid d.node with
  | none => some 2
  | some n =>
    if d.bad then some 2
    else if !(namedDies shares).any (fun i => dieCores.any (fun c => emptyFits s i c n.foot)) then some 1
    else if (!host && (d.priv || d.wsw)) || (d.wsw && !d.priv) then some 3
    else if d.deps.any (depRefused s asid) then some 4
    else if d.pq && decide ((if n.foot.mx then 2 else 4) < d.count) then some 5
    else if d.pq && !(namedDies shares).any (fun i => (List.range 32).any (fun q =>
        (List.range d.count).all (fun k => emptyFits s i (pqCore n.foot q k) n.foot))) then some 5
    else if d.pers && !d.pq && (namedDies shares).any (fun i =>
        decide ((dieCores.map (fun c => emptyCount s i c n.foot)).sum < (dieRange shares d.count i).2 - (dieRange shares d.count i).1)) then
      some 5
    else none

/-- Shares lent at acceptance: 2^60 to each die that receives tasks (R373). Die 8 stands for a PQ launch's die, still open (R231). -/
def lentShares (d : LaunchDesc) (die : Nat) : List Share :=
  if d.count = 0 then []
  else if d.pq then [{ die := 8, next := d.first, stop := d.first + d.count, weight := 2 ^ 60 }]
  else
    let shares := dieShares d die
    (List.range 8).filterMap (fun i =>
      let r := dieRange shares d.count i
      if r.1 < r.2 then some { die := i, next := d.first + r.1, stop := d.first + r.2, weight := 2 ^ 60 } else none)

/-- Launches that are complete and older than the newest 65,536 are forgotten (R360). -/
def trimLaunches (ls : List Launch) : List Launch :=
  (ls.take (ls.length - 65536)).filter (fun l => !l.complete) ++ ls.drop (ls.length - 65536)

/-- A launch's payload of kind 0x05 (R361). -/
def refusePay (reason num node : Nat) (pc addr : W64) : List W32 :=
  [BitVec.ofNat 32 (5 + 2 ^ 8 * reason), BitVec.ofNat 32 num, BitVec.ofNat 32 (num / 2 ^ 32), BitVec.ofNat 32 node,
   pc.truncate 32, (pc >>> 32).truncate 32, addr.truncate 32, (addr >>> 32).truncate 32]

/-- A launch is accepted or refused. While an event waits, a launch with dependences is not begun and none completes (R402). `link` is a
child's link share; pc and addr go into a refusal's record, which holds the phase open
until it is written (R156). -/
def acceptLaunch (s : State) (asid num : Nat) (host : Bool) (parent die : Nat) (handler : W64) (link : Nat) (pc addr : W64)
    (d : LaunchDesc) : State :=
  let refused := refuseReason s asid host die d
  let shares := if refused.isSome then [] else lentShares d die
  let l : Launch :=
    { num := num, asid := asid, ctx := ctxSerial s asid, host := host, parent := parent, rootDie := die, node := d.node, first := d.first, count := d.count,
      pq := d.pq, part := dieShares d die, rr := d.iss == 1, ixw := d.ixw, priv := d.priv, wsw := d.wsw, pers := d.pers, ord := d.ord,
      pri := d.pri, deps := d.deps, pay := d.pay, handler := handler, home := fullWeight - 2 ^ 60 * shares.length, link := link,
      shares := shares, others := [], dones := 0, begun := d.deps.isEmpty || (s.regs.events.isEmpty && d.deps.all (depMet s)), tree := 0, err := false, rst := false,
      refused := refused.isSome, complete := false }
  let s1 := { s with launches := trimLaunches (s.launches.filter (fun x => !(x.num == num && x.complete)) ++ [l]) }
  match refused with
  | some r => addFlight (sendError s1 die asid num 0 (refusePay r num d.node pc addr)) (whoNone die asid num) none (.wreturn num 0) none
  | none =>
    if d.count ≠ 0 then s1
    else if s.regs.events.isEmpty then completeLaunch s1 num
    else addFlight s1 (whoNone die asid num) none (.wreturn num 0) none

/-- DEPENDENCE_MET: a waiting launch may start; none does while an event waits for room (R360, R402). -/
def execDependenceMet (num : Nat) (s : State) : Out :=
  match findLaunch s num with
  | none => .next s
  | some l =>
    if !l.begun && !l.complete && s.regs.events.isEmpty && l.deps.all (depMet s) then .next (putLaunch s { l with begun := true })
    else .next s

/-! ### Weight coming home (R229, R372, R376) -/

/-- Nothing of the launch's tasks is left to apply (R156, R229): of merges, those with samples of its waves. -/
def launchQuiet (s : State) (l : Launch) : Bool :=
  !s.flights.any (fun f => match f.act with
    | .wreturn _ _ => false
    | .merge _ _ ws _ => ws.any (fun u => match holder s u with | some w => w.launch == l.num | none => false)
    | _ => f.who.launch == l.num) &&
  !s.cores.any (fun c => c.2.relb.any (fun e => e.who.launch == l.num))

/-- Lazy releases of a launch's tasks are to be written home (R224, R229). -/
def launchLazyDue (s : State) (num : Nat) : State :=
  { s with cores := s.cores.map (fun c => (c.1, { c.2 with relb := dueThrough (fun e => e.recorded && e.who.launch == num) c.2.relb })) }

/-- WEIGHT_RETURN: the root's home rises; all of it home ends the phase, once everything of the launch is applied and no event waits
(R229, R362, R372, R402). -/
def execWeightReturn (fid : Nat) (s : State) : Out :=
  onFlight s fid (fun f =>
    match f.act with
    | .wreturn num amount =>
      match findLaunch s num with
      | none => .next (dropFlight s fid)
      | some l =>
        if l.complete then .next (dropFlight s fid)
        else if l.home + amount < fullWeight then .next (dropFlight (putLaunch s { l with home := l.home + amount }) fid)
        else if !s.regs.events.isEmpty then .next s
        else if launchQuiet s l then .next (completeLaunch (dropFlight s fid) num)
        else .next (launchLazyDue s num)
    | _ => .next s)

/-! ### Queues and rings (R363 to R365) -/

/-- Virtual address of a place in a die's ring of a node (R353). -/
def ringAddr (n : Node) (die idx : Nat) : Nat := n.spill + die * 32 * 2 ^ n.log2 + 32 * (idx % 2 ^ n.log2)

def payBytes (pay : List W32) : List Byte := (List.range 8).flatMap (fun i => leBytes 4 (pay.getD i 0).toNat)

/-- 32 bytes written to a context's memory by a die, where its page is normal and writable; else they are lost (log 26). -/
def dieWrite (s : State) (asid va : Nat) (bs : List Byte) : State :=
  match engPlan s asid writable (BitVec.ofNat 64 va) bs with
  | .ok ps => ps.foldl (fun st p => memWrite st p.1 p.2.1 p.2.2) s
  | .error _ => s

/-- Refill: the oldest records leave the ring head as one batch (R364), as they were sent (log 26); none does once the context leaves (R165). -/
def refill (s : State) (die asid node : Nat) : State :=
  let q := queueAt s die asid node
  let leaves := match findCtx s asid with | some c => c.phase == .saving | none => false
  if q.chip.length < 16 ∧ q.ring.isEmpty = false ∧ q.batch = false ∧ leaves = false then
    let k := min 8 q.ring.length
    addFlight (putQueue s die { q with ring := q.ring.drop k, head := q.head + k, batch := true }) (whoNone die asid 0) none
      (.batch die asid node (q.ring.take k)) none
  else s

/-- A record joins a queue: on chip when the ring holds nothing and there is room, else at the ring tail (R364). -/
def enqueue (s : State) (die : Nat) (n : Node) (r : Record) : State :=
  let q := queueAt s die r.asid r.node
  if q.ring.isEmpty && !q.batch && decide (q.chip.length < 32) then putQueue s die { q with chip := q.chip ++ [r] }
  else
    refill (dieWrite (putQueue s die { q with ring := q.ring ++ [r], tail := q.tail + 1 }) r.asid (ringAddr n die q.tail) (payBytes r.pay))
      die r.asid r.node

/-- A sink record: ring, counter, weight (R354, R376). -/
def sinkWrite (s : State) (die : Nat) (n : Node) (r : Record) : State :=
  let at_ := BitVec.ofNat 64 (n.cnt + 8 * die)
  let cnt := match engPage s r.asid 2 writable at_.toNat with | .ok pa => memNat s.mem pa.2 8 | .error _ => 0
  let s1 := dieWrite (dieWrite s r.asid (ringAddr n die cnt) (payBytes r.pay)) r.asid at_.toNat (leBytes 8 (cnt + 1))
  returnWeight s1 die r.asid r.launch r.weight

/-- Payload of kind 0x06 (R367). -/
def badPay (reason : Nat) (r : Record) : List W32 :=
  [BitVec.ofNat 32 (6 + 2 ^ 8 * reason), BitVec.ofNat 32 r.launch, BitVec.ofNat 32 (r.launch / 2 ^ 32), BitVec.ofNat 32 r.node] ++ r.pay.take 4

/-- An error record in a record's place, with its weight (R367). -/
def replaceRecord (s : State) (die reason : Nat) (r : Record) : State := sendError s die r.asid r.launch r.weight (badPay reason r)

/-- Older records of the same `trace`, to whatever node, go first (R331). -/
def rayTurn (s : State) (f : Flight) : Bool :=
  s.flights.all (fun g => match g.act with
    | .trace c => !c.sent.contains f.id || c.sent.all (fun k => decide (f.id ≤ k) || (findFlight s k).isNone)
    | _ => true)

/-- Older records of the same sender to the same queue, or of the same `trace`, go first (R331, R378). -/
def recordTurn (s : State) (f : Flight) (die : Nat) (r : Record) : Bool :=
  rayTurn s f && !s.flights.any (fun g => decide (g.id < f.id) && !(f.who.uid == 0) && g.who.uid == f.who.uid && (match g.act with
    | .record d x _ => d == die && x.asid == r.asid && x.node == r.node
    | _ => false))

/-- Rank of a record's sender among those that arrive in one cycle: its core, fixed-function units last (R20). An error record counts with the
units, since the spec names no sender for it (log 124). -/
def senderRank (s : State) (f : Flight) : Nat :=
  if f.who.uid = 0 ∨ s.flights.any (fun g => match g.act with | .trace c => c.sent.contains f.id | _ => false) = true then 128 else f.who.core

/-- Records of one cycle enter a queue in ascending rank: one behind a higher rank comes in a later cycle (R20). The cycle is one of the clock of
the die's island 0, where islands run at several frequencies (log 124). -/
def rankTurn (s : State) (f : Flight) (die : Nat) (r : Record) : Bool :=
  match (queueAt s die r.asid r.node).newest with
  | some (c, k) => !(c == quadCycle s (32 * die)) || decide (k ≤ senderRank s f)
  | none => true
def noteArrival (s : State) (f : Flight) (die : Nat) (r : Record) : State :=
  putQueue s die { queueAt s die r.asid r.node with newest := some (quadCycle s (32 * die), senderRank s f) }

/-- Records on their way to a queue that have a place of its ring kept for them (R365). -/
def placesKept (s : State) (die asid node : Nat) : Nat :=
  (s.flights.filter (fun f => match f.act with
    | .record d r false => d == die && r.asid == asid && r.node == node
    | _ => false)).length

/-- No record arrives at a full ring: one that has no place kept for it, an error record, waits, and takes none that is kept for another
(R365). -/
def arrivalRoom (s : State) (die : Nat) (n : Node) (r : Record) (err : Bool) : Bool :=
  let q := queueAt s die r.asid r.node
  n.sink || (q.ring.isEmpty && !q.batch && decide (q.chip.length < 32)) ||
  decide (q.ring.length + batchLoad s die r.asid r.node + (if err then placesKept s die r.asid r.node else 0) < 2 ^ n.log2)

/-- RECORD_ARRIVAL (R354, R364, R367): on chip, to the ring, to a sink; a unit's record for an invalid node is replaced. A record for
another package leaves this one, and its weight comes home from there (R14, R376; log 1). -/
def execRecordArrival (fid : Nat) (s : State) : Out :=
  onFlight s fid (fun f =>
    match f.act with
    | .record die r err =>
      if !recordTurn s f die r then .next s
      else if 8 ≤ die then .next (returnWeight (dropFlight s fid) (die % 8) r.asid r.launch r.weight)
      else if !rankTurn s f die r then .next s
      else
        let s1 := dropFlight s fid
        match nodeOf s r.asid r.node with
        | none => .next (if err then returnWeight s1 die r.asid r.launch r.weight else replaceRecord s1 die 2 r)
        | some n =>
          if !n.valid then .next (if err then returnWeight s1 die r.asid r.launch r.weight else replaceRecord s1 die 2 r)
          else if !arrivalRoom s die n r err then .next s
          else if n.sink then .next (sinkWrite (noteArrival s1 f die r) die n r)
          else .next (enqueue (noteArrival s1 f die r) die n r)
    | _ => .next s)

/-- BATCH_ARRIVAL (R364). -/
def execBatchArrival (fid : Nat) (s : State) : Out :=
  onFlight s fid (fun f =>
    match f.act with
    | .batch die asid node rs =>
      let q := queueAt s die asid node
      .next (refill (putQueue (dropFlight s fid) die { q with chip := q.chip ++ rs, batch := false }) die asid node)
    | _ => .next s)

end Sys2Proof.Machine
end

