-- ==== Sys2Proof/Machine/Tasks.lean ====
section
/-!
DEFINITION. The task engine: the die dispatcher (R231, R358, R366 to R373, R382) and the task instructions (R377 to R381).
-/
namespace Sys2Proof.Machine

/-! ### Which record is next (R368) -/

/-- Cores of a die a record may be placed on: its pinned quad, not the core a rerun avoids (R368, R382). -/
def recordCores (r : Record) : List Nat :=
  (match r.quad with | some q => natsFrom (4 * q) 4 | none => dieCores).filter (fun c => !(r.avoid == some c))

def recordRoom (s : State) (die : Nat) (n : Node) (r : Record) : Bool := (recordCores r).any (fun c => coreFits s die c n.foot)

/-- No core could hold the record's wave even when empty (R367). -/
def unplaceable (s : State) (die : Nat) (n : Node) (r : Record) : Bool := !(recordCores { r with avoid := none }).any (fun c => emptyFits s die c n.foot)

/-- On-chip records of a launch in a queue; a pinned record whose quad has no room is passed over. -/
def queueCands (s : State) (die : Nat) (n : Node) (q : NodeQ) (launch : Nat) : List Record :=
  q.chip.filter (fun r => r.launch == launch && (r.quad.isNone || recordRoom s die n r))

/-- Whether a record's affinity line is present in its home slice on this die. -/
def affinityHit (s : State) (die : Nat) (r : Record) : Bool :=
  match translate s r.asid (payWord r.pay 0).toNat with
  | some leaf => homeDie (paUnder leaf (payWord r.pay 0).toNat) == die && l2Has s (paUnder leaf (payWord r.pay 0).toNat)
  | none => false

/-- The record R368 takes: one bypassed 8 times, else the oldest hit, else the oldest; and the queue without it, with the bypass count of
the oldest raised where it is bypassed. -/
def pickRecord (s : State) (die : Nat) (n : Node) (q : NodeQ) (launch : Nat) : Option (Record × NodeQ) :=
  match queueCands s die n q launch with
  | [] => none
  | old :: rest =>
    let take (r : Record) : Record × NodeQ := (r, { q with chip := q.chip.erase r })
    if !n.aff then some (take old)
    else
      match (old :: rest).find? (fun r => decide (8 ≤ r.bypass)), (old :: rest).find? (affinityHit s die) with
      | some r, _ => some (take r)
      | none, none => some (take old)
      | none, some r =>
        if r = old then some (take old)
        else some (r, { q with chip := (q.chip.erase r).replace old { old with bypass := old.bypass + 1 } })

/-! ### Launches on a die -/

/-- A launch whose queued records may be dispatched, complete or not: its context is on the package and not being saved (R165, R354). -/
def recordsLive (s : State) (l : Launch) : Bool :=
  match findCtx s l.asid with | some c => c.serial == l.ctx && !(c.phase == .saving) | none => false

/-- A launch whose range tasks may be dispatched: begun, an ORD launch behind the earlier ones of its parent (R360). -/
def launchLive (s : State) (l : Launch) : Bool :=
  recordsLive s l && l.begun && !l.complete && !l.refused &&
  (!l.ord || l.host || decide (0 < l.dones) ||
   (s.launches.takeWhile (fun x => !(x.num == l.num))).all (fun x => !(x.ord && !x.host && x.parent == l.parent) || decide (0 < x.dones) || x.complete))

/-- Kernel nodes of a launch with records queued on a die. -/
def launchNodes (s : State) (die : Nat) (l : Launch) : List (Node × NodeQ) :=
  (dieAt s die).queues.filterMap (fun q =>
    if q.asid == l.asid && q.chip.any (fun r => r.launch == l.num) then (nodeOf s q.asid q.node).map (fun n => (n, q)) else none)

/-- A launch's range share on a die. -/
def shareOf (l : Launch) (die : Nat) : Option Share := l.shares.find? (fun x => x.die == die)

/-- Draws that a share makes while it hands out a number of tasks (R373). -/
def drawsFor : Nat → Nat → Nat
  | 0, _ => 0
  | 1, _ => 0
  | n + 2, r => if r = 1 then drawsFor (n + 1) (r + 2 ^ 56 - (r + 2 ^ 56) / 2) + 1 else drawsFor (n + 1) (r - r / 2)

/-- The root can lend what the tasks of a PERS launch draw (R373; log 101). -/
def persWeight (l : Launch) : Bool := decide (((l.shares.map (fun x => drawsFor (x.stop - x.next) x.weight)).sum) * 2 ^ 56 ≤ l.home)

/-- A range task may leave its share: weight for it, or a draw that the root can serve (R373). -/
def shareReady (l : Launch) (x : Share) : Bool := decide (x.next + 1 = x.stop) || decide (1 < x.weight) || decide (2 ^ 56 ≤ l.home)

/-- The record of the next range task of a share, and the launch after it (R357, R358, R373). -/
def rangeRecord (l : Launch) (x : Share) : Record × Launch :=
  let last := decide (x.next + 1 = x.stop)
  let drawn := if !last && x.weight == 1 then 2 ^ 56 else 0
  let total := x.weight + drawn
  let g := if last then total else halfOf total
  let pay := if l.ixw = 0 then l.pay else l.pay.modify (l.ixw - 1) (fun w => w + BitVec.ofNat 32 x.next)
  let rest := if last then l.shares.filter (fun y => !(y.die == x.die))
    else l.shares.map (fun y => if y.die == x.die then { y with next := y.next + 1, weight := total - g } else y)
  ({ (mkRecord l.asid l.node l.num 0 g none pay) with seq := some (x.next - l.first) },
   { l with shares := rest, home := l.home - drawn, dones := l.dones + 1 })

/-- Tasks that a PERS launch still has on each die. -/
def persFits (s : State) (n : Node) (l : Launch) : Bool :=
  persWeight l && l.shares.all (fun x => dieOpen s x.die l.num && fits (x.stop - x.next) s x.die)
where
  /-- k more waves fit on a die, one after the other. -/
  fits : Nat → State → Nat → Bool
    | 0, _, _ => true
    | k + 1, s, die =>
      match dieCores.findSome? (fun c => firstSpot s die c n.foot) with
      | none => false
      | some p => fits k (placeWave s (newWave s die p l n (mkRecord l.asid l.node l.num 0 0 none []) 0)) die

/-- Tasks of a PQ launch still to be started, by their place in the quad (R231). -/
def pqTasks (l : Launch) : List Nat := match shareOf l 8 with | some x => natsFrom (x.next - l.first) (x.stop - x.next) | none => []

/-- The lowest quad of the lowest named die that can take every task of a PQ launch now (R231). -/
def pqPlace (s : State) (n : Node) (l : Launch) : Option (Nat × Nat) :=
  ((namedDies l.part).filter (fun i => dieOpen s i l.num)).findSome? (fun i => ((List.range 32).find? (fun q =>
    (pqTasks l).all (fun k => coreFits s i (pqCore n.foot q k) n.foot))).map (fun q => (i, q)))

/-- Whether the range tasks of a launch can be placed by a die now. -/
def rangeFits (s : State) (die : Nat) (l : Launch) : Bool :=
  match kernelNode s l.asid l.node with
  | none => false
  | some n =>
    if l.pq then (match l.shares, pqPlace s n l with | _ :: _, some p => p.1 == die | _, _ => false)
    else
      match shareOf l die with
      | none => false
      | some x => if l.pers then persFits s n l else shareReady l x && dieCores.any (fun c => coreFits s die c n.foot)

/-- Whether a queued record of a node of the launch can be placed. -/
def queuedFits (s : State) (die : Nat) (l : Launch) (p : Node × NodeQ) : Bool :=
  match pickRecord s die p.1 p.2 l.num with | some r => recordRoom s die p.1 r.1 | none => false

/-- Whether a launch has something a die can place (R366). -/
def canPlace (s : State) (die : Nat) (l : Launch) : Bool :=
  dieOpen s die l.num && ((recordsLive s l && (launchNodes s die l).any (queuedFits s die l)) || (launchLive s l && rangeFits s die l))

/-- Whether a launch has anything to place on a die, room or not. -/
def hasWork (s : State) (die : Nat) (l : Launch) : Bool :=
  (recordsLive s l && !(launchNodes s die l).isEmpty) ||
  (launchLive s l && ((shareOf l die).isSome || (l.pq && !l.shares.isEmpty && (namedDies l.part).contains die)))

/-- Effective priority (R370). -/
def effPri (s : State) : Nat → Launch → Nat
  | 0, l => l.pri
  | k + 1, l => (s.launches.filter (fun x => !x.complete && x.deps.contains l.num)).foldl (fun m x => max m (effPri s k x)) l.pri
def effective (s : State) (l : Launch) : Nat := effPri s 8 l

/-! ### Placing -/

/-- Wave index of a record: its own, or the next of R358's second kind on the die. -/
def indexOf (l : Launch) (die : Nat) (r : Record) : Nat × Launch :=
  match r.seq with
  | some i => (i, l)
  | none =>
    let n := stGet 0 die l.others
    ((l.count + 8 * n + die) % 2 ^ 32, { l with others := stSet 0 die (n + 1) l.others })

/-- A launch joins the die's visiting order at its first dispatch (R369). -/
def noteDispatch (s : State) (die num : Nat) : State :=
  let d := dieAt s die
  putDie s die { d with
    order := if d.order.contains num then d.order else d.order ++ [num]
    deficit := if d.deficit.any (fun p => p.1 == num) then d.deficit else d.deficit ++ [(num, 0)] }

/-- A record becomes a wave at a spot (R356, R358). -/
def startTask (s : State) (die num : Nat) (n : Node) (r : Record) (p : Spot) : State :=
  match findLaunch s num with
  | none => s
  | some l =>
    let i := indexOf l die r
    placeWave (noteDispatch (putLaunch s i.2) die num) (newWave s die p i.2 n r i.1)

/-- The next range task of a share at a spot. -/
def startRange (s : State) (die num : Nat) (shareDie : Nat) (n : Node) (p : Spot) : State :=
  match findLaunch s num with
  | none => s
  | some l =>
    match shareOf l shareDie with
    | none => s
    | some x =>
      let r := rangeRecord l x
      startTask (putLaunch s r.2) die num n r.1 p

/-- All tasks of a PERS launch at once, die by die (R366). -/
def startPers (s : State) (num : Nat) (n : Node) (shares : List Share) : State :=
  shares.foldl (fun st x => (List.range (x.stop - x.next)).foldl (fun st _ =>
    match dieCores.findSome? (fun c => firstSpot st x.die c n.foot) with
    | some p => startRange st x.die num x.die n p
    | none => st) st) s

/-- All tasks of a PQ launch on one quad (R231). -/
def startPq (s : State) (num die quad : Nat) (n : Node) (tasks : List Nat) : State :=
  tasks.foldl (fun st k =>
    match firstSpot st die (pqCore n.foot quad k) n.foot with
    | some p => startRange st die num 8 n p
    | none => st) s

/-- Place a launch's next work: a queued record of one of its nodes, freely chosen among them (log 24), else its range tasks (R366). -/
def placeNext (s : State) (die : Nat) (l : Launch) : State :=
  match pickBy (Config.choice (2 ^ 64 * (s.draws + 1) + 5)) ((launchNodes s die l).filter (queuedFits s die l)) with
  | some p =>
    (match pickRecord s die p.1 p.2 l.num with
     | none => s
     | some r =>
       match freeSpot s 1 die p.1.foot (recordCores r.1) with
       | none => s
       | some sp => refill (startTask (putQueue s die r.2) die l.num p.1 r.1 sp) die l.asid p.2.node)
  | none =>
    match kernelNode s l.asid l.node with
    | none => s
    | some n =>
      if l.pq then (match pqPlace s n l with | some p => startPq s l.num p.1 p.2 n (pqTasks l) | none => s)
      else if l.pers then startPers s l.num n l.shares
      else match freeSpot s 1 die n.foot dieCores with
        | some sp => startRange s die l.num die n sp
        | none => s

/-! ### Deficit round-robin (R369) -/

def deficitOf (ds : List (Nat × Int)) (num : Nat) : Int := ((ds.find? (fun p => p.1 == num)).map (fun p => p.2)).getD 0

/-- A launch with nothing queued on the die has a deficit of 0 (R369). -/
def idleDeficit (s : State) (die : Nat) (p : Nat × Int) : Nat × Int :=
  match findLaunch s p.1 with | some l => if p.2 = 0 ∨ hasWork s die l = true then p else (p.1, 0) | none => (p.1, 0)
def idleDeficits (s : State) : State :=
  { s with dies := s.dies.map (fun d => if d.2.deficit.all (fun p => p.2 == 0) then d else (d.1, { d.2 with deficit := d.2.deficit.map (idleDeficit s d.1) })) }

/-- The first launch of a level after one in the order of first dispatch, round the end; the level's launches that were never dispatched
stand last. -/
def nextIn (all order : List Nat) (num : Nat) : Nat :=
  (((all.dropWhile (fun x => !(x == num))).drop 1 ++ all).find? (fun x => order.contains x)).getD (order.headD 0)

/-- The pointer moves until it stands at a launch with a deficit of at least 0 that can be placed; each arrival adds 65,536. -/
def visit (all order : List Nat) (can : Nat → Bool) : Nat → Nat → List (Nat × Int) → Nat × List (Nat × Int)
  | 0, ptr, ds => (ptr, ds)
  | fuel + 1, ptr, ds =>
    if order.contains ptr && can ptr && decide (0 ≤ deficitOf ds ptr) then (ptr, ds)
    else
      let p := nextIn all order ptr
      visit all order can fuel p (putBy (fun x => x.1 == p) (p, deficitOf ds p + 65536) ds)

/-- Rounds after which every deficit is at least 0. -/
def visitFuel (order : List Nat) (ds : List (Nat × Int)) : Nat :=
  (order.length + 1) * ((ds.map (fun p => p.2.natAbs / 65536 + 2)).sum + 2)

/-- Launches of a level with work. -/
def levelLaunches (s : State) (die level : Nat) : List Nat :=
  (s.launches.filter (fun l => hasWork s die l && effective s l == level)).map (fun l => l.num)

/-- The order of first dispatch, launches that were never dispatched behind it in the order of acceptance. -/
def visitOrder (s : State) (die : Nat) : List Nat :=
  (dieAt s die).order ++ (s.launches.map (fun l => l.num)).filter (fun n => !(dieAt s die).order.contains n)

/-! ### Pre-emption for a higher level (R370) -/

def wavePri (s : State) (w : Wave) : Nat := match findLaunch s w.launch with | some l => effective s l | none => 0

/-- The wave to ask next: lowest priority, then youngest. -/
def victimOf (s : State) (die level : Nat) : Option Wave :=
  (s.waves.filter (fun w => w.die == die && w.fork.isNone && w.preq.isNone && decide (wavePri s w < level))).foldl (fun best w =>
    match best with
    | none => some w
    | some b =>
      if wavePri s w < wavePri s b ∨ (wavePri s w = wavePri s b ∧ (b.age < w.age ∨ (b.age = w.age ∧ b.wctx < w.wctx))) then some w else some b) none

/-- Die that makes room for a PQ launch: the lowest named one on which all its tasks fit once the lower waves are gone; with none such, the
lowest one (R231, R370; log 81). -/
def pqAsks (s : State) (n : Node) (l : Launch) : Option Nat :=
  let ds := namedDies l.part
  (ds.find? (fun i => (pqPlace { s with waves := s.waves.filter (fun w => !(w.die == i && decide (wavePri s w < effective s l))) } n { l with
    part := (List.range 8).map (fun d => if d = i then 1 else 0) }).isSome)).or ds.head?

/-- The range tasks of a launch find no room on a die where they have to go: of a PERS launch its share there, of a PQ launch no die that
it names. Waiting for weight is no want of room (R373; log 81). -/
def rangeWants (s : State) (die : Nat) (l : Launch) : Bool :=
  launchLive s l &&
  (match kernelNode s l.asid l.node with
   | none => false
   | some n =>
     if l.pq then !l.shares.isEmpty && (pqPlace s n l).isNone && pqAsks s n l == some die
     else
       match shareOf l die with
       | none => false
       | some x =>
         if l.pers then persWeight l && !persFits.fits n l (x.stop - x.next) s die
         else shareReady l x && !dieCores.any (fun c => coreFits s die c n.foot))

/-- A launch has work for which only room is missing on a die (R183, R370). -/
def lacksRoom (s : State) (die : Nat) (l : Launch) : Bool :=
  dieOpen s die l.num && !canPlace s die l && ((recordsLive s l && !(launchNodes s die l).isEmpty) || rangeWants s die l)

/-- A launch that lacks room, also once the waves already asked to leave are gone, and a lower wave to ask. -/
def wantsRoom (s : State) (die : Nat) (l : Launch) : Option Wave :=
  if lacksRoom s die l && lacksRoom { s with waves := s.waves.filter (fun w => w.preq.isNone) } die l then victimOf s die (effective s l) else none

/-! ### DISPATCH -/

/-- The first record due on a die that no core could hold (R367): its queue's records before it are placeable or passed over. -/
def deadRecord (s : State) (die : Nat) : Option (NodeQ × Record) :=
  (dieAt s die).queues.findSome? (fun q =>
    match nodeOf s q.asid q.node with
    | none => none
    | some n => ((q.chip.map (fun r => r.launch)).eraseDups).findSome? (fun num =>
        match findLaunch s num with
        | none => none
        | some l =>
          if !recordsLive s l then none
          else
            match (q.chip.filter (fun r => r.launch == num)).find? (fun r => unplaceable s die n r || r.quad.isNone || recordRoom s die n r) with
            | some r => if unplaceable s die n r then some (q, r) else none
            | none => none))

/-- Whether a range task of a launch on a die could be held by no core, even an empty one; of a PQ launch, whether no quad of the dies it names
could hold all its tasks, when a split has changed since the launch was accepted. R231 and R367 name no outcome for that one: its tasks leave
one by one as records of kind 0x06 (R231, R367; log 128). -/
def rangeDead (s : State) (die : Nat) (n : Node) (l : Launch) : Bool :=
  if l.pq then
    !(namedDies l.part).any (fun i => (List.range 32).any (fun q => (pqTasks l).all (fun k => emptyFits s i (pqCore n.foot q k) n.foot)))
  else !dieCores.any (fun c => emptyFits s die c n.foot)

/-- A launch whose range on a die no core of the die could hold; a PQ launch's is considered by the lowest die it names. -/
def deadRange (s : State) (die : Nat) : Option (Launch × Share) :=
  s.launches.findSome? (fun l =>
    match (if l.pq then (if (namedDies l.part).head? = some die then shareOf l 8 else none) else shareOf l die), kernelNode s l.asid l.node with
    | some x, some n => if launchLive s l && shareReady l x && rangeDead s die n l then some (l, x) else none
    | _, _ => none)

/-- The record that a `deq` of a wave takes, and the queue without it (R379). -/
def deqRecord (s : State) (w : Wave) : Option (Record × NodeQ) :=
  (nodeOf s w.asid w.node).bind (fun n => pickRecord s w.die n (queueAt s w.die w.asid w.node) w.launch)

/-- A `deq.w` that waits on the die has a record to take; it takes it before the dispatcher chooses (R371, R379). -/
def deqFirst (s : State) (die : Nat) : Bool :=
  s.waves.any (fun w => w.die == die && w.deqFrom.isSome && w.preq.isNone && (deqRecord s w).isSome)

/-- DISPATCH: one choice of a die's dispatcher, after the `deq`s that wait have taken their records (R371): an unplaceable record is
replaced (R367), a wave of a lower level is asked to leave (R370), or the next record or range task is placed (R366 to R369). -/
def execDispatch (die : Nat) (s : State) : Out :=
  if 8 ≤ die || deqFirst s die then .next s
  else
    match deadRecord s die, deadRange s die with
    | some (q, r), _ =>
      .next (refill (replaceRecord (putQueue s die { q with chip := q.chip.erase r }) die 1 r) die q.asid q.node)
    | none, some (l, x) =>
      let r := rangeRecord l x
      .next (replaceRecord (putLaunch s { r.2 with dones := l.dones }) die 1 r.1)
    | none, none =>
      match s.launches.findSome? (wantsRoom s die) with
      | some w => .next (requestPreempt s w)
      | none =>
        let ready := s.launches.filter (canPlace s die)
        if ready.isEmpty then .next s
        else
          let level := ready.foldl (fun m l => max m (effective s l)) 0
          let d := dieAt s die
          let order := levelLaunches s die level
          let idle := d.deficit.map (idleDeficit s die)
          let v := visit (visitOrder s die) order (fun n => ready.any (fun l => l.num == n && effective s l == level)) (visitFuel order idle)
            (stGet 0 level d.ptr) idle
          match findLaunch s v.1 with
          | none => .next s
          | some l => .next (placeNext (putDie s die { d with deficit := v.2, ptr := stSet 0 level v.1 d.ptr }) die l)

/-! ### spawn, amsg, enq (R377, R378) -/

/-- Target word. -/
def taskTarget (w : Wave) (o : Ops) : Nat := (opB w o .b64 0)

def tNode (t : Nat) : Nat := field t 11 0
def tDie (t : Nat) : Nat := field t 19 17
def tQuad (t : Nat) : Nat := field t 16 12

/-- The three forms. -/
inductive Send where | spawn | amsg | enq
deriving DecidableEq, Repr

/-- Bits a target word may hold in the register form. -/
def sendMask (k : Send) (t : Nat) : Nat :=
  match k with
  | .spawn => 0xFFF
  | .amsg => if bitAt t 21 then 0x3F2FFFFF else 0xFFFFF
  | .enq => if bitAt t 20 then 0x1E0FFF else 0xFFF

/-- Whether the record goes to another package; the number it goes to. -/
def sendPkg (s : State) (k : Send) (t : Nat) : Nat := if k == .amsg && bitAt t 21 then field t 29 24 else s.pod.pkg

/-- Causes of a send in the order of R143: BOUNDS, then DEPTH. -/
def sendFault (s : State) (w : Wave) (k : Send) (t : Nat) : Option (Nat × Nat) :=
  let bad := !(t == t &&& sendMask k t) || !(s.pod.members.contains (sendPkg s k t)) ||
    (match nodeOf s w.asid (tNode t) with
     | none => true
     | some n => !n.valid || (k == .amsg && n.sink))
  if bad then some (cBounds, 0)
  else if k == .spawn && w.depth == 15 then some (cDepth, tNode t)
  else none

/-- Die of a record (R363); 8 and above names another package's. -/
def sendDie (s : State) (w : Wave) (k : Send) (t : Nat) : Nat :=
  let d := match k with
    | .spawn => w.die
    | .amsg => tDie t
    | .enq => if bitAt t 20 then tDie t else w.die
  if sendPkg s k t = s.pod.pkg then d else 8 * (sendPkg s k t + 1) + d

/-- Payload from s[a] to s[a + 3] (R377). -/
def sendPay (w : Wave) (a : Nat) : List W32 :=
  (List.range 4).flatMap (fun i => [(rdS w (a + i)).truncate 32, (rdS w (a + i) >>> 32).truncate 32])

/-- The shared body: checks, room in the ring, release, split, record. -/
def sendBody (k : Send) (o : Ops) (s : State) (w : Wave) : Out :=
  let t := taskTarget w o
  match sendFault s w k t with
  | some e => .next (raisePc s w e.1 e.2)
  | none =>
    let die := sendDie s w k t
    if die < 8 ∧ ringRoom s die w.asid (tNode t) = false then stall s
    else
      let go (s : State) : Out := withUnits s w (fun s w =>
        let r := mkRecord w.asid (tNode t) w.launch (if k == .spawn then w.depth + 1 else w.depth) (halfOf w.weight)
          (if k == .amsg then some (tQuad t) else none) (sendPay w o.a)
        finish (sendRecord s (whoOf w) die r) { w with weight := w.weight - halfOf w.weight })
      if bitAt o.x 0 then go s else afterRelease s w true go

def execSpawn (o : Ops) (s : State) : Out := runInstr (.spawn o) s (fun s w _ => sendBody .spawn o s w)
def execAmsg (o : Ops) (s : State) : Out := runInstr (.amsg o) s (fun s w _ => sendBody .amsg o s w)
def execEnq (o : Ops) (s : State) : Out := runInstr (.enq o) s (fun s w _ => sendBody .enq o s w)

/-! ### deq (R371, R379) -/

/-- The instruction ends with the outcome in its q register. -/
def deqDone (w : Wave) (q : Nat) (taken : Bool) : Wave :=
  { (if q = 0 then w else wrQ w q taken) with deqFrom := none, tookMore := true }

def execDeq (g : Guard) (d q : Nat) (b : Bool) (s : State) : Out :=
  runInstr (.deq g d q b) s (fun s w _ =>
    match nodeOf s w.asid w.node with
    | none => finish s (deqDone w q false)
    | some n =>
      match pickRecord s w.die n (queueAt s w.die w.asid w.node) w.launch with
      | some r =>
        let taken : Wave := { w with
          s := paySregs w.s d r.1.pay
          weight := w.weight + r.1.weight }
        let w1 := deqDone taken q true
        finish (refill (putQueue s w.die r.2) w.die w.asid w.node) w1
      | none =>
        if b then (if w.deqFrom.isSome then stall s else .next (putWave s { w with deqFrom := some (coreClock s w.die w.core, q) }))
        else finish s (deqDone w q false))

/-- DEQ_TIMEOUT: a `deq.w` that waited 4,096 cycles of its core ends without a record, unless one has come, which the instruction then takes;
its q register is written on the home side (R134, R379). -/
def execDeqTimeout (uid : Nat) (s : State) : Out :=
  match findWave s uid with
  | none => .next s
  | some w =>
    match w.deqFrom with
    | none => .next s
    | some t =>
      if cyclesSince s w.die w.core t.1 < 4096 || (deqRecord s w).isSome then .next s
      else .next (putWave (noteWrites s w [.q t.2]) (goSeq (deqDone w t.2 false)))

/-! ### dlaunch (R360, R381) -/

/-- Number of the next device launch of a tree (R360). -/
def nextTree (n : Nat) : Nat := n % (2 ^ 32 - 1) + 1

/-- Bytes of a descriptor as the instruction reads them; none where a sector is poisoned (log 27). -/
def descBytes (s : State) (w : Wave) (va : W64) : Option (List Byte) :=
  match w.lostRead, engBytes s w.die w.core w.asid (fun _ _ => true) va 64 with | none, .ok bs => some bs | _, _ => none

/-- The child: number, link share, acceptance or refusal. -/
def startChild (s : State) (w : Wave) (va : W64) (bs : List Byte) : State × Nat :=
  let root := treeNum w.launch
  let n := match findLaunch s root with | some l => nextTree l.tree | none => 1
  let handler := match findLaunch s w.launch with | some l => l.handler | none => 0
  let s1 := updLaunch s root (fun l => { l with tree := n })
  (acceptLaunch s1 w.asid (root + n) false w.launch w.die handler (halfOf w.weight) (gpc w) va (launchDesc bs), root + n)

/-- POISON of the descriptor's read, deferred (R151; log 27). -/
def holdPoison (w : Wave) (va : W64) : Wave :=
  let r : CauseRec := { cause := cPoison, lanes := laneMask (runLanes w), more := false, addr := va, pc := gpc w, detail := 0 }
  { w with trap := { w.trap with held := addRec w.trap.held r } }

/-- `dlaunch` (R381). -/
def execDlaunch (o : Ops) (s : State) : Out :=
  runInstr (.dlaunch o) s (fun s w _ =>
    let va := rdS w o.a
    match checkMem s w.asid false .load va.toNat 64 with
    | .error e => .next (raiseDrill s w e.cause e.addr e.detail)
    | .ok _ =>
      if engRefresh s w.asid false [(va, 64)] then stall s
      else afterRelease (tlbFill s w.asid va.toNat) w true (fun s => withUnits s w (fun s w =>
        match descBytes s w va with
        | none => finish s (holdPoison { w with lostRead := none } va)
        | some bs =>
          let c := startChild s w va bs
          let w1 := { w with weight := w.weight - halfOf w.weight }
          finish c.1 (if bitAt o.x 0 then wrS w1 o.d (BitVec.ofNat 64 c.2) else w1))))

end Sys2Proof.Machine
end

