-- ==== Sys2Proof/Machine/Traversal.lean ====
section
/-!
DEFINITION. The traversal unit (R318 to R334): rays, hierarchies, the exact tests, the walk, result slots and queue records.
-/
namespace Sys2Proof.Machine

/-! ### Reads through a cache of lines (R332, R346) -/

/-- Which cache of a core a unit reads through. -/
inductive UnitCache where | node | tex
deriving DecidableEq, Repr

def cacheOf (c : Core) : UnitCache → List Line
  | .node => c.ncache
  | .tex => c.tcache
def setCache (c : Core) (u : UnitCache) (ls : List Line) : Core :=
  match u with
  | .node => { c with ncache := ls }
  | .tex => { c with tcache := ls }

/-- A line enters a cache of 256; the one that leaves is open (log 8). -/
def putLine (draws : Nat) (l : Line) (ls : List Line) : List Line :=
  if ls.length < 256 then l :: ls else l :: ls.eraseIdx (Config.victim (2 ^ 64 * (draws + 1) + l.line) % 256)

/-- The line of an address as its home holds it; none while a sector of it is poisoned (R334, R345). -/
def homeLine (s : State) (asid pa : Nat) : Option Line :=
  if (List.range 8).any (fun i => s.poison.contains (8 * lineOf pa + i)) then none
  else some { line := lineOf pa, asid := asid,
              sectors := (List.range 8).map (fun i => (i, memBytes s.mem (256 * lineOf pa + 32 * i) 32)), bad := [] }

/-- Why a unit's read does not end in bytes (R322, R334): translation, permission or type, or poison, with the address; or it waits out a
refresh window or the copy of a row (R184, R409). -/
inductive ReadErr where
  | fault (va : Nat)
  | poison (va : Nat)
  | wait
deriving DecidableEq, Repr

/-- n bytes within one sector. -/
def unitChunk (s : State) (u : UnitCache) (die core asid va n : Nat) : State × Except ReadErr (List Byte) :=
  match translate s asid va with
  | none => (s, .error (.fault va))
  | some leaf =>
    let pg := pageOf leaf.1
    if !(bitAt leaf.1 2 && (pg.ptype == .normal || pg.ptype == .weight)) then (s, .error (.fault va))
    else
      let pa := paUnder leaf va
      let c := coreAt s die core
      let cut (bs : List Byte) := engineView s die core pa ((bs.drop (pa % 32)).take n)
      match lineSector ((cacheOf c u).filter (fun l => l.asid == asid)) pa with
      | some bs => (s, .ok (cut bs))
      | none =>
        if isWeight pa && weightShut s pa && !(List.range 8).all (fun i => l2Has s (256 * lineOf pa + 32 * i)) then (s, .error .wait)
        else if s.poison.contains (pa / 32) then (s, .error (.poison va))
        else
          let s1 := match homeLine s asid pa with
            | some l => putCore (l2Access s pg false (256 * lineOf pa) 256) die core (setCache c u (putLine s.draws l (cacheOf c u)))
            | none => l2Access s pg false pa n
          (s1, .ok (cut (memBytes s.mem (32 * (pa / 32)) 32)))

def unitRead (u : UnitCache) (die core asid : Nat) : Nat → State → Nat → Nat → State × Except ReadErr (List Byte)
  | 0, s, _, _ => (s, .ok [])
  | fuel + 1, s, va, n =>
    if n = 0 then (s, .ok [])
    else
      let k := min n (32 - va % 32)
      let r := unitChunk s u die core asid va k
      match r.2 with
      | .error e => (r.1, .error e)
      | .ok bs =>
        let t := unitRead u die core asid fuel r.1 (va + k) (n - k)
        (t.1, t.2.map (fun cs => bs ++ cs))

/-- n bytes at a virtual address, through a unit's cache. -/
def unitBytes (s : State) (u : UnitCache) (who : Who) (va n : Nat) : State × Except ReadErr (List Byte) :=
  unitRead u who.die who.core who.asid (n / 32 + 2) s va n

/-! ### Rays (R318, R319) -/

/-- A ray: FP32 patterns of origin and direction, bounds, control word. -/
structure Ray where
  o    : List Nat
  d    : List Nat
  tmin : Nat
  tmax : Nat
  ctl  : Nat
deriving DecidableEq, Repr

def rayOf (rs : List W32) : Ray :=
  let n (i : Nat) : Nat := (rs.getD i 0).toNat
  { o := [n 0, n 1, n 2], d := [n 3, n 4, n 5], tmin := n 6, tmax := n 7, ctl := n 8 }
def f32IsFin (a : Nat) : Bool := match fvOf fmtF32 a with | .fin _ _ _ => true | _ => false
def rayInvalid (r : Ray) : Bool :=
  r.o.any (fun x => !f32IsFin x) || r.d.any f32IsNan || r.d.all f32IsZero || f32IsNan r.tmin || f32IsNan r.tmax ||
  f32Lt r.tmax r.tmin || !(r.ctl / 2 ^ 11 == 0) || field r.ctl 10 9 == 3

/-! ### Box test (R323) -/

def f32Min (a b : Nat) : Nat := if f32Lt b a then b else a
def f32Max (a b : Nat) : Nat := if f32Lt a b then b else a

/-- One rounding of (bound - origin) / direction; open when both are infinite (log 23). -/
def slabEnd (rm : Rnd) (b o d : Nat) : Nat :=
  match fvOf fmtF32 b, fvOf fmtF32 o, fvOf fmtF32 d with
  | .inf _, _, .inf _ => Config.slabQuot b o d
  | .inf n, _, .fin m _ _ => fInf fmtF32 (n != m)
  | .fin nb mb eb, .fin no mo eo, dv =>
    let x := dyAlign' (sgnInt nb mb, eb) (sgnInt no mo, eo)
    let q := exDiv (.fin (decide (x.1 < 0)) x.1.natAbs x.2) dv
    (fFinish fmtF32 { envRN with rm := rm } q).1
  | _, _, _ => fNaN fmtF32
where
  /-- Exact difference. -/
  dyAlign' (a b : Int × Int) : Int × Int :=
    let e := min a.2 b.2
    (a.1 * 2 ^ (a.2 - e).toNat - b.1 * 2 ^ (b.2 - e).toNat, e)

/-- Interval of one axis; none when it is empty. -/
def slab (o d lo hi : Nat) : Option (Nat × Nat) :=
  if f32IsNan lo || f32IsNan hi || f32Lt hi lo then none
  else if f32IsZero d then (if f32Le lo o && f32Le o hi then some (0xFF800000, 0x7F800000) else none)
  else
    let n := slabEnd .rd lo o d
    let f := slabEnd .ru hi o d
    some (f32Min n f, f32Max n f)

/-- Entry of a box that is hit. -/
def boxHit (r : Ray) (lo hi : List Nat) : Option Nat :=
  let ax (i : Nat) := slab (r.o.getD i 0) (r.d.getD i 0) (lo.getD i 0) (hi.getD i 0)
  match ax 0, ax 1, ax 2 with
  | some x, some y, some z =>
    let entry := f32Max (f32Max (f32Max r.tmin x.1) y.1) z.1
    let exit := f32Min (f32Min (f32Min r.tmax x.2) y.2) z.2
    if f32Le entry exit then some entry else none
  | _, _, _ => none

/-! ### Triangle test (R324) -/

/-- A finite FP32 value as an integer count of 2^-149. -/
def fix149 (a : Nat) : Int :=
  match fvOf fmtF32 a with
  | .fin n m e => sgnInt n (m * 2 ^ (e + 149).toNat)
  | _ => 0

/-- Exact vectors. -/
structure V3 where
  x : Int
  y : Int
  z : Int
deriving DecidableEq, Repr
def v3 (l : List Nat) : V3 := { x := fix149 (l.getD 0 0), y := fix149 (l.getD 1 0), z := fix149 (l.getD 2 0) }
def v3sub (a b : V3) : V3 := { x := a.x - b.x, y := a.y - b.y, z := a.z - b.z }
def v3dot (a b : V3) : Int := a.x * b.x + a.y * b.y + a.z * b.z
def v3cross (a b : V3) : V3 := { x := a.y * b.z - a.z * b.y, y := a.z * b.x - a.x * b.z, z := a.x * b.y - a.y * b.x }
def v3mix (u v w : Int) (a b c : V3) : V3 :=
  { x := u * a.x + v * b.x + w * c.x, y := u * a.y + v * b.y + w * c.y, z := u * a.z + v * b.z + w * c.z }

/-- RN32 of an exact quotient of integers. -/
def ratio32 (n d : Int) : Nat :=
  if n = 0 then 0 else rn32 (exQuot (decide (n < 0) != decide (d < 0)) n.natAbs 0 d.natAbs 0)

/-- A triangle hit: t, u, v, back-facing. -/
structure TriHit where
  t    : Nat
  u    : Nat
  v    : Nat
  back : Bool
deriving DecidableEq, Repr

/-- The watertight test on nine coordinates. -/
def triHit (r : Ray) (ps : List Nat) : Option TriHit :=
  if ps.any (fun x => !f32IsFin x) then none
  else if r.d.any (fun x => !f32IsFin x) then
    (Config.infRay (r.o ++ r.d) ps).map (fun h => { t := h.1, u := h.2.1, v := h.2.2.1, back := h.2.2.2 })
  else
    let o := v3 r.o
    let d := v3 r.d
    let a := v3sub (v3 ps) o
    let b := v3sub (v3 (ps.drop 3)) o
    let c := v3sub (v3 (ps.drop 6)) o
    let eu := v3dot d (v3cross b c)
    let ev := v3dot d (v3cross c a)
    let ew := v3dot d (v3cross a b)
    let det := eu + ev + ew
    if det = 0 then none
    else if (0 ≤ eu ∧ 0 ≤ ev ∧ 0 ≤ ew) ∨ (eu ≤ 0 ∧ ev ≤ 0 ∧ ew ≤ 0) then
      some { t := ratio32 (v3dot (v3mix eu ev ew a b c) d) (det * v3dot d d), u := ratio32 ev det, v := ratio32 ew det,
             back := decide (0 ≤ det) }
    else none

/-! ### The walk (R325, R326) -/

/-- How a ray ends: status codes of R330. -/
def stMiss : Nat := 1
def stHit : Nat := 2
def stAborted : Nat := 3
def stPoison : Nat := 4
def stInvalid : Nat := 5
def stFault : Nat := 6
/-- Not a status: the walk waits at a refresh window of a weight-store bank (R184). -/
def stWait : Nat := 7
/-- Status of a ray at a read that does not end in bytes. -/
def stOf : ReadErr → Nat
  | .fault _ => stFault
  | .poison _ => stPoison
  | .wait => stWait

/-- Best hit so far. -/
structure Best where
  hit  : TriHit
  prim : Nat
  geom : Nat
  user : Nat
deriving DecidableEq, Repr

/-- A valid child reference: empty, interior or leaves; none when malformed (R321). -/
inductive Child where
  | empty
  | node (va : Nat)
  | leaves (va n : Nat)
deriving DecidableEq, Repr
def childOf (x : Nat) : Option Child :=
  let va := field x 55 4 * 16
  if field x 63 56 ≠ 0 then none
  else if field x 3 0 = 0 then some .empty
  else if field x 3 0 = 1 then (if va % 128 = 0 then some (.node va) else none)
  else if bitAt x 3 then some (.leaves va (x % 8 + 1))
  else none

/-- Progress of a walk. -/
structure Walk where
  stack : List Child
  best  : Option Best
  steps : Nat
deriving DecidableEq, Repr

/-- Number i of a list of FP32 values in bytes. -/
def word32 (bs : List Byte) (i : Nat) : Nat := leNat ((bs.drop (4 * i)).take 4)

/-- Insertion by ascending entry, ties behind (R325). -/
def insEntry (x : Nat × Child) : List (Nat × Child) → List (Nat × Child)
  | [] => [x]
  | y :: r => if f32Lt x.1 y.1 then x :: y :: r else y :: insEntry x r

/-- The four references of an interior node; none for a malformed node. -/
def nodeRefs (bs : List Byte) : Option (List Child) :=
  let kids := (List.range 4).map (fun i => childOf (leNat ((bs.drop (8 * i)).take 8)))
  if kids.any Option.isNone then none else some (kids.filterMap id)

/-- Children of an interior node that are hit, in the order they pop: references, and the bytes of the boxes. -/
def nodeChildren (r : Ray) (best : Option Best) (kids : List Child) (bs : List Byte) : List Child :=
    let hits := (List.range 4).filterMap (fun i =>
      match kids.getD i .empty with
      | .empty => none
      | k =>
        match boxHit r [word32 bs i, word32 bs (8 + i), word32 bs (16 + i)] [word32 bs (4 + i), word32 bs (12 + i), word32 bs (20 + i)] with
        | none => none
        | some e =>
          let far := match best with | some b => !bitAt r.ctl 8 && f32Lt b.hit.t e | none => false
          if far then none else some (e, k))
    (hits.foldl (fun acc x => insEntry x acc) []).map (fun x => x.2)

/-- A leaf's candidate (R325): mask, cull, hit, bounds. -/
def leafCand (r : Ray) (bs : List Byte) : Option Best :=
  let gw := word32 bs 10
  match triHit r ((List.range 9).map (word32 bs)) with
  | none => none
  | some h =>
    let culled := (field r.ctl 10 9 == 1 && h.back) || (field r.ctl 10 9 == 2 && !h.back)
    if (r.ctl % 256 &&& gw / 2 ^ 24) = 0 ∨ culled ∨ !f32Le r.tmin h.t ∨ !f32Le h.t r.tmax then none
    else some { hit := h, prim := word32 bs 9, geom := gw % 2 ^ 24, user := word32 bs 11 }

/-- Whether a candidate replaces the best (R325). -/
def better (x : Best) : Option Best → Bool
  | none => true
  | some b => f32Lt x.hit.t b.hit.t ||
      (!f32Lt b.hit.t x.hit.t && (decide (x.geom < b.geom) || (x.geom == b.geom && decide (x.prim < b.prim))))

def maxSteps : Nat := 2 ^ 20
def maxStack : Nat := 64

/-- Leaves of a run in ascending address: the walk, and a status when the ray stops. -/
def walkLeaves (who : Who) (r : Ray) (stn : Option Nat) : Nat → Nat → State → Walk → State × Walk × Option Nat
  | 0, _, s, w => (s, w, none)
  | n + 1, va, s, w =>
    if maxSteps ≤ w.steps then (s, w, some stFault)
    else
      let x := unitBytes s .node who va 48
      match x.2 with
      | .error e => (x.1, w, some (stOf e))
      | .ok bs =>
        if (match stn with | some k => decide (k ≤ word32 bs 10 % 2 ^ 24) | none => false) then (x.1, w, some stFault)
        else
          let w1 := { w with steps := w.steps + 1 }
          match leafCand r bs with
          | none => walkLeaves who r stn n (va + 48) x.1 w1
          | some c =>
            if bitAt r.ctl 8 then (x.1, { w1 with best := some c }, some stHit)
            else walkLeaves who r stn n (va + 48) x.1 (if better c w1.best then { w1 with best := some c } else w1)

/-- The walk until the stack is empty or the ray stops (R325, R326). -/
def walkRay (who : Who) (r : Ray) (stn : Option Nat) : Nat → State → Walk → State × Walk × Nat
  | 0, s, w => (s, w, stFault)
  | fuel + 1, s, w =>
    match w.stack with
    | [] => (s, w, if w.best.isSome then stHit else stMiss)
    | .empty :: rest => walkRay who r stn fuel s { w with stack := rest }
    | .leaves va n :: rest =>
      let x := walkLeaves who r stn n va s { w with stack := rest }
      match x.2.2 with
      | some st => (x.1, x.2.1, st)
      | none => walkRay who r stn fuel x.1 x.2.1
    | .node va :: rest =>
      if maxSteps ≤ w.steps then (s, w, stFault)
      else
        let w1 := { w with steps := w.steps + 1 }
        let x := unitBytes s .node who (va + 96) 32
        match x.2 with
        | .error e => (x.1, w, stOf e)
        | .ok bs =>
          match nodeRefs bs with
          | none => (x.1, w1, stFault)
          | some kids =>
            let y := if kids.all (fun k => k == .empty) then (x.1, .ok []) else unitBytes x.1 .node who va 96
            match y.2 with
            | .error e => (y.1, w, stOf e)
            | .ok boxes =>
              let ks := nodeChildren r w.best kids boxes
              if maxStack < ks.length + rest.length then (y.1, w1, stFault)
              else walkRay who r stn fuel y.1 { w1 with stack := ks ++ rest }

/-! ### Results (R330, R331) -/

/-- The record of R330. -/
def rayRecord (st : Nat) (w : Walk) : List W32 :=
  match st == stHit, w.best with
  | true, some b =>
    [BitVec.ofNat 32 (stHit + (if b.hit.back then 256 else 0)), BitVec.ofNat 32 b.hit.t, BitVec.ofNat 32 b.hit.u, BitVec.ofNat 32 b.hit.v,
     BitVec.ofNat 32 b.prim, BitVec.ofNat 32 b.geom, BitVec.ofNat 32 b.user, BitVec.ofNat 32 w.steps]
  | _, _ => [BitVec.ofNat 32 st, 0, 0, 0, 0, 0, 0, BitVec.ofNat 32 w.steps]

/-- The BVH descriptor (R320). -/
structure BvhDesc where
  root : Child
  stb  : Nat
  miss : Nat
  stn  : Nat
deriving DecidableEq, Repr
def bvhOf (bs : List Byte) : Option BvhDesc :=
  let q (i : Nat) : Nat := leNat ((bs.drop (8 * i)).take 8)
  match childOf (q 0) with
  | none => none
  | some r =>
    if field (q 2) 63 44 ≠ 0 ∨ q 3 ≠ 0 ∨ q 1 % 4 ≠ 0 then none
    else some { root := r, stb := q 1, miss := field (q 2) 43 32, stn := field (q 2) 31 0 }

/-- One ray from its registers: the record, and the node of a queue record; none for the recovery node (R331). -/
def traceRay (s : State) (who : Who) (c : TraceCmd) (rs : List W32) : State × List W32 × Option Nat :=
  let r := rayOf rs
  let w0 : Walk := { stack := [], best := none, steps := 0 }
  if rayInvalid r then (s, rayRecord stInvalid w0, none)
  else
    let x := unitBytes s .node who c.desc.toNat 32
    match x.2 with
    | .error e => (x.1, rayRecord (stOf e) w0, none)
    | .ok bs =>
      match bvhOf bs with
      | none => (x.1, rayRecord stFault w0, none)
      | some d =>
        let y := walkRay who r (if c.queue then some d.stn else none) (maxSteps + maxStack + 2) x.1 { w0 with stack := [d.root] }
        if y.2.2 = stMiss then (y.1, rayRecord stMiss y.2.1, some d.miss)
        else if y.2.2 = stHit && c.queue then
          match y.2.1.best with
          | none => (y.1, rayRecord stMiss y.2.1, some d.miss)
          | some b =>
            let z := unitBytes y.1 .node who (d.stb + 4 * b.geom) 4
            match z.2 with
            | .error e => (z.1, rayRecord (stOf e) y.2.1, none)
            | .ok es => if leNat es / 2 ^ 12 = 0 then (z.1, rayRecord stHit y.2.1, some (leNat es)) else (z.1, rayRecord stFault y.2.1, none)
        else (y.1, rayRecord y.2.2 y.2.1, none)

/-! ### Instructions (R327 to R329) -/

def runOf (w : Wave) (lane n k : Nat) : List W32 := (List.range k).map (fun i => rdV w lane (n + i))

/-- Register number of B. -/
def bNum (o : Ops) : Nat := match o.b with | .v n => n | .s n => n | .imm _ => 0

/-- `trace` (R328): checked as a load of the descriptor; in queue mode half of the wave's weight goes with it (R331). -/
def execTrace (o : Ops) (s : State) : Out :=
  runInstr (.trace o) s (fun s w ls =>
    let desc := rdS w o.a
    let queue := bitAt o.x 0
    if 63 ≤ counter s w.uid .tx then stall s
    else
      match checkMem s w.asid false .load desc.toNat 32 with
      | .error e => .next (raiseLanes s w (ls.map (fun l => (l, e))))
      | .ok _ =>
        let go (s : State) (w : Wave) (share : Nat) : Out :=
          finish (addFlight (tlbFill s w.asid desc.toNat) (whoOf w) (some .tx) (.trace {
            desc := desc, queue := queue, slot := field o.x 1 1, depth := w.depth,
            rays := ls.map (fun l => (l, runOf w l (bNum o) 9)), pays := if queue then ls.map (fun l => (l, runOf w l o.c 2)) else [],
            share := share, out := [], sent := [] }) none) w
        if queue then withUnits s w (fun s w => go s { w with weight := w.weight - halfOf w.weight } (halfOf w.weight))
        else go s w 0)

/-- Older inline traces of the wave to a slot. -/
def slotBusy (s : State) (uid slot : Nat) : Bool :=
  s.flights.any (fun f => f.who.uid == uid && !f.held && (match f.act with | .trace c => !c.queue && c.slot == slot | _ => false))

/-- Word i of a lane's record in a slot. -/
def slotKey (slot lane i : Nat) : Nat := 256 * slot + 8 * lane + i

/-- `tget` (R329). -/
def execTget (o : Ops) (s : State) : Out :=
  runInstr (.tget o) s (fun s w ls =>
    let slot := o.x % 2
    if slotBusy s w.uid slot then stall s
    else finish s (ls.foldl (fun x l => (List.range 8).foldl (fun x i => wrV x l (o.d + i) (stGet 0 (slotKey slot l i) w.slots)) x) w))

/-! ### RAY_COMPLETION -/

/-- Write a lane's record to its slot (R329). -/
def putSlot (s : State) (uid slot lane : Nat) (rec' : List W32) : State :=
  updHolder s uid (fun w => { w with slots := (List.range 8).foldl (fun m i => stSet 0 (slotKey slot lane i) (rec'.getD i 0) m) w.slots })

/-- A trace with nothing left, its records enqueued, completes; weight that no record took goes home (R328, R331). -/
def settleTrace (s : State) (f : Flight) (c : TraceCmd) : State :=
  if c.rays.isEmpty && c.out.isEmpty && !s.flights.any (fun g => c.sent.contains g.id) then endFlight (returnWeight s f.who.die f.who.asid f.who.launch c.share) f
  else setAct s f (.trace c)

/-- A lane's queue record, with its payload registers in words 2 and 3 (R331). -/
def queuePay (c : TraceCmd) (lane : Nat) (rec' : List W32) : List W32 :=
  let p := ((c.pays.find? (fun x => x.1 == lane)).map (fun x => x.2)).getD []
  (rec'.take 2) ++ [p.getD 0 0, p.getD 1 0] ++ rec'.drop 4

/-- The next record in lane order is enqueued, once the ring has room (R331, R365). -/
def sendRay (s : State) (f : Flight) (c : TraceCmd) (x : Nat × Nat × List W32) : Out :=
  let rest := c.out.filter (fun y => !(y.1 == x.1))
  let last := rest.isEmpty && c.rays.isEmpty
  if !ringRoom s f.who.die f.who.asid x.2.1 then .next s
  else
    match if last then some (s, c.share) else unitShare s f.who.launch c.share with
    | none => .next s
    | some (s1, sh) =>
      let g := if last then sh else halfOf sh
      let r := mkRecord f.who.asid x.2.1 f.who.launch c.depth g none x.2.2
      .next (settleTrace (sendRecord s1 f.who f.who.die r) f { c with out := rest, share := sh - g, sent := s1.nextFid :: c.sent })

/-- RAY_COMPLETION: a lane's ray ends (R325 to R330); in queue mode its record then leaves after those of lower lanes (R331), and the
command completes when every record is enqueued (R328). -/
def execRayCompletion (fid lane : Nat) (s : State) : Out :=
  onFlight s fid (fun f =>
    match f.act with
    | .trace c =>
      match c.rays.find? (fun x => x.1 == lane), c.out.find? (fun x => x.1 == lane) with
      | some x, _ =>
        let r := traceRay s f.who c x.2
        let c1 := { c with rays := c.rays.filter (fun y => !(y.1 == lane)) }
        if r.2.1.headD 0 = BitVec.ofNat 32 stWait then .next r.1
        else if c.queue then
          let node := match r.2.2 with | some n => n | none => match findCtx r.1 f.who.asid with | some k => k.recn | none => 0
          .next (settleTrace r.1 f { c1 with out := c1.out ++ [(lane, node, queuePay c lane r.2.1)] })
        else .next (settleTrace (putSlot r.1 f.who.uid c.slot lane r.2.1) f c1)
      | none, some x =>
        if c.rays.all (fun y => decide (lane < y.1)) && c.out.all (fun y => decide (lane ≤ y.1)) then sendRay s f c x else .next s
      | none, none => .next (settleTrace s f c)
    | _ => .next s)

end Sys2Proof.Machine
end

