-- ==== Sys2Proof/Machine/Texture.lean ====
section
/-!
DEFINITION. The texture unit (R336 to R350): hash-grid fetch and scatter, texel reads, and the events that complete them.
-/
namespace Sys2Proof.Machine

/-! ### Issue (R342, R344) -/

/-- The shared body of the four instructions: counter, the descriptor checked as an 8-byte load, then the lanes and their
registers go to the unit. -/
def texBody (fn : TexFn) (align : Nat) (o : Ops) (coords grads : Nat) (s : State) (w : Wave) (ls : List Nat) : Out :=
  let desc := rdS w o.a
  if 63 ≤ counter s w.uid .tx then stall s
  else
    match if desc.toNat % align ≠ 0 then .error { cause := cMisalign, addr := desc.toNat, detail := 8 }
          else checkPage s w.asid false .load desc.toNat 8 with
    | .error e => .next (raiseLanes s w (ls.map (fun l => (l, e))))
    | .ok _ =>
      finish (addFlight (tlbFill s w.asid desc.toNat) { whoOf w with lanes := laneMask ls } (some .tx) (.tex {
        fn := fn, desc := desc, cnt := o.x % 64 + 1, dim := if bitAt o.x 6 then 3 else 2, dst := o.d,
        lanes := ls.map (fun l => (l, runOf w l (bNum o) coords, runOf w l o.c grads)), formed := false, chunks := [], got := [] }) none) w

def gridDim (o : Ops) : Nat := if bitAt o.x 6 then 3 else 2

def execHgf (o : Ops) (s : State) : Out := runInstr (.hgf o) s (texBody .hgf 64 o (gridDim o) 0)
def execHgs (o : Ops) (s : State) : Out := runInstr (.hgs o) s (texBody .hgs 64 o (gridDim o) (o.x % 64 + 1))
def execTex (o : Ops) (s : State) : Out := runInstr (.tex o) s (texBody .tex 32 o 2 0)
def execTld (o : Ops) (s : State) : Out := runInstr (.tld o) s (texBody .tld 32 o 2 0)

/-! ### Grid descriptor (R336, R337) -/

/-- A well-formed grid descriptor. -/
structure Grid where
  bf    : Bool
  t     : Nat
  feats : Nat
  levels : Nat
  dim   : Nat
  fbase : Nat
  gbase : Nat
  res   : List Nat
deriving DecidableEq, Repr

/-- The descriptor's fields; none when it is malformed for an instruction of a count and a dimension. -/
def gridOf (bs : List Byte) (cnt dim : Nat) : Option Grid :=
  let q (i : Nat) : Nat := leNat ((bs.drop (8 * i)).take 8)
  let str := leNat (bs.drop 24)
  let g : Grid := { bf := bitAt (q 0) 14, t := field (q 0) 13 9, feats := 2 ^ field (q 0) 8 7, levels := field (q 0) 6 2 + 1,
                    dim := field (q 0) 1 0, fbase := q 1, gbase := q 2,
                    res := (List.range 16).map (fun l => str / 2 ^ (20 * l) % 2 ^ 20) }
  if q 0 / 2 ^ 15 = 0 ∧ 10 ≤ g.t ∧ g.t ≤ 24 ∧ g.levels ≤ 16 ∧ 2 ≤ g.dim ∧ q 1 / 2 ^ 56 = 0 ∧ q 1 % 256 = 0 ∧ q 2 / 2 ^ 56 = 0 ∧
     q 2 % 256 = 0 ∧ (g.res.take g.levels).all (fun n => !(n == 0)) = true ∧ (g.res.drop g.levels).all (fun n => n == 0) = true ∧
     g.levels * g.feats ≤ 64 ∧ g.levels * g.feats = cnt ∧ g.dim = dim
  then some g else none

/-! ### Corners (R338) -/

def f32OfNat (n : Nat) : Nat := (fOfInt fmtF32 .rn n).1
def fOne : Nat := 0x3F800000

/-- Floor of a pattern's value; 0 for a value that is not finite. -/
def fvFloor (v : FV) : Int := match v with | .fin n m e => dyFloor (sgnInt n m) e | _ => 0
/-- Exact fraction of a value above its floor. -/
def fvFrac (v : FV) : FV :=
  match v with
  | .fin n m e => if 0 ≤ e then .fin false 0 0 else .fin false (sgnInt n m % 2 ^ (-e).toNat).toNat e
  | _ => .fin false 0 0

/-- Coordinate clamped to 0 to 1. -/
def clampUnit (x : Nat) : Nat :=
  if f32IsNan x || fNeg fmtF32 x then 0 else if f32Lt fOne x then fOne else x

/-- Cell and fraction of one dimension of a level of resolution n. -/
def gridCell (n x : Nat) : Nat × FV :=
  let p := fvOf fmtF32 (f32Mul (clampUnit x) (f32OfNat n))
  let c := (fvFloor p).toNat
  if c = n then (n - 1, fvOf fmtF32 fOne) else (c, fvFrac p)

/-- Weight of a corner: the product of its factors, rounded at each step. -/
def cornerWeight (fs : List FV) (corner : Nat) : Nat :=
  let g (i : Nat) : FV :=
    let f := fs.getD i (.fin false 0 0)
    if bitAt corner i then f else fvOf fmtF32 (rn32 (exAdd .rn (fvOf fmtF32 fOne) f.negate))
  (natsFrom 2 (fs.length - 2)).foldl (fun w i => rn32 (exMul (fvOf fmtF32 w) (g i))) (rn32 (exMul (g 0) (g 1)))

def hashMul (i : Nat) : Nat := match i with | 0 => 1 | 1 => 0x9E3779B1 | _ => 0x85EBCA77

/-- Index of an entry: dense where the level fits, else hashed. -/
def gridIndex (t n : Nat) (ks : List Nat) : Nat :=
  if (n + 1) ^ ks.length ≤ 2 ^ t then (ks.mapIdx (fun i k => k * (n + 1) ^ i)).sum
  else (ks.mapIdx (fun i k => k * hashMul i % 2 ^ 32)).foldl (fun a x => a ^^^ x) 0 % 2 ^ t

/-- Indices and weights of the corners of a lane in a level, in corner order. -/
def gridCorners (g : Grid) (l : Nat) (xs : List W32) : List (Nat × Nat) :=
  let n := g.res.getD l 1
  let cs := (xs.take g.dim).map (fun x => gridCell n x.toNat)
  (List.range (2 ^ g.dim)).map (fun corner =>
    (gridIndex g.t n (cs.mapIdx (fun i c => c.1 + (if bitAt corner i then 1 else 0))), cornerWeight (cs.map (fun c => c.2)) corner))

/-! ### Reads and sums (R339, R349) -/

/-- What an instruction has read so far: results by lane and register offset, and lanes that met poison with its address. -/
structure TexRun where
  st   : State
  vals : List (Nat × Nat × W32)
  bad  : List (Nat × Nat)
  fail : Option Nat
  wait : Bool
deriving DecidableEq, Repr

/-- One value of a size, from what the unit has read already or from its cache or home. -/
def texRead (who : Who) (got : List (Nat × List Byte)) (n va : Nat) (s : State) : State × Except ReadErr (List Byte) :=
  match got.find? (fun g => g.1 == va / 8) with
  | some g => (s, .ok ((g.2.drop (va % 8)).take n))
  | none => unitBytes s .tex who va n

/-- Reads of one size at addresses, in order, each with its bytes or why it has none. -/
def texReads (who : Who) (got : List (Nat × List Byte)) (n : Nat) : List Nat → State → State × List (Except ReadErr (List Byte))
  | [], s => (s, [])
  | va :: r, s =>
    let x := texRead who got n va s
    let y := texReads who got n r x.1
    (y.1, x.2 :: y.2)

/-- The weighted sum of R339. -/
def weightedSum (ws es : List Nat) : Nat := (List.zip ws es).foldl (fun acc p => f32Add acc (f32Mul p.1 p.2)) 0

/-- A feature's value in FP32. -/
def featVal (bf : Bool) (bs : List Byte) : Nat :=
  (fConvert (if bf then fmtBf16 else fmtF16) fmtF32 envRN envRN (leNat bs)).1

/-- Why a lane's read has no bytes joins the run: every poisoned address, and the first that fails (R345). -/
def joinErr (lane : Nat) (r : TexRun) (x : Except ReadErr (List Byte)) : TexRun :=
  match x with
  | .ok _ => r
  | .error (.poison va) => { r with bad := r.bad ++ [(lane, va)] }
  | .error (.fault va) => { r with fail := r.fail.or (some va) }
  | .error .wait => { r with wait := true }

/-- A lane's reads join the run: what a function makes of their bytes when all have them, else the poison and the failure met. -/
def joinRun (r : TexRun) (lane : Nat) (x : State × List (Except ReadErr (List Byte))) (f : List (List Byte) → List (Nat × W32)) : TexRun :=
  let bs := x.2.filterMap (fun y => y.toOption)
  let r1 := x.2.foldl (joinErr lane) { r with st := x.1 }
  if bs.length = x.2.length then { r1 with vals := r.vals ++ (f bs).map (fun v => (lane, v.1, v.2)) } else r1

/-- A lane's work: its number, coordinates and gradients. -/
abbrev TexLane := Nat × List W32 × List W32

/-- Addresses of a feature of a level at the corners of a lane (R339). -/
def hgfAddrs (g : Grid) (l f : Nat) (x : TexLane) : List Nat :=
  (gridCorners g l x.2.1).map (fun c => g.fbase + ((l * 2 ^ g.t + c.1) * g.feats + f) * 2)

/-- One feature of one level of one lane (R339). -/
def hgfElem (who : Who) (got : List (Nat × List Byte)) (g : Grid) (l f : Nat) (x : TexLane) (r : TexRun) : TexRun :=
  if r.wait then r
  else
    let cs := gridCorners g l x.2.1
    let y := texReads who got 2 (hgfAddrs g l f x) r.st
    joinRun r x.1 y (fun bs =>
      [(l * g.feats + f, BitVec.ofNat 32 (weightedSum (cs.map (fun c => c.2)) (bs.map (featVal g.bf))))])

/-- `hgf` (R339): levels, lanes, features in order. -/
def hgfRun (who : Who) (got : List (Nat × List Byte)) (g : Grid) (lanes : List TexLane) (s : State) : TexRun :=
  (List.range g.levels).foldl (fun r l => lanes.foldl (fun r x => (List.range g.feats).foldl (fun r f => hgfElem who got g l f x r) r) r)
    { st := s, vals := [], bad := [], fail := none, wait := false }

/-! ### Textures (R349, R350) -/

/-- A well-formed texture descriptor; `fmt` is TFMT. -/
structure Texture where
  base : Nat
  bil  : Bool
  wrap : Bool
  fmt  : Nat
  h    : Nat
  w    : Nat
  pitch : Nat
deriving DecidableEq, Repr

def texelSize (fmt : Nat) : Nat := if fmt = 1 then 8 else 4

def textureOf (bs : List Byte) : Option Texture :=
  let q (i : Nat) : Nat := leNat ((bs.drop (8 * i)).take 8)
  let t : Texture := { base := q 0, bil := bitAt (q 1) 38, wrap := bitAt (q 1) 36, fmt := field (q 1) 35 32, h := field (q 1) 31 16 + 1,
                       w := field (q 1) 15 0 + 1, pitch := q 2 }
  if q 0 / 2 ^ 56 = 0 ∧ q 0 % 256 = 0 ∧ q 1 / 2 ^ 39 = 0 ∧ bitAt (q 1) 37 = false ∧ t.fmt ≤ 2 ∧ t.pitch % texelSize t.fmt = 0 ∧
     t.w * texelSize t.fmt ≤ t.pitch ∧ q 3 = 0
  then some t else none

/-- The four channels of a texel (R349). -/
def channels (fmt : Nat) (bs : List Byte) : List Nat :=
  match fmt with
  | 0 => bs.map (fun b => f32Div (f32OfNat b.toNat) (f32OfNat 255))
  | 1 => (List.range 4).map (fun i => featVal false ((bs.drop (2 * i)).take 2))
  | _ => [leNat bs, 0, 0, fOne]

def texelAddr (t : Texture) (i j : Nat) : Nat := t.base + j * t.pitch + i * texelSize t.fmt

/-- Four results of a lane. -/
def fourVals (cs : List Nat) : List (Nat × W32) := cs.mapIdx (fun i c => (i, BitVec.ofNat 32 c))

/-- The texel of a lane of `tld`, when it lies within the texture (R350). -/
def tldAddrs (t : Texture) (x : TexLane) : List Nat :=
  let i := (x.2.1.getD 0 0).toInt
  let j := (x.2.1.getD 1 0).toInt
  if 0 ≤ i ∧ i < t.w ∧ 0 ≤ j ∧ j < t.h then [texelAddr t i.toNat j.toNat] else []

/-- One lane of `tld` (R350). -/
def tldLane (who : Who) (got : List (Nat × List Byte)) (t : Texture) (x : TexLane) (r : TexRun) : TexRun :=
  if r.wait then r
  else
    let y := texReads who got (texelSize t.fmt) (tldAddrs t x) r.st
    joinRun r x.1 y (fun bs => fourVals (match bs with | b :: _ => channels t.fmt b | [] => [0, 0, 0, 0]))

/-- A coordinate of `tex` made finite. -/
def texCoord (u : Nat) : Nat :=
  if f32IsNan u then 0 else if f32Lt 0x4B800000 u then 0x4B800000 else if f32Lt u 0xCB800000 then 0xCB800000 else u

/-- ADDR applied to an index on a size. -/
def texIndex (t : Texture) (n : Nat) (i : Int) : Nat := if t.wrap then (i % n).toNat else (max 0 (min i (n - 1))).toNat

/-- Scaled position of a coordinate. -/
def texPos (t : Texture) (n u : Nat) : FV :=
  let p := f32Mul (texCoord u) (f32OfNat n)
  fvOf fmtF32 (if t.bil then f32Sub p 0x3F000000 else p)

/-- Positions of a lane of `tex` on the two axes. -/
def texPoint (t : Texture) (x : TexLane) : FV × FV := (texPos t t.w (x.2.1.getD 0 0).toNat, texPos t t.h (x.2.1.getD 1 0).toNat)

/-- Texels of a lane of `tex` (R350). -/
def texAddrs (t : Texture) (x : TexLane) : List Nat :=
  let i := fvFloor (texPoint t x).1
  let j := fvFloor (texPoint t x).2
  let at_ (i j : Int) : Nat := texelAddr t (texIndex t t.w i) (texIndex t t.h j)
  if t.bil then [at_ i j, at_ (i + 1) j, at_ i (j + 1), at_ (i + 1) (j + 1)] else [at_ i j]

/-- One lane of `tex` (R350). -/
def texLane (who : Who) (got : List (Nat × List Byte)) (t : Texture) (x : TexLane) (r : TexRun) : TexRun :=
  if r.wait then r
  else
    let y := texReads who got (texelSize t.fmt) (texAddrs t x) r.st
    if t.bil then
      let ws := (List.range 4).map (cornerWeight [fvFrac (texPoint t x).1, fvFrac (texPoint t x).2])
      joinRun r x.1 y (fun bs =>
        let cs := bs.map (channels t.fmt)
        fourVals ((List.range 4).map (fun k => weightedSum ws (cs.map (fun c => c.getD k 0)))))
    else joinRun r x.1 y (fun bs => fourVals (channels t.fmt (bs.getD 0 [])))

/-! ### Completion (R344, R345) -/

/-- Lanes that read poisoned data raise POISON; of a retired wave nothing is reported (R151, R345). -/
def poisonTex (s : State) (f : Flight) (bad : List (Nat × Nat)) : State :=
  let lanes := (bad.map (fun b => b.1)).eraseDups
  let low := lanes.foldl min (lanes.headD 0)
  match bad.find? (fun b => b.1 == low) with
  | some b => if (findWave s f.who.uid).isSome then deferOrRecord s f.who 1 cPoison (laneMask lanes) (BitVec.ofNat 64 b.2) 0 else s
  | none => s

/-- A failed instruction (R345). -/
def failTex (s : State) (f : Flight) (addr : Nat) : State :=
  endFlight (deferOrRecord s f.who 2 cEngineErr f.who.lanes (BitVec.ofNat 64 addr) 4) f

/-- Results are written, but for lanes that met poison; those raise POISON (R151, R345). -/
def writeTex (s : State) (f : Flight) (c : TexCmd) (r : TexRun) : State :=
  let badLanes := (r.bad.map (fun b => b.1)).eraseDups
  let s1 := updHolder s f.who.uid (fun w => r.vals.foldl (fun y v => if badLanes.contains v.1 then y else wrV y v.1 (c.dst + v.2.1) v.2.2) w)
  endFlight (poisonTex s1 f r.bad) f

/-- A descriptor as an instruction finds it. -/
inductive TexDesc where
  | grid (g : Grid)
  | texture (t : Texture)
  | bad (addr : Nat)
  | wait
deriving DecidableEq, Repr

/-- The descriptor of an instruction: malformed, or not to be read, with the address (R344, R345). -/
def texDesc (s : State) (who : Who) (c : TexCmd) : State × TexDesc :=
  let grid := c.fn == .hgf || c.fn == .hgs
  let d := unitBytes s .tex who c.desc.toNat (if grid then 64 else 32)
  (d.1, match d.2 with
    | .error (.fault va) => .bad va
    | .error (.poison _) => .bad c.desc.toNat
    | .error .wait => .wait
    | .ok bs =>
      if grid then (match gridOf bs c.cnt c.dim with | some g => .grid g | none => .bad c.desc.toNat)
      else (match textureOf bs with | some t => .texture t | none => .bad c.desc.toNat))

/-- The run of an instruction that only reads; an address when its descriptor fails it. -/
def texRun (s : State) (who : Who) (c : TexCmd) : State × Except Nat TexRun :=
  let d := texDesc s who c
  let start : TexRun := { st := d.1, vals := [], bad := [], fail := none, wait := false }
  match d.2 with
  | .bad va => (d.1, .error va)
  | .wait => (d.1, .ok { start with wait := true })
  | .grid g => let r := hgfRun who c.got g c.lanes d.1; (r.st, .ok r)
  | .texture t => let r := c.lanes.foldl (fun r x => if c.fn == .tld then tldLane who c.got t x r else texLane who c.got t x r) start; (r.st, .ok r)

/-- Addresses an instruction that only reads takes its sources from. -/
def texSources (c : TexCmd) : TexDesc → List Nat
  | .grid g => (List.range g.levels).flatMap (fun l => c.lanes.flatMap (fun x => (List.range g.feats).flatMap (fun f => hgfAddrs g l f x)))
  | .texture t => c.lanes.flatMap (if c.fn == .tld then tldAddrs t else texAddrs t)
  | _ => []

/-- 8 bytes as the unit reads them ahead of the rest: through its cache, or as they stand at their home now, which is free, so that the words
of one line may be of different ages (R347; log 45). -/
def aheadBytes (s : State) (who : Who) (va : Nat) : State × Except ReadErr (List Byte) :=
  if Config.flip (64 * s.draws + 7) || engRefresh s who.asid false [(BitVec.ofNat 64 va, 8)] then unitBytes s .tex who va 8
  else
    match engBytes s who.die who.core who.asid (fun p _ => p.ptype == .normal || p.ptype == .weight) (BitVec.ofNat 64 va) 8 with
    | .ok bs => (engTouch s who.asid [(BitVec.ofNat 64 va, 8)], .ok bs)
    | .error _ => unitBytes s .tex who va 8

/-- The unit reads one aligned 8 bytes of an instruction's sources, whichever, ahead of the rest (R347). -/
def readAhead (s : State) (f : Flight) (c : TexCmd) : State :=
  let d := texDesc s f.who c
  let rest := (texSources c d.2).filter (fun va => !c.got.any (fun g => g.1 == va / 8))
  match rest[Config.choice (2 ^ 64 * (s.draws + 1) + 6) % max rest.length 1]? with
  | none => d.1
  | some va =>
    let x := aheadBytes d.1 f.who (8 * (va / 8))
    match x.2 with
    | .ok bs => setAct x.1 f (.tex { c with got := (va / 8, bs) :: c.got })
    | .error _ => x.1

/-- TEXTURE_COMPLETION: an `hgf`, `tex` or `tld` writes its destinations and lowers tx (R339, R344, R345, R350). -/
def execTextureCompletion (fid : Nat) (s : State) : Out :=
  onFlight s fid (fun f =>
    match f.act with
    | .tex c =>
      if c.fn == .hgs then .next s
      else
        let r := texRun s f.who c
        match r.2 with
        | .error a => .next (failTex r.1 f a)
        | .ok x =>
          match x.fail with
          | some a => .next (if x.wait then r.1 else failTex (poisonTex r.1 f x.bad) f a)
          | none => .next (if x.wait then r.1 else writeTex r.1 f c x)
    | _ => .next s)

/-! ### hgs (R340, R341) -/

/-- An entry of the unit's buffer: level, index, F words. -/
structure HgsEnt where
  level : Nat
  idx   : Nat
  words : List Nat
deriving DecidableEq, Repr

/-- One corner's contributions combine into the buffer; a full buffer is a chunk. -/
def hgsPut (l idx : Nat) (ys : List Nat) (b : List (List HgsEnt) × List HgsEnt) : List (List HgsEnt) × List HgsEnt :=
  if b.2.any (fun e => e.level == l && e.idx == idx) then
    (b.1, b.2.map (fun e => if e.level == l && e.idx == idx then { e with words := List.zipWith f32Add e.words ys } else e))
  else if 256 ≤ b.2.length then (b.1 ++ [b.2], [{ level := l, idx := idx, words := ys }])
  else (b.1, b.2 ++ [{ level := l, idx := idx, words := ys }])

/-- The chunks of an instruction: level, lane, corner in order; a corner of weight +0 is skipped. -/
def hgsChunks (g : Grid) (lanes : List (Nat × List W32 × List W32)) : List (List HgsEnt) :=
  let b := (List.range g.levels).foldl (fun b l => lanes.foldl (fun b x =>
    (gridCorners g l x.2.1).foldl (fun b c =>
      if f32IsZero c.2 then b
      else hgsPut l c.1 ((List.range g.feats).map (fun f => f32Mul c.2 (x.2.2.getD (l * g.feats + f) 0).toNat)) b) b) b) ([], [])
  if b.2.isEmpty then b.1 else b.1 ++ [b.2]

/-- Adds of a chunk: gradient address and value, entries in order of entry, features ascending. -/
def hgsAdds (g : Grid) (es : List HgsEnt) : List (W64 × Nat) :=
  es.flatMap (fun e => e.words.mapIdx (fun f y => (BitVec.ofNat 64 (g.gbase + ((e.level * 2 ^ g.t + e.idx) * g.feats + f) * 4), y)))

/-- An `hgs` with nothing left to send or to apply completes (R344). -/
def settleHgs (s : State) (cmd : Nat) : State :=
  match findFlight s cmd with
  | none => s
  | some f =>
    match f.act with
    | .tex c =>
      if c.formed && c.chunks.isEmpty && !s.flights.any (fun x => match x.act with | .hgsAdd _ _ _ k => k == cmd | _ => false) then
        endFlight s f
      else s
    | _ => s

/-- Pages of a chunk's words, all checked before it is sent: normal, RD and WR (R337, R345). -/
def hgsPages (s : State) (asid : Nat) : List (W64 × Nat) → Except Nat (List (W64 × Nat × Nat))
  | [] => .ok []
  | (va, y) :: r =>
    match engPage s asid 2 writable va.toNat, engPage s asid 3 writable va.toNat with
    | .ok pa, .ok _ => (hgsPages s asid r).map (fun t => (va, pa.2, y) :: t)
    | _, _ => .error va.toNat

/-- The next chunk is sent, or fails with everything after it (R345). -/
def sendChunk (s : State) (f : Flight) (c : TexCmd) : State :=
  match c.chunks with
  | [] => settleHgs s f.id
  | ch :: rest =>
    match hgsPages s f.who.asid ch with
    | .error a =>
      settleHgs (setAct (deferOrRecord s f.who 2 cEngineErr f.who.lanes (BitVec.ofNat 64 a) 4) f (.tex { c with chunks := [] })) f.id
    | .ok ws =>
      ws.foldl (fun st x => addFlight st f.who none (.hgsAdd x.1 x.2.1 x.2.2 f.id) none) (setAct s f (.tex { c with chunks := rest }))

/-- CHUNK: the chunks of an `hgs` are formed with the descriptor as it stands, then sent in turn (R340, R345); of the other instructions
a source is read (R347). -/
def execChunk (fid : Nat) (s : State) : Out :=
  onFlight s fid (fun f =>
    match f.act with
    | .tex c =>
      if !(c.fn == .hgs) then .next (readAhead s f c)
      else if c.formed then (if c.chunks.isEmpty then .next s else .next (sendChunk s f c))
      else
        let d := texDesc s f.who c
        match d.2 with
        | .grid g =>
          let c1 := { c with formed := true, chunks := (hgsChunks g c.lanes).map (hgsAdds g) }
          .next (sendChunk (setAct d.1 f (.tex c1)) f c1)
        | .bad va => .next (failTex d.1 f va)
        | _ => .next d.1
    | _ => .next s)

/-- HGS_ADD: one FP32 add at the word's home, after older adds of the instruction to that word; a poisoned word keeps its poison, and the
line leaves the core's texture cache (R341, R345, R346). -/
def execHgsAdd (fid : Nat) (s : State) : Out :=
  onFlight s fid (fun f =>
    match f.act with
    | .hgsAdd va pa val cmd =>
      if s.flights.any (fun g => decide (g.id < fid) && (match g.act with | .hgsAdd _ p _ k => k == cmd && p == pa | _ => false)) then
        .next s
      else
        afterLazy s [(pa, 4)] (fun _ => true) (
          if s.poison.contains (pa / 32) then
            .next (settleHgs (dropFlight (deferOrRecord s f.who 2 cEngineErr f.who.lanes va 4) fid) cmd)
          else
            let s1 := engineWrite s f.who.die f.who.core (pageAt s f.who.asid va.toNat) pa (leBytes 4 (f32Add (memNat s.mem pa 4) val))
            .next (settleHgs (dropFlight s1 fid) cmd))
    | _ => .next s)

end Sys2Proof.Machine
end

