-- ==== Sys2Proof/Machine/Contexts.lean ====
section
/-!
DEFINITION. Contexts: descriptors and tables (R234, R235, R353, R396), loading, switching out and resuming (R165, R399), reset (R165).
-/
namespace Sys2Proof.Machine

/-! ### CRC-32C (R398) -/

def crcBit (c : Nat) : Nat := if c % 2 = 1 then (c / 2) ^^^ 0x82F63B78 else c / 2
def crcByte (c : Nat) (b : Byte) : Nat :=
  crcBit (crcBit (crcBit (crcBit (crcBit (crcBit (crcBit (crcBit (c ^^^ b.toNat))))))))
def crc32c (bs : List Byte) : Nat := bs.foldl crcByte 0xFFFFFFFF ^^^ 0xFFFFFFFF

/-! ### Tables -/

/-- Bytes at virtual addresses of a context, page by page; none when a page fails translation or permission (R234, R353). -/
def virtBytes (s : State) (asid : Nat) : Nat → Nat → Nat → Option (List Byte)
  | 0, _, _ => some []
  | fuel + 1, va, n =>
    if n = 0 then some []
    else
      let k := min n (32 - va % 32)
      match translate s asid va with
      | none => none
      | some leaf =>
        if bitAt leaf.1 2 then (virtBytes s asid fuel (va + k) (n - k)).map (fun r => memBytes s.mem (paUnder leaf va) k ++ r) else none

/-- A little-endian word of a descriptor. -/
def qword (bs : List Byte) (i : Nat) : Nat := leNat ((bs.drop (8 * i)).take 8)

/-- A node descriptor (R353). -/
def nodeOfBytes (bs : List Byte) : Node :=
  let q := qword bs
  let kind := q 0 % 4
  let w1 := q 1
  let rsv := field (q 0) 63 56 + field w1 63 33 + field (q 2) 63 56 + field (q 2) 7 5
  let sinkOk := field (q 0) 55 2 == 0 && w1 == 0 && q 3 % 8 == 0
  { valid := rsv == 0 && decide (field (q 2) 4 0 ≤ 20) && ((kind == 1 && q 3 == 0) || (kind == 2 && sinkOk))
    sink := kind == 2, entry := BitVec.ofNat 64 (4 * field (q 0) 55 2), rerun := bitAt w1 32, aff := bitAt w1 31
    foot := { slices := w1 % 8 + 1, vregs := 8 * (field w1 8 3 + 1), spad := 256 * field w1 20 9, tiles := field w1 27 21,
              forks := field w1 29 28, mx := bitAt w1 30 }
    spill := 256 * field (q 2) 55 8, log2 := field (q 2) 4 0, cnt := q 3 }

/-- A region descriptor at a physical address (R235); an ordered region needs its feature (R403). -/
def regionOfBytes (ordOk : Bool) (pa : Nat) (bs : List Byte) : Region :=
  let q := qword bs
  let rsv := field (q 0) 63 56 + field (q 0) 3 1 + field (q 1) 28 28 + field (q 1) 7 7 + field (q 2) 15 0 + field (q 4) 63 56 +
    field (q 4) 4 0 + q 6 + q 7
  let ord := bitAt (q 1) 31
  { valid := bitAt (q 0) 0 && rsv == 0 && (!ord || ordOk), base := 16 * field (q 0) 55 4, count := field (q 1) 63 32, ord := ord,
    ovf := bitAt (q 1) 30, rs := bitAt (q 1) 29, node := field (q 1) 27 16, dec := field (q 1) 15 8, epoch := field (q 1) 6 0,
    known := field (q 1) 6 0, minw := BitVec.ofNat 32 (field (q 2) 63 32), rho := BitVec.ofNat 16 (field (q 2) 31 16),
    left := field (q 3) 63 32, budget := field (q 3) 31 0, stage := 32 * field (q 4) 55 5, sfill := field (q 5) 63 32,
    scap := field (q 5) 31 0, desc := pa }

/-- The node table; none when it cannot be read in full. -/
def readNodes (s : State) (c : Ctx) : Option (List Node) :=
  (virtBytes s c.asid (32 * c.ncnt + 2) c.nodet.toNat (32 * c.ncnt)).map (fun bs =>
    (List.range c.ncnt).map (fun i => nodeOfBytes ((bs.drop (32 * i)).take 32)))

/-- Regions from a number of a table upwards. -/
def readRegionsFrom (s : State) (c : Ctx) (ordOk : Bool) : List Nat → Option (List Region)
  | [] => some []
  | i :: r =>
    let va := c.regt.toNat + 64 * i
    match virtBytes s c.asid 4 va 64, translate s c.asid va with
    | some bs, some leaf => (readRegionsFrom s c ordOk r).map (fun t => regionOfBytes ordOk (paUnder leaf va) bs :: t)
    | _, _ => none

/-- The region table; a context without one has no region. -/
def readRegions (s : State) (c : Ctx) : Option (List Region) :=
  if c.regt = 0 then some [] else readRegionsFrom s c (s.regs.facc0.getLsbD 2) (List.range 256)

/-! ### Context descriptor (R396) -/

/-- The descriptor at a physical address; none when it is invalid. -/
def ctxOfBytes (s : State) (bs : List Byte) : Option Ctx :=
  let q := qword bs
  let rsv := field (q 0) 63 12 + field (q 1) 63 52 + field (q 1) 15 0 + field (q 4) 63 44 + field (q 4) 31 28 + field (q 4) 15 13 +
    field (q 6) 63 52 + field (q 6) 11 0
  let rx := bitAt (q 0) 11
  let ncnt := field (q 4) 12 0
  let asid := field (q 0) 10 0
  if rsv = 0 ∧ 1 ≤ ncnt ∧ ncnt ≤ 4096 ∧ field (q 4) 27 16 < ncnt ∧ field (q 4) 43 32 < ncnt ∧
     (rx = false ∨ s.regs.facc0.getLsbD 3 = true) ∧ (findCtx s asid).isNone = true ∧ q 2 % 64 = 0 ∧ q 3 % 32 = 0 ∧ q 5 % 4 = 0 ∧
     q 6 < mainTop
  then some { asid := asid, serial := s.nextFid, rx := rx, root := q 1, regt := BitVec.ofNat 64 (q 2), nodet := BitVec.ofNat 64 (q 3), recn := field (q 4) 43 32,
              errn := field (q 4) 27 16, ncnt := ncnt, hbase := BitVec.ofNat 64 (q 5), savea := q 6, savesz := q 7, nodes := [],
              regions := [], phase := .resident }
  else none

/-- The tables lie in the weight store, and a read of them meets a refresh window or the copy of a row: it waits (R184, R409). -/
def tablesShut (s : State) (c : Ctx) : Bool :=
  engRefresh { s with ctxs := s.ctxs ++ [c] } c.asid false ((c.nodet, 32 * c.ncnt) :: if c.regt = 0 then [] else [(c.regt, 64 * 256)])

/-- A context with its tables read; none when a table cannot be read. Its serial is not given again (R300, R399). -/
def withTables (s : State) (c : Ctx) : Option State :=
  let s1 := { s with ctxs := s.ctxs ++ [c], nextFid := s.nextFid + 1 }
  match readNodes s1 c, readRegions s1 c with
  | some ns, some rs => some (updCtx s1 c.asid (fun x => { x with nodes := ns, regions := rs }))
  | _, _ => none

/-! ### Save area (R399) -/

/-- Bytes of the area that the CRC covers: all but words 0 and 1. -/
def areaBytes (s : State) (c : Ctx) : List Byte := memBytes s.mem (c.savea + 16) (c.savesz - 16)

/-- The area's words once a save has ended: package and version in a layout of the device's own, a serial number, then the rest
(log 12). -/
def fillArea (s : State) (c : Ctx) (need serial : Nat) : State :=
  let rest := (List.range (need - 32)).map (Config.saveByte serial)
  let s1 := hostWrite (hostWrite s (c.savea + 16) (leBytes 8 (64 * s.regs.fwver.toNat + s.pod.pkg) ++ leBytes 8 serial)) (c.savea + 32) rest
  hostWrite (hostWrite s1 (c.savea + 8) (leBytes 8 (crc32c (areaBytes s1 c)))) c.savea (leBytes 8 1)

/-! ### Switching out (R165, R399) -/

/-- On-chip records go back to the ring head, in order (R165, step 6). -/
def toRing (s : State) (die : Nat) (q : NodeQ) : State × NodeQ :=
  let n := q.chip.length
  let head := q.head + 2 ^ 20 * n - n
  let s1 := match nodeOf s q.asid q.node with
    | none => s
    | some nd => (q.chip.mapIdx (fun i r => (i, r))).foldl (fun st p => dieWrite st q.asid (ringAddr nd die (head + p.1)) (payBytes p.2.pay)) s
  (s1, { q with ring := q.chip ++ q.ring, chip := [], head := head, tail := q.tail + 2 ^ 20 * n })

/-- Queues of a context, by die. -/
def ctxQueues (s : State) (asid : Nat) : List (Nat × NodeQ) :=
  s.dies.flatMap (fun d => (d.2.queues.filter (fun q => q.asid == asid)).map (fun q => (d.1, q)))
def dropQueues (s : State) (asid : Nat) : State :=
  { s with dies := s.dies.map (fun d => (d.1, { d.2 with queues := d.2.queues.filter (fun q => !(q.asid == asid)) })) }

/-- Bytes of registers and memories that a wave's full save holds (R159). -/
def waveBytes (s : State) (w : Wave) : Nat :=
  let banks := match (engineAt s (engineOf w.die w.core)).holder with | some h => if h.1 == w.uid then 2 * 4 * 65536 else 0 | none => 0
  footBytes w.foot + 32 * w.foot.slices + 512 + w.foot.spad + banks

/-- Bytes a save needs, from the footprints of the resident waves, those saved already, and the numbers of waves, queues, launches and
regions, whose share is the device's own (R399; log 12); never less than the words above, never more than SAVEMAX. -/
def needOf (s : State) (c : Ctx) : Nat :=
  let ws := s.waves.filter (fun w => w.asid == c.asid && w.fork.isNone)
  let vs := (s.saved.filter (fun x => x.wave.asid == c.asid)).map (fun x => x.wave)
  let ls := s.launches.filter (fun l => l.asid == c.asid && l.ctx == c.serial && !l.complete)
  min (max 32 s.regs.savemax.toNat)
    (32 + ((ws ++ vs).map (waveBytes s)).sum +
      Config.saveNeed [ws.length + vs.length, (ctxQueues s c.asid).length, ls.length, c.regions.length])

/-- Translations and cache entries of a context go (R165, step 8). -/
def dropCached (s : State) (asid : Nat) : State :=
  { s with
    tlb := s.tlb.filter (fun t => !(t.asid == asid))
    cores := s.cores.map (fun c => (c.1, { c.2 with
      ncache := c.2.ncache.filter (fun l => !(l.asid == asid)), tcache := c.2.tcache.filter (fun l => !(l.asid == asid)) })) }

/-- A map whose entries may have become the default is brought back to canonical form. -/
def stClean {α : Type} [DecidableEq α] (d : α) (m : Store α) : Store α := m.filter (fun x => !decide (x.2 = d))
def cleanMaps (s : State) : State := { s with cores := stClean coreDefault s.cores, dies := stClean dieDefault s.dies }

/-- Operations of a context still under way. -/
def ctxBusy (s : State) (asid : Nat) : Bool := s.waves.any (fun w => w.asid == asid) || s.flights.any (fun f => f.who.asid == asid)
def ctxSamples (s : State) (asid : Nat) : Bool := s.cores.any (fun c => c.2.ecb.any (fun e => e.cell.asid == asid))
def ctxLazy (s : State) (asid : Nat) : Bool := s.cores.any (fun c => c.2.relb.any (fun e => e.who.asid == asid))
def flushSamples (s : State) (asid : Nat) : State :=
  s.cores.foldl (fun st k => flushWhere st (k.1 / 128) (k.1 % 128) (fun e => e.cell.asid == asid) [] none) s
def dueLazy (s : State) (asid : Nat) : State :=
  { s with cores := s.cores.map (fun c => (c.1, { c.2 with relb := dueThrough (fun e => e.recorded && e.who.asid == asid) c.2.relb })) }

/-- A context leaves: every wave is asked (R165, step 2). -/
def beginSwitch (s : State) (asid : Nat) : State :=
  let s1 := updCtx s asid (fun c => { c with phase := .saving })
  (s.waves.filter (fun w => w.asid == asid)).foldl (fun st w => match findWave st w.uid with | some x => requestPreempt st x | none => st) s1

/-- Commands of a context in its copy, matrix and texture engines, and its rays. -/
def ctxCommands (s : State) (asid : Nat) : Bool :=
  s.flights.any (fun f => f.who.asid == asid && (match f.act with
    | .copy _ | .glean _ | .tile _ _ | .matrix _ | .tex _ | .hgsAdd _ _ _ _ => true
    | _ => false))
def ctxRays (s : State) (asid : Nat) : Bool :=
  s.flights.any (fun f => f.who.asid == asid && (match f.act with | .trace _ => true | _ => false))

/-- Records of a context that senders still have on the way, or that rings have given back. -/
def ctxRecords (s : State) (asid : Nat) : Bool :=
  s.flights.any (fun f => match f.act with | .record _ r false => r.asid == asid | .batch _ a _ _ => a == asid | _ => false)
def ctxChips (s : State) (asid : Nat) : Bool := (ctxQueues s asid).any (fun q => !q.2.chip.isEmpty)

/-- On-chip queues are written to their rings (R165, step 6). -/
def queuesToRings (s : State) (asid : Nat) : State :=
  (ctxQueues s asid).foldl (fun st q => let x := toRing st q.1 q.2; putQueue x.1 q.1 x.2) s

/-- Open launches of a loaded context. -/
def openLaunches (s : State) (c : Ctx) : List Launch := s.launches.filter (fun l => l.asid == c.asid && l.ctx == c.serial && !l.complete)

/-- The switch ends: archive, save area; the ASID is no longer live, and its launches go on when it resumes. The package goes on tracking them
(R360). -/
def endSwitch (s : State) (c : Ctx) : State :=
  let s1 := fillArea s c (min (needOf s c) c.savesz) s.nextFid
  let a : Archive :=
    { serial := s.nextFid, ctx := c.serial, pkg := s.pod.pkg, version := s.regs.fwver, queues := ctxQueues s c.asid,
      launches := openLaunches s c,
      waves := (s.saved.filter (fun x => x.wave.asid == c.asid)).map (fun x => { x with ctx := true }) }
  let s2 := cleanMaps (dropCached (dropQueues s1 c.asid) c.asid)
  { s2 with
    nextFid := s2.nextFid + 1
    archives := s2.archives ++ [a]
    saved := s2.saved.filter (fun x => !(x.wave.asid == c.asid))
    ctxs := s2.ctxs.filter (fun x => !(x.asid == c.asid)) }

/-! ### Resuming (R399) -/

/-- The archive a save area names, if its CRC, package and version match. -/
def findArchive (s : State) (c : Ctx) : Option Archive :=
  if memNat s.mem (c.savea + 8) 8 = crc32c (areaBytes s c) then
    s.archives.find? (fun a => a.serial == memNat s.mem (c.savea + 24) 8 && a.pkg == s.pod.pkg && a.version == s.regs.fwver &&
      memNat s.mem (c.savea + 16) 8 == leNat (leBytes 8 (64 * s.regs.fwver.toNat + s.pod.pkg)))
  else none

/-- A launch of an archive goes on where it stands among the others; after a package reset it stands by its number. -/
def insLaunch (l : Launch) : List Launch → List Launch
  | [] => [l]
  | x :: r => if x.num < l.num then x :: insLaunch l r else l :: x :: r
def backLaunch (ls : List Launch) (l : Launch) : List Launch :=
  if ls.any (fun x => x.num == l.num) then ls.map (fun x => if x.num == l.num then l else x) else insLaunch l ls

/-- Rings, launches and roots are restored, and the rings' oldest records set out for the chip (R364); the waves wait for RESTORE. -/
def beginResume (s : State) (asid : Nat) (a : Archive) : State :=
  let s1 := a.queues.foldl (fun st q => putQueue st q.1 q.2) (updCtx s asid (fun c => { c with phase := .resuming, serial := a.ctx }))
  let s2 := { s1 with
    launches := a.launches.foldl backLaunch s1.launches
    saved := s1.saved ++ a.waves }
  a.queues.foldl (fun st q => refill st q.1 asid q.2.node) s2
def resumeDone (s : State) (asid : Nat) : Bool := !s.saved.any (fun x => x.ctx && x.wave.asid == asid)
/-- The state word of a save area. -/
def putStateWord (s : State) (c : Ctx) (n : Nat) : State := if c.savea = 0 then s else hostWrite s c.savea (leBytes 8 n)
def endResume (s : State) (c : Ctx) : State := putStateWord (updCtx s c.asid (fun x => { x with phase := .resident })) c 0

/-! ### Reset (R165) -/

/-- What a reset still lets an operation do: stores, merges and records of late errors already issued are applied (R165, step 7). -/
def settleFlight (s : State) (f : Flight) : State :=
  match f.act with
  | .store n xs => recordReleases (performStore s f n xs) f
  | .atom dst op t xs sc ord => performAtom s f dst op t xs sc ord
  | .merge c p _ _ => atCell s f c (fun x => withPartial x (mergePart (partialOf x) p))
  | .estClr cells => performClr s f cells
  | .record die r true =>
    (match nodeOf s r.asid r.node with
     | some n => if n.valid && n.sink && decide (die < 8) then sinkWrite s die n r else s
     | none => s)
  | _ => s

/-- Stores that L1s show, before everything else and in the order they were taken. -/
def seenFirst (fs : List Flight) : List Flight :=
  let rec ins (f : Flight) : List Flight → List Flight
    | [] => [f]
    | g :: r => if f.vis.getD 0 ≤ g.vis.getD 0 then f :: g :: r else g :: ins f r
  (fs.filter (fun f => f.vis.isSome)).foldr ins [] ++ fs.filter (fun f => f.vis.isNone)

/-- An operation that a reset finds is applied, an L1 atomic with its store, and is gone. -/
def settleWhole (s : State) (f : Flight) : State :=
  let s1 := settleFlight s f
  let kids := s1.flights.filter (fun g => g.vis.isSome && f.vis.isNone && (g.id == f.id || decide (s.nextFid ≤ g.id)))
  dropFlight (kids.foldl (fun st g => dropFlight (settleFlight st g) g.id) s1) f.id

/-- Lazy releases of a core that a test picks, those the core recorded before a number, reach their homes oldest first (R224). -/
def applyLazy (s : State) (p : RelEnt → Bool) : State :=
  let es := s.cores.flatMap (fun c => c.2.relb.filter p)
  let s1 := { s with cores := s.cores.map (fun c => (c.1, { c.2 with relb := c.2.relb.filter (fun e => !p e) })) }
  es.foldl (fun st e => homeWrite st e.who.die e.who.core e.page e.pa (leBytes e.size e.val)) s1

/-- An operation that a reset finds, with the older lazy releases of its wave's core before it. -/
def settleAfterLazy (asid : Nat) (s : State) (f : Flight) : State :=
  settleWhole (applyLazy s (fun e => e.who.asid == asid && e.who.die == f.who.die && e.who.core == f.who.core && decide (e.fid < f.vis.getD f.id))) f

/-- Reset of one context: its waves, commands, rays, samples, queues and translations go, its launches complete with RST, and it is no
longer loaded (R165, R376; log 28). -/
def resetContext (s : State) (asid : Nat) : State :=
  let mine (f : Flight) : Bool := f.who.asid == asid
  let ids := ((s.waves ++ s.saved.map (fun x => x.wave)).filter (fun w => w.asid == asid)).map (fun w => w.uid)
  let s1 := (seenFirst (s.flights.filter mine)).foldl (settleAfterLazy asid) s
  let s2 := applyLazy s1 (fun e => e.who.asid == asid)
  let s3 := { s2 with
    waves := s2.waves.filter (fun w => !(w.asid == asid))
    ghosts := s2.ghosts.filter (fun w => !(w.asid == asid))
    saved := s2.saved.filter (fun x => !(x.wave.asid == asid))
    flights := s2.flights.filter (fun f => !mine f)
    cores := s2.cores.map (fun c => (c.1, { c.2 with
      ecb := c.2.ecb.filter (fun e => !(e.cell.asid == asid)), flt := c.2.flt.filter (fun e => !ids.contains e.uid)
      fsb := c.2.fsb.filter (fun e => !ids.contains e.uid)
      carve := match c.2.carve with | some k => if ids.contains k.1 then none else some k | none => none }))
    engines := s2.engines.map (fun e => (e.1, { e.2 with
      holder := match e.2.holder with | some h => if h.2 == asid then none else some h | none => none }))
    quads := s2.quads.map (fun q => (q.1, { q.2 with pools := q.2.pools.filter (fun p =>
      match findLaunch s p.1 with | some l => !(l.asid == asid) | none => true) })) }
  let s4 := dropCached (dropQueues s3 asid) asid
  let open_ := match findCtx s asid with | some c => openLaunches s4 c | none => []
  let s5 := open_.foldl (fun st l => completeLaunch (updLaunch st l.num (fun x => { x with rst := true })) l.num) s4
  let s6 := cleanMaps { s5 with
    flights := s5.flights.filter (fun f => !mine f)
    ctxs := s5.ctxs.filter (fun c => !(c.asid == asid))
    quads := stClean quadDefault s5.quads
    engines := stClean engineDefault s5.engines }
  match s6.turn with
  | .wave uid | .steer uid | .issue uid => if ids.contains uid then { s6 with turn := .idle } else s6
  | _ => s6

end Sys2Proof.Machine
end

