-- ==== Sys2Proof/Machine/Shake.lean ====
section
/-!
DEFINITION. SHAKE256, the digest of a firmware image (R413, R416): Keccak-f[1600] on 25 lanes of 64 bits, with the rate, padding and round
constants of FIPS 202.
-/
namespace Sys2Proof.Machine

/-- A lane rotated left. -/
def rotLane (x k : Nat) : Nat := (x * 2 ^ k + x / 2 ^ (64 - k)) % 2 ^ 64

/-- Lane of a sponge state. -/
def laneAt (a : List Nat) (i : Nat) : Nat := a.getD i 0

/-- Rotations of the lanes x + 5 y. -/
def laneTurns : List Nat :=
  [0, 1, 62, 28, 27, 36, 44, 6, 55, 20, 3, 10, 43, 25, 39, 41, 45, 15, 21, 8, 18, 2, 61, 56, 14]

/-- Round constants. -/
def roundConsts : List Nat :=
  [0x0000000000000001, 0x0000000000008082, 0x800000000000808A, 0x8000000080008000, 0x000000000000808B, 0x0000000080000001,
   0x8000000080008081, 0x8000000000008009, 0x000000000000008A, 0x0000000000000088, 0x0000000080008009, 0x000000008000000A] ++
  [0x000000008000808B, 0x800000000000008B, 0x8000000000008089, 0x8000000000008003, 0x8000000000008002, 0x8000000000000080,
   0x000000000000800A, 0x800000008000000A, 0x8000000080008081, 0x8000000000008080, 0x0000000080000001, 0x8000000080008008]

/-- Parities of the columns go into every lane. -/
def mixColumns (a : List Nat) : List Nat :=
  let c := (List.range 5).map (fun x => laneAt a x ^^^ laneAt a (x + 5) ^^^ laneAt a (x + 10) ^^^ laneAt a (x + 15) ^^^ laneAt a (x + 20))
  let d := (List.range 5).map (fun x => laneAt c ((x + 4) % 5) ^^^ rotLane (laneAt c ((x + 1) % 5)) 1)
  a.mapIdx (fun i v => v ^^^ laneAt d (i % 5))

/-- Lane x + 5 y of the rotated lanes in their new places comes from lane (x + 3 y) + 5 x. -/
def moveLanes (a : List Nat) : List Nat :=
  (List.range 25).map (fun i =>
    let j := (i % 5 + 3 * (i / 5)) % 5 + 5 * (i % 5)
    rotLane (laneAt a j) (laneTurns.getD j 0))

/-- The lanes of a row combine. -/
def mixRows (b : List Nat) : List Nat :=
  b.mapIdx (fun i v =>
    let y := 5 * (i / 5)
    v ^^^ ((2 ^ 64 - 1 - laneAt b (y + (i + 1) % 5)) &&& laneAt b (y + (i + 2) % 5)))

/-- One round. -/
def keccakRound (a : List Nat) (k : Nat) : List Nat :=
  match mixRows (moveLanes (mixColumns a)) with
  | x :: r => (x ^^^ k) :: r
  | [] => []

def keccak (a : List Nat) : List Nat := roundConsts.foldl keccakRound a

/-- Bytes of a message that one block takes. -/
def shakeRate : Nat := 136

/-- Padding of the last block. -/
def shakePad (bs : List Byte) : List Byte :=
  let k := shakeRate - bs.length % shakeRate
  if k = 1 then bs ++ [0x9F] else bs ++ [0x1F] ++ List.replicate (k - 2) 0 ++ [0x80]

/-- Blocks are absorbed one after the other. -/
def absorb : Nat → List Byte → List Nat → List Nat
  | 0, _, a => a
  | n + 1, bs, a => absorb n (bs.drop shakeRate) (keccak (a.mapIdx (fun i v => v ^^^ leNat ((bs.take shakeRate).drop (8 * i) |>.take 8))))

/-- The 32-byte SHAKE256 digest of some bytes. -/
def shake256 (bs : List Byte) : List Byte :=
  ((absorb (bs.length / shakeRate + 1) (shakePad bs) (List.replicate 25 0)).take 4).flatMap (leBytes 8)

end Sys2Proof.Machine
end

