-- ==== Sys2Proof/Machine/Host.lean ====
section
/-!
DEFINITION. The host interface: registers and the boot exchange (R397, R403, R413, R415), the command ring (R398 to R401), events (R402),
attestation (R414, R416), and host accesses to memory (R183, R212).
-/
namespace Sys2Proof.Machine

/-! ### Register writes -/

/-- FLOCK: the feature word is locked (R403). -/
def execFlock (s : State) : Out := .next (regWrite s 0x020 1)
/-- NOTIFY (R400). -/
def execNotify (v : W32) (s : State) : Out := .next (regWrite s 0x050 (v.zeroExtend 64))
/-- EVHEAD (R397). -/
def execEvhead (v : W64) (s : State) : Out := .next (regWrite s 0x078 v)
/-- A host write of 8 bytes at an offset of device space (R397). -/
def execRegisterWrite (off : Nat) (v : W64) (s : State) : Out := .next (devWrite s (devBase + off) (leBytes 8 v.toNat))

/-- EVENT_RING_RESUME: waiting events are written as far as there is room (R402). -/
def execEventRingResume (s : State) : Out := .next (pumpEvents s s.regs.events)

/-! ### Boot exchange (R413, R415) -/

/-- The image in the window. -/
def bootImage (r : Regs) : List Byte := memBytes r.bootwin 0 r.bootlen.toNat

/-- Digest of an image's header and body, the bytes before its signature (R413, R416; log 13). -/
def imageDigest (img : List Byte) : List Byte := shake256 (img.take (Config.fwSigOf img))
def imageSignature (img : List Byte) : List Byte := (img.drop (Config.fwSigOf img)).take 2820

/-- Why an image is rejected: length, signature, version, flash (R415); 0 when it is accepted. -/
def bootWhy (draws : Nat) (r : Regs) : Nat :=
  let n := r.bootlen.toNat
  let img := bootImage r
  if n < 4096 ∨ 2 ^ 24 < n ∨ Config.fwLengthOf img ≠ n then 3
  else if !Config.fwVerify (imageDigest img) (imageSignature img) then 1
  else if (Config.fwVersionOf img).toNat < Config.fuse.toNat % 2 ^ 32 then 2
  else if Config.fwFlashFails draws then 4
  else 0

/-- The boot ROM checks the image the host has written. -/
def bootCheck (draws : Nat) (r : Regs) : Regs :=
  match bootWhy draws r with
  | 0 => { r with go := false, rej := false, why := 0, ok := true, req := false, booted := true, fwver := Config.fwVersionOf (bootImage r),
                  fwimg := bootImage r }
  | n + 1 => { r with go := false, rej := true, why := n + 1 }

/-- GO: the host has written a whole image; the boot ROM checks it while it waits for one (R415). -/
def execGo (s : State) : Out :=
  let s1 := regWrite s 0x100 2
  .next (if s1.regs.req then { s1 with regs := bootCheck s.draws s1.regs } else s1)

/-! ### The command ring (R398, R400) -/

/-- A command as one read of its slots finds it. -/
structure Cmd where
  head : List Byte
  pay  : List Byte
  op   : Nat
  npay : Nat
  seq  : Nat
  asid : Nat
deriving DecidableEq, Repr

def slotBytes (s : State) (i : Nat) : List Byte := memBytes s.mem (s.regs.crbase.toNat + 64 * (i % 2 ^ s.regs.crlog)) 64

/-- The command at CRHEAD. -/
def cmdAt (s : State) : Cmd :=
  let i := s.regs.crhead.toNat
  let h := slotBytes s i
  let w := qword h 0
  let n := field w 23 16
  { head := h, pay := (List.range n).flatMap (fun k => slotBytes s (i + 1 + k)), op := field w 31 24, npay := n, seq := field w 63 32,
    asid := field w 10 0 }

/-- The bytes the CRC covers: header bytes 0 to 7, words 2 to 7, payload. -/
def cmdCrc (c : Cmd) : Nat := crc32c (c.head.take 8 ++ c.head.drop 16 ++ c.pay)
def seqOk (s : State) (c : Cmd) : Bool := c.seq == s.regs.seq
def crcOk (c : Cmd) : Bool := qword c.head 1 % 2 ^ 32 == cmdCrc c
def cmdPasses (s : State) (c : Cmd) : Bool := seqOk s c && crcOk c

/-- A read of the command at CRHEAD is due: the feature word is locked, slots are there, no other command runs, and 250 ns have passed
since a failed read (R400). -/
def cmdDue (s : State) : Bool :=
  let r := s.regs
  r.flock && !(r.crhead == r.notify) && !r.stale && s.ctxs.all (fun c => c.phase == .resident) &&
  (r.reads == 0 || decide (250 ≤ s.time - r.readAt))

/-- SEQ after one, 0 skipped (R398). -/
def nextSeq (n : Nat) : Nat := n % (2 ^ 32 - 1) + 1

/-- The command is consumed. -/
def passCmd (s : State) (npay : Nat) : State :=
  let r := s.regs
  { s with regs := { r with crhead := r.crhead + 1 + BitVec.ofNat 32 npay, seq := nextSeq r.seq, reads := 0 } }

/-- The command is accepted and consumed: its number is the newest of R360. -/
def endCmd (s : State) (npay : Nat) : State :=
  let t := passCmd s npay
  { t with regs := { t.regs with lastSeq := s.regs.seq } }

/-- An event about the command at CRHEAD. -/
def cmdEvent (s : State) (kind op : Nat) (rest : List Nat) : State :=
  postEvent s kind ([s.regs.crhead.toNat, s.regs.seq, op] ++ rest)
/-- Refusal by event kind 0x11 (R400, R402). -/
def refuseCmd (s : State) (c : Cmd) (reason : Nat) : State := passCmd (cmdEvent s 0x11 c.op [reason]) c.npay

/-- A reserved bit of the header is set, or an argument word that R398 gives as zero is not; words that a command does not use are read by nobody
(log 109). -/
def cmdReserved (c : Cmd) (zeroFrom : Nat) : Bool :=
  !(field (qword c.head 0) 15 11 == 0) || !(qword c.head 1 / 2 ^ 32 == 0) ||
  (natsFrom zeroFrom (8 - zeroFrom)).any (fun i => !(qword c.head i == 0))

/-- One command: nothing unless it is due, passes its checks and has the OP; then the refusals of R400, or its effect. -/
def onCmd (s : State) (op npay zeroFrom : Nat) (bad : Cmd → Bool) (needCtx : Bool) (k : Cmd → State) : Out :=
  let c := cmdAt s
  if !(cmdDue s && cmdPasses s c && c.op == op) then .next s
  else if !(c.npay == npay) then .next (refuseCmd s c 2)
  else if cmdReserved c zeroFrom || bad c then .next (refuseCmd s c 3)
  else if needCtx && (findCtx s c.asid).isNone then .next (refuseCmd s c 4)
  else .next (k c)

/-- Bits 1:0 of a handler base are zero (R398). -/
def handlerBad (c : Cmd) : Bool := !(qword c.head 2 % 4 == 0)

/-- LAUNCH (R357, R360, R361, R398). -/
def execLaunch (s : State) : Out :=
  onCmd s 1 1 3 handlerBad true (fun c =>
    let hb := qword c.head 2
    let handler := if hb = 0 then (match findCtx s c.asid with | some x => x.hbase | none => 0) else BitVec.ofNat 64 hb
    let s1 := endCmd s c.npay
    acceptLaunch s1 c.asid (2 ^ 32 * c.seq) true 0 0 handler 0 0 0 (launchDesc c.pay))

/-- The context descriptor a CTXLOAD names: 64 aligned bytes of main memory, valid (R396; log 29). -/
def namedCtx (s : State) (pa : Nat) : Option Ctx := if pa % 64 = 0 ∧ pa < mainTop then ctxOfBytes s (memBytes s.mem pa 64) else none

/-- CTXLOAD done. -/
def doneCmd (s : State) (op : Nat) : State := endCmd (cmdEvent s 0x12 op []) 0

/-- CTXLOAD of a valid descriptor: fresh, or the start of a resumption (R396, R399). It stays at CRHEAD while its tables cannot be read. -/
def loadCtx (s : State) (c : Cmd) (x : Ctx) : State :=
  let saved := !(x.savea == 0) && memNat s.mem x.savea 8 == 1
  if tablesShut s x then s else
  match saved, findArchive s x, withTables s x with
  | true, none, _ => refuseCmd s c 7
  | _, _, none => refuseCmd s c 9
  | true, some a, some s1 =>
    let s2 := beginResume s1 x.asid a
    if resumeDone s2 x.asid then doneCmd (endResume s2 x) 2 else s2
  | false, _, some s1 => doneCmd s1 2

/-- CTXLOAD. A resumption ends when every saved wave is restored (R399, step 4). -/
def execCtxload (s : State) : Out :=
  match s.ctxs.find? (fun c => c.phase == .resuming) with
  | some x => if resumeDone s x.asid then .next (doneCmd (endResume s x) 2) else .next s
  | none =>
    onCmd s 2 0 8 (fun _ => false) false (fun c =>
      match namedCtx s (qword c.head 2) with
      | none => refuseCmd s c 5
      | some x => loadCtx s c x)

/-- CTXSAVE: waves are asked to leave; each step of R165 ends before the next begins: waves, commands, samples, rays, queues, stores and lazy
releases with late errors, then the save (R399). -/
def execCtxsave (s : State) : Out :=
  match s.ctxs.find? (fun c => c.phase == .saving) with
  | some x =>
    if s.waves.any (fun w => w.asid == x.asid) || ctxCommands s x.asid then .next s
    else if ctxSamples s x.asid then .next (flushSamples s x.asid)
    else if ctxRays s x.asid || ctxRecords s x.asid then .next s
    else if ctxChips s x.asid then .next (queuesToRings s x.asid)
    else if ctxLazy s x.asid then .next (dueLazy s x.asid)
    else if ctxBusy s x.asid then .next s
    else .next (doneCmd (endSwitch s x) 3)
  | none =>
    onCmd s 3 0 8 (fun _ => false) true (fun c =>
      match findCtx s c.asid with
      | none => s
      | some x => if x.savea = 0 ∨ x.savesz < needOf s x then refuseCmd s c 6 else beginSwitch s c.asid)

/-- CTXRESET (R165, R399). -/
def execCtxreset (s : State) : Out :=
  onCmd s 4 0 8 (fun _ => false) true (fun c =>
    match findCtx s c.asid with
    | none => s
    | some x => doneCmd (putStateWord (resetContext s c.asid) x 0) 4)

/-- NOP (R398). -/
def execNopCmd (s : State) : Out :=
  onCmd s 5 0 8 (fun _ => false) true (fun c =>
    endCmd (postEvent s 0x13 [s.regs.crhead.toNat, s.regs.seq]) c.npay)

/-! ### Attestation (R414, R416) -/

/-- Bytes 0 to 2,995 of a report. -/
def reportBody (s : State) (idx : Nat) (nonce : List Byte) : List Byte :=
  let digest := if s.regs.fwimg.isEmpty then (List.range 32).map Config.fwDigest else imageDigest s.regs.fwimg
  leBytes 4 0x52545441 ++ leBytes 4 1 ++ leBytes 8 s.regs.fwver.toNat ++ digest ++
  leBytes 16 (accepted s.regs).toNat ++ leBytes 8 Config.fuse.toNat ++ nonce ++ leBytes 4 idx ++ leBytes 4 0 ++
  (List.range 64).map Config.akey ++ (List.range 2820).map Config.acert

/-- The whole report, signed with a key index. -/
def report (s : State) (idx : Nat) (nonce : List Byte) : List Byte :=
  let body := reportBody s idx nonce
  body ++ (List.range 2820).map (Config.sign idx body)

/-- ATTEST (R416): status 1 when the indices are exhausted, 2 for a buffer that is not aligned. -/
def execAttest (s : State) : Out :=
  onCmd s 6 0 7 (fun _ => false) false (fun c =>
    let buf := qword c.head 6
    let idx := s.regs.akeyIdx
    let ev (t : State) (status n : Nat) : State :=
      endCmd (postEvent t 0x18 [t.regs.crhead.toNat, t.regs.seq, status, n]) c.npay
    if !(c.asid == 0) then refuseCmd s c 8
    else if 2 ^ 20 ≤ idx then ev s 1 0
    else if buf % 4096 ≠ 0 then ev s 2 0
    else
      let r := report s idx ((c.head.drop 16).take 32)
      let s1 := { s with hostMem := memPut s.hostMem buf r }
      ev { s1 with regs := { s1.regs with akeyIdx := idx + 1 } } 0 5816)

/-- COMMAND_REFETCH: a read of the command at CRHEAD that fails its checks; the ninth makes it stale (R400). A command that passes
with an unlisted OP is refused here. -/
def execCommandRefetch (s : State) : Out :=
  let c := cmdAt s
  if !cmdDue s then .next s
  else if cmdPasses s c then (if 1 ≤ c.op ∧ c.op ≤ 6 then .next s else .next (refuseCmd s c 1))
  else
    let n := s.regs.reads + 1
    if n < 9 then .next { s with regs := { s.regs with reads := n, readAt := s.time } }
    else
      let bits := (if seqOk s c then 0 else 1) + (if crcOk c then 0 else 2)
      .next (postEvent { s with regs := { s.regs with reads := n, stale := true } } 0x10
        [s.regs.crhead.toNat, s.regs.seq, c.seq, bits])

/-! ### Host accesses (R183, R212, R401) -/

/-- Bytes written to a weight store by DMA, once no wave is resident on a die they lie on and no bank they lie in is away for refresh
(R183, R184). -/
def dmaWrite (pa : Nat) (bytes : List Byte) (s : State) : Out :=
  if !(isWeight pa && isWeight (pa + bytes.length - 1)) then .fault (.noSuchAddress pa)
  else if (linesOf pa bytes.length).any (fun l => s.waves.any (fun w => w.die == homeDie l) || inRefresh s.time (bankOf l)) then
    .next (if s.inputs.contains (.hostDmaWeightWrite pa bytes) then s else { s with inputs := s.inputs ++ [.hostDmaWeightWrite pa bytes] })
  else .next { hostWrite s pa bytes with inputs := s.inputs.filter (fun i => !(i == .hostDmaWeightWrite pa bytes)) }

/-- HOST_DMA_WEIGHT_WRITE (R183). -/
def execHostDmaWeightWrite (pa : Nat) (bytes : List Byte) (s : State) : Out := dmaWrite pa bytes s

/-- HOST_ACCESS: a read changes nothing; a write is a relaxed write at the homes, before which lazy releases it meets go home (R212,
R224); an address in device space is a register (R397). -/
def execHostAccess (pa len : Nat) (bytes : List Byte) (s : State) : Out :=
  let n := if bytes.isEmpty then len else bytes.length
  if n = 0 then .next s
  else if isDevice pa && isDevice (pa + n - 1) then .next (if bytes.isEmpty then s else devWrite s pa bytes)
  else if isMain pa && isMain (pa + n - 1) then
    (if bytes.isEmpty then .next s else afterLazy s [(pa, n)] (fun _ => true) (.next (hostWrite s pa bytes)))
  else if isWeight pa && isWeight (pa + n - 1) then (if bytes.isEmpty then .next s else dmaWrite pa bytes s)
  else .fault (.noSuchAddress pa)

end Sys2Proof.Machine
end

