-- ==== Sys2Proof/Machine/Integrity.lean ====
section
/-!
DEFINITION. Links and ticks (R391 to R395), errors and spares (R404, R407 to R409), refresh (R184), power (R411, R412) and package reset
(R394, R413).
-/
namespace Sys2Proof.Machine

/-! ### Refresh (R184) -/

/-- REFRESH_WINDOW: a bank enters or leaves its window. -/
def execRefreshWindow (die bank : Nat) (s : State) : Out :=
  let d := dieAt s die
  .next (putDie s die { d with
    refresh := if inRefresh s.time bank then insNat bank d.refresh else d.refresh.filter (fun b => !(b == bank)) })

/-! ### Data packets that arrive poisoned (R155, R404, R406) -/

/-- The data of a store is found poisoned on its way to the home, or a link failed and delivers it so: the sectors are poisoned and an error
record is made. The lazy releases of the instruction are recorded all the same. -/
def lateError (s : State) (f : Flight) : State :=
  match f.act with
  | .store n xs =>
    match storeSectors n xs with
    | [] => s
    | secs =>
      if recordBusy s f (releaseRanges s f) then s
      else
        let addr := BitVec.ofNat 64 ((xs.map (fun x => x.1.va)).headD 0)
        endPart (recordReleases (lateRecord (poisonSectors s secs) f.who 1 cPoison addr) f) f
  | _ => s

/-- The same of a lazy release on its way home (R223, R224). -/
def lateLazy (s : State) (fid : Nat) : State :=
  match s.cores.findSome? (fun c => (lazyHead c.2).bind (fun e => if e.fid == fid then some (c.1, e) else none)) with
  | none => s
  | some (k, e) =>
    let c := coreAt s (k / 128) (k % 128)
    lateRecord (poisonSectors (putCore s (k / 128) (k % 128) { c with relb := c.relb.drop 1 }) (natsFrom (e.pa / 32) ((e.pa + e.size + 31) / 32 - e.pa / 32)))
      e.who 1 cPoison (BitVec.ofNat 64 e.va)

/-- LATE_ERROR of one store, or of a lazy release that goes home (R155). -/
def execLateError (fid : Nat) (s : State) : Out :=
  if (findFlight s fid).isSome then onFlight s fid (fun f => .next (lateError s f)) else .next (lateLazy s fid)

/-- The data of a load is delivered poisoned: its lanes of memory end in POISON (R151). -/
def lostLoad (s : State) (f : Flight) (as : List Acc) (acq : Option Scope) : State :=
  match as.filter (fun a => match a.loc with | .mem _ => true | .pad _ _ => false) with
  | [] => s
  | ms =>
    let s1 := if (findWave s f.who.uid).isSome then poisonLanes s f.who 1 ms else s
    endFlight (match acq with | none => s1 | some sc => acquireAt (squashAcquire s1 f) f.who.die f.who.core sc) f

/-- Registers of a wave as they stood: a result that came poisoned is not written. -/
def unwritten (old t : State) (uid : Nat) : State :=
  match holder old uid with
  | some w => updHolder t uid (fun x => { x with v := w.v, s := w.s, hs := w.hs })
  | none => t

/-- An operation whose turn at the home has come. -/
def hasTurn (s : State) (f : Flight) : Bool := !(f.vis.isNone && pathBusy s f.who.uid f.id (actAccs f.act))

/-- An atomic whose request, or whose result, comes poisoned: POISON in either case, nothing written to the destination; it has been applied
where the result was lost, which of the two is free (R406; log 100). -/
def lostAtom (s : State) (f : Flight) (dst : Option LoadDst) (op : Nat) (t : Ty) (xs : List (Acc × Nat × Nat)) (sc : Scope) (ord : Ord) : State :=
  let s1 := poisonLanes s f.who 1 (xs.map (fun x => x.1))
  match dst with
  | some d =>
    if hasTurn s f && !atomBusy s f xs sc && Config.flip (64 * s.draws + 16 * (f.id + 1)) then unwritten s1 (performAtom s1 f (some d) op t xs sc ord) d.uid
    else endFlight (match ord with
      | .acq | .ar => acquireAt (squashAcquire s1 f) f.who.die f.who.core sc
      | _ => s1) f
  | none => endPart s1 f

/-- Address of a cell. -/
def cellVa (s : State) (c : CellRef) : Nat := match regionOf s c.asid c.region with | some r => r.base + 16 * c.idx | none => 0

/-- The values of an `est.ld` come poisoned: its requests stand, its registers are unwritten, POISON arrives (log 100). -/
def lostCells (s : State) (f : Flight) (uid reg : Nat) (nr : Bool) (cells : List (Nat × CellRef)) (shares : List (Nat × Nat)) : State :=
  if !hasTurn s f || cellsWait s f (cells.map (fun c => c.2)) then s
  else
    let s1 := poisonLanes s f.who 1 (cells.map (fun c => { lane := c.1, loc := .mem c.2.pa, va := cellVa s c.2, page := pageNormal }))
    endFlight (unwritten s1 (performEstLd s1 f uid reg nr cells shares) uid) f

/-- A drain's words come poisoned at their homes: the command fails there (R313). -/
def lostDrain (s : State) (f : Flight) (m : MatCmd) (add : Bool) (addr : W64) (stride : Option Int) : State :=
  match m.out with
  | [] => s
  | w :: _ =>
    let m1 := { m with failed := some (4, (drainAddr m addr stride w.1).toNat) }
    if add then setAct s f (.matrix { m1 with out := [] }) else if endWaits s f m then s else endMatrix s f m1

/-- A lane of a texture instruction that reads a poisoned packet (R345). -/
def lostTexel (s : State) (f : Flight) (c : TexCmd) : State :=
  match c.lanes with
  | [] => s
  | l :: _ =>
    let r := texRun s f.who c
    match r.2 with
    | .error _ => s
    | .ok x => if x.wait || x.fail.isSome then s else writeTex r.1 f c { x with bad := (l.1, c.desc.toNat) :: x.bad }

/-- A ray that reads a poisoned packet reports it (R334). -/
def lostRay (s : State) (f : Flight) (c : TraceCmd) : State :=
  match c.rays.find? (fun x => !rayInvalid (rayOf x.2)) with
  | none => s
  | some x =>
    let rest := c.rays.filter (fun y => !(y.1 == x.1))
    let words := rayRecord stPoison { stack := [], best := none, steps := 0 }
    if c.queue then
      settleTrace s f { c with rays := rest, out := c.out ++ [(x.1, (match findCtx s f.who.asid with | some k => k.recn | none => 0), queuePay c x.1 words)] }
    else settleTrace (putSlot s f.who.uid c.slot x.1 words) f { c with rays := rest }

/-- A data packet of an operation is delivered poisoned, and its consumer meets the poison (R404, R406; log 100): a load, an atomic and an
`est.ld` raise POISON, a store or a staged record is reported to the error node, a merge leaves its cell poisoned, an engine's command fails,
a ray and a texture lane report it. -/
def lostPacket (s : State) (f : Flight) : State :=
  match f.act with
  | .load _ _ as acq => lostLoad s f as acq
  | .store _ _ => lateError s f
  | .atom dst op t xs sc ord => lostAtom s f dst op t xs sc ord
  | .estLd uid reg nr cells shares => lostCells s f uid reg nr cells shares
  | .estClr (c :: cs) =>
    if hasTurn s f then endFlight (lateRecord (poisonSectors s ((c :: cs).map (fun x => x.pa / 32))) f.who 1 cPoison (BitVec.ofNat 64 (cellVa s c))) f else s
  | .merge c _ _ _ | .fold c _ _ => dropFlight (poisonSectors s [c.pa / 32]) f.id
  | .stage (r :: _) => endFlight (lateRecord s f.who 1 cPoison (BitVec.ofNat 64 (cellVa s r.1))) f
  | .copy c => if c.started && !replyBusy s f then failCopy s f c c.addr.toNat else s
  | .glean g => if g.started && !replyBusy s f then failGlean s f g.src.toNat else s
  | .matrix m => (match m.fn, m.started with | .drain _ add none addr stride _ _, true => lostDrain s f m add addr stride | _, _ => s)
  | .trace c => lostRay s f c
  | .tex c => if c.fn == .hgs then (if c.formed then s else failTex s f c.desc.toNat) else lostTexel s f c
  | .hgsAdd va _ _ cmd => settleHgs (dropFlight (deferOrRecord s f.who 2 cEngineErr f.who.lanes va 4) f.id) cmd
  | _ => s

/-! ### Stations and links (R391, R392) -/

def stationDefault : Station := { last := 0, down := false }
def stationAt (s : State) (st : Nat) : Station := stGet stationDefault st s.stations
def putStation (s : State) (st : Nat) (x : Station) : State := { s with stations := stSet stationDefault st x s.stations }

/-- STATION_POWER_DOWN: 256 loop cycles of 1.6 GHz without a flit, 160 ns (R391). -/
def execStationPowerDown (st : Nat) (s : State) : Out :=
  let x := stationAt s st
  .next (if 160 ≤ s.time - x.last then putStation s st { x with down := true } else s)

/-- WAKE: the station stays on, its idle timer restarts (R391). -/
def execWake (st : Nat) (s : State) : Out := .next (putStation s st { last := s.time, down := false })

/-- Operations on their way to another package whose packets were on a link; which they are is free (log 100). -/
def onLink (s : State) (link : Nat) : List Flight :=
  s.flights.filter (fun f => !f.held && (destPkg s f.who.asid f.act).isSome && Config.flip (64 * s.draws + 16 * (f.id + 1) + link))

/-- LINK_DOWN: one of the 16 links is down; its traffic is rerouted, and the data packets already on it are delivered poisoned (R155, R392,
R404). -/
def execLinkDown (link : Nat) (s : State) : Out :=
  .next (if link < 16 then (onLink s link).foldl lostPacket { s with linksDown := insNat link s.linksDown } else s)

/-! ### Ticks (R394, R395) -/

/-- TICK_BOUNDARY: the tick the time base has reached is open. -/
def execTickBoundary (s : State) : Out := .next { s with pod := { s.pod with boundary := max s.pod.boundary (tickNow s) } }

/-- MARKER_ARRIVAL: another package's marker for a tick. -/
def execMarkerArrival (pkg tick : Nat) (s : State) : Out :=
  .next (if s.pod.members.contains pkg && !(pkg == s.pod.pkg) && !s.pod.markers.contains (pkg, tick) then
    { s with pod := { s.pod with markers := s.pod.markers ++ [(pkg, tick)] } } else s)

/-- A tick whose marker is missing 64 ticks later, the lowest such. -/
def missingTick (s : State) (pkg : Nat) : Option Nat :=
  (List.range (tickNow s + 1 - 64)).find? (fun n => !s.pod.markers.contains (pkg, n))

/-- TICK_EXCHANGE_STALLED: the package is lost to the exchange; the packets that the exchange holds are discarded, and contexts with RX = 1 are
reset (R395). -/
def execTickExchangeStalled (pkg : Nat) (s : State) : Out :=
  if s.pod.members.contains pkg && !(pkg == s.pod.pkg) && !s.pod.lost.contains pkg then
    match missingTick s pkg with
    | none => .next s
    | some n =>
      let cs := (s.ctxs.filter (fun c => c.rx)).map (fun c => c.asid)
      let s1 := cs.foldl resetContext { s with
        flights := s.flights.filter (fun f => f.tick.isNone || f.held || !cs.contains f.who.asid), pod := { s.pod with lost := s.pod.lost ++ [pkg] } }
      .next (postEvent s1 0x17 [pkg, n % 2 ^ 32, n / 2 ^ 32, cs.length])
  else .next s

/-- TIME_BASE_OUT_OF_BOUND: an offset of more than 100 ns is reported (R394). -/
def execTimeBaseOutOfBound (off : W32) (s : State) : Out :=
  .next (if 100 < off.toInt.natAbs then postEvent s 0x14 [s.pod.pkg, off.toNat] else s)

/-- Operations that travel as control packets (R407). -/
def isControl (f : Flight) : Bool :=
  match f.act with
  | .record _ _ _ | .batch _ _ _ _ | .wreturn _ _ | .draw _ _ _ | .rel | .bar _ _ _ | .notice _ _ _ _ | .reseed _ _ _ _ => true
  | .matrix m => (match m.fn with | .lease true _ => true | _ => false)
  | _ => false

/-- The event of a launch's completion record (R362). -/
def isCompletion (num : Nat) (e : List W32) : Bool :=
  (e.getD 7 0).toNat % 256 == 0 && (e.getD 0 0).toNat == num % 2 ^ 32 && (e.getD 1 0).toNat == num / 2 ^ 32 % 2 ^ 32

/-- Contexts that a control packet on its way belongs to; none when there is no such packet. A tick marker belongs to every context whose
packets it lets through (R395, R407; log 121). -/
def siteCtxs (s : State) (p : CtlSite) : List Nat :=
  match p with
  | .flight fid => (s.flights.filter (fun f => f.id == fid && isControl f)).map (fun f => f.who.asid)
  | .writeBack die core => ((lazyHead (coreAt s die core)).map (fun e => e.who.asid)).toList
  | .phase uid => (s.waves.filter (fun w => w.uid == uid && (match w.barHold with | some h => h.released | none => false))).map (fun w => w.asid)
  | .marker pkg tick =>
    if s.pod.members.contains pkg && !(pkg == s.pod.pkg) && !s.pod.markers.contains (pkg, tick) then (s.ctxs.filter (fun c => c.rx)).map (fun c => c.asid) else []
  | .completion num => if s.regs.events.any (isCompletion num) then ((findLaunch s num).map (fun l => l.asid)).toList else []

/-- The packet is gone: an operation or a write-back is not applied, and a launch whose completion record was not written is open again, so
that the reset of its context writes one with RST (R407). -/
def dropSite (s : State) (p : CtlSite) : State :=
  match p with
  | .flight fid => (match findFlight s fid with | some f => if isControl f then dropFlight s fid else s | none => s)
  | .writeBack die core => let c := coreAt s die core; putCore s die core { c with relb := c.relb.drop 1 }
  | .completion num =>
    updLaunch { s with regs := { s.regs with events := s.regs.events.filter (fun e => !isCompletion num e) } } num (fun l => { l with complete := false })
  | _ => s

/-- CONTROL_PACKET_DROPPED: every context the dropped packets belonged to is reset (R407). -/
def execControlPacketDropped (die unit num : Nat) (ps : List CtlSite) (s : State) : Out :=
  let gone := ps.filter (fun p => !(siteCtxs s p).isEmpty)
  let cs := ((gone.flatMap (siteCtxs s)).eraseDups).filter (fun a => (findCtx s a).isSome)
  match cs with
  | [] => .next s
  | a :: _ => .next (cs.foldl resetContext (postEvent (gone.foldl dropSite s) 0x16 [die, unit, num, a, cs.length]))

/-! ### Errors (R404, R408, R409) -/

/-- ERROR_WINDOW (R408). -/
def execErrorWindow (s : State) : Out := .next (openWindow s)

/-- Lasting cores of a die that wait for the spare kept for them (R12, R409). -/
def coresPending (s : State) (die : Nat) : Nat := (s.cores.filter (fun c => c.1 / 128 == die && c.2.lasting)).length

/-- Spare rows left in a bank, of 32 (R409). -/
def bankSpares (s : State) (die bank : Nat) : Nat := stGet 32 bank (dieAt s die).rowSpares
def dieRowSpares (s : State) (die : Nat) : Nat := ((List.range 16).map (bankSpares s die)).sum

/-- Rows of a bank on their way to the spare kept for them. -/
def rowsPending (s : State) (die bank : Nat) : Nat := (s.rowCopies.filter (fun r => r.1 == die && r.2.1 == bank)).length

/-- A lasting unit is retired, a core or a row when a spare is left for it beside those that wait for theirs (R12, R409). -/
def retireUnit (s : State) (u : Unit3) : State :=
  match u with
  | .core die core =>
    let d := dieAt s die
    if d.coreSpares ≤ coresPending s die then postEvent s 0x15 [die, 0, core, 0]
    else
      let s1 := putCore { s with retired := s.retired ++ [u] } die core { coreAt s die core with lasting := true }
      let s2 := (s1.waves.filter (fun w => w.die == die && w.core == core)).foldl (fun st w =>
        match findWave st w.uid with | some x => requestPreempt st x | none => st) s1
      swapSpare s2 die core
  | .l2way die slice way =>
    if 16 < waysLeft s die slice then postEvent (dropWay { s with retired := s.retired ++ [u] } (32 * die + slice) way) 0x15 [die, 1, slice * 24 + way, 0]
    else s
  | .wsrow die bank row =>
    if rowsPending s die bank < bankSpares s die bank then { s with retired := s.retired ++ [u], rowCopies := s.rowCopies ++ [(die, bank, row)] } else s

/-- CORRECTED_ERROR: counted; the fourth of a unit within a window makes it lasting; a weight-store row is rewritten at the next scrub
(R404, R408, R409). -/
def execCorrectedError (u : Unit3) (s : State) : Out :=
  let s0 := openWindow s
  let n := errCount s0 u + 1
  let s1 := { s0 with errs := putBy (fun p => p.1 == u) (u, n) s0.errs }
  let s2 := match u with
    | .wsrow die bank row => { s1 with scrubs := s1.scrubs ++ [(16 * die + bank, row)] }
    | _ => s1
  .next (if n = 4 ∧ s2.retired.contains u = false then retireUnit s2 u else s2)

/-- ROW_COPY: the copy of a lasting row ends, its addresses are remapped (R409). -/
def execRowCopy (die bank row : Nat) (s : State) : Out :=
  if s.rowCopies.contains (die, bank, row) then
    let d := dieAt s die
    let s1 := putDie (freshUnit { s with rowCopies := s.rowCopies.erase (die, bank, row) } (.wsrow die bank row)) die { d with
      rowSpares := stSet 32 bank (bankSpares s die bank - 1) d.rowSpares }
    .next (postEvent s1 0x15 [die, 2, bank * 65536 + row, dieRowSpares s1 die])
  else .next s

/-- An error strikes a copy of a line: the L1's line or the replica's sector is poisoned where it stands; the caches of the units never hold
a poisoned line, so it leaves (R334, R404; log 112). -/
def spoilCopy (s : State) (k : CopyKind) (die core pa : Nat) : State :=
  let c := coreAt s die core
  let others (ls : List Line) : List Line := ls.filter (fun l => !(l.line == lineOf pa))
  match k with
  | .l1 => putCore s die core { c with l1 := c.l1.map (fun l => if l.line == lineOf pa then { l with bad := l.sectors.map (fun x => x.1) } else l) }
  | .replica =>
    let x := quadAt s (quadOf die core)
    putQuad s (quadOf die core) { x with l2 := x.l2.map (fun e =>
      if e.line == lineOf pa then { e with rep := e.rep.map (fun r => (r.1, { r.2 with bad := insNat (pa / 32 % 8) r.2.bad })) } else e) }
  | .node => putCore s die core { c with ncache := others c.ncache }
  | .texture => putCore s die core { c with tcache := others c.tcache }

/-- UNCORRECTABLE_ERROR: a sector, a scratchpad word or a copy is poisoned, a data packet arrives poisoned, or SOFT goes to the wave with
the unit as DETAIL (R142, R404). -/
def execUncorrectableError (e : ErrSite) (s : State) : Out :=
  match e with
  | .sector pa => .next (if isMain pa || isWeight pa then poisonSectors s [pa / 32] else s)
  | .wave uid unit =>
    .next (if unit ≤ 2 then
      addDeferred s uid { cause := cSoft, lanes := 0, more := false, addr := 0, pc := freePc s, detail := BitVec.ofNat 64 unit } else s)
  | .pad uid off => .next (updHolder s uid (fun w => if off < w.foot.spad then { w with padBad := insNat (off / 8) w.padBad } else w))
  | .copy k die core pa => .next (spoilCopy s k die core pa)
  | .packet fid => onFlight s fid (fun f => .next (lostPacket s f))
  | .read uid n => .next (updHolder s uid (fun w => { w with lostRead := some n }))

/-- SCRUB: rows of a bank with corrected events are rewritten (R404). -/
def execScrub (die bank : Nat) (s : State) : Out := .next { s with scrubs := s.scrubs.filter (fun x => !(x.1 == 16 * die + bank)) }

/-! ### Power (R411, R412) -/

/-- An island runs at n steps of 12.5 MHz from now on. -/
def setIsland (s : State) (i n : Nat) : State :=
  { s with islands := stSet islandDefault i { n := n, cyc := islandCycles (islandAt s i) s.time, since := s.time } s.islands }

/-- FREQUENCY_CHANGE: 500 to 1,000 MHz (R411). -/
def execFrequencyChange (island n : Nat) (s : State) : Out :=
  .next (if island < 256 ∧ 40 ≤ n ∧ n ≤ 80 then setIsland s island n else s)

/-- Of the islands that can still go down, the one of highest measured power, of several the lowest (R412). -/
def hottest (s : State) (powers : List Nat) : Option Nat :=
  (List.range 256).foldl (fun b i =>
    if (islandAt s i).n ≤ 40 then b
    else match b with
      | some j => if powers.getD j 0 < powers.getD i 0 then some i else b
      | none => some i) none

/-- POWER_CAP: over the cap, the island of highest measured power goes one step down; under it, the one lowered last goes one step up
(R412). -/
def execPowerCap (exceeded : Bool) (powers : List Nat) (s : State) : Out :=
  if exceeded then
    match hottest s powers with
    | some i => .next (setIsland { s with lowered := i :: s.lowered } i ((islandAt s i).n - 1))
    | none => .next s
  else
    match s.lowered with
    | [] => .next s
    | i :: r => .next (if (islandAt s i).n < 80 then setIsland { s with lowered := r } i ((islandAt s i).n + 1) else { s with lowered := r })

/-- THERMAL_LIMIT: 500 MHz (R412). -/
def execThermalLimit (island : Nat) (s : State) : Out := .next (if island < 256 then setIsland s island 40 else s)

/-! ### Package reset (R394, R413) -/

/-- Registers after a package reset: the flash image, the fused counters and the part's constants stay. -/
def regsAfter (r : Regs) : Regs :=
  if r.fwimg.isEmpty then { regsReset with akeyIdx := r.akeyIdx, ikeyIdx := r.ikeyIdx }
  else { regsReset with akeyIdx := r.akeyIdx, ikeyIdx := r.ikeyIdx, fwimg := r.fwimg, fwver := r.fwver, booted := true, req := false }

/-- A core that waited for its spare has it. -/
def coresAfter (cs : Store Core) : Store Core :=
  stClean coreDefault (cs.map (fun c => (c.1, { coreDefault with spare := c.2.spare || c.2.lasting })))

/-- Spares that are left, those of lasting cores and of rows on their way taken off (R12, R409). -/
def diesAfter (s : State) : Store Die :=
  stClean dieDefault ((List.range 8).map (fun d =>
    (d, { dieDefault with
      coreSpares := (dieAt s d).coreSpares - coresPending s d
      rowSpares := (List.range 16).foldl (fun m b => stSet 32 b (bankSpares s d b - rowsPending s d b) m) [] })))

/-- Ways out of service stay so. -/
def retiredAfter (us : List Unit3) : List Unit3 := us.filter (fun u => match u with | .l2way _ _ _ => true | _ => false)

/-- The pod that firmware forms: a package joined to no other is a pod of one, number 0; the time base of a pod counts from here (R392, R394;
log 99). -/
def formPod (draws : Nat) : Pod :=
  let n := Config.podPeers draws % 64 + 1
  { podReset with pkg := Config.podNumber draws % n, members := List.range n }

/-- PACKAGE_RESET: the boot ROM checks the image and the pod is formed; memory, flash, fuses and retired units keep what they hold
(log 30). -/
def execPackageReset (s : State) : Out :=
  .next { State.reset with
    draws := s.draws, nextUid := s.nextUid, nextFid := s.nextFid, inputs := s.inputs, mem := s.mem, poison := s.poison
    hostMem := s.hostMem, archives := s.archives, regs := regsAfter s.regs, cores := coresAfter s.cores, dies := diesAfter s
    retired := retiredAfter s.retired, pod := formPod s.draws }

end Sys2Proof.Machine
end

