-- ==== Sys2Proof/Machine/Dispatch.lean ====
section
/-!
DEFINITION. One arm for each constructor of Instr: its meaning.
-/
namespace Sys2Proof.Machine

/-- The meaning of an instruction or event. -/
def exec (i : Instr) (s : State) : Host.Outcome State Fault Refusal :=
  match i with
  | .iadd o => Sys2Proof.Machine.execIadd o s
  | .isub o => Sys2Proof.Machine.execIsub o s
  | .imul o => Sys2Proof.Machine.execImul o s
  | .imulh o => Sys2Proof.Machine.execImulh o s
  | .iand o => Sys2Proof.Machine.execIand o s
  | .ior o => Sys2Proof.Machine.execIor o s
  | .ixor o => Sys2Proof.Machine.execIxor o s
  | .ishl o => Sys2Proof.Machine.execIshl o s
  | .ishr o => Sys2Proof.Machine.execIshr o s
  | .isra o => Sys2Proof.Machine.execIsra o s
  | .imin o => Sys2Proof.Machine.execImin o s
  | .imax o => Sys2Proof.Machine.execImax o s
  | .inot o => Sys2Proof.Machine.execInot o s
  | .iabs o => Sys2Proof.Machine.execIabs o s
  | .ipopc o => Sys2Proof.Machine.execIpopc o s
  | .iclz o => Sys2Proof.Machine.execIclz o s
  | .fadd o => Sys2Proof.Machine.execFadd o s
  | .fsub o => Sys2Proof.Machine.execFsub o s
  | .fmul o => Sys2Proof.Machine.execFmul o s
  | .fmin o => Sys2Proof.Machine.execFmin o s
  | .fmax o => Sys2Proof.Machine.execFmax o s
  | .fdiv o => Sys2Proof.Machine.execFdiv o s
  | .fsqrt o => Sys2Proof.Machine.execFsqrt o s
  | .frcp o => Sys2Proof.Machine.execFrcp o s
  | .frsq o => Sys2Proof.Machine.execFrsq o s
  | .fexp2 o => Sys2Proof.Machine.execFexp2 o s
  | .flog2 o => Sys2Proof.Machine.execFlog2 o s
  | .fsin o => Sys2Proof.Machine.execFsin o s
  | .fcos o => Sys2Proof.Machine.execFcos o s
  | .fclass o => Sys2Proof.Machine.execFclass o s
  | .frnd o => Sys2Proof.Machine.execFrnd o s
  | .hadd2 o => Sys2Proof.Machine.execHadd2 o s
  | .hmul2 o => Sys2Proof.Machine.execHmul2 o s
  | .mov o => Sys2Proof.Machine.execMov o s
  | .movi o => Sys2Proof.Machine.execMovi o s
  | .bcast o => Sys2Proof.Machine.execBcast o s
  | .gets o => Sys2Proof.Machine.execGets o s
  | .sets o => Sys2Proof.Machine.execSets o s
  | .rng o => Sys2Proof.Machine.execRng o s
  | .ld o => Sys2Proof.Machine.execLd o s
  | .st o => Sys2Proof.Machine.execSt o s
  | .ldu o => Sys2Proof.Machine.execLdu o s
  | .stu o => Sys2Proof.Machine.execStu o s
  | .lds o => Sys2Proof.Machine.execLds o s
  | .sts o => Sys2Proof.Machine.execSts o s
  | .ldp o => Sys2Proof.Machine.execLdp o s
  | .stp o => Sys2Proof.Machine.execStp o s
  | .pf o => Sys2Proof.Machine.execPf o s
  | .br g n q off => Sys2Proof.Machine.execBr g n q off s
  | .brv g n k off => Sys2Proof.Machine.execBrv g n k off s
  | .jmp g off => Sys2Proof.Machine.execJmp g off s
  | .bri g vec a b => Sys2Proof.Machine.execBri g vec a b s
  | .call g off => Sys2Proof.Machine.execCall g off s
  | .ret g => Sys2Proof.Machine.execRet g s
  | .loop g imm n off => Sys2Proof.Machine.execLoop g imm n off s
  | .regang g => Sys2Proof.Machine.execRegang g s
  | .yield g => Sys2Proof.Machine.execYield g s
  | .exit g => Sys2Proof.Machine.execExit g s
  | .nop g => Sys2Proof.Machine.execNop g s
  | .fsync g => Sys2Proof.Machine.execFsync g s
  | .wait g ld st cp mx tx => Sys2Proof.Machine.execWait g ld st cp mx tx s
  | .fence g sc ord => Sys2Proof.Machine.execFence g sc ord s
  | .done g => Sys2Proof.Machine.execDone g s
  | .deq g d q w => Sys2Proof.Machine.execDeq g d q w s
  | .icmp o => Sys2Proof.Machine.execIcmp o s
  | .isel o => Sys2Proof.Machine.execIsel o s
  | .imad o => Sys2Proof.Machine.execImad o s
  | .ibfx o => Sys2Proof.Machine.execIbfx o s
  | .ibfi o => Sys2Proof.Machine.execIbfi o s
  | .ffma o => Sys2Proof.Machine.execFfma o s
  | .fcmp o => Sys2Proof.Machine.execFcmp o s
  | .hfma2 o => Sys2Proof.Machine.execHfma2 o s
  | .cvt o => Sys2Proof.Machine.execCvt o s
  | .pack o => Sys2Proof.Machine.execPack o s
  | .unpack o => Sys2Proof.Machine.execUnpack o s
  | .shfl o => Sys2Proof.Machine.execShfl o s
  | .vote o => Sys2Proof.Machine.execVote o s
  | .gred o => Sys2Proof.Machine.execGred o s
  | .gscan o => Sys2Proof.Machine.execGscan o s
  | .atom o => Sys2Proof.Machine.execAtom o s
  | .red o => Sys2Proof.Machine.execRed o s
  | .barInit o => Sys2Proof.Machine.execBarInit o s
  | .barArr o => Sys2Proof.Machine.execBarArr o s
  | .barExp o => Sys2Proof.Machine.execBarExp o s
  | .barWait o => Sys2Proof.Machine.execBarWait o s
  | .estAdd o => Sys2Proof.Machine.execEstAdd o s
  | .estMrg o => Sys2Proof.Machine.execEstMrg o s
  | .estLd o => Sys2Proof.Machine.execEstLd o s
  | .estClr o => Sys2Proof.Machine.execEstClr o s
  | .trap o => Sys2Proof.Machine.execTrap o s
  | .xret o => Sys2Proof.Machine.execXret o s
  | .xclr o => Sys2Proof.Machine.execXclr o s
  | .cfgr o => Sys2Proof.Machine.execCfgr o s
  | .cfgw o => Sys2Proof.Machine.execCfgw o s
  | .live o => Sys2Proof.Machine.execLive o s
  | .tlbi o => Sys2Proof.Machine.execTlbi o s
  | .spawn o => Sys2Proof.Machine.execSpawn o s
  | .amsg o => Sys2Proof.Machine.execAmsg o s
  | .enq o => Sys2Proof.Machine.execEnq o s
  | .dlaunch o => Sys2Proof.Machine.execDlaunch o s
  | .trace o => Sys2Proof.Machine.execTrace o s
  | .tget o => Sys2Proof.Machine.execTget o s
  | .hgf o => Sys2Proof.Machine.execHgf o s
  | .hgs o => Sys2Proof.Machine.execHgs o s
  | .tex o => Sys2Proof.Machine.execTex o s
  | .tld o => Sys2Proof.Machine.execTld o s
  | .fcall g off live rc rva rvb => Sys2Proof.Machine.execFcall g off live rc rva rvb s
  | .tdefBytes o => Sys2Proof.Machine.execTdefBytes o s
  | .tdefPlane o => Sys2Proof.Machine.execTdefPlane o s
  | .tset o => Sys2Proof.Machine.execTset o s
  | .tq o => Sys2Proof.Machine.execTq o s
  | .cpyLd o => Sys2Proof.Machine.execCpyLd o s
  | .cpySt o => Sys2Proof.Machine.execCpySt o s
  | .cpyGth o => Sys2Proof.Machine.execCpyGth o s
  | .cpyWs o => Sys2Proof.Machine.execCpyWs o s
  | .cpyFill o => Sys2Proof.Machine.execCpyFill o s
  | .glTopk o => Sys2Proof.Machine.execGlTopk o s
  | .glSmax o => Sys2Proof.Machine.execGlSmax o s
  | .glSamp o => Sys2Proof.Machine.execGlSamp o s
  | .mlease o => Sys2Proof.Machine.execMlease o s
  | .mrel o => Sys2Proof.Machine.execMrel o s
  | .mmo o => Sys2Proof.Machine.execMmo o s
  | .mclr o => Sys2Proof.Machine.execMclr o s
  | .mdrain o => Sys2Proof.Machine.execMdrain o s
  | .estAdv o => Sys2Proof.Machine.execEstAdv o s
  | .estClose o => Sys2Proof.Machine.execEstClose o s
  | .regangRelease uid => Sys2Proof.Machine.execRegangRelease uid s
  | .gangDemotion uid => Sys2Proof.Machine.execGangDemotion uid s
  | .partSwap uid slice => Sys2Proof.Machine.execPartSwap uid slice s
  | .starvedWaveChoice uid => Sys2Proof.Machine.execStarvedWaveChoice uid s
  | .forkResolution uid => Sys2Proof.Machine.execForkResolution uid s
  | .delivery uid => Sys2Proof.Machine.execDelivery uid s
  | .preemptionRequest uid => Sys2Proof.Machine.execPreemptionRequest uid s
  | .preemptionTimeout uid => Sys2Proof.Machine.execPreemptionTimeout uid s
  | .save uid => Sys2Proof.Machine.execSave uid s
  | .restore uid => Sys2Proof.Machine.execRestore uid s
  | .carveChange die core => Sys2Proof.Machine.execCarveChange die core s
  | .deqTimeout uid => Sys2Proof.Machine.execDeqTimeout uid s
  | .loadCompletion fid => Sys2Proof.Machine.execLoadCompletion fid s
  | .storeCompletion fid => Sys2Proof.Machine.execStoreCompletion fid s
  | .lazyWriteBack die core => Sys2Proof.Machine.execLazyWriteBack die core s
  | .lateError fid => Sys2Proof.Machine.execLateError fid s
  | .barrierOperation fid => Sys2Proof.Machine.execBarrierOperation fid s
  | .hostAtomic op pa size x y => Sys2Proof.Machine.execHostAtomic op pa size x y s
  | .hostDmaWeightWrite pa bytes => Sys2Proof.Machine.execHostDmaWeightWrite pa bytes s
  | .refreshWindow die bank => Sys2Proof.Machine.execRefreshWindow die bank s
  | .copyCommandStart fid => Sys2Proof.Machine.execCopyCommandStart fid s
  | .copyPartCompletion fid part => Sys2Proof.Machine.execCopyPartCompletion fid part s
  | .gleanCompletion fid => Sys2Proof.Machine.execGleanCompletion fid s
  | .leaseGrant eng => Sys2Proof.Machine.execLeaseGrant eng s
  | .matrixCommandStart fid => Sys2Proof.Machine.execMatrixCommandStart fid s
  | .mmoCompletion fid => Sys2Proof.Machine.execMmoCompletion fid s
  | .drainCompletion fid => Sys2Proof.Machine.execDrainCompletion fid s
  | .addOnStore fid line => Sys2Proof.Machine.execAddOnStore fid line s
  | .flush die core entry => Sys2Proof.Machine.execFlush die core entry s
  | .merge fid => Sys2Proof.Machine.execMerge fid s
  | .stage fid => Sys2Proof.Machine.execStage fid s
  | .reseedRequest fid => Sys2Proof.Machine.execReseedRequest fid s
  | .epochNotice fid => Sys2Proof.Machine.execEpochNotice fid s
  | .fold fid => Sys2Proof.Machine.execFold fid s
  | .rayCompletion fid lane => Sys2Proof.Machine.execRayCompletion fid lane s
  | .textureCompletion fid => Sys2Proof.Machine.execTextureCompletion fid s
  | .chunk fid => Sys2Proof.Machine.execChunk fid s
  | .hgsAdd fid => Sys2Proof.Machine.execHgsAdd fid s
  | .recordArrival fid => Sys2Proof.Machine.execRecordArrival fid s
  | .dispatch die => Sys2Proof.Machine.execDispatch die s
  | .batchArrival fid => Sys2Proof.Machine.execBatchArrival fid s
  | .draw fid => Sys2Proof.Machine.execDraw fid s
  | .weightReturn fid => Sys2Proof.Machine.execWeightReturn fid s
  | .dependenceMet launch => Sys2Proof.Machine.execDependenceMet launch s
  | .flock => Sys2Proof.Machine.execFlock s
  | .notify v => Sys2Proof.Machine.execNotify v s
  | .evhead v => Sys2Proof.Machine.execEvhead v s
  | .go => Sys2Proof.Machine.execGo s
  | .registerWrite off v => Sys2Proof.Machine.execRegisterWrite off v s
  | .launch => Sys2Proof.Machine.execLaunch s
  | .ctxload => Sys2Proof.Machine.execCtxload s
  | .ctxsave => Sys2Proof.Machine.execCtxsave s
  | .ctxreset => Sys2Proof.Machine.execCtxreset s
  | .nopCmd => Sys2Proof.Machine.execNopCmd s
  | .attest => Sys2Proof.Machine.execAttest s
  | .commandRefetch => Sys2Proof.Machine.execCommandRefetch s
  | .eventRingResume => Sys2Proof.Machine.execEventRingResume s
  | .packageReset => Sys2Proof.Machine.execPackageReset s
  | .tickBoundary => Sys2Proof.Machine.execTickBoundary s
  | .markerArrival pkg tick => Sys2Proof.Machine.execMarkerArrival pkg tick s
  | .tickExchangeStalled pkg => Sys2Proof.Machine.execTickExchangeStalled pkg s
  | .timeBaseOutOfBound off => Sys2Proof.Machine.execTimeBaseOutOfBound off s
  | .stationPowerDown st => Sys2Proof.Machine.execStationPowerDown st s
  | .wake st => Sys2Proof.Machine.execWake st s
  | .linkDown link => Sys2Proof.Machine.execLinkDown link s
  | .controlPacketDropped die unit num ps => Sys2Proof.Machine.execControlPacketDropped die unit num ps s
  | .correctedError u => Sys2Proof.Machine.execCorrectedError u s
  | .errorWindow => Sys2Proof.Machine.execErrorWindow s
  | .uncorrectableError e => Sys2Proof.Machine.execUncorrectableError e s
  | .scrub die bank => Sys2Proof.Machine.execScrub die bank s
  | .frequencyChange island n => Sys2Proof.Machine.execFrequencyChange island n s
  | .powerCap exceeded powers => Sys2Proof.Machine.execPowerCap exceeded powers s
  | .thermalLimit island => Sys2Proof.Machine.execThermalLimit island s
  | .hostAccess pa len bytes => Sys2Proof.Machine.execHostAccess pa len bytes s
  | .rowCopy die bank row => Sys2Proof.Machine.execRowCopy die bank row s

end Sys2Proof.Machine
end

