-- ==== Sys2Proof/Machine/Schedule.lean ====
section
/-!
DEFINITION. What stands around one instruction or event: instruction fetch (R59, R60, R78), what holds a wave back (R53, R132, R158,
R163, R217), steering and issue (R44 to R50), the bookkeeping of forks (R127, R129, R134), of the spin detector (R39) and of replaced
code (R60), and the events that may come next (log 2).
-/
namespace Sys2Proof.Machine

/-! ### Fetch -/

/-- A byte of code as a launch executes it: what stood there when it started, where a launch that had not completed then has stored since
(R60; log 34). -/
def codeByte (s : State) (num pa : Nat) (b : Byte) : Byte :=
  match s.code.find? (fun e => e.pa == pa && (e.writer.isSome || e.seers.contains num)) with
  | some e => e.old
  | none => b

/-- One instruction word at a virtual address, once its page has passed translation and execute permission (R60). -/
def fetchWord (s : State) (w : Wave) (va : W64) : Except LaneFault (List Byte) :=
  (checkPage s w.asid false .fetch va.toNat 4).map (fun r => (memBytes s.mem r.1 4).mapIdx (fun i b => codeByte s w.launch (r.1 + i) b))

/-- A number of instruction words from an address upwards. -/
def fetchWords (s : State) (w : Wave) : Nat → W64 → Except LaneFault (List Byte)
  | 0, _ => .ok []
  | n + 1, va =>
    match fetchWord s w va with
    | .error e => .error e
    | .ok bs => (fetchWords s w n (va + 4)).map (fun r => bs ++ r)

/-- The bytes of the instruction at the current gang's PC: word 0 gives the length (R59). -/
def fetch (s : State) (w : Wave) : Except LaneFault (List Byte) :=
  match fetchWord s w (gpc w) with
  | .error e => .error e
  | .ok bs => (fetchWords s w (instrWords (leNat bs) - 1) (gpc w + 4)).map (fun r => bs ++ r)

/-- Lanes of ILLEGAL for words that decode to no instruction: on the vector side those whose guard field selects them, in an extended
form; else those of the running parts (R78, R146; log 16). -/
def badLanes (w : Wave) (bs : List Byte) : List Nat :=
  let w0 := leNat (bs.take 4)
  let w2 := leNat ((bs.drop 8).take 4)
  let op := field w0 29 23
  let vec := if 0x31 ≤ op ∧ op ≤ 0x41 then op == 0x32 || (op == 0x34 && w0 % 4 == 0) else !(op == 0x7F) && !(w0 % 4 == 2)
  if bitAt w0 30 && vec then (runLanes w).filter (fun l => rdK w (field w2 22 20) l != bitAt w2 23) else runLanes w

/-- The wave with the next sequential address of an instruction of so many words. -/
def issuing (w : Wave) (words : Nat) : Wave := { w with npc := gpc w + BitVec.ofNat 64 (4 * words) }

/-! ### What holds a wave back -/

/-- A wave inside an acquire, about to be saved, or inside a write of the carve-out executes nothing; a shadow is held with its home, and
one that has stopped stays so (R132, R133, R158, R163, R217). -/
def waveHeld (s : State) (w : Wave) : Bool :=
  w.blocked.isSome || w.saveReq.isSome || carving s w ||
  (match w.fork with
   | some f => f.stopped || (match findWave s f.home with | some h => h.saveReq.isSome | none => true)
   | none => false)

/-- Something is due before the wave's next instruction: deferred causes, the end of a wait for `live`, the release of a `regang`, a
demotion, a swap of parts (R36, R40, R112, R148, R158). What is steered issues first. -/
def due (s : State) (w : Wave) : Bool :=
  let x := { w with viq := [] }
  delivers s x || timesOut s x || regangOver s w || demotes x || (gang w).any (swaps x)

/-- A register as operations in flight name it (R147). -/
def bankRef (w : Wave) (r : RegRef) : RegRef := match r with | .s n => .s (bankKey w n) | r => r

/-- The scoreboard (R53): a register of the instruction still awaits an older result, from an operation in flight or through the return
queue (R46). -/
def regsWait (s : State) (w : Wave) (i : Instr) : Bool :=
  (i.reads ++ i.writes).any (fun r => (awaitedRegs s w).contains (bankRef w r) || w.retq.any (fun e => e.regs.contains (bankRef w r)))

/-- Fork depth in a continuation: for the deepest slice of its current gang, the forks up to its own in which the slice is home (R124,
R137). -/
def forkDepth (s : State) (x : Wave) (f : Fork) : Nat :=
  ((gang x).map (fun i => (shadowsOf s f.home (fun y g => decide (y.uid ≤ x.uid) && g.slices.contains i)).length)).foldl max 0

/-- A vector register that the shadow was not given (R129). The other registers of a return register's group outside LIVE are not given
either: R124 counts the group, and R127 copies the LIVE groups and the predicted registers (log 102). -/
def unsupplied (f : Fork) (r : RegRef) : Bool :=
  match r with
  | .v n => !(f.groups.contains (n / 8)) && !(f.pred.any (fun p => p.1 == n))
  | _ => false

/-- Speculation barriers by kind of instruction (R132); causes, full tables and page types are met where they arise. -/
def forkBars (s : State) (x : Wave) (f : Fork) (i : Instr) : Bool :=
  match i with
  | .atom _ | .red _ | .fence _ _ _ | .wait _ _ _ _ _ _ | .barInit _ | .barArr _ | .barExp _ | .barWait _ | .ldp _ | .stp _
  | .estAdd _ | .estMrg _ | .estLd _ | .estClr _ | .trace _ | .tget _ | .hgf _ | .hgs _ | .tex _ | .tld _
  | .spawn _ | .amsg _ | .enq _ | .deq _ _ _ _ | .dlaunch _ | .done _ | .shfl _ | .vote _ | .gred _ | .gscan _
  | .regang _ | .exit _ | .fsync _ | .trap _ | .xret _ | .xclr _ | .cfgr _ | .cfgw _ | .live _ | .tlbi _ | .sets _ => true
  | .ld o | .ldu o | .lds o | .st o | .stu o | .sts o => !(o.ord == .rlx)
  | .gets o => o.a == 0x0D
  | .ret _ => decide ((gangPart x (gang x)).rets.length ≤ f.depth)
  | .fcall _ _ _ _ _ _ => decide (3 ≤ forkDepth s x f)
  | i => i.copOk.isSome
def shadowBarred (s : State) (x : Wave) (i : Instr) : Bool :=
  match x.fork with
  | none => false
  | some f => forkBars s x f i || (i.reads ++ i.writes).any (unsupplied f)

/-! ### The wave that moves -/

/-- Instructions that name memory, scratchpad, a peer, an estimator page or a ray, `brv`, and a read that may wait or fault: nothing younger
of the wave is steered until they have issued (R46, R50, R91). -/
def stops (i : Instr) : Bool :=
  match i with
  | .ld _ | .st _ | .lds _ | .sts _ | .ldp _ | .stp _ | .pf _ | .atom _ | .red _ | .estAdd _ | .estMrg _ | .estLd _ | .estClr _
  | .trace _ | .tget _ | .hgf _ | .hgs _ | .tex _ | .tld _ | .brv _ _ _ _ => true
  | .gets o => o.a == 0x0D || specialPriv o.a
  | _ => false

/-- The wave as a queued instruction finds it. -/
def queuedView (w : Wave) (e : VEnt) : Wave :=
  { w with
    slices := e.slices, path := [e.gang], cur := 0, npc := e.npc, s := e.s, hs := e.hs, q := e.q, trap := { w.trap with h := e.h }
    viq := [], retq := [] }

/-- Home slices that have not come home, of forks whose `ret` a gang waits at. -/
def unreturned (s : State) (w : Wave) : List Nat :=
  s.waves.flatMap (fun x => match x.fork with
    | some f => if f.home == w.uid && f.returned.any (fun k => (gang w).contains k) then f.slices.filter (fun k => !f.returned.contains k) else []
    | none => [])

/-- The wave as it moves: a gang that waits gives way to the next one that does not (R32), one held at a `ret` only to gangs whose home
slices its forks await (R134, R139; log 96); at the boundary, parts unite and gangs merge (R33, R112). -/
def ready (s : State) (w : Wave) : Wave :=
  let w1 :=
    if (gang w).any (fun k => (sliceAt w k).atRet) then
      (match (List.range w.path.length).find? (fun i => (w.path.getD i []).any (fun k => (unreturned s w).contains k) && !gangWaits w (w.path.getD i [])) with
       | some i => { w with cur := i }
       | none => w)
    else if (gang w).isEmpty || gangWaits w (gang w) then giveWay w
    else w
  if gangWaits w1 (gang w1) then w1 else settle w1

/-- An instruction issues on what was captured of its wave (R44). -/
def onView (s : State) (w : Wave) : Bool :=
  match s.turn, w.viq with
  | .issue _, e :: r => !(stops e.instr && r.isEmpty)
  | _, _ => false

/-- The wave as the instruction of this step finds it. -/
def acting (s : State) (w : Wave) : Wave :=
  match s.turn, w.viq with
  | .issue _, e :: r => if stops e.instr && r.isEmpty then w else queuedView w e
  | .wave _, _ => ready s w
  | _, _ => w

/-! ### Bookkeeping of forks -/

/-- Registers an instruction of the home slices writes count against the read sets of their forks (R134). -/
def noteHome (t : State) (old : Wave) (i : Instr) : State := if old.fork.isSome || !takesEffect old i then t else noteWrites t old i.writes

/-- A register of the home slices that an operation outstanding at the fork has written now reaches the shadow's copy (R127). -/
def landReg (home x : Wave) (f : Fork) (r : RegRef) : Wave :=
  match r with
  | .v n => if unsupplied f r then x else (sliceLanes f.slices).foldl (fun y l => wrV y l n (rdV home l n)) x
  | .s n => wrBank x n (if 64 ≤ n then stGet 0 (n - 64) home.hs else stGet 0 n home.s)
  | _ => x

/-- Such registers of one shadow: awaited before the step, and no longer after it. -/
def landShadow (s t : State) (x : Wave) : Wave :=
  match x.fork with
  | none => x
  | some f =>
    match findWave t f.home with
    | none => x
    | some home => ((awaitedRegs s x).filter (fun r => !(awaitedRegs t x).contains r)).foldl (fun y r => landReg home y f r) x

/-- An instruction writes a v or k register in some lanes of the fork only: the others keep what they held (log 31). -/
def partialWrite (x : Wave) (f : Fork) (i : Instr) : Bool :=
  !((sliceLanes f.slices).all (fun l => (guardLanes x i).contains l))

/-- Registers kept per lane. -/
def laneRef (r : RegRef) : Bool := match r with | .v _ | .k _ => true | _ => false

/-- Registers of an instruction that the continuation reads before writing them (R129). -/
def forkReads (x : Wave) (f : Fork) (i : Instr) : List RegRef :=
  let rs := if !takesEffect x i then i.guardRefs else i.reads ++ (if partialWrite x f i then i.writes.filter laneRef else [])
  rs.filter (fun r => !f.wrote.contains r)

/-- Uniform registers among some. -/
def uniRefs (rs : List RegRef) : List RegRef := rs.filter (fun r => match r with | .s _ | .q _ => true | _ => false)

/-- A shadow steered an instruction: its uniform operands are captured, and so read, now (R44, R129). -/
def noteSteer (x : Wave) (i : Instr) : Wave :=
  { x with fork := x.fork.map (fun f => { f with rset := addRefs f.rset ((uniRefs i.reads).filter (fun r => !f.wrote.contains r)) }) }

/-- A shadow executed an instruction: its read set and its written registers (R129). -/
def noteShadow (x : Wave) (i : Instr) (y : Wave) : Wave :=
  match y.fork with
  | none => y
  | some f =>
    let ws := if takesEffect x i then i.writes else []
    { y with fork := some { f with rset := addRefs f.rset (forkReads x f i), wrote := addRefs f.wrote ws } }

/-! ### Bookkeeping of the spin detector (R39) -/

/-- Operations that make an iteration not idle. -/
def spinOps (i : Instr) : Bool :=
  match i with
  | .st _ | .stu _ | .sts _ | .stp _ | .atom _ | .red _ | .estAdd _ | .estMrg _ | .estLd _ | .estClr _ | .spawn _ | .amsg _ | .enq _ => true
  | i => i.copOk.isSome

/-- Branches that may be taken backwards (R105, R108). -/
def isBranch (i : Instr) : Bool :=
  match i with | .br _ _ _ _ | .brv _ _ _ _ | .jmp _ _ | .bri _ _ _ _ | .call _ _ | .fcall _ _ _ _ _ _ => true | _ => false
/-- Instructions after which a path goes on elsewhere without a branch of R39. -/
def leavesPath (i : Instr) : Bool :=
  match i with
  | .ret _ | .regang _ | .exit _ | .done _ | .xret _ => true
  | i => i.isEvent

/-- Vector registers and predicates of a slice. -/
def sliceRegs (w : Wave) (k : Nat) : Store W32 × List Nat :=
  (w.v.filter (fun x => x.1 / 1024 == k), w.k.map (fun x => x.2.toNat / 2 ^ (4 * k) % 16 + 16 * x.1))

/-- Slices of a wave whose iteration did something: a register changed, `mine` for a register of the wave, or `did` an operation. -/
def markBusy (old new : Wave) (mine did : List Nat) : Wave :=
  let uni := !(old.s == new.s) || !(old.hs == new.hs) || !(old.q == new.q)
  { new with slices := new.slices.mapIdx (fun k sl =>
      if (uni && mine.contains k) || did.contains k || !(sliceRegs old k == sliceRegs new k) then { sl with busy := true } else sl) }

/-- Slices of the gang with a lane for which the instruction performs an operation of R39. -/
def spinSlices (old : Wave) (i : Instr) : List Nat :=
  if spinOps i then (gang old).filter (fun k => (sliceAt old k).run.lanes.any (fun l => (guardLanes old i).contains l)) else []

/-- A slice has gone back: by a taken branch of its gang, or by a back-edge at an instruction of its gang or at a `regang` that it goes past: as
the last to arrive, as one that waited, at the release, or when the end of the last other slice lets it go on (R35 to R37, R39, R117). -/
def goesBack (i : Instr) (old : Wave) (k : Nat) (n : Slice) : Bool :=
  let o := sliceAt old k
  let past : Bool := n.atRegang.isNone && n.parked == o.parked && !(n.run == o.run)
  n.live && decide (n.run.pc.toNat ≤ o.run.pc.toNat) &&
  (match i with
   | .regang _ | .regangRelease _ => (o.atRegang.isSome || (gang old).contains k) && past
   | .exit _ | .done _ => o.atRegang.isSome && past
   | _ => (gang old).contains k && (isBranch i || (!leavesPath i && !(n.run == o.run))))

/-- A slice's iteration ends at a taken backward branch or a back-edge. -/
def spinEnd (i : Instr) (old new : Wave) : Wave :=
  if old.trap.h == new.trap.h then
    { new with slices := new.slices.mapIdx (fun k sl =>
        if goesBack i old k sl then { sl with idle := if sl.busy then 0 else min (sl.idle + 1) 64, busy := false } else sl) }
  else new

/-- Flight an event is about. -/
def eventFlight (i : Instr) : Option Nat :=
  match i with
  | .loadCompletion f | .storeCompletion f | .gleanCompletion f | .matrixCommandStart f | .mmoCompletion f | .drainCompletion f
  | .copyCommandStart f | .copyPartCompletion f _ | .addOnStore f _ | .hgsAdd f | .chunk f | .textureCompletion f | .rayCompletion f _ => some f
  | _ => none

/-- Wave and slices an instruction or event acts for. -/
def actor (s : State) (i : Instr) : Nat × List Nat :=
  match s.turn with
  | .wave uid | .issue uid => (uid, match findWave s uid with | some w => gang (acting s w) | none => [])
  | _ =>
    match (eventFlight i).bind (findFlight s) with
    | some f => (f.who.uid, whoSlices f.who)
    | none => (0, [])

/-- A branch that is taken, which may lead to itself. -/
def branches (s : State) (w : Wave) (i : Instr) : Bool :=
  match i with
  | .br _ _ _ _ | .brv _ _ _ _ | .jmp _ _ => true
  | .bri _ _ _ _ => !briWaits s w i
  | _ => false

/-- Whether a wave has executed the instruction it stood at: its control state, its trap state or its place in an acquire has changed, or
it stood at a branch. One that waits has not. -/
def executed (s : State) (i : Instr) (old new : Wave) : Bool :=
  branches s old i ||
  !(old.slices == new.slices) || !(old.path == new.path) || !(old.cur == new.cur) || !(old.trap == new.trap) ||
  !(old.blocked == new.blocked)

/-- Whether the wave of a step has executed its instruction; one that issues on what was captured always does. -/
def moves (s : State) (i : Instr) (w new : Wave) : Bool :=
  match s.turn with
  | .issue _ => onView s w || executed s i w new
  | .wave _ => executed s i (acting s w) new
  | _ => false

/-- The wave whose turn it is has executed its instruction, or is gone with it. -/
def acted (s : State) (i : Instr) (t : State) : Bool :=
  match findWave s (actor s i).1, findWave t (actor s i).1 with
  | some w, some new => moves s i w new
  | some _, none => true
  | none, _ => false

/-- A step that ran no instruction has all the same steered one, or raised a cause in its place. -/
def steers (s t : State) : Bool :=
  match s.turn with
  | .wave uid | .steer uid =>
    (match findWave s uid, findWave t uid with
     | some w, some x => decide (w.viq.length < x.viq.length) || !(w.trap == x.trap)
     | some _, none => true
     | none, _ => false)
  | _ => false

/-- Cycles since the first and the newest of a wave's `yield`s that are not spent. -/
def yieldAge (s : State) (w : Wave) : Option (Nat × Nat) :=
  w.yielding.map (fun y => (cyclesSince s w.die w.core y.1, cyclesSince s w.die w.core y.2))

/-- A wave that issues counts as the one that issued last again, but for a `yield` of this cycle (R211); under round-robin its `yield` is
spent at a choice only. -/
def yieldAfter (s : State) (w : Wave) : Option (Nat × Nat) :=
  if launchRr s w then w.yielding else match yieldAge s w with | some (_, 0) => w.yielding.map (fun y => (y.2, y.2)) | _ => none

/-- Everything noted of a wave after a step of the machine: busy slices, ends of iterations, the shadow's registers, when it was chosen, and
the release timer of waiting siblings, which starts again (R36). A register that a load or a queued instruction writes counts in the
iteration that runs when it is written; R39 does not say which (log 103). -/
def noteWave (i : Instr) (s : State) (new : Wave) : Wave :=
  match findWave s new.uid with
  | none => new
  | some w =>
    let a := actor s i
    let here := a.1 == new.uid
    let old := acting s w
    let moved := here && moves s i w new
    let w1 := markBusy w new (if here then a.2 else []) (if moved then spinSlices old i else [])
    if moved then
      let w2 := noteShadow old i (if onView s w then w1 else spinEnd i old w1)
      { w2 with
        dchosen := match s.turn with | .issue _ => w2.dchosen | _ => coreClock s new.die new.core
        chosen := if i.vecGuard then coreClock s new.die new.core else w2.chosen
        yielding := match s.turn with | .issue _ => yieldAfter s w2 | _ => w2.yielding
        regangFrom := w2.regangFrom.map (fun _ => coreClock s new.die new.core) }
    else
      match i with
      | .regangRelease uid => if uid == new.uid then spinEnd i w w1 else w1
      | _ => w1

/-! ### Replaced code (R60) -/

/-- Launch whose store a step performs; a host's write has none. -/
def codeWriter (s : State) (i : Instr) : Option Nat :=
  match s.turn, i with
  | .wave uid, _ | .issue uid, _ => (findWave s uid).map (fun w => w.launch)
  | _, .lazyWriteBack die core => (lazyHead (coreAt s die core)).map (fun e => e.who.launch)
  | _, i => (eventFlight i).bind (fun fid => (findFlight s fid).map (fun f => f.who.launch))

/-- Bytes that differ, with what they were. -/
def replacedBytes (m n : Mem) : List (Nat × Byte) :=
  m.filter (fun c => !(memGet n c.1 == c.2)) ++
  (n.filter (fun c => memGet m c.1 == unlistedByte)).map (fun c => (c.1, unlistedByte))

/-- Launches under way, which execute the code they found (R60). -/
def startedLaunches (s : State) : List Nat := (s.launches.filter (fun l => l.begun && !l.complete)).map (fun l => l.num)
def launchRuns (s : State) (num : Nat) : Bool := (startedLaunches s).contains num

/-- Entries when time goes on: a writer that has completed leaves its old bytes to the launches that started before, and nobody's are
forgotten. -/
def ageCode (s : State) (es : List CodeEnt) : List CodeEnt :=
  (es.map (fun e => match e.writer with
    | some l => if launchRuns s l then e else { e with writer := none, seers := startedLaunches s }
    | none => { e with seers := e.seers.filter (launchRuns s) })).filter (fun e => e.writer.isSome || !e.seers.isEmpty)

/-- The old bytes of what a step has stored are kept. -/
def noteCode (i : Instr) (s t : State) : State :=
  let new := match codeWriter s i with
    | some l => if launchRuns s l then
        ((replacedBytes s.mem t.mem).filter (fun p => !s.code.any (fun e => e.pa == p.1 && e.writer == some l))).map
          (fun p => ({ pa := p.1, old := p.2, writer := some l, seers := [] } : CodeEnt))
      else []
    | none => []
  { t with code := ageCode t (s.code ++ new) }

/-! ### Notes after a step -/

/-- Loop stations that flights which start, go on or end meet: the source's quad and the home quads, those of the release records that go
with it among them (R223, R390, R391; log 104). -/
def flightStations (s : State) (f : Flight) : List Nat :=
  let home (pa : Nat) : Option Nat := if isMain pa || isWeight pa then some (homeQuad pa) else none
  quadOf f.who.die f.who.core :: (actAccs f.act).filterMap (fun x => match x.1.loc with
    | .mem pa => home pa
    | .pad _ _ => none) ++ (releaseRanges s f).filterMap (fun r => home r.1)

/-- Station of the core that an instruction runs on, or that writes a lazy release back. -/
def ownStation (s : State) (i : Instr) : List Nat :=
  match i with
  | .lazyWriteBack die core => [quadOf die core]
  | _ => ((findWave s (actor s i).1).map (fun w => quadOf w.die w.core)).toList

/-- Flits keep a station on, or wake it: those of the flights, and those of the slices that were accessed with those of the core that
accessed them (R391). -/
def touchStations (i : Instr) (s t : State) : State :=
  let started := t.flights.filter (fun f => match findFlight s f.id with | some g => !(g.act == f.act) | none => true)
  let ended := s.flights.filter (fun f => (findFlight t f.id).isNone)
  let qs := (t.quads.filter (fun q => !(q.2.flit == (quadAt s q.1).flit))).map (fun q => q.1)
  (started.flatMap (flightStations t) ++ ended.flatMap (flightStations s) ++ qs ++ (if qs.isEmpty then [] else ownStation s i)).foldl (fun st q => putStation st q { last := st.time, down := false }) t

/-- Every lasting core that has no wave left gives its place to a spare (R409). -/
def swapSpares (s : State) : State :=
  (s.cores.filter (fun c => c.2.lasting)).foldl (fun st c => swapSpare st (c.1 / 128) (c.1 % 128)) s

/-- Trainings of the predictor whose registers have come take place (R126). -/
def settleAllTrains (s : State) : State :=
  ((s.waves ++ s.ghosts).filter (fun w => !w.trains.isEmpty)).foldl (fun st w => settleTrains st w.uid) s

/-- Notes after an instruction or event. -/
def noteAll (i : Instr) (s t : State) : State :=
  let t1 := { t with waves := t.waves.map (noteWave i s) }
  let t2 := { t1 with waves := t1.waves.map (landShadow s t1) }
  let a := actor s i
  let t3 := match findWave s a.1, findWave t a.1 with
    | some w, some new => if moves s i w new then noteHome t2 (acting s w) i else t2
    | _, _ => t2
  swapSpares (touchStations i s (noteCode i s (settleAllTrains t3)))

/-! ### The plan of a step -/

/-- What a step does: only a change of its own, or an instruction or event on a state. -/
inductive Plan where
  | only (s : State)
  | run (i : Instr) (s : State)
deriving DecidableEq, Repr

/-- Translations of the instruction's first and last word are cached (R173). -/
def fetchFill (s : State) (w : Wave) (n : Nat) : State :=
  tlbFill (tlbFill s w.asid (gpc w).toNat) w.asid (gpc w + BitVec.ofNat 64 (n - 4)).toNat

/-- The drill has steered the instruction the current gang stands at. -/
def steered (w : Wave) : Bool := match w.viq.getLast? with | some e => stops e.instr | none => false

/-- The instruction goes through the VIQ: a vector instruction of a wave, or of a shadow, which has a VIQ of its own (R43, R44, R128). -/
def queues (i : Instr) : Bool := i.vecGuard && !(match i with | .bri _ _ _ _ => true | _ => false)

/-- Drill instructions that wait until every older vector instruction has issued (R47, R127, R134, R141, R381), or read what those write. Of
calls and returns it is an `fcall` that would fork and a `ret` that ends a fork (log 105). -/
def waitsIssue (s : State) (w : Wave) (i : Instr) : Bool :=
  match i with
  | .wait _ _ _ _ _ _ | .fence _ _ _ | .barInit _ | .barArr _ | .barExp _ | .barWait _ | .exit _ | .done _ | .regang _ | .trap _ | .xret _
  | .live _ | .tlbi _ | .cfgw _ | .sets _ | .dlaunch _ => true
  | .ret _ => !(endingSlices s w).isEmpty
  | .fcall _ _ lv rc rva rvb =>
    (freeCtx s w.die w.core (w.wctx / 16)).isSome && forkOk s w lv { pc := gpc w, rc := rc, rva := rva, rvb := rvb }
  | .ldu o | .stu o => !(o.ord == .rlx)
  | .atom o | .red o => !(o.ord == .rlx)
  | .bri _ vec _ _ => vec
  | .gets o => o.a == 0x0D
  | _ => false

/-- What is queued leaves the drill free to execute an instruction at once. -/
def drillFree (s : State) (w : Wave) (i : Instr) : Bool := w.viq.isEmpty || (!i.vecGuard && !waitsIssue s w i)

/-- The wave has no next instruction to look at. -/
def noTurn (s : State) (w : Wave) : Bool := waveHeld s w || due s w || (gang w).isEmpty || gangWaits w (gang w) || steered w

/-- Fetch and decode at the wave's PC; a failure is taken once what is steered has issued. -/
def fetched (s : State) (w : Wave) (k : Instr → List Byte → Plan) : Plan :=
  match fetch s w with
  | .error e =>
    if w.viq.isEmpty then .only (raiseLanes (putWave s (issuing w 1)) (issuing w 1) ((runLanes w).map (fun l => (l, e)))) else .only s
  | .ok bs =>
    match decode bs with
    | .error _ =>
      let w1 := issuing w (bs.length / 4)
      if w.viq.isEmpty then .only (raiseIllegal (putWave (fetchFill s w bs.length) w1) w1 (badLanes w bs)) else .only s
    | .ok (i, _) => k i bs

/-- A wave's turn: fetch, decode, and what may hold the instruction back. A continuation stops before a barrier (R132). -/
def planWave (s : State) (w : Wave) : Plan :=
  if noTurn s w then .only s
  else fetched s w (fun i bs =>
    if shadowBarred s w i then .only (stopShadow s w)
    else if regsWait s w i || !drillFree s w i then .only s
    else .run i (putWave (fetchFill s w bs.length) (issuing w (bs.length / 4))))

/-! ### Steering and issue (R44 to R50) -/

/-- The instruction's value comes back through the return queue (R46). -/
def feeds (i : Instr) : Bool := (match i with | .brv _ _ _ _ => true | _ => false) || !(uniRefs i.writes).isEmpty

/-- The VIQ of 32 entries or the return queue of 8 has no place for the instruction, or a uniform operand is still awaited (R44, R46). -/
def steerWaits (s : State) (w : Wave) (i : Instr) : Bool :=
  decide (32 ≤ w.viq.length) || (feeds i && decide (8 ≤ w.retq.length)) ||
  (uniRefs i.reads).any (fun r => (awaitedRegs s w).contains (bankRef w r) || w.retq.any (fun e => e.regs.contains (bankRef w r)))

/-- An instruction with its uniform operands captured (R44). -/
def capture (w : Wave) (i : Instr) : VEnt :=
  { instr := i, gang := gang w, slices := w.slices, npc := w.npc, s := w.s, hs := w.hs, q := w.q, h := w.trap.h }

/-- The drill's turn for a vector instruction: it is written into the VIQ and the path goes on, unless nothing younger may be steered. -/
def planSteer (s : State) (w : Wave) : Plan :=
  if noTurn s w then .only s
  else fetched s w (fun i bs =>
    if !queues i || !legal s w i || steerWaits s w i then .only s
    else if shadowBarred s w i then .only (stopShadow s w)
    else
      let w1 := issuing w (bs.length / 4)
      let w2 := { w1 with
        viq := w1.viq ++ [capture w1 i]
        retq := if feeds i then w1.retq ++ [{ regs := (uniRefs i.writes).map (bankRef w1) }] else w1.retq
        dchosen := coreClock s w.die w.core }
      .only (putWave (fetchFill s w bs.length) (noteSteer (if stops i then w2 else spinEnd i w (goSeq w2)) i)))

/-- The scoreboard for a queued instruction, whose uniform operands are captured. -/
def queuedWaits (s : State) (w : Wave) (e : VEnt) : Bool :=
  let v := queuedView w e
  (e.instr.reads.filter laneRef ++ e.instr.writes).any (fun r => (awaitedRegs s w).contains (bankRef v r))

/-- The oldest queued instruction issues: on the wave itself when it stands at it, else on what was captured. -/
def planIssue (s : State) (w : Wave) : Plan :=
  match w.viq with
  | [] => .only s
  | e :: r =>
    if w.blocked.isSome || regangOver s w || queuedWaits s w e then .only s
    else if stops e.instr && r.isEmpty then .run e.instr (putWave s { w with npc := e.npc, viq := [], retq := [] })
    else .run e.instr (putWave s (queuedView w e))

/-- A uniform register that a queued instruction has written. -/
def takeUni (x : Wave) (w : Wave) (r : RegRef) : Wave :=
  match bankRef x r with
  | .s n => wrBank w n (if 64 ≤ n then stGet 0 (n - 64) x.hs else stGet 0 n x.s)
  | .q n => wrQ w n (rdQ x n)
  | _ => w

/-- What a queued instruction leaves of its view: vector registers, predicates, flags, and the uniform registers it has written. -/
def mergeIssue (s : State) (w x : Wave) (e : VEnt) : Wave :=
  let w1 := { w with
    v := x.v, k := x.k, fpflags := x.fpflags, viq := w.viq.drop 1, trains := trainsAfter w.trains, chosen := coreClock s w.die w.core
    retq := if feeds e.instr then w.retq.drop 1 else w.retq
    regangFrom := w.regangFrom.map (fun _ => coreClock s w.die w.core) }
  if takesEffect (queuedView w e) e.instr then (uniRefs e.instr.writes).foldl (takeUni x) w1 else w1

/-- The wave after a queued instruction: executed on its view, or at its place; one there that has only prepared its turn stays queued. -/
def endIssue (s u : State) : State :=
  match s.turn with
  | .issue uid =>
    match findWave s uid, findWave u uid with
    | some w, some x =>
      (match w.viq with
       | e :: r =>
         if !(stops e.instr && r.isEmpty) then putWave u (mergeIssue s w x e)
         else if executed s e.instr w x then putWave u { x with trains := trainsAfter x.trains }
         else putWave u { x with viq := w.viq, retq := w.retq }
       | [] => u)
    | _, _ => u
  | _ => u

/-- What the step of a state does. -/
def plan (s : State) : Plan :=
  match s.turn with
  | .idle | .pass _ _ _ => .only s
  | .event i => .run i s
  | .wave uid => match findWave s uid with | none => .only s | some w => planWave s (ready s w)
  | .steer uid => match findWave s uid with | none => .only s | some w => planSteer s (ready s w)
  | .issue uid => match findWave s uid with | none => .only s | some w => planIssue s w

/-! ### Who moves next -/

/-- Events that an operation in flight may bring. -/
def flightEvents (f : Flight) : List Instr :=
  match f.act with
  | .nop => if f.held then [] else if f.cls == some .ld then [.loadCompletion f.id] else [.storeCompletion f.id]
  | .load _ _ _ _ | .atom (some _) _ _ _ _ _ | .estLd _ _ _ _ _ => [.loadCompletion f.id]
  | .store _ _ | .rel | .atom none _ _ _ _ _ | .estClr _ | .region _ _ _ _ _ _ => [.storeCompletion f.id]
  | .bar _ _ _ => [.barrierOperation f.id]
  | .merge _ _ _ _ => [.merge f.id]
  | .stage _ => [.stage f.id]
  | .reseed _ _ _ _ => [.reseedRequest f.id]
  | .notice _ _ _ _ => [.epochNotice f.id]
  | .fold _ _ _ => [.fold f.id]
  | .tile _ _ => [.copyCommandStart f.id]
  | .copy c => if c.started then c.todo.map (fun p => .copyPartCompletion f.id p) else [.copyCommandStart f.id]
  | .glean g => if g.started then [.gleanCompletion f.id] else [.copyCommandStart f.id]
  | .matrix m =>
    if m.started then
      (match m.fn with
       | .mmo _ _ _ _ _ _ => [.mmoCompletion f.id]
       | .drain _ true none addr stride _ _ =>
         .drainCompletion f.id :: ((m.out.map (fun w => (drainAddr m addr stride w.1).toNat / 256)).eraseDups.map (fun l => .addOnStore f.id l))
       | _ => [.drainCompletion f.id])
    else match m.fn with | .lease true _ => [.leaseGrant m.eng] | _ => [.matrixCommandStart f.id]
  | .trace c =>
    if c.rays.isEmpty && c.out.isEmpty then [.rayCompletion f.id 0]
    else (c.rays.map (fun x => .rayCompletion f.id x.1)) ++ c.out.map (fun x => .rayCompletion f.id x.1)
  | .tex c => if c.fn == .hgs then [.chunk f.id] else [.chunk f.id, .textureCompletion f.id]
  | .hgsAdd _ _ _ _ => [.hgsAdd f.id]
  | .record _ _ _ => [.recordArrival f.id]
  | .batch _ _ _ _ => [.batchArrival f.id]
  | .wreturn _ _ => [.weightReturn f.id]
  | .draw _ _ _ => [.draw f.id]

/-- Events of a wave; the choice of a starved one is its slot's (R42). -/
def waveEvents (w : Wave) : List Instr :=
  (if w.regangFrom.isSome then [.regangRelease w.uid] else []) ++
  (if demotes w then [.gangDemotion w.uid] else []) ++
  (((gang w).filter (swaps w)).map (fun i => .partSwap w.uid i)) ++
  (if w.fork.isSome then [.forkResolution w.uid] else []) ++
  (if w.trap.held.isEmpty then [] else [.delivery w.uid]) ++
  (if w.preq.isSome then [.preemptionTimeout w.uid] else []) ++
  (if w.saveReq.isSome then [.save w.uid] else []) ++
  (if w.deqFrom.isSome then [.deqTimeout w.uid] else [])

/-- Events of a core. -/
def coreEvents (s : State) (key : Nat) (c : Core) : List Instr :=
  (if c.carve.isSome then [.carveChange (key / 128) (key % 128)] else []) ++
  (if (lazyHead c).isSome then [.lazyWriteBack (key / 128) (key % 128)] else []) ++
  ((c.ecb.mapIdx (fun i e => (i, e))).filter (fun p => decide (4096 ≤ cyclesSince s (key / 128) (key % 128) p.2.since))).map
    (fun p => .flush (key / 128) (key % 128) p.1)

/-- Events of the host interface: the command at CRHEAD, a context on its way in or out, waiting events, the boot exchange. -/
def hostEvents (s : State) : List Instr :=
  (if cmdDue s then [.launch, .ctxload, .ctxsave, .ctxreset, .nopCmd, .attest, .commandRefetch] else []) ++
  (if s.ctxs.any (fun c => c.phase == .saving) then [.ctxsave] else []) ++
  (if s.ctxs.any (fun c => c.phase == .resuming) then [.ctxload] else []) ++
  (if s.regs.events.isEmpty || !eventRoom s.regs then [] else [.eventRingResume]) ++
  (if s.regs.go && s.regs.req then [.go] else [])

/-- Events of the time base. -/
def timerEvents (s : State) : List Instr :=
  (if s.pod.boundary < tickNow s then [.tickBoundary] else []) ++
  (if s.errWindow < windowOf s then [.errorWindow] else []) ++
  ((s.pod.members.filter (fun p => !(p == s.pod.pkg) && !s.pod.lost.contains p)).map (fun p => .tickExchangeStalled p)) ++
  (((List.range 256).filter (fun q => !(stationAt s q).down && decide (160 ≤ s.time - (stationAt s q).last))).map (fun q => .stationPowerDown q)) ++
  ((List.range 8).flatMap (fun d => ((List.range 16).filter (fun b => inRefresh s.time b != (dieAt s d).refresh.contains b)).map
    (fun b => .refreshWindow d b))) ++
  (s.scrubs.map (fun x => .scrub (x.1 / 16) (x.1 % 16)))

/-- Events of the task engine. -/
def taskEvents (s : State) : List Instr :=
  (if s.launches.isEmpty then [] else (List.range 8).map (fun d => .dispatch d)) ++
  ((s.launches.filter (fun l => !l.begun && !l.complete)).map (fun l => .dependenceMet l.num)) ++
  (s.saved.map (fun x => .restore x.wave.uid))

/-- Events that may come next, and the oldest thing the outside world does. -/
def events (s : State) : List Instr :=
  s.inputs.take 1 ++ s.flights.flatMap flightEvents ++ s.waves.flatMap waveEvents ++
    s.cores.flatMap (fun c => coreEvents s c.1 c.2) ++ hostEvents s ++ timerEvents s ++ taskEvents s ++
    s.rowCopies.map (fun r => .rowCopy r.1 r.2.1 r.2.2)

/-- Time goes on by a free number of nanoseconds (log 5), and the free values are fresh ones. -/
def advance (s : State) : State := idleDeficits <| sweepGhosts { s with time := s.time + Config.pace s.draws, draws := s.draws + 1 }

/-- A host's write or atomic that waits for lazy releases stays first in the queue (R224). -/
def retries (s : State) (i : Instr) : Bool :=
  match i with
  | .hostAtomic _ pa size _ _ => lazyHit s pa size (fun _ => true)
  | .hostAccess pa _ bytes => !bytes.isEmpty && lazyHit s pa bytes.length (fun _ => true)
  | _ => false

/-! ### A program placed from outside (log 3) -/

/-- Where the placed program's page tables and its first instruction stand. -/
def placedRoot : Nat := 0x100000
def placedTable : Nat := 0x110000
def placedPc : Nat := 0x40000

/-- The footprint of the placed wave: everything one wave may have. -/
def placedFoot : Foot := { slices := 8, vregs := 256, spad := 65536, tiles := 64, forks := 3, mx := true }
def placedNode : Node :=
  { valid := true, sink := false, entry := BitVec.ofNat 64 placedPc, rerun := false, aff := false, foot := placedFoot, spill := 0,
    log2 := 0, cnt := 0 }
def placedCtx : Ctx :=
  { asid := 1, serial := 0, rx := false, root := placedRoot, regt := 0, nodet := 0, recn := 0, errn := 0, ncnt := 1, hbase := 0, savea := 0,
    savesz := 0, nodes := [placedNode], regions := [], phase := .resident }
def placedLaunch : Launch :=
  { num := 2 ^ 32, asid := 1, ctx := 0, host := true, parent := 0, rootDie := 0, node := 0, first := 0, count := 1, pq := false,
    part := [1, 0, 0, 0, 0, 0, 0, 0], rr := false, ixw := 0, priv := true, wsw := false, pers := false, ord := false, pri := 0,
    deps := [], pay := [], handler := 0, home := 2 ^ 63, link := 0, shares := [], others := [], dones := 1, begun := true, tree := 0,
    err := false, rst := false, refused := false, complete := false }
def placedRecord : Record :=
  { asid := 1, node := 0, launch := 2 ^ 32, depth := 0, weight := 2 ^ 63, quad := none, seq := some 0, pay := [], rerun := false,
    bypass := 0, avoid := none }

/-- A root entry, a 1 GiB leaf with every permission, and the instruction's bytes. -/
def placedMem (m : Mem) (bs : List Byte) : Mem :=
  memPut (memPutNat (memPutNat m placedRoot 8 (placedTable + 1)) placedTable 8 0x1F) placedPc bs

/-- A context, a launch and one wave at the program's first instruction; features are accepted; the wave moves next. -/
def placeProgram (s : State) (bs : List Byte) : State :=
  let w := newWave s 0 { core := 0, wctx := 0, vbase := 0, sbase := 0 } placedLaunch placedNode placedRecord 0
  { s with
    turn := .wave s.nextUid
    nextUid := s.nextUid + 1
    mem := placedMem s.mem bs
    tlb := s.tlb.filter (fun t => !(t.asid == 1))
    regs := { s.regs with flock := true, facc0 := featMask, booted := true, req := false }
    ctxs := placedCtx :: s.ctxs.filter (fun c => !(c.asid == 1))
    launches := placedLaunch :: s.launches.filter (fun l => !(l.num == 2 ^ 32))
    waves := w :: s.waves }

end Sys2Proof.Machine
end

