-- ==== Sys2Proof/Machine/Issue.lean ====
section
/-!
DEFINITION. Who moves next: the choices of the issue slots under the launch's policy, for vector issue and for the drill (R42, R51, R52,
R55, R209 to R211), the free choice among slots and events (log 2), and the end of a step.
-/
namespace Sys2Proof.Machine

/-! ### Readiness (R51, R210) -/

/-- What the step of a state with some turn would come to for its wave. -/
inductive Effect where
  /-- nothing -/
  | none
  /-- its instruction is not executed yet, but something is prepared: a flush, a translation, a note that it waits, a squash -/
  | prepares
  /-- its instruction is executed or steered, or raises a cause -/
  | executes
deriving DecidableEq, Repr

def effectOf (s : State) : Effect :=
  match plan s with
  | .only t => if steers s t then .executes else if t == s then .none else .prepares
  | .run i t => match exec i t with
    | .next u => if acted s i u then .executes else if u == t then .none else .prepares
    | _ => .executes

/-- The wave may issue: the head of its VIQ can (R51). -/
def issueReady (s : State) (w : Wave) : Bool := !w.viq.isEmpty && effectOf { s with turn := .issue w.uid } == .executes

/-- The drill's turn for a wave: its next instruction is steered or executed (R43). -/
def drillTurn (s : State) (w : Wave) : Turn :=
  let x := ready s w
  match fetch s x with
  | .ok bs => (match decode bs with | .ok (i, _) => if queues i && legal s x i && !shadowBarred s x i then .steer w.uid else .wave w.uid | .error _ => .wave w.uid)
  | .error _ => .wave w.uid

/-- The wave is ready for the drill (R210). -/
def drillReady (s : State) (w : Wave) : Bool := effectOf { s with turn := drillTurn s w } == .executes

/-- Turns of waves that only prepare their next instruction: no choice of a slot, and they take nobody's place (R51, R210). -/
def preparing (s : State) : List Turn :=
  s.waves.flatMap (fun w => (if w.viq.isEmpty then [drillTurn s w] else [.issue w.uid, drillTurn s w]).filter (fun t => effectOf { s with turn := t } == .prepares))

/-! ### The policies -/

/-- Rank by age: by placement, then by %wave; a shadow directly after its home wave (R28, R128). -/
def ageKey (w : Wave) : Nat := 2 ^ 8 * (2 ^ 8 * w.age + w.wctx) + (match w.fork with | some f => f.ctx + 1 | none => 0)

/-- Distance from a rotation pointer in ascending wave context, wrapping (R51, R128). -/
def turnKey (ptr : Nat) (w : Wave) : Nat := (ctxOf w % 16 + 16 - ptr) % 16

/-- Waves in ascending order of a key. -/
def insByKey (k : Wave → Nat) (w : Wave) : List Wave → List Wave
  | [] => [w]
  | x :: r => if k w ≤ k x then w :: x :: r else x :: insByKey k w r
def byKey (k : Wave → Nat) (ws : List Wave) : List Wave := ws.foldr (insByKey k) []

/-- Whether the choice among ready waves is round-robin: the policy of the launch of the oldest one. The spec gives the policy per launch,
and none to a slot that holds waves of launches with different ones (R51, R209; log 106). -/
def roundRobin (s : State) (ws : List Wave) : Bool :=
  match byKey ageKey ws with
  | w :: _ => launchRr s w
  | [] => false

/-- The issue choice of this cycle treats the wave as not ready, under round-robin, or takes it only for want of another (R211). -/
def yields (s : State) (rr : Bool) (w : Wave) : Bool :=
  match yieldAge s w with
  | some n => if rr then decide (1 ≤ n.1) else n.2 == 1
  | none => false

/-- A wave that has yielded does not count as the one that issued last, from the choice after its first `yield` until it issues (R211). -/
def lastIssued (s : State) (last : Option Nat) (w : Wave) : Bool :=
  some w.uid == last && (match yieldAge s w with | some n => n.1 == 0 | none => true)

/-- A ready wave not chosen for 1,024 cycles; of several the oldest, which R42 does not say (log 106). -/
def starved (s : State) (ws : List Wave) : Option Wave :=
  (byKey ageKey ws).find? (fun w => decide (1024 ≤ cyclesSince s w.die w.core w.chosen))

/-- Greedy-then-oldest: the wave that was chosen last, if it is ready; otherwise the oldest. -/
def greedy (last : Wave → Bool) (ws : List Wave) : Option Wave :=
  match ws.find? last with
  | some w => some w
  | none => (byKey ageKey ws).head?

/-! ### The choices of a slot -/

/-- Vector issue (R51, R52, R211): who issues, a starved wave before every other one under greedy-then-oldest (R42), or nobody when every ready
wave is passed over. -/
def issueChoice (s : State) (die core slot : Nat) : Option Turn :=
  let x := slotAt s die core slot
  let ws := (slotWaves s die core slot).filter (issueReady s)
  let free := ws.filter (fun w => !yields s (roundRobin s ws) w)
  match ws with
  | [] => none
  | _ :: _ =>
    if roundRobin s ws then
      some (match byKey (turnKey x.ptr) free with | w :: _ => .issue w.uid | [] => .pass die core slot)
    else
      match starved s ws with
      | some w => some (.event (.starvedWaveChoice w.uid))
      | none => (greedy (lastIssued s x.last) (if free.isEmpty then ws else free)).map (fun w => .issue w.uid)

/-- The drill among the waves of the slot (R55, R210); neither `yield` nor R42 acts on it. -/
def drillChoice (s : State) (die core slot : Nat) : Option Turn :=
  let x := slotAt s die core slot
  let ws := (slotWaves s die core slot).filter (fun w => w.fork.isNone && drillReady s w)
  (if roundRobin s ws then (byKey (turnKey x.dptr) ws).head? else greedy (fun w => some w.uid == x.dlast) ws).map (drillTurn s)

/-- The drill's shadow port, beside the waves (R128): of several shadow contexts that are ready it serves the one served longest ago, the
oldest of those; R128 gives no order (log 105). -/
def shadowChoice (s : State) (die core slot : Nat) : Option Turn :=
  let ws := (slotWaves s die core slot).filter (fun w => w.fork.isSome && drillReady s w)
  (byKey (fun w => w.dchosen) (byKey ageKey ws)).head?.map (drillTurn s)

/-- Slot of a wave: die, core, number. -/
def slotOf (w : Wave) : Nat × Nat × Nat := (w.die, w.core, ctxOf w / 16)

/-- Everybody who may move: events, waves that prepare, and for every slot with waves its issue choice, its drill's and its shadow port's. -/
def candidates (s : State) : List Turn :=
  (events s).map .event ++ preparing s ++ ((s.waves.map slotOf).eraseDups.flatMap (fun k =>
    (issueChoice s k.1 k.2.1 k.2.2).toList ++ (drillChoice s k.1 k.2.1 k.2.2).toList ++ (shadowChoice s k.1 k.2.1 k.2.2).toList))

/-- The choice among them is free (log 2). -/
def nextTurn (s : State) : Turn :=
  match candidates s with
  | [] => .idle
  | cs => cs.getD (Config.choice s.draws % cs.length) .idle

/-! ### What a choice leaves -/

/-- Yields that an issue choice of a slot spends (R211): under round-robin those of the ready waves it passes over, up to the wave it
chooses. Under greedy-then-oldest a `yield` acts on the choice of the next cycle, whether or not one is made, and ends when the wave issues. -/
def spendYields (s : State) (die core slot : Nat) (chosen : Option Nat) : State :=
  let ws := (slotWaves s die core slot).filter (issueReady s)
  let order := (byKey (turnKey (slotAt s die core slot).ptr) ws).map (fun w => w.uid)
  let spent (w : Wave) : Bool :=
    roundRobin s ws && yields s true w && slotOf w == (die, core, slot) &&
    (match chosen with | some u => order.takeWhile (fun x => !(x == u)) | none => order).contains w.uid
  { s with waves := s.waves.map (fun w => if spent w then { w with yielding := none } else w) }

/-- The choice is made: an issue choice, which takes a wave that is ready, spends yields. -/
def choose (s : State) (n : Turn) : State :=
  let t := match n with
    | .issue uid | .event (.starvedWaveChoice uid) =>
      (match findWave s uid with | some w => if issueReady s w then spendYields s w.die w.core (ctxOf w / 16) (some uid) else s | none => s)
    | .pass die core slot => spendYields s die core slot none
    | _ => s
  { t with turn := n }

/-- A slot takes note of the wave it served, when that wave's instruction was executed or steered: the one chosen last, and the pointer behind it (R51, R210). The
shadow port keeps no such note. -/
def served (s t : State) : State :=
  match s.turn with
  | .issue uid | .wave uid | .steer uid =>
    match findWave s uid with
    | none => t
    | some w =>
      let x := slotAt t w.die w.core (ctxOf w / 16)
      let next := (ctxOf w + 1) % 16
      match s.turn with
      | .issue _ => putIssue t w.die w.core (ctxOf w / 16) { x with last := some uid, ptr := next }
      | _ => if w.fork.isSome then t else putIssue t w.die w.core (ctxOf w / 16) { x with dlast := some uid, dptr := next }
  | _ => t

/-! ### The end of a step -/

/-- The next to move is chosen; something from outside that moves leaves the queue. -/
def goNext (s : State) : State :=
  let t := advance s
  let n := nextTurn t
  let u := choose t n
  match t.inputs, n with
  | i :: r, .event j => if i = j then { u with inputs := r } else u
  | _, _ => u

/-- The end of a step that only changed the state. -/
def goOnly (s t : State) : State := goNext (if steers s t then served s t else t)

/-- The end of a step that ran an instruction or event, planned on `t`; a starved wave keeps its turn (R42). -/
def goAfter (i : Instr) (s t u : State) : State :=
  let v := noteAll i s (endIssue s (if retries t i then { u with inputs := i :: u.inputs } else u))
  match i with
  | .starvedWaveChoice _ => if u.turn = t.turn then goNext v else advance v
  | _ => goNext (if acted s i v then served s v else v)

end Sys2Proof.Machine
end

