-- ==== Sys2Proof/Machine/Step.lean ====
section
/-!
DEFINITION. One step of the package: what the plan says, then the choice of who moves next.
-/
namespace Sys2Proof.Machine

/-- A step: an instruction of a wave, an event, or nothing but the passing of time. -/
def step (s : State) : Host.Outcome State Fault Refusal :=
  match plan s with
  | .only t => .next (goOnly s t)
  | .run i t =>
    match exec i t with
    | .next u => .next (goAfter i s t u)
    | .fault f => .fault f
    | .refused r => .refused r

/-- The state with an instruction placed where the next step fetches (log 3). -/
def State.withFetchWord (s : State) (nbits w : Nat) : State := placeProgram s (tableBytes nbits w)

end Sys2Proof.Machine
end

