-- ==== Sys2Proof/Safety.lean ====
section
/-!
DEFINITION. What claims call a safe run, the canonical form of the machine's memories, and the vocabulary claims are stated in: who
executes what, what else changes, and how results read.
-/
namespace Sys2Proof.Machine

/-- Both memories are in canonical form: addresses strictly rising, no entry equal to what an unlisted byte reads as. -/
def State.wf (s : State) : Bool := s.mem.wf && s.hostMem.wf

/-- A step answers a next state. -/
def Goes (s : State) : Prop := ∃ t, step s = .next t

/-- n steps from s all answer a next state, and the last is t. -/
def RunsTo (n : Nat) (s t : State) : Prop := Host.Core.run Sys2Proof.core n s = .next t

/-- A run of n steps is safe. -/
def SafeRun (n : Nat) (s : State) : Prop := ∃ t, RunsTo n s t

/-! ### Who executes what -/

/-- Wave `w` moves and executes `i` on the lanes `ls`: the instruction decodes for the wave (R27, R77, R78), and its guard is true in
exactly these lanes of the running parts, at least one of them (R66). -/
abbrev Issues (s : State) (i : Instr) (w : Wave) (ls : List Nat) : Prop :=
  curWave s = some w ∧ legal s w i = true ∧ guardLanes w i = ls ∧ ls ≠ []

/-- Lanes an extended-form instruction works on: the active lanes, or once on the drill. -/
def opLanes (o : Ops) (ls : List Nat) : List Nat := if o.k.vec then ls else [0]

/-! ### What else changes -/

/-- Every byte of memory reads as before. -/
def SameMemory (s t : State) : Prop := ∀ a, memGet t.mem a = memGet s.mem a

/-- `t` is `s` but for one wave, which was `w` and is `w'`: no other wave, no byte of memory and no other part of the package differs. -/
def OnlyWave (s t : State) (w w' : Wave) : Prop :=
  { t with waves := s.waves } = s ∧ findWave t w.uid = some w' ∧ (∀ u, u ≠ w.uid → findWave t u = findWave s u) ∧ SameMemory s t

/-- Two waves that differ in the control of their gangs only: PCs, stacks, parts, path list. -/
def SameRegs (w w' : Wave) : Prop := { w' with slices := w.slices, path := w.path, cur := w.cur } = w

/-- The instruction completes: `exec` answers the state in which only the moving wave differs; it has become a wave with the property
`P`, gone on to its next instruction. -/
def Completes (i : Instr) (s : State) (w : Wave) (P : Wave → Prop) : Prop :=
  ∃ w1, exec i s = .next (putWave s (goSeq w1)) ∧ OnlyWave s (putWave s (goSeq w1)) w (goSeq w1) ∧ SameRegs w1 (goSeq w1) ∧ P w1

/-- An s-register of either bank by its bank key (R147). -/
def rdBank (w : Wave) (key : Nat) : W64 := if 64 ≤ key then stGet 0 (key - 64) w.hs else stGet 0 key w.s

/-- Nothing of a wave changed but vector registers in some lanes and %fpflags: those of `D`, a pair for a 64-bit type (R82, R83). -/
def VecFrame (d : Nat) (wide : Bool) (ls : List Nat) (w w1 : Wave) : Prop :=
  { w1 with v := w.v, fpflags := w.fpflags } = w ∧
  ∀ l n, n < 256 → ¬(l ∈ ls ∧ (n = d ∨ (wide = true ∧ n = d + 1))) → rdV w1 l n = rdV w l n

/-- Nothing of a wave changed but one s-register of the bank in force, and %fpflags. -/
def UniFrame (d : Nat) (w w1 : Wave) : Prop :=
  { w1 with s := w.s, hs := w.hs, fpflags := w.fpflags } = w ∧ ∀ key, key ≠ bankKey w d → rdBank w1 key = rdBank w key

/-- Frame of an instruction that writes D as a value of a type: a vector register or pair, or an s-register on the drill. -/
def DestFrame (o : Ops) (t : Ty) (ls : List Nat) (w w1 : Wave) : Prop :=
  if o.k.vec then VecFrame o.d t.is64 ls w w1 else UniFrame o.d w w1

/-- Frame of an instruction that writes a predicate: k[d] in the active lanes, or q[d] on the drill (R87). -/
def PredFrame (o : Ops) (ls : List Nat) (w w1 : Wave) : Prop :=
  if o.k.vec then
    { w1 with k := w.k, fpflags := w.fpflags } = w ∧
    ∀ n l, l < 32 → ¬(n = o.d ∧ l ∈ ls) → rdK w1 n l = rdK w n l
  else { w1 with q := w.q, fpflags := w.fpflags } = w ∧ ∀ n, n < 4 → n ≠ o.d → rdQ w1 n = rdQ w n

/-! ### Where paths go -/

/-- Each slice of the current gang stands where `f` puts its running part, with its lanes and those of parts that stand there already; every
other slice keeps its parts. -/
def Moves (w w' : Wave) (f : Part → Part) : Prop :=
  ∀ i, i < w.slices.length →
    if i ∈ gang w then
      samePlace (sliceAt w' i).run (f (sliceAt w i).run) = true ∧ ∀ l ∈ (sliceAt w i).run.lanes, l ∈ (sliceAt w' i).run.lanes
    else (sliceAt w' i).run = (sliceAt w i).run ∧ (sliceAt w' i).parked = (sliceAt w i).parked

/-- A lane of a slice stands where a part stands. -/
def LaneAt (w : Wave) (i l : Nat) (p : Part) : Prop :=
  ∃ q ∈ (sliceAt w i).run :: (sliceAt w i).parked, l ∈ q.lanes ∧ samePlace q p = true

/-- Two waves that differ in where their gangs stand, and in what they wait for at a `regang`. -/
def SameButPaths (w w' : Wave) : Prop :=
  { w' with slices := w.slices, path := w.path, cur := w.cur, npc := w.npc, regangFrom := w.regangFrom } = w

/-- The instruction completes by moving the current gang: its parts go where `f` puts them, nothing else of the package changes. -/
def Walks (i : Instr) (s : State) (w : Wave) (f : Part → Part) : Prop :=
  ∃ w', exec i s = .next (putWave s w') ∧ OnlyWave s (putWave s w') w w' ∧ SameButPaths w w' ∧ Moves w w' f

/-- The instruction or event changes the paths of one wave and nothing else, with the property `P` of the wave it leaves. -/
def Repaths (i : Instr) (s : State) (w : Wave) (P : Wave → Prop) : Prop :=
  ∃ w', exec i s = .next (putWave s w') ∧ OnlyWave s (putWave s w') w w' ∧ SameButPaths w w' ∧ P w'

/-! ### Results -/

/-- D is written with values that satisfy `V` lane by lane, and no flag is raised. -/
def Computes (i : Instr) (s : State) (w : Wave) (ls : List Nat) (o : Ops) (t : Ty) (V : Nat → Nat → Prop) : Prop :=
  Completes i s w (fun w1 => DestFrame o t ls w w1 ∧ w1.fpflags = w.fpflags ∧ ∀ l ∈ ls, V l (opD w1 o t l))

/-- Flags of lanes ORed into %fpflags (R83). -/
def orAll (x : W32) (fs : List Nat) : W32 := fs.foldl (fun m f => m ||| BitVec.ofNat 32 f) x

/-- D is written with a result per lane, and the lanes' flags are ORed into %fpflags (R83). -/
def Floats (i : Instr) (s : State) (w : Wave) (ls : List Nat) (o : Ops) (t : Ty) (f : Nat → Nat × Nat) : Prop :=
  Completes i s w (fun w1 => DestFrame o t ls w w1 ∧ w1.fpflags = orAll w.fpflags ((opLanes o ls).map (fun l => (f l).2)) ∧
    ∀ l ∈ ls, opD w1 o t l = (f (if o.k.vec then l else 0)).1 % 2 ^ t.bits)

/-- Predicate D is written, and the lanes' flags are ORed into %fpflags. -/
def Tests (i : Instr) (s : State) (w : Wave) (ls : List Nat) (o : Ops) (f : Nat → Bool × Nat) : Prop :=
  Completes i s w (fun w1 => PredFrame o ls w w1 ∧ w1.fpflags = orAll w.fpflags ((opLanes o ls).map (fun l => (f l).2)) ∧
    ∀ l ∈ ls, l < 32 → opPred w1 o o.d l = (f (if o.k.vec then l else 0)).1)

/-- The pattern x is e wrapped to the type's width; or the value e clamped to the type's range (R80). -/
def Wraps (t : Ty) (e : Int) (x : Nat) : Prop := (x : Int) = e % 2 ^ t.bits
def Clamps (t : Ty) (e : Int) (x : Nat) : Prop := tval t x = max (tLo t) (min e (tHi t))

/-- Fields of a float pattern of a type (R88): mantissa bits; sign, exponent field, mantissa. -/
def mantBits : Ty → Nat
  | .f32 => 23
  | .f16 => 10
  | _ => 7
def signBit (t : Ty) (x : Nat) : Bool := x.testBit (t.bits - 1)
def expField (t : Ty) (x : Nat) : Nat := x / 2 ^ mantBits t % 2 ^ (t.bits - 1 - mantBits t)
def expOnes (t : Ty) : Nat := 2 ^ (t.bits - 1 - mantBits t) - 1
def mantField (t : Ty) (x : Nat) : Nat := x % 2 ^ mantBits t

/-- Number of the class of a pattern, as the table of R94 gives it. -/
def classBit (t : Ty) (x : Nat) : Nat :=
  if expField t x = expOnes t then
    (if mantField t x = 0 then (if signBit t x then 0 else 7) else if (mantField t x).testBit (mantBits t - 1) then 9 else 8)
  else if 0 < expField t x then (if signBit t x then 1 else 6)
  else if 0 < mantField t x then (if signBit t x then 2 else 5)
  else (if signBit t x then 3 else 4)

/-! ### Operations in flight -/

/-- A new operation of the moving wave is in flight, numbered by `nextFid`; its reply register is `rr`. -/
def NewFlight (s t : State) (w : Wave) (cls : Option Cls) (act : Act) (rr : Option Nat) : Prop :=
  ∃ f ∈ t.flights, f.id = s.nextFid ∧ f.who = whoOf w ∧ f.cls = cls ∧ f.act = act ∧ f.rr = rr ∧ f.held = false

/-- The counter of a class of the wave went up by one, the other counters are as before (R194). -/
def CountsUp (s t : State) (uid : Nat) (cls : Cls) : Prop :=
  counter t uid cls = counter s uid cls + 1 ∧ ∀ c, c ≠ cls → counter t uid c = counter s uid c

/-- `exec` answers a next state with a property. -/
def Answers (i : Instr) (s : State) (P : State → Prop) : Prop := ∃ t, exec i s = .next t ∧ P t

/-- The wave `uid` has become `w'`; no other wave differs. -/
def WaveIs (s t : State) (uid : Nat) (w' : Wave) : Prop := findWave t uid = some w' ∧ ∀ u, u ≠ uid → findWave t u = findWave s u

/-- Only one core differs. -/
def OnlyCore (s t : State) (die core : Nat) : Prop :=
  ∀ k, k ≠ coreKey die core → stGet coreDefault k t.cores = stGet coreDefault k s.cores

/-- The instruction completes by starting an operation: `w`, become `w1`, goes on to its next instruction, the operation is in flight and
counted, and besides these only translations are cached and a core may differ. -/
def Sends (i : Instr) (s : State) (w w1 : Wave) (cls : Cls) (act : Act) (rr : Option Nat) (P : State → Prop) : Prop :=
  Answers i s (fun t =>
    { t with waves := s.waves, ghosts := s.ghosts, tlb := s.tlb, flights := s.flights, nextFid := s.nextFid, cores := s.cores } = s ∧
    WaveIs s t w.uid (goSeq w1) ∧ (∀ g, g.uid ≠ w.uid → (g ∈ t.ghosts ↔ g ∈ s.ghosts)) ∧
    (∀ f, f.id ≠ s.nextFid → (f ∈ t.flights ↔ f ∈ s.flights)) ∧
    NewFlight s t w (some cls) act rr ∧ CountsUp s t w.uid cls ∧ P t)

/-- An operation is in flight, is not held behind an older one of its class, its packet may be applied, and no continuation of a fork
that has committed wrote a register that it writes (R135). -/
abbrev InFlight (s : State) (fid : Nat) (f : Flight) : Prop :=
  findFlight s fid = some f ∧ f.held = false ∧ tickReady s f = true ∧ f.skip = []

/-- A wave without forks; it is no shadow itself. -/
abbrev NoForks (s : State) (w : Wave) : Prop := w.fork = none ∧ shadowsOf s w.uid (fun _ _ => true) = []

/-- The wave has no sample in its core's combining buffer and no merge on its way that it waits for. -/
abbrev MergesOver (s : State) (w : Wave) : Prop :=
  (coreAt s w.die w.core).ecb.any (fun e => e.waves.contains w.wctx) = false ∧ mergesOut s w.uid = false

/-- A release of the wave may be performed: its samples are merged, no older access of it is outstanding, and its core's lazy releases are
recorded; those are home when this release acts at once beyond the core (`eager`). -/
abbrev ReleaseReady (s : State) (w : Wave) (eager : Bool) : Prop :=
  MergesOver s w ∧ pathQuiet s w.uid = true ∧ ∀ e ∈ (coreAt s w.die w.core).relb, e.recorded = true ∧ eager = false

/-- A core that differs from what it was in nothing but copies of memory: its own store's line left its units, or another core of the quad
wrote a line it holds. -/
def SameButCopies (c d : Core) : Prop :=
  { d with l1 := c.l1, l1old := c.l1old, ncache := c.ncache, tcache := c.tcache } = c

/-- Accesses to a table of `bri`, to its first word (`head`) or to entries, that are made at once, with the state and the values they leave;
none of them meets poison (R115). -/
def TableReads (s : State) (w : Wave) (head : Bool) (as : List Acc) (t : State) (vs : List (Nat × Nat)) : Prop :=
  tableWaits s w as = false ∧ tableRead s w head as = (t, vs, [])

/-- Nothing keeps an operation in flight from its turn: no older operation of its wave on its bytes, no store that its core shows ahead
of the home, and no lazy release anywhere. -/
abbrev QuietPath (s : State) (f : Flight) : Prop :=
  (f.vis.isNone && pathBusy s f.who.uid f.id (actAccs f.act)) = false ∧
  (∀ g ∈ s.flights, g.who.die = f.who.die → g.who.core = f.who.core → g.vis.isSome = true → g = f) ∧
  ∀ c ∈ s.cores, c.2.relb = []

/-- An access that reads a scratchpad, or memory at the home: healthy bytes within a sector, on a page that its core's L1 does not keep. -/
def PlainAt (s : State) (a : Acc) (n : Nat) : Prop :=
  match a.loc with
  | .pad u off => padPoisoned s u off n = false
  | .mem pa => a.page.ptype ≠ .device ∧ (a.page.cl ≠ 0 ∨ a.page.ptype = .estimator) ∧ pa % 32 + n ≤ 32 ∧ pa / 32 ∉ s.poison

/-- The bytes that stand at a place. -/
def bytesAt (s : State) (a : Acc) (n : Nat) : List Byte :=
  match a.loc with
  | .pad u off => padRead s u off n
  | .mem pa => memBytes s.mem pa n

/-- Reads through the core's L1, lane by lane: the bytes, and whether they are poisoned. -/
def cachedReads (who : Who) (n : Nat) : List Acc → State → List (Acc × List Byte × Bool)
  | [], _ => []
  | a :: r, s =>
    let x := coreRead s who.die who.core a.page .cached (match a.loc with | .mem pa => pa | .pad _ off => off) n
    (a, x.2) :: cachedReads who n r x.1

/-- The registers of a load take the values its lanes have read, n bytes each, and nothing else of the wave changes but a wait that is over; a
narrow value fills its register by sign or with zeros (R82). -/
def LoadWrites (d : LoadDst) (n : Nat) (vs : List (Acc × Nat)) (w w1 : Wave) : Prop :=
  (8 * n = d.ty.bits → ∀ v ∈ vs,
    if d.vec then d.ty.is64 = false →
      rdV w1 v.1.lane d.reg = (if d.ty = .i8 ∨ d.ty = .i16 then BitVec.ofInt 32 (sval d.ty.bits v.2) else BitVec.ofNat 32 v.2)
    else rdBank w1 d.reg = (if d.ty = .i8 ∨ d.ty = .i16 ∨ d.ty = .i32 then BitVec.ofInt 64 (sval d.ty.bits v.2) else BitVec.ofNat 64 v.2)) ∧
  (if d.vec then
    VecFrame d.reg d.ty.is64 (vs.map (fun v => v.1.lane)) { w with blocked := w1.blocked } w1 ∧
    ∀ v ∈ vs, rdVec w1 d.ty v.1.lane d.reg = v.2 % 2 ^ d.ty.bits
  else
    { w1 with s := w.s, hs := w.hs, blocked := w.blocked } = w ∧ (∀ k, k ≠ d.reg → rdBank w1 k = rdBank w k) ∧
    ∀ v ∈ vs, (rdBank w1 d.reg).toNat % 2 ^ d.ty.bits = v.2 % 2 ^ d.ty.bits)

/-- Only one wave differs, but for waits that have ended (R217). -/
def OthersKeep (s t : State) (uid : Nat) : Prop :=
  ∀ u, u ≠ uid → (findWave t u).map (fun x => { x with blocked := none }) = (findWave s u).map (fun x => { x with blocked := none })

/-! ### Exceptions -/

/-- The wave has entered its handler with records `rs`, to resume at `xpc` (R148, R150): deferred causes that were held came with them;
privilege is kept and raised; the current gang stands at the handler; nothing else of the wave changed. -/
def Entered (w w' : Wave) (rs : List CauseRec) (xpc : W64) : Prop :=
  { w' with slices := w.slices, trap := w.trap } = w ∧
  (let all := addRecs (addRecs w.trap.recs rs) w.trap.held
   w'.trap = { w.trap with
     recs := all, held := [], xpc := xpc &&& 0x00FFFFFFFFFFFFFC, defr := all.all (fun r => isDeferred r.cause), ppriv := w.trap.prv,
     prv := true, h := true }) ∧
  w'.slices.length = w.slices.length ∧
  ∀ i, i < w.slices.length → sliceAt w' i =
    if i ∈ gang w then { sliceAt w i with run := { (sliceAt w i).run with pc := w.trap.xvec }, atRegang := none } else sliceAt w i

/-- The instruction raises precise causes: its wave enters the handler, and nothing else of the package changes (R142, R148). -/
def Traps (i : Instr) (s : State) (w : Wave) (rs : List CauseRec) (xpc : W64) : Prop :=
  Answers i s (fun t => { t with waves := s.waves } = s ∧ ∃ w', WaveIs s t w.uid w' ∧ Entered w w' rs xpc)

/-- A wave that can take an exception: not in a handler, with a handler to go to, without forks, with nothing left to issue from its VIQ
(R148), and in no full save (R159). -/
abbrev CanTrap (s : State) (w : Wave) : Prop := NoForks s w ∧ w.viq = [] ∧ w.trap.h = false ∧ w.trap.xvec ≠ 0 ∧ w.saveReq ≠ some .full

/-- Record of a cause found on the drill: the lanes of the running parts, and the address of word 0 (R142, R146). -/
def drillRec (w : Wave) (c : Nat) (addr : W64) (detail : Nat) : CauseRec :=
  { cause := c, lanes := laneMask (runLanes w), more := false, addr := addr, pc := gpc w, detail := BitVec.ofNat 64 detail }

/-- Value of a context's cell, by its physical address, and epoch in a core's combining buffer (R239). -/
def bufferPart (s : State) (die core asid pa epoch : Nat) : Partial :=
  (((coreAt s die core).ecb.find? (fun e => e.cell.pa == pa && e.cell.asid == asid && e.epoch == epoch)).map (fun e => e.part)).getD emptyPart

/-- A host event as the ring holds it: words 0 to 6, then its kind (R402). -/
def eventOf (kind : Nat) (ws : List Nat) : List W32 :=
  (List.range 7).map (fun i => BitVec.ofNat 32 (ws.getD i 0)) ++ [BitVec.ofNat 32 kind]

/-- An event has been posted: it stands in the ring when nothing waits before it and there is room, else it waits as the last (R402). -/
def Posts (s t : State) (kind : Nat) (ws : List Nat) : Prop :=
  if s.regs.events = [] ∧ (s.regs.evtail - s.regs.evhead).toNat < 2 ^ s.regs.evlog then
    t.regs.events = [] ∧ t.regs.evtail = s.regs.evtail + 1 ∧
    (let at_ := s.regs.evbase.toNat + 32 * (s.regs.evtail.toNat % 2 ^ s.regs.evlog)
     memBytes t.hostMem at_ 32 = (eventOf kind ws).flatMap (fun w => leBytes 4 w.toNat) ∧
     ∀ a, a < at_ ∨ at_ + 32 ≤ a → memGet t.hostMem a = memGet s.hostMem a)
  else t.regs.events = s.regs.events ++ [eventOf kind ws] ∧ t.regs.evtail = s.regs.evtail ∧ t.hostMem = s.hostMem

/-- The command has been accepted and consumed with its payload slots: CRHEAD passes them, and the next SEQ is expected, 0 skipped (R398, R400). -/
def Consumed (s t : State) (npay : Nat) : Prop :=
  t.regs.crhead = s.regs.crhead + 1 + BitVec.ofNat 32 npay ∧ t.regs.lastSeq = s.regs.seq ∧
  t.regs.seq = s.regs.seq % (2 ^ 32 - 1) + 1 ∧ t.regs.reads = 0

/-- The command has been passed with its payload slots and without being accepted: its number is not the newest of R360 (R400). -/
def Passed (s t : State) (npay : Nat) : Prop :=
  t.regs.crhead = s.regs.crhead + 1 + BitVec.ofNat 32 npay ∧ t.regs.lastSeq = s.regs.lastSeq ∧
  t.regs.seq = s.regs.seq % (2 ^ 32 - 1) + 1 ∧ t.regs.reads = 0

end Sys2Proof.Machine
end

