-- ==== Sys2Proof/Certificates/Slice0/Obligations.lean ====
section
/-!
DEFINITION. The statements for the provers.
-/
open Sys2Proof Sys2Proof.Machine

/-! ### Integer, bit and predicate results -/

/-- R85: `iadd` to `iabs`, with saturation where SAT asks for it.
R85: the bitwise instructions, bit by bit, and the two that count bits. -/
def Obligations.IntegerResults : Prop :=
  (∀ (s : State) (w : Wave) (ls : List Nat) (o : Ops),
  (Issues s (.iadd o) w ls → Computes (.iadd o) s w ls o o.ty (fun l x =>
    if o.sat then Clamps o.ty (vA w o l + vB w o l) x else Wraps o.ty (vA w o l + vB w o l) x)) ∧
  (Issues s (.isub o) w ls → Computes (.isub o) s w ls o o.ty (fun l x =>
    if o.sat then Clamps o.ty (vA w o l - vB w o l) x else Wraps o.ty (vA w o l - vB w o l) x)) ∧
  (Issues s (.imul o) w ls → Computes (.imul o) s w ls o o.ty (fun l x => Wraps o.ty (vA w o l * vB w o l) x)) ∧
  (Issues s (.imulh o) w ls → Computes (.imulh o) s w ls o o.ty (fun l x => Wraps o.ty (vA w o l * vB w o l / 2 ^ o.ty.bits) x)) ∧
  (Issues s (.imad o) w ls → Computes (.imad o) s w ls o o.ty (fun l x => Wraps o.ty (vA w o l * vB w o l + vC w o l) x)) ∧
  (Issues s (.imin o) w ls → Computes (.imin o) s w ls o o.ty (fun l x => tval o.ty x = min (vA w o l) (vB w o l))) ∧
  (Issues s (.imax o) w ls → Computes (.imax o) s w ls o o.ty (fun l x => tval o.ty x = max (vA w o l) (vB w o l))) ∧
  (Issues s (.iabs o) w ls → Computes (.iabs o) s w ls o o.ty (fun l x =>
    if o.sat then Clamps o.ty |vA w o l| x else Wraps o.ty |vA w o l| x))) ∧
  (∀ (s : State) (w : Wave) (ls : List Nat) (o : Ops),
  (Issues s (.iand o) w ls → Computes (.iand o) s w ls o o.ty (fun l x =>
    ∀ i, x.testBit i = ((uA w o l).testBit i && (uB w o l).testBit i))) ∧
  (Issues s (.ior o) w ls → Computes (.ior o) s w ls o o.ty (fun l x =>
    ∀ i, x.testBit i = ((uA w o l).testBit i || (uB w o l).testBit i))) ∧
  (Issues s (.ixor o) w ls → Computes (.ixor o) s w ls o o.ty (fun l x =>
    ∀ i, x.testBit i = ((uA w o l).testBit i != (uB w o l).testBit i))) ∧
  (Issues s (.inot o) w ls → Computes (.inot o) s w ls o o.ty (fun l x =>
    ∀ i, i < o.ty.bits → x.testBit i = !(uA w o l).testBit i)) ∧
  (Issues s (.ipopc o) w ls → Computes (.ipopc o) s w ls o o.ty (fun l x =>
    x = ((List.range o.ty.bits).filter (fun i => (uA w o l).testBit i)).length)) ∧
  (Issues s (.iclz o) w ls → Computes (.iclz o) s w ls o o.ty (fun l x =>
    x ≤ o.ty.bits ∧ uA w o l < 2 ^ (o.ty.bits - x) ∧ (x < o.ty.bits → 2 ^ (o.ty.bits - 1 - x) ≤ uA w o l))))

/-- R86: shifts by a whole unsigned count, and bit fields. -/
def Obligations.ShiftsAndBitFields : Prop := ∀ (s : State) (w : Wave) (ls : List Nat) (o : Ops),
  (Issues s (.ishl o) w ls → Computes (.ishl o) s w ls o o.ty (fun l x =>
    x = if o.ty.bits ≤ uB w o l then 0 else uA w o l * 2 ^ uB w o l % 2 ^ o.ty.bits)) ∧
  (Issues s (.ishr o) w ls → Computes (.ishr o) s w ls o o.ty (fun l x => x = uA w o l / 2 ^ uB w o l)) ∧
  (Issues s (.isra o) w ls → Computes (.isra o) s w ls o o.ty (fun l x =>
    sval o.ty.bits x = sval o.ty.bits (uA w o l) / 2 ^ uB w o l)) ∧
  (Issues s (.ibfx o) w ls → Computes (.ibfx o) s w ls o o.ty (fun l x =>
    let pos := uB w o l % 256
    let len := uC w o l % 256
    let top := min (pos + len) o.ty.bits
    if len = 0 ∨ o.ty.bits ≤ pos then x = 0
    else ∀ i, i < o.ty.bits → x.testBit i =
      (if pos + i < top then (uA w o l).testBit (pos + i) else o.ty.isSigned && (uA w o l).testBit (top - 1)))) ∧
  (Issues s (.ibfi o) w ls → Computes (.ibfi o) s w ls o o.ty (fun l x =>
    let pos := uB w o l % 256
    let len := uC w o l % 256
    let top := min (pos + len) o.ty.bits
    if len = 0 ∨ o.ty.bits ≤ pos then x = opD w o o.ty l
    else ∀ i, i < o.ty.bits → x.testBit i =
      (if pos ≤ i ∧ i < top then (uA w o l).testBit (i - pos) else (opD w o o.ty l).testBit i)))

/-- R87, R92, R75: `icmp` and `fcmp` write a predicate; `isel` selects by one. Conditions: 0 eq, 1 ne, 2 lt, 3 le, 4 gt, 5 ge, and for
`fcmp` 6 un, 7 or. The order of float patterns is that of their signed magnitudes, with -0 equal to +0.
R98: moves never convert. -/
def Obligations.ComparisonsSelectsAndMoves : Prop :=
  (∀ (s : State) (w : Wave) (ls : List Nat) (o : Ops),
  (Issues s (.icmp o) w ls → Tests (.icmp o) s w ls o (fun l =>
    (match o.x with
     | 0 => decide (vA w o l = vB w o l) | 1 => decide (vA w o l ≠ vB w o l) | 2 => decide (vA w o l < vB w o l)
     | 3 => decide (vA w o l ≤ vB w o l) | 4 => decide (vB w o l < vA w o l) | _ => decide (vB w o l ≤ vA w o l), 0))) ∧
  (Issues s (.fcmp o) w ls → Tests (.fcmp o) s w ls o (fun l =>
    let x := fDaz (fmtOfTy o.ty) (fpEnv w o.ty o.rnd) (uA w o l)
    let y := fDaz (fmtOfTy o.ty) (fpEnv w o.ty o.rnd) (uB w o l)
    let nan := (fvOf (fmtOfTy o.ty) x.1).isNan || (fvOf (fmtOfTy o.ty) y.1).isNan
    let a := fKey (fmtOfTy o.ty) x.1
    let b := fKey (fmtOfTy o.ty) y.1
    (match o.x with
     | 0 => !nan && decide (a = b) | 1 => nan || decide (a ≠ b) | 2 => !nan && decide (a < b) | 3 => !nan && decide (a ≤ b)
     | 4 => !nan && decide (b < a) | 5 => !nan && decide (b ≤ a) | 6 => nan | _ => !nan, x.2 ||| y.2))) ∧
  (Issues s (.isel o) w ls → Computes (.isel o) s w ls o o.ty (fun l x =>
    x = if opPred w o o.c l then uA w o l else uB w o l))) ∧
  (∀ (s : State) (w : Wave) (ls : List Nat) (o : Ops),
  (Issues s (.mov o) w ls → Computes (.mov o) s w ls o o.ty (fun l x => x = uA w o l)) ∧
  (Issues s (.movi o) w ls → ∀ v, o.b = .imm v → Computes (.movi o) s w ls o o.ty (fun _ x => x = v.toNat)) ∧
  (Issues s (.bcast o) w ls → ∀ n, o.b = .s n → Computes (.bcast o) s w ls o o.ty (fun _ x => x = (rdS w n).toNat % 2 ^ o.ty.bits)))

/-- R82: how a result fills its register: by sign for `.i8` and `.i16` in a vector register, for `.i8`, `.i16` and `.i32` in an
s-register, with zeros for every other type; a 64-bit type uses a pair, low half first, or the whole s-register. -/
def Obligations.ResultsFillRegisters : Prop := ∀ (w : Wave) (t : Ty) (x l n : Nat), x < 2 ^ t.bits → n < 255 →
  (t.is64 = false → rdV (wrVec w t l n x) l n =
    if t = .i8 ∨ t = .i16 then BitVec.ofInt 32 (sval t.bits x) else BitVec.ofNat 32 x) ∧
  (t.is64 = true → (rdV (wrVec w t l n x) l n).toNat = x % 2 ^ 32 ∧ (rdV (wrVec w t l n x) l (n + 1)).toNat = x / 2 ^ 32) ∧
  rdS (wrUni w t n x) n = (if t = .i8 ∨ t = .i16 ∨ t = .i32 then BitVec.ofInt 64 (sval t.bits x) else BitVec.ofNat 64 x)

/-! ### Floating-point results -/

/-- R90, R92, R93, R95, R96, R97: every floating-point instruction runs to its end on any data: D holds the lane operation's result and
%fpflags gains the flags of the active lanes, nothing else. -/
def Obligations.FloatInstructionsComplete : Prop := ∀ (s : State) (w : Wave) (ls : List Nat) (o : Ops),
  let a (l : Nat) := opA w o o.ty l
  let b (l : Nat) := opB w o o.ty l
  let c (l : Nat) := opC w o o.ty l
  let h (l : Nat) := opA w o .b32 l
  let k (l : Nat) := opB w o .b32 l
  (Issues s (.fadd o) w ls → Floats (.fadd o) s w ls o o.ty (fun l => fOp w o.ty o.rnd o.sat [a l, b l] fnAdd)) ∧
  (Issues s (.fsub o) w ls → Floats (.fsub o) s w ls o o.ty (fun l => fOp w o.ty o.rnd o.sat [a l, b l] fnSub)) ∧
  (Issues s (.fmul o) w ls → Floats (.fmul o) s w ls o o.ty (fun l => fOp w o.ty o.rnd o.sat [a l, b l] fnMul)) ∧
  (Issues s (.ffma o) w ls → Floats (.ffma o) s w ls o o.ty (fun l => fOp w o.ty o.rnd o.sat [a l, b l, c l] fnFma)) ∧
  (Issues s (.fdiv o) w ls → Floats (.fdiv o) s w ls o o.ty (fun l => fOp w o.ty o.rnd o.sat [a l, b l] fnDiv)) ∧
  (Issues s (.fsqrt o) w ls → Floats (.fsqrt o) s w ls o o.ty (fun l => fOp w o.ty o.rnd o.sat [a l] (fun _ v => exSqrt (fArg v 0)))) ∧
  (Issues s (.fexp2 o) w ls → Floats (.fexp2 o) s w ls o o.ty (fun l => fOp w o.ty o.rnd o.sat [a l] (fun _ v => exExp2 (fArg v 0)))) ∧
  (Issues s (.flog2 o) w ls → Floats (.flog2 o) s w ls o o.ty (fun l => fOp w o.ty o.rnd o.sat [a l] (fun _ v => exLog2 (fArg v 0)))) ∧
  (Issues s (.fmin o) w ls → Floats (.fmin o) s w ls o o.ty (fun l =>
    fMinMax (fmtOfTy o.ty) (fpEnv w o.ty o.rnd) false (a l) (b l))) ∧
  (Issues s (.fmax o) w ls → Floats (.fmax o) s w ls o o.ty (fun l =>
    fMinMax (fmtOfTy o.ty) (fpEnv w o.ty o.rnd) true (a l) (b l))) ∧
  (Issues s (.frcp o) w ls → Floats (.frcp o) s w ls o .f32 (fun l => fOp93 w (opA w o .f32 l) exRcp)) ∧
  (Issues s (.frsq o) w ls → Floats (.frsq o) s w ls o .f32 (fun l => fOp93 w (opA w o .f32 l) exRsq)) ∧
  (Issues s (.fsin o) w ls → Floats (.fsin o) s w ls o .f32 (fun l => fOp93 w (opA w o .f32 l) exSin)) ∧
  (Issues s (.fcos o) w ls → Floats (.fcos o) s w ls o .f32 (fun l => fOp93 w (opA w o .f32 l) exCos)) ∧
  (Issues s (.frnd o) w ls → Floats (.frnd o) s w ls o o.ty (fun l =>
    let r := fOp w o.ty o.rnd false [a l] (fun rm v => exRint rm (fArg v 0))
    (r.1, dropNXUF r.2))) ∧
  (Issues s (.hadd2 o) w ls → Floats (.hadd2 o) s w ls o .b32 (fun l => pair16 w o [h l, k l] fnAdd)) ∧
  (Issues s (.hmul2 o) w ls → Floats (.hmul2 o) s w ls o .b32 (fun l => pair16 w o [h l, k l] fnMul)) ∧
  (Issues s (.hfma2 o) w ls → Floats (.hfma2 o) s w ls o .b32 (fun l => pair16 w o [h l, k l, opC w o .b32 l] fnFma)) ∧
  (Issues s (.cvt o) w ls → Floats (.cvt o) s w ls o o.ty (fun l => convert w (cvtSrc o) o.ty o.rnd o.sat (opA w o (cvtSrc o) l))) ∧
  (Issues s (.pack o) w ls → Floats (.pack o) s w ls o .b32 (fun l => packed (packHalf w o (h l)) (packHalf w o (k l)))) ∧
  (Issues s (.unpack o) w ls → Floats (.unpack o) s w ls o .b32 (fun l => unpackVal w o.x (h l)))

/-- R90: a NaN operand gives the canonical NaN of the format and raises no flag but DN, whatever the other operands; with SAT it gives +0.
R93: the table of special operands, whatever %fpmode holds: results and flags of `frcp`, `frsq`, `fsin` and `fcos` for -inf, -0, +0
and +inf, and of the three that are invalid for finite operands below zero as far as `frsq` goes.
R94: `fclass` writes the mask with the one bit of its operand's class, zero-extended, without DAZ and without a flag. -/
def Obligations.FloatSpecialOperands : Prop :=
  (∀ (w : Wave) (t : Ty) (r : Rnd) (sat : Bool) (xs : List Nat) (f : Rnd → List FV → Ex),
  t = .f32 ∨ t = .f16 ∨ t = .bf16 →
  (∃ x ∈ xs, expField t x = expOnes t ∧ mantField t x ≠ 0) →
  (fOp w t r sat xs f).1 = (if sat then 0 else match t with | .f32 => 0x7FC00000 | .f16 => 0x7E00 | _ => 0x7FC0) ∧
  ((fOp w t r sat xs f).2 = 0 ∨ (fOp w t r sat xs f).2 = flDN)) ∧
  (∀ w : Wave,
  fOp93 w 0xFF800000 exRcp = (0x80000000, 0) ∧ fOp93 w 0xFF800000 exRsq = (0x7FC00000, flNV) ∧
  fOp93 w 0xFF800000 exSin = (0x7FC00000, flNV) ∧ fOp93 w 0xFF800000 exCos = (0x7FC00000, flNV) ∧
  fOp93 w 0x80000000 exRcp = (0xFF800000, flDZ) ∧ fOp93 w 0x80000000 exRsq = (0xFF800000, flDZ) ∧
  fOp93 w 0x80000000 exSin = (0x80000000, 0) ∧ fOp93 w 0x80000000 exCos = (0x3F800000, 0) ∧
  fOp93 w 0 exRcp = (0x7F800000, flDZ) ∧ fOp93 w 0 exRsq = (0x7F800000, flDZ) ∧
  fOp93 w 0 exSin = (0, 0) ∧ fOp93 w 0 exCos = (0x3F800000, 0) ∧
  fOp93 w 0x7F800000 exRcp = (0, 0) ∧ fOp93 w 0x7F800000 exRsq = (0, 0) ∧
  fOp93 w 0x7F800000 exSin = (0x7FC00000, flNV) ∧ fOp93 w 0x7F800000 exCos = (0x7FC00000, flNV) ∧
  (∀ x, 0x80800000 ≤ x → x < 0xFF800000 → fOp93 w x exRsq = (0x7FC00000, flNV))) ∧
  (∀ (s : State) (w : Wave) (ls : List Nat) (o : Ops),
  Issues s (.fclass o) w ls → Completes (.fclass o) s w (fun w1 => DestFrame o o.ty ls w w1 ∧ w1.fpflags = w.fpflags ∧
    ∀ l ∈ ls, (if o.k.vec then (rdV w1 l o.d).toNat else (rdS w1 o.d).toNat) = 2 ^ classBit o.ty (uA w o l)))

/-! ### Lanes, special registers, random numbers -/

/-- R66, R82, R100 to R102: the cross-lane instructions read the whole gang before they write. Under DS the result goes to s[d], by inference
zero-extended (log entry 44), and `vote` and `gred` have one even when no lane is active; that R101 holds there beside R66, and that `gred` gives
c of the gang's lowest lane, is the model's reading (log entry 92). -/
def Obligations.CrossLaneResults : Prop := ∀ (s : State) (w : Wave) (ls : List Nat) (o : Ops),
  let frame (t : Ty) (w1 : Wave) := if laneDs o then UniFrame o.d w w1 else VecFrame o.d t.is64 ls w w1
  let value (t : Ty) (w1 : Wave) (l : Nat) := if laneDs o then (rdS w1 o.d).toNat else rdVec w1 t l o.d
  (Issues s (.shfl o) w ls → Completes (.shfl o) s w (fun w1 => frame o.ty { w1 with k := w.k } ∧ w1.fpflags = w.fpflags ∧
    (∀ n l, l < 32 → ¬(o.x / 8 % 8 ≠ 0 ∧ n = o.x / 8 % 8 ∧ l ∈ ls) → rdK w1 n l = rdK w n l) ∧
    ∀ l ∈ ls,
      let j := shflSource (o.x % 4) l (sval 32 (opB w o .b32 l))
      value o.ty w1 l = (if lanePresent w j then rdVec w o.ty j.toNat o.a else opC w o o.ty l) ∧
      (l < 32 → o.x / 8 % 8 ≠ 0 → rdK w1 (o.x / 8 % 8) l = lanePresent w j))) ∧
  (Issues s (.vote o) w ls → Completes (.vote o) s w (fun w1 => frame .b32 w1 ∧ w1.fpflags = w.fpflags ∧
    ∀ l ∈ ls, value .b32 w1 l =
      (match o.x % 4 with
       | 0 => if ∀ i ∈ ls, rdK w o.a i = true then 1 else 0
       | 1 => if ∃ i ∈ ls, rdK w o.a i = true then 1 else 0
       | 2 => (laneMask (ls.filter (fun i => rdK w o.a i))).toNat
       | _ => if ∀ i ∈ ls, rdV w i o.a = rdV w (ls.headD 0) o.a then 1 else 0))) ∧
  (Issues s (.gred o) w ls → Completes (.gred o) s w (fun w1 => frame o.ty w1 ∧
    w1.fpflags = w.fpflags ||| BitVec.ofNat 32 (reduce w o (opC w o o.ty (ls.headD 0)) ls).2 ∧
    ∀ l ∈ ls, value o.ty w1 l % 2 ^ o.ty.bits = (reduce w o (opC w o o.ty (ls.headD 0)) ls).1 % 2 ^ o.ty.bits)) ∧
  (curWave s = some w → laneDs o = true → legal s w (.vote o) = true → guardLanes w (.vote o) = [] →
    Completes (.vote o) s w (fun w1 => UniFrame o.d w w1 ∧ w1.fpflags = w.fpflags ∧
      (rdS w1 o.d).toNat = if o.x % 4 = 0 ∨ o.x % 4 = 3 then 1 else 0)) ∧
  (curWave s = some w → laneDs o = true → legal s w (.gred o) = true → guardLanes w (.gred o) = [] →
    Completes (.gred o) s w (fun w1 => UniFrame o.d w w1 ∧ w1.fpflags = w.fpflags ∧
      rdS w1 o.d = BitVec.ofNat 64 (opC w o o.ty ((runLanes w).headD 0)))) ∧
  (Issues s (.gscan o) w ls → Floats (.gscan o) s w ls o o.ty (fun l =>
    reduce w o (opC w o o.ty l) (ls.filter (fun j => if bitAt o.x 4 then decide (j < l) else decide (j ≤ l)))))

/-- R58, R99, R144, R145: `gets` reads a special register, zero-extended on the drill; `sets` changes the writable fields only. A
privileged register needs privileged mode.
R103: `rng` hashes the key s[a] and the lane's counter with the rule's constants and shifts. -/
def Obligations.SpecialRegistersAndRandomNumbers : Prop :=
  (∀ (s : State) (w : Wave) (ls : List Nat) (o : Ops),
  (specialPriv o.a = true → w.trap.prv = true) →
  (Issues s (.gets o) w ls → Completes (.gets o) s w (fun w1 =>
    (if o.k.vec then VecFrame o.d false ls w w1 else UniFrame o.d w w1) ∧ w1.fpflags = w.fpflags ∧
    ∀ l ∈ ls, if o.k.vec then rdV w1 l o.d = (special s w o.a l).truncate 32 else rdS w1 o.d = special s w o.a 0)) ∧
  (Issues s (.sets o) w ls → Completes (.sets o) s w (fun w1 =>
    { w1 with fpmode := w.fpmode, fpflags := w.fpflags, trap := w.trap } = w ∧
    { w1.trap with xpc := w.trap.xpc, xvec := w.trap.xvec, csel := w.trap.csel, pte := w.trap.pte, ppriv := w.trap.ppriv } = w.trap ∧
    (let x := opB w o .b64 0
     w1.fpmode = (if o.a = 0x0C then BitVec.ofNat 32 (x % 2 ^ 5) else w.fpmode) ∧
     w1.fpflags = (if o.a = 0x0D then BitVec.ofNat 32 (x % 2 ^ 6) else w.fpflags) ∧
     w1.trap.xpc = (if o.a = 0x10 then BitVec.ofNat 64 (x % 2 ^ 56 / 4 * 4) else w.trap.xpc) ∧
     w1.trap.xvec = (if o.a = 0x17 then BitVec.ofNat 64 (x % 2 ^ 56 / 4 * 4) else w.trap.xvec) ∧
     w1.trap.csel = (if o.a = 0x11 then x / 2 ^ 28 % 16 else w.trap.csel) ∧
     w1.trap.pte = (if o.a = 0x11 then x.testBit 15 else w.trap.pte) ∧
     w1.trap.ppriv = (if o.a = 0x11 then x.testBit 2 else w.trap.ppriv))))) ∧
  (∀ (s : State) (w : Wave) (ls : List Nat) (o : Ops),
  Issues s (.rng o) w ls → Computes (.rng o) s w ls o o.ty (fun l x =>
    let c := if o.k.vec then opB w o .b64 l + l * 2 ^ o.x else opB w o .b64 0
    let m (y : Nat) := y % 2 ^ 64
    let z0 := m (c + (rdS w o.a).toNat * 0x9E3779B97F4A7C15)
    let z1 := m ((z0 ^^^ (z0 / 2 ^ 30)) * 0xBF58476D1CE4E5B9)
    let z2 := m ((z1 ^^^ (z1 / 2 ^ 27)) * 0x94D049BB133111EB)
    let z := z2 ^^^ (z2 / 2 ^ 31)
    match o.ty with
    | .b64 => x = z
    | .b32 => x = z / 2 ^ 32
    | _ =>
      let n := z / 2 ^ 40
      x = if n = 0 then 0 else (Nat.log2 n + 102) * 2 ^ 23 + n * 2 ^ (23 - Nat.log2 n)))

/-! ### Memory -/

/-- R187, R196: where a lane's access goes. The 64-bit sum wraps; a scratchpad access lies inside the allocation; an access is aligned; a
peer access whose handle names no live wave of the launch raises PEER_GONE, its sum without wrap, a uniform offset being signed (log entry 123).
R143, R172, R174: the checks of one aligned access, in their order: translation, device widths, permission, page type. `leaf` is the
translation in force. -/
def Obligations.AddressesAndChecks : Prop :=
  (∀ (s : State) (w : Wave) (o : Ops) (sc l n : Nat) (k : AKind), 0 < n →
  (eaOf w o sc l).toNat = ((rdS w o.a).toNat + (match o.b with
    | .v m => (rdV w l m).toNat * 2 ^ sc
    | .s m => (rdS w m).toNat
    | .imm x => x.toNat)) % 2 ^ 64 ∧
  (padAcc w (eaOf w o sc) n l).toOption =
    (if (eaOf w o sc l).toNat % n = 0 ∧ (eaOf w o sc l).toNat < w.foot.spad then
      some { lane := l, loc := .pad (whoOf w).uid (eaOf w o sc l).toNat, va := (eaOf w o sc l).toNat, page := pageNormal } else none) ∧
  ((eaOf w o sc l).toNat % n ≠ 0 →
    padAcc w (eaOf w o sc) n l = .error { cause := 4, addr := (eaOf w o sc l).toNat, detail := n } ∧
    memAcc s w k (eaOf w o sc) n l = .error { cause := 4, addr := (eaOf w o sc l).toNat, detail := n }) ∧
  ((eaOf w o sc l).toNat % n = 0 → w.foot.spad ≤ (eaOf w o sc l).toNat →
    padAcc w (eaOf w o sc) n l = .error { cause := 5, addr := (eaOf w o sc l).toNat, detail := 0 }) ∧
  (let h := (rdS w o.a).toNat
   let p : Int := (h % 2 ^ 32 : Nat) + (match o.b with
     | .v m => ((rdV w l m).toNat * 2 ^ o.x : Nat)
     | .s m => (rdS w m).toInt
     | .imm x => x.toInt)
   p % n = 0 → h / 2 ^ 40 = 0 → (∀ x ∈ s.waves, ¬(x.fork = none ∧ x.die = w.die ∧ x.core = 4 * (w.core / 4) + h / 2 ^ 38 % 4 ∧
     x.wctx = h / 2 ^ 32 % 64 ∧ x.launch = w.launch)) →
   peerAcc s w o n l = .error { cause := 6, addr := (p % 2 ^ 64).toNat, detail := 4 * (w.core / 4) + h / 2 ^ 38 % 4 + 2 ^ 8 * (h / 2 ^ 32 % 64) })) ∧
  (∀ (s : State) (asid va n : Nat) (wsw : Bool) (k : AKind), n ≠ 0 → va % n = 0 →
  (translate s asid va = none → checkMem s asid wsw k va n = .error { cause := 2, addr := va, detail := asid }) ∧
  (∀ leaf, translate s asid va = some leaf →
    let ty := (pageOf leaf.1).ptype
    let narrow := ty = .device ∧ (k = .load ∨ k = .store) ∧ n ≠ 4 ∧ n ≠ 8
    let denied := (k = .fetch ∧ leaf.1.testBit 4 = false) ∨ ((k = .load ∨ k = .estRead ∨ k = .atomic) ∧ leaf.1.testBit 2 = false) ∨
      ((k = .store ∨ k = .estWrite ∨ k = .atomic) ∧ leaf.1.testBit 3 = false) ∨ (k = .store ∧ ty = .weight ∧ wsw = false) ∨
      (k = .atomic ∧ (ty = .weight ∨ ty = .device))
    let mistyped := ((k = .store ∨ k = .atomic) ∧ ty = .estimator) ∨ ((k = .estRead ∨ k = .estWrite) ∧ ty ≠ .estimator)
    (narrow → checkMem s asid wsw k va n = .error { cause := 4, addr := va, detail := n }) ∧
    (¬narrow → denied → ∃ d, checkMem s asid wsw k va n = .error { cause := 3, addr := va, detail := d }) ∧
    (¬narrow → ¬denied → mistyped → checkMem s asid wsw k va n = .error { cause := 10, addr := va, detail := 0 }) ∧
    (¬narrow → ¬denied → ¬mistyped → checkMem s asid wsw k va n = .ok (paUnder leaf va, pageOf leaf.1))))

/-- R187 to R198, R217: a load whose lanes pass their checks leaves as one operation, counted in `ld`; an acquire holds its wave. Loads of
a continuation are performed as they issue and are not meant here.
R187 to R198, R218, R223: a store whose lanes pass their checks leaves as one operation, counted in `st`, with the values its lanes
hold now; of lanes with one address the highest stores. A release needs older operations complete; its lazy lanes (R223) take entries of
the core's release buffer and the others are stored; lazy entries ahead of it are recorded, or at home when it acts at once beyond the core
(R220, R221; log entry 119). -/
def Obligations.LoadsAndStoresIssue : Prop :=
  (∀ (s : State) (w : Wave) (ls : List Nat) (o : Ops) (as : List Acc),
  NoForks s w → counter s w.uid .ld < 63 → as.any (accTileBusy s (Machine.sizeOf o)) = false →
  let w1 := if (acqScope o).isSome then { w with blocked := some s.nextFid } else w
  let sends (i : Instr) : Prop :=
    Sends i s w w1 .ld (.load (loadDst w o) (Machine.sizeOf o) as (acqScope o)) none (fun t => t.cores = s.cores)
  (Issues s (.ld o) w ls → gather (memAcc s w .load (eaOf w o o.x) (Machine.sizeOf o)) (accLanes o ls) = .ok as → sends (.ld o)) ∧
  (Issues s (.ldu o) w ls → gather (memAcc s w .load (eaOf w o o.x) (Machine.sizeOf o)) (accLanes o ls) = .ok as → sends (.ldu o)) ∧
  (Issues s (.lds o) w ls → gather (padAcc w (eaOf w o o.x) (Machine.sizeOf o)) (accLanes o ls) = .ok as → sends (.lds o)) ∧
  (Issues s (.ldp o) w ls → gather (peerAcc s w o (Machine.sizeOf o)) (accLanes o ls) = .ok as → sends (.ldp o))) ∧
  (∀ (s : State) (w : Wave) (ls : List Nat) (o : Ops) (as : List Acc),
  NoForks s w → counter s w.uid .st < 63 → as.any (accTileBusy s (Machine.sizeOf o)) = false → 
  let xs := lastLanes (as.map (fun a => (a, opD w o o.ty a.lane)))
  let ps := splitLazy o xs
  let c := coreAt s w.die w.core
  (isRelease o = true → ReleaseReady s w (eagerRelease o xs)) → c.relb.length + ps.1.length ≤ 16 →
  let sends (i : Instr) : Prop :=
    Sends i s w w .st (if ps.2.isEmpty then .rel else .store (Machine.sizeOf o) ps.2) none (fun t =>
      OnlyCore s t w.die w.core ∧
      { coreAt t w.die w.core with l1 := c.l1, relb := c.relb } = c ∧
      (coreAt t w.die w.core).relb.map (fun e => (e.pa, e.size, e.val)) =
        c.relb.map (fun e => (e.pa, e.size, e.val)) ++ ps.1.map (fun x => (lazyPa x.1, Machine.sizeOf o, x.2)))
  (Issues s (.st o) w ls → gather (memAcc s w .store (eaOf w o o.x) (Machine.sizeOf o)) (accLanes o ls) = .ok as → sends (.st o)) ∧
  (Issues s (.stu o) w ls → gather (memAcc s w .store (eaOf w o o.x) (Machine.sizeOf o)) (accLanes o ls) = .ok as → sends (.stu o)) ∧
  (Issues s (.sts o) w ls → gather (padAcc w (eaOf w o o.x) (Machine.sizeOf o)) (accLanes o ls) = .ok as → sends (.sts o)) ∧
  (Issues s (.stp o) w ls → gather (peerAcc s w o (Machine.sizeOf o)) (accLanes o ls) = .ok as → sends (.stp o)))

/-- R82, R176, R191, R194: a load's completion writes, in each of its lanes, what the lane reads at its place then, and changes nothing else
of the wave and no memory. A scratchpad, or a page kept at the home past the L1, gives the bytes that stand there; a normal or weight page with CL
= 00 is read through the L1, lane by lane, and gives the bytes that the core reads there (`CoresReadThroughL1` states which). A bank in refresh
keeps a read waiting (R184); poison, acquires and waves with forks are not meant. A narrow value fills its register by sign or with zeros as its
type says. -/
def Obligations.LoadCompletionWritesRegisters : Prop := ∀ (s : State) (fid n : Nat) (f : Flight) (d : LoadDst) (as : List Acc) (w : Wave),
  InFlight s fid f → f.act = .load d n as none → findWave s d.uid = some w →
  shadowsOf s f.who.uid (fun _ _ => true) = [] →
  d.reg + (if d.ty.is64 then 1 else 0) < 256 →
  (∀ a ∈ as, weightWaits s f.who false a = false) → (d.vec = true → (as.map (fun a => a.lane)).Nodup) → (d.vec = false → as.length = 1) →
  let writes (vs : List (Acc × Nat)) : Prop := Answers (.loadCompletion fid) s (fun t =>
    SameMemory s t ∧ t.hostMem = s.hostMem ∧ ∃ w1, findWave t d.uid = some w1 ∧ OthersKeep s t d.uid ∧ LoadWrites d n vs w w1)
  (QuietPath s f → (∀ a ∈ as, PlainAt s a n) → writes (as.map (fun a => (a, leNat (bytesAt s a n))))) ∧
  ((f.vis.isNone && pathBusy s f.who.uid f.id (actAccs f.act)) = false →
    (∀ a ∈ as, (∃ pa, a.loc = .mem pa) ∧ (a.page.ptype = .normal ∨ a.page.ptype = .weight) ∧ a.page.cl = 0) →
    (∀ v ∈ cachedReads f.who n as s, v.2.2 = false) →
    writes ((cachedReads f.who n as s).map (fun v => (v.1, leNat v.2.1))))

/-- R176, R181: what a core reads through its L1: a valid sector as it stands there; else the quad's current replica of it; else a healthy
home sector; a sector that is poisoned where it is read is reported so (R404, R406). What comes from elsewhere has the core's own stores and
lazy releases on their way laid over it (`overlay`, R214, R224),
and the L1 holds it from then on.
R199: `pf` changes caches only, whatever its lanes name; a continuation stops before it on a device or weight page (R132); a line of
the weight store whose bank is in refresh keeps it waiting (R184). -/
def Obligations.CoreCaches : Prop :=
  (∀ (s : State) (die core pa n : Nat) (pg : Page),
  let r := coreRead s die core pg .cached pa n
  let sector := memBytes s.mem (32 * (pa / 32)) 32
  let filled (bs : List Byte) : Prop :=
    r.2 = (overlay s die core pa ((bs.drop (pa % 32)).take n), false) ∧
    ((coreAt s die core).spw < 8 → bs ≠ [] → lineSector (coreAt r.1 die core).l1 pa = some (overlay s die core (32 * (pa / 32)) bs))
  { r.1 with cores := s.cores, quads := s.quads } = s ∧
  (∀ bs, lineSector (coreAt s die core).l1 pa = some bs →
    r.2 = ((bs.drop (pa % 32)).take n, lineBad (coreAt s die core).l1 pa) ∧ r.1.quads = s.quads) ∧
  (lineSector (coreAt s die core).l1 pa = none →
    (∀ bs, repSector (quadAt s (quadOf die core)) pa = some bs →
      if repBad (quadAt s (quadOf die core)) pa then r.2.2 = true ∧ r.1.cores = s.cores else filled bs) ∧
    (repSector (quadAt s (quadOf die core)) pa = none →
      (pa / 32 ∈ s.poison → r.2.2 = true ∧ r.1.cores = s.cores) ∧ (pa / 32 ∉ s.poison → filled sector)))) ∧
  (∀ (s : State) (w : Wave) (ls : List Nat) (o : Ops),
  Issues s (.pf o) w ls →
  (w.fork = none ∨ ∀ l ∈ accLanes o ls, ∀ r, prefetchPage s w o l = some r → r.2.ptype ≠ .device ∧ r.2.ptype ≠ .weight) →
  if ∃ l ∈ accLanes o ls, prefetchWaits s w o l = true then exec (.pf o) s = .next s
  else Answers (.pf o) s (fun t =>
    { t with waves := s.waves, tlb := s.tlb, cores := s.cores, quads := s.quads } = s ∧ WaveIs s t w.uid (goSeq w) ∧ SameMemory s t))

/-- R200, R201, R217, R218: an atomic or reduction leaves as one operation with its lanes' operands; `atom` counts in `ld`, `red` in `st`; an
acquire holds its wave. One whose lanes find their lines in the L1 is performed there as it issues: it is counted, and the wave goes on; poison
it meets there is deferred to the wave (R406).
R75, R200: the new value of a location, by the code of the operation; the float operations give what `fadd`, `fmin` and `fmax` give with
round to nearest even and subnormals kept.
R200, R201: lanes of an atomic at the home work one after another in ascending order, each on the bytes the lanes before it left; a
lane's register gets what it found. Memory changes nowhere else. -/
def Obligations.AtomicsIssueAndPerform : Prop :=
  (∀ (s : State) (w : Wave) (ls : List Nat) (o : Ops) (as : List Acc),
  NoForks s w → (isRelease o = true → ReleaseReady s w (beyondCore o.sc)) →
  gather (memAcc s w .atomic (eaOf w o (o.x / 16)) (Machine.sizeOf o)) (accLanes o ls) = .ok as →
  let w1 := if (acqScope o).isSome then { w with blocked := some s.nextFid } else w
  let xs := as.map (fun a => (a, opC w o o.ty a.lane, casNew w o a.lane))
  let goesOn (i : Instr) (cls : Cls) : Prop := Answers i s (fun t => SameMemory s t ∧ t.hostMem = s.hostMem ∧ CountsUp s t w.uid cls ∧
    ∃ w2, WaveIs s t w.uid (goSeq w2) ∧ { w2 with v := w.v, s := w.s, hs := w.hs, blocked := w.blocked, trap := w.trap } = w ∧
      { w2.trap with held := w.trap.held } = w.trap)
  (Issues s (.atom o) w ls → counter s w.uid .ld < 63 → goesOn (.atom o) .ld) ∧
  (Issues s (.red o) w ls → counter s w.uid .st < 63 → goesOn (.red o) .st) ∧
  ((∀ a ∈ as, atomNow s w o.sc (Machine.sizeOf o) a = false) →
  (Issues s (.atom o) w ls → counter s w.uid .ld < 63 →
    Sends (.atom o) s w w1 .ld (.atom (some (loadDst w o)) (o.x % 16) o.ty xs o.sc o.ord) none (fun t => t.cores = s.cores)) ∧
  (Issues s (.red o) w ls → counter s w.uid .st < 63 →
    Sends (.red o) s w w1 .st (.atom none (o.x % 16) o.ty xs o.sc o.ord) none (fun t => t.cores = s.cores)))) ∧
  (∀ (t : Ty) (old c c2 : Nat), old < 2 ^ t.bits → c < 2 ^ t.bits →
  atomNew 0 t old c c2 = (old + c) % 2 ^ t.bits ∧
  atomNew 1 t old c c2 = (if tval t c < tval t old then c else old) ∧
  atomNew 2 t old c c2 = (if tval t old < tval t c then c else old) ∧
  (∀ i, (atomNew 3 t old c c2).testBit i = (old.testBit i && c.testBit i)) ∧
  (∀ i, (atomNew 4 t old c c2).testBit i = (old.testBit i || c.testBit i)) ∧
  (∀ i, (atomNew 5 t old c c2).testBit i = (old.testBit i != c.testBit i)) ∧
  atomNew 6 t old c c2 = c ∧ atomNew 7 t old c c2 = (if old = c then c2 else old) ∧
  (t = .f32 → ∀ w : Wave, w.fpmode = 0 →
    atomNew 8 t old c c2 = (fOp w .f32 .rn false [old, c] fnAdd).1 ∧
    atomNew 9 t old c c2 = (fMinMax (fmtOfTy .f32) (fpEnv w .f32 .rn) false old c).1 ∧
    atomNew 10 t old c c2 = (fMinMax (fmtOfTy .f32) (fpEnv w .f32 .rn) true old c).1)) ∧
  (∀ (s : State) (fid op : Nat) (f : Flight) (dst : Option LoadDst) (t : Ty)
    (xs : List (Acc × Nat × Nat)) (sc : Scope) (ord : Ord),
  let n := t.bits / 8
  let after (m : Mem) (x : Acc × Nat × Nat) : Mem := match x.1.loc with
    | .mem pa => memPutNat m pa n (atomNew op t (memNat m pa n) x.2.1 x.2.2)
    | .pad _ _ => m
  InFlight s fid f → f.act = .atom dst op t xs sc ord → QuietPath s f → (∀ x ∈ xs, atomLocal sc x.1 = false) →
  shadowsOf s f.who.uid (fun _ _ => true) = [] →
  (∀ x ∈ xs, ∃ pa, x.1.loc = .mem pa ∧ pa % 32 + n ≤ 32 ∧ pa / 32 ∉ s.poison) →
  (∀ d, dst = some d → (findWave s d.uid).isSome = true ∧ d.ty = t ∧ d.reg + (if t.is64 then 1 else 0) < 256 ∧
    (if d.vec then (xs.map (fun x => x.1.lane)).Nodup else xs.length = 1)) →
  Answers (if dst.isSome then .loadCompletion fid else .storeCompletion fid) s (fun u =>
    (∀ a, memGet u.mem a = memGet (xs.foldl after s.mem) a) ∧ u.hostMem = s.hostMem ∧
    ∀ d w, dst = some d → findWave s d.uid = some w → ∃ w1, findWave u d.uid = some w1 ∧ OthersKeep s u d.uid ∧
      (if d.vec then VecFrame d.reg t.is64 (xs.map (fun x => x.1.lane)) { w with blocked := w1.blocked } w1
       else { w1 with s := w.s, hs := w.hs, blocked := w.blocked } = w ∧ ∀ k, k ≠ d.reg → rdBank w1 k = rdBank w k) ∧
      ∀ pre x post pa, xs = pre ++ x :: post → x.1.loc = .mem pa →
        (if d.vec then rdVec w1 t x.1.lane d.reg else (rdBank w1 d.reg).toNat % 2 ^ t.bits) = memNat (pre.foldl after s.mem) pa n))

/-- R203, R204, R217, R218: a `fence` and a `wait` complete once what they wait for is over. An acquire at quad scope or wider empties the
core's caches; at die scope or wider it moves on to a new generation of replicas. -/
def Obligations.FencesAndWaits : Prop := ∀ (s : State) (w : Wave) (ls : List Nat) (g : Guard), NoForks s w →
  (∀ sc ord, Issues s (.fence g sc ord) w ls → (ord = .rel ∨ ord = .ar → ReleaseReady s w (beyondCore sc)) →
    (ord = .acq ∨ ord = .ar → counter s w.uid .ld = 0) →
    Answers (.fence g sc ord) s (fun t =>
      { t with waves := s.waves, cores := s.cores, quads := s.quads } = s ∧ WaveIs s t w.uid (goSeq w) ∧
      let c := coreAt s w.die w.core
      let q := quadOf w.die w.core
      if (ord = .acq ∨ ord = .ar) ∧ sc ≠ .wave ∧ sc ≠ .core then
        coreAt t w.die w.core = { c with l1 := [], l1old := [], ncache := [], tcache := [] } ∧
        (∀ k, k ≠ coreKey w.die w.core → SameButCopies (stGet coreDefault k s.cores) (stGet coreDefault k t.cores)) ∧
        (sc = .quad → OnlyCore s t w.die w.core) ∧
        (sc ≠ .quad → (quadAt t q).gen = ((quadAt s q).gen + 1) % 256) ∧ (sc = .quad → t.quads = s.quads)
      else t.cores = s.cores ∧ t.quads = s.quads)) ∧
  (∀ ld st cp mx tx, Issues s (.wait g ld st cp mx tx) w ls →
    (∀ n, ld = some n → counter s w.uid .ld ≤ n) → (∀ n, st = some n → counter s w.uid .st ≤ n) →
    (∀ n, cp = some n → counter s w.uid .cp ≤ n) → (∀ n, mx = some n → counter s w.uid .mx ≤ n) →
    (∀ n, tx = some n → counter s w.uid .tx ≤ n) → (st = some 0 → MergesOver s w) →
    Completes (.wait g ld st cp mx tx) s w (fun w1 => w1 = w))

/-- R205 to R208: barrier operations leave counted in `st`; `bar.wait` waits while the phase is the one given, until a phase's completion
releases it; then it is over and has acquired at quad scope.
R205, R206, R207: what the keeper makes of a barrier object, and that it changes those 16 bytes of the scratchpad and nothing else; a phase
that an arrival or expectation completes releases the owner's `bar.wait` on the object, unless it waits for the new phase. -/
def Obligations.BarrierOperations : Prop :=
  (∀ (s : State) (w : Wave) (ls : List Nat) (o : Ops) (uid off : Nat), NoForks s w →
  let arg := opB w o .b64 0
  (counter s w.uid .st < 63 →
    (Issues s (.barInit o) w ls → barAddr s w (bitAt o.x 0) (rdS w o.a) (badCount arg) = .ok (uid, off) →
      Sends (.barInit o) s w w .st (.bar uid off (.init arg)) none (fun t => t.cores = s.cores)) ∧
    (ReleaseReady s w true →
      (Issues s (.barArr o) w ls → barAddr s w (bitAt o.x 0) (rdS w o.a) (badCount arg) = .ok (uid, off) →
        Sends (.barArr o) s w w .st (.bar uid off (.arr arg)) none (fun t => t.cores = s.cores)) ∧
      (Issues s (.barExp o) w ls → barAddr s w (bitAt o.x 0) (rdS w o.a) false = .ok (uid, off) →
        Sends (.barExp o) s w w .st (.bar uid off (.exp (BitVec.ofNat 64 arg))) none (fun t => t.cores = s.cores)))) ∧
  (Issues s (.barWait o) w ls → barAddr s w false (rdS w o.a) false = .ok (uid, off) →
    pathBusy s w.uid s.nextFid [({ lane := 0, loc := .pad uid off, va := 0, page := pageNormal }, 16)] = false →
    let held (b : Bool) : BarHold := { off := off, phase := arg % 4096, released := b }
    ((barAt s uid off).phase = arg % 4096 → w.barHold = some (held false) → exec (.barWait o) s = .next s) ∧
    ((barAt s uid off).phase = arg % 4096 → w.barHold = none →
      exec (.barWait o) s = .next (updHolder s w.uid (fun x => { x with barHold := some (held false) }))) ∧
    ((barAt s uid off).phase ≠ arg % 4096 ∨ w.barHold = some (held true) → Answers (.barWait o) s (fun t =>
      { t with waves := s.waves, ghosts := s.ghosts, cores := s.cores } = s ∧ WaveIs s t w.uid (goSeq { w with barHold := none }) ∧
      OnlyCore s t w.die w.core ∧
      coreAt t w.die w.core = { coreAt s w.die w.core with l1 := [], l1old := [], ncache := [], tcache := [] })))) ∧
  (∀ (s : State) (fid uid off : Nat) (f : Flight) (op : BarOp),
  InFlight s fid f → f.act = .bar uid off op → pathBusy s f.who.uid f.id (actAccs f.act) = false → (holder s uid).isSome = true →
  (∀ n, op = .init n → n ≤ 1023) →
  Answers (.barrierOperation fid) s (fun t =>
    t.mem = s.mem ∧ t.cores = s.cores ∧ (∀ a, a < off ∨ off + 16 ≤ a → padRead t uid a 1 = padRead s uid a 1) ∧
    (∀ u a, u ≠ uid → padRead t u a 1 = padRead s u a 1) ∧
    (∀ w h, findWave s uid = some w → w.barHold = some h → h.off = off → (∀ n, op ≠ .init n) →
      (barAt t uid off).phase ≠ (barAt s uid off).phase → h.phase ≠ (barAt t uid off).phase →
      ∃ w', findWave t uid = some w' ∧ w'.barHold = some { h with released := true }) ∧
    let b := barAt s uid off
    let settled (b : BarObj) : BarObj :=
      if b.await = 0 ∧ b.bytes = 0 then { b with phase := (b.phase + 1) % 4096, await := b.reload } else b
    barAt t uid off = match op with
      | .init n => { ovr := false, reload := n, await := n, phase := 0, bytes := 0 }
      | .arr n => if n ≤ b.await then settled { b with await := b.await - n } else settled { b with await := 0, ovr := true }
      | .exp n => settled { b with bytes := b.bytes + n }))

/-- R191, R194, R196: a store's completion puts its bytes where its lanes name, in lane order; every other byte of memory and of the
scratchpads is as before. Stores to device registers are not meant. R191, R406: the lanes act together: a sector they cover whole is
healthy then (the model's reading, log entry 113), and no sector that they leave alone changes its mark.
R155, R223, R224, R406: the late events of stores: a core's oldest lazy release, once due, goes home; poisoned data of a store, or of a
lazy release on its way home, poisons its sectors and makes an error record of kind 1 and cause 7 for the context's error node; that each sector of the store is poisoned is the
model's reading (log entry 39). -/
def Obligations.StoreEvents : Prop :=
  (∀ (s : State) (fid n : Nat) (f : Flight) (xs : List (Acc × Nat)),
  InFlight s fid f → f.act = .store n xs → QuietPath s f →
  (∀ x ∈ xs, x.1.page.ptype ≠ .device ∧ match x.1.loc with | .mem _ => True | .pad u _ => (holder s u).isSome = true) →
  Answers (.storeCompletion fid) s (fun t =>
    t.hostMem = s.hostMem ∧
    (∀ a, (∀ x ∈ xs, locHit x.1.loc n (.mem a) 1 = false) → memGet t.mem a = memGet s.mem a) ∧
    (∀ u a, (∀ x ∈ xs, locHit x.1.loc n (.pad u a) 1 = false) → padRead t u a 1 = padRead s u a 1) ∧
    (xs.Pairwise (fun x y => locHit x.1.loc n y.1.loc n = false) →
      ∀ x ∈ xs, match x.1.loc with
        | .mem pa => memBytes t.mem pa n = leBytes n x.2
        | .pad u off => padRead t u off n = leBytes n x.2) ∧
    (∀ k, (∀ i, i < 32 → ∃ x ∈ xs, locHit x.1.loc n (.mem (32 * k + i)) 1 = true) → k ∉ t.poison) ∧
    (∀ k, (∀ x ∈ xs, locHit x.1.loc n (.mem (32 * k)) 32 = false) → (k ∈ t.poison ↔ k ∈ s.poison)))) ∧
  (∀ s : State,
  (∀ die core e, lazyHead (coreAt s die core) = some e → Answers (.lazyWriteBack die core) s (fun t =>
    (∀ a, memGet t.mem a = memGet (memPutNat s.mem e.pa e.size e.val) a) ∧ t.waves = s.waves ∧ t.flights = s.flights ∧
    (∀ k, k ≠ coreKey die core → SameButCopies (stGet coreDefault k s.cores) (stGet coreDefault k t.cores)) ∧
    SameButCopies { coreAt s die core with relb := (coreAt s die core).relb.drop 1 } (coreAt t die core))) ∧
  (∀ fid f n xs c, InFlight s fid f → f.act = .store n xs → storeSectors n xs ≠ [] → (∀ g ∈ s.flights, g.id < s.nextFid) →
    recordBusy s f (releaseRanges s f) = false → findCtx s f.who.asid = some c →
    Answers (.lateError fid) s (fun t => t.mem = s.mem ∧ (∀ p, p ∈ t.poison ↔ p ∈ s.poison ∨ p ∈ storeSectors n xs) ∧
      ∃ g ∈ t.flights, g.id = s.nextFid ∧ ∃ r, g.act = .record f.who.die r true ∧ r.node = c.errn ∧ r.weight = 0 ∧
        r.pay = errWords 1 7 f.who (BitVec.ofNat 64 ((xs.map (fun x => x.1.va)).headD 0)))) ∧
  (∀ fid k e c, findFlight s fid = none →
    s.cores.findSome? (fun c => (lazyHead c.2).bind (fun e => if e.fid == fid then some (c.1, e) else none)) = some (k, e) →
    findCtx s e.who.asid = some c →
    Answers (.lateError fid) s (fun t => t.mem = s.mem ∧
      (∀ p, p ∈ t.poison ↔ p ∈ s.poison ∨ (e.pa / 32 ≤ p ∧ 32 * p < e.pa + e.size)) ∧
      (coreAt t (k / 128) (k % 128)).relb = (coreAt s (k / 128) (k % 128)).relb.drop 1 ∧
      ∃ g ∈ t.flights, g.id = s.nextFid ∧ ∃ r, g.act = .record e.who.die r true ∧ r.node = c.errn ∧ r.weight = 0 ∧
        r.pay = errWords 1 7 e.who (BitVec.ofNat 64 e.va))))

/-- R167, R179, R183, R184, R201, R212, R401: what the outside world does to memory: HOST_ACCESS, HOST_DMA_WEIGHT_WRITE and HOST_ATOMIC answer a next state: reads
change nothing; a write puts its bytes where it says and nowhere
else, an AtomicOp its new value; the weight stores take writes while no wave is resident on a die they lie on and no bank of theirs is in refresh; a write that finds one waits
outside; lines of the L2 slices change with them (R179); device space is
its registers; an address outside every populated range (R167) stops the model, which is its own choice (log entry 17). -/
def Obligations.HostAccessesMemory : Prop := ∀ (s : State) (pa len : Nat) (bytes : List Byte), (∀ c ∈ s.cores, c.2.relb = []) →
  let n := if bytes.isEmpty then len else bytes.length
  let puts (t : State) : Prop := (∀ a, memGet t.mem a = memGet (memPut s.mem pa bytes) a)
  let caches (t : State) : State := { t with mem := s.mem, poison := s.poison, quads := s.quads }
  (0 < n → pa + n ≤ 2 ^ 40 → ∃ t, exec (.hostAccess pa len bytes) s = .next t ∧ caches t = s ∧ puts t ∧ (bytes = [] → t = s)) ∧
  (bytes ≠ [] → 0x010000000000 ≤ pa → pa + n ≤ 0x010200000000 →
    (∀ l ∈ linesOf pa n, inRefresh s.time (bankOf l) = false ∧ ∀ w ∈ s.waves, w.die ≠ homeDie l) →
    (∃ t, exec (.hostAccess pa len bytes) s = .next t ∧ { caches t with inputs := s.inputs } = s ∧ puts t) ∧
    ∃ t, exec (.hostDmaWeightWrite pa bytes) s = .next t ∧ { caches t with inputs := s.inputs } = s ∧ puts t) ∧
  (bytes ≠ [] → 0x010000000000 ≤ pa → pa + n ≤ 0x010200000000 →
    (∃ l ∈ linesOf pa n, inRefresh s.time (bankOf l) = true ∨ ∃ w ∈ s.waves, w.die = homeDie l) →
    (∃ t, exec (.hostAccess pa len bytes) s = .next t ∧ { t with inputs := s.inputs } = s) ∧
    ∃ t, exec (.hostDmaWeightWrite pa bytes) s = .next t ∧ { t with inputs := s.inputs } = s) ∧
  (isDevice pa = true → isDevice (pa + n - 1) = true → exec (.hostAccess pa len bytes) s = .next (if bytes = [] then s else devWrite s pa bytes)) ∧
  (0 < n → 0x010200000000 ≤ pa → pa < 0x0F0000000000 → exec (.hostAccess pa len bytes) s = .fault (.noSuchAddress pa)) ∧
  (∀ op size x y, pa < 2 ^ 40 → pa / 32 ∉ s.poison → ∃ t, exec (.hostAtomic op pa size x y) s = .next t ∧ caches t = s ∧
    let old := memNat s.mem pa size
    let new := match op with
      | .fetchAdd => (old + x.toNat) % 2 ^ (8 * size)
      | .swap => x.toNat % 2 ^ (8 * size)
      | .cas => if old = x.toNat % 2 ^ (8 * size) then y.toNat % 2 ^ (8 * size) else old
    ∀ a, memGet t.mem a = memGet (memPutNat s.mem pa size new) a)

/-! ### Estimators -/

/-- R240, R245, R251: the lanes of `est.add` and `est.mrg`: a weight that is NaN, negative or infinite raises NV and is dropped, a zero one
is dropped; the kept lanes of unordered regions combine in lane order in the core's buffer, those of ordered regions leave for the keepers
with the wave's count of the region, which goes up. The buffer has room here, so that nothing is flushed.
R241, R247 to R249, R252, R253: `est.ld` leaves as one operation, with half of the remaining weight for each region named that asks for
reseeds unless `.nr` says not: one share for each region, whatever the number of its cells, is the model's reading (log entry 52); `est.clr`
flushes the core's entries for its cells before it leaves; `est.adv` and `est.close` leave for the
keeper of a valid region. -/
def Obligations.EstimatorInstructions : Prop :=
  (∀ (s : State) (w : Wave) (ls : List Nat) (o : Ops) (cs : List (Nat × CellRef × Region)),
  NoForks s w → counter s w.uid .st < 63 → gather (cellAt s w o .estWrite) ls = .ok cs →
  (coreAt s w.die w.core).ecb.length + cs.length ≤ 64 →
  let run (i : Instr) (val : Nat → Partial) : Prop :=
    let wt (l : Nat) : Nat := (val l).w
    let bad (l : Nat) : Bool := f32IsNan (wt l) || f32Lt (wt l) 0 || wt l == 0x7F800000
    let kept := cs.filter (fun c => !bad c.1 && !f32IsZero (wt c.1))
    let staged (c : Nat × CellRef × Region) : Staged :=
      { part := val c.1, lane := c.1, cell := c.2.1.idx, seq := stGet 0 c.2.1.region w.seqs, widx := w.widx, lno := w.launch % 2 ^ 32 }
    let recs := (kept.filter (fun c => c.2.2.ord)).map (fun c => (c.2.1, staged c))
    let w1 := { w with
      fpflags := if cs.any (fun c => bad c.1) then w.fpflags ||| 1 else w.fpflags
      seqs := (orderedNamed cs).foldl (fun m r => stSet 0 r ((stGet 0 r m + 1) % 2 ^ 24) m) w.seqs }
    let combined (t : State) : Prop := OnlyCore s t w.die w.core ∧ ∀ pa e, bufferPart t w.die w.core w.asid pa e =
      (kept.filter (fun k => !k.2.2.ord && k.2.1.pa == pa && k.2.2.known == e)).foldl (fun p k => mergePart p (val k.1))
        (bufferPart s w.die w.core w.asid pa e)
    (kept ≠ [] → Sends i s w w1 .st (if recs.isEmpty then .nop else .stage recs) none combined) ∧
    (kept = [] → Answers i s (fun t => WaveIs s t w.uid (goSeq w1) ∧ { t with waves := s.waves, tlb := s.tlb } = s))
  (Issues s (.estAdd o) w ls →
    run (.estAdd o) (fun l => { m := (rdV w l o.d).toNat, s := 0, w := (rdV w l (o.d + 1)).toNat, n := 1 })) ∧
  (Issues s (.estMrg o) w ls →
    run (.estMrg o) (fun l => { m := (rdV w l o.d).toNat, s := (rdV w l (o.d + 1)).toNat, w := (rdV w l (o.d + 2)).toNat,
                                n := (rdV w l (o.d + 3)).toNat % 2 ^ 24 }))) ∧
  (∀ (s : State) (w : Wave) (ls : List Nat), NoForks s w →
  (∀ o cs, Issues s (.estLd o) w ls → counter s w.uid .ld < 63 → gather (cellAt s w o .estRead) ls = .ok cs →
    let rs := if o.x.testBit 3 then [] else ((cs.filter (fun c => c.2.2.rs)).map (fun c => c.2.1.region)).eraseDups
    (rs = [] ∨ 2 ^ rs.length ≤ w.weight) →
    ∃ w1 shares, shares.map (fun x => x.1) = rs ∧ w1.weight + (shares.map (fun x => x.2)).sum = w.weight ∧
      (∀ pre x post, shares = pre ++ x :: post → x.2 = (w.weight - (pre.map (fun y => y.2)).sum) / 2) ∧
      { w1 with weight := w.weight } = w ∧
      Sends (.estLd o) s w w1 .ld (.estLd w.uid o.d (o.x.testBit 3) (cs.map (fun c => (c.1, c.2.1))) shares) none
        (fun t => t.cores = s.cores)) ∧
  (∀ o cs, Issues s (.estClr o) w ls → counter s w.uid .st < 63 → gather (cellAt s w o .estWrite) ls = .ok cs →
    let pas := cs.map (fun c => c.2.1.pa)
    Answers (.estClr o) s (fun t =>
      { t with waves := s.waves, tlb := s.tlb, flights := s.flights, nextFid := s.nextFid, cores := s.cores } = s ∧
      WaveIs s t w.uid (goSeq w) ∧ OnlyCore s t w.die w.core ∧ CountsUp s t w.uid .st ∧
      (∃ f ∈ t.flights, f.who = whoOf w ∧ f.cls = some .st ∧ f.act = .estClr (cs.map (fun c => c.2.1))) ∧
      (∀ e ∈ (coreAt t w.die w.core).ecb, e.cell.pa ∉ pas) ∧
      ∀ e ∈ (coreAt s w.die w.core).ecb, e.cell.pa ∈ pas → ∃ g ∈ t.flights, ∃ ws, g.act = .merge e.cell e.part ws none)) ∧
  (∀ o r, counter s w.uid .st < 63 → (rdS w o.sa).toNat < 256 → regionOf s w.asid (rdS w o.sa).toNat = some r → r.valid = true →
    let rr := if o.rf then some (bankKey w o.rr) else none
    (Issues s (.estAdv o) w ls →
      Sends (.estAdv o) s w w .st (.region w.asid (rdS w o.sa).toNat true 0 0 false) rr (fun t => t.cores = s.cores)) ∧
    (Issues s (.estClose o) w ls →
      Sends (.estClose o) s w w .st (.region w.asid (rdS w o.sa).toNat false 0 0 false) rr (fun t => t.cores = s.cores))))

/-- R240, R241, R247, R249, R251 to R253: the six estimator instructions run to their end on every operand that passes its lanes' checks: `exec`
answers a next state, the wave goes on with nothing but its own bookkeeping changed, no byte of memory has changed yet, and
`est.ld`, `est.clr`, `est.adv` and `est.close` are counted. `est.ld` needs a unit of weight to leave for each region it asks for. The two
that a fork may have to be dropped for (log entry 117) leave the marks of its return and what the predictor still learns in the wave. No continuation
of the wave has the wave's own number. -/
def Obligations.EstimatorInstructionsComplete : Prop := ∀ (s : State) (w : Wave) (ls : List Nat) (o : Ops) (cs : List (Nat × CellRef × Region)),
  (∀ x ∈ s.waves, ∀ f, x.fork = some f → f.home = w.uid → x.uid ≠ w.uid) →
  let goesOn (i : Instr) (P : State → Wave → Prop) : Prop :=
    ∃ t w1, exec i s = .next t ∧ findWave t w.uid = some (goSeq w1) ∧ SameMemory s t ∧ P t w1
  let samples (_ : State) (w1 : Wave) : Prop := { w1 with fpflags := w.fpflags, seqs := w.seqs } = w
  (Issues s (.estAdd o) w ls → counter s w.uid .st < 63 → gather (cellAt s w o .estWrite) ls = .ok cs → goesOn (.estAdd o) samples) ∧
  (Issues s (.estMrg o) w ls → counter s w.uid .st < 63 → gather (cellAt s w o .estWrite) ls = .ok cs → goesOn (.estMrg o) samples) ∧
  (Issues s (.estLd o) w ls → counter s w.uid .ld < 63 → gather (cellAt s w o .estRead) ls = .ok cs →
    (o.x.testBit 3 = true ∨ 2 ^ cs.length ≤ w.weight) →
    goesOn (.estLd o) (fun t w1 => { w1 with weight := w.weight, slices := w.slices, trains := w.trains } = w ∧ (w.fork = none → CountsUp s t w.uid .ld))) ∧
  (Issues s (.estClr o) w ls → counter s w.uid .st < 63 → gather (cellAt s w o .estWrite) ls = .ok cs →
    goesOn (.estClr o) (fun t w1 => { w1 with slices := w.slices, trains := w.trains } = w ∧ (w.fork = none → CountsUp s t w.uid .st))) ∧
  ∀ (c : Cop) (r : Region), counter s w.uid .st < 63 → (rdS w c.sa).toNat < 256 → regionOf s w.asid (rdS w c.sa).toNat = some r → r.valid = true →
    (Issues s (.estAdv c) w ls → goesOn (.estAdv c) (fun t w1 => w1 = w ∧ (w.fork = none → CountsUp s t w.uid .st))) ∧
    (Issues s (.estClose c) w ls → goesOn (.estClose c) (fun t w1 => w1 = w ∧ (w.fork = none → CountsUp s t w.uid .st)))

/-- R233, R237, R238, R247: what touching, merging and the standard error make of a cell's values.
R237, R243, R247, R252, R255: at its home a cell is brought to the epoch its unit knows and then takes a merge, a run of staged records in
their order, or a clear, in its 16 bytes and nowhere else, when its turn among the sources of one cycle has come (log entry 129); a lane of `est.ld` gets M, the standard error and W in three registers. Where
the cell is poisoned it gets none and POISON is held for the wave (the model's reading of R142 and R406, log 112). -/
def Obligations.CellsAtTheirHome : Prop :=
  (∀ (c : Cell) (a b : Partial) (dec epoch : Nat),
  let age := (epoch + 128 - c.g) % 128
  let zero := f32IsZero c.w
  (64 ≤ age → touch dec epoch c = { m := 0, s := 0, w := 0, n := 0, g := epoch, q := false }) ∧
  (age = 0 → touch dec epoch c = { c with m := if zero then 0 else c.m, s := if zero then 0 else c.s, g := epoch }) ∧
  (0 < age → age < 64 →
    let f := decayFactor dec age
    let w := f32Mul c.w f
    touch dec epoch c = { m := if zero || f32IsZero w then 0 else c.m, s := if f32IsZero w then 0 else f32Mul (if zero then 0 else c.s) f,
                          w := w, n := c.n, g := epoch, q := false }) ∧
  (f32IsZero (f32Add a.w b.w) = true → mergePart a b = a) ∧
  (f32IsZero (f32Add a.w b.w) = false →
    let t := f32Div b.w (f32Add a.w b.w)
    let d := f32Sub b.m a.m
    mergePart a b = { m := f32Add a.m (f32Mul d t), s := f32Add (f32Add a.s b.s) (f32Mul (f32Mul d d) (f32Mul a.w t)),
                      w := f32Add a.w b.w, n := min (a.n + b.n) 16777215 }) ∧
  (f32IsNan c.w = false → f32IsNan c.s = false →
    stdErr c = if f32Lt 0x3F800000 c.w then f32Sqrt (f32Div c.s (f32Mul c.w (f32Sub c.w 0x3F800000))) else 0x7F800000)) ∧
  (∀ (s : State) (fid : Nat) (f : Flight) (c : CellRef) (r : Region),
  InFlight s fid f → regionOf s c.asid c.region = some r →
  let x := touch r.dec r.known (cellOf s.mem c.pa)
  let becomes (t : State) (y : Cell) : Prop := memBytes t.mem c.pa 16 = cellBytes y ∧ t.waves = s.waves ∧
    ∀ a, a < c.pa ∨ c.pa + 16 ≤ a → memGet t.mem a = memGet s.mem a
  (∀ p ws cmd, f.act = .merge c p ws cmd → cellBusy s f c true = false → cellTurn s f c = true →
    Answers (.merge fid) s (fun t => becomes t (withPartial x (mergePart (partialOf x) p)) ∧ findFlight t fid = none)) ∧
  (∀ rs cmd, f.act = .fold c rs cmd → cellTurn s f c = true → Answers (.fold fid) s (fun t =>
    becomes t (withPartial x (rs.foldl (fun p q => mergePart p q.part) (partialOf x))) ∧ findFlight t fid = none)) ∧
  (∀ uid reg nr lane w, f.act = .estLd uid reg nr [(lane, c)] [] → uid = f.who.uid → lane < 32 → reg + 2 < 256 → findWave s uid = some w →
    pathBusy s f.who.uid f.id (actAccs f.act) = false → cellsWait s f [c] = false →
    (c.pa / 32 ∉ s.poison → Answers (.loadCompletion fid) s (fun t =>
      memBytes t.mem c.pa 16 = cellBytes { x with q := x.q || wantsReseed r nr x } ∧
      (∀ a, a < c.pa ∨ c.pa + 16 ≤ a → memGet t.mem a = memGet s.mem a) ∧ ∃ w1, findWave t uid = some w1 ∧ OthersKeep s t uid ∧
      rdV w1 lane reg = BitVec.ofNat 32 x.m ∧ rdV w1 lane (reg + 1) = BitVec.ofNat 32 (stdErr x) ∧ rdV w1 lane (reg + 2) = BitVec.ofNat 32 x.w ∧
      ∀ l k, l ≠ lane ∨ (k ≠ reg ∧ k ≠ reg + 1 ∧ k ≠ reg + 2) → l < 32 → k < 256 → rdV w1 l k = rdV w l k)) ∧
    (c.pa / 32 ∈ s.poison → Answers (.loadCompletion fid) s (fun t => SameMemory s t ∧ ∃ w1, findWave t uid = some w1 ∧ OthersKeep s t uid ∧
      w1.v = w.v ∧ ∃ p ∈ w1.trap.held, p.cause = 7))) ∧
  (f.act = .estClr [c] → pathBusy s f.who.uid f.id (actAccs f.act) = false → cellsWait s f [c] = false →
    Answers (.storeCompletion fid) s (fun t =>
      memBytes t.mem c.pa 16 = cellBytes { m := 0, s := 0, w := 0, n := 0, g := r.known, q := false } ∧
      ∀ a, a < c.pa ∨ c.pa + 16 ≤ a → memGet t.mem a = memGet s.mem a)))

/-- R241, R243, R245, R246, R248, R249: the keepers' events: a staged record waits for its wave's older operations on the cell (R48), then
goes to its ring place, or is dropped with OVF when the ring is full; a reseed request becomes a record for the region's node while the
budget lasts, with half of the share; an epoch notice, in no cycle in
which a cell of the region was worked on, teaches the region its epoch and flushes its entries everywhere, in one step (the model's choice, log entry 51); an entry idle for 4,096 cycles is flushed. -/
def Obligations.KeeperEvents : Prop := ∀ s : State,
  (∀ fid f c x rest r, InFlight s fid f → f.act = .stage ((c, x) :: rest) → regionOf s c.asid c.region = some r →
    (pathBusy s f.who.uid f.id (actAccs f.act) = true → exec (.stage fid) s = .next s) ∧
    (pathBusy s f.who.uid f.id (actAccs f.act) = false → r.sfill = r.scap → Answers (.stage fid) s (fun t => regionOf t c.asid c.region = some { r with ovf := true })) ∧
    (pathBusy s f.who.uid f.id (actAccs f.act) = false → r.sfill ≠ r.scap → ∀ pa, ringSlot s c.asid (r.stage + 32 * r.sfill) = some pa → Answers (.stage fid) s (fun t =>
      memBytes t.mem pa 32 = stagedBytes x ∧ regionOf t c.asid c.region = some { r with sfill := r.sfill + 1 }))) ∧
  (∀ fid f asid region q qs share r, InFlight s fid f → f.act = .reseed asid region (q :: qs) share → regionOf s asid region = some r →
    0 < r.left → ringRoom s (keeperDie r) asid r.node = true → share ≠ 1 → fid ≠ s.nextFid →
    Answers (.reseedRequest fid) s (fun t =>
      regionOf t asid region = some { r with left := r.left - 1 } ∧
      (∃ g ∈ t.flights, g.id = s.nextFid ∧ ∃ rec', g.act = .record (keeperDie r) rec' false ∧ rec'.node = r.node ∧
        rec'.weight = share / 2 ∧ rec'.launch = f.who.launch ∧
        rec'.pay = [BitVec.ofNat 32 region, BitVec.ofNat 32 q.1.idx, q.2.1, q.2.2.1, q.2.2.2.1, BitVec.ofNat 32 q.2.2.2.2, 0, 0]) ∧
      ∃ g, findFlight t fid = some g ∧ g.act = .reseed asid region qs (share - share / 2))) ∧
  (∀ fid f asid region epoch cmd r, InFlight s fid f → f.act = .notice asid region epoch cmd → regionOf s asid region = some r →
    (regionTouched s asid region = true → exec (.epochNotice fid) s = .next s) ∧
    (regionTouched s asid region = false → Answers (.epochNotice fid) s (fun t => regionOf t asid region = some { r with known := epoch } ∧ t.mem = s.mem ∧ t.waves = s.waves ∧
      (∀ die core, core < 128 → ∀ e ∈ (coreAt t die core).ecb, ¬(e.cell.asid = asid ∧ e.cell.region = region)) ∧
      ∀ die core, core < 128 → ∀ e ∈ (coreAt s die core).ecb, e.cell.asid = asid → e.cell.region = region →
        ∃ g ∈ t.flights, ∃ ws, g.act = .merge e.cell e.part ws (some cmd)))) ∧
  (∀ die core n e, (coreAt s die core).ecb[n]? = some e → 4096 ≤ cyclesSince s die core e.since → Answers (.flush die core n) s (fun t =>
    t.mem = s.mem ∧ t.waves = s.waves ∧ coreAt t die core = { coreAt s die core with ecb := (coreAt s die core).ecb.eraseIdx n } ∧
    ∃ g ∈ t.flights, g.id = s.nextFid ∧ g.act = .merge e.cell e.part (entryWaves s die core e) none))

/-! ### Control flow -/

/-- R66: an instruction whose guard is true in no lane does nothing but go on to the next instruction, whatever it is; a `vote` or `gred` into
an s-register has a result all the same (R101; `CrossLaneResults` states it, log 92). -/
def Obligations.FalseGuardsOnlyAdvance : Prop := ∀ (i : Instr) (s : State) (w : Wave),
  i.isEvent = false → curWave s = some w → legal s w i = true → guardLanes w i = [] → runsEmpty i = false →
  exec i s = .next (putWave s (goSeq w)) ∧ OnlyWave s (putWave s (goSeq w)) w (goSeq w) ∧ SameRegs w (goSeq w) ∧
  Moves w (goSeq w) (partSeq w.npc)

/-- R116, R117, R118: the loop stack. At a body's end a trip is counted and the path goes back to the start; after the last trip the entry
goes, and the entry below is asked in turn. A taken branch drops the entries whose bodies it leaves.
R52, R105, R107, R108, R116, R119, R140: the instructions of the drill that only move the current gang; `yield` also notes in
which cycle, beside the first one that is not spent yet, for the issue choices that follow (R211). A loop of no trips goes on at its end as by sequential execution, where a fork's end stops it (log entry 21). -/
def Obligations.UniformControl : Prop :=
  (∀ (next : W64) (t : LoopEnt) (r : List LoopEnt),
  backEdge next [] = (next, []) ∧ popLoops next [] = [] ∧
  (next ≠ t.stop → backEdge next (t :: r) = (next, t :: r)) ∧
  (next = t.stop → t.left ≠ 1 → backEdge next (t :: r) = (t.start, { t with left := t.left - 1 } :: r)) ∧
  (next = t.stop → t.left = 1 → backEdge next (t :: r) = backEdge next r) ∧
  (t.start.toNat ≤ next.toNat ∧ next.toNat < t.stop.toNat → popLoops next (t :: r) = t :: r) ∧
  (¬(t.start.toNat ≤ next.toNat ∧ next.toNat < t.stop.toNat) → popLoops next (t :: r) = popLoops next r) ∧
  (popLoops next (t :: r)).length ≤ (t :: r).length) ∧
  (∀ (s : State) (w : Wave) (ls : List Nat) (g : Guard),
  (∀ n q off, Issues s (.br g n q off) w ls →
    Walks (.br g n q off) s w (if rdQ w q = n then partSeq w.npc else partTo (BitVec.ofInt 64 ((gpc w).toNat + 4 * off.toInt)))) ∧
  (∀ off, Issues s (.jmp g off) w ls → Walks (.jmp g off) s w (partTo (BitVec.ofInt 64 ((gpc w).toNat + 4 * off.toInt)))) ∧
  (∀ off, Issues s (.call g off) w ls → (gangPart w (gang w)).rets.length < 8 → Walks (.call g off) s w (fun p =>
    { p with pc := BitVec.ofInt 64 ((gpc w).toNat + 4 * off.toInt), rets := { addr := w.npc, depth := p.loops.length, fc := none } :: p.rets })) ∧
  (∀ e r, Issues s (.ret g) w ls → NoForks s w → (gangPart w (gang w)).rets = e :: r → e.fc = none → Walks (.ret g) s w (fun p =>
    match p.rets with
    | [] => p
    | e :: r => { p with pc := e.addr, rets := r, loops := p.loops.drop (p.loops.length - e.depth) })) ∧
  (∀ imm n off, Issues s (.loop g imm n off) w ls →
    let trips : W64 := if imm then BitVec.ofNat 64 n else rdS w n
    let stop := gpc w + BitVec.ofNat 64 (4 * off)
    (trips = 0 → Walks (.loop g imm n off) s w (partSeq stop)) ∧
    (trips ≠ 0 → (gangPart w (gang w)).loops.length < 4 → Walks (.loop g imm n off) s w (fun p =>
      partSeq w.npc { p with loops := { start := w.npc, stop := stop, left := trips } :: p.loops }))) ∧
  (Issues s (.nop g) w ls → Walks (.nop g) s w (partSeq w.npc)) ∧
  (Issues s (.yield g) w ls → Completes (.yield g) s w (fun w1 =>
    (let now := coreClock s w.die w.core
     w1 = { w with yielding := match w.yielding with
       | some y => if launchRr s w then some y else some (y.1, now)
       | none => some (now, now) }) ∧
    Moves w (goSeq w1) (partSeq w.npc))) ∧
  (Issues s (.fsync g) w ls → Walks (.fsync g) s w (partSeq w.npc)))

/-- R111, R112, R118: `brv` sends each lane where its guard and predicate say, parts of a mixed slice included; a slice with a lane that falls
through runs there, and its other lanes park at the target with both stacks as they are. A slice whose lanes all take the branch drops the loop
entries whose bodies it leaves. Lanes that were parked stay where they were. -/
def Obligations.VectorBranchSendsLanes : Prop := ∀ (s : State) (w : Wave) (ls : List Nat) (g : Guard) (n : Bool) (k : Nat) (off : BitVec 24),
  Issues s (.brv g n k off) w ls → Repaths (.brv g n k off) s w (fun w' => ∀ i, i < w.slices.length → i ∈ gang w →
    let p := (sliceAt w i).run
    let takes (l : Nat) : Bool := ls.contains l && (rdK w k l != n)
    let tgt : W64 := BitVec.ofInt 64 ((gpc w).toNat + 4 * off.toInt)
    (∀ l ∈ p.lanes, LaneAt w' i l (if takes l then (if p.lanes.all takes then partTo tgt p else { p with pc := tgt }) else partSeq w.npc p)) ∧
    (∀ q ∈ (sliceAt w i).parked, ∀ l ∈ q.lanes, LaneAt w' i l q) ∧
    samePlace (sliceAt w' i).run (if p.lanes.all takes then partTo tgt p else partSeq w.npc p) = true)

/-- R114, R115, R118, R404: `bri` reads its entries and sends lanes to their targets; under K = 01 the whole gang goes. Every part drops the loop entries
whose bodies it leaves (log entry 20). Lanes with a false guard go on.
Entries that name the next instruction are not meant. Where the packet of the table's first word arrives poisoned, POISON is held and no lane moves
(log entry 100). -/
def Obligations.IndirectBranchSendsLanes : Prop := ∀ (s s1 s2 : State) (w : Wave) (ls : List Nat) (g : Guard) (a b : Nat) (h : Acc)
    (hv : Nat × Nat) (as : List Acc) (vs : List (Nat × Nat)),
  let tab := rdS w a
  let count := hv.2 % 2 ^ 32
  let entry (l : Nat) : Nat := ((vs.find? (fun v => v.1 == l)).map (fun v => v.2)).getD 0
  tab.toNat % 8 = 0 → tableAcc s w (ls.headD 0) tab = .ok h →
  (∀ vec, Issues s (.bri g vec a b) w ls → w.fork = none → findWave s w.uid = some w → tableWaits s w [h] = false → w.lostRead = some 0 →
    Answers (.bri g vec a b) s (fun t => SameMemory s t ∧ ∃ w', findWave t w.uid = some w' ∧
      { w' with trap := w.trap, lostRead := w.lostRead } = w ∧ w'.lostRead = none ∧ { w'.trap with held := w.trap.held } = w.trap ∧
      ∃ r ∈ w'.trap.held, r.cause = 7)) ∧
  (TableReads s w true [h] s1 [hv] → TableReads s1 w false as s2 vs →
  (∀ xs, Issues s (.bri g true a b) w ls → gather (fun l => entryAcc s1 w tab count l (rdV w l b).toNat) ls = .ok as →
    gather (fun l => briEntry tab l (rdV w l b).toNat (entry l)) ls = .ok xs →
    Answers (.bri g true a b) s (fun t =>
      { t with waves := s.waves, tlb := s.tlb, cores := s.cores, quads := s.quads } = s ∧ ∃ w', WaveIs s t w.uid w' ∧ SameButPaths w w' ∧
      ∀ i, i < w.slices.length → i ∈ gang w → ∀ l ∈ (sliceAt w i).run.lanes,
        (l ∉ ls → LaneAt w' i l (partSeq w.npc (sliceAt w i).run)) ∧
        ∀ x ∈ xs, x.lane = l → x.tgt ≠ w.npc → LaneAt w' i l (partTo x.tgt (sliceAt w i).run))) ∧
  (∀ x, Issues s (.bri g false a b) w ls → gather (fun l => entryAcc s1 w tab count l ((rdS w b).toNat % 2 ^ 32)) [uniLane] = .ok as →
    briEntry tab uniLane ((rdS w b).toNat % 2 ^ 32) (entry uniLane) = .ok x →
    Answers (.bri g false a b) s (fun t =>
      { t with waves := s.waves, tlb := s.tlb, cores := s.cores, quads := s.quads } = s ∧ ∃ w', WaveIs s t w.uid w' ∧ SameButPaths w w' ∧
      Moves w w' (partTo x.tgt))))

/-- R37, R120, R149, R376, R380: lanes end by `exit`, and by `done` after everything of the wave is complete; when no lane is left the wave retires
and its weight goes home. In a handler `exit` ends the whole wave (R149). -/
def Obligations.LanesEnd : Prop := ∀ (s : State) (w : Wave) (ls : List Nat) (g : Guard), NoForks s w →
  let retires (i : Instr) : Prop := Answers i s (fun t => findWave t w.uid = none ∧ SameMemory s t ∧ (∃ x ∈ t.ghosts, x.uid = w.uid) ∧
    (0 < w.weight → ∃ f ∈ t.flights, f.act = .wreturn w.launch w.weight))
  let last : Prop := w.path = [gang w] ∧ ∀ i ∈ gang w, (sliceAt w i).parked = []
  let quiet : Prop := MergesOver s w ∧ ∀ c, counter s w.uid c = 0
  (Issues s (.exit g) w ls → w.trap.h = true → retires (.exit g)) ∧
  (Issues s (.exit g) w ls → w.trap.h = false → last → retires (.exit g)) ∧
  (Issues s (.exit g) w ls → w.trap.h = false → (∃ i ∈ gang w, i < w.slices.length ∧ (sliceAt w i).parked ≠ []) →
    Answers (.exit g) s (fun t => ∃ w', WaveIs s t w.uid w' ∧ SameMemory s t ∧ ∀ i ∈ gang w, i < w.slices.length →
      match (sliceAt w i).parked with
      | [] => (sliceAt w' i).live = false ∧ (sliceAt w' i).run.lanes = []
      | p :: r => (sliceAt w' i).run = p ∧ (sliceAt w' i).parked = r)) ∧
  (Issues s (.done g) w ls → quiet → last → retires (.done g))

/-- R35, R36, R112, R113: at a `regang` slices with parked parts swap; the others wait while a live slice is still under way; once every live
slice waits there they form one gang and go past it. Once 256 cycles are over those that wait are let go as they stand; a
sibling that comes in the last of them is there first (log entry 116).
R40, R42, R112: the spin detector and arbitration: a gang idle for 64 iterations gives way, a part idle for 64 iterations swaps, once what
the drill has steered has issued, and the part that comes to run starts with no idle iteration (log entry 85); of the ready waves of a
slot that were not chosen for 1,024 cycles the greedy-then-oldest choice takes the oldest (log entry 106), and that wave moves next. -/
def Obligations.GangsGatherAndGiveWay : Prop :=
  (∀ (s : State) (w : Wave) (ls : List Nat) (g : Guard),
  (Issues s (.regang g) w ls → Repaths (.regang g) s w (fun w' => ∀ i, i < w.slices.length → i ∈ gang w →
    ∀ p r, (sliceAt w i).parked = p :: r → (sliceAt w' i).run = p ∧ (sliceAt w' i).parked = r ++ [(sliceAt w i).run])) ∧
  (Issues s (.regang g) w ls → (∃ j ∈ liveSlices w, j ∉ gang w ∧ (sliceAt w j).atRegang = none) →
    Repaths (.regang g) s w (fun w' => ∀ i, i < w.slices.length → i ∈ gang w → (sliceAt w i).parked = [] →
      (sliceAt w' i).atRegang = some w.npc ∧ (sliceAt w' i).run = (sliceAt w i).run)) ∧
  (Issues s (.regang g) w ls → gang w ≠ [] → (∀ i ∈ gang w, i ∈ liveSlices w ∧ (sliceAt w i).parked = []) →
    (∀ i ∈ liveSlices w, samePlace (sliceAt w i).run (gangPart w (gang w)) = true ∧
      (i ∈ gang w ∨ (sliceAt w i).atRegang = some w.npc)) →
    Repaths (.regang g) s w (fun w' => gang w' = liveSlices w ∧ ∀ i ∈ liveSlices w,
      (sliceAt w' i).run = partSeq w.npc (sliceAt w i).run ∧ (sliceAt w' i).atRegang = none)) ∧
  (∀ uid x t0, findWave s uid = some x → x.regangFrom = some t0 → x.trap.h = false → 256 < cyclesSince s x.die x.core t0 →
    Repaths (.regangRelease uid) s x (fun x' => ∀ i ∈ liveSlices x,
      (sliceAt x' i).atRegang = none ∧ ∀ a, (sliceAt x i).atRegang = some a → (sliceAt x' i).run = partSeq a (sliceAt x i).run))) ∧
  (∀ (s : State) (uid slice : Nat) (w : Wave), findWave s uid = some w →
  (1 < w.path.length → w.trap.h = false → w.viq = [] → gang w ≠ [] → (∀ i ∈ gang w, 64 ≤ (sliceAt w i).idle ∧ (sliceAt w i).parked = []) →
    Repaths (.gangDemotion uid) s w (fun w' => (∀ i ∈ gang w, i < w.slices.length → (sliceAt w' i).idle = 0 ∧
        (sliceAt w' i).run = (sliceAt w i).run) ∧ w'.path = w.path ∧
      (w.cur < w.path.length → (∃ j, j < w.path.length ∧ j ≠ w.cur ∧ gangWaits w (w.path.getD j []) = false) → w'.cur ≠ w.cur))) ∧
  (∀ p r, slice ∈ gang w → slice < w.slices.length → w.trap.h = false → w.viq = [] → 64 ≤ (sliceAt w slice).idle → (sliceAt w slice).parked = p :: r →
    Repaths (.partSwap uid slice) s w (fun w' => (sliceAt w' slice).run = p ∧ (sliceAt w' slice).parked = r ++ [(sliceAt w slice).run] ∧
      (sliceAt w' slice).idle = 0)) ∧
  (1024 ≤ cyclesSince s w.die w.core w.chosen → Answers (.starvedWaveChoice uid) s (fun t =>
    { t with waves := s.waves, turn := s.turn } = s ∧ t.turn = (if w.viq = [] then .wave uid else .issue uid) ∧ WaveIs s t uid { w with chosen := coreClock s w.die w.core })) ∧
  (∀ ws, let late (x : Wave) : Prop := 1024 ≤ cyclesSince s x.die x.core x.chosen
    ((∃ x ∈ ws, late x) ↔ (starved s ws).isSome = true) ∧
    ∀ x, starved s ws = some x → x ∈ ws ∧ late x ∧ ∀ y ∈ ws, late y → ageKey x ≤ ageKey y) ∧
  (∀ die core slot x, let ws := (slotWaves s die core slot).filter (issueReady s)
    roundRobin s ws = false → starved s ws = some x → issueChoice s die core slot = some (.event (.starvedWaveChoice x.uid))))

/-- R121 to R128, R133 to R135: a forkable call is always a call; it forks where it may, and the continuation stands after it with the
registers it was given. A fork whose home has returned commits when its predictions and its read set hold and the callee
has left the special registers as they were (log entry 126), and is dropped otherwise. A load
of the callee that ends after the commit leaves the registers alone which the continuation wrote, and one that reads another byte than the
continuation read there before drops the fork (R214, R230; log entry 117). -/
def Obligations.ForkableCalls : Prop := ∀ (s : State) (w : Wave) (ls : List Nat) (g : Guard) (off : BitVec 21) (lv : W32) (rc rva rvb : Nat),
  let m : FcMark := { pc := gpc w, rc := rc, rva := rva, rvb := rvb }
  let i : Instr := .fcall g off lv rc rva rvb
  let calls (p : Part) : Part :=
    { p with pc := BitVec.ofInt 64 ((gpc w).toNat + 4 * off.toInt), rets := { addr := w.npc, depth := p.loops.length, fc := some m } :: p.rets }
  (Issues s i w ls → (gangPart w (gang w)).rets.length < 8 →
    (freeCtx s w.die w.core (w.wctx / 16) = none ∨ forkOk s w lv m = false) → Walks i s w calls) ∧
  (Issues s i w ls → (gangPart w (gang w)).rets.length < 8 → (freeCtx s w.die w.core (w.wctx / 16)).isSome = true →
    forkOk s w lv m = true →
    Answers i s (fun t => { t with waves := s.waves, nextUid := s.nextUid } = s ∧
      (∃ w', findWave t w.uid = some w' ∧ SameButPaths w w' ∧ Moves w w' calls) ∧
      ∃ x ∈ t.waves, x.uid = s.nextUid ∧ ∃ f, x.fork = some f ∧ f.home = w.uid ∧ f.slices = gang w ∧
        (∀ j ∈ gang w, j < w.slices.length → (sliceAt x j).run.pc = w.npc ∧ (sliceAt x j).run.rets = (sliceAt w j).run.rets) ∧
        ∀ l n, l / 4 ∈ gang w → n < 256 → lv.getLsbD (n / 8) = true → n ∉ retRegs m → rdV x l n = rdV w l n)) ∧
  (∀ uid x f h, findWave s uid = some x → x.fork = some f → findWave s f.home = some h → h.fork = none → f.home ≠ uid →
    (∀ j ∈ f.slices, j ∈ f.returned) → retsPending s h.uid f.mark = false → h.saveReq = none →
    let held := predictionHolds h f && readSetClean f && specialsHold x h
    Answers (.forkResolution uid) s (fun t => findWave t uid = none ∧ SameMemory s t ∧ ∃ h', findWave t h.uid = some h' ∧
      ∀ j ∈ f.slices, j < h.slices.length → (sliceAt h' j).run = (if held then sliceAt x j else sliceAt h j).run)) ∧
  (∀ fid f old n sls l, findFlight s fid = some f → findWave s f.who.uid = some old → (RegRef.v n, sls) ∈ f.skip → l ∈ sls →
    ∀ t w', exec (.loadCompletion fid) s = .next t → findWave t old.uid = some w' → rdV w' l n = rdV old l n) ∧
  (∀ fid f d n a x k e p j h, InFlight s fid f → f.act = .load d n [a] none → QuietPath s f → PlainAt s a n → weightWaits s f.who false a = false →
    findWave s f.who.uid = some h → x ∈ s.waves → x.fork = some k → k.home = f.who.uid → k.born ≤ f.id →
    (∃ y ∈ k.slices, y ∈ whoSlices f.who) → e ∈ (coreAt s x.die x.core).flt → e.uid = x.uid → sameEnt e (fltOf x a) = true →
    (∃ pa, a.loc = .mem pa) → j < n → p ∈ e.seen → p.1 = (spaceAt a + j) % 32 → p.2 ≠ BitVec.ofNat 8 (leNat (bytesAt s a n) / 2 ^ (8 * j)) →
    Answers (.loadCompletion fid) s (fun t => findWave t x.uid = none))

/-! ### Exceptions, privilege, configuration -/

/-- R66, R78, R142, R148, R149: an instruction that does not decode for its wave, whatever it is, raises ILLEGAL at word 0 and has no other
effect: features not accepted, registers and tiles outside the footprint, and what a handler may not execute. That it does so whatever its guard
holds, and which lanes the record names, is the model's reading (log entry 16). -/
def Obligations.UndecodableInstructionsTrap : Prop := ∀ (i : Instr) (s : State) (w : Wave),
  i.isEvent = false → curWave s = some w → legal s w i = false → CanTrap s w →
  Traps i s w [{ cause := 0, lanes := laneMask (illegalLanes w i), more := false, addr := gpc w, pc := gpc w, detail := 0 }] (gpc w)

/-- R142, R153, R154: `trap` enters the handler with BREAK and its code, to resume after itself.
R58, R142, R153, R164: outside privileged mode the privileged instructions and registers raise PRIV and change nothing else.
R109, R115, R142, R143, R163, R189, R206: an instruction whose lanes or operands fail their checks has no effect but the exception, with
a record of each cause.
R278, R279, R282, R284 to R287, R291, R328, R342, R344, R377, R381: the checks of commands and of what is sent: a descriptor is checked as a load,
a wave's address and scratchpad ranges first for alignment, then for bounds, then tiles for their state; a `spawn` of depth 15 raises
DEPTH. The ADDR of BOUNDS of a scratchpad range, the first byte of it outside the allocation, and of `tdef`, word 0, are the model's reading (log
entry 60), and so are BOUNDS of an `enq` without D and of an `amsg` without P whose target names a die or package (log entry 83) and DETAIL 8 of
MISALIGN of the texture instructions (log entry 64). -/
def Obligations.CausesEnterHandlers : Prop :=
  (∀ (s : State) (w : Wave) (ls : List Nat) (o : Ops) (code : W64),
  Issues s (.trap o) w ls → CanTrap s w → o.b = .imm code → Traps (.trap o) s w [drillRec w 12 code 0] w.npc) ∧
  (∀ (s : State) (w : Wave) (ls : List Nat) (o : Ops), CanTrap s w → w.trap.prv = false →
  (Issues s (.xret o) w ls → Traps (.xret o) s w [drillRec w 1 (gpc w) 0] (gpc w)) ∧
  (Issues s (.xclr o) w ls → Traps (.xclr o) s w [drillRec w 1 (gpc w) 0] (gpc w)) ∧
  (Issues s (.tlbi o) w ls → Traps (.tlbi o) s w [drillRec w 1 (gpc w) 0] (gpc w)) ∧
  (Issues s (.cfgw o) w ls → (immOf o).toNat = 0 → Traps (.cfgw o) s w [drillRec w 1 (gpc w) 0] (gpc w)) ∧
  (Issues s (.cfgr o) w ls → (immOf o).toNat < 5 → Traps (.cfgr o) s w [drillRec w 1 (gpc w) (immOf o).toNat] (gpc w)) ∧
  (Issues s (.gets o) w ls → specialPriv o.a = true → Traps (.gets o) s w [drillRec w 1 (gpc w) o.a] (gpc w)) ∧
  (Issues s (.sets o) w ls → specialPriv o.a = true → Traps (.sets o) s w [drillRec w 1 (gpc w) o.a] (gpc w))) ∧
  (∀ (s : State) (w : Wave) (ls : List Nat) (o : Ops) (es : List (Nat × LaneFault)), CanTrap s w →
  let n := Machine.sizeOf o
  let recs (es : List (Nat × LaneFault)) : List CauseRec :=
    ((List.range 16).filter (fun c => es.any (fun e => e.2.cause == c))).map (fun c => causeOf w c es)
  let all (es : List (Nat × LaneFault)) : List (Nat × LaneFault) :=
    if o.k.vec then es else es.flatMap (fun e => (runLanes w).map (fun l => (l, e.2)))
  (counter s w.uid .ld < 63 →
    (Issues s (.ld o) w ls → gather (memAcc s w .load (eaOf w o o.x) n) (accLanes o ls) = .error es → Traps (.ld o) s w (recs (all es)) (gpc w)) ∧
    (Issues s (.ldu o) w ls → gather (memAcc s w .load (eaOf w o o.x) n) (accLanes o ls) = .error es → Traps (.ldu o) s w (recs (all es)) (gpc w)) ∧
    (Issues s (.lds o) w ls → gather (padAcc w (eaOf w o o.x) n) (accLanes o ls) = .error es → Traps (.lds o) s w (recs (all es)) (gpc w)) ∧
    (Issues s (.ldp o) w ls → gather (peerAcc s w o n) (accLanes o ls) = .error es → Traps (.ldp o) s w (recs (all es)) (gpc w)) ∧
    (Issues s (.atom o) w ls → gather (memAcc s w .atomic (eaOf w o (o.x / 16)) n) (accLanes o ls) = .error es →
      Traps (.atom o) s w (recs (all es)) (gpc w)) ∧
    (Issues s (.estLd o) w ls → gather (cellAt s w o .estRead) ls = .error es → Traps (.estLd o) s w (recs es) (gpc w))) ∧
  (counter s w.uid .st < 63 →
    (Issues s (.st o) w ls → gather (memAcc s w .store (eaOf w o o.x) n) (accLanes o ls) = .error es → Traps (.st o) s w (recs (all es)) (gpc w)) ∧
    (Issues s (.sts o) w ls → gather (padAcc w (eaOf w o o.x) n) (accLanes o ls) = .error es → Traps (.sts o) s w (recs (all es)) (gpc w)) ∧
    (Issues s (.stu o) w ls → gather (memAcc s w .store (eaOf w o o.x) n) (accLanes o ls) = .error es → Traps (.stu o) s w (recs (all es)) (gpc w)) ∧
    (Issues s (.stp o) w ls → gather (peerAcc s w o n) (accLanes o ls) = .error es → Traps (.stp o) s w (recs (all es)) (gpc w)) ∧
    (Issues s (.red o) w ls → gather (memAcc s w .atomic (eaOf w o (o.x / 16)) n) (accLanes o ls) = .error es →
      Traps (.red o) s w (recs (all es)) (gpc w)) ∧
    (Issues s (.estAdd o) w ls → gather (cellAt s w o .estWrite) ls = .error es → Traps (.estAdd o) s w (recs es) (gpc w)) ∧
    (Issues s (.estMrg o) w ls → gather (cellAt s w o .estWrite) ls = .error es → Traps (.estMrg o) s w (recs es) (gpc w)) ∧
    (Issues s (.estClr o) w ls → gather (cellAt s w o .estWrite) ls = .error es → Traps (.estClr o) s w (recs es) (gpc w)) ∧
    (∀ bad e, barAddr s w (bitAt o.x 0) (rdS w o.a) bad = .error e →
      (Issues s (.barInit o) w ls → bad = badCount (opB w o .b64 0) → Traps (.barInit o) s w [drillRec w e.cause (BitVec.ofNat 64 e.addr) e.detail] (gpc w)) ∧
      (Issues s (.barArr o) w ls → bad = badCount (opB w o .b64 0) → Traps (.barArr o) s w [drillRec w e.cause (BitVec.ofNat 64 e.addr) e.detail] (gpc w)) ∧
      (Issues s (.barExp o) w ls → bad = false → Traps (.barExp o) s w [drillRec w e.cause (BitVec.ofNat 64 e.addr) e.detail] (gpc w))) ∧
    (Issues s (.barInit o) w ls → (rdS w o.a).toNat % 16 = 0 → badCount (opB w o .b64 0) = true → bitAt o.x 0 = false →
      Traps (.barInit o) s w [drillRec w 5 (gpc w) 0] (gpc w))) ∧
  (∀ e, Issues s (.barWait o) w ls → barAddr s w false (rdS w o.a) false = .error e →
    Traps (.barWait o) s w [drillRec w e.cause (BitVec.ofNat 64 e.addr) e.detail] (gpc w)) ∧
  (∀ g off, Issues s (.call g off) w ls → 8 ≤ (gangPart w (gang w)).rets.length → Traps (.call g off) s w [drillRec w 5 (gpc w) 0] (gpc w)) ∧
  (∀ g, Issues s (.ret g) w ls → (gangPart w (gang w)).rets = [] → Traps (.ret g) s w [drillRec w 5 (gpc w) 0] (gpc w)) ∧
  (∀ g a b, Issues s (.bri g false a b) w ls → (rdS w a).toNat % 8 ≠ 0 → Traps (.bri g false a b) s w [drillRec w 4 (rdS w a) 8] (gpc w)) ∧
  (Issues s (.cfgw o) w ls → w.trap.prv = true → (immOf o).toNat = 0 → carveBad w (rdS w o.a).toNat = true →
    Traps (.cfgw o) s w [drillRec w 5 (gpc w) 0] (gpc w))) ∧
  (∀ (s : State) (w : Wave) (ls : List Nat) (o : Ops) (c : Cop), CanTrap s w →
  let recs (es : List (Nat × LaneFault)) : List CauseRec :=
    ((List.range 16).filter (fun c => es.any (fun e => e.2.cause == c))).map (fun c => causeOf w c es)
  let lanes (e : LaneFault) : List CauseRec := recs (ls.map (fun l => (l, e)))
  let drill (e : LaneFault) : List CauseRec := [drillRec w e.cause (BitVec.ofNat 64 e.addr) e.detail]
  let desc := (rdS w o.a).toNat
  let addr := (rdS w c.sa).toNat
  (counter s w.uid .tx < 63 →
    (∀ e, Issues s (.trace o) w ls → checkMem s w.asid false .load desc 32 = .error e → Traps (.trace o) s w (lanes e) (gpc w)) ∧
    (∀ e, (desc % 64 ≠ 0 ∧ e = { cause := 4, addr := desc, detail := 8 }) ∨ (desc % 64 = 0 ∧ checkPage s w.asid false .load desc 8 = .error e) →
      (Issues s (.hgf o) w ls → Traps (.hgf o) s w (lanes e) (gpc w)) ∧ (Issues s (.hgs o) w ls → Traps (.hgs o) s w (lanes e) (gpc w))) ∧
    (∀ e, (desc % 32 ≠ 0 ∧ e = { cause := 4, addr := desc, detail := 8 }) ∨ (desc % 32 = 0 ∧ checkPage s w.asid false .load desc 8 = .error e) →
      (Issues s (.tex o) w ls → Traps (.tex o) s w (lanes e) (gpc w)) ∧ (Issues s (.tld o) w ls → Traps (.tld o) s w (lanes e) (gpc w)))) ∧
  (let t := opB w o .b64 0
   (∀ n, Issues s (.spawn o) w ls → t < 2 ^ 12 → s.pod.pkg ∈ s.pod.members → nodeOf s w.asid t = some n → n.valid = true → w.depth = 15 →
     Traps (.spawn o) s w [drillRec w 9 (gpc w) t] (gpc w)) ∧
   (Issues s (.spawn o) w ls → 2 ^ 12 ≤ t ∨ nodeOf s w.asid (t % 2 ^ 12) = none → Traps (.spawn o) s w [drillRec w 5 (gpc w) 0] (gpc w)) ∧
   (Issues s (.enq o) w ls → (t.testBit 20 = false ∧ 2 ^ 12 ≤ t) ∨ nodeOf s w.asid (t % 2 ^ 12) = none → Traps (.enq o) s w [drillRec w 5 (gpc w) 0] (gpc w)) ∧
   (Issues s (.amsg o) w ls → (t.testBit 21 = false ∧ 2 ^ 20 ≤ t) ∨ nodeOf s w.asid (t % 2 ^ 12) = none ∨
       (∃ n, nodeOf s w.asid (t % 2 ^ 12) = some n ∧ n.sink = true) →
     Traps (.amsg o) s w [drillRec w 5 (gpc w) 0] (gpc w))) ∧
  (∀ e, Issues s (.dlaunch o) w ls → checkMem s w.asid false .load desc 64 = .error e → Traps (.dlaunch o) s w (drill e) (gpc w)) ∧
  (∀ r, counter s w.uid .st < 63 → 256 ≤ addr ∨ (regionOf s w.asid addr = some r ∧ r.valid = false) →
    (Issues s (.estAdv c) w ls → Traps (.estAdv c) s w [drillRec w 5 (gpc w) 0] (gpc w)) ∧
    (Issues s (.estClose c) w ls → Traps (.estClose c) s w [drillRec w 5 (gpc w) 0] (gpc w))) ∧
  (counter s w.uid .cp < 63 →
    (Issues s (.tdefBytes c) w ls → w.foot.spad < 256 * (c.litNat % 2 ^ 12) + c.litNat / 2 ^ 12 % 2 ^ 24 →
      Traps (.tdefBytes c) s w [drillRec w 5 (gpc w) 0] (gpc w)) ∧
    (Issues s (.tset c) w ls → c.cm % 8 = 5 → (tileNext s w.uid c.ta).plane = true → (tileNext s w.uid c.ta).planes ≠ 1 →
      Traps (.tset c) s w [drillRec w 8 (gpc w) c.ta] (gpc w))) ∧
  (copyFull s w = false →
    (addr % fmtAlign c.fmt ≠ 0 →
      let mis : LaneFault := { cause := 4, addr := addr, detail := fmtAlign c.fmt }
      (Issues s (.cpyLd c) w ls → Traps (.cpyLd c) s w (drill mis) (gpc w)) ∧ (Issues s (.cpySt c) w ls → Traps (.cpySt c) s w (drill mis) (gpc w)) ∧
      (Issues s (.cpyWs c) w ls → Traps (.cpyWs c) s w (drill mis) (gpc w)) ∧ (Issues s (.cpyGth c) w ls → Traps (.cpyGth c) s w (drill mis) (gpc w))) ∧
    (addr % fmtAlign c.fmt = 0 → c.str = false →
      (∀ e, c.bar = true → barAddr s w c.pb (rdS w c.sb) false = .error e →
        (Issues s (.cpyLd c) w ls → Traps (.cpyLd c) s w (drill e) (gpc w)) ∧ (Issues s (.cpySt c) w ls → Traps (.cpySt c) s w (drill e) (gpc w)) ∧
        (Issues s (.cpyWs c) w ls → Traps (.cpyWs c) s w (drill e) (gpc w))) ∧
      (c.bar = false →
        (Issues s (.cpySt c) w ls → tileBreach s w.uid c.ta = true → Traps (.cpySt c) s w [drillRec w 8 (gpc w) c.ta] (gpc w)) ∧
        (Issues s (.cpyWs c) w ls → (tileNext s w.uid c.ta).plane = false → Traps (.cpyWs c) s w [drillRec w 8 (gpc w) c.ta] (gpc w)) ∧
        (let idx := (rdS w c.sb).toNat
         (Issues s (.cpyGth c) w ls → idx % 4 ≠ 0 → Traps (.cpyGth c) s w (drill { cause := 4, addr := idx, detail := 4 }) (gpc w)) ∧
         (Issues s (.cpyGth c) w ls → idx % 4 = 0 → w.foot.spad < idx + 4 * (tileNext s w.uid c.ta).rows →
           Traps (.cpyGth c) s w (drill { cause := 5, addr := max idx w.foot.spad, detail := 0 }) (gpc w))))) ∧
    (∀ (g : GleanCmd) (align : Nat) (i : Instr),
      (i = .glTopk c ∧ g = gleanCmd w c (.topk (c.cm % 512)) (gleanN c) (rdS w c.sb) ∧ align = 8) ∨
      (i = .glSmax c ∧ g = gleanCmd w c (.smax (c.litNat / 2 ^ 32 % 2 ^ 32)) (gleanN c) (rdS w c.sb) ∧ align = 4) → Issues s i w ls →
      (addr % gleanSize g ≠ 0 → Traps i s w (drill { cause := 4, addr := addr, detail := gleanSize g }) (gpc w)) ∧
      (addr % gleanSize g = 0 → g.dst.toNat % align ≠ 0 → Traps i s w (drill { cause := 4, addr := g.dst.toNat, detail := align }) (gpc w)) ∧
      (addr % gleanSize g = 0 → g.dst.toNat % align = 0 → g.srcPad = true → w.foot.spad < addr + gleanSize g * g.n →
        Traps i s w (drill { cause := 5, addr := max addr w.foot.spad, detail := 0 }) (gpc w)))))

/-- R142, R146: the record of a cause: the first event gives address, PC and detail; later ones add lanes and set MORE.
R148, R149, R152, R155, R156, R376: a cause raised in a handler, or without a handler, ends the wave with an error record of kind 3 or 4 that carries its
weight and the cause that ends it: the new one in a handler, else the lowest of those that would have been delivered (log 86). While a full save
empties the VIQ a cause outside a handler is kept for after the restore instead (R159). An instruction of the drill whose cause meets a VIQ that is
not empty waits for what has been steered to issue (R148). -/
def Obligations.RecordsAndEndsOfWaves : Prop :=
  (∀ (rs : List CauseRec) (r : CauseRec), rs.Pairwise (fun x y => x.cause < y.cause) →
  (addRec rs r).Pairwise (fun x y => x.cause < y.cause) ∧
  (∀ x, x ∈ addRec rs r → x.cause ≠ r.cause → x ∈ rs) ∧ (∀ x, x ∈ rs → x.cause ≠ r.cause → x ∈ addRec rs r) ∧
  ((∀ x ∈ rs, x.cause ≠ r.cause) → r ∈ addRec rs r) ∧
  (∀ x ∈ rs, x.cause = r.cause → { x with lanes := x.lanes ||| r.lanes, more := true } ∈ addRec rs r)) ∧
  (∀ (s : State) (w : Wave) (rs : List CauseRec) (xpc : W64) (c : Ctx),
  findWave s w.uid = some w → NoForks s w → findCtx s w.asid = some c →
  let causeOf (recs : List CauseRec) : Nat := (recs.head?.map (fun x => x.cause)).getD 0
  let ends (kind cause : Nat) : Prop :=
    let t := takeException s w rs xpc
    findWave t w.uid = none ∧ SameMemory s t ∧
    ∃ f ∈ t.flights, ∃ r, f.act = .record w.die r true ∧ r.node = c.errn ∧ r.weight = w.weight ∧ r.launch = w.launch ∧
      r.pay.take 4 = [BitVec.ofNat 32 (kind + 2 ^ 8 * cause + 2 ^ 12 * w.die + 2 ^ 15 * (w.core / 4) + 2 ^ 20 * (w.core % 4) + 2 ^ 22 * w.wctx),
        BitVec.ofNat 32 w.launch, BitVec.ofNat 32 (w.launch / 2 ^ 32), BitVec.ofNat 32 w.widx]
  let with' (recs : List CauseRec) : Wave := { w with trap := { w.trap with recs := recs } }
  (w.viq ≠ [] → takeException s w rs xpc = s) ∧
  (w.viq = [] → w.trap.h = true → reruns s (with' (addRecs w.trap.recs rs)) = false → ends 3 (causeOf rs)) ∧
  (w.viq = [] → w.trap.h = false → w.saveReq = some .full → { takeException s w rs xpc with waves := s.waves } = s ∧
    WaveIs s (takeException s w rs xpc) w.uid { w with trap := { w.trap with held := addRecs w.trap.held rs } }) ∧
  (w.viq = [] → w.trap.h = false → w.saveReq ≠ some .full → w.trap.xvec = 0 → reruns s (with' (addRecs (addRecs w.trap.recs rs) w.trap.held)) = false →
    ends 4 (causeOf (addRecs (addRecs w.trap.recs rs) w.trap.held))))

/-- R146, R153, R157, R162, R163, R164: the system instructions in privileged mode. `xret` goes back to xpc with the privilege kept there, or
into the handler again when causes are left; `xclr` clears causes with their records; `cfgr` reads; `cfgw` leaves its change of the split
for CARVE_CHANGE; `live` without a request does nothing, with one it gives the wave up to be saved; `tlbi` forgets translations. -/
def Obligations.SystemInstructions : Prop := ∀ (s : State) (w : Wave) (ls : List Nat) (o : Ops), NoForks s w →
  (w.trap.prv = true →
    (Issues s (.xret o) w ls → w.trap.h = true → w.trap.recs = [] → w.trap.held = [] → Answers (.xret o) s (fun t =>
      { t with waves := s.waves } = s ∧ ∃ w', WaveIs s t w.uid w' ∧ w'.trap = { w.trap with h := false, prv := w.trap.ppriv } ∧
      { w' with slices := w.slices, path := w.path, cur := w.cur, trap := w.trap } = w ∧
      ∀ i ∈ gang w, i < w.slices.length → (sliceAt w' i).run.pc = w.trap.xpc)) ∧
    (Issues s (.xret o) w ls → w.trap.h = true → addRecs w.trap.recs w.trap.held ≠ [] → w.trap.xvec ≠ 0 → Answers (.xret o) s (fun t =>
      { t with waves := s.waves } = s ∧ ∃ w', WaveIs s t w.uid w' ∧ w'.trap.h = true ∧ w'.trap.xpc = w.trap.xpc &&& 0x00FFFFFFFFFFFFFC ∧
      w'.trap.ppriv = w.trap.ppriv ∧ w'.trap.prv = true ∧ w'.trap.held = [] ∧
      ∀ i ∈ gang w, i < w.slices.length → (sliceAt w' i).run.pc = w.trap.xvec)) ∧
    (Issues s (.xclr o) w ls → Completes (.xclr o) s w (fun w1 => { w1 with trap := w.trap } = w ∧ { w1.trap with recs := w.trap.recs } = w.trap ∧
      ∀ r, r ∈ w1.trap.recs ↔ r ∈ w.trap.recs ∧ (match o.b with | .imm x => x | _ => rdS w o.a).getLsbD r.cause = false)) ∧
    (∀ x, Issues s (.cfgr o) w ls → cfgRead s w (immOf o).toNat = some x → Completes (.cfgr o) s w (fun w1 => UniFrame o.d w w1 ∧
      w1.fpflags = w.fpflags ∧ rdS w1 o.d = x)) ∧
    (Issues s (.cfgw o) w ls → (immOf o).toNat = 0 → carveBad w (rdS w o.a).toNat = false → (coreAt s w.die w.core).carve = none →
      Answers (.cfgw o) s (fun t => { t with cores := s.cores } = s ∧ OnlyCore s t w.die w.core ∧
        coreAt t w.die w.core = { coreAt s w.die w.core with carve := some (w.uid, (rdS w o.a).toNat) })) ∧
    (Issues s (.tlbi o) w ls → Answers (.tlbi o) s (fun t => { t with waves := s.waves, tlb := s.tlb } = s ∧ WaveIs s t w.uid (goSeq w) ∧
      ∀ x, x ∈ t.tlb ↔ x ∈ s.tlb ∧ ¬(match o.x with
        | 0 => x.asid = w.asid
        | 1 => x.asid = w.asid ∧ (rdS w o.a).toNat / 2 ^ x.bits = x.va / 2 ^ x.bits
        | 2 => x.asid = (rdS w o.a).toNat % 2 ^ 11
        | _ => True)))) ∧
  (Issues s (.live o) w ls → liveBad w (opB w o .b64 0) = false → Completes (.live o) s w (fun w1 =>
    { w1 with saveReq := w.saveReq } = w ∧ (w.preq = none → w1 = w) ∧ (w.preq.isSome = true → w1.saveReq.isSome = true)))

/-- R148, R150, R158, R163, R370: what comes to a wave from outside its instructions: held causes are delivered at a boundary; a request for
its place is noted, and raises PREEMPT where PTE asks for it; after 100 us it is to be saved whole; a change of the split happens once no
allocation stands in its way, and the `cfgw` is over. A wait with no effect yet counts as a boundary, and what a delivery abandons there is the
model's reading (log entry 38). -/
def Obligations.EventsOfAWave : Prop := ∀ (s : State) (uid : Nat) (w : Wave), findWave s uid = some w → NoForks s w →
  (atBoundary s w = true → w.trap.h = false → w.trap.xvec ≠ 0 → w.trap.held ≠ [] → w.saveReq = none → Answers (.delivery uid) s (fun t =>
    { t with waves := s.waves } = s ∧ ∃ w', WaveIs s t uid w' ∧ Entered (abandon w) w' [] (gpc w))) ∧
  (w.preq = none → Answers (.preemptionRequest uid) s (fun t => { t with waves := s.waves } = s ∧ ∃ w', WaveIs s t uid w' ∧
    { w' with preq := none, trap := w.trap } = w ∧ w'.preq = some s.time ∧ { w'.trap with held := w.trap.held } = w.trap ∧
    (w.trap.pte = true → w.trap.h = false → ∃ r ∈ w'.trap.held, r.cause = 15) ∧ (w.trap.pte = false ∨ w.trap.h = true → w'.trap = w.trap))) ∧
  (∀ t0, w.preq = some t0 → w.saveReq = none → carving s w = false → t0 + 100000 ≤ s.time → Answers (.preemptionTimeout uid) s (fun t =>
    { t with waves := s.waves } = s ∧ WaveIs s t uid { w with saveReq := some .full })) ∧
  (∀ x, (coreAt s w.die w.core).carve = some (uid, x) → (∀ e ∈ spadEnds s w.die w.core, e ≤ 65536 * x) →
    Answers (.carveChange w.die w.core) s (fun t => { t with waves := s.waves, cores := s.cores, quads := s.quads } = s ∧ WaveIs s t uid (goSeq w) ∧
      OnlyCore s t w.die w.core ∧ (coreAt t w.die w.core).spw = x ∧ (coreAt t w.die w.core).carve = none))

/-- R157, R159, R160, R317, R329: a wave that is given up leaves its core once nothing of it is outstanding, with everything a whole save keeps, or
what its hint names: vector groups, scratchpad ranges, tiles, and with ACC its lease and the banks; every other byte and register reads as
zero and every other tile as EMPTY. It comes back to its core and context as it was saved. -/
def Obligations.SaveAndRestore : Prop := ∀ (s : State) (uid : Nat),
  (∀ w h, findWave s uid = some w → NoForks s w → w.saveReq = some h → saveBusy s w = false → Answers (.save uid) s (fun t =>
    findWave t uid = none ∧ SameMemory s t ∧ ∃ x ∈ t.saved, x.wave.uid = uid ∧ x.wave.saveReq = none ∧ x.wave.preq = none ∧
      x.wave.s = w.s ∧ x.wave.hs = w.hs ∧ x.wave.k = w.k ∧ x.wave.q = w.q ∧ x.wave.trap = w.trap ∧ x.wave.path = w.path ∧ x.wave.weight = w.weight ∧
      x.wave.fpmode = w.fpmode ∧ x.wave.fpflags = w.fpflags ∧ x.wave.cur = w.cur ∧ x.wave.slots = w.slots ∧ x.wave.seqs = w.seqs ∧
      (∀ i, (sliceAt x.wave i).run = (sliceAt w i).run ∧ (sliceAt x.wave i).parked = (sliceAt w i).parked ∧ (sliceAt x.wave i).idle = (sliceAt w i).idle) ∧
      (let e := engineAt s (engineOf w.die w.core)
       let acc := match h with | .full => true | .hint _ _ _ a => a
       if e.holder.map (fun y => y.1) = some uid ∧ acc = true then x.wave.lease = w.lease ∧ x.banks = some (e.a0, e.a1)
       else x.wave.lease = 0 ∧ x.banks = none) ∧
      (h = .full → x.wave.v = w.v ∧ x.wave.pad = w.pad ∧ x.wave.tiles = w.tiles) ∧
      ∀ groups ranges tiles acc, h = .hint groups ranges tiles acc →
        (∀ l n, n < 256 → rdV x.wave l n = if groups.testBit (n / 8) then rdV w l n else 0) ∧
        (∀ i t, w.tiles[i]? = some t → x.wave.tiles[i]? = some (if tiles.testBit i then t else tileEmpty)) ∧
        (∀ a, (∃ r ∈ ranges, 256 * r.1 ≤ a ∧ a < 256 * (r.1 + r.2)) ∨
            (∃ i t, w.tiles[i]? = some t ∧ tiles.testBit i = true ∧ 256 * t.base ≤ a ∧ a < 256 * t.base + tileBytes t) →
          padBytes x.wave.pad a 1 = padBytes w.pad a 1) ∧
        (∀ a, ¬(∃ r ∈ ranges, 256 * r.1 ≤ a ∧ a < 256 * (r.1 + r.2)) →
            ¬(∃ i t, w.tiles[i]? = some t ∧ tiles.testBit i = true ∧ 256 * t.base ≤ a ∧ a < 256 * t.base + tileBytes t) →
          padBytes x.wave.pad a 1 = [0]))) ∧
  (∀ x c, s.saved.find? (fun x => x.wave.uid == uid) = some x → findCtx s x.wave.asid = some c → c.phase ≠ .saving →
    restoreFits s x.wave = true → (x.banks.isSome = true → leaseFree s (engineOf x.wave.die x.wave.core) = true) → Answers (.restore uid) s (fun t =>
      SameMemory s t ∧ (∀ y ∈ t.saved, y.wave.uid ≠ uid) ∧ (∃ w ∈ t.waves,
        { w with vbase := x.wave.vbase, sbase := x.wave.sbase, placed := x.wave.placed, chosen := x.wave.chosen, dchosen := x.wave.dchosen } =
          x.wave) ∧
      (∀ b, x.banks = some b → (engineAt t (engineOf x.wave.die x.wave.core)).holder = some (uid, x.wave.asid) ∧
        (engineAt t (engineOf x.wave.die x.wave.core)).a0 = b.1 ∧ (engineAt t (engineOf x.wave.die x.wave.core)).a1 = b.2)))

/-! ### Tasks -/

/-- R356, R358: the wave a record starts, with the index it is given: its own for a range task or a wave placed again, else the next of its die. -/
def Obligations.TasksStartFromRecords : Prop := ∀ (s : State) (die widx : Nat) (p : Spot) (l : Launch) (n : Node) (r : Record),
  0 < n.foot.slices →
  let w := newWave s die p l n r widx
  let t := placeWave s w
  (∀ i, i < 4 → (rdS w i).toNat = (r.pay.getD (2 * i) 0).toNat + 2 ^ 32 * (r.pay.getD (2 * i + 1) 0).toNat) ∧
  (∀ i, 4 ≤ i → rdS w i = 0) ∧ (∀ k, 64 ≤ k → rdBank w k = 0) ∧ (∀ i lane, rdV w lane i = 0) ∧
  (∀ i lane, rdK w i lane = (i == 0)) ∧ (∀ i, i < 4 → rdQ w i = (i == 0)) ∧
  gpc w = n.entry ∧ gang w = List.range n.foot.slices ∧ (∀ i, i < n.foot.slices →
    (sliceAt w i).run = { lanes := [4 * i, 4 * i + 1, 4 * i + 2, 4 * i + 3], pc := n.entry, loops := [], rets := [] } ∧ (sliceAt w i).parked = []) ∧
  w.lease = 0 ∧ (∀ i, stGet 0 i w.slots = 0) ∧ w.fpmode = 0 ∧ w.fpflags = 0 ∧ w.trap.xpc = 0 ∧ xstatusOf w.trap = (if l.priv then 6 else 0) ∧
  xcause w.trap = 0 ∧ w.trap.xvec = l.handler &&& 0x00FFFFFFFFFFFFFC ∧
  special s w 0x07 0 = BitVec.ofNat 64 r.launch ∧ special s w 0x08 0 = BitVec.ofNat 64 r.node ∧ special s w 0x09 0 = BitVec.ofNat 64 r.depth ∧
  w.widx = widx ∧ (∀ i, r.seq = some i → (indexOf l die r).1 = i) ∧
  (r.seq = none → (indexOf l die r).1 = (l.count + 8 * stGet 0 die l.others + die) % 2 ^ 32 ∧
    stGet 0 die (indexOf l die r).2.others = stGet 0 die l.others + 1) ∧
  w.path = [List.range n.foot.slices] ∧ ((∀ f ∈ s.flights, f.who.uid ≠ s.nextUid) → ∀ c, counter t w.uid c = 0) ∧
  w.weight = r.weight ∧ w ∈ t.waves ∧ t.nextUid = s.nextUid + 1 ∧ (coreAt t die p.core).l1 = [] ∧
  (quadAt t (quadOf die p.core)).gen = ((quadAt s (quadOf die p.core)).gen + 1) % 256

/-- R374, R375, R377, R378: `spawn`, `amsg` and `enq` send a record with half of the wave's weight, rounded down; the wave keeps the rest. A
wave with one unit takes 2^56 from its quad's pool first.
R134, R371, R379: `deq` takes the record that is due for the wave's node and launch: payload to s[d] to s[d + 3], weight to the wave, success to
q; without one it ends, or `deq.w` waits, and ends after 4,096 cycles unless a record has come; its q counts as written by the wave for the
forks it has. -/
def Obligations.RecordsAreSentAndTaken : Prop :=
  (∀ (s : State) (w : Wave) (ls : List Nat) (o : Ops),
  let t := opB w o .b64 0
  let has := if w.weight = 1 then 1 + 2 ^ 56 else w.weight
  let sends (k : Send) (i : Instr) (depth : Nat) (quad : Option Nat) : Prop :=
    sendFault s w k t = none → (sendDie s w k t < 8 → ringRoom s (sendDie s w k t) w.asid (t % 4096) = true) →
    (o.x.testBit 0 = false → ReleaseReady s w true) → (w.weight = 1 → 2 ^ 56 ≤ poolOf s (quadOf w.die w.core) w.launch) → Issues s i w ls →
    Answers i s (fun u => { u with waves := s.waves, flights := s.flights, nextFid := s.nextFid, quads := s.quads } = s ∧
      WaveIs s u w.uid (goSeq { w with weight := has - has / 2 }) ∧
      poolOf u (quadOf w.die w.core) w.launch = poolOf s (quadOf w.die w.core) w.launch - (if w.weight = 1 then 2 ^ 56 else 0) ∧
      ∃ f ∈ u.flights, f.id = s.nextFid ∧ f.who = whoOf w ∧ f.cls = none ∧ ∃ r, f.act = .record (sendDie s w k t) r false ∧
        r.asid = w.asid ∧ r.node = t % 4096 ∧ r.launch = w.launch ∧ r.depth = depth ∧ r.weight = has / 2 ∧ r.quad = quad ∧ r.seq = none ∧
        r.pay.length = 8 ∧ ∀ i, i < 4 → (rdS w (o.a + i)).toNat = (r.pay.getD (2 * i) 0).toNat + 2 ^ 32 * (r.pay.getD (2 * i + 1) 0).toNat)
  sends .spawn (.spawn o) (w.depth + 1) none ∧ sends .amsg (.amsg o) w.depth (some (t / 2 ^ 12 % 32)) ∧ sends .enq (.enq o) w.depth none ∧
  (sendPkg s .amsg t = s.pod.pkg → sendDie s w .spawn t = w.die ∧ sendDie s w .amsg t = t / 2 ^ 17 % 8 ∧
    sendDie s w .enq t = (if t.testBit 20 then t / 2 ^ 17 % 8 else w.die))) ∧
  (∀ (s : State) (w : Wave) (ls : List Nat) (g : Guard) (d q : Nat) (b : Bool) (n : Node),
  nodeOf s w.asid w.node = some n →
  let pick := pickRecord s w.die n (queueAt s w.die w.asid w.node) w.launch
  let ended (taken : Bool) (w1 : Wave) : Prop := w1.deqFrom = none ∧ w1.tookMore = true ∧ (q ≠ 0 → q < 4 → rdQ w1 q = taken) ∧
    { w1 with s := w.s, weight := w.weight, q := w.q, deqFrom := w.deqFrom, tookMore := w.tookMore } = w
  (∀ r, Issues s (.deq g d q b) w ls → pick = some r → Answers (.deq g d q b) s (fun t => SameMemory s t ∧ ∃ w1, ended true w1 ∧
    WaveIs s t w.uid (goSeq w1) ∧ w1.weight = w.weight + r.1.weight ∧
    (∀ i, i < 4 → (rdS w1 (d + i)).toNat = (r.1.pay.getD (2 * i) 0).toNat + 2 ^ 32 * (r.1.pay.getD (2 * i + 1) 0).toNat) ∧
    (∀ m, m < d ∨ d + 4 ≤ m → rdS w1 m = rdS w m))) ∧
  (Issues s (.deq g d q b) w ls → pick = none → b = false → Completes (.deq g d q b) s w (fun w1 => ended false w1 ∧ w1.s = w.s ∧ w1.weight = w.weight)) ∧
  (Issues s (.deq g d q b) w ls → pick = none → b = true → w.deqFrom = none → Answers (.deq g d q b) s (fun t =>
    { t with waves := s.waves } = s ∧ WaveIs s t w.uid { w with deqFrom := some (coreClock s w.die w.core, q) })) ∧
  (∀ uid t0, findWave s uid = some w → w.deqFrom = some (t0, q) → 4096 ≤ cyclesSince s w.die w.core t0 → w.fork = none →
    (pick.isSome = true → exec (.deqTimeout uid) s = .next s) ∧
    (pick = none → Answers (.deqTimeout uid) s (fun t => { t with waves := s.waves } = s ∧
      (∃ w1, findWave t uid = some (goSeq w1) ∧ ended false w1 ∧ w1.s = w.s ∧ w1.weight = w.weight) ∧
      ∀ u x, u ≠ uid → findWave s u = some x → ∃ y, findWave t u = some y ∧ match x.fork with
        | none => y = x
        | some f => ∃ rs, y = { x with fork := some { f with homeWrote := rs } } ∧ (∀ r ∈ f.homeWrote, r ∈ rs) ∧
            ((f.home = uid ∧ ∃ i ∈ f.slices, i ∈ gang w) → RegRef.q q ∈ rs) ∧ (¬(f.home = uid ∧ ∃ i ∈ f.slices, i ∈ gang w) → rs = f.homeWrote)))))

/-- R184, R232, R360, R372, R381: `dlaunch` starts a child of the wave's launch with the next number of the tree, half of the wave's weight as link share and the
parent's handler (R232), on the die it runs on (R372); the number goes to s[d] where the form asks for it. A descriptor in a weight-store bank that
is in refresh is waited for (R184). -/
def Obligations.DeviceLaunches : Prop := ∀ (s : State) (w : Wave) (ls : List Nat) (o : Ops) (bs : List Byte) (root parent : Launch) (pa : Nat × Page),
  Issues s (.dlaunch o) w ls → checkMem s w.asid false .load (rdS w o.a).toNat 64 = .ok pa → ReleaseReady s w true → w.weight ≠ 1 →
  engRefresh s w.asid false [(rdS w o.a, 64)] = false →
  descBytes (tlbFill s w.asid (rdS w o.a).toNat) w (rdS w o.a) = some bs → findLaunch s (treeNum w.launch) = some root →
  findLaunch s w.launch = some parent →
  let num := treeNum w.launch + (root.tree % (2 ^ 32 - 1) + 1)
  findLaunch s num = none →
  Answers (.dlaunch o) s (fun t => SameMemory s t ∧ t.hostMem = s.hostMem ∧
    (∃ w1, WaveIs s t w.uid (goSeq w1) ∧ w1.weight = w.weight - w.weight / 2 ∧ { w1 with s := w.s, weight := w.weight } = w ∧
      (∀ m, ¬(o.x.testBit 0 = true ∧ m = o.d) → rdS w1 m = rdS w m) ∧ (o.x.testBit 0 = true → rdS w1 o.d = BitVec.ofNat 64 num)) ∧
    ∃ l, findLaunch t num = some l ∧ l.host = false ∧ l.parent = w.launch ∧ l.link = w.weight / 2 ∧ l.handler = parent.handler ∧
      l.asid = w.asid ∧ l.rootDie = w.die ∧ l.node = leNat (bs.take 8) % 4096)

/-- R357, R358, R360, R366, R369, R373: the dispatcher of a die starts the next task of a launch's range: with its index, its payload, and
weight from the share; share, home and wave together hold what share and home held. The launch is the package's only one here, and stands
under the die's pointer. -/
def Obligations.RangeTasksStart : Prop := ∀ (s : State) (die : Nat) (l : Launch) (n : Node) (x : Share) (k : Int), die < 8 →
  s.launches = [l] → launchLive s l = true → l.pq = false → l.pers = false → (dieAt s die).queues = [] → shareOf l die = some x →
  kernelNode s l.asid l.node = some n → 0 < n.foot.slices → shareReady l x = true → dieOpen s die l.num = true →
  (∃ c, c < 128 ∧ coreFits s die c n.foot = true) → deqFirst s die = false → deadRange s die = none →
  (dieAt s die).deficit = [(l.num, k)] → 0 ≤ k → stGet 0 (effective s l) (dieAt s die).ptr = l.num →
  Answers (.dispatch die) s (fun t => SameMemory s t ∧ ∃ w ∈ t.waves, w.uid = s.nextUid ∧ w.die = die ∧ w.asid = l.asid ∧ w.launch = l.num ∧
    w.widx = x.next - l.first ∧ gpc w = n.entry ∧ w.foot = n.foot ∧
    (∀ i, i < 4 → rdS w i = payWord (if l.ixw = 0 then l.pay else l.pay.modify (l.ixw - 1) (fun y => y + BitVec.ofNat 32 x.next)) i) ∧
    ∃ l1, findLaunch t l.num = some l1 ∧
      l1.home + w.weight + (match shareOf l1 die with | some y => y.weight | none => 0) = l.home + x.weight ∧
      (x.next + 1 ≠ x.stop → ∃ y, shareOf l1 die = some y ∧ y.next = x.next + 1 ∧ y.stop = x.stop))

/-- R14, R354, R363, R364, R367, R372, R375, R376: records, batches, draws and weight on their way arrive. The weight of a record for another
package comes home as the record leaves (log entry 1).
R360, R402: a waiting launch may start once the launches it depends on have completed and no event waits. -/
def Obligations.RecordsWeightAndDependences : Prop :=
  (∀ (s : State) (fid : Nat) (f : Flight), InFlight s fid f → fid ≠ s.nextFid →
  (∀ die r err n, f.act = .record die r err → die < 8 → recordTurn s f die r = true → rankTurn s f die r = true → nodeOf s r.asid r.node = some n → n.valid = true →
    n.sink = false → arrivalRoom s die n r err = true →
    let q := queueAt s die r.asid r.node
    Answers (.recordArrival fid) s (fun t => findFlight t fid = none ∧ t.waves = s.waves ∧
      (q.ring = [] → q.batch = false → q.chip.length < 32 → t.mem = s.mem ∧
        ∃ at', queueAt t die r.asid r.node = { q with chip := q.chip ++ [r], newest := at' }) ∧
      (q.ring ≠ [] ∨ q.batch = true ∨ 32 ≤ q.chip.length → (queueAt t die r.asid r.node).chip = q.chip ∧
        (queueAt t die r.asid r.node).tail = q.tail + 1 ∧
        (r ∈ (queueAt t die r.asid r.node).ring ∨ ∃ g ∈ t.flights, ∃ rs, g.act = .batch die r.asid r.node rs ∧ r ∈ rs)))) ∧
  (∀ die r c, f.act = .record die r false → die < 8 → recordTurn s f die r = true → rankTurn s f die r = true → nodeOf s r.asid r.node = none → findCtx s r.asid = some c →
    Answers (.recordArrival fid) s (fun t => t.mem = s.mem ∧ ∃ g ∈ t.flights, ∃ x, g.act = .record die x true ∧ x.node = c.errn ∧
      x.weight = r.weight ∧ x.pay = [BitVec.ofNat 32 (6 + 2 ^ 8 * 2), BitVec.ofNat 32 r.launch, BitVec.ofNat 32 (r.launch / 2 ^ 32),
        BitVec.ofNat 32 r.node] ++ r.pay.take 4)) ∧
  (∀ die r err, f.act = .record die r err → 8 ≤ die → recordTurn s f die r = true → Answers (.recordArrival fid) s (fun t =>
    findFlight t fid = none ∧ { t with flights := s.flights, nextFid := s.nextFid } = s ∧
    (0 < r.weight → ∃ g ∈ t.flights, g.act = .wreturn r.launch r.weight))) ∧
  (∀ die asid node rs, f.act = .batch die asid node rs → Answers (.batchArrival fid) s (fun t => SameMemory s t ∧
    (queueAt t die asid node).chip = (queueAt s die asid node).chip ++ rs)) ∧
  (∀ q num l, f.act = .draw q num none → findLaunch s num = some l → 2 ≤ l.home → Answers (.draw fid) s (fun t => findFlight t fid = none ∧
    ∃ l1, findLaunch t num = some l1 ∧ l1.home + poolOf t q num = l.home + poolOf s q num ∧
      poolOf t q num = poolOf s q num + min (2 ^ 60) (l.home / 2))) ∧
  (∀ num amount l, f.act = .wreturn num amount → findLaunch s num = some l → l.complete = false →
    (l.home + amount < 2 ^ 64 → Answers (.weightReturn fid) s (fun t => findFlight t fid = none ∧
      findLaunch t num = some { l with home := l.home + amount })) ∧
    (2 ^ 64 ≤ l.home + amount → s.regs.events = [] → launchQuiet s l = true → Answers (.weightReturn fid) s (fun t =>
      findFlight t fid = none ∧ ∃ l1, findLaunch t num = some l1 ∧ l1.complete = true)))) ∧
  (∀ (s : State) (num : Nat) (l : Launch), findLaunch s num = some l → l.begun = false →
  l.complete = false → s.regs.events = [] →
  ((∀ d ∈ l.deps, depMet s d = true) → Answers (.dependenceMet num) s (fun t => { t with launches := s.launches } = s ∧
    findLaunch t num = some { l with begun := true })) ∧
  ((∃ d ∈ l.deps, depMet s d = false) → exec (.dependenceMet num) s = .next s))

/-! ### Traversal and texture units -/

/-- R327 to R329, R331, R342, R344: `trace` and the texture instructions leave with their lanes' registers once the descriptor's pointer
passes its check; a queue trace takes half of the wave's weight, after a draw from the quad's pool for a wave with one unit. `tget` reads a
result slot. -/
def Obligations.UnitInstructionsIssue : Prop := ∀ (s : State) (w : Wave) (ls : List Nat) (o : Ops), NoForks s w →
  let desc := rdS w o.a
  let run (l n k : Nat) : List W32 := (List.range k).map (fun i => rdV w l (n + i))
  let texel (i : Instr) (fn : TexFn) (align coords grads : Nat) : Prop :=
    Issues s i w ls → counter s w.uid .tx < 63 → desc.toNat % align = 0 → (∃ r, checkPage s w.asid false .load desc.toNat 8 = .ok r) →
    Answers i s (fun t => { t with waves := s.waves, tlb := s.tlb, flights := s.flights, nextFid := s.nextFid } = s ∧
      WaveIs s t w.uid (goSeq w) ∧ CountsUp s t w.uid .tx ∧ ∃ f ∈ t.flights, f.id = s.nextFid ∧ f.cls = some .tx ∧
        f.who = { whoOf w with lanes := laneMask ls } ∧
        f.act = .tex {
          fn := fn, desc := desc, cnt := o.x % 64 + 1, dim := if o.x.testBit 6 then 3 else 2, dst := o.d
          lanes := ls.map (fun l => (l, run l (bNum o) coords, run l o.c grads)), formed := false, chunks := [], got := [] })
  let dim := if o.x.testBit 6 then 3 else 2
  texel (.hgf o) .hgf 64 dim 0 ∧ texel (.hgs o) .hgs 64 dim (o.x % 64 + 1) ∧ texel (.tex o) .tex 32 2 0 ∧ texel (.tld o) .tld 32 2 0 ∧
  (let queue := o.x.testBit 0
   let has := if w.weight = 1 then 1 + 2 ^ 56 else w.weight
   Issues s (.trace o) w ls → counter s w.uid .tx < 63 → (∃ r, checkMem s w.asid false .load desc.toNat 32 = .ok r) →
   (queue = true → w.weight = 1 → 2 ^ 56 ≤ poolOf s (quadOf w.die w.core) w.launch) →
   Answers (.trace o) s (fun t =>
     { t with waves := s.waves, tlb := s.tlb, flights := s.flights, nextFid := s.nextFid, quads := s.quads } = s ∧
     WaveIs s t w.uid (goSeq (if queue then { w with weight := has - has / 2 } else w)) ∧ CountsUp s t w.uid .tx ∧
     poolOf t (quadOf w.die w.core) w.launch =
       poolOf s (quadOf w.die w.core) w.launch - (if queue = true ∧ w.weight = 1 then 2 ^ 56 else 0) ∧
     ∃ f ∈ t.flights, f.id = s.nextFid ∧ f.who = whoOf w ∧ f.cls = some .tx ∧
       f.act = .trace {
         desc := desc, queue := queue, slot := o.x / 2 % 2, depth := w.depth, rays := ls.map (fun l => (l, run l (bNum o) 9))
         pays := if queue then ls.map (fun l => (l, run l o.c 2)) else [], share := if queue then has / 2 else 0, out := [], sent := [] })) ∧
  (Issues s (.tget o) w ls → slotBusy s w.uid (o.x % 2) = false → Completes (.tget o) s w (fun w1 =>
    { w1 with v := w.v } = w ∧ (∀ l ∈ ls, ∀ i, i < 8 → rdV w1 l (o.d + i) = stGet 0 (256 * (o.x % 2) + 8 * l + i) w.slots) ∧
    ∀ l n, n < 256 → ¬(l ∈ ls ∧ o.d ≤ n ∧ n < o.d + 8) → rdV w1 l n = rdV w l n))

/-- R184, R319, R330: a ray with an invalid record, and no other, ends with status 5 and does no work; the record of any ray has a status from 1 to 6, and
nothing but zeros and its steps unless it hit. A walk that waits for a weight-store bank to come back from refresh (R184) answers 7 here, the
model's own mark of a ray that has no record yet. -/
def Obligations.RayRecords : Prop := ∀ (s : State) (who : Who) (c : TraceCmd) (rs : List W32),
  let r := traceRay s who c rs
  let word (i : Nat) : W32 := rs.getD i 0
  let finite (x : W32) : Prop := expField .f32 x.toNat ≠ 255
  let nan (x : W32) : Prop := expField .f32 x.toNat = 255 ∧ mantField .f32 x.toNat ≠ 0
  let zero (x : W32) : Prop := x.toNat % 2 ^ 31 = 0
  let invalid : Prop := ¬(finite (word 0) ∧ finite (word 1) ∧ finite (word 2)) ∨ nan (word 3) ∨ nan (word 4) ∨ nan (word 5) ∨
    (zero (word 3) ∧ zero (word 4) ∧ zero (word 5)) ∨ nan (word 6) ∨ nan (word 7) ∨ f32Lt (word 7).toNat (word 6).toNat = true ∨
    2048 ≤ (word 8).toNat ∨ (word 8).toNat / 512 % 4 = 3
  (invalid → r = (s, [5, 0, 0, 0, 0, 0, 0, 0], none)) ∧ (¬invalid → r.2.1.getD 0 0 ≠ 5) ∧
  r.2.1.length = 8 ∧ (let status := (r.2.1.getD 0 0).toNat % 256
    1 ≤ status ∧ status ≤ 7 ∧ (status ≠ 2 → r.2.1.getD 0 0 = BitVec.ofNat 32 status ∧ ∀ i, 1 ≤ i → i < 7 → r.2.1.getD i 0 = 0)) ∧
  SameMemory s r.1 ∧ r.1.waves = s.waves ∧ r.1.flights = s.flights

/-- R184, R328 to R332, R374: RAY_COMPLETION writes a lane's record to the slot of an inline trace; a ray reads its hierarchy in the step in which it
completes (the model's choice, log entry 45); a walk that waits for a bank (R184) tries again. In queue mode the record waits for those of lower
lanes and then leaves with half of the share, the last one with all of it. -/
def Obligations.RaysComplete : Prop := ∀ (s : State) (fid lane : Nat) (f : Flight) (c : TraceCmd), InFlight s fid f → f.act = .trace c →
  fid ≠ s.nextFid →
  (∀ rs w, c.queue = false → c.rays.find? (fun x => x.1 == lane) = some (lane, rs) → findWave s f.who.uid = some w →
    (traceRay s f.who c rs).2.1.getD 0 0 ≠ 7 → Answers (.rayCompletion fid lane) s (fun t => SameMemory s t ∧ OthersKeep s t w.uid ∧ ∃ w1, findWave t w.uid = some w1 ∧
      { w1 with slots := w.slots, blocked := w.blocked } = w ∧
      (∀ i, i < 8 → stGet 0 (256 * c.slot + 8 * lane + i) w1.slots = (traceRay s f.who c rs).2.1.getD i 0) ∧
      (∀ k, k < 256 * c.slot + 8 * lane ∨ 256 * c.slot + 8 * lane + 8 ≤ k → stGet 0 k w1.slots = stGet 0 k w.slots) ∧
      (c.rays.length ≠ 1 → c.out = [] → c.rays.Pairwise (fun x y => x.1 ≠ y.1) → ∃ g, findFlight t fid = some g ∧
        g.act = .trace { c with rays := c.rays.filter (fun x => !(x.1 == lane)) }))) ∧
  (∀ rs, c.rays.find? (fun x => x.1 == lane) = some (lane, rs) → (traceRay s f.who c rs).2.1.getD 0 0 = 7 →
    exec (.rayCompletion fid lane) s = .next (traceRay s f.who c rs).1) ∧
  (∀ node pay, c.queue = true → c.rays.find? (fun x => x.1 == lane) = none → c.out.find? (fun x => x.1 == lane) = some (lane, node, pay) →
    (∀ x ∈ c.rays, lane < x.1) → (∀ x ∈ c.out, lane ≤ x.1) → ringRoom s f.who.die f.who.asid node = true → c.share ≠ 1 →
    let rest := c.out.filter (fun x => !(x.1 == lane))
    let g := if rest = [] ∧ c.rays = [] then c.share else c.share / 2
    Answers (.rayCompletion fid lane) s (fun t => SameMemory s t ∧
      (∃ x ∈ t.flights, x.id = s.nextFid ∧ ∃ r, x.act = .record f.who.die r false ∧ r.asid = f.who.asid ∧ r.node = node ∧
        r.launch = f.who.launch ∧ r.depth = c.depth ∧ r.weight = g ∧ r.pay = pay) ∧
      ∃ x, findFlight t fid = some x ∧ x.act = .trace { c with out := rest, share := c.share - g, sent := s.nextFid :: c.sent })) ∧
  (c.rays = [] → c.out = [] → c.share = 0 → (∀ g ∈ s.flights, g.id ∉ c.sent) → Answers (.rayCompletion fid lane) s (fun t =>
    SameMemory s t ∧ findFlight t fid = none))

/-- R338 to R341, R344, R345, R349, R350: the texture unit: an instruction without poison or failure writes its values and nothing else; a chunk's
adds leave in order; an add is one FP32 sum at the word's home; the cell and the fraction of a coordinate, the weight of a corner, where the
entries of a level stand; a feature is the sum over the corners in order; a texel's channels; the nearest texel and the sum of four that `tex`
gives, and the texel of `tld`; texels outside the texture read as zeros. A lane of which a read has no bytes gets no value; each poisoned address
counts for it, beside a read that fails. Which bytes a read finds while the table is written is the model's free
value (log entry 45). -/
def Obligations.TexelsAndGrids : Prop := ∀ (s : State) (fid : Nat) (f : Flight), InFlight s fid f → fid ≠ s.nextFid →
  (∀ c x w, f.act = .tex c → c.fn ≠ .hgs → (texRun s f.who c).2 = .ok x → x.fail = none → x.wait = false → x.bad = [] →
    findWave s f.who.uid = some w → (∀ v ∈ x.vals, c.dst + v.2.1 < 256) → Answers (.textureCompletion fid) s (fun t => SameMemory s t ∧
      OthersKeep s t w.uid ∧ ∃ w1, findWave t w.uid = some w1 ∧ { w1 with v := w.v, blocked := w.blocked } = w ∧
      (x.vals.Pairwise (fun u v => ¬(u.1 = v.1 ∧ u.2.1 = v.2.1)) → ∀ v ∈ x.vals, rdV w1 v.1 (c.dst + v.2.1) = v.2.2) ∧
      ∀ l n, n < 256 → (∀ v ∈ x.vals, ¬(v.1 = l ∧ c.dst + v.2.1 = n)) → rdV w1 l n = rdV w l n)) ∧
  (∀ c ch rest ws, f.act = .tex c → c.fn = .hgs → c.formed = true → c.chunks = ch :: rest → hgsPages s f.who.asid ch = .ok ws →
    Answers (.chunk fid) s (fun t => SameMemory s t ∧ t.waves = s.waves ∧
      (∃ g, findFlight t fid = some g ∧ g.act = .tex { c with chunks := rest }) ∧
      ∀ i (h : i < ws.length), ∃ g ∈ t.flights, g.id = s.nextFid + i ∧ g.act = .hgsAdd ws[i].1 ws[i].2.1 ws[i].2.2 fid)) ∧
  (∀ va pa val cmd, f.act = .hgsAdd va pa val cmd →
    (∀ g ∈ s.flights, g.id < fid → ∀ va' val', g.act ≠ .hgsAdd va' pa val' cmd) → pa / 32 ∉ s.poison → (∀ c ∈ s.cores, c.2.relb = []) →
    Answers (.hgsAdd fid) s (fun t => findFlight t fid = none ∧ memBytes t.mem pa 4 = leBytes 4 (f32Add (memNat s.mem pa 4) val) ∧
      ∀ a, a < pa ∨ pa + 4 ≤ a → memGet t.mem a = memGet s.mem a)) ∧
  (∀ t n x y z, gridIndex t n [x, y, z] = if (n + 1) ^ 3 ≤ 2 ^ t then x + y * (n + 1) + z * (n + 1) ^ 2
    else (x % 2 ^ 32 ^^^ y * 0x9E3779B1 % 2 ^ 32 ^^^ z * 0x85EBCA77 % 2 ^ 32) % 2 ^ t) ∧
  (∀ who got t l (i j : W32) g r, r.fail = none → r.wait = false → (i.toInt < 0 ∨ (t.w : Int) ≤ i.toInt ∨ j.toInt < 0 ∨ (t.h : Int) ≤ j.toInt) →
    tldLane who got t (l, [i, j], g) r = { r with vals := r.vals ++ [(l, 0, 0), (l, 1, 0), (l, 2, 0), (l, 3, 0)] }) ∧
  (∀ r lane st es g,
    (joinRun r lane (st, es) g).bad = r.bad ++ es.filterMap (fun e => match e with | .error (.poison a) => some (lane, a) | _ => none) ∧
    (joinRun r lane (st, es) g).fail = r.fail.or (es.findSome? (fun e => match e with | .error (.fault a) => some a | _ => none)) ∧
    ((∃ e ∈ es, ∀ bs, e ≠ .ok bs) → (joinRun r lane (st, es) g).vals = r.vals)) ∧
  (let one := 0x3F800000
   let v (x : Nat) : FV := fvOf fmtF32 x
   let less (x : FV) : FV := v (rn32 (exAdd .rn (v one) x.negate))
   let side (x : FV) (up : Bool) : FV := if up then x else less x
   (∀ n x, let y := if f32IsNan x = true ∨ signBit .f32 x = true then 0 else if f32Lt one x = true then one else x
     let p := v (f32Mul y (f32OfNat n))
     gridCell n x = if (fvFloor p).toNat = n then (n - 1, v one) else ((fvFloor p).toNat, fvFrac p)) ∧
   (∀ x y c, cornerWeight [x, y] c = rn32 (exMul (side x (c.testBit 0)) (side y (c.testBit 1)))) ∧
   (∀ x y z c, cornerWeight [x, y, z] c =
     rn32 (exMul (v (rn32 (exMul (side x (c.testBit 0)) (side y (c.testBit 1))))) (side z (c.testBit 2)))) ∧
   (∀ who got (g : Grid) l f (x : TexLane) (r : TexRun) t bss, r.wait = false → texReads who got 2 (hgfAddrs g l f x) r.st = (t, bss.map Except.ok) →
     hgfElem who got g l f x r = { r with st := t, vals := r.vals ++ [(x.1, l * g.feats + f, BitVec.ofNat 32 (
       (List.zip (gridCorners g l x.2.1) bss).foldl (fun acc p => f32Add acc (f32Mul p.1.2
         (fConvert (if g.bf then fmtBf16 else fmtF16) fmtF32 envRN envRN (leNat p.2)).1)) 0))] }) ∧
   (∀ g l f x, hgfAddrs g l f x = (gridCorners g l x.2.1).map (fun c => g.fbase + ((l * 2 ^ g.t + c.1) * g.feats + f) * 2)) ∧
   (∀ bs, channels 0 bs = bs.map (fun b => f32Div (f32OfNat b.toNat) (f32OfNat 255)) ∧ channels 2 bs = [leNat bs, 0, 0, one]) ∧
   (∀ a b c d e f g h, channels 1 [a, b, c, d, e, f, g, h] =
     [[a, b], [c, d], [e, f], [g, h]].map (fun x => (fConvert fmtF16 fmtF32 envRN envRN (leNat x)).1)) ∧
   (let big := 0x4B800000
    let point (u n : Nat) : Nat :=
      f32Mul (if f32IsNan u = true then 0 else if f32Lt big u = true then big else if f32Lt u (big + 2 ^ 31) = true then big + 2 ^ 31 else u) (f32OfNat n)
    let index (t : Texture) (n : Nat) (i : Int) : Nat := if t.wrap = true then (i % n).toNat else (max 0 (min i (n - 1))).toNat
    let texel (t : Texture) (i j : Int) : Nat :=
      t.base + index t t.h j * t.pitch + index t t.w i * (if t.fmt = 1 then 8 else 4)
    let write (r : TexRun) (t : State) (l : Nat) (cs : List Nat) : TexRun :=
      { r with st := t, vals := r.vals ++ cs.mapIdx (fun i c => (l, i, BitVec.ofNat 32 c)) }
    (∀ who got (t : Texture) l (x y : W32) gr r u bs, t.bil = false → r.wait = false →
      texReads who got (texelSize t.fmt) [texel t (fvFloor (v (point x.toNat t.w))) (fvFloor (v (point y.toNat t.h)))] r.st = (u, [.ok bs]) →
      texLane who got t (l, [x, y], gr) r = write r u l (channels t.fmt bs)) ∧
    (∀ who got (t : Texture) l (x y : W32) gr r u (b0 b1 b2 b3 : List Byte), t.bil = true → r.wait = false →
      let p := v (f32Sub (point x.toNat t.w) 0x3F000000)
      let q := v (f32Sub (point y.toNat t.h) 0x3F000000)
      let i := fvFloor p
      let j := fvFloor q
      let weight (c : Nat) : Nat := rn32 (exMul (side (fvFrac p) (c.testBit 0)) (side (fvFrac q) (c.testBit 1)))
      texReads who got (texelSize t.fmt) [texel t i j, texel t (i + 1) j, texel t i (j + 1), texel t (i + 1) (j + 1)] r.st =
        (u, [.ok b0, .ok b1, .ok b2, .ok b3]) →
      texLane who got t (l, [x, y], gr) r = write r u l ([0, 1, 2, 3].map (fun k =>
        let term (acc c : Nat) (b : List Byte) : Nat := f32Add acc (f32Mul (weight c) ((channels t.fmt b).getD k 0))
        term (term (term (term 0 0 b0) 1 b1) 2 b2) 3 b3))) ∧
    (∀ who got (t : Texture) l (i j : W32) gr r u bs, r.wait = false → 0 ≤ i.toInt → i.toInt < t.w → 0 ≤ j.toInt → j.toInt < t.h →
      texReads who got (texelSize t.fmt) [t.base + j.toInt.toNat * t.pitch + i.toInt.toNat * (if t.fmt = 1 then 8 else 4)] r.st = (u, [.ok bs]) →
      tldLane who got t (l, [i, j], gr) r = write r u l (channels t.fmt bs))))

/-! ### Tiles, copies, glean -/

/-- R277 to R281: tile commands leave counted in `cp`, and change their entry when their turn in the tile's order comes; `tq` reads the
entry as it stands. -/
def Obligations.TileCommands : Prop := ∀ (s : State) (w : Wave) (ls : List Nat) (o : Cop), NoForks s w →
  (counter s w.uid .cp < 63 →
    (let base := field o.litNat 11 0
     let size := field o.litNat 35 12
     Issues s (.tdefBytes o) w ls → 256 * base + size ≤ w.foot.spad →
       Sends (.tdefBytes o) s w w .cp (.tile o.ta (.defBytes base size)) none (fun t => t.cores = s.cores)) ∧
    (let base := field o.litNat 11 0
     let rows := field o.litNat 27 12
     let cols := field o.litNat 47 28
     let planes := field o.litNat 52 48
     Issues s (.tdefPlane o) w ls → 256 * base + (planes + 1) * rows * cols / 8 ≤ w.foot.spad →
       Sends (.tdefPlane o) s w w .cp (.tile o.ta (.defPlane base rows cols planes)) none (fun t => t.cores = s.cores)) ∧
    (let x := tileNext s w.uid o.ta
     Issues s (.tset o) w ls → (o.cm % 2 = 0 ∨ o.cm / 2 % 4 ≠ 2 ∨ x.plane = false ∨ x.planes = 1) →
       Sends (.tset o) s w w .cp (.tile o.ta (.set (o.cm.testBit 0) (o.cm / 2 % 4))) none (fun t => t.cores = s.cores))) ∧
  (Issues s (.tq o) w ls → Completes (.tq o) s w (fun w1 => UniFrame o.rr w w1 ∧ w1.fpflags = w.fpflags ∧
    let x := tileAt w o.ta
    rdS w1 o.rr = BitVec.ofNat 64 (2 ^ 20 * x.planes + 2 ^ 8 * x.base + (if tileQueue s w.uid o.ta = [] then 0 else 2 ^ 6) + 2 ^ 4 * x.enc +
      (if x.loss then 2 ^ 3 else 0) + (if x.plane then 2 ^ 2 else 0) +
      (match x.st with | .empty => 0 | .filling => 1 | .ready => 2 | .draining => 3)))) ∧
  (∀ fid f t c, InFlight s fid f → f.act = .tile t c → tileTurns s f = true → findWave s f.who.uid = some w → t < w.tiles.length →
    Answers (.copyCommandStart fid) s (fun u => SameMemory s u ∧ OthersKeep s u w.uid ∧ ∃ w1, findWave u w.uid = some w1 ∧
      { w1 with tiles := w.tiles, blocked := w.blocked } = w ∧ w1.tiles.length = w.tiles.length ∧
      (∀ i, i ≠ t → tileAt w1 i = tileAt w i) ∧ tileAt w1 t = (match c with
        | .defBytes base size => { plane := false, base := base, size := size, rows := 0, cols := 0, planes := 0, enc := 0, loss := false, st := .empty }
        | .defPlane base rows cols planes => { plane := true, base := base, size := 0, rows := rows, cols := cols, planes := planes, enc := 0, loss := false, st := .empty }
        | .set true enc => { tileAt w t with st := .ready, enc := if (tileAt w t).plane then enc else (tileAt w t).enc }
        | .set false _ => { tileAt w t with st := .empty })))

/-- R283 to R288, R291: a copy or glean command whose addresses, stride, list, barrier and tile pass the drill's checks joins the core's queue,
counted in `cp`; its reply register is written later. The stride of `cpy.gth` in the literal has no alignment (the model's reading, log entry 59). -/
def Obligations.CopiesAndGleansIssue : Prop := ∀ (s : State) (w : Wave) (ls : List Nat) (o : Cop), NoForks s w → copyFull s w = false →
  let rr := if o.rf then some (bankKey w o.rr) else none
  let geo := tileNext s w.uid o.ta
  let addr := rdS w o.sa
  let byRegs : Int := if o.str then (rdS w (o.sa + 1)).toInt else (rowLen o.fmt geo.cols : Nat)
  let copy (fn : CopyFn) (stride : Int) (i : Instr) : Prop := Issues s i w ls → ∀ b,
    (copyBar s w o (fn == .gth) = none ∧ b = none ∨ ∃ x, copyBar s w o (fn == .gth) = some (.ok x) ∧ b = some x) →
    Sends i s w w .cp (.copy { fn := fn, tile := o.ta, geo := geo, addr := addr, stride := stride, fmt := o.fmt, bar := b, idx := (rdS w o.sb).toNat,
                               started := false, first := 0, img := [], todo := [], total := 0, done := 0, lo := 0, hi := 0 }) rr (fun t => t.cores = s.cores)
  let aligned : Prop := addr.toNat % fmtAlign o.fmt = 0 ∧ (o.str = true → (rdS w (o.sa + 1)).toInt % fmtAlign o.fmt = 0)
  let glean (fn : GleanFn) (n size out : Nat) (dst : W64) (i : Instr) : Prop := Issues s i w ls →
    let srcPad := o.cm.testBit 10
    let dstPad := o.cm.testBit 11
    addr.toNat % size = 0 → (srcPad = true → addr.toNat + size * n ≤ w.foot.spad) → (dstPad = true → dst.toNat + out ≤ w.foot.spad) →
    Sends i s w w .cp (.glean { fn := fn, n := n, bf16 := o.cm.testBit 9, src := addr, srcPad := srcPad, dst := dst, dstPad := dstPad,
                                started := false, words := [], ans := 0 }) rr (fun t => t.cores = s.cores)
  let elem := if o.cm.testBit 9 then 2 else 4
  let n := o.litNat % 2 ^ 23
  (aligned → copy .ld byRegs (.cpyLd o)) ∧
  (aligned → (o.str = true → geo.plane = true) → tileBreach s w.uid o.ta = false → copy .st byRegs (.cpySt o)) ∧
  (aligned → geo.plane = true → copy .ws byRegs (.cpyWs o)) ∧
  (addr.toNat % fmtAlign o.fmt = 0 → (rdS w o.sb).toNat % 4 = 0 → (rdS w o.sb).toNat + 4 * geo.rows ≤ w.foot.spad → geo.plane = true →
    copy .gth (o.litNat % 2 ^ 32 : Nat) (.cpyGth o)) ∧
  copy .fill byRegs (.cpyFill o) ∧
  ((rdS w o.sb).toNat % 8 = 0 → glean (.topk (o.cm % 512)) n elem (8 * (o.cm % 512)) (rdS w o.sb) (.glTopk o)) ∧
  ((rdS w o.sb).toNat % 4 = 0 → glean (.smax (o.litNat / 2 ^ 32 % 2 ^ 32)) n elem (4 * n) (rdS w o.sb) (.glSmax o)) ∧
  glean (.samp ((rdS w o.sb).toNat % 2 ^ 32) ((rdS w o.sb).toNat / 2 ^ 32)) (o.cm % 512) 8 0 0 (.glSamp o)

/-- R281, R285, R286, R288 to R290: a fill starts by making its tile FILLING, and leaves a tile of no bytes READY at once; a `cpy.st` starts with
its packed rows; each part writes its bytes, whether to the tile or to memory; the
last one leaves the tile READY and replies with the bytes written. `cpy.fill` repeats its eight bytes over a bytes tile. That the source is read
whole as the command starts is the model's choice (log entry 45), that LOSS changes then its reading (log entry 61). -/
def Obligations.CopiesRun : Prop := ∀ (s : State) (fid : Nat) (f : Flight) (c : CopyCmd) (w : Wave), InFlight s fid f → f.act = .copy c →
  findWave s f.who.uid = some w → c.tile < w.tiles.length → c.bar = none →
  (∀ bs loss, c.fn ≠ .st → c.started = false → tileTurns s f = true → spanTurn s f [] (writeSpans f.act) = true → listBusy s w.uid c = false →
    (c.fn = .gth → spanTurn s f [listSpan c] [] = true) → spanTurn s f (startReads s f.who c) [] = true →
    engRefresh s f.who.asid (c.fn == .ws) (fillRanges s f.who c) = false → fillImage s f.who c = .ok (bs, loss) →
    (bs ≠ [] → Answers (.copyCommandStart fid) s (fun t => SameMemory s t ∧ OthersKeep s t w.uid ∧
      (∃ w1, findWave t w.uid = some w1 ∧ { w1 with tiles := w.tiles } = w ∧ (∀ i, i ≠ c.tile → tileAt w1 i = tileAt w i) ∧
        (tileAt w1 c.tile).st = .filling ∧ (tileAt w1 c.tile).loss = loss) ∧
      ∃ g, findFlight t fid = some g ∧ g.act = .copy { c with
        started := true, total := tileBytes c.geo, img := [(0, bs)], todo := partsOf [(0, bs)]
        lo := (rowsSpan s f.who c).lo, hi := (rowsSpan s f.who c).hi })) ∧
    (bs = [] → replyBusy s f = false → Answers (.copyCommandStart fid) s (fun t => SameMemory s t ∧ OthersKeep s t w.uid ∧
      findFlight t fid = none ∧ ∃ w1, findWave t w.uid = some w1 ∧ (tileAt w1 c.tile).st = .ready))) ∧
  (c.fn = .st → c.started = false → tileTurns s f = true → spanTurn s f [] (writeSpans f.act) = true → spanTurn s f (readSpans f.act) [] = true →
    fmtMismatch c.fn c.fmt c.geo = false → padPoisoned s w.uid (256 * c.geo.base) (tileBytes c.geo) = false →
    let img := (storeRows s w.uid c).1
    partsOf img ≠ [] → Answers (.copyCommandStart fid) s (fun t => SameMemory s t ∧ OthersKeep s t w.uid ∧ ∃ g, findFlight t fid = some g ∧
      g.act = .copy { c with
        started := true, first := storeFirst c, img := img, todo := partsOf img, total := ((partsOf img).map (partLen img)).sum })) ∧
  (∀ part, c.fn ≠ .st → c.started = true → part ∈ c.todo → replyBusy s f = false → Answers (.copyPartCompletion fid part) s (fun t =>
    SameMemory s t ∧ OthersKeep s t w.uid ∧
    ∃ w1, findWave t w.uid = some w1 ∧
      { w1 with pad := w.pad, padBad := w.padBad, tiles := w.tiles, s := w.s, hs := w.hs, blocked := w.blocked } = w ∧
      (∀ a, padBytes w1.pad a 1 =
        match if 256 * (c.geo.base + part) ≤ a ∧ a < 256 * (c.geo.base + part) + 256 then pieceByte c.img (a - 256 * c.geo.base) else none with
        | some b => [b]
        | none => padBytes w.pad a 1) ∧
      (if c.todo.filter (fun p => !(p == part)) = [] then
        (tileAt w1 c.tile).st = .ready ∧ (∀ k, f.rr ≠ some k → rdBank w1 k = rdBank w k) ∧ ∀ k, f.rr = some k → k < 128 →
          rdBank w1 k = BitVec.ofNat 64 ((c.done + partLen c.img part) % 2 ^ 32 + if (tileAt w c.tile).loss then 2 ^ 32 else 0)
       else w1.tiles = w.tiles ∧ w1.s = w.s ∧ w1.hs = w.hs ∧ ∃ g, findFlight t fid = some g ∧
        g.act = .copy { c with todo := c.todo.filter (fun p => !(p == part)), done := c.done + partLen c.img part }))) ∧
  (∀ part ps, c.fn = .st → c.started = true → part ∈ c.todo → runsPlan s f.who.asid c.first (partRuns c.img part) = .ok ps →
    replyBusy s f = false → (∀ d ∈ s.cores, d.2.relb = []) → Answers (.copyPartCompletion fid part) s (fun t =>
      ∀ a, memGet t.mem a = memGet (ps.foldl (fun m p => memPut m p.2.1 p.2.2) s.mem) a)) ∧
  (c.fn = .fill → c.geo.plane = false → ∃ bs, fillImage s f.who c = .ok (bs, false) ∧ bs.length = c.geo.size ∧
    ∀ i, i < c.geo.size → bs.getD i 0 = (leBytes 8 c.addr.toNat).getD (i % 8) 0)

/-- R291 to R294: a glean command reads its source when it starts, in one step (the model's choice, log entry 45), and writes its words and reply when it completes; `gl.topk` gives exactly k
pairs; `gl.smax` divides each exponential by their sum (the sign of a maximum of both zeros is the model's free value, log 114); `gl.samp`
without a usable pair answers all ones. -/
def Obligations.GleansRun : Prop := ∀ (s : State) (fid : Nat) (f : Flight) (g : GleanCmd) (w : Wave), InFlight s fid f → f.act = .glean g →
  findWave s f.who.uid = some w → (∀ d ∈ s.cores, d.2.relb = []) →
  let refreshed : Prop := engRefresh s f.who.asid false (gleanRanges g) = false
  (∀ bs, g.started = false → spanTurn s f (readSpans f.act) (writeSpans f.act) = true → refreshed → gleanRead s f.who g = .ok bs →
    (∀ sc, g.fn ≠ .smax sc) → Answers (.copyCommandStart fid) s (fun t => SameMemory s t ∧ t.waves = s.waves ∧
      ∃ h, findFlight t fid = some h ∧ ∃ words ans, h.act = .glean { g with started := true, words := words, ans := ans } ∧
        (∀ k, g.fn = .topk k → words = (topPairs k (gleanElems g bs)).flatMap (fun p => [p.1, p.2]) ∧
          ans = BitVec.ofNat 64 ((gleanElems g bs).filter f32IsNan).length) ∧
        (∀ u p, g.fn = .samp u p → words = [] ∧ ans = sampAns u p (sampPairs bs g.n)))) ∧
  (∀ bs sc ps, g.started = false → spanTurn s f (readSpans f.act) (writeSpans f.act) = true → refreshed →
    gleanRead s f.who g = .ok bs → g.fn = .smax sc →
    let xs := gleanElems g bs
    let es := xs.map (smaxExp sc (smaxMax xs))
    (f32IsZero (smaxMax xs) = false ∨ 0 ∉ xs ∨ 0x80000000 ∉ xs → smaxReply s xs = smaxMax xs) ∧
    f32IsZero (smaxReply s xs) = f32IsZero (smaxMax xs) ∧
    (smaxBad sc xs = false → smaxOpen g = false → gleanPlan s f.who g (wordBytes es) = .ok ps → Answers (.copyCommandStart fid) s (fun t =>
      ∃ h, findFlight t fid = some h ∧ h.act = .glean { g with started := true, words := es.map (fun e => f32Div e (smaxSum es)),
                                                               ans := BitVec.ofNat 64 (smaxReply s xs + 2 ^ 32 * smaxSum es) }))) ∧
  (∀ ps, g.started = true → replyBusy s f = false → gleanPlan s f.who g (wordBytes g.words) = .ok ps → Answers (.gleanCompletion fid) s (fun t =>
    OthersKeep s t w.uid ∧ (∃ w1, findWave t w.uid = some w1 ∧
      { w1 with pad := w.pad, padBad := w.padBad, s := w.s, hs := w.hs, blocked := w.blocked } = w ∧
      (∀ k, f.rr ≠ some k → rdBank w1 k = rdBank w k) ∧ (∀ k, f.rr = some k → k < 128 → rdBank w1 k = g.ans) ∧
      (g.dstPad = true → padBytes w1.pad g.dst.toNat (4 * g.words.length) = wordBytes g.words)) ∧
    (g.dstPad = true → SameMemory s t) ∧
    (g.dstPad = false → ∀ a, memGet t.mem a = memGet (ps.foldl (fun m p => memPut m p.2.1 p.2.2) s.mem) a))) ∧
  (∀ k xs, (topPairs k xs).length = k) ∧ (∀ u p, sampAns u p [] = BitVec.ofNat 64 (2 ^ 64 - 1))

/-! ### Matrix engine -/

/-- R297, R299, R302 to R307, R312, R314: matrix commands on a leader core: `mlease` raises the wave's count to at most 255 and is a request when
it found 0; `mrel` clears it, and does nothing at 0; `mclr`, `mmo` and `mdrain` take one from it and are counted in `mx`. Offsets of a bitmap, the
handle of a pair, the lease and the tiles are checked in this order: on a follower core, and for a command without a lease, LEASE is raised.
The ADDR of a BOUNDS record of a bitmap, the first byte that is outside both it and the allocation's end, and of a bad pair handle, the offset in
its low 32 bits, are the model's reading (log entry 60). -/
def Obligations.MatrixCommandsIssue : Prop := ∀ (s : State) (w : Wave) (ls : List Nat) (o : Cop), NoForks s w →
  let rr := if o.rf then some (bankKey w o.rr) else none
  let n := min (w.lease + o.cm % 256) 255
  let w1 := { w with lease := w.lease - 1 }
  let lease : List CauseRec := [drillRec w 11 (gpc w) 0]
  let cmd (fn : MatFn) (ends : Bool) : Act := .matrix (matCmd s w fn ends)
  let sends (fn : MatFn) (i : Instr) : Prop := Issues s i w ls → counter s w.uid .mx < 63 → w.core % 2 = 0 → w.lease ≠ 0 →
    Sends i s w w1 .mx (cmd fn (w.lease == 1)) none (fun t => t.cores = s.cores)
  let a := tileNext s w.uid o.ta
  let b := tileNext s w.uid o.tb
  let planesOk (m : BMode) (p : Nat) : Prop := (m = .minplus ∨ m = .maxplus ∨ m = .maxtimes → p ≤ 16) ∧ (m = .orand → p = 1)
  let mode : BMode := match o.cm % 8 with | 0 => .f32 | 1 => .i32 | 2 => .minplus | 3 => .maxplus | 4 => .maxtimes | _ => .orand
  let quiet (t : State) (w2 : Wave) (fn : MatFn) (rr : Option Nat) : Prop :=
    { t with waves := s.waves, flights := s.flights, nextFid := s.nextFid } = s ∧ WaveIs s t w.uid (goSeq w2) ∧
    NewFlight s t w none (cmd fn false) rr ∧ ∀ c, counter t w.uid c = counter s w.uid c
  (Issues s (.mlease o) w ls → w.core % 2 = 0 → Answers (.mlease o) s (fun t => quiet t { w with lease := n } (.lease (w.lease == 0) n) rr)) ∧
  (Issues s (.mrel o) w ls → w.core % 2 = 0 → if w.lease = 0 then Completes (.mrel o) s w (fun w2 => w2 = w)
    else Answers (.mrel o) s (fun t => quiet t { w with lease := 0 } .rel none)) ∧
  sends (.clr (o.cm % 2) (o.cm / 2 % 4)) (.mclr o) ∧
  (let off := (rdS w o.sa).toNat
   let zb := o.cm.testBit 4
   let pair := o.cm.testBit 5
   let h := rdS w o.sb
   (zb = true → off % 2 = 0 ∧ off + a.cols / 4 ≤ w.foot.spad) →
   a.plane = true → a.rows ∈ [8, 16, 32, 64, 128] → planesOk mode a.planes → tileBreach s w.uid o.ta = false →
   b.plane = true → b.rows = a.cols → (if pair then b.cols = 128 else b.cols ≤ 128) → planesOk mode b.planes → tileBreach s w.uid o.tb = false →
   (pair = false → sends (.mmo (o.cm / 8 % 2) mode o.ta o.tb (if zb then some off else none) none) (.mmo o)) ∧
   (∀ p, pair = true → field h.toNat 63 40 = 0 → field h.toNat 39 38 = w.core % 4 + 1 → field h.toNat 31 0 = 0 → peerOf s w h = some p →
     (let t := tileNext s p.uid o.tb
      o.tb < p.foot.tiles ∧ t.plane = true ∧ t.rows = a.cols ∧ t.cols ≤ 128 ∧ t.planes = b.planes ∧ t.enc = b.enc) →
     tileBreach s p.uid o.tb = false →
     sends (.mmo (o.cm / 8 % 2) mode o.ta o.tb (if zb then some off else none) (some p.uid)) (.mmo o))) ∧
  (let addr := rdS w o.sa
   let stride := (rdS w (o.sa + 1)).toInt
   let rows := match field o.cm 6 4 with | 0 => 0 | n => 2 ^ (n + 2)
   let cols := 8 * field o.cm 11 7
   (o.cm.testBit 2 = false → addr.toNat % 4 = 0 → (o.cm.testBit 3 = true → stride % 4 = 0) →
     sends (.drain (o.cm % 2) (o.cm.testBit 1) none addr (if o.cm.testBit 3 then some stride else none) rows cols) (.mdrain o)) ∧
   (o.cm.testBit 2 = true → a.plane = false → (rows ≠ 0 → cols ≠ 0 → 4 * rows * cols ≤ a.size) →
     sends (.drain (o.cm % 2) (o.cm.testBit 1) (some o.ta) addr none rows cols) (.mdrain o))) ∧
  (CanTrap s w → (w.core % 2 = 1 →
    (Issues s (.mlease o) w ls → Traps (.mlease o) s w lease (gpc w)) ∧ (Issues s (.mrel o) w ls → Traps (.mrel o) s w lease (gpc w))) ∧
    (counter s w.uid .mx < 63 →
      let off := (rdS w o.sa).toNat
      let h := (rdS w o.sb).toNat
      let zb := o.cm.testBit 4
      let pair := o.cm.testBit 5
      let toTile := o.cm.testBit 2
      let stride := (rdS w (o.sa + 1)).toInt
      let bound := off + a.cols / 4
      let named : Prop := h / 2 ^ 40 % 2 ^ 24 = 0 ∧ h / 2 ^ 38 % 4 = w.core % 4 + 1 ∧ h % 2 ^ 32 = 0
      let zbOk : Prop := zb = true → off % 2 = 0 ∧ bound ≤ w.foot.spad
      let pairOk : Prop := pair = true → named ∧ (peerOf s w (rdS w o.sb)).isSome = true
      let drainOk : Prop := toTile = true ∨ (off % 4 = 0 ∧ (o.cm.testBit 3 = true → stride % 4 = 0))
      let fails (i : Instr) (cause : Nat) (addr : W64) (detail : Nat) : Prop := Traps i s w [drillRec w cause addr detail] (gpc w)
      (w.core % 2 = 1 ∨ w.lease = 0 → (Issues s (.mclr o) w ls → Traps (.mclr o) s w lease (gpc w)) ∧
        (Issues s (.mmo o) w ls → zbOk → pairOk → Traps (.mmo o) s w lease (gpc w)) ∧
        (Issues s (.mdrain o) w ls → drainOk → Traps (.mdrain o) s w lease (gpc w))) ∧
      (Issues s (.mmo o) w ls → zb = true → off % 2 = 1 → fails (.mmo o) 4 (rdS w o.sa) 2) ∧
      (Issues s (.mmo o) w ls → zb = true → off % 2 = 0 → w.foot.spad < bound → fails (.mmo o) 5 (BitVec.ofNat 64 (max off w.foot.spad)) 0) ∧
      (Issues s (.mmo o) w ls → zbOk → pair = true → ¬named → fails (.mmo o) 5 (BitVec.ofNat 64 (h % 2 ^ 32)) 0) ∧
      (Issues s (.mmo o) w ls → zbOk → pair = true → named → peerOf s w (rdS w o.sb) = none →
        fails (.mmo o) 6 0 (4 * (w.core / 4) + h / 2 ^ 38 % 4 + 2 ^ 8 * (h / 2 ^ 32 % 2 ^ 6))) ∧
      (Issues s (.mdrain o) w ls → toTile = false → off % 4 ≠ 0 → fails (.mdrain o) 4 (rdS w o.sa) 4) ∧
      (w.core % 2 = 0 → w.lease ≠ 0 →
        (Issues s (.mmo o) w ls → zbOk → pairOk →
          (a.plane = false ∨ a.rows ∉ [8, 16, 32, 64, 128] ∨ ¬planesOk mode a.planes ∨ tileBreach s w.uid o.ta = true) → fails (.mmo o) 8 (gpc w) o.ta) ∧
        (Issues s (.mdrain o) w ls → toTile = true → a.plane = true → fails (.mdrain o) 8 (gpc w) o.ta))))

/-- R300, R301, R303, R305: of a free engine's requests that of the earliest cycle is granted once the cycle is over, of several the one of the
lowest wave context, with cleared banks when the last holder was of another context; a release
or the command that took the count to 0 ends the lease; `mclr` fills a bank. -/
def Obligations.LeasesAndBanks : Prop := ∀ (s : State) (f : Flight) (m : MatCmd), f.act = .matrix m →
  let e := engineAt s m.eng
  let past (g : Flight) (x : MatCmd) : Prop := x.cycle < coreClock s g.who.die g.who.core
  (∀ n, m.fn = .lease true n → leaseFree s m.eng = true → f ∈ s.flights → f.held = false → past f m →
    (∀ g ∈ s.flights, ∀ x k, g.act = .matrix x → x.eng = m.eng → g.held = false → x.fn = .lease true k → past g x →
      g = f ∨ m.cycle < x.cycle ∨ (m.cycle = x.cycle ∧ f.who.wctx < g.who.wctx)) → Answers (.leaseGrant m.eng) s (fun t => SameMemory s t ∧
    let e1 := engineAt t m.eng
    let mine := (findCtx s f.who.asid).map (fun (c : Ctx) => c.serial)
    e1.holder = some (f.who.uid, f.who.asid) ∧ e1.lastCtx = mine ∧ (∀ k, k ≠ m.eng → engineAt t k = engineAt s k) ∧
    (e.lastCtx = none ∨ e.lastCtx = mine → e1.a0 = e.a0 ∧ e1.a1 = e.a1) ∧
    (∀ k, e.lastCtx = some k → mine ≠ some k → ∀ b, b < 2 → (∀ r c, bankWord (bankAt e1 b) r c = 0) ∧ (bankAt e1 b).rows = 0 ∧
      (bankAt e1 b).cols = 0 ∧ (bankAt e1 b).mode = .none ∧ (bankAt e1 b).ovf = false))) ∧
  (∀ fid, InFlight s fid f → m.started = false →
    (∀ n, m.fn = .lease false n → matOlder s f m = [] → Answers (.matrixCommandStart fid) s (fun t => SameMemory s t ∧ t.engines = s.engines ∧
      ∀ k w, f.rr = some k → k < 128 → findWave s f.who.uid = some w → ∃ w1, findWave t f.who.uid = some w1 ∧
        rdBank w1 k = leaseWord e f.who false n)) ∧
    (m.fn = .rel → matOlder s f m = [] → Answers (.matrixCommandStart fid) s (fun t => SameMemory s t ∧
      engineAt t m.eng = { e with holder := none } ∧ ∀ k, k ≠ m.eng → engineAt t k = engineAt s k)) ∧
    (∀ b k, m.fn = .clr b k → b < 2 → m.failed = none → matReady s f m = true → endWaits s f m = false → Answers (.matrixCommandStart fid) s (fun t =>
      SameMemory s t ∧ (∀ j, j ≠ m.eng → engineAt t j = engineAt s j) ∧
      let e1 := engineAt t m.eng
      let fill : W32 := match k with | 0 => 0 | 1 => 0x7FFFFFFF | _ => 0x80000000
      e1.holder = (if m.ends then none else e.holder) ∧ bankAt e1 (1 - b) = bankAt e (1 - b) ∧
      (∀ r c, bankWord (bankAt e1 b) r c = fill) ∧ (bankAt e1 b).rows = 0 ∧ (bankAt e1 b).cols = 0 ∧ (bankAt e1 b).mode = .none ∧
      (bankAt e1 b).ovf = false ∧ (bankAt e1 b).last = some (f.who.uid, f.who.asid))))

/-- R308, R309: a word after one step of 8 elements: for `.f32` the exact sum of the eight products rounded to FP32 and added to it, NaN where a
block is NaN; else the exact sum wrapped, with overflow noted, the least or the greatest of the terms and the
word, or the or of the products.
R302, R308, R309, R311, R313 to R316, R227: the runs of `mmo` and `mdrain`: an `mmo` changes its bank only when it completes, a drain takes
the bank's words as it starts, writes them to a tile or to memory as it completes, and an add-on drain line by line; that a plain drain stores its
words in one step is the model's choice (log entry 45). -/
def Obligations.MatrixRuns : Prop :=
  (∀ (a b : Plane) (i s c : Nat) (x : W32),
  let prod (k : Nat) : Int := plM a i s k * plM' b (8 * s + k) c
  let sum (k : Nat) : Int := plM a i s k + plM' b (8 * s + k) c
  let total : Int := x.toInt + ((List.range 8).map prod).sum
  let power (k : Nat) : Int := (plExp a i s : Int) + plE' b (8 * s + k) c - 254
  let nan : Prop := plExp a i s = 255 ∨ ∃ k, k < 8 ∧ plE' b (8 * s + k) c = 255
  (nan → stepWord .f32 a b i s c x = (0x7FC00000, false)) ∧
  (¬nan → ∃ v e : Int, (v : ℚ) * 2 ^ e = ((List.range 8).map (fun k => (prod k : ℚ) * 2 ^ power k)).sum ∧
    stepWord .f32 a b i s c x = (BitVec.ofNat 32 (f32Add x.toNat (rn32 (exOfInt false v e))), false)) ∧
  stepWord .i32 a b i s c x = (BitVec.ofInt 32 total, decide (total < -(2 ^ 31) ∨ 2 ^ 31 ≤ total)) ∧
  (∃ v : Int, stepWord .minplus a b i s c x = (BitVec.ofInt 32 v, false) ∧ v ≤ x.toInt ∧ (∀ k, k < 8 → v ≤ sum k) ∧ (v = x.toInt ∨ ∃ k, k < 8 ∧ v = sum k)) ∧
  (∃ v : Int, stepWord .maxplus a b i s c x = (BitVec.ofInt 32 v, false) ∧ x.toInt ≤ v ∧ (∀ k, k < 8 → sum k ≤ v) ∧ (v = x.toInt ∨ ∃ k, k < 8 ∧ v = sum k)) ∧
  (∃ v : Int, stepWord .maxtimes a b i s c x = (BitVec.ofInt 32 v, false) ∧ x.toNat ≤ v ∧ (∀ k, k < 8 → prod k ≤ v) ∧
    (v = x.toNat ∨ ∃ k, k < 8 ∧ v = prod k)) ∧
  (stepWord .orand a b i s c x).2 = false ∧
  (stepWord .orand a b i s c x).1 = (if ∃ k, k < 8 ∧ (plRaw a i s k).testBit 0 = true ∧ (plRaw b (8 * s + k) (c / 8) (c % 8)).testBit 0 = true then x ||| 1 else x)) ∧
  (∀ (s : State) (fid : Nat) (f : Flight) (m : MatCmd), InFlight s fid f → f.act = .matrix m → m.failed = none →
  let e := engineAt s m.eng
  let others (t : State) : Prop := ∀ k, k ≠ m.eng → engineAt t k = engineAt s k
  (∀ b mode ta tb zb peer, m.fn = .mmo b mode ta tb zb peer → m.started = false → matReady s f m = true →
    Answers (.matrixCommandStart fid) s (fun t => { t with flights := s.flights } = s ∧ ∃ g x, findFlight t fid = some g ∧ g.act = .matrix x ∧
      x.started = true ∧ x.mode = mode ∧ (x.failed = none → x.rows = (holderTile s f.who.uid ta).rows))) ∧
  (∀ b mode ta tb zb peer, m.fn = .mmo b mode ta tb zb peer → b < 2 → m.started = true → endWaits s f m = false → m.rows ≠ 0 →
    Answers (.mmoCompletion fid) s (fun t => SameMemory s t ∧ others t ∧
      let old := bankAt e b
      let new := bankAt (engineAt t m.eng) b
      (engineAt t m.eng).holder = (if m.ends then none else e.holder) ∧ bankAt (engineAt t m.eng) (1 - b) = bankAt e (1 - b) ∧
      (∀ r c, bankWord new r c = stGet old.fill (256 * r + c) m.words) ∧ new.rows = max old.rows m.rows ∧ new.cols = max old.cols m.cols ∧
      new.mode = m.mode ∧ new.ovf = (old.ovf || m.ovf) ∧ new.last = some (f.who.uid, f.who.asid))) ∧
  (∀ b add addr stride rows cols, m.fn = .drain b add none addr stride rows cols → b < 2 → m.started = false → matReady s f m = true →
    endWaits s f m = false →
    let bank := bankAt e b
    let r := if rows = 0 then bank.rows else rows
    let c := if cols = 0 then bank.cols else cols
    r * c ≠ 0 → Answers (.matrixCommandStart fid) s (fun t => SameMemory s t ∧ others t ∧ ∃ g x, findFlight t fid = some g ∧ g.act = .matrix x ∧
      x.started = true ∧ x.rows = r ∧ x.cols = c ∧ x.out = (List.range (r * c)).map (fun i => (i, bankWord bank (i / c) (i % c))))) ∧
  (∀ b t rows cols addr stride w, m.fn = .drain b false (some t) addr stride rows cols → m.started = true → endWaits s f m = false →
    findWave s f.who.uid = some w → t < w.tiles.length → Answers (.drainCompletion fid) s (fun u => SameMemory s u ∧ others u ∧
      OthersKeep s u w.uid ∧ ∃ w1, findWave u w.uid = some w1 ∧ (tileAt w1 t).st = .ready ∧
      { w1 with pad := w.pad, padBad := w.padBad, tiles := w.tiles, blocked := w.blocked } = w ∧
      padBytes w1.pad (256 * (tileAt w t).base) (4 * m.out.length) = m.out.flatMap (fun x => leBytes 4 x.2.toNat))) ∧
  (∀ b addr stride rows cols, m.fn = .drain b false none addr stride rows cols → m.started = true → endWaits s f m = false →
    (∀ d ∈ s.cores, d.2.relb = []) → Answers (.drainCompletion fid) s (fun t => others t ∧
      t.mem = (drainWords s f m false addr stride m.out).1.mem)) ∧
  (∀ b addr stride rows cols line, m.fn = .drain b true none addr stride rows cols → m.started = true → (∀ d ∈ s.cores, d.2.relb = []) →
    let here (x : Nat × W32) : Bool := (drainAddr m addr stride x.1).toNat / 256 == line
    let run := drainWords s f m true addr stride (m.out.filter here)
    (m.out.filter here).findSome? (fun x => drainFault s f m true addr stride x.1) = none → run.2 = none →
    Answers (.addOnStore fid line) s (fun t => t.mem = run.1.mem ∧ t.engines = s.engines ∧ ∃ g, findFlight t fid = some g ∧
      g.act = .matrix { m with out := m.out.filter (fun x => !here x) })) ∧
  (∀ b addr stride rows cols line e, m.fn = .drain b true none addr stride rows cols → m.started = true → (∀ d ∈ s.cores, d.2.relb = []) →
    let here (x : Nat × W32) : Bool := (drainAddr m addr stride x.1).toNat / 256 == line
    (m.out.filter here).findSome? (fun x => drainFault s f m true addr stride x.1) = some e → Answers (.addOnStore fid line) s (fun t =>
      SameMemory s t ∧ ∃ g, findFlight t fid = some g ∧ g.act = .matrix { m with out := [], failed := some e })) ∧
  (∀ add addr stride i x r pg pa, drainFault s f m add addr stride i = none →
    engPage s f.who.asid 3 writable (drainAddr m addr stride i).toNat = .ok (pg, pa) → drainWords s f m add addr stride [] = (s, none) ∧ ∃ s1,
      drainWords s f m add addr stride ((i, x) :: r) = drainWords s1 f m add addr stride r ∧ { s1 with mem := s.mem, poison := s.poison, cores := s.cores, quads := s.quads } = s ∧
      (∀ a, a < pa ∨ pa + 4 ≤ a → memGet s1.mem a = memGet s.mem a) ∧
      memBytes s1.mem pa 4 = leBytes 4 (if add then addWord m.mode (BitVec.ofNat 32 (memNat s.mem pa 4)) x else x).toNat))

/-! ### Host interface -/

/-- R397, R400, R402, R403, R413, R415: the device registers: what each write changes, when it is ignored, and that nothing else differs; how the
boot ROM answers GO; that of the waiting events the first that fit are written in order and the rest wait (the ring has at most 2^20 slots). The words of the event of a NOTIFY out of range but its
reason (log entry 108), that GO stays while no image is asked for (log entry 73) and which reason a bad image answers when several hold (log entry 13)
are the model's. -/
def Obligations.DeviceRegisters : Prop := ∀ s : State,
  let r := s.regs
  let becomes (i : Instr) (r' : Regs) : Prop := exec i s = .next { s with regs := r' }
  becomes .flock (if r.flock = true ∨ r.booted = false then r else { r with flock := true, facc0 := r.facc0 &&& r.fcap0 &&& 0xF, facc1 := 0 }) ∧
  (∀ v : W32, (v - r.crhead).toNat ≤ 2 ^ r.crlog →
    becomes (.notify v) { r with notify := v, stale := false, reads := if r.stale then 0 else r.reads }) ∧
  (∀ v : W32, 2 ^ r.crlog < (v - r.crhead).toNat → Answers (.notify v) s (fun t => t.regs.notify = r.notify ∧ t.regs.stale = false ∧ SameMemory s t ∧
    Posts s t 0x11 [r.crhead.toNat, 0, 0, 0xFFFFFFFF])) ∧
  (∀ v : W64, becomes (.evhead v) (if (v - r.evhead).toNat ≤ (r.evtail - r.evhead).toNat then { r with evhead := v } else r)) ∧
  (r.req = false → becomes .go { r with go := true }) ∧
  (r.req = true → ∃ r', becomes .go r' ∧ r'.go = false ∧
    (let n := r.bootlen.toNat
     let img := memBytes r.bootwin 0 n
     let why := if n < 4096 ∨ 2 ^ 24 < n ∨ Config.fwLengthOf img ≠ n then 3
       else if Config.fwVerify (shake256 (img.take (Config.fwSigOf img))) ((img.drop (Config.fwSigOf img)).take 2820) = false then 1
       else if (Config.fwVersionOf img).toNat < Config.fuse.toNat % 2 ^ 32 then 2 else if Config.fwFlashFails s.draws = true then 4 else 0
     r'.why = why ∧ r'.ok = (if why = 0 then true else r.ok) ∧ r'.rej = decide (why ≠ 0) ∧ r'.req = decide (why ≠ 0) ∧
     r'.booted = (if why = 0 then true else r.booted))) ∧
  (∀ v : W64,
    becomes (.registerWrite 0x010 v) (if r.flock then r else { r with facc0 := v &&& 0xF }) ∧
    becomes (.registerWrite 0x018 v) (if r.flock then r else { r with facc1 := 0 }) ∧
    becomes (.registerWrite 0x040 v) (if r.crhead = r.notify ∧ v.toNat % 4096 = 0 ∧ isMain v.toNat = true then { r with crbase := v } else r) ∧
    becomes (.registerWrite 0x048 v) (if r.crhead = r.notify ∧ 4 ≤ v.toNat % 32 ∧ v.toNat % 32 ≤ 16 then { r with crlog := v.toNat % 32 } else r) ∧
    becomes (.registerWrite 0x060 v) (if r.crhead = r.notify ∧ v.toNat % 4096 = 0 then { r with evbase := v } else r) ∧
    becomes (.registerWrite 0x068 v) (if r.crhead = r.notify ∧ 4 ≤ v.toNat % 32 ∧ v.toNat % 32 ≤ 20 then { r with evlog := v.toNat % 32 } else r) ∧
    becomes (.registerWrite 0x108 v) (if r.go then r else { r with bootlen := v }) ∧
    becomes (.registerWrite 0x110 v) (if r.go then r else { r with bootoff := v &&& 0xF }) ∧
    (∀ off, off ∉ [0x010, 0x018, 0x020, 0x040, 0x048, 0x050, 0x060, 0x068, 0x078, 0x100, 0x108, 0x110] → off < 0x100000 ∨ 0x200000 ≤ off →
      becomes (.registerWrite off v) r)) ∧
  (¬(r.evtail - r.evhead).toNat < 2 ^ r.evlog → r.events ≠ [] → becomes .eventRingResume r) ∧
  (∀ es rest, r.events = es ++ rest → r.evlog ≤ 20 → (∀ e ∈ es, e.length = 8) → (r.evtail - r.evhead).toNat + es.length ≤ 2 ^ r.evlog →
    rest = [] ∨ (r.evtail - r.evhead).toNat + es.length = 2 ^ r.evlog → Answers .eventRingResume s (fun t =>
      t.regs = { r with events := rest, evtail := r.evtail + BitVec.ofNat 64 es.length } ∧ SameMemory s t ∧
      ∀ i (h : i < es.length), memBytes t.hostMem (r.evbase.toNat + 32 * ((r.evtail + BitVec.ofNat 64 i).toNat % 2 ^ r.evlog)) 32 =
        es[i].flatMap (fun w => leBytes 4 w.toNat)))

/-- R357, R361, R396, R398 to R400, R414, R416: commands at CRHEAD that are due and pass their checks: a payload count that is not the command's,
an OP that does not exist and an ASID that is not live are refused by an event; NOP, LAUNCH, CTXLOAD, CTXSAVE, CTXRESET and ATTEST have their
effects. A read that fails its checks is repeated; the ninth makes the command stale. Which reason is given where several hold, and which
argument words are reserved, is the model's reading (log entry 109). -/
def Obligations.RingCommands : Prop := ∀ s : State, cmdDue s = true →
  let c := cmdAt s
  let seq := s.regs.seq
  let hd := s.regs.crhead.toNat
  let plain (n : Nat) : Prop := field (qword c.head 0) 15 11 = 0 ∧ qword c.head 1 / 2 ^ 32 = 0 ∧ ∀ i, n ≤ i → i < 8 → qword c.head i = 0
  (cmdPasses s c = true →
    (∀ i op npay, (i, op, npay) ∈ [(Instr.launch, 1, 1), (Instr.ctxload, 2, 0), (Instr.ctxsave, 3, 0), (Instr.ctxreset, 4, 0), (Instr.nopCmd, 5, 0),
        (Instr.attest, 6, 0)] → c.op = op → c.npay ≠ npay → Answers i s (fun t => Passed s t c.npay ∧ Posts s t 0x11 [hd, seq, op, 2] ∧ SameMemory s t)) ∧
    (c.op = 0 ∨ 6 < c.op → Answers .commandRefetch s (fun t => Passed s t c.npay ∧ Posts s t 0x11 [hd, seq, c.op, 1] ∧ SameMemory s t)) ∧
    (c.op = 5 → c.npay = 0 → plain 8 → findCtx s c.asid = none → Answers .nopCmd s (fun t => Passed s t 0 ∧ Posts s t 0x11 [hd, seq, 5, 4])) ∧
    (c.op = 5 → c.npay = 0 → plain 8 → (findCtx s c.asid).isSome = true → Answers .nopCmd s (fun t =>
      { t with regs := s.regs, hostMem := s.hostMem } = s ∧ Consumed s t 0 ∧ Posts s t 0x13 [hd, seq])) ∧
    (∀ x, c.op = 1 → c.npay = 1 → plain 3 → qword c.head 2 % 4 = 0 → findCtx s c.asid = some x → s.launches.length < 65536 →
      (let t0 := { s with regs := { s.regs with lastSeq := seq } }
       let d := launchDesc c.pay
       refuseReason t0 c.asid true 0 d = none → d.count ≠ 0 → findLaunch s (2 ^ 32 * seq) = none → Answers .launch s (fun t =>
         { t with launches := s.launches, regs := s.regs } = s ∧ Consumed s t 1 ∧ ∃ l, findLaunch t (2 ^ 32 * seq) = some l ∧ l.asid = c.asid ∧
         l.host = true ∧ l.handler = (if qword c.head 2 = 0 then x.hbase else BitVec.ofNat 64 (qword c.head 2)) ∧ l.node = d.node ∧
         l.first = d.first ∧ l.count = d.count ∧ l.pay = d.pay ∧ l.complete = false ∧ l.refused = false ∧
         l.home + (l.shares.map (fun y => y.weight)).sum = 2 ^ 64 ∧
         l.begun = decide (d.deps = [] ∨ (s.regs.events = [] ∧ ∀ k ∈ d.deps, depMet s k = true)))) ∧
      (let t0 := { s with regs := { s.regs with lastSeq := seq } }
       refuseReason t0 c.asid true 0 (launchDesc c.pay) = none → (launchDesc c.pay).count = 0 → s.regs.events ≠ [] →
         findLaunch s (2 ^ 32 * seq) = none → Answers .launch s (fun t => Consumed s t 1 ∧ (∃ l, findLaunch t (2 ^ 32 * seq) = some l ∧ l.complete = false) ∧
           ∃ f ∈ t.flights, f.id = s.nextFid ∧ f.act = .wreturn (2 ^ 32 * seq) 0)) ∧
      (let t0 := { s with regs := { s.regs with lastSeq := seq } }
       refuseReason t0 c.asid true 0 (launchDesc c.pay) = none → (launchDesc c.pay).count = 0 → s.regs.events = [] →
         findLaunch s (2 ^ 32 * seq) = none → Answers .launch s (fun t => Consumed s t 1 ∧ (∃ l, findLaunch t (2 ^ 32 * seq) = some l ∧ l.complete = true) ∧
           Posts s t 0 [0, seq, 0, (launchDesc c.pay).node, 0, 0, 0]))) ∧
    (∀ x s1, c.op = 2 → c.npay = 0 → plain 8 → s.ctxs.find? (fun c => c.phase == .resuming) = none → namedCtx s (qword c.head 2) = some x →
      (x.savea = 0 ∨ memNat s.mem x.savea 8 ≠ 1) → tablesShut s x = false → withTables s x = some s1 → Answers .ctxload s (fun t => SameMemory s t ∧ Consumed s t 0 ∧
        Posts s t 0x12 [hd, seq, 2] ∧ ∃ y, findCtx t x.asid = some y ∧ y.phase = .resident ∧ { y with nodes := x.nodes, regions := x.regions } = x)) ∧
    (∀ x, c.op = 3 → c.npay = 0 → plain 8 → s.ctxs.find? (fun c => c.phase == .saving) = none → findCtx s c.asid = some x → x.savea ≠ 0 →
      needOf s x ≤ x.savesz → Answers .ctxsave s (fun t => SameMemory s t ∧ t.regs = s.regs ∧ findCtx t c.asid = some { x with phase := .saving } ∧
        ∀ w ∈ s.waves, w.asid = c.asid → w.fork = none → s.waves.Pairwise (fun a b => a.uid ≠ b.uid) →
          ∃ w1, findWave t w.uid = some w1 ∧ w1.preq.isSome = true)) ∧
    (∀ x, c.op = 4 → c.npay = 0 → plain 8 → findCtx s c.asid = some x → Answers .ctxreset s (fun t => findCtx t c.asid = none ∧
      (∀ w ∈ t.waves, w.asid ≠ c.asid) ∧ (∀ f ∈ t.flights, f.who.asid ≠ c.asid) ∧ (∀ w ∈ s.waves, w.asid ≠ c.asid → ∃ w1 ∈ t.waves, w1.uid = w.uid ∧ w1.asid = w.asid) ∧
      t.regs.crhead = s.regs.crhead + 1)) ∧
    (c.op = 6 → c.npay = 0 → plain 7 → c.asid = 0 → s.regs.akeyIdx < 2 ^ 20 → qword c.head 6 % 4096 = 0 → Answers .attest s (fun t =>
      SameMemory s t ∧ Consumed s t 0 ∧ t.regs.akeyIdx = s.regs.akeyIdx + 1 ∧ ∃ h, Posts { s with hostMem := h } t 0x18 [hd, seq, 0, 5816] ∧
      (let at_ := qword c.head 6
       (∀ a, a < at_ ∨ at_ + 5816 ≤ a → memGet h a = memGet s.hostMem a) ∧
       memBytes h at_ 16 = leBytes 4 0x52545441 ++ leBytes 4 1 ++ leBytes 8 s.regs.fwver.toNat ∧
       (s.regs.fwimg ≠ [] → memBytes h (at_ + 16) 32 = shake256 (s.regs.fwimg.take (Config.fwSigOf s.regs.fwimg))) ∧
       memBytes h (at_ + 72) 32 = (c.head.drop 16).take 32 ∧ memBytes h (at_ + 104) 4 = leBytes 4 s.regs.akeyIdx)))) ∧
  (cmdPasses s c = false →
    (s.regs.reads < 8 → Answers .commandRefetch s (fun t => t = { s with regs := { s.regs with reads := s.regs.reads + 1, readAt := s.time } })) ∧
    (8 ≤ s.regs.reads → Answers .commandRefetch s (fun t => t.regs.stale = true ∧ t.regs.crhead = s.regs.crhead ∧ SameMemory s t ∧
      Posts s t 0x10 [hd, seq, c.seq, (if seqOk s c then 0 else 1) + (if crcOk c then 0 else 2)])))

/-! ### Package: ticks, links, power, errors, reset -/

/-- R184, R391, R392, R394, R395, R407, R411, R412, R413: events of the package's surroundings. -/
def Obligations.LinksTicksAndPower : Prop := ∀ s : State,
  (∀ die bank, Answers (.refreshWindow die bank) s (fun t => { t with dies := s.dies } = s ∧
    ∀ b, b ∈ (dieAt t die).refresh ↔ if b = bank then inRefresh s.time bank = true else b ∈ (dieAt s die).refresh)) ∧
  (∀ st, (160 ≤ s.time - (stationAt s st).last → Answers (.stationPowerDown st) s (fun t => { t with stations := s.stations } = s ∧
      (stationAt t st).down = true)) ∧ (s.time - (stationAt s st).last < 160 → exec (.stationPowerDown st) s = .next s) ∧
    Answers (.wake st) s (fun t => { t with stations := s.stations } = s ∧ (stationAt t st) = { last := s.time, down := false })) ∧
  (∀ l, l < 16 → Answers (.linkDown l) s (fun t => (∀ k, k ∈ t.linksDown ↔ k = l ∨ k ∈ s.linksDown) ∧
    ((∀ f ∈ onLink s l, (∀ d op ty xs sc o, f.act ≠ .atom d op ty xs sc o) ∧ ∀ u r nr cs sh, f.act ≠ .estLd u r nr cs sh) → SameMemory s t) ∧
    (onLink s l = [] → { t with linksDown := s.linksDown } = s) ∧
    ∀ f n xs, onLink s l = [f] → f.act = .store n xs → recordBusy s f (releaseRanges s f) = false → ∀ p ∈ storeSectors n xs, p ∈ t.poison)) ∧
  exec .tickBoundary s = .next { s with pod := { s.pod with boundary := max s.pod.boundary (tickNow s) } } ∧
  (∀ pkg tick, pkg ∈ s.pod.members → pkg ≠ s.pod.pkg → Answers (.markerArrival pkg tick) s (fun t => { t with pod := s.pod } = s ∧
    (pkg, tick) ∈ t.pod.markers)) ∧
  (∀ pkg n, pkg ∈ s.pod.members → pkg ≠ s.pod.pkg → pkg ∉ s.pod.lost → missingTick s pkg = some n → Answers (.tickExchangeStalled pkg) s (fun t =>
    pkg ∈ t.pod.lost ∧ (∀ c ∈ t.ctxs, c.rx = false) ∧ (∀ c ∈ s.ctxs, (∀ d ∈ s.ctxs, d.rx = true → d.asid ≠ c.asid) → (findCtx t c.asid).isSome = true) ∧
    ((∀ c ∈ s.cores, c.2.relb = []) → (∀ f ∈ s.flights, ∀ c ∈ s.ctxs, c.rx = true → c.asid = f.who.asid → f.tick.isSome = true ∧ f.held = false) →
      SameMemory s t))) ∧
  (∀ off : W32, (100 < off.toInt.natAbs → Answers (.timeBaseOutOfBound off) s (fun t => SameMemory s t ∧ Posts s t 0x14 [s.pod.pkg, off.toNat])) ∧
    (off.toInt.natAbs ≤ 100 → exec (.timeBaseOutOfBound off) s = .next s)) ∧
  (∀ die unit num ps p a, p ∈ ps → a ∈ siteCtxs s p → (findCtx s a).isSome = true →
    Answers (.controlPacketDropped die unit num ps) s (fun t => findCtx t a = none ∧ ∀ w ∈ t.waves, w.asid ≠ a)) ∧
  (∀ f ∈ s.flights, isControl f = true → f.who.asid ∈ siteCtxs s (.flight f.id)) ∧
  (∀ die core e, lazyHead (coreAt s die core) = some e → siteCtxs s (.writeBack die core) = [e.who.asid]) ∧
  (∀ w ∈ s.waves, ∀ h, w.barHold = some h → h.released = true → w.asid ∈ siteCtxs s (.phase w.uid)) ∧
  (∀ pkg tick c, pkg ∈ s.pod.members → pkg ≠ s.pod.pkg → (pkg, tick) ∉ s.pod.markers → c ∈ s.ctxs → c.rx = true → c.asid ∈ siteCtxs s (.marker pkg tick)) ∧
  (∀ num l e, e ∈ s.regs.events → isCompletion num e = true → findLaunch s num = some l → siteCtxs s (.completion num) = [l.asid]) ∧
  (∀ i n, i < 256 → 40 ≤ n → n ≤ 80 → Answers (.frequencyChange i n) s (fun t => { t with islands := s.islands } = s ∧ (islandAt t i).n = n ∧
    islandCycles (islandAt t i) s.time = islandCycles (islandAt s i) s.time)) ∧
  (∀ i (powers : List Nat), i < 256 →
    (40 < (islandAt s i).n →
      (∀ j, j < 256 → 40 < (islandAt s j).n → powers.getD j 0 < powers.getD i 0 ∨ (powers.getD j 0 = powers.getD i 0 ∧ i ≤ j)) →
      Answers (.powerCap true powers) s (fun t => { t with islands := s.islands, lowered := s.lowered } = s ∧
        (islandAt t i).n = (islandAt s i).n - 1 ∧ (∀ j, j ≠ i → islandAt t j = islandAt s j) ∧ t.lowered = i :: s.lowered)) ∧
    ((∀ j, j < 256 → (islandAt s j).n ≤ 40) → exec (.powerCap true powers) s = .next s) ∧
    (∀ r, s.lowered = i :: r → (islandAt s i).n < 80 → Answers (.powerCap false powers) s (fun t =>
      (islandAt t i).n = (islandAt s i).n + 1 ∧ t.lowered = r)) ∧
    Answers (.thermalLimit i) s (fun t => { t with islands := s.islands } = s ∧ (islandAt t i).n = 40)) ∧
  Answers .packageReset s (fun t => t.mem = s.mem ∧ t.hostMem = s.hostMem ∧ t.poison = s.poison ∧ t.waves = [] ∧ t.flights = [] ∧ t.ctxs = [] ∧
    t.launches = [] ∧ t.tlb = [] ∧ t.engines = [] ∧ t.time = 0 ∧ t.pod.pkg ∈ t.pod.members ∧ t.pod.members.length ≤ 64 ∧
    t.pod.members = List.range t.pod.members.length ∧ t.regs.flock = false ∧ t.regs.seq = 1 ∧
    t.regs.akeyIdx = s.regs.akeyIdx ∧ t.regs.ikeyIdx = s.regs.ikeyIdx ∧
    (∀ u, u ∈ t.retired ↔ u ∈ s.retired ∧ ∃ die slice way, u = .l2way die slice way) ∧
    ∀ die, die < 8 → (dieAt t die).coreSpares = (dieAt s die).coreSpares - coresPending s die ∧
      ∀ bank, bank < 16 → bankSpares t die bank = bankSpares s die bank - rowsPending s die bank)

/-- R142, R151, R334, R404, R406, R408, R409: errors and spares: a corrected event is counted within its window; the fourth makes its unit lasting, which
retires it where a spare is left; an uncorrectable one poisons what it strikes, be it a home sector, whose line leaves the units' caches, a scratchpad word, a copy of a line, a store's data or a
load's, which ends in POISON, or brings SOFT to the wave, or strikes a packet of the wave's next table read; a scrub and a row's copy. A way's event with no spare (log entry 69), SOFT's lanes of 0
(log entry 14) and the whole line of an L1 poisoned (log entry 112) are the model's. -/
def Obligations.ErrorsAndSpares : Prop := ∀ s : State,
  let fresh := s.time / 10 ^ 9 ≤ s.errWindow
  Answers .errorWindow s (fun t => { t with errs := s.errs, errWindow := s.errWindow } = s ∧ (fresh → t = s) ∧
    (¬fresh → t.errs = [] ∧ t.errWindow = s.time / 10 ^ 9)) ∧
  (∀ u, let n := errCount s u + 1
    (n ≠ 4 → Answers (.correctedError u) s (fun t => errCount t u = n ∧ t.mem = s.mem ∧ t.waves = s.waves ∧ t.retired = s.retired ∧
      ∀ die bank row, u = .wsrow die bank row → (16 * die + bank, row) ∈ t.scrubs)) ∧
    (n = 4 → u ∉ s.retired →
      (∀ die core, u = .core die core → coresPending s die < (dieAt s die).coreSpares →
        ((∃ w ∈ s.waves, w.die = die ∧ w.core = core) → Answers (.correctedError u) s (fun t => u ∈ t.retired ∧ (coreAt t die core).lasting = true)) ∧
        ((∀ w ∈ s.waves, ¬(w.die = die ∧ w.core = core)) → Answers (.correctedError u) s (fun t =>
          u ∉ t.retired ∧ errCount t u = 0 ∧ (coreAt t die core).lasting = false ∧ (coreAt t die core).l1 = [] ∧
          (dieAt t die).coreSpares = (dieAt s die).coreSpares - 1 ∧ Posts s t 0x15 [die, 0, core, (dieAt s die).coreSpares - 1]))) ∧
      (∀ die core, u = .core die core → (dieAt s die).coreSpares ≤ coresPending s die → Answers (.correctedError u) s (fun t =>
        t.retired = s.retired ∧ t.cores = s.cores ∧ Posts s t 0x15 [die, 0, core, 0])) ∧
      (∀ die slice way, u = .l2way die slice way → 16 < waysLeft s die slice → Answers (.correctedError u) s (fun t => u ∈ t.retired ∧
        waysLeft t die slice + 1 = waysLeft s die slice ∧ Posts s t 0x15 [die, 1, slice * 24 + way, 0])) ∧
      (∀ die bank row, u = .wsrow die bank row → rowsPending s die bank < bankSpares s die bank → Answers (.correctedError u) s (fun t => u ∈ t.retired ∧
        (die, bank, row) ∈ t.rowCopies)))) ∧
  (∀ pa, isMain pa = true ∨ isWeight pa = true → Answers (.uncorrectableError (.sector pa)) s (fun t =>
    { t with poison := s.poison, cores := s.cores } = s ∧ (∀ p, p ∈ t.poison ↔ p = pa / 32 ∨ p ∈ s.poison) ∧
    ∀ die core, SameButCopies (coreAt s die core) (coreAt t die core) ∧
      ∀ l ∈ (coreAt t die core).ncache ++ (coreAt t die core).tcache, l.line ≠ pa / 256)) ∧
  (∀ uid unit w, findWave s uid = some w → unit ≤ 2 → Answers (.uncorrectableError (.wave uid unit)) s (fun t => { t with waves := s.waves } = s ∧
    ∃ w1, WaveIs s t uid w1 ∧ { w1 with trap := w.trap } = w ∧ { w1.trap with held := w.trap.held } = w.trap ∧ ∃ r ∈ w1.trap.held, r.cause = 13 ∧
      ((∀ x ∈ w.trap.held, x.cause ≠ 13) → r.lanes = 0 ∧ r.addr = 0 ∧ r.detail = BitVec.ofNat 64 unit))) ∧
  (∀ uid off w, findWave s uid = some w → off < w.foot.spad → Answers (.uncorrectableError (.pad uid off)) s (fun t => SameMemory s t ∧
    ∃ w1, WaveIs s t uid w1 ∧ { w1 with padBad := w.padBad } = w ∧ ∀ p, p ∈ w1.padBad ↔ p = off / 8 ∨ p ∈ w.padBad)) ∧
  (∀ k die core pa, Answers (.uncorrectableError (.copy k die core pa)) s (fun t => { t with cores := s.cores, quads := s.quads } = s ∧
    (k ≠ .replica → t.quads = s.quads ∧ OnlyCore s t die core) ∧ (k = .replica → t.cores = s.cores) ∧
    (k = .l1 → ∀ bs, lineSector (coreAt s die core).l1 pa = some bs → lineBad (coreAt t die core).l1 pa = true) ∧
    (k = .replica → ∀ bs, repSector (quadAt s (quadOf die core)) pa = some bs → repBad (quadAt t (quadOf die core)) pa = true) ∧
    (k = .node → ∀ l ∈ (coreAt t die core).ncache, l.line ≠ pa / 256) ∧ (k = .texture → ∀ l ∈ (coreAt t die core).tcache, l.line ≠ pa / 256))) ∧
  (∀ fid f n xs, InFlight s fid f → f.act = .store n xs → recordBusy s f (releaseRanges s f) = false →
    Answers (.uncorrectableError (.packet fid)) s (fun t => t.mem = s.mem ∧
    ∀ p ∈ storeSectors n xs, p ∈ t.poison)) ∧
  (∀ fid f d n a as w, InFlight s fid f → f.act = .load d n (a :: as) none → (∀ b ∈ a :: as, ∃ pa, b.loc = .mem pa) →
    findWave s f.who.uid = some w → Answers (.uncorrectableError (.packet fid)) s (fun t => t.mem = s.mem ∧
    (∀ g, findFlight t fid = some g → g.act = .nop ∧ g.held = true) ∧ ∃ w1, findWave t f.who.uid = some w1 ∧ w1.v = w.v ∧ w1.s = w.s ∧ ∃ r ∈ w1.trap.held, r.cause = 7)) ∧
  (∀ uid n w, findWave s uid = some w → Answers (.uncorrectableError (.read uid n)) s (fun t => { t with waves := s.waves } = s ∧
    WaveIs s t uid { w with lostRead := some n })) ∧
  (∀ die bank, Answers (.scrub die bank) s (fun t => { t with scrubs := s.scrubs } = s ∧ ∀ x, x ∈ t.scrubs ↔ x ∈ s.scrubs ∧ x.1 ≠ 16 * die + bank)) ∧
  (∀ die bank row, (die, bank, row) ∈ s.rowCopies → Answers (.rowCopy die bank row) s (fun t => SameMemory s t ∧ t.waves = s.waves ∧
    t.rowCopies = s.rowCopies.erase (die, bank, row) ∧ bankSpares t die bank = bankSpares s die bank - 1 ∧
    .wsrow die bank row ∉ t.retired ∧ errCount t (.wsrow die bank row) = 0))

/-! ### Reset, steps, encodings -/

/-- R12, R125, R162, R165, R184, R239, R296, R394, R397, R398, R403, R404, R411, R415: what reset leaves as the spec gives it, with NOTIFY 0 (log
entry 6), caches empty (log entry 8) and a pod of one (log entry 99), which are the model's choices: nothing loaded,
resident or in flight, caches and buffers empty, the split at its reset value, every spare there, registers at their reset values, and a pod of one
with number 0 (log entry 99, the model's choice: the spec gives a package no pod before its formation). Both memories have their canonical form. -/
def Obligations.ResetState : Prop :=
  let s := State.reset
  s.ctxs = [] ∧ s.launches = [] ∧ s.waves = [] ∧ s.saved = [] ∧ s.flights = [] ∧ s.tlb = [] ∧ s.poison = [] ∧ s.time = 0 ∧ s.wf = true ∧
  (∀ q, (quadAt s q).l2 = [] ∧ (quadAt s q).pools = []) ∧ s.code = [] ∧ s.linksDown = [] ∧ s.retired = [] ∧ s.errs = [] ∧ s.pod.pkg = 0 ∧ s.pod.members = [0] ∧
  (∀ die core, (coreAt s die core).spw = 6 ∧ (coreAt s die core).l1 = [] ∧ (coreAt s die core).slots = [] ∧ (coreAt s die core).relb = [] ∧ (coreAt s die core).ecb = [] ∧
    (coreAt s die core).pred = [] ∧ (coreAt s die core).ncache = [] ∧ (coreAt s die core).tcache = []) ∧
  (∀ die, (dieAt s die).coreSpares = 8 ∧ (dieAt s die).queues = [] ∧ ∀ bank, bankSpares s die bank = 32) ∧ (∀ e, (engineAt s e).holder = none) ∧
  s.regs.facc0 = 0 ∧ s.regs.facc1 = 0 ∧ s.regs.flock = false ∧ s.regs.crhead = 0 ∧ s.regs.notify = 0 ∧ s.regs.evtail = 0 ∧ s.regs.evhead = 0 ∧
  s.regs.seq = 1 ∧ s.regs.go = false ∧ s.regs.bootlen = 0 ∧ s.regs.bootoff = 0

/-- R44, R59, R78: a wave whose turn it is runs the instruction that its bytes decode to, with its next sequential address behind those bytes;
the oldest entry of a VIQ runs on the operands it was steered with, or on the wave itself when the wave stands at it; an event runs as it is;
an idle step only lets time go on. What may hold the instruction back stands in the hypotheses. Around it stand the notes of forks and of the
spin detector and the choice of who moves next (log entries 2, 5, 7). -/
def Obligations.StepsRunInstructions : Prop := ∀ s : State,
  let runs (i : Instr) (t : State) : Prop := step s = match exec i t with
    | .next u => .next (goAfter i s t u)
    | .fault f => .fault f
    | .refused r => .refused r
  (∀ i, s.turn = .event i → runs i s) ∧ (s.turn = .idle → step s = .next (goOnly s s)) ∧
  (∀ w bs i n, s.turn = .wave w.uid → findWave s w.uid = some w →
    let x := ready s w
    noTurn s x = false → fetch s x = .ok bs → decode bs = .ok (i, n) → shadowBarred s x i = false → regsWait s x i = false →
    drillFree s x i = true →
    let w1 := issuing x (bs.length / 4)
    let t := putWave (fetchFill s x bs.length) w1
    runs i t ∧ curWave t = some w1 ∧ gpc w1 = gpc x ∧ w1.npc = gpc x + BitVec.ofNat 64 bs.length ∧ SameMemory s t ∧
    { w1 with npc := x.npc } = x) ∧
  (∀ w e r, s.turn = .issue w.uid → findWave s w.uid = some w →
    let x := ready s w
    x.viq = e :: r → x.blocked = none → regangOver s x = false → queuedWaits s x e = false →
    runs e.instr (putWave s (if stops e.instr && r.isEmpty then { x with npc := e.npc, viq := [], retq := [] } else queuedView x e)))

/-- R343: the words of the lines that R343 lists are the instructions that it lists them for. -/
def Obligations.ListedWordsDecode : Prop :=
  let words (ws : List Nat) : List Byte := ws.flatMap (leBytes 4)
  let o (d a b c x : Nat) : Ops := { g := Guard.none, k := .vv, ty := .b32, d := d, a := a, b := .v b, c := c, rnd := .dyn, sat := false,
                                     sc := .wave, ord := .rlx, x := x }
  decode (words [0x7C000000, 0x28041400, 0x03000001]) = .ok (.hgf (o 40 4 20 0 1), 3) ∧
  decode (words [0x7C000000, 0x28041400, 0x0300004F]) = .ok (.hgf (o 40 4 20 0 0x4F), 3) ∧
  decode (words [0x7C000000, 0x00041428, 0x04000001]) = .ok (.hgs (o 0 4 20 40 1), 3) ∧
  decode (words [0x7C000000, 0x32061400, 0x05000000]) = .ok (.tex (o 50 6 20 0 0), 3) ∧
  decode (words [0x7C000000, 0x32061600, 0x06000000]) = .ok (.tld (o 50 6 22 0 0), 3)

/-- R59 to R63, R68 to R71, R121: the decoder reads every well-formed instruction of a program back from its encoding, whatever follows it in
memory, with every operand as it was; and whatever it reads is an instruction of a program. -/
def Obligations.EncodingsRoundTrip : Prop :=
  (∀ (i : Instr) (rest : List Byte), i.wf = true → i.isEvent = false → decode (encode i ++ rest) = .ok (i, (encodeWords i).length)) ∧
  (∀ bs i n, decode bs = .ok (i, n) → i.isEvent = false ∧ n = instrWords (leNat (bs.take 4)) ∧ 4 * n ≤ bs.length)

/-- R17, R29: after every step that answers a next state, whatever state it started from, a wave that is to move next is resident, and a
retired wave is kept only while an operation in flight still names it. Whose turn it is, and the numbers of waves, are fields of the model's own
(log entries 2 and 7), and the form in which a retired wave is kept is read from R17 and R29 (log entry 98). -/
def Obligations.StepsKeepMovers : Prop := ∀ s t : State, step s = .next t →
  (∀ uid, t.turn = .wave uid ∨ t.turn = .steer uid ∨ t.turn = .issue uid → ∃ w, findWave t uid = some w) ∧
  (∀ g ∈ t.ghosts, ∃ f ∈ t.flights, f.who.uid = g.uid ∨ (∃ c p ws e, f.act = .merge c p ws e ∧ g.uid ∈ ws) ∨
    ∃ x ∈ actAccs f.act, ∃ off, x.1.loc = .pad g.uid off)

/-- R167, R168: every step keeps both memories in canonical form, so that equal memories are equal data (log entry 4). -/
def Obligations.StepsKeepMemoryForm : Prop := ∀ s t : State, s.wf = true → step s = .next t → t.wf = true
end

