-- ==== Sys2Proof/Laws/Store.lean ====
section
/-!
SUPPORT. Laws of sparse maps and memories: reading after writing holds of every list, and every write keeps the canonical form (R4; log 4).
-/
namespace Sys2Proof.Machine

/-! ### Sparse maps -/

section
variable {α : Type}

theorem stGet_stDel_same (d : α) (k : Nat) (m : Store α) : stGet d k (stDel k m) = d := by
  induction m with
  | nil => rfl
  | cons e r ih =>
    by_cases h : e.1 = k
    · simpa [stDel, h] using ih
    · have h' : k ≠ e.1 := fun x => h x.symm
      simpa [stDel, h, stGet, h'] using ih

theorem stGet_stDel_other (d : α) {k j : Nat} (h : j ≠ k) (m : Store α) : stGet d j (stDel k m) = stGet d j m := by
  induction m with
  | nil => rfl
  | cons e r ih =>
    obtain ⟨a, y⟩ := e
    by_cases ha : a = k
    · subst ha
      simpa [stDel, stGet, h] using ih
    · by_cases hj : j = a <;> simp_all [stDel, stGet]

theorem stGet_stIns_other (d x : α) {k j : Nat} (h : j ≠ k) (m : Store α) : stGet d j (stIns k x m) = stGet d j m := by
  induction m with
  | nil => simp [stIns, stGet, h]
  | cons e r ih =>
    obtain ⟨a, y⟩ := e
    simp only [stIns]
    split
    · simp [stGet, h]
    · simp [stGet, ih]

theorem stGet_stIns_same (d x : α) (k : Nat) (m : Store α) (h : ∀ e ∈ m, e.1 ≠ k) : stGet d k (stIns k x m) = x := by
  induction m with
  | nil => simp [stIns, stGet]
  | cons e r ih =>
    obtain ⟨a, y⟩ := e
    have ha : k ≠ a := fun hk => h (a, y) (by simp) hk.symm
    have := ih (fun e he => h e (by simp [he]))
    simp only [stIns]
    split
    · simp [stGet]
    · simp [stGet, ha, this]

theorem stDel_no_key (k : Nat) (m : Store α) : ∀ e ∈ stDel k m, e.1 ≠ k := by
  intro e he
  simpa [stDel] using (List.mem_filter.mp he).2

variable [DecidableEq α]

@[simp] theorem stGet_stSet_same (d x : α) (k : Nat) (m : Store α) : stGet d k (stSet d k x m) = x := by
  unfold stSet
  split
  · rename_i h; subst h; exact stGet_stDel_same _ _ _
  · exact stGet_stIns_same d x k _ (stDel_no_key k m)

theorem stGet_stSet_other (d x : α) {k j : Nat} (h : j ≠ k) (m : Store α) : stGet d j (stSet d k x m) = stGet d j m := by
  unfold stSet
  split
  · exact stGet_stDel_other d h m
  · rw [stGet_stIns_other d x h, stGet_stDel_other d h]

theorem stGet_stSet (d x : α) (k j : Nat) (m : Store α) : stGet d j (stSet d k x m) = if j = k then x else stGet d j m := by
  split
  · rename_i h; subst h; simp
  · rename_i h; exact stGet_stSet_other d x h m

/-! ### The canonical form -/

/-- The form in one piece: keys strictly rising and no default listed. -/
def Canon (d : α) (m : Store α) : Prop := m.Pairwise (fun a b => a.1 < b.1) ∧ ∀ e ∈ m, e.2 ≠ d

theorem stWf_iff (d : α) (m : Store α) : stWf d m = true ↔ Canon d m := by
  induction m with
  | nil => simp [stWf, Canon]
  | cons e r ih =>
    obtain ⟨a, x⟩ := e
    cases r with
    | nil => simp [stWf, Canon]
    | cons f r =>
      obtain ⟨b, y⟩ := f
      simp only [stWf, Bool.and_eq_true, Bool.not_eq_true', decide_eq_true_eq, decide_eq_false_iff_not, ih]
      simp only [Canon, List.pairwise_cons, List.mem_cons, forall_eq_or_imp]
      constructor
      · rintro ⟨⟨h1, h2⟩, ⟨h3, h4⟩, h5, h6⟩
        exact ⟨⟨⟨h1, fun e he => lt_trans h1 (h3 e he)⟩, h3, h4⟩, h2, h5, h6⟩
      · rintro ⟨⟨⟨h1, -⟩, h3, h4⟩, h2, h5, h6⟩
        exact ⟨⟨h1, h2⟩, ⟨h3, h4⟩, h5, h6⟩

omit [DecidableEq α] in
theorem canon_stDel {d : α} {m : Store α} (h : Canon d m) (k : Nat) : Canon d (stDel k m) :=
  ⟨h.1.sublist List.filter_sublist, fun e he => h.2 e (List.mem_of_mem_filter he)⟩

omit [DecidableEq α] in
theorem mem_stIns {k : Nat} {x : α} {m : Store α} {e : Nat × α} (h : e ∈ stIns k x m) : e = (k, x) ∨ e ∈ m := by
  induction m with
  | nil => simpa [stIns] using h
  | cons f r ih =>
    obtain ⟨a, y⟩ := f
    by_cases hk : k < a
    · simpa [stIns, hk] using h
    · simp only [stIns, hk, if_false, List.mem_cons] at h
      rcases h with h | h
      · exact Or.inr (by simp [h])
      · rcases ih h with h | h
        · exact Or.inl h
        · exact Or.inr (by simp [h])

omit [DecidableEq α] in
theorem canon_stIns {d x : α} {k : Nat} {m : Store α} (h : Canon d m) (hx : x ≠ d) (hk : ∀ e ∈ m, e.1 ≠ k) : Canon d (stIns k x m) := by
  induction m with
  | nil => simpa [Canon, stIns] using hx
  | cons f r ih =>
    obtain ⟨a, y⟩ := f
    have hc := List.pairwise_cons.mp h.1
    by_cases hlt : k < a
    · simp only [stIns, hlt, if_true]
      refine ⟨List.pairwise_cons.mpr ⟨?_, h.1⟩, ?_⟩
      · intro e he
        rcases List.mem_cons.mp he with he | he
        · simpa [he] using hlt
        · exact lt_trans hlt (hc.1 e he)
      · intro e he
        rcases List.mem_cons.mp he with he | he
        · simpa [he] using hx
        · exact h.2 e he
    · simp only [stIns, hlt, if_false]
      have hr := ih ⟨hc.2, fun e he => h.2 e (by simp [he])⟩ (fun e he => hk e (by simp [he]))
      have ha : a < k := lt_of_le_of_ne (not_lt.mp hlt) (hk (a, y) (by simp))
      refine ⟨List.pairwise_cons.mpr ⟨?_, hr.1⟩, ?_⟩
      · intro e he
        rcases mem_stIns he with he | he
        · simpa [he] using ha
        · exact hc.1 e he
      · intro e he
        rcases List.mem_cons.mp he with he | he
        · simpa [he] using h.2 (a, y) (by simp)
        · exact hr.2 e he

/-- A write keeps the canonical form. -/
theorem stWf_stSet {d : α} {m : Store α} (h : stWf d m = true) (k : Nat) (x : α) : stWf d (stSet d k x m) = true := by
  rw [stWf_iff] at *
  unfold stSet
  split
  · exact canon_stDel h k
  · rename_i hx; exact canon_stIns (canon_stDel h k) hx (stDel_no_key k m)

end

/-! ### Memory -/

theorem memGet_memSet (m : Mem) (pa a : Nat) (b : Byte) : memGet (memSet m pa b) a = if a = pa then b else memGet m a :=
  stGet_stSet unlistedByte b pa a m

theorem wf_memSet {m : Mem} (h : m.wf = true) (pa : Nat) (b : Byte) : (memSet m pa b).wf = true := stWf_stSet h pa b

/-- A write keeps the canonical form of a memory. -/
theorem wf_memPut {m : Mem} (h : m.wf = true) (pa : Nat) (bs : List Byte) : (memPut m pa bs).wf = true := by
  induction bs generalizing m pa with
  | nil => exact h
  | cons b bs ih => exact ih (wf_memSet h pa b) (pa + 1)

/-- What one byte reads as after a write. -/
theorem memGet_memPut (m : Mem) (pa a : Nat) (bs : List Byte) :
    memGet (memPut m pa bs) a = if pa ≤ a ∧ a < pa + bs.length then bs.getD (a - pa) 0 else memGet m a := by
  induction bs generalizing m pa with
  | nil => simp [memPut]
  | cons b bs ih =>
    rw [memPut, ih, memGet_memSet]
    by_cases h : a = pa
    · subst h; simp
    · by_cases h1 : pa + 1 ≤ a ∧ a < pa + 1 + bs.length
      · have h2 : pa ≤ a ∧ a < pa + (b :: bs).length := by simp; omega
        have h3 : a - pa = (a - (pa + 1)) + 1 := by omega
        rw [if_pos h1, if_pos h2, h3, List.getD_cons_succ]
      · have h2 : ¬ (pa ≤ a ∧ a < pa + (b :: bs).length) := by simp; omega
        rw [if_neg h1, if_neg h2, if_neg h]

/-- A byte outside a write reads as before. -/
theorem memGet_memPut_outside (m : Mem) {pa a : Nat} (bs : List Byte) (h : a < pa ∨ pa + bs.length ≤ a) :
    memGet (memPut m pa bs) a = memGet m a := by
  rw [memGet_memPut, if_neg (by omega)]

@[simp] theorem length_memBytes (m : Mem) (pa n : Nat) : (memBytes m pa n).length = n := by
  induction n generalizing pa with
  | zero => rfl
  | succ n ih => simp [memBytes, ih]

/-- Bytes read depend on the bytes of the range alone. -/
theorem memBytes_congr {m m' : Mem} {pa n : Nat} (h : ∀ a, pa ≤ a → a < pa + n → memGet m a = memGet m' a) :
    memBytes m pa n = memBytes m' pa n := by
  induction n generalizing pa with
  | zero => rfl
  | succ n ih => simp only [memBytes]; rw [h pa (by omega) (by omega), ih (fun a h1 h2 => h a (by omega) (by omega))]

/-- A read of the bytes just written. -/
theorem memBytes_memPut_same (m : Mem) (pa : Nat) (bs : List Byte) : memBytes (memPut m pa bs) pa bs.length = bs := by
  induction bs generalizing m pa with
  | nil => rfl
  | cons b bs ih =>
    simp only [List.length_cons, memBytes, memPut]
    rw [ih, memGet_memPut_outside _ _ (Or.inl (Nat.lt_succ_self pa)), memGet_memSet, if_pos rfl]

/-- A read beside a write. -/
theorem memBytes_memPut_other (m : Mem) {pa qa n : Nat} (bs : List Byte) (h : qa + n ≤ pa ∨ pa + bs.length ≤ qa) :
    memBytes (memPut m pa bs) qa n = memBytes m qa n :=
  memBytes_congr (fun a h1 h2 => memGet_memPut_outside m bs (by omega))

end Sys2Proof.Machine
end

