-- ==== Sys2Proof/Laws/State.lean ====
section
/-!
SUPPORT. One lemma for each update of the state and each field it leaves alone, and for each update of a wave what it leaves alone.
-/
namespace Sys2Proof.Machine

section
variable (s : State) (w : Wave)
@[simp] theorem putWave_turn : (putWave s w).turn = s.turn := rfl
@[simp] theorem putWave_draws : (putWave s w).draws = s.draws := rfl
@[simp] theorem putWave_time : (putWave s w).time = s.time := rfl
@[simp] theorem putWave_nextUid : (putWave s w).nextUid = s.nextUid := rfl
@[simp] theorem putWave_nextFid : (putWave s w).nextFid = s.nextFid := rfl
@[simp] theorem putWave_inputs : (putWave s w).inputs = s.inputs := rfl
@[simp] theorem putWave_mem : (putWave s w).mem = s.mem := rfl
@[simp] theorem putWave_code : (putWave s w).code = s.code := rfl
@[simp] theorem putWave_poison : (putWave s w).poison = s.poison := rfl
@[simp] theorem putWave_hostMem : (putWave s w).hostMem = s.hostMem := rfl
@[simp] theorem putWave_tlb : (putWave s w).tlb = s.tlb := rfl
@[simp] theorem putWave_regs : (putWave s w).regs = s.regs := rfl
@[simp] theorem putWave_ctxs : (putWave s w).ctxs = s.ctxs := rfl
@[simp] theorem putWave_launches : (putWave s w).launches = s.launches := rfl
@[simp] theorem putWave_ghosts : (putWave s w).ghosts = s.ghosts := rfl
@[simp] theorem putWave_saved : (putWave s w).saved = s.saved := rfl
@[simp] theorem putWave_archives : (putWave s w).archives = s.archives := rfl
@[simp] theorem putWave_flights : (putWave s w).flights = s.flights := rfl
@[simp] theorem putWave_cores : (putWave s w).cores = s.cores := rfl
@[simp] theorem putWave_quads : (putWave s w).quads = s.quads := rfl
@[simp] theorem putWave_engines : (putWave s w).engines = s.engines := rfl
@[simp] theorem putWave_dies : (putWave s w).dies = s.dies := rfl
@[simp] theorem putWave_islands : (putWave s w).islands = s.islands := rfl
@[simp] theorem putWave_lowered : (putWave s w).lowered = s.lowered := rfl
@[simp] theorem putWave_stations : (putWave s w).stations = s.stations := rfl
@[simp] theorem putWave_linksDown : (putWave s w).linksDown = s.linksDown := rfl
@[simp] theorem putWave_errs : (putWave s w).errs = s.errs := rfl
@[simp] theorem putWave_errWindow : (putWave s w).errWindow = s.errWindow := rfl
@[simp] theorem putWave_retired : (putWave s w).retired = s.retired := rfl
@[simp] theorem putWave_rowCopies : (putWave s w).rowCopies = s.rowCopies := rfl
@[simp] theorem putWave_scrubs : (putWave s w).scrubs = s.scrubs := rfl
@[simp] theorem putWave_pod : (putWave s w).pod = s.pod := rfl
end

section
variable (s : State) (u : Nat)
@[simp] theorem dropWave_turn : (dropWave s u).turn = s.turn := rfl
@[simp] theorem dropWave_draws : (dropWave s u).draws = s.draws := rfl
@[simp] theorem dropWave_time : (dropWave s u).time = s.time := rfl
@[simp] theorem dropWave_nextUid : (dropWave s u).nextUid = s.nextUid := rfl
@[simp] theorem dropWave_nextFid : (dropWave s u).nextFid = s.nextFid := rfl
@[simp] theorem dropWave_inputs : (dropWave s u).inputs = s.inputs := rfl
@[simp] theorem dropWave_mem : (dropWave s u).mem = s.mem := rfl
@[simp] theorem dropWave_code : (dropWave s u).code = s.code := rfl
@[simp] theorem dropWave_poison : (dropWave s u).poison = s.poison := rfl
@[simp] theorem dropWave_hostMem : (dropWave s u).hostMem = s.hostMem := rfl
@[simp] theorem dropWave_tlb : (dropWave s u).tlb = s.tlb := rfl
@[simp] theorem dropWave_regs : (dropWave s u).regs = s.regs := rfl
@[simp] theorem dropWave_ctxs : (dropWave s u).ctxs = s.ctxs := rfl
@[simp] theorem dropWave_launches : (dropWave s u).launches = s.launches := rfl
@[simp] theorem dropWave_ghosts : (dropWave s u).ghosts = s.ghosts := rfl
@[simp] theorem dropWave_saved : (dropWave s u).saved = s.saved := rfl
@[simp] theorem dropWave_archives : (dropWave s u).archives = s.archives := rfl
@[simp] theorem dropWave_flights : (dropWave s u).flights = s.flights := rfl
@[simp] theorem dropWave_cores : (dropWave s u).cores = s.cores := rfl
@[simp] theorem dropWave_quads : (dropWave s u).quads = s.quads := rfl
@[simp] theorem dropWave_engines : (dropWave s u).engines = s.engines := rfl
@[simp] theorem dropWave_dies : (dropWave s u).dies = s.dies := rfl
@[simp] theorem dropWave_islands : (dropWave s u).islands = s.islands := rfl
@[simp] theorem dropWave_lowered : (dropWave s u).lowered = s.lowered := rfl
@[simp] theorem dropWave_stations : (dropWave s u).stations = s.stations := rfl
@[simp] theorem dropWave_linksDown : (dropWave s u).linksDown = s.linksDown := rfl
@[simp] theorem dropWave_errs : (dropWave s u).errs = s.errs := rfl
@[simp] theorem dropWave_errWindow : (dropWave s u).errWindow = s.errWindow := rfl
@[simp] theorem dropWave_retired : (dropWave s u).retired = s.retired := rfl
@[simp] theorem dropWave_rowCopies : (dropWave s u).rowCopies = s.rowCopies := rfl
@[simp] theorem dropWave_scrubs : (dropWave s u).scrubs = s.scrubs := rfl
@[simp] theorem dropWave_pod : (dropWave s u).pod = s.pod := rfl
end

section
variable (s : State) (u : Nat) (f : Wave → Wave)
@[simp] theorem updHolder_turn : (updHolder s u f).turn = s.turn := rfl
@[simp] theorem updHolder_draws : (updHolder s u f).draws = s.draws := rfl
@[simp] theorem updHolder_time : (updHolder s u f).time = s.time := rfl
@[simp] theorem updHolder_nextUid : (updHolder s u f).nextUid = s.nextUid := rfl
@[simp] theorem updHolder_nextFid : (updHolder s u f).nextFid = s.nextFid := rfl
@[simp] theorem updHolder_inputs : (updHolder s u f).inputs = s.inputs := rfl
@[simp] theorem updHolder_mem : (updHolder s u f).mem = s.mem := rfl
@[simp] theorem updHolder_code : (updHolder s u f).code = s.code := rfl
@[simp] theorem updHolder_poison : (updHolder s u f).poison = s.poison := rfl
@[simp] theorem updHolder_hostMem : (updHolder s u f).hostMem = s.hostMem := rfl
@[simp] theorem updHolder_tlb : (updHolder s u f).tlb = s.tlb := rfl
@[simp] theorem updHolder_regs : (updHolder s u f).regs = s.regs := rfl
@[simp] theorem updHolder_ctxs : (updHolder s u f).ctxs = s.ctxs := rfl
@[simp] theorem updHolder_launches : (updHolder s u f).launches = s.launches := rfl
@[simp] theorem updHolder_saved : (updHolder s u f).saved = s.saved := rfl
@[simp] theorem updHolder_archives : (updHolder s u f).archives = s.archives := rfl
@[simp] theorem updHolder_flights : (updHolder s u f).flights = s.flights := rfl
@[simp] theorem updHolder_cores : (updHolder s u f).cores = s.cores := rfl
@[simp] theorem updHolder_quads : (updHolder s u f).quads = s.quads := rfl
@[simp] theorem updHolder_engines : (updHolder s u f).engines = s.engines := rfl
@[simp] theorem updHolder_dies : (updHolder s u f).dies = s.dies := rfl
@[simp] theorem updHolder_islands : (updHolder s u f).islands = s.islands := rfl
@[simp] theorem updHolder_lowered : (updHolder s u f).lowered = s.lowered := rfl
@[simp] theorem updHolder_stations : (updHolder s u f).stations = s.stations := rfl
@[simp] theorem updHolder_linksDown : (updHolder s u f).linksDown = s.linksDown := rfl
@[simp] theorem updHolder_errs : (updHolder s u f).errs = s.errs := rfl
@[simp] theorem updHolder_errWindow : (updHolder s u f).errWindow = s.errWindow := rfl
@[simp] theorem updHolder_retired : (updHolder s u f).retired = s.retired := rfl
@[simp] theorem updHolder_rowCopies : (updHolder s u f).rowCopies = s.rowCopies := rfl
@[simp] theorem updHolder_scrubs : (updHolder s u f).scrubs = s.scrubs := rfl
@[simp] theorem updHolder_pod : (updHolder s u f).pod = s.pod := rfl
end

section
variable (s : State) (l : Launch)
@[simp] theorem putLaunch_turn : (putLaunch s l).turn = s.turn := rfl
@[simp] theorem putLaunch_draws : (putLaunch s l).draws = s.draws := rfl
@[simp] theorem putLaunch_time : (putLaunch s l).time = s.time := rfl
@[simp] theorem putLaunch_nextUid : (putLaunch s l).nextUid = s.nextUid := rfl
@[simp] theorem putLaunch_nextFid : (putLaunch s l).nextFid = s.nextFid := rfl
@[simp] theorem putLaunch_inputs : (putLaunch s l).inputs = s.inputs := rfl
@[simp] theorem putLaunch_mem : (putLaunch s l).mem = s.mem := rfl
@[simp] theorem putLaunch_code : (putLaunch s l).code = s.code := rfl
@[simp] theorem putLaunch_poison : (putLaunch s l).poison = s.poison := rfl
@[simp] theorem putLaunch_hostMem : (putLaunch s l).hostMem = s.hostMem := rfl
@[simp] theorem putLaunch_tlb : (putLaunch s l).tlb = s.tlb := rfl
@[simp] theorem putLaunch_regs : (putLaunch s l).regs = s.regs := rfl
@[simp] theorem putLaunch_ctxs : (putLaunch s l).ctxs = s.ctxs := rfl
@[simp] theorem putLaunch_waves : (putLaunch s l).waves = s.waves := rfl
@[simp] theorem putLaunch_ghosts : (putLaunch s l).ghosts = s.ghosts := rfl
@[simp] theorem putLaunch_saved : (putLaunch s l).saved = s.saved := rfl
@[simp] theorem putLaunch_archives : (putLaunch s l).archives = s.archives := rfl
@[simp] theorem putLaunch_flights : (putLaunch s l).flights = s.flights := rfl
@[simp] theorem putLaunch_cores : (putLaunch s l).cores = s.cores := rfl
@[simp] theorem putLaunch_quads : (putLaunch s l).quads = s.quads := rfl
@[simp] theorem putLaunch_engines : (putLaunch s l).engines = s.engines := rfl
@[simp] theorem putLaunch_dies : (putLaunch s l).dies = s.dies := rfl
@[simp] theorem putLaunch_islands : (putLaunch s l).islands = s.islands := rfl
@[simp] theorem putLaunch_lowered : (putLaunch s l).lowered = s.lowered := rfl
@[simp] theorem putLaunch_stations : (putLaunch s l).stations = s.stations := rfl
@[simp] theorem putLaunch_linksDown : (putLaunch s l).linksDown = s.linksDown := rfl
@[simp] theorem putLaunch_errs : (putLaunch s l).errs = s.errs := rfl
@[simp] theorem putLaunch_errWindow : (putLaunch s l).errWindow = s.errWindow := rfl
@[simp] theorem putLaunch_retired : (putLaunch s l).retired = s.retired := rfl
@[simp] theorem putLaunch_rowCopies : (putLaunch s l).rowCopies = s.rowCopies := rfl
@[simp] theorem putLaunch_scrubs : (putLaunch s l).scrubs = s.scrubs := rfl
@[simp] theorem putLaunch_pod : (putLaunch s l).pod = s.pod := rfl
end

section
variable (s : State) (n : Nat) (f : Launch → Launch)
@[simp] theorem updLaunch_turn : (updLaunch s n f).turn = s.turn := rfl
@[simp] theorem updLaunch_draws : (updLaunch s n f).draws = s.draws := rfl
@[simp] theorem updLaunch_time : (updLaunch s n f).time = s.time := rfl
@[simp] theorem updLaunch_nextUid : (updLaunch s n f).nextUid = s.nextUid := rfl
@[simp] theorem updLaunch_nextFid : (updLaunch s n f).nextFid = s.nextFid := rfl
@[simp] theorem updLaunch_inputs : (updLaunch s n f).inputs = s.inputs := rfl
@[simp] theorem updLaunch_mem : (updLaunch s n f).mem = s.mem := rfl
@[simp] theorem updLaunch_code : (updLaunch s n f).code = s.code := rfl
@[simp] theorem updLaunch_poison : (updLaunch s n f).poison = s.poison := rfl
@[simp] theorem updLaunch_hostMem : (updLaunch s n f).hostMem = s.hostMem := rfl
@[simp] theorem updLaunch_tlb : (updLaunch s n f).tlb = s.tlb := rfl
@[simp] theorem updLaunch_regs : (updLaunch s n f).regs = s.regs := rfl
@[simp] theorem updLaunch_ctxs : (updLaunch s n f).ctxs = s.ctxs := rfl
@[simp] theorem updLaunch_waves : (updLaunch s n f).waves = s.waves := rfl
@[simp] theorem updLaunch_ghosts : (updLaunch s n f).ghosts = s.ghosts := rfl
@[simp] theorem updLaunch_saved : (updLaunch s n f).saved = s.saved := rfl
@[simp] theorem updLaunch_archives : (updLaunch s n f).archives = s.archives := rfl
@[simp] theorem updLaunch_flights : (updLaunch s n f).flights = s.flights := rfl
@[simp] theorem updLaunch_cores : (updLaunch s n f).cores = s.cores := rfl
@[simp] theorem updLaunch_quads : (updLaunch s n f).quads = s.quads := rfl
@[simp] theorem updLaunch_engines : (updLaunch s n f).engines = s.engines := rfl
@[simp] theorem updLaunch_dies : (updLaunch s n f).dies = s.dies := rfl
@[simp] theorem updLaunch_islands : (updLaunch s n f).islands = s.islands := rfl
@[simp] theorem updLaunch_lowered : (updLaunch s n f).lowered = s.lowered := rfl
@[simp] theorem updLaunch_stations : (updLaunch s n f).stations = s.stations := rfl
@[simp] theorem updLaunch_linksDown : (updLaunch s n f).linksDown = s.linksDown := rfl
@[simp] theorem updLaunch_errs : (updLaunch s n f).errs = s.errs := rfl
@[simp] theorem updLaunch_errWindow : (updLaunch s n f).errWindow = s.errWindow := rfl
@[simp] theorem updLaunch_retired : (updLaunch s n f).retired = s.retired := rfl
@[simp] theorem updLaunch_rowCopies : (updLaunch s n f).rowCopies = s.rowCopies := rfl
@[simp] theorem updLaunch_scrubs : (updLaunch s n f).scrubs = s.scrubs := rfl
@[simp] theorem updLaunch_pod : (updLaunch s n f).pod = s.pod := rfl
end

section
variable (s : State) (a : Nat) (f : Ctx → Ctx)
@[simp] theorem updCtx_turn : (updCtx s a f).turn = s.turn := rfl
@[simp] theorem updCtx_draws : (updCtx s a f).draws = s.draws := rfl
@[simp] theorem updCtx_time : (updCtx s a f).time = s.time := rfl
@[simp] theorem updCtx_nextUid : (updCtx s a f).nextUid = s.nextUid := rfl
@[simp] theorem updCtx_nextFid : (updCtx s a f).nextFid = s.nextFid := rfl
@[simp] theorem updCtx_inputs : (updCtx s a f).inputs = s.inputs := rfl
@[simp] theorem updCtx_mem : (updCtx s a f).mem = s.mem := rfl
@[simp] theorem updCtx_code : (updCtx s a f).code = s.code := rfl
@[simp] theorem updCtx_poison : (updCtx s a f).poison = s.poison := rfl
@[simp] theorem updCtx_hostMem : (updCtx s a f).hostMem = s.hostMem := rfl
@[simp] theorem updCtx_tlb : (updCtx s a f).tlb = s.tlb := rfl
@[simp] theorem updCtx_regs : (updCtx s a f).regs = s.regs := rfl
@[simp] theorem updCtx_launches : (updCtx s a f).launches = s.launches := rfl
@[simp] theorem updCtx_waves : (updCtx s a f).waves = s.waves := rfl
@[simp] theorem updCtx_ghosts : (updCtx s a f).ghosts = s.ghosts := rfl
@[simp] theorem updCtx_saved : (updCtx s a f).saved = s.saved := rfl
@[simp] theorem updCtx_archives : (updCtx s a f).archives = s.archives := rfl
@[simp] theorem updCtx_flights : (updCtx s a f).flights = s.flights := rfl
@[simp] theorem updCtx_cores : (updCtx s a f).cores = s.cores := rfl
@[simp] theorem updCtx_quads : (updCtx s a f).quads = s.quads := rfl
@[simp] theorem updCtx_engines : (updCtx s a f).engines = s.engines := rfl
@[simp] theorem updCtx_dies : (updCtx s a f).dies = s.dies := rfl
@[simp] theorem updCtx_islands : (updCtx s a f).islands = s.islands := rfl
@[simp] theorem updCtx_lowered : (updCtx s a f).lowered = s.lowered := rfl
@[simp] theorem updCtx_stations : (updCtx s a f).stations = s.stations := rfl
@[simp] theorem updCtx_linksDown : (updCtx s a f).linksDown = s.linksDown := rfl
@[simp] theorem updCtx_errs : (updCtx s a f).errs = s.errs := rfl
@[simp] theorem updCtx_errWindow : (updCtx s a f).errWindow = s.errWindow := rfl
@[simp] theorem updCtx_retired : (updCtx s a f).retired = s.retired := rfl
@[simp] theorem updCtx_rowCopies : (updCtx s a f).rowCopies = s.rowCopies := rfl
@[simp] theorem updCtx_scrubs : (updCtx s a f).scrubs = s.scrubs := rfl
@[simp] theorem updCtx_pod : (updCtx s a f).pod = s.pod := rfl
end

section
variable (s : State) (a r : Nat) (f : Region → Region)
@[simp] theorem updRegion_turn : (updRegion s a r f).turn = s.turn := rfl
@[simp] theorem updRegion_draws : (updRegion s a r f).draws = s.draws := rfl
@[simp] theorem updRegion_time : (updRegion s a r f).time = s.time := rfl
@[simp] theorem updRegion_nextUid : (updRegion s a r f).nextUid = s.nextUid := rfl
@[simp] theorem updRegion_nextFid : (updRegion s a r f).nextFid = s.nextFid := rfl
@[simp] theorem updRegion_inputs : (updRegion s a r f).inputs = s.inputs := rfl
@[simp] theorem updRegion_mem : (updRegion s a r f).mem = s.mem := rfl
@[simp] theorem updRegion_code : (updRegion s a r f).code = s.code := rfl
@[simp] theorem updRegion_poison : (updRegion s a r f).poison = s.poison := rfl
@[simp] theorem updRegion_hostMem : (updRegion s a r f).hostMem = s.hostMem := rfl
@[simp] theorem updRegion_tlb : (updRegion s a r f).tlb = s.tlb := rfl
@[simp] theorem updRegion_regs : (updRegion s a r f).regs = s.regs := rfl
@[simp] theorem updRegion_launches : (updRegion s a r f).launches = s.launches := rfl
@[simp] theorem updRegion_waves : (updRegion s a r f).waves = s.waves := rfl
@[simp] theorem updRegion_ghosts : (updRegion s a r f).ghosts = s.ghosts := rfl
@[simp] theorem updRegion_saved : (updRegion s a r f).saved = s.saved := rfl
@[simp] theorem updRegion_archives : (updRegion s a r f).archives = s.archives := rfl
@[simp] theorem updRegion_flights : (updRegion s a r f).flights = s.flights := rfl
@[simp] theorem updRegion_cores : (updRegion s a r f).cores = s.cores := rfl
@[simp] theorem updRegion_quads : (updRegion s a r f).quads = s.quads := rfl
@[simp] theorem updRegion_engines : (updRegion s a r f).engines = s.engines := rfl
@[simp] theorem updRegion_dies : (updRegion s a r f).dies = s.dies := rfl
@[simp] theorem updRegion_islands : (updRegion s a r f).islands = s.islands := rfl
@[simp] theorem updRegion_lowered : (updRegion s a r f).lowered = s.lowered := rfl
@[simp] theorem updRegion_stations : (updRegion s a r f).stations = s.stations := rfl
@[simp] theorem updRegion_linksDown : (updRegion s a r f).linksDown = s.linksDown := rfl
@[simp] theorem updRegion_errs : (updRegion s a r f).errs = s.errs := rfl
@[simp] theorem updRegion_errWindow : (updRegion s a r f).errWindow = s.errWindow := rfl
@[simp] theorem updRegion_retired : (updRegion s a r f).retired = s.retired := rfl
@[simp] theorem updRegion_rowCopies : (updRegion s a r f).rowCopies = s.rowCopies := rfl
@[simp] theorem updRegion_scrubs : (updRegion s a r f).scrubs = s.scrubs := rfl
@[simp] theorem updRegion_pod : (updRegion s a r f).pod = s.pod := rfl
end

section
variable (s : State) (d k : Nat) (c : Core)
@[simp] theorem putCore_turn : (putCore s d k c).turn = s.turn := rfl
@[simp] theorem putCore_draws : (putCore s d k c).draws = s.draws := rfl
@[simp] theorem putCore_time : (putCore s d k c).time = s.time := rfl
@[simp] theorem putCore_nextUid : (putCore s d k c).nextUid = s.nextUid := rfl
@[simp] theorem putCore_nextFid : (putCore s d k c).nextFid = s.nextFid := rfl
@[simp] theorem putCore_inputs : (putCore s d k c).inputs = s.inputs := rfl
@[simp] theorem putCore_mem : (putCore s d k c).mem = s.mem := rfl
@[simp] theorem putCore_code : (putCore s d k c).code = s.code := rfl
@[simp] theorem putCore_poison : (putCore s d k c).poison = s.poison := rfl
@[simp] theorem putCore_hostMem : (putCore s d k c).hostMem = s.hostMem := rfl
@[simp] theorem putCore_tlb : (putCore s d k c).tlb = s.tlb := rfl
@[simp] theorem putCore_regs : (putCore s d k c).regs = s.regs := rfl
@[simp] theorem putCore_ctxs : (putCore s d k c).ctxs = s.ctxs := rfl
@[simp] theorem putCore_launches : (putCore s d k c).launches = s.launches := rfl
@[simp] theorem putCore_waves : (putCore s d k c).waves = s.waves := rfl
@[simp] theorem putCore_ghosts : (putCore s d k c).ghosts = s.ghosts := rfl
@[simp] theorem putCore_saved : (putCore s d k c).saved = s.saved := rfl
@[simp] theorem putCore_archives : (putCore s d k c).archives = s.archives := rfl
@[simp] theorem putCore_flights : (putCore s d k c).flights = s.flights := rfl
@[simp] theorem putCore_quads : (putCore s d k c).quads = s.quads := rfl
@[simp] theorem putCore_engines : (putCore s d k c).engines = s.engines := rfl
@[simp] theorem putCore_dies : (putCore s d k c).dies = s.dies := rfl
@[simp] theorem putCore_islands : (putCore s d k c).islands = s.islands := rfl
@[simp] theorem putCore_lowered : (putCore s d k c).lowered = s.lowered := rfl
@[simp] theorem putCore_stations : (putCore s d k c).stations = s.stations := rfl
@[simp] theorem putCore_linksDown : (putCore s d k c).linksDown = s.linksDown := rfl
@[simp] theorem putCore_errs : (putCore s d k c).errs = s.errs := rfl
@[simp] theorem putCore_errWindow : (putCore s d k c).errWindow = s.errWindow := rfl
@[simp] theorem putCore_retired : (putCore s d k c).retired = s.retired := rfl
@[simp] theorem putCore_rowCopies : (putCore s d k c).rowCopies = s.rowCopies := rfl
@[simp] theorem putCore_scrubs : (putCore s d k c).scrubs = s.scrubs := rfl
@[simp] theorem putCore_pod : (putCore s d k c).pod = s.pod := rfl
end

section
variable (s : State) (q : Nat) (x : Quad)
@[simp] theorem putQuad_turn : (putQuad s q x).turn = s.turn := rfl
@[simp] theorem putQuad_draws : (putQuad s q x).draws = s.draws := rfl
@[simp] theorem putQuad_time : (putQuad s q x).time = s.time := rfl
@[simp] theorem putQuad_nextUid : (putQuad s q x).nextUid = s.nextUid := rfl
@[simp] theorem putQuad_nextFid : (putQuad s q x).nextFid = s.nextFid := rfl
@[simp] theorem putQuad_inputs : (putQuad s q x).inputs = s.inputs := rfl
@[simp] theorem putQuad_mem : (putQuad s q x).mem = s.mem := rfl
@[simp] theorem putQuad_code : (putQuad s q x).code = s.code := rfl
@[simp] theorem putQuad_poison : (putQuad s q x).poison = s.poison := rfl
@[simp] theorem putQuad_hostMem : (putQuad s q x).hostMem = s.hostMem := rfl
@[simp] theorem putQuad_tlb : (putQuad s q x).tlb = s.tlb := rfl
@[simp] theorem putQuad_regs : (putQuad s q x).regs = s.regs := rfl
@[simp] theorem putQuad_ctxs : (putQuad s q x).ctxs = s.ctxs := rfl
@[simp] theorem putQuad_launches : (putQuad s q x).launches = s.launches := rfl
@[simp] theorem putQuad_waves : (putQuad s q x).waves = s.waves := rfl
@[simp] theorem putQuad_ghosts : (putQuad s q x).ghosts = s.ghosts := rfl
@[simp] theorem putQuad_saved : (putQuad s q x).saved = s.saved := rfl
@[simp] theorem putQuad_archives : (putQuad s q x).archives = s.archives := rfl
@[simp] theorem putQuad_flights : (putQuad s q x).flights = s.flights := rfl
@[simp] theorem putQuad_cores : (putQuad s q x).cores = s.cores := rfl
@[simp] theorem putQuad_engines : (putQuad s q x).engines = s.engines := rfl
@[simp] theorem putQuad_dies : (putQuad s q x).dies = s.dies := rfl
@[simp] theorem putQuad_islands : (putQuad s q x).islands = s.islands := rfl
@[simp] theorem putQuad_lowered : (putQuad s q x).lowered = s.lowered := rfl
@[simp] theorem putQuad_stations : (putQuad s q x).stations = s.stations := rfl
@[simp] theorem putQuad_linksDown : (putQuad s q x).linksDown = s.linksDown := rfl
@[simp] theorem putQuad_errs : (putQuad s q x).errs = s.errs := rfl
@[simp] theorem putQuad_errWindow : (putQuad s q x).errWindow = s.errWindow := rfl
@[simp] theorem putQuad_retired : (putQuad s q x).retired = s.retired := rfl
@[simp] theorem putQuad_rowCopies : (putQuad s q x).rowCopies = s.rowCopies := rfl
@[simp] theorem putQuad_scrubs : (putQuad s q x).scrubs = s.scrubs := rfl
@[simp] theorem putQuad_pod : (putQuad s q x).pod = s.pod := rfl
end

section
variable (s : State) (e : Nat) (x : Engine)
@[simp] theorem putEngine_turn : (putEngine s e x).turn = s.turn := rfl
@[simp] theorem putEngine_draws : (putEngine s e x).draws = s.draws := rfl
@[simp] theorem putEngine_time : (putEngine s e x).time = s.time := rfl
@[simp] theorem putEngine_nextUid : (putEngine s e x).nextUid = s.nextUid := rfl
@[simp] theorem putEngine_nextFid : (putEngine s e x).nextFid = s.nextFid := rfl
@[simp] theorem putEngine_inputs : (putEngine s e x).inputs = s.inputs := rfl
@[simp] theorem putEngine_mem : (putEngine s e x).mem = s.mem := rfl
@[simp] theorem putEngine_code : (putEngine s e x).code = s.code := rfl
@[simp] theorem putEngine_poison : (putEngine s e x).poison = s.poison := rfl
@[simp] theorem putEngine_hostMem : (putEngine s e x).hostMem = s.hostMem := rfl
@[simp] theorem putEngine_tlb : (putEngine s e x).tlb = s.tlb := rfl
@[simp] theorem putEngine_regs : (putEngine s e x).regs = s.regs := rfl
@[simp] theorem putEngine_ctxs : (putEngine s e x).ctxs = s.ctxs := rfl
@[simp] theorem putEngine_launches : (putEngine s e x).launches = s.launches := rfl
@[simp] theorem putEngine_waves : (putEngine s e x).waves = s.waves := rfl
@[simp] theorem putEngine_ghosts : (putEngine s e x).ghosts = s.ghosts := rfl
@[simp] theorem putEngine_saved : (putEngine s e x).saved = s.saved := rfl
@[simp] theorem putEngine_archives : (putEngine s e x).archives = s.archives := rfl
@[simp] theorem putEngine_flights : (putEngine s e x).flights = s.flights := rfl
@[simp] theorem putEngine_cores : (putEngine s e x).cores = s.cores := rfl
@[simp] theorem putEngine_quads : (putEngine s e x).quads = s.quads := rfl
@[simp] theorem putEngine_dies : (putEngine s e x).dies = s.dies := rfl
@[simp] theorem putEngine_islands : (putEngine s e x).islands = s.islands := rfl
@[simp] theorem putEngine_lowered : (putEngine s e x).lowered = s.lowered := rfl
@[simp] theorem putEngine_stations : (putEngine s e x).stations = s.stations := rfl
@[simp] theorem putEngine_linksDown : (putEngine s e x).linksDown = s.linksDown := rfl
@[simp] theorem putEngine_errs : (putEngine s e x).errs = s.errs := rfl
@[simp] theorem putEngine_errWindow : (putEngine s e x).errWindow = s.errWindow := rfl
@[simp] theorem putEngine_retired : (putEngine s e x).retired = s.retired := rfl
@[simp] theorem putEngine_rowCopies : (putEngine s e x).rowCopies = s.rowCopies := rfl
@[simp] theorem putEngine_scrubs : (putEngine s e x).scrubs = s.scrubs := rfl
@[simp] theorem putEngine_pod : (putEngine s e x).pod = s.pod := rfl
end

section
variable (s : State) (d : Nat) (x : Die)
@[simp] theorem putDie_turn : (putDie s d x).turn = s.turn := rfl
@[simp] theorem putDie_draws : (putDie s d x).draws = s.draws := rfl
@[simp] theorem putDie_time : (putDie s d x).time = s.time := rfl
@[simp] theorem putDie_nextUid : (putDie s d x).nextUid = s.nextUid := rfl
@[simp] theorem putDie_nextFid : (putDie s d x).nextFid = s.nextFid := rfl
@[simp] theorem putDie_inputs : (putDie s d x).inputs = s.inputs := rfl
@[simp] theorem putDie_mem : (putDie s d x).mem = s.mem := rfl
@[simp] theorem putDie_code : (putDie s d x).code = s.code := rfl
@[simp] theorem putDie_poison : (putDie s d x).poison = s.poison := rfl
@[simp] theorem putDie_hostMem : (putDie s d x).hostMem = s.hostMem := rfl
@[simp] theorem putDie_tlb : (putDie s d x).tlb = s.tlb := rfl
@[simp] theorem putDie_regs : (putDie s d x).regs = s.regs := rfl
@[simp] theorem putDie_ctxs : (putDie s d x).ctxs = s.ctxs := rfl
@[simp] theorem putDie_launches : (putDie s d x).launches = s.launches := rfl
@[simp] theorem putDie_waves : (putDie s d x).waves = s.waves := rfl
@[simp] theorem putDie_ghosts : (putDie s d x).ghosts = s.ghosts := rfl
@[simp] theorem putDie_saved : (putDie s d x).saved = s.saved := rfl
@[simp] theorem putDie_archives : (putDie s d x).archives = s.archives := rfl
@[simp] theorem putDie_flights : (putDie s d x).flights = s.flights := rfl
@[simp] theorem putDie_cores : (putDie s d x).cores = s.cores := rfl
@[simp] theorem putDie_quads : (putDie s d x).quads = s.quads := rfl
@[simp] theorem putDie_engines : (putDie s d x).engines = s.engines := rfl
@[simp] theorem putDie_islands : (putDie s d x).islands = s.islands := rfl
@[simp] theorem putDie_lowered : (putDie s d x).lowered = s.lowered := rfl
@[simp] theorem putDie_stations : (putDie s d x).stations = s.stations := rfl
@[simp] theorem putDie_linksDown : (putDie s d x).linksDown = s.linksDown := rfl
@[simp] theorem putDie_errs : (putDie s d x).errs = s.errs := rfl
@[simp] theorem putDie_errWindow : (putDie s d x).errWindow = s.errWindow := rfl
@[simp] theorem putDie_retired : (putDie s d x).retired = s.retired := rfl
@[simp] theorem putDie_rowCopies : (putDie s d x).rowCopies = s.rowCopies := rfl
@[simp] theorem putDie_scrubs : (putDie s d x).scrubs = s.scrubs := rfl
@[simp] theorem putDie_pod : (putDie s d x).pod = s.pod := rfl
end

section
variable (s : State) (w : Who) (c : Option Cls) (a : Act) (r : Option Nat)
@[simp] theorem addFlight_turn : (addFlight s w c a r).turn = s.turn := rfl
@[simp] theorem addFlight_draws : (addFlight s w c a r).draws = s.draws := rfl
@[simp] theorem addFlight_time : (addFlight s w c a r).time = s.time := rfl
@[simp] theorem addFlight_nextUid : (addFlight s w c a r).nextUid = s.nextUid := rfl
@[simp] theorem addFlight_inputs : (addFlight s w c a r).inputs = s.inputs := rfl
@[simp] theorem addFlight_mem : (addFlight s w c a r).mem = s.mem := rfl
@[simp] theorem addFlight_code : (addFlight s w c a r).code = s.code := rfl
@[simp] theorem addFlight_poison : (addFlight s w c a r).poison = s.poison := rfl
@[simp] theorem addFlight_hostMem : (addFlight s w c a r).hostMem = s.hostMem := rfl
@[simp] theorem addFlight_tlb : (addFlight s w c a r).tlb = s.tlb := rfl
@[simp] theorem addFlight_regs : (addFlight s w c a r).regs = s.regs := rfl
@[simp] theorem addFlight_ctxs : (addFlight s w c a r).ctxs = s.ctxs := rfl
@[simp] theorem addFlight_launches : (addFlight s w c a r).launches = s.launches := rfl
@[simp] theorem addFlight_waves : (addFlight s w c a r).waves = s.waves := rfl
@[simp] theorem addFlight_ghosts : (addFlight s w c a r).ghosts = s.ghosts := rfl
@[simp] theorem addFlight_saved : (addFlight s w c a r).saved = s.saved := rfl
@[simp] theorem addFlight_archives : (addFlight s w c a r).archives = s.archives := rfl
@[simp] theorem addFlight_cores : (addFlight s w c a r).cores = s.cores := rfl
@[simp] theorem addFlight_quads : (addFlight s w c a r).quads = s.quads := rfl
@[simp] theorem addFlight_engines : (addFlight s w c a r).engines = s.engines := rfl
@[simp] theorem addFlight_dies : (addFlight s w c a r).dies = s.dies := rfl
@[simp] theorem addFlight_islands : (addFlight s w c a r).islands = s.islands := rfl
@[simp] theorem addFlight_lowered : (addFlight s w c a r).lowered = s.lowered := rfl
@[simp] theorem addFlight_stations : (addFlight s w c a r).stations = s.stations := rfl
@[simp] theorem addFlight_linksDown : (addFlight s w c a r).linksDown = s.linksDown := rfl
@[simp] theorem addFlight_errs : (addFlight s w c a r).errs = s.errs := rfl
@[simp] theorem addFlight_errWindow : (addFlight s w c a r).errWindow = s.errWindow := rfl
@[simp] theorem addFlight_retired : (addFlight s w c a r).retired = s.retired := rfl
@[simp] theorem addFlight_rowCopies : (addFlight s w c a r).rowCopies = s.rowCopies := rfl
@[simp] theorem addFlight_scrubs : (addFlight s w c a r).scrubs = s.scrubs := rfl
@[simp] theorem addFlight_pod : (addFlight s w c a r).pod = s.pod := rfl
end

section
variable (s : State) (f : Flight)
@[simp] theorem putFlight_turn : (putFlight s f).turn = s.turn := rfl
@[simp] theorem putFlight_draws : (putFlight s f).draws = s.draws := rfl
@[simp] theorem putFlight_time : (putFlight s f).time = s.time := rfl
@[simp] theorem putFlight_nextUid : (putFlight s f).nextUid = s.nextUid := rfl
@[simp] theorem putFlight_nextFid : (putFlight s f).nextFid = s.nextFid := rfl
@[simp] theorem putFlight_inputs : (putFlight s f).inputs = s.inputs := rfl
@[simp] theorem putFlight_mem : (putFlight s f).mem = s.mem := rfl
@[simp] theorem putFlight_code : (putFlight s f).code = s.code := rfl
@[simp] theorem putFlight_poison : (putFlight s f).poison = s.poison := rfl
@[simp] theorem putFlight_hostMem : (putFlight s f).hostMem = s.hostMem := rfl
@[simp] theorem putFlight_tlb : (putFlight s f).tlb = s.tlb := rfl
@[simp] theorem putFlight_regs : (putFlight s f).regs = s.regs := rfl
@[simp] theorem putFlight_ctxs : (putFlight s f).ctxs = s.ctxs := rfl
@[simp] theorem putFlight_launches : (putFlight s f).launches = s.launches := rfl
@[simp] theorem putFlight_waves : (putFlight s f).waves = s.waves := rfl
@[simp] theorem putFlight_ghosts : (putFlight s f).ghosts = s.ghosts := rfl
@[simp] theorem putFlight_saved : (putFlight s f).saved = s.saved := rfl
@[simp] theorem putFlight_archives : (putFlight s f).archives = s.archives := rfl
@[simp] theorem putFlight_cores : (putFlight s f).cores = s.cores := rfl
@[simp] theorem putFlight_quads : (putFlight s f).quads = s.quads := rfl
@[simp] theorem putFlight_engines : (putFlight s f).engines = s.engines := rfl
@[simp] theorem putFlight_dies : (putFlight s f).dies = s.dies := rfl
@[simp] theorem putFlight_islands : (putFlight s f).islands = s.islands := rfl
@[simp] theorem putFlight_lowered : (putFlight s f).lowered = s.lowered := rfl
@[simp] theorem putFlight_stations : (putFlight s f).stations = s.stations := rfl
@[simp] theorem putFlight_linksDown : (putFlight s f).linksDown = s.linksDown := rfl
@[simp] theorem putFlight_errs : (putFlight s f).errs = s.errs := rfl
@[simp] theorem putFlight_errWindow : (putFlight s f).errWindow = s.errWindow := rfl
@[simp] theorem putFlight_retired : (putFlight s f).retired = s.retired := rfl
@[simp] theorem putFlight_rowCopies : (putFlight s f).rowCopies = s.rowCopies := rfl
@[simp] theorem putFlight_scrubs : (putFlight s f).scrubs = s.scrubs := rfl
@[simp] theorem putFlight_pod : (putFlight s f).pod = s.pod := rfl
end

section
variable (s : State) (f : Flight) (a : Act)
@[simp] theorem setAct_turn : (setAct s f a).turn = s.turn := rfl
@[simp] theorem setAct_draws : (setAct s f a).draws = s.draws := rfl
@[simp] theorem setAct_time : (setAct s f a).time = s.time := rfl
@[simp] theorem setAct_nextUid : (setAct s f a).nextUid = s.nextUid := rfl
@[simp] theorem setAct_nextFid : (setAct s f a).nextFid = s.nextFid := rfl
@[simp] theorem setAct_inputs : (setAct s f a).inputs = s.inputs := rfl
@[simp] theorem setAct_mem : (setAct s f a).mem = s.mem := rfl
@[simp] theorem setAct_code : (setAct s f a).code = s.code := rfl
@[simp] theorem setAct_poison : (setAct s f a).poison = s.poison := rfl
@[simp] theorem setAct_hostMem : (setAct s f a).hostMem = s.hostMem := rfl
@[simp] theorem setAct_tlb : (setAct s f a).tlb = s.tlb := rfl
@[simp] theorem setAct_regs : (setAct s f a).regs = s.regs := rfl
@[simp] theorem setAct_ctxs : (setAct s f a).ctxs = s.ctxs := rfl
@[simp] theorem setAct_launches : (setAct s f a).launches = s.launches := rfl
@[simp] theorem setAct_waves : (setAct s f a).waves = s.waves := rfl
@[simp] theorem setAct_ghosts : (setAct s f a).ghosts = s.ghosts := rfl
@[simp] theorem setAct_saved : (setAct s f a).saved = s.saved := rfl
@[simp] theorem setAct_archives : (setAct s f a).archives = s.archives := rfl
@[simp] theorem setAct_cores : (setAct s f a).cores = s.cores := rfl
@[simp] theorem setAct_quads : (setAct s f a).quads = s.quads := rfl
@[simp] theorem setAct_engines : (setAct s f a).engines = s.engines := rfl
@[simp] theorem setAct_dies : (setAct s f a).dies = s.dies := rfl
@[simp] theorem setAct_islands : (setAct s f a).islands = s.islands := rfl
@[simp] theorem setAct_lowered : (setAct s f a).lowered = s.lowered := rfl
@[simp] theorem setAct_stations : (setAct s f a).stations = s.stations := rfl
@[simp] theorem setAct_linksDown : (setAct s f a).linksDown = s.linksDown := rfl
@[simp] theorem setAct_errs : (setAct s f a).errs = s.errs := rfl
@[simp] theorem setAct_errWindow : (setAct s f a).errWindow = s.errWindow := rfl
@[simp] theorem setAct_retired : (setAct s f a).retired = s.retired := rfl
@[simp] theorem setAct_rowCopies : (setAct s f a).rowCopies = s.rowCopies := rfl
@[simp] theorem setAct_scrubs : (setAct s f a).scrubs = s.scrubs := rfl
@[simp] theorem setAct_pod : (setAct s f a).pod = s.pod := rfl
end

section
variable (s : State) (i : Nat)
@[simp] theorem dropFlight_turn : (dropFlight s i).turn = s.turn := rfl
@[simp] theorem dropFlight_draws : (dropFlight s i).draws = s.draws := rfl
@[simp] theorem dropFlight_time : (dropFlight s i).time = s.time := rfl
@[simp] theorem dropFlight_nextUid : (dropFlight s i).nextUid = s.nextUid := rfl
@[simp] theorem dropFlight_nextFid : (dropFlight s i).nextFid = s.nextFid := rfl
@[simp] theorem dropFlight_inputs : (dropFlight s i).inputs = s.inputs := rfl
@[simp] theorem dropFlight_mem : (dropFlight s i).mem = s.mem := rfl
@[simp] theorem dropFlight_code : (dropFlight s i).code = s.code := rfl
@[simp] theorem dropFlight_poison : (dropFlight s i).poison = s.poison := rfl
@[simp] theorem dropFlight_hostMem : (dropFlight s i).hostMem = s.hostMem := rfl
@[simp] theorem dropFlight_tlb : (dropFlight s i).tlb = s.tlb := rfl
@[simp] theorem dropFlight_regs : (dropFlight s i).regs = s.regs := rfl
@[simp] theorem dropFlight_ctxs : (dropFlight s i).ctxs = s.ctxs := rfl
@[simp] theorem dropFlight_launches : (dropFlight s i).launches = s.launches := rfl
@[simp] theorem dropFlight_waves : (dropFlight s i).waves = s.waves := rfl
@[simp] theorem dropFlight_ghosts : (dropFlight s i).ghosts = s.ghosts := rfl
@[simp] theorem dropFlight_saved : (dropFlight s i).saved = s.saved := rfl
@[simp] theorem dropFlight_archives : (dropFlight s i).archives = s.archives := rfl
@[simp] theorem dropFlight_cores : (dropFlight s i).cores = s.cores := rfl
@[simp] theorem dropFlight_quads : (dropFlight s i).quads = s.quads := rfl
@[simp] theorem dropFlight_engines : (dropFlight s i).engines = s.engines := rfl
@[simp] theorem dropFlight_dies : (dropFlight s i).dies = s.dies := rfl
@[simp] theorem dropFlight_islands : (dropFlight s i).islands = s.islands := rfl
@[simp] theorem dropFlight_lowered : (dropFlight s i).lowered = s.lowered := rfl
@[simp] theorem dropFlight_stations : (dropFlight s i).stations = s.stations := rfl
@[simp] theorem dropFlight_linksDown : (dropFlight s i).linksDown = s.linksDown := rfl
@[simp] theorem dropFlight_errs : (dropFlight s i).errs = s.errs := rfl
@[simp] theorem dropFlight_errWindow : (dropFlight s i).errWindow = s.errWindow := rfl
@[simp] theorem dropFlight_retired : (dropFlight s i).retired = s.retired := rfl
@[simp] theorem dropFlight_rowCopies : (dropFlight s i).rowCopies = s.rowCopies := rfl
@[simp] theorem dropFlight_scrubs : (dropFlight s i).scrubs = s.scrubs := rfl
@[simp] theorem dropFlight_pod : (dropFlight s i).pod = s.pod := rfl
end

section
variable (s : State) (f : Regs → Regs)
@[simp] theorem updRegs_turn : (updRegs s f).turn = s.turn := rfl
@[simp] theorem updRegs_draws : (updRegs s f).draws = s.draws := rfl
@[simp] theorem updRegs_time : (updRegs s f).time = s.time := rfl
@[simp] theorem updRegs_nextUid : (updRegs s f).nextUid = s.nextUid := rfl
@[simp] theorem updRegs_nextFid : (updRegs s f).nextFid = s.nextFid := rfl
@[simp] theorem updRegs_inputs : (updRegs s f).inputs = s.inputs := rfl
@[simp] theorem updRegs_mem : (updRegs s f).mem = s.mem := rfl
@[simp] theorem updRegs_code : (updRegs s f).code = s.code := rfl
@[simp] theorem updRegs_poison : (updRegs s f).poison = s.poison := rfl
@[simp] theorem updRegs_hostMem : (updRegs s f).hostMem = s.hostMem := rfl
@[simp] theorem updRegs_tlb : (updRegs s f).tlb = s.tlb := rfl
@[simp] theorem updRegs_ctxs : (updRegs s f).ctxs = s.ctxs := rfl
@[simp] theorem updRegs_launches : (updRegs s f).launches = s.launches := rfl
@[simp] theorem updRegs_waves : (updRegs s f).waves = s.waves := rfl
@[simp] theorem updRegs_ghosts : (updRegs s f).ghosts = s.ghosts := rfl
@[simp] theorem updRegs_saved : (updRegs s f).saved = s.saved := rfl
@[simp] theorem updRegs_archives : (updRegs s f).archives = s.archives := rfl
@[simp] theorem updRegs_flights : (updRegs s f).flights = s.flights := rfl
@[simp] theorem updRegs_cores : (updRegs s f).cores = s.cores := rfl
@[simp] theorem updRegs_quads : (updRegs s f).quads = s.quads := rfl
@[simp] theorem updRegs_engines : (updRegs s f).engines = s.engines := rfl
@[simp] theorem updRegs_dies : (updRegs s f).dies = s.dies := rfl
@[simp] theorem updRegs_islands : (updRegs s f).islands = s.islands := rfl
@[simp] theorem updRegs_lowered : (updRegs s f).lowered = s.lowered := rfl
@[simp] theorem updRegs_stations : (updRegs s f).stations = s.stations := rfl
@[simp] theorem updRegs_linksDown : (updRegs s f).linksDown = s.linksDown := rfl
@[simp] theorem updRegs_errs : (updRegs s f).errs = s.errs := rfl
@[simp] theorem updRegs_errWindow : (updRegs s f).errWindow = s.errWindow := rfl
@[simp] theorem updRegs_retired : (updRegs s f).retired = s.retired := rfl
@[simp] theorem updRegs_rowCopies : (updRegs s f).rowCopies = s.rowCopies := rfl
@[simp] theorem updRegs_scrubs : (updRegs s f).scrubs = s.scrubs := rfl
@[simp] theorem updRegs_pod : (updRegs s f).pod = s.pod := rfl
end

section
variable (s : State) (d k i : Nat) (x : Slot)
@[simp] theorem putIssue_turn : (putIssue s d k i x).turn = s.turn := rfl
@[simp] theorem putIssue_draws : (putIssue s d k i x).draws = s.draws := rfl
@[simp] theorem putIssue_time : (putIssue s d k i x).time = s.time := rfl
@[simp] theorem putIssue_nextUid : (putIssue s d k i x).nextUid = s.nextUid := rfl
@[simp] theorem putIssue_nextFid : (putIssue s d k i x).nextFid = s.nextFid := rfl
@[simp] theorem putIssue_inputs : (putIssue s d k i x).inputs = s.inputs := rfl
@[simp] theorem putIssue_mem : (putIssue s d k i x).mem = s.mem := rfl
@[simp] theorem putIssue_code : (putIssue s d k i x).code = s.code := rfl
@[simp] theorem putIssue_poison : (putIssue s d k i x).poison = s.poison := rfl
@[simp] theorem putIssue_hostMem : (putIssue s d k i x).hostMem = s.hostMem := rfl
@[simp] theorem putIssue_tlb : (putIssue s d k i x).tlb = s.tlb := rfl
@[simp] theorem putIssue_regs : (putIssue s d k i x).regs = s.regs := rfl
@[simp] theorem putIssue_ctxs : (putIssue s d k i x).ctxs = s.ctxs := rfl
@[simp] theorem putIssue_launches : (putIssue s d k i x).launches = s.launches := rfl
@[simp] theorem putIssue_waves : (putIssue s d k i x).waves = s.waves := rfl
@[simp] theorem putIssue_ghosts : (putIssue s d k i x).ghosts = s.ghosts := rfl
@[simp] theorem putIssue_saved : (putIssue s d k i x).saved = s.saved := rfl
@[simp] theorem putIssue_archives : (putIssue s d k i x).archives = s.archives := rfl
@[simp] theorem putIssue_flights : (putIssue s d k i x).flights = s.flights := rfl
@[simp] theorem putIssue_quads : (putIssue s d k i x).quads = s.quads := rfl
@[simp] theorem putIssue_engines : (putIssue s d k i x).engines = s.engines := rfl
@[simp] theorem putIssue_dies : (putIssue s d k i x).dies = s.dies := rfl
@[simp] theorem putIssue_islands : (putIssue s d k i x).islands = s.islands := rfl
@[simp] theorem putIssue_lowered : (putIssue s d k i x).lowered = s.lowered := rfl
@[simp] theorem putIssue_stations : (putIssue s d k i x).stations = s.stations := rfl
@[simp] theorem putIssue_linksDown : (putIssue s d k i x).linksDown = s.linksDown := rfl
@[simp] theorem putIssue_errs : (putIssue s d k i x).errs = s.errs := rfl
@[simp] theorem putIssue_errWindow : (putIssue s d k i x).errWindow = s.errWindow := rfl
@[simp] theorem putIssue_retired : (putIssue s d k i x).retired = s.retired := rfl
@[simp] theorem putIssue_rowCopies : (putIssue s d k i x).rowCopies = s.rowCopies := rfl
@[simp] theorem putIssue_scrubs : (putIssue s d k i x).scrubs = s.scrubs := rfl
@[simp] theorem putIssue_pod : (putIssue s d k i x).pod = s.pod := rfl
end

section
variable (s : State) (a : Nat) (bs : List Byte)
@[simp] theorem putMem_turn : (putMem s a bs).turn = s.turn := rfl
@[simp] theorem putMem_draws : (putMem s a bs).draws = s.draws := rfl
@[simp] theorem putMem_time : (putMem s a bs).time = s.time := rfl
@[simp] theorem putMem_nextUid : (putMem s a bs).nextUid = s.nextUid := rfl
@[simp] theorem putMem_nextFid : (putMem s a bs).nextFid = s.nextFid := rfl
@[simp] theorem putMem_inputs : (putMem s a bs).inputs = s.inputs := rfl
@[simp] theorem putMem_code : (putMem s a bs).code = s.code := rfl
@[simp] theorem putMem_hostMem : (putMem s a bs).hostMem = s.hostMem := rfl
@[simp] theorem putMem_tlb : (putMem s a bs).tlb = s.tlb := rfl
@[simp] theorem putMem_regs : (putMem s a bs).regs = s.regs := rfl
@[simp] theorem putMem_ctxs : (putMem s a bs).ctxs = s.ctxs := rfl
@[simp] theorem putMem_launches : (putMem s a bs).launches = s.launches := rfl
@[simp] theorem putMem_waves : (putMem s a bs).waves = s.waves := rfl
@[simp] theorem putMem_ghosts : (putMem s a bs).ghosts = s.ghosts := rfl
@[simp] theorem putMem_saved : (putMem s a bs).saved = s.saved := rfl
@[simp] theorem putMem_archives : (putMem s a bs).archives = s.archives := rfl
@[simp] theorem putMem_flights : (putMem s a bs).flights = s.flights := rfl
@[simp] theorem putMem_cores : (putMem s a bs).cores = s.cores := rfl
@[simp] theorem putMem_quads : (putMem s a bs).quads = s.quads := rfl
@[simp] theorem putMem_engines : (putMem s a bs).engines = s.engines := rfl
@[simp] theorem putMem_dies : (putMem s a bs).dies = s.dies := rfl
@[simp] theorem putMem_islands : (putMem s a bs).islands = s.islands := rfl
@[simp] theorem putMem_lowered : (putMem s a bs).lowered = s.lowered := rfl
@[simp] theorem putMem_stations : (putMem s a bs).stations = s.stations := rfl
@[simp] theorem putMem_linksDown : (putMem s a bs).linksDown = s.linksDown := rfl
@[simp] theorem putMem_errs : (putMem s a bs).errs = s.errs := rfl
@[simp] theorem putMem_errWindow : (putMem s a bs).errWindow = s.errWindow := rfl
@[simp] theorem putMem_retired : (putMem s a bs).retired = s.retired := rfl
@[simp] theorem putMem_rowCopies : (putMem s a bs).rowCopies = s.rowCopies := rfl
@[simp] theorem putMem_scrubs : (putMem s a bs).scrubs = s.scrubs := rfl
@[simp] theorem putMem_pod : (putMem s a bs).pod = s.pod := rfl
end

/-! ### Fields an update sets -/

@[simp] theorem putWave_waves (s : State) (w : Wave) : (putWave s w).waves = s.waves.map (fun x => if x.uid == w.uid then w else x) := rfl
@[simp] theorem putMem_mem (s : State) (a : Nat) (bs : List Byte) : (putMem s a bs).mem = memPut s.mem a bs := rfl
@[simp] theorem addFlight_nextFid (s : State) (w : Who) (c : Option Cls) (a : Act) (r : Option Nat) :
    (addFlight s w c a r).nextFid = s.nextFid + 1 := rfl
@[simp] theorem putCore_cores (s : State) (d k : Nat) (c : Core) :
    (putCore s d k c).cores = stSet coreDefault (coreKey d k) c s.cores := rfl

/-! ### Lookups after updates -/

theorem find_put_same (l : List Wave) (w x : Wave) (h : l.find? (fun y => y.uid == w.uid) = some x) :
    (l.map (fun y => if y.uid == w.uid then w else y)).find? (fun y => y.uid == w.uid) = some w := by
  induction l with
  | nil => simp at h
  | cons y r ih =>
    by_cases hy : y.uid = w.uid
    · simp [hy]
    · have hy' : (y.uid == w.uid) = false := by simpa using hy
      simp only [List.find?_cons, hy', List.map_cons, Bool.false_eq_true, if_false] at h ⊢
      exact ih h

theorem find_put_other (l : List Wave) (w : Wave) (u : Nat) (h : u ≠ w.uid) :
    (l.map (fun y => if y.uid == w.uid then w else y)).find? (fun y => y.uid == u) = l.find? (fun y => y.uid == u) := by
  induction l with
  | nil => rfl
  | cons y r ih =>
    by_cases hy : y.uid = w.uid
    · have h1 : (w.uid == u) = false := by simpa using fun x => h x.symm
      simp only [List.map_cons, hy, beq_self_eq_true, if_true, List.find?_cons, h1]
      exact ih
    · have hy' : (y.uid == w.uid) = false := by simpa using hy
      simp only [List.map_cons, hy', Bool.false_eq_true, if_false, List.find?_cons]
      split
      · rfl
      · exact ih

/-- The wave just put is found, if there was one of its number. -/
theorem findWave_putWave_same {s : State} {w x : Wave} (h : findWave s w.uid = some x) : findWave (putWave s w) w.uid = some w :=
  find_put_same s.waves w x h

/-- Waves of other numbers stay. -/
theorem findWave_putWave_other (s : State) {w : Wave} {u : Nat} (h : u ≠ w.uid) : findWave (putWave s w) u = findWave s u :=
  find_put_other s.waves w u h

/-- A found wave has the number it was looked up by. -/
theorem findWave_uid {s : State} {u : Nat} {w : Wave} (h : findWave s u = some w) : w.uid = u := by
  simpa using List.find?_some h

theorem findFlight_id {s : State} {i : Nat} {f : Flight} (h : findFlight s i = some f) : f.id = i := by
  simpa using List.find?_some h

@[simp] theorem coreAt_putCore (s : State) (d k : Nat) (c : Core) : coreAt (putCore s d k c) d k = c := stGet_stSet_same _ _ _ _

/-! ### Waves -/

theorem wrV_frame (w : Wave) (l n : Nat) (x : W32) : { wrV w l n x with v := w.v } = w := rfl
theorem wrK_frame (w : Wave) (n l : Nat) (b : Bool) : { wrK w n l b with k := w.k } = w := rfl
theorem wrQ_frame (w : Wave) (n : Nat) (b : Bool) : { wrQ w n b with q := w.q } = w := rfl
theorem orFlags_frame (w : Wave) (n : Nat) : { orFlags w n with fpflags := w.fpflags } = w := rfl
theorem wrS_frame (w : Wave) (n : Nat) (x : W64) : { wrS w n x with s := w.s, hs := w.hs } = w := by
  unfold wrS; split <;> rfl
theorem wrBank_frame (w : Wave) (n : Nat) (x : W64) : { wrBank w n x with s := w.s, hs := w.hs } = w := by
  unfold wrBank; split <;> rfl
theorem updSlices_frame (w : Wave) (g : List Nat) (f : Slice → Slice) : { updSlices w g f with slices := w.slices } = w := rfl

@[simp] theorem wrV_uid (w : Wave) (l n : Nat) (x : W32) : (wrV w l n x).uid = w.uid := rfl
@[simp] theorem wrK_uid (w : Wave) (n l : Nat) (b : Bool) : (wrK w n l b).uid = w.uid := rfl
@[simp] theorem wrQ_uid (w : Wave) (n : Nat) (b : Bool) : (wrQ w n b).uid = w.uid := rfl
@[simp] theorem orFlags_uid (w : Wave) (n : Nat) : (orFlags w n).uid = w.uid := rfl
@[simp] theorem wrS_uid (w : Wave) (n : Nat) (x : W64) : (wrS w n x).uid = w.uid := by unfold wrS; split <;> rfl
@[simp] theorem updSlices_uid (w : Wave) (g : List Nat) (f : Slice → Slice) : (updSlices w g f).uid = w.uid := rfl

/-- A vector register after a write to one. -/
theorem rdV_wrV (w : Wave) (l n m k : Nat) (x : W32) :
    rdV (wrV w l n x) m k = if 256 * m + k = 256 * l + n then x else rdV w m k := stGet_stSet _ _ _ _ _

/-- An s-register after a write to one, both below 64 (R56, R147). -/
theorem rdS_wrS (w : Wave) (n m : Nat) (x : W64) : rdS (wrS w n x) m = if m = n then x else rdS w m := by
  unfold rdS wrS
  by_cases h : w.trap.h = true <;> by_cases hn : 60 ≤ n <;> by_cases hm : 60 ≤ m <;>
    simp only [h, hn, hm, decide_true, decide_false, Bool.and_true, Bool.and_false, Bool.false_eq_true, if_true, if_false, stGet_stSet] <;>
    (split <;> first | rfl | omega)

end Sys2Proof.Machine
end

