-- ==== Sys2Proof/Laws/Regs.lean ====
section
/-!
SUPPORT. What writing a destination does (R82, R83, R87, R147): the values read back, and the frame.
-/
namespace Sys2Proof.Machine

/-! ### Bits -/

theorem getLsbD_setBit {n : Nat} (x : BitVec n) (i j : Nat) (b : Bool) (hj : j < n) :
    (setBit x i b).getLsbD j = if j = i then b else x.getLsbD j := by
  unfold setBit
  by_cases h : j = i
  · subst h; cases b <;> simp [hj]
  · have : ¬ (i ≤ j ∧ j - i = 0) := by omega
    cases b <;> simp [hj, h] <;> intros <;> omega

/-! ### One register -/

theorem rdK_wrK (w : Wave) (n l m j : Nat) (b : Bool) (hj : j < 32) :
    rdK (wrK w n l b) m j = if m = n ∧ j = l then m == 0 || b else rdK w m j := by
  unfold rdK wrK
  simp only [stGet_stSet]
  by_cases hm : m = n
  · subst hm
    simp only [if_true, getLsbD_setBit _ _ _ _ hj]
    by_cases h : j = l <;> simp [h]
  · simp [hm]

theorem rdQ_wrQ (w : Wave) (n m : Nat) (b : Bool) (hm : m < 4) :
    rdQ (wrQ w n b) m = if m = n then m == 0 || b else rdQ w m := by
  unfold rdQ wrQ
  simp only [getLsbD_setBit _ _ _ _ hm]
  split <;> simp_all

theorem rdBank_wrS (w : Wave) (n key : Nat) (x : W64) (hn : n < 64) :
    rdBank (wrS w n x) key = if key = bankKey w n then x else rdBank w key := by
  unfold rdBank wrS bankKey
  by_cases h : (w.trap.h && decide (60 ≤ n)) = true
  · simp only [h, if_true]
    by_cases hk : 64 ≤ key
    · simp only [hk, if_true, stGet_stSet]
      by_cases e : key - 64 = n
      · have : key = n + 64 := by omega
        simp [this]
      · have : key ≠ n + 64 := by omega
        simp [e, this]
    · have : key ≠ n + 64 := by omega
      simp [hk, this]
  · simp only [h]
    by_cases hk : 64 ≤ key
    · have : key ≠ n := by omega
      simp [hk, this]
    · simp [hk, stGet_stSet]

/-! ### Values in registers -/

theorem rdVec_lt (w : Wave) (t : Ty) (l n : Nat) : rdVec w t l n < 2 ^ t.bits := by
  unfold rdVec
  split
  · rename_i h
    have : t.bits = 64 := by simpa [Ty.is64] using h
    have h1 := (rdV w l n).isLt
    have h2 := (rdV w l (n + 1)).isLt
    rw [this]; omega
  · exact Nat.mod_lt _ (Nat.two_pow_pos _)

theorem rdUni_lt (w : Wave) (t : Ty) (n : Nat) : rdUni w t n < 2 ^ t.bits := Nat.mod_lt _ (Nat.two_pow_pos _)

theorem opA_lt (w : Wave) (o : Ops) (t : Ty) (l : Nat) : opA w o t l < 2 ^ t.bits := by
  unfold opA; split
  · exact rdVec_lt _ _ _ _
  · exact rdUni_lt _ _ _
theorem opB_lt (w : Wave) (o : Ops) (t : Ty) (l : Nat) : opB w o t l < 2 ^ t.bits := by
  unfold opB; split
  · exact rdVec_lt _ _ _ _
  · exact rdUni_lt _ _ _
  · exact Nat.mod_lt _ (Nat.two_pow_pos _)
theorem opC_lt (w : Wave) (o : Ops) (t : Ty) (l : Nat) : opC w o t l < 2 ^ t.bits := by
  unfold opC; split
  · exact rdVec_lt _ _ _ _
  · exact rdUni_lt _ _ _
theorem opD_lt (w : Wave) (o : Ops) (t : Ty) (l : Nat) : opD w o t l < 2 ^ t.bits := by
  unfold opD; split
  · exact rdVec_lt _ _ _ _
  · exact rdUni_lt _ _ _

/-- Sign extension keeps the pattern modulo its width. -/
theorem trunc_sval_mod (m w x : Nat) (h : w ≤ m) : trunc m (sval w x) % 2 ^ w = x % 2 ^ w := by
  have hd : (2 : Int) ^ w ∣ 2 ^ m := pow_dvd_pow 2 h
  have h2 : ((trunc m (sval w x) % 2 ^ w : Nat) : Int) = ((x % 2 ^ w : Nat) : Int) := by
    have : ((trunc m (sval w x) : Nat) : Int) = sval w x % 2 ^ m :=
      Int.toNat_of_nonneg (Int.emod_nonneg _ (by positivity))
    push_cast
    rw [this, Int.emod_emod_of_dvd _ hd]
    unfold sval
    split
    · rw [Int.sub_emod]; simp
    · rfl
  exact_mod_cast h2

theorem fillBits_mod (m : Nat) (sg : Bool) (t : Ty) (x : Nat) (h : t.bits ≤ m) : fillBits m sg t x % 2 ^ t.bits = x % 2 ^ t.bits := by
  unfold fillBits
  split
  · exact trunc_sval_mod m t.bits x h
  · rfl

theorem ty_bits_le (t : Ty) : t.bits ≤ 64 := by cases t <;> decide
theorem ty_bits_le32 {t : Ty} (h : t.is64 = false) : t.bits ≤ 32 := by cases t <;> simp_all [Ty.is64, Ty.bits]
theorem ty_bits_64 {t : Ty} (h : t.is64 = true) : t.bits = 64 := by simpa [Ty.is64] using h

/-- Reading a vector destination of a type after it was written (R82). -/
theorem rdVec_wrVec (w : Wave) (t : Ty) (l n x : Nat) : rdVec (wrVec w t l n x) t l n = x % 2 ^ t.bits := by
  unfold rdVec wrVec
  by_cases h : t.is64 = true
  · simp only [h, if_true, rdV_wrV, ty_bits_64 h]
    simp
    omega
  · have h : t.is64 = false := by simpa using h
    have hb := ty_bits_le32 h
    have hd : 2 ^ t.bits ∣ 2 ^ 32 := pow_dvd_pow 2 hb
    simp only [h, Bool.false_eq_true, if_false, rdV_wrV, if_true, BitVec.toNat_ofNat, Nat.mod_mod_of_dvd _ hd]
    exact fillBits_mod _ _ _ _ hb

/-- Other vector registers keep what they held. -/
theorem rdV_wrVec_other (w : Wave) (t : Ty) (l n x j m : Nat) (h : ¬(256 * j + m = 256 * l + n ∨ (t.is64 = true ∧ 256 * j + m = 256 * l + n + 1))) :
    rdV (wrVec w t l n x) j m = rdV w j m := by
  unfold wrVec
  split <;> simp only [rdV_wrV] <;> split_ifs <;> first | rfl | (exfalso; apply h; omega) | skip
  all_goals (exfalso; apply h; first | (left; omega) | (right; exact ⟨by assumption, by omega⟩))

theorem rdUni_wrUni (w : Wave) (t : Ty) (n x : Nat) : rdUni (wrUni w t n x) t n = x % 2 ^ t.bits := by
  have hd : 2 ^ t.bits ∣ 2 ^ 64 := pow_dvd_pow 2 (ty_bits_le t)
  unfold rdUni wrUni
  rw [rdS_wrS]
  simp only [if_true, BitVec.toNat_ofNat, Nat.mod_mod_of_dvd _ hd]
  exact fillBits_mod _ _ _ _ (ty_bits_le t)

end Sys2Proof.Machine
end

