-- ==== Sys2Proof/Laws/Ops.lean ====
section
/-!
SUPPORT. One lemma for each shared operation: the frame of an instruction (R66, R77, R78), going on to the next instruction (R117),
starting an operation (R194), and writing a destination (R82, R83, R87).
-/
namespace Sys2Proof.Machine

/-! ### The frame of an instruction -/

/-- An instruction that decodes, with its guard true somewhere, has its own effect. -/
theorem runInstr_issues {i : Instr} {s : State} {w : Wave} {ls : List Nat} (h : Issues s i w ls)
    (body : State → Wave → List Nat → Out) : runInstr i s body = body s w ls := by
  obtain ⟨hw, hl, rfl, hne⟩ := h
  have ht : takesEffect w i = true := by simp [takesEffect, hne]
  simp [runInstr, hw, hl, ht]

/-- Taking no effect, it only advances (R66). -/
theorem runInstr_false {i : Instr} {s : State} {w : Wave} (hw : curWave s = some w) (hl : legal s w i = true) (hg : takesEffect w i = false)
    (body : State → Wave → List Nat → Out) : runInstr i s body = finish s w := by
  simp [runInstr, hw, hl, hg, finish]

/-- An instruction that does not decode for its wave raises ILLEGAL (R78). -/
theorem runInstr_illegal {i : Instr} {s : State} {w : Wave} (hw : curWave s = some w) (hl : legal s w i = false)
    (body : State → Wave → List Nat → Out) : runInstr i s body = .next (raiseIllegal s w (illegalLanes w i)) := by
  simp [runInstr, hw, hl]

/-- Everything the frame can do. -/
theorem runInstr_cases (i : Instr) (s : State) (body : State → Wave → List Nat → Out) :
    (curWave s = none ∧ runInstr i s body = .next s) ∨
    ∃ w, curWave s = some w ∧
      ((legal s w i = false ∧ runInstr i s body = .next (raiseIllegal s w (illegalLanes w i))) ∨
       (legal s w i = true ∧ takesEffect w i = false ∧ runInstr i s body = finish s w) ∨
       (legal s w i = true ∧ takesEffect w i = true ∧ runInstr i s body = body s w (guardLanes w i))) := by
  cases hw : curWave s with
  | none => exact .inl ⟨rfl, by simp [runInstr, hw]⟩
  | some w =>
    refine .inr ⟨w, rfl, ?_⟩
    cases hl : legal s w i with
    | false => exact .inl ⟨rfl, runInstr_illegal hw hl body⟩
    | true =>
      cases hg : takesEffect w i with
      | false => exact .inr (.inl ⟨rfl, rfl, runInstr_false hw hl hg body⟩)
      | true => exact .inr (.inr ⟨rfl, rfl, by simp [runInstr, hw, hl, hg]⟩)

/-- The moving wave is the resident wave of its number. -/
theorem curWave_found {s : State} {w : Wave} (h : curWave s = some w) :
    (s.turn = .wave w.uid ∨ s.turn = .issue w.uid) ∧ findWave s w.uid = some w := by
  unfold curWave at h
  split at h
  · rename_i u hu
    have := findWave_uid h
    subst this
    exact ⟨.inl hu, h⟩
  · rename_i u hu
    have := findWave_uid h
    subst this
    exact ⟨.inr hu, h⟩
  · cases h

/-! ### Going on -/

theorem SameRegs.refl (w : Wave) : SameRegs w w := rfl

theorem SameRegs.trans {a b c : Wave} (h : SameRegs a b) (g : SameRegs b c) : SameRegs a c := by
  unfold SameRegs at *
  rw [← h, ← g]

theorem sameRegs_updSlices (w : Wave) (g : List Nat) (f : Slice → Slice) : SameRegs w (updSlices w g f) := rfl

theorem sameRegs_mergeGangs (w : Wave) : SameRegs w (mergeGangs w) := by
  unfold mergeGangs
  simp only
  split <;> rfl

theorem sameRegs_settle (w : Wave) : SameRegs w (settle w) := by
  unfold settle
  split
  · exact .refl w
  · exact (sameRegs_updSlices w _ _).trans (sameRegs_mergeGangs _)

/-- Going on to the next instruction changes nothing but where the gangs stand. -/
theorem sameRegs_goSeq (w : Wave) : SameRegs w (goSeq w) := (sameRegs_updSlices w _ _).trans (sameRegs_settle _)
theorem sameRegs_goTo (w : Wave) (t : W64) : SameRegs w (goTo w t) := (sameRegs_updSlices w _ _).trans (sameRegs_settle _)

theorem SameRegs.uid {w w' : Wave} (h : SameRegs w w') : w'.uid = w.uid := by
  unfold SameRegs at h; rw [← h]

@[simp] theorem goSeq_uid (w : Wave) : (goSeq w).uid = w.uid := (sameRegs_goSeq w).uid
@[simp] theorem goTo_uid (w : Wave) (t : W64) : (goTo w t).uid = w.uid := (sameRegs_goTo w t).uid
@[simp] theorem settle_uid (w : Wave) : (settle w).uid = w.uid := (sameRegs_settle w).uid

/-- Putting a wave in the place of the resident one of its number changes that wave only. -/
theorem onlyWave_putWave {s : State} {w w' : Wave} (h : findWave s w.uid = some w) (hu : w'.uid = w.uid) : OnlyWave s (putWave s w') w w' := by
  refine ⟨rfl, ?_, fun u hne => findWave_putWave_other s (by rw [hu]; exact hne), fun _ => rfl⟩
  rw [← hu] at h ⊢
  exact findWave_putWave_same h

/-- An instruction that ends in `finish` with a wave of its own number completes with what that wave is. -/
theorem completes_finish {i : Instr} {s : State} {w w1 : Wave} {ls : List Nat} {P : Wave → Prop} (hi : Issues s i w ls)
    (he : exec i s = finish s w1) (hu : w1.uid = w.uid) (hP : P w1) : Completes i s w P :=
  ⟨w1, he, onlyWave_putWave (curWave_found hi.1).2 (by simp [hu]), sameRegs_goSeq w1, hP⟩

/-! ### Starting an operation -/

theorem addFlight_flights (s : State) (who : Who) (cls : Option Cls) (act : Act) (rr : Option Nat) :
    (addFlight s who cls act rr).flights = s.flights ++
      [{ id := s.nextFid, who := who, cls := cls, act := act, rr := rr, held := false
         tick := if crosses s who.asid act then some (tickNow s) else none, vis := none, skip := [] }] := rfl

theorem newFlight_addFlight {s t : State} {w : Wave} {cls : Option Cls} {act : Act} {rr : Option Nat}
    (h : t.flights = (addFlight s (whoOf w) cls act rr).flights) : NewFlight s t w cls act rr :=
  ⟨{ id := s.nextFid, who := whoOf w, cls := cls, act := act, rr := rr, held := false
     tick := if crosses s (whoOf w).asid act then some (tickNow s) else none, vis := none, skip := [] },
    by simp [h, addFlight_flights], rfl, rfl, rfl, rfl, rfl, rfl⟩

/-- The new operation counts in its class (R194). -/
theorem countsUp_addFlight {s t : State} {w : Wave} {cls : Cls} {act : Act} {rr : Option Nat} (hw : w.fork = none)
    (h : t.flights = (addFlight s (whoOf w) (some cls) act rr).flights) : CountsUp s t w.uid cls := by
  have hu : (whoOf w).uid = w.uid := by simp [whoOf, hw]
  refine ⟨by simp [counter, h, addFlight_flights, hu, List.filter_append], fun c hc => ?_⟩
  have : (some cls == some c) = false := by simpa using fun e => hc e.symm
  simp [counter, h, addFlight_flights, hu, List.filter_append, this]

theorem mem_addFlight {s : State} {who : Who} {cls : Option Cls} {act : Act} {rr : Option Nat} {f : Flight} (h : f.id ≠ s.nextFid) :
    f ∈ (addFlight s who cls act rr).flights ↔ f ∈ s.flights := by
  rw [addFlight_flights, List.mem_append, List.mem_singleton]
  exact ⟨fun x => x.elim id (fun e => absurd (by rw [e]) h), .inl⟩

/-! ### Writing destinations -/

@[simp] theorem wrVec_uid (w : Wave) (t : Ty) (l n x : Nat) : (wrVec w t l n x).uid = w.uid := by unfold wrVec; split <;> rfl

theorem wrVec_frame (w : Wave) (t : Ty) (l n x : Nat) : { wrVec w t l n x with v := w.v } = w := by unfold wrVec; split <;> rfl

/-- The fold of a vector write over lanes. -/
theorem foldVec (o : Ops) (t : Ty) (f : Nat → Nat × Nat) (ls : List Nat) (w : Wave) (hd : o.d < 256) (hp : t.is64 = true → o.d + 1 < 256) :
    let w1 := ls.foldl (fun x l => orFlags (wrVec x t l o.d (f l).1) (f l).2) w
    VecFrame o.d t.is64 ls w w1 ∧ w1.fpflags = orAll w.fpflags (ls.map (fun l => (f l).2)) ∧
      ∀ l, rdVec w1 t l o.d = if l ∈ ls then (f l).1 % 2 ^ t.bits else rdVec w t l o.d := by
  induction ls generalizing w with
  | nil => exact ⟨⟨rfl, fun _ _ _ _ => rfl⟩, rfl, by simp⟩
  | cons a r ih =>
    obtain ⟨⟨hf, hv⟩, hfl, hx⟩ := ih (orFlags (wrVec w t a o.d (f a).1) (f a).2)
    have hother : ∀ j m, ¬(256 * j + m = 256 * a + o.d ∨ (t.is64 = true ∧ 256 * j + m = 256 * a + o.d + 1)) →
        rdV (orFlags (wrVec w t a o.d (f a).1) (f a).2) j m = rdV w j m := fun j m h => rdV_wrVec_other w t a o.d _ j m h
    refine ⟨⟨?_, ?_⟩, ?_, ?_⟩
    · have h1 := congrArg (fun q : Wave => { q with v := w.v, fpflags := w.fpflags }) hf
      exact h1.trans (congrArg (fun q : Wave => { q with fpflags := w.fpflags }) (wrVec_frame w t a o.d (f a).1))
    · intro l n hn h
      rw [List.foldl_cons, hv l n hn (fun c => h ⟨List.mem_cons_of_mem _ c.1, c.2⟩)]
      refine hother l n (fun c => h ?_)
      rcases c with c | ⟨c1, c2⟩
      · have : l = a := by omega
        subst this
        exact ⟨by simp, .inl (by omega)⟩
      · have := hp c1
        have : l = a := by omega
        subst this
        exact ⟨by simp, .inr ⟨c1, by omega⟩⟩
    · rw [List.foldl_cons, hfl]
      have : (wrVec w t a o.d (f a).1).fpflags = w.fpflags := by
        unfold wrVec; split <;> rfl
      simp [orAll, orFlags, this]
    · intro l
      rw [List.foldl_cons, hx l]
      by_cases hr : l ∈ r
      · simp [hr]
      · by_cases ha : l = a
        · subst ha
          simp only [hr, if_false, List.mem_cons, true_or, if_true]
          exact rdVec_wrVec w t l o.d (f l).1
        · have e0 : rdV (orFlags (wrVec w t a o.d (f a).1) (f a).2) l o.d = rdV w l o.d := by
            apply hother; rintro (c | ⟨c1, c2⟩)
            · omega
            · have := hp c1; omega
          simp only [hr, ha, if_false, List.mem_cons, or_self, rdVec]
          by_cases h64 : t.is64 = true
          · have e1 : rdV (orFlags (wrVec w t a o.d (f a).1) (f a).2) l (o.d + 1) = rdV w l (o.d + 1) := by
              apply hother; rintro (c | ⟨_, c⟩)
              · have := hp h64; omega
              · omega
            simp only [h64, if_true, e0, e1]
          · simp only [h64, if_false, e0, Bool.false_eq_true]

/-- D of a per-lane result (R82, R83): its frame, the flags, and the values it reads as. -/
theorem writeD_spec (o : Ops) (t : Ty) (f : Nat → Nat × Nat) (w : Wave) (ls : List Nat)
    (hv : o.k.vec = true → o.d < 256 ∧ (t.is64 = true → o.d + 1 < 256)) (hu : o.k.vec = false → o.d < 64) :
    DestFrame o t ls w (writeD o t f w ls) ∧
    (writeD o t f w ls).fpflags = orAll w.fpflags ((opLanes o ls).map (fun l => (f l).2)) ∧
    ∀ l ∈ ls, opD (writeD o t f w ls) o t l = (f (if o.k.vec then l else 0)).1 % 2 ^ t.bits := by
  cases hk : o.k.vec with
  | true =>
    obtain ⟨h1, h2, h3⟩ := foldVec o t f ls w (hv hk).1 (hv hk).2
    refine ⟨by simpa [DestFrame, writeD, hk] using h1, by simpa [writeD, hk, opLanes] using h2, fun l hl => ?_⟩
    simpa [opD, writeD, hk, hl] using h3 l
  | false =>
    have hn := hu hk
    have hfr := wrS_frame w o.d (BitVec.ofNat 64 (fillBits 64 (t == .i8 || t == .i16 || t == .i32) t (f 0).1))
    refine ⟨?_, ?_, fun l _ => ?_⟩
    · simp only [DestFrame, writeD, hk, Bool.false_eq_true, if_false]
      refine ⟨?_, fun key hne => ?_⟩
      · exact congrArg (fun q : Wave => { q with fpflags := w.fpflags }) hfr
      · have := rdBank_wrS w o.d key (BitVec.ofNat 64 (fillBits 64 (t == .i8 || t == .i16 || t == .i32) t (f 0).1)) hn
        rw [if_neg hne] at this
        exact this
    · have : (wrUni w t o.d (f 0).1).fpflags = w.fpflags := by
        unfold wrUni wrS; split <;> rfl
      simp [writeD, hk, opLanes, orAll, orFlags, this]
    · simp only [opD, writeD, hk, Bool.false_eq_true, if_false]
      exact rdUni_wrUni w t o.d (f 0).1

/-- The fold of a predicate write over lanes. -/
theorem foldPred (d : Nat) (f : Nat → Bool × Nat) (ls : List Nat) (w : Wave) :
    let w1 := ls.foldl (fun x l => orFlags (wrK x d l (f l).1) (f l).2) w
    { w1 with k := w.k, fpflags := w.fpflags } = w ∧ w1.fpflags = orAll w.fpflags (ls.map (fun l => (f l).2)) ∧
      ∀ n l, l < 32 → rdK w1 n l = if n = d ∧ l ∈ ls then n == 0 || (f l).1 else rdK w n l := by
  induction ls generalizing w with
  | nil => exact ⟨rfl, rfl, by simp⟩
  | cons a r ih =>
    obtain ⟨hf, hfl, hx⟩ := ih (orFlags (wrK w d a (f a).1) (f a).2)
    refine ⟨?_, ?_, fun n l hl => ?_⟩
    · rw [List.foldl_cons]
      have h3 := congrArg (fun q : Wave => { q with k := w.k, fpflags := w.fpflags }) hf
      exact h3
    · rw [List.foldl_cons, hfl]; rfl
    · rw [List.foldl_cons, hx n l hl]
      have hk : rdK (orFlags (wrK w d a (f a).1) (f a).2) n l = if n = d ∧ l = a then n == 0 || (f a).1 else rdK w n l :=
        rdK_wrK w d a n l (f a).1 hl
      rw [hk]
      by_cases hr : l ∈ r
      · by_cases hn : n = d <;> simp [hr, hn]
      · by_cases hn : n = d <;> by_cases ha : l = a <;> simp [hr, hn, ha]

/-- A predicate result (R87): its frame, the flags, and the values it reads as; k0 and q0 go on reading true (R56). -/
theorem writeP_spec (o : Ops) (f : Nat → Bool × Nat) (w : Wave) (ls : List Nat) (hu : o.k.vec = false → o.d < 4) :
    PredFrame o ls w (writeP o f w ls) ∧
    (writeP o f w ls).fpflags = orAll w.fpflags ((opLanes o ls).map (fun l => (f l).2)) ∧
    ∀ l ∈ ls, l < 32 → opPred (writeP o f w ls) o o.d l = (o.d == 0 || (f (if o.k.vec then l else 0)).1) := by
  cases hk : o.k.vec with
  | true =>
    obtain ⟨h1, h2, h3⟩ := foldPred o.d f ls w
    refine ⟨?_, by simpa [writeP, hk, opLanes] using h2, fun l hl hlt => ?_⟩
    · simp only [PredFrame, writeP, hk, if_true]
      exact ⟨h1, fun n l hlt hne => by rw [h3 n l hlt, if_neg hne]⟩
    · simp only [opPred, writeP, hk, if_true]
      rw [h3 _ l hlt]; simp [hl]
  | false =>
    have hn := hu hk
    refine ⟨?_, ?_, fun l _ _ => ?_⟩
    · simp only [PredFrame, writeP, hk, Bool.false_eq_true, if_false]
      refine ⟨rfl, fun n hlt hne => ?_⟩
      have := rdQ_wrQ w o.d n (f 0).1 hlt
      rw [if_neg hne] at this
      exact this
    · simp [writeP, hk, opLanes, orAll, orFlags, wrQ]
    · simp only [opPred, writeP, hk, Bool.false_eq_true, if_false]
      have := rdQ_wrQ w o.d o.d (f 0).1 hn
      rw [if_pos rfl] at this
      exact this

@[simp] theorem writeD_uid (o : Ops) (t : Ty) (f : Nat → Nat × Nat) (w : Wave) (ls : List Nat) : (writeD o t f w ls).uid = w.uid := by
  unfold writeD
  split
  · induction ls generalizing w with
    | nil => rfl
    | cons a r ih => rw [List.foldl_cons, ih]; simp
  · simp [wrUni]

@[simp] theorem writeP_uid (o : Ops) (f : Nat → Bool × Nat) (w : Wave) (ls : List Nat) : (writeP o f w ls).uid = w.uid := by
  unfold writeP
  split
  · induction ls generalizing w with
    | nil => rfl
    | cons a r ih => rw [List.foldl_cons, ih]; simp
  · simp

/-! ### Exceptions -/

/-- Squashing the forks of a wave that has none does nothing (R133). -/
theorem squashForks_none {s : State} {uid : Nat} (h : shadowsOf s uid (fun _ _ => true) = []) : squashForks s uid = s := by
  simp [squashForks, squashWhere, h]

/-- Putting a wave that is no shadow leaves a wave without forks. -/
theorem shadowsOf_putWave {s : State} {u : Nat} {w' : Wave} (hf : w'.fork = none) (h : shadowsOf s u (fun _ _ => true) = []) :
    shadowsOf (putWave s w') u (fun _ _ => true) = [] := by
  simp only [shadowsOf, List.filter_eq_nil_iff, putWave_waves, List.mem_map] at h ⊢
  rintro x ⟨y, hy, rfl⟩
  by_cases hu : (y.uid == w'.uid) = true
  · simp [hu, hf]
  · rw [if_neg hu]
    exact h y hy

/-- A slice by its position after slices changed. -/
theorem sliceAt_updSlices (w : Wave) (g : List Nat) (f : Slice → Slice) (i : Nat) (h : i < w.slices.length) :
    sliceAt (updSlices w g f) i = if g.contains i then f (sliceAt w i) else sliceAt w i := by
  simp [sliceAt, updSlices, List.getD_eq_getElem?_getD, h]

/-- Taking a precise exception outside a handler, with a handler to go to and no forks: the wave enters it, nothing else changes
(R142, R148, R150). -/
theorem takeException_enters {s : State} {w : Wave} (hw : findWave s w.uid = some w) (hc : CanTrap s w) (rs : List CauseRec) (xpc : W64) :
    { takeException s w rs xpc with waves := s.waves } = s ∧
    ∃ w', WaveIs s (takeException s w rs xpc) w.uid w' ∧ Entered w w' rs xpc := by
  obtain ⟨⟨hf, hs⟩, hq, hh, hx, hv⟩ := hc
  have hput (v : Wave) (hv : v.uid = w.uid) (t : State) (ht : ∃ x, findWave t w.uid = some x) : findWave (putWave t v) w.uid = some v := by
    obtain ⟨x, hx⟩ := ht
    rw [← hv] at hx ⊢
    exact findWave_putWave_same hx
  have hother (v : Wave) (hv : v.uid = w.uid) (t : State) (u : Nat) (hu : u ≠ w.uid) : findWave (putWave t v) u = findWave t u :=
    findWave_putWave_other t (by rw [hv]; exact hu)
  unfold takeException
  rw [if_neg (by simp [hf]), if_neg (by simp [hq]), if_neg (by simp [hv]), if_neg (by simp [hh])]
  unfold deliver
  simp only
  rw [squashForks_none (shadowsOf_putWave (by exact hf) (shadowsOf_putWave (by exact hf) hs))]
  rw [hput _ (by rfl) _ ⟨_, hput _ (by rfl) _ ⟨w, hw⟩⟩]
  simp only [if_neg hx]
  refine ⟨rfl, _, ⟨hput _ (by rfl) _ ⟨_, hput _ (by rfl) _ ⟨_, hput _ (by rfl) _ ⟨w, hw⟩⟩⟩, fun u hu => ?_⟩, rfl, rfl, ?_, fun i hi => ?_⟩
  · rw [hother _ (by rfl) _ u hu, hother _ (by rfl) _ u hu, hother _ (by rfl) _ u hu]
  · simp [updSlices]
  · rw [sliceAt_updSlices _ _ _ _ (by exact hi)]
    simp only [List.contains_iff_mem]
    rfl

/-! ### Operations that end -/

theorem findFlight_some {s : State} {fid : Nat} {f : Flight} (h : InFlight s fid f) (k : Flight → Out) : onFlight s fid k = k f := by
  obtain ⟨h1, h2, h3, h4⟩ := h
  simp [onFlight, h1, h2, h3, keepWritten, h4]

/-- The end of an operation changes flights, and waves that waited for it, and nothing else. -/
theorem endFlight_frame (s : State) (f : Flight) : { endFlight s f with waves := s.waves, flights := s.flights } = s := by
  unfold endFlight completeFlight unblock
  cases f.cls <;> rfl

end Sys2Proof.Machine
end

