-- ==== Sys2Proof/Laws/Memory.lean ====
section
/-!
SUPPORT. What the shared operations do to the two memories: nothing, or bytes put at one address in canonical form.
-/
namespace Sys2Proof.Machine

/-- Both memories are as before, as data. -/
def KeepsMem (s t : State) : Prop := t.mem = s.mem ∧ t.hostMem = s.hostMem

theorem KeepsMem.refl (s : State) : KeepsMem s s := ⟨rfl, rfl⟩
theorem KeepsMem.trans {a b c : State} (h : KeepsMem a b) (g : KeepsMem b c) : KeepsMem a c := ⟨g.1.trans h.1, g.2.trans h.2⟩
theorem KeepsMem.wf {s t : State} (h : KeepsMem s t) (hs : s.wf = true) : t.wf = true := by
  unfold State.wf at *; rw [h.1, h.2]; exact hs

/-- The memory right after reset lists nothing, so it is in canonical form. -/
theorem reset_wf : State.reset.wf = true := by decide

/-- A fold of updates that keep the memories keeps them. -/
theorem keepsMem_foldl {α : Type} (f : State → α → State) (hf : ∀ s a, KeepsMem s (f s a)) (l : List α) (s : State) :
    KeepsMem s (l.foldl f s) := by
  induction l generalizing s with
  | nil => exact .refl s
  | cons a r ih => exact (hf s a).trans (ih _)

theorem keepsMem_completeFlight (s : State) (f : Flight) : KeepsMem s (completeFlight s f) := by
  unfold completeFlight; cases f.cls <;> exact ⟨rfl, rfl⟩

theorem keepsMem_endFlight (s : State) (f : Flight) : KeepsMem s (endFlight s f) := keepsMem_completeFlight s f

theorem keepsMem_returnWeight (s : State) (d a l n : Nat) : KeepsMem s (returnWeight s d a l n) := by
  unfold returnWeight; split <;> exact ⟨rfl, rfl⟩

theorem keepsMem_sendError (s : State) (d a l n : Nat) (p : List W32) : KeepsMem s (sendError s d a l n p) := by
  unfold sendError; split <;> exact ⟨rfl, rfl⟩

theorem keepsMem_flushWhere (s : State) (d c : Nat) (p : EcbEnt → Bool) (ws : List Nat) (x : Option Nat) :
    KeepsMem s (flushWhere s d c p ws x) := by
  refine KeepsMem.trans (b := putCore s d c { coreAt s d c with ecb := (coreAt s d c).ecb.filter (fun e => !p e) }) ⟨rfl, rfl⟩ ?_
  exact keepsMem_foldl (fun st e => flushEntry st d c e ws x) (fun _ _ => ⟨rfl, rfl⟩) _ _

theorem keepsMem_train (s : State) (w : Wave) (m : FcMark) (l : List Nat) : KeepsMem s (train s w m l) := by
  unfold train; split <;> exact ⟨rfl, rfl⟩

theorem keepsMem_settleTraining (s : State) (u : Nat) (t : Training) : KeepsMem s (settleTraining s u t) := by
  unfold settleTraining
  split
  · exact .refl s
  · simp only
    split
    · exact keepsMem_train _ _ _ _
    · exact ⟨rfl, rfl⟩

theorem keepsMem_trainWhen (s : State) (u n : Nat) (m : FcMark) (l : List Nat) : KeepsMem s (trainWhen s u n m l) := by
  unfold trainWhen
  split
  · exact .refl s
  · exact keepsMem_settleTraining _ _ _

theorem keepsMem_settleTrains (s : State) (u : Nat) : KeepsMem s (settleTrains s u) := by
  unfold settleTrains
  split
  · exact .refl s
  · exact KeepsMem.trans (b := updHolder s u _) ⟨rfl, rfl⟩
      (keepsMem_foldl (fun st t => settleTraining st u t) (fun _ _ => keepsMem_settleTraining _ _ _) _ _)

theorem keepsMem_squashWhere (s : State) (u : Nat) (p : Wave → Fork → Bool) : KeepsMem s (squashWhere s u p) := by
  unfold squashWhere
  simp only
  split
  · exact .refl s
  · split
    · exact .refl s
    · have h := keepsMem_foldl (fun st (f : Fork) => trainWhen st u 0 f.mark f.returned) (fun _ _ => keepsMem_trainWhen _ _ _ _ _)
      exact ⟨(h _ _).1, (h _ _).2⟩

theorem keepsMem_squashForks (s : State) (u : Nat) : KeepsMem s (squashForks s u) := keepsMem_squashWhere s u _

theorem keepsMem_returnPool (s : State) (w : Wave) : KeepsMem s (returnPool s w) := by
  unfold returnPool
  simp only
  split
  · exact .refl s
  · split
    · exact .refl s
    · exact KeepsMem.trans (b := putQuad s _ _) ⟨rfl, rfl⟩ (keepsMem_returnWeight _ _ _ _ _)

theorem keepsMem_retireWave (s : State) (w : Wave) (n : Nat) : KeepsMem s (retireWave s w n) := by
  unfold retireWave
  have h0 : KeepsMem s (squashForks s w.uid) := keepsMem_squashForks s w.uid
  simp only
  generalize squashForks s w.uid = s0 at h0 ⊢
  have h1 : ∀ gs, KeepsMem s { dropWave s0 w.uid with ghosts := gs } := fun _ => h0
  exact ((((h1 _).trans (keepsMem_flushWhere _ _ _ _ _ _)).trans (keepsMem_returnWeight _ _ _ _ _)).trans
    (keepsMem_returnPool _ _)).trans ⟨rfl, rfl⟩

theorem keepsMem_endWave (s : State) (w : Wave) (k : Nat) (r : Option CauseRec) : KeepsMem s (endWave s w k r) := by
  unfold endWave
  have h : KeepsMem s (abortRays (retireWave s w 0) w.uid) := (keepsMem_retireWave s w 0).trans ⟨rfl, rfl⟩
  simp only
  split
  · exact h.trans ⟨rfl, rfl⟩
  · exact h.trans (keepsMem_sendError _ _ _ _ _ _)

theorem keepsMem_deliver (s : State) (w : Wave) (x : W64) : KeepsMem s (deliver s w x) := by
  unfold deliver
  simp only
  have h : ∀ v, KeepsMem s (squashForks (putWave s v) w.uid) := fun v => keepsMem_squashForks (putWave s v) w.uid
  split
  · exact h _
  · split
    · exact (h _).trans (keepsMem_endWave _ _ _ _)
    · exact (h _).trans ⟨rfl, rfl⟩

/-- Taking an exception stores nothing (R148). -/
theorem keepsMem_takeException (s : State) (w : Wave) (rs : List CauseRec) (x : W64) : KeepsMem s (takeException s w rs x) := by
  unfold takeException
  simp only
  split
  · exact ⟨rfl, rfl⟩
  · split
    · exact keepsMem_squashForks s w.uid
    · split
      · exact ⟨rfl, rfl⟩
      · split
        · exact keepsMem_endWave (putWave s _) _ _ _
        · exact keepsMem_deliver (putWave s _) _ _

/-- An exception of the drill that meets a VIQ which is not empty waits: nothing happens, of a wave without forks (R148). -/
theorem takeException_waits {s : State} {w : Wave} (hn : NoForks s w) (hq : w.viq ≠ []) (rs : List CauseRec) (x : W64) :
    takeException s w rs x = s := by
  unfold takeException
  rw [if_neg (by simp [hn.1]), if_pos (by simpa using hq), squashForks_none hn.2]

theorem keepsMem_raiseLanes (s : State) (w : Wave) (fs : List (Nat × LaneFault)) : KeepsMem s (raiseLanes s w fs) :=
  keepsMem_takeException _ _ _ _
theorem keepsMem_raiseDrill (s : State) (w : Wave) (c a d : Nat) : KeepsMem s (raiseDrill s w c a d) := keepsMem_takeException _ _ _ _
theorem keepsMem_raiseIllegal (s : State) (w : Wave) (ls : List Nat) : KeepsMem s (raiseIllegal s w ls) := keepsMem_takeException _ _ _ _

theorem keepsMem_returnException (s : State) (w : Wave) : KeepsMem s (returnException s w) := by
  unfold returnException
  simp only
  split
  · exact ⟨rfl, rfl⟩
  · exact keepsMem_deliver (putWave s _) _ _

theorem keepsMem_deferOrRecord (s : State) (who : Who) (k c : Nat) (ls : W32) (a d : W64) : KeepsMem s (deferOrRecord s who k c ls a d) := by
  unfold deferOrRecord addDeferred
  split
  · split <;> exact ⟨rfl, rfl⟩
  · exact keepsMem_sendError _ _ _ _ _ _

theorem keepsMem_addMem (s : State) (who : Who) (c : Option Cls) (a : Act) : KeepsMem s (addMem s who c a) := ⟨rfl, rfl⟩

/-! ### The slices -/

theorem keepsMem_l2Put (s : State) (q : Nat) (e : L2Ent) : KeepsMem s (l2Put s q e) := ⟨rfl, rfl⟩

theorem keepsMem_l2Line (s : State) (pg : Page) (wr : Bool) (pa n l : Nat) : KeepsMem s (l2Line s pg wr pa n l) := by
  unfold l2Line
  simp only
  split
  · exact keepsMem_l2Put _ _ _
  · split
    · exact .refl s
    · exact keepsMem_l2Put _ _ _

/-- An access at the slices moves lines, and no byte of memory (R179). -/
theorem keepsMem_l2Access (s : State) (pg : Page) (wr : Bool) (pa n : Nat) : KeepsMem s (l2Access s pg wr pa n) := by
  unfold l2Access
  split
  · exact keepsMem_foldl _ (fun st l => KeepsMem.trans (b := touchSlice st (homeQuad l)) ⟨rfl, rfl⟩ (keepsMem_l2Line _ pg wr pa n l)) _ _
  · exact .refl s

theorem keepsMem_homeSeen (s : State) (d c pa : Nat) : KeepsMem s (homeSeen s d c pa) := by
  unfold homeSeen markOld
  simp only
  split <;> exact ⟨rfl, rfl⟩

theorem keepsMem_makeReplica (s : State) (d c : Nat) (l : Line) : KeepsMem s (makeReplica s d c l) := by
  unfold makeReplica
  simp only
  split
  · exact .refl s
  · exact keepsMem_l2Put _ _ _

theorem keepsMem_touchReplica (s : State) (d c pa : Nat) : KeepsMem s (touchReplica s d c pa) := by
  unfold touchReplica
  split
  · exact keepsMem_l2Put _ _ _
  · exact .refl s

theorem keepsMem_l1Fill (s : State) (d c pa : Nat) (bs : List Byte) : KeepsMem s (l1Fill s d c pa bs) := by
  unfold l1Fill
  simp only
  split
  · exact KeepsMem.trans (b := putCore s d c _) ⟨rfl, rfl⟩ (keepsMem_makeReplica _ _ _ _)
  · exact ⟨rfl, rfl⟩

/-- A core's read stores nothing in memory. -/
theorem keepsMem_coreRead (s : State) (d c : Nat) (pg : Page) (h : ReadAt) (pa n : Nat) : KeepsMem s (coreRead s d c pg h pa n).1 := by
  unfold coreRead
  simp only
  split
  · exact (keepsMem_l2Access _ _ _ _ _).trans (keepsMem_homeSeen _ _ _ _)
  · split
    · exact ⟨rfl, rfl⟩
    · split
      · exact keepsMem_touchReplica _ _ _ _
      · exact (keepsMem_touchReplica _ _ _ _).trans (keepsMem_l1Fill _ _ _ _ _)
    · split
      · exact keepsMem_l2Access _ _ _ _ _
      · exact ((keepsMem_l2Access _ _ _ _ _).trans (keepsMem_homeSeen _ _ _ _)).trans (keepsMem_l1Fill _ _ _ _ _)

theorem keepsMem_acquireAt (s : State) (d c : Nat) (sc : Scope) : KeepsMem s (acquireAt s d c sc) := by
  cases sc <;> exact ⟨rfl, rfl⟩

theorem keepsMem_l1Update (s : State) (d c pa : Nat) (bs : List Byte) : KeepsMem s (l1Update s d c pa bs) := ⟨rfl, rfl⟩

/-- Marks that go change no byte (R406). -/
theorem keepsMem_healHome (s : State) (rs : List (Nat × Nat)) : KeepsMem s (healHome s rs) := ⟨rfl, rfl⟩
theorem keepsMem_healL1 (s : State) (d c : Nat) (rs : List (Nat × Nat)) : KeepsMem s (healL1 s d c rs) := by
  unfold healL1
  simp only
  split
  · exact .refl s
  · exact ⟨rfl, rfl⟩
theorem keepsMem_healPads (s : State) (n : Nat) (xs : List (Acc × Nat)) : KeepsMem s (healPads s n xs) := by
  unfold healPads
  exact keepsMem_foldl _ (fun st u => (⟨rfl, rfl⟩ : KeepsMem st (updHolder st u _))) _ _

theorem keepsMem_addStore (s : State) (who : Who) (c : Option Cls) (n : Nat) (xs : List (Acc × Nat)) : KeepsMem s (addStore s who c n xs) := by
  unfold addStore addSeen
  split
  · exact keepsMem_addMem _ _ _ _
  · simp only
    refine KeepsMem.trans (b := addMem (healL1 (xs.foldl (fun st x => match x.1.loc with
      | .mem pa => if x.1.page.ptype == .device then st else l1Update st who.die who.core pa (leBytes n x.2)
      | .pad _ _ => st) s) who.die who.core (memRanges (xs.map (fun x => (x.1, n))))) who c (.store n xs)) ?_ ⟨rfl, rfl⟩
    refine KeepsMem.trans (KeepsMem.trans (keepsMem_foldl _ (fun st x => ?_) xs s) (keepsMem_healL1 _ _ _ _)) (keepsMem_addMem _ _ _ _)
    split
    · split <;> exact ⟨rfl, rfl⟩
    · exact .refl st

/-! ### Writes -/

/-- Bytes written at a home. -/
theorem wf_putMem {s : State} (h : s.wf = true) (pa : Nat) (bs : List Byte) : (putMem s pa bs).wf = true := by
  simp only [State.wf, Bool.and_eq_true, putMem_mem, putMem_hostMem] at *
  exact ⟨wf_memPut h.1 pa bs, h.2⟩

/-- A write at the homes puts its bytes in memory, and nothing else there. -/
theorem memWrite_mem (s : State) (pg : Page) (pa : Nat) (bs : List Byte) : KeepsMem (putMem s pa bs) (memWrite s pg pa bs) :=
  keepsMem_l2Access _ _ _ _ _
theorem hostWrite_mem (s : State) (pa : Nat) (bs : List Byte) : KeepsMem (putMem s pa bs) (hostWrite s pa bs) := memWrite_mem s _ pa bs
theorem homeWrite_mem (s : State) (d c : Nat) (pg : Page) (pa : Nat) (bs : List Byte) : KeepsMem (putMem s pa bs) (homeWrite s d c pg pa bs) :=
  (keepsMem_l2Access _ _ _ _ _).trans (keepsMem_foldl (fun st l => dropUnits (dropReplica st d c l) d c l) (fun _ _ => ⟨rfl, rfl⟩) _ _)
theorem engineWrite_mem (s : State) (d c : Nat) (pg : Page) (pa : Nat) (bs : List Byte) :
    KeepsMem (putMem s pa bs) (engineWrite s d c pg pa bs) :=
  (homeWrite_mem s d c pg pa bs).trans (keepsMem_foldl (fun st l => dropL1 st d c l) (fun _ _ => ⟨rfl, rfl⟩) _ _)

theorem wf_memWrite {s : State} (h : s.wf = true) (pg : Page) (pa : Nat) (bs : List Byte) : (memWrite s pg pa bs).wf = true :=
  (memWrite_mem s pg pa bs).wf (wf_putMem h pa bs)
theorem wf_hostWrite {s : State} (h : s.wf = true) (pa : Nat) (bs : List Byte) : (hostWrite s pa bs).wf = true :=
  (hostWrite_mem s pa bs).wf (wf_putMem h pa bs)
theorem wf_homeWrite {s : State} (h : s.wf = true) (d c : Nat) (pg : Page) (pa : Nat) (bs : List Byte) :
    (homeWrite s d c pg pa bs).wf = true :=
  (homeWrite_mem s d c pg pa bs).wf (wf_putMem h pa bs)
theorem wf_engineWrite {s : State} (h : s.wf = true) (d c : Nat) (pg : Page) (pa : Nat) (bs : List Byte) :
    (engineWrite s d c pg pa bs).wf = true :=
  (engineWrite_mem s d c pg pa bs).wf (wf_putMem h pa bs)

/-- Poisoning sectors changes no byte. -/
theorem keepsMem_poisonSectors (s : State) (ss : List Nat) : KeepsMem s (poisonSectors s ss) := ⟨rfl, rfl⟩

theorem keepsMem_padWrite (s : State) (u off : Nat) (bs : List Byte) : KeepsMem s (padWrite s u off bs) := ⟨rfl, rfl⟩

/-- A host event goes to the host's ring, in canonical form, and to no memory of the package (R402). -/
theorem wf_postEvent {s : State} (h : s.wf = true) (k : Nat) (ws : List Nat) : (postEvent s k ws).wf = true := by
  unfold postEvent
  simp only
  split
  · simp only [State.wf, Bool.and_eq_true, writeEvent] at *
    exact ⟨h.1, wf_memPut h.2 _ _⟩
  · exact h

theorem wf_pumpEvents {s : State} (h : s.wf = true) (es : List (List W32)) : (pumpEvents s es).wf = true := by
  induction es generalizing s with
  | nil => exact h
  | cons e r ih =>
    unfold pumpEvents
    split
    · apply ih
      simp only [State.wf, Bool.and_eq_true, writeEvent] at *
      exact ⟨h.1, wf_memPut h.2 _ _⟩
    · exact h

end Sys2Proof.Machine
end

