-- ==== Sys2Proof/Laws/PerInstr.lean ====
section
/-!
SUPPORT. Family `Row`, one lemma per constructor: the tables that the encoder reads (`opcodeOf`, `copcodeOf`) and those that the decoder
reads (`rowOf`, `copRowOf`) name the same row of R72, R75, R76 for every instruction.
-/
namespace Sys2Proof.Laws.Row

/-- The row of an instruction is read back to the instruction, and its numbers fit their fields. -/
def Statement (i : Instr) : Prop :=
  (∀ op min o, opcodeOf i = some (op, min, o) → (∃ mk, rowOf op min = some mk ∧ mk o = i) ∧
    (0 < op ∧ op ≤ 0x30 ∧ min = 0 ∨ 0x70 ≤ op ∧ op ≤ 0x78 ∧ 0 < min ∧ min < 8)) ∧
  (∀ eng fn o, copcodeOf i = some (eng, fn, o) → (∃ mk, copRowOf eng fn = some mk ∧ mk o = i) ∧ eng < 4 ∧ fn < 0x13)

theorem of_ops {i : Instr} {op min : Nat} {o : Ops} {mk : Ops → Instr} (h : opcodeOf i = some (op, min, o)) (hc : copcodeOf i = none)
    (hr : rowOf op min = some mk) (hi : mk o = i)
    (hn : 0 < op ∧ op ≤ 0x30 ∧ min = 0 ∨ 0x70 ≤ op ∧ op ≤ 0x78 ∧ 0 < min ∧ min < 8) : Statement i := by
  refine ⟨fun op' min' o' h' => ?_, fun eng fn o' h' => by simp [hc] at h'⟩
  rw [h] at h'
  cases h'
  exact ⟨⟨mk, hr, hi⟩, hn⟩

theorem of_cop {i : Instr} {eng fn : Nat} {o : Cop} {mk : Cop → Instr} (h : copcodeOf i = some (eng, fn, o)) (hc : opcodeOf i = none)
    (hr : copRowOf eng fn = some mk) (hi : mk o = i) (hn : eng < 4 ∧ fn < 0x13) : Statement i := by
  refine ⟨fun op' min' o' h' => by simp [hc] at h', fun eng' fn' o' h' => ?_⟩
  rw [h] at h'
  cases h'
  exact ⟨⟨mk, hr, hi⟩, hn⟩

theorem of_none {i : Instr} (h : opcodeOf i = none) (hc : copcodeOf i = none) : Statement i :=
  ⟨fun _ _ _ h' => by simp [h] at h', fun _ _ _ h' => by simp [hc] at h'⟩

theorem iadd (o : Ops) : Statement (.iadd o) := of_ops rfl rfl rfl rfl (by decide)
theorem isub (o : Ops) : Statement (.isub o) := of_ops rfl rfl rfl rfl (by decide)
theorem imul (o : Ops) : Statement (.imul o) := of_ops rfl rfl rfl rfl (by decide)
theorem imulh (o : Ops) : Statement (.imulh o) := of_ops rfl rfl rfl rfl (by decide)
theorem iand (o : Ops) : Statement (.iand o) := of_ops rfl rfl rfl rfl (by decide)
theorem ior (o : Ops) : Statement (.ior o) := of_ops rfl rfl rfl rfl (by decide)
theorem ixor (o : Ops) : Statement (.ixor o) := of_ops rfl rfl rfl rfl (by decide)
theorem ishl (o : Ops) : Statement (.ishl o) := of_ops rfl rfl rfl rfl (by decide)
theorem ishr (o : Ops) : Statement (.ishr o) := of_ops rfl rfl rfl rfl (by decide)
theorem isra (o : Ops) : Statement (.isra o) := of_ops rfl rfl rfl rfl (by decide)
theorem imin (o : Ops) : Statement (.imin o) := of_ops rfl rfl rfl rfl (by decide)
theorem imax (o : Ops) : Statement (.imax o) := of_ops rfl rfl rfl rfl (by decide)
theorem inot (o : Ops) : Statement (.inot o) := of_ops rfl rfl rfl rfl (by decide)
theorem iabs (o : Ops) : Statement (.iabs o) := of_ops rfl rfl rfl rfl (by decide)
theorem ipopc (o : Ops) : Statement (.ipopc o) := of_ops rfl rfl rfl rfl (by decide)
theorem iclz (o : Ops) : Statement (.iclz o) := of_ops rfl rfl rfl rfl (by decide)
theorem fadd (o : Ops) : Statement (.fadd o) := of_ops rfl rfl rfl rfl (by decide)
theorem fsub (o : Ops) : Statement (.fsub o) := of_ops rfl rfl rfl rfl (by decide)
theorem fmul (o : Ops) : Statement (.fmul o) := of_ops rfl rfl rfl rfl (by decide)
theorem fmin (o : Ops) : Statement (.fmin o) := of_ops rfl rfl rfl rfl (by decide)
theorem fmax (o : Ops) : Statement (.fmax o) := of_ops rfl rfl rfl rfl (by decide)
theorem fdiv (o : Ops) : Statement (.fdiv o) := of_ops rfl rfl rfl rfl (by decide)
theorem fsqrt (o : Ops) : Statement (.fsqrt o) := of_ops rfl rfl rfl rfl (by decide)
theorem frcp (o : Ops) : Statement (.frcp o) := of_ops rfl rfl rfl rfl (by decide)
theorem frsq (o : Ops) : Statement (.frsq o) := of_ops rfl rfl rfl rfl (by decide)
theorem fexp2 (o : Ops) : Statement (.fexp2 o) := of_ops rfl rfl rfl rfl (by decide)
theorem flog2 (o : Ops) : Statement (.flog2 o) := of_ops rfl rfl rfl rfl (by decide)
theorem fsin (o : Ops) : Statement (.fsin o) := of_ops rfl rfl rfl rfl (by decide)
theorem fcos (o : Ops) : Statement (.fcos o) := of_ops rfl rfl rfl rfl (by decide)
theorem fclass (o : Ops) : Statement (.fclass o) := of_ops rfl rfl rfl rfl (by decide)
theorem frnd (o : Ops) : Statement (.frnd o) := of_ops rfl rfl rfl rfl (by decide)
theorem hadd2 (o : Ops) : Statement (.hadd2 o) := of_ops rfl rfl rfl rfl (by decide)
theorem hmul2 (o : Ops) : Statement (.hmul2 o) := of_ops rfl rfl rfl rfl (by decide)
theorem mov (o : Ops) : Statement (.mov o) := of_ops rfl rfl rfl rfl (by decide)
theorem movi (o : Ops) : Statement (.movi o) := of_ops rfl rfl rfl rfl (by decide)
theorem bcast (o : Ops) : Statement (.bcast o) := of_ops rfl rfl rfl rfl (by decide)
theorem gets (o : Ops) : Statement (.gets o) := of_ops rfl rfl rfl rfl (by decide)
theorem sets (o : Ops) : Statement (.sets o) := of_ops rfl rfl rfl rfl (by decide)
theorem rng (o : Ops) : Statement (.rng o) := of_ops rfl rfl rfl rfl (by decide)
theorem ld (o : Ops) : Statement (.ld o) := of_ops rfl rfl rfl rfl (by decide)
theorem st (o : Ops) : Statement (.st o) := of_ops rfl rfl rfl rfl (by decide)
theorem ldu (o : Ops) : Statement (.ldu o) := of_ops rfl rfl rfl rfl (by decide)
theorem stu (o : Ops) : Statement (.stu o) := of_ops rfl rfl rfl rfl (by decide)
theorem lds (o : Ops) : Statement (.lds o) := of_ops rfl rfl rfl rfl (by decide)
theorem sts (o : Ops) : Statement (.sts o) := of_ops rfl rfl rfl rfl (by decide)
theorem ldp (o : Ops) : Statement (.ldp o) := of_ops rfl rfl rfl rfl (by decide)
theorem stp (o : Ops) : Statement (.stp o) := of_ops rfl rfl rfl rfl (by decide)
theorem pf (o : Ops) : Statement (.pf o) := of_ops rfl rfl rfl rfl (by decide)
theorem br (g : Guard) (n : Bool) (q : Nat) (off : BitVec 24) : Statement (.br g n q off) := of_none rfl rfl
theorem brv (g : Guard) (n : Bool) (k : Nat) (off : BitVec 24) : Statement (.brv g n k off) := of_none rfl rfl
theorem jmp (g : Guard) (off : BitVec 24) : Statement (.jmp g off) := of_none rfl rfl
theorem bri (g : Guard) (vec : Bool) (a b : Nat) : Statement (.bri g vec a b) := of_none rfl rfl
theorem call (g : Guard) (off : BitVec 24) : Statement (.call g off) := of_none rfl rfl
theorem ret (g : Guard) : Statement (.ret g) := of_none rfl rfl
theorem loop (g : Guard) (imm : Bool) (n : Nat) (off : Nat) : Statement (.loop g imm n off) := of_none rfl rfl
theorem regang (g : Guard) : Statement (.regang g) := of_none rfl rfl
theorem yield (g : Guard) : Statement (.yield g) := of_none rfl rfl
theorem exit (g : Guard) : Statement (.exit g) := of_none rfl rfl
theorem nop (g : Guard) : Statement (.nop g) := of_none rfl rfl
theorem fsync (g : Guard) : Statement (.fsync g) := of_none rfl rfl
theorem wait (g : Guard) (ld st cp mx tx : Option Nat) : Statement (.wait g ld st cp mx tx) := of_none rfl rfl
theorem fence (g : Guard) (sc : Scope) (ord : Ord) : Statement (.fence g sc ord) := of_none rfl rfl
theorem done (g : Guard) : Statement (.done g) := of_none rfl rfl
theorem deq (g : Guard) (d q : Nat) (w : Bool) : Statement (.deq g d q w) := of_none rfl rfl
theorem icmp (o : Ops) : Statement (.icmp o) := of_ops rfl rfl rfl rfl (by decide)
theorem isel (o : Ops) : Statement (.isel o) := of_ops rfl rfl rfl rfl (by decide)
theorem imad (o : Ops) : Statement (.imad o) := of_ops rfl rfl rfl rfl (by decide)
theorem ibfx (o : Ops) : Statement (.ibfx o) := of_ops rfl rfl rfl rfl (by decide)
theorem ibfi (o : Ops) : Statement (.ibfi o) := of_ops rfl rfl rfl rfl (by decide)
theorem ffma (o : Ops) : Statement (.ffma o) := of_ops rfl rfl rfl rfl (by decide)
theorem fcmp (o : Ops) : Statement (.fcmp o) := of_ops rfl rfl rfl rfl (by decide)
theorem hfma2 (o : Ops) : Statement (.hfma2 o) := of_ops rfl rfl rfl rfl (by decide)
theorem cvt (o : Ops) : Statement (.cvt o) := of_ops rfl rfl rfl rfl (by decide)
theorem pack (o : Ops) : Statement (.pack o) := of_ops rfl rfl rfl rfl (by decide)
theorem unpack (o : Ops) : Statement (.unpack o) := of_ops rfl rfl rfl rfl (by decide)
theorem shfl (o : Ops) : Statement (.shfl o) := of_ops rfl rfl rfl rfl (by decide)
theorem vote (o : Ops) : Statement (.vote o) := of_ops rfl rfl rfl rfl (by decide)
theorem gred (o : Ops) : Statement (.gred o) := of_ops rfl rfl rfl rfl (by decide)
theorem gscan (o : Ops) : Statement (.gscan o) := of_ops rfl rfl rfl rfl (by decide)
theorem atom (o : Ops) : Statement (.atom o) := of_ops rfl rfl rfl rfl (by decide)
theorem red (o : Ops) : Statement (.red o) := of_ops rfl rfl rfl rfl (by decide)
theorem barInit (o : Ops) : Statement (.barInit o) := of_ops rfl rfl rfl rfl (by decide)
theorem barArr (o : Ops) : Statement (.barArr o) := of_ops rfl rfl rfl rfl (by decide)
theorem barExp (o : Ops) : Statement (.barExp o) := of_ops rfl rfl rfl rfl (by decide)
theorem barWait (o : Ops) : Statement (.barWait o) := of_ops rfl rfl rfl rfl (by decide)
theorem estAdd (o : Ops) : Statement (.estAdd o) := of_ops rfl rfl rfl rfl (by decide)
theorem estMrg (o : Ops) : Statement (.estMrg o) := of_ops rfl rfl rfl rfl (by decide)
theorem estLd (o : Ops) : Statement (.estLd o) := of_ops rfl rfl rfl rfl (by decide)
theorem estClr (o : Ops) : Statement (.estClr o) := of_ops rfl rfl rfl rfl (by decide)
theorem trap (o : Ops) : Statement (.trap o) := of_ops rfl rfl rfl rfl (by decide)
theorem xret (o : Ops) : Statement (.xret o) := of_ops rfl rfl rfl rfl (by decide)
theorem xclr (o : Ops) : Statement (.xclr o) := of_ops rfl rfl rfl rfl (by decide)
theorem cfgr (o : Ops) : Statement (.cfgr o) := of_ops rfl rfl rfl rfl (by decide)
theorem cfgw (o : Ops) : Statement (.cfgw o) := of_ops rfl rfl rfl rfl (by decide)
theorem live (o : Ops) : Statement (.live o) := of_ops rfl rfl rfl rfl (by decide)
theorem tlbi (o : Ops) : Statement (.tlbi o) := of_ops rfl rfl rfl rfl (by decide)
theorem spawn (o : Ops) : Statement (.spawn o) := of_ops rfl rfl rfl rfl (by decide)
theorem amsg (o : Ops) : Statement (.amsg o) := of_ops rfl rfl rfl rfl (by decide)
theorem enq (o : Ops) : Statement (.enq o) := of_ops rfl rfl rfl rfl (by decide)
theorem dlaunch (o : Ops) : Statement (.dlaunch o) := of_ops rfl rfl rfl rfl (by decide)
theorem trace (o : Ops) : Statement (.trace o) := of_ops rfl rfl rfl rfl (by decide)
theorem tget (o : Ops) : Statement (.tget o) := of_ops rfl rfl rfl rfl (by decide)
theorem hgf (o : Ops) : Statement (.hgf o) := of_ops rfl rfl rfl rfl (by decide)
theorem hgs (o : Ops) : Statement (.hgs o) := of_ops rfl rfl rfl rfl (by decide)
theorem tex (o : Ops) : Statement (.tex o) := of_ops rfl rfl rfl rfl (by decide)
theorem tld (o : Ops) : Statement (.tld o) := of_ops rfl rfl rfl rfl (by decide)
theorem fcall (g : Guard) (off : BitVec 21) (live : W32) (rc rva rvb : Nat) : Statement (.fcall g off live rc rva rvb) := of_none rfl rfl
theorem tdefBytes (o : Cop) : Statement (.tdefBytes o) := of_cop rfl rfl rfl rfl (by decide)
theorem tdefPlane (o : Cop) : Statement (.tdefPlane o) := of_cop rfl rfl rfl rfl (by decide)
theorem tset (o : Cop) : Statement (.tset o) := of_cop rfl rfl rfl rfl (by decide)
theorem tq (o : Cop) : Statement (.tq o) := of_cop rfl rfl rfl rfl (by decide)
theorem cpyLd (o : Cop) : Statement (.cpyLd o) := of_cop rfl rfl rfl rfl (by decide)
theorem cpySt (o : Cop) : Statement (.cpySt o) := of_cop rfl rfl rfl rfl (by decide)
theorem cpyGth (o : Cop) : Statement (.cpyGth o) := of_cop rfl rfl rfl rfl (by decide)
theorem cpyWs (o : Cop) : Statement (.cpyWs o) := of_cop rfl rfl rfl rfl (by decide)
theorem cpyFill (o : Cop) : Statement (.cpyFill o) := of_cop rfl rfl rfl rfl (by decide)
theorem glTopk (o : Cop) : Statement (.glTopk o) := of_cop rfl rfl rfl rfl (by decide)
theorem glSmax (o : Cop) : Statement (.glSmax o) := of_cop rfl rfl rfl rfl (by decide)
theorem glSamp (o : Cop) : Statement (.glSamp o) := of_cop rfl rfl rfl rfl (by decide)
theorem mlease (o : Cop) : Statement (.mlease o) := of_cop rfl rfl rfl rfl (by decide)
theorem mrel (o : Cop) : Statement (.mrel o) := of_cop rfl rfl rfl rfl (by decide)
theorem mmo (o : Cop) : Statement (.mmo o) := of_cop rfl rfl rfl rfl (by decide)
theorem mclr (o : Cop) : Statement (.mclr o) := of_cop rfl rfl rfl rfl (by decide)
theorem mdrain (o : Cop) : Statement (.mdrain o) := of_cop rfl rfl rfl rfl (by decide)
theorem estAdv (o : Cop) : Statement (.estAdv o) := of_cop rfl rfl rfl rfl (by decide)
theorem estClose (o : Cop) : Statement (.estClose o) := of_cop rfl rfl rfl rfl (by decide)
theorem regangRelease (uid : Nat) : Statement (.regangRelease uid) := of_none rfl rfl
theorem gangDemotion (uid : Nat) : Statement (.gangDemotion uid) := of_none rfl rfl
theorem partSwap (uid slice : Nat) : Statement (.partSwap uid slice) := of_none rfl rfl
theorem starvedWaveChoice (uid : Nat) : Statement (.starvedWaveChoice uid) := of_none rfl rfl
theorem forkResolution (uid : Nat) : Statement (.forkResolution uid) := of_none rfl rfl
theorem delivery (uid : Nat) : Statement (.delivery uid) := of_none rfl rfl
theorem preemptionRequest (uid : Nat) : Statement (.preemptionRequest uid) := of_none rfl rfl
theorem preemptionTimeout (uid : Nat) : Statement (.preemptionTimeout uid) := of_none rfl rfl
theorem save (uid : Nat) : Statement (.save uid) := of_none rfl rfl
theorem restore (uid : Nat) : Statement (.restore uid) := of_none rfl rfl
theorem carveChange (die core : Nat) : Statement (.carveChange die core) := of_none rfl rfl
theorem deqTimeout (uid : Nat) : Statement (.deqTimeout uid) := of_none rfl rfl
theorem loadCompletion (fid : Nat) : Statement (.loadCompletion fid) := of_none rfl rfl
theorem storeCompletion (fid : Nat) : Statement (.storeCompletion fid) := of_none rfl rfl
theorem lazyWriteBack (die core : Nat) : Statement (.lazyWriteBack die core) := of_none rfl rfl
theorem lateError (fid : Nat) : Statement (.lateError fid) := of_none rfl rfl
theorem barrierOperation (fid : Nat) : Statement (.barrierOperation fid) := of_none rfl rfl
theorem hostAtomic (op : HostOp) (pa size : Nat) (x y : W64) : Statement (.hostAtomic op pa size x y) := of_none rfl rfl
theorem hostDmaWeightWrite (pa : Nat) (bytes : List Byte) : Statement (.hostDmaWeightWrite pa bytes) := of_none rfl rfl
theorem refreshWindow (die bank : Nat) : Statement (.refreshWindow die bank) := of_none rfl rfl
theorem copyCommandStart (fid : Nat) : Statement (.copyCommandStart fid) := of_none rfl rfl
theorem copyPartCompletion (fid part : Nat) : Statement (.copyPartCompletion fid part) := of_none rfl rfl
theorem gleanCompletion (fid : Nat) : Statement (.gleanCompletion fid) := of_none rfl rfl
theorem leaseGrant (eng : Nat) : Statement (.leaseGrant eng) := of_none rfl rfl
theorem matrixCommandStart (fid : Nat) : Statement (.matrixCommandStart fid) := of_none rfl rfl
theorem mmoCompletion (fid : Nat) : Statement (.mmoCompletion fid) := of_none rfl rfl
theorem drainCompletion (fid : Nat) : Statement (.drainCompletion fid) := of_none rfl rfl
theorem addOnStore (fid line : Nat) : Statement (.addOnStore fid line) := of_none rfl rfl
theorem flush (die core entry : Nat) : Statement (.flush die core entry) := of_none rfl rfl
theorem merge (fid : Nat) : Statement (.merge fid) := of_none rfl rfl
theorem stage (fid : Nat) : Statement (.stage fid) := of_none rfl rfl
theorem reseedRequest (fid : Nat) : Statement (.reseedRequest fid) := of_none rfl rfl
theorem epochNotice (fid : Nat) : Statement (.epochNotice fid) := of_none rfl rfl
theorem fold (fid : Nat) : Statement (.fold fid) := of_none rfl rfl
theorem rayCompletion (fid lane : Nat) : Statement (.rayCompletion fid lane) := of_none rfl rfl
theorem textureCompletion (fid : Nat) : Statement (.textureCompletion fid) := of_none rfl rfl
theorem chunk (fid : Nat) : Statement (.chunk fid) := of_none rfl rfl
theorem hgsAdd (fid : Nat) : Statement (.hgsAdd fid) := of_none rfl rfl
theorem recordArrival (fid : Nat) : Statement (.recordArrival fid) := of_none rfl rfl
theorem dispatch (die : Nat) : Statement (.dispatch die) := of_none rfl rfl
theorem batchArrival (fid : Nat) : Statement (.batchArrival fid) := of_none rfl rfl
theorem draw (fid : Nat) : Statement (.draw fid) := of_none rfl rfl
theorem weightReturn (fid : Nat) : Statement (.weightReturn fid) := of_none rfl rfl
theorem dependenceMet (launch : Nat) : Statement (.dependenceMet launch) := of_none rfl rfl
theorem flock : Statement .flock := of_none rfl rfl
theorem notify (v : W32) : Statement (.notify v) := of_none rfl rfl
theorem evhead (v : W64) : Statement (.evhead v) := of_none rfl rfl
theorem go : Statement .go := of_none rfl rfl
theorem registerWrite (off : Nat) (v : W64) : Statement (.registerWrite off v) := of_none rfl rfl
theorem launch : Statement .launch := of_none rfl rfl
theorem ctxload : Statement .ctxload := of_none rfl rfl
theorem ctxsave : Statement .ctxsave := of_none rfl rfl
theorem ctxreset : Statement .ctxreset := of_none rfl rfl
theorem nopCmd : Statement .nopCmd := of_none rfl rfl
theorem attest : Statement .attest := of_none rfl rfl
theorem commandRefetch : Statement .commandRefetch := of_none rfl rfl
theorem eventRingResume : Statement .eventRingResume := of_none rfl rfl
theorem packageReset : Statement .packageReset := of_none rfl rfl
theorem tickBoundary : Statement .tickBoundary := of_none rfl rfl
theorem markerArrival (pkg tick : Nat) : Statement (.markerArrival pkg tick) := of_none rfl rfl
theorem tickExchangeStalled (pkg : Nat) : Statement (.tickExchangeStalled pkg) := of_none rfl rfl
theorem timeBaseOutOfBound (off : W32) : Statement (.timeBaseOutOfBound off) := of_none rfl rfl
theorem stationPowerDown (st : Nat) : Statement (.stationPowerDown st) := of_none rfl rfl
theorem wake (st : Nat) : Statement (.wake st) := of_none rfl rfl
theorem linkDown (link : Nat) : Statement (.linkDown link) := of_none rfl rfl
theorem controlPacketDropped (die unit num : Nat) (ps : List CtlSite) : Statement (.controlPacketDropped die unit num ps) := of_none rfl rfl
theorem correctedError (u : Unit3) : Statement (.correctedError u) := of_none rfl rfl
theorem errorWindow : Statement .errorWindow := of_none rfl rfl
theorem uncorrectableError (e : ErrSite) : Statement (.uncorrectableError e) := of_none rfl rfl
theorem scrub (die bank : Nat) : Statement (.scrub die bank) := of_none rfl rfl
theorem frequencyChange (island n : Nat) : Statement (.frequencyChange island n) := of_none rfl rfl
theorem powerCap (exceeded : Bool) (powers : List Nat) : Statement (.powerCap exceeded powers) := of_none rfl rfl
theorem thermalLimit (island : Nat) : Statement (.thermalLimit island) := of_none rfl rfl
theorem hostAccess (pa len : Nat) (bytes : List Byte) : Statement (.hostAccess pa len bytes) := of_none rfl rfl
theorem rowCopy (die bank row : Nat) : Statement (.rowCopy die bank row) := of_none rfl rfl

end Sys2Proof.Laws.Row
end

