-- ==== Sys2Proof/Laws/Shake.lean ====
section
/-!
SUPPORT. Every SHAKE256 digest of the model has 32 bytes.
-/
namespace Sys2Proof.Laws
open Sys2Proof Sys2Proof.Machine

theorem keccakRound_length (a : List Nat) (k : Nat) : (keccakRound a k).length = 25 := by
  have h : (mixRows (moveLanes (mixColumns a))).length = 25 := by simp [mixRows, moveLanes]
  unfold keccakRound
  split <;> simp_all

theorem rounds_length (ks : List Nat) {a : List Nat} (h : a.length = 25) : (ks.foldl keccakRound a).length = 25 := by
  induction ks generalizing a with
  | nil => exact h
  | cons k r ih =>
    rw [List.foldl_cons]
    exact ih (a := keccakRound a k) (keccakRound_length a k)

theorem keccak_length {a : List Nat} (h : a.length = 25) : (keccak a).length = 25 := rounds_length _ h

theorem absorb_length (n : Nat) {bs : List Byte} {a : List Nat} (h : a.length = 25) : (absorb n bs a).length = 25 := by
  induction n generalizing bs a with
  | zero => exact h
  | succ n ih =>
    rw [absorb]
    exact ih (keccak_length (by simp [h]))

theorem shake256_length (bs : List Byte) : (shake256 bs).length = 32 := by
  have h := absorb_length (bs.length / shakeRate + 1) (bs := shakePad bs) (a := List.replicate 25 0) (by simp)
  unfold shake256
  generalize absorb (bs.length / shakeRate + 1) (shakePad bs) (List.replicate 25 0) = a at h
  match a, h with
  | x0 :: x1 :: x2 :: x3 :: _, _ => simp [leBytes]

end Sys2Proof.Laws
end

