-- ==== Sys2Proof/Tests/Slice0.lean ====
section
/-!
SUPPORT. The model's own tests: ill-formed terms that `wf` refuses, words written out from the spec's encodings, one step on small states, and
for each statement of the obligations concrete states and operands that meet its hypotheses. Expected results come from the rules cited.
-/
open Sys2Proof Sys2Proof.Machine

namespace Sys2Proof.Tests
set_option Elab.async false

/-! ### Ill-formed terms (R57, R62 to R76, R78) -/

def op (k : Kind) (g : Guard) (d a : Nat) (b : Src) (c : Nat) (ty : Ty) (rnd : Rnd) (sat : Bool) (sc : Scope) (ord : Ord) (x : Nat) : Ops :=
  { k := k, g := g, d := d, a := a, b := b, c := c, ty := ty, rnd := rnd, sat := sat, sc := sc, ord := ord, x := x }
def cp (g : Guard) (rf : Bool) (rr sa sb ta tb cm : Nat) (lit : Option W64) : Cop :=
  { g := g, rf := rf, rr := rr, sa := sa, sb := sb, ta := ta, tb := tb, cm := cm, lit := lit }

/-- Vector and drill operands without a guard. -/
def vo (d a b c : Nat) (ty : Ty) (x : Nat) : Ops := op .vv ⟨false, 0⟩ d a (.v b) c ty .dyn false .wave .rlx x
def so (d a b c : Nat) (ty : Ty) (x : Nat) : Ops := op .uu ⟨false, 0⟩ d a (.s b) c ty .dyn false .wave .rlx x
def go (d a : Nat) (v : W64) (c : Nat) (ty : Ty) (x : Nat) : Ops := op .uu ⟨false, 0⟩ d a (.imm v) c ty .dyn false .wave .rlx x
def co (rf : Bool) (rr sa sb ta tb cm : Nat) (lit : Option W64) : Cop := cp ⟨false, 0⟩ rf rr sa sb ta tb cm lit
def gd : Guard := ⟨false, 0⟩

theorem test_wf_kind : (Instr.bcast (vo 1 0 0 0 .b32 0)).wf = false := by decide
theorem test_wf_guard : (Instr.iadd { vo 1 2 3 0 .i32 0 with g := ⟨false, 8⟩ }).wf = false ∧
    (Instr.iadd { so 1 2 3 0 .i64 0 with g := ⟨false, 4⟩ }).wf = false := by decide
theorem test_wf_type : (Instr.iadd (vo 1 2 3 0 .f32 0)).wf = false := by decide
theorem test_wf_d : (Instr.iadd (vo 256 2 3 0 .i32 0)).wf = false ∧ (Instr.icmp (vo 0 2 3 0 .i32 0)).wf = false ∧
    (Instr.iadd (vo 1 2 4 0 .i64 0)).wf = false ∧ (Instr.spawn (so 1 8 9 0 .b32 0)).wf = false := by decide
theorem test_wf_a : (Instr.iadd (vo 1 256 3 0 .i32 0)).wf = false ∧ (Instr.movi (go 1 1 5 0 .b64 0)).wf = false ∧
    (Instr.spawn (so 0 9 9 0 .b32 0)).wf = false := by decide
theorem test_wf_b : (Instr.inot (vo 1 2 3 0 .b32 0)).wf = false ∧ (Instr.iadd { vo 1 2 3 0 .i32 0 with b := .s 3 }).wf = false ∧
    (Instr.movi (so 1 0 0 0 .b64 0)).wf = false ∧ (Instr.hadd2 { vo 1 2 0 0 .f16 0 with k := .vi, b := .imm (2 ^ 32) }).wf = false := by decide
theorem test_wf_c : (Instr.iadd (vo 1 2 3 1 .i32 0)).wf = false ∧ (Instr.isel (vo 1 2 3 8 .b32 0)).wf = false := by decide
theorem test_wf_modifiers : (Instr.iadd { vo 1 2 3 0 .i32 0 with rnd := .rz }).wf = false ∧
    (Instr.imul { vo 1 2 3 0 .i32 0 with sat := true }).wf = false ∧ (Instr.iadd { vo 1 2 3 0 .i32 0 with sc := .core }).wf = false ∧
    (Instr.ld { vo 1 2 3 0 .b32 0 with ord := .rel }).wf = false ∧ (Instr.lds { vo 1 2 3 0 .b32 0 with ord := .acq }).wf = false := by decide
theorem test_wf_x : (Instr.icmp (vo 1 2 3 0 .i32 6)).wf = false ∧ (Instr.ld (vo 1 2 3 0 .b32 5)).wf = false ∧
    (Instr.cvt (vo 1 2 0 0 .f32 3)).wf = false ∧ (Instr.shfl (vo 1 2 3 4 .b32 0x44)).wf = false ∧
    (Instr.gred (vo 1 2 0 3 .f32 0)).wf = false ∧ (Instr.red (vo 0 2 3 4 .b32 7)).wf = false ∧
    (Instr.gets (vo 1 7 0 0 .b32 0)).wf = false ∧ (Instr.sets (so 0 8 1 0 .b32 0)).wf = false ∧
    (Instr.enq (go 0 8 0x21005 0 .b32 0)).wf = false := by decide
theorem test_wf_runs : (Instr.tget (vo 249 0 0 0 .b32 0)).wf = false ∧ (Instr.estMrg (vo 253 1 2 0 .b32 0)).wf = false ∧
    (Instr.atom (vo 1 2 3 255 .b32 7)).wf = false ∧ (Instr.hgf (vo 200 4 20 0 .b32 63)).wf = false := by decide
theorem test_wf_commands : (Instr.tdefBytes (co false 0 0 0 5 0 0 none)).wf = false ∧ (Instr.tdefPlane (co false 0 0 0 5 0 0 (some 8))).wf = false ∧
    (Instr.tset (co false 0 0 0 5 0 7 none)).wf = false ∧ (Instr.tq (co false 0 0 0 5 0 0 none)).wf = false ∧
    (Instr.cpyLd (co false 0 10 0 5 0 0x105 none)).wf = false ∧ (Instr.cpySt (co false 0 10 0 5 0 24 none)).wf = false ∧
    (Instr.cpyGth (co false 0 10 0 5 0 17 (some 64))).wf = false ∧ (Instr.cpyWs (co false 0 10 0 5 0 17 none)).wf = false ∧
    (Instr.cpyFill (co false 0 10 0 5 0 5 none)).wf = false ∧ (Instr.glTopk (co false 0 10 11 0 0 257 (some 9))).wf = false ∧
    (Instr.glSmax (co false 0 10 11 0 0 0 (some 0))).wf = false ∧ (Instr.glSamp (co false 0 10 11 0 0 4 none)).wf = false ∧
    (Instr.mlease (co false 0 0 0 0 0 0 none)).wf = false ∧ (Instr.mrel (co true 1 0 0 0 0 0 none)).wf = false ∧
    (Instr.mmo (co false 0 0 0 5 6 6 none)).wf = false ∧ (Instr.mclr (co false 0 0 0 0 0 6 none)).wf = false ∧
    (Instr.mdrain (co false 0 3 0 0 0 0x60 none)).wf = false ∧ (Instr.estAdv (co false 0 3 1 0 0 0 none)).wf = false ∧
    (Instr.estAdv (co false 5 3 0 0 0 0 none)).wf = false ∧ (Instr.estAdv (co false 0 64 0 0 0 0 none)).wf = false := by decide
theorem test_wf_control : (Instr.br gd false 4 0).wf = false ∧ (Instr.brv gd false 8 0).wf = false ∧ (Instr.bri gd true 64 0).wf = false ∧
    (Instr.loop gd true 3 1).wf = false ∧ (Instr.wait gd (some 1) (some 2) none none none).wf = false ∧
    (Instr.wait ⟨true, 0⟩ (some 1) none none none none).wf = false ∧ (Instr.wait gd none none none none none).wf = false ∧
    (Instr.fence gd .die .rlx).wf = false ∧ (Instr.deq gd 6 0 false).wf = false ∧ (Instr.fcall gd 0 0 3 1 2).wf = false ∧
    (Instr.fcall gd 0 0 2 7 7).wf = false ∧ (Instr.nop ⟨false, 4⟩).wf = false := by decide

/-! ### Words (R59 to R76, R105, R121) -/

/-- The bytes of words, each in its byte order (R4). -/
def bytesOf (ws : List Nat) : List Byte := ws.flatMap (leBytes 4)

/-- Each row's words decode to its instruction, which is well formed. -/
def reads (t : List (List Nat × Instr)) : Bool :=
  t.all (fun p => match decode (bytesOf p.1) with | .ok (i, n) => decide (i = p.2) && n == p.1.length && i.wf | .error _ => false)

def wordsInteger0 : List (List Nat × Instr) :=
  [([0x009142B4], .iadd (op .vv ⟨false, 0⟩ 17 33 (.v 45) 0 .i32 .dyn false .wave .rlx 0)),
   ([0x011242B5], .isub (op .vs ⟨false, 0⟩ 18 33 (.s 45) 0 .i32 .dyn false .wave .rlx 0)),
   ([0x019342B6], .imul (op .uu ⟨false, 0⟩ 19 33 (.s 45) 0 .i64 .dyn false .wave .rlx 0)),
   ([0x021442B4], .imulh (op .vv ⟨false, 0⟩ 20 33 (.v 45) 0 .i32 .dyn false .wave .rlx 0)),
   ([0x029542B5], .iand (op .vs ⟨false, 0⟩ 21 33 (.s 45) 0 .b32 .dyn false .wave .rlx 0)),
   ([0x031642B6], .ior (op .uu ⟨false, 0⟩ 22 33 (.s 45) 0 .b64 .dyn false .wave .rlx 0)),
   ([0x039742B4], .ixor (op .vv ⟨false, 0⟩ 23 33 (.v 45) 0 .b32 .dyn false .wave .rlx 0)),
   ([0x041842B5], .ishl (op .vs ⟨false, 0⟩ 24 33 (.s 45) 0 .b32 .dyn false .wave .rlx 0)),
   ([0x049942B6], .ishr (op .uu ⟨false, 0⟩ 25 33 (.s 45) 0 .b64 .dyn false .wave .rlx 0)),
   ([0x051A42B4], .isra (op .vv ⟨false, 0⟩ 26 33 (.v 45) 0 .b32 .dyn false .wave .rlx 0)),
   ([0x059B42B5], .imin (op .vs ⟨false, 0⟩ 27 33 (.s 45) 0 .i32 .dyn false .wave .rlx 0)),
   ([0x061C42B6], .imax (op .uu ⟨false, 0⟩ 28 33 (.s 45) 0 .i64 .dyn false .wave .rlx 0)),
   ([0x00850DFF], .iadd (op .vi ⟨false, 0⟩ 5 6 (.imm 0xFFFFFFFF) 0 .i32 .dyn false .wave .rlx 0)),
   ([0x02850D82], .iand (op .uu ⟨false, 0⟩ 5 6 (.imm 0xFFFFFFFFFFFFFFE0) 0 .b64 .dyn false .wave .rlx 0))]

theorem test_wordsInteger0 : reads wordsInteger0 = true := by decide +kernel

def wordsInteger1 : List (List Nat × Instr) :=
  [([0x41800000, 0xC8C9CA00, 0x00D20000], .imul (op .vv ⟨true, 5⟩ 200 201 (.v 202) 0 .n32 .dyn false .wave .rlx 0)),
   ([0x06880E00], .inot (op .vv ⟨false, 0⟩ 8 7 (.v 0) 0 .b32 .dyn false .wave .rlx 0)),
   ([0x07081000], .iabs (op .vv ⟨false, 0⟩ 8 8 (.v 0) 0 .i32 .dyn false .wave .rlx 0)),
   ([0x07881200], .ipopc (op .vv ⟨false, 0⟩ 8 9 (.v 0) 0 .b32 .dyn false .wave .rlx 0)),
   ([0x08081400], .iclz (op .vv ⟨false, 0⟩ 8 10 (.v 0) 0 .b32 .dyn false .wave .rlx 0)),
   ([0x78000000, 0x03838400, 0x01110004], .icmp (op .vv ⟨false, 1⟩ 3 131 (.v 132) 0 .i32 .dyn false .wave .rlx 4)),
   ([0x78000000, 0x82838402, 0x02100000], .isel (op .vv ⟨false, 1⟩ 130 131 (.v 132) 2 .b32 .dyn false .wave .rlx 0)),
   ([0x78000000, 0x82838485, 0x03110000], .imad (op .vv ⟨false, 1⟩ 130 131 (.v 132) 133 .i32 .dyn false .wave .rlx 0)),
   ([0x78000000, 0x82838485, 0x04110000], .ibfx (op .vv ⟨false, 1⟩ 130 131 (.v 132) 133 .i32 .dyn false .wave .rlx 0)),
   ([0x78000000, 0x82838485, 0x05100000], .ibfi (op .vv ⟨false, 1⟩ 130 131 (.v 132) 133 .b32 .dyn false .wave .rlx 0))]

theorem test_wordsInteger1 : reads wordsInteger1 = true := by decide +kernel

def wordsFloat0 : List (List Nat × Instr) :=
  [([0x08812878], .fadd (op .vv ⟨false, 0⟩ 1 20 (.v 30) 0 .f32 .dyn false .wave .rlx 0)),
   ([0x09022879], .fsub (op .vs ⟨false, 0⟩ 2 20 (.s 30) 0 .f32 .dyn false .wave .rlx 0)),
   ([0x09832878], .fmul (op .vv ⟨false, 0⟩ 3 20 (.v 30) 0 .f32 .dyn false .wave .rlx 0)),
   ([0x0A042879], .fmin (op .vs ⟨false, 0⟩ 4 20 (.s 30) 0 .f32 .dyn false .wave .rlx 0)),
   ([0x0A852878], .fmax (op .vv ⟨false, 0⟩ 5 20 (.v 30) 0 .f32 .dyn false .wave .rlx 0)),
   ([0x0B062879], .fdiv (op .vs ⟨false, 0⟩ 6 20 (.s 30) 0 .f32 .dyn false .wave .rlx 0)),
   ([0x0B812800], .fsqrt (op .vv ⟨false, 0⟩ 1 20 (.v 0) 0 .f32 .dyn false .wave .rlx 0)),
   ([0x0C022802], .frcp (op .uu ⟨false, 0⟩ 2 20 (.s 0) 0 .f32 .dyn false .wave .rlx 0)),
   ([0x0C832800], .frsq (op .vv ⟨false, 0⟩ 3 20 (.v 0) 0 .f32 .dyn false .wave .rlx 0)),
   ([0x0D042802], .fexp2 (op .uu ⟨false, 0⟩ 4 20 (.s 0) 0 .f32 .dyn false .wave .rlx 0)),
   ([0x0D852800], .flog2 (op .vv ⟨false, 0⟩ 5 20 (.v 0) 0 .f32 .dyn false .wave .rlx 0)),
   ([0x0E062802], .fsin (op .uu ⟨false, 0⟩ 6 20 (.s 0) 0 .f32 .dyn false .wave .rlx 0)),
   ([0x0E872800], .fcos (op .vv ⟨false, 0⟩ 7 20 (.v 0) 0 .f32 .dyn false .wave .rlx 0)),
   ([0x0F082802], .fclass (op .uu ⟨false, 0⟩ 8 20 (.s 0) 0 .f32 .dyn false .wave .rlx 0))]

theorem test_wordsFloat0 : reads wordsFloat0 = true := by decide +kernel

def wordsFloat1 : List (List Nat × Instr) :=
  [([0x0F892800], .frnd (op .vv ⟨false, 0⟩ 9 20 (.v 0) 0 .f32 .dyn false .wave .rlx 0)),
   ([0x1001040C], .hadd2 (op .vv ⟨false, 0⟩ 1 2 (.v 3) 0 .f16 .dyn false .wave .rlx 0)),
   ([0x1081040D], .hmul2 (op .vs ⟨false, 0⟩ 1 2 (.s 3) 0 .f16 .dyn false .wave .rlx 0)),
   ([0x48800001, 0x09080700, 0x00047000], .fadd (op .vs ⟨false, 0⟩ 9 8 (.s 7) 0 .f16 .ru true .wave .rlx 0)),
   ([0x78800000, 0x09080706, 0x01032000], .ffma (op .vv ⟨false, 0⟩ 9 8 (.v 7) 6 .f32 .rn false .wave .rlx 0)),
   ([0x78800002, 0x03080700, 0x02050006], .fcmp (op .uu ⟨false, 0⟩ 3 8 (.s 7) 0 .bf16 .dyn false .wave .rlx 6)),
   ([0x78800001, 0x09080706, 0x03044000], .hfma2 (op .vs ⟨false, 0⟩ 9 8 (.s 7) 6 .f16 .rz false .wave .rlx 0)),
   ([0x78800000, 0x09080000, 0x04068003], .cvt (op .vv ⟨false, 0⟩ 9 8 (.v 0) 0 .i8 .rd false .wave .rlx 3)),
   ([0x78800000, 0x09080700, 0x05000004], .pack (op .vv ⟨false, 0⟩ 9 8 (.v 7) 0 .b32 .dyn false .wave .rlx 4)),
   ([0x78800002, 0x09080000, 0x06000007], .unpack (op .uu ⟨false, 0⟩ 9 8 (.s 0) 0 .b32 .dyn false .wave .rlx 7))]

theorem test_wordsFloat1 : reads wordsFloat1 = true := by decide +kernel

def wordsMoves : List (List Nat × Instr) :=
  [([0x110A1600], .mov (op .vv ⟨false, 0⟩ 10 11 (.v 0) 0 .b32 .dyn false .wave .rlx 0)),
   ([0x118A00FF], .movi (op .vi ⟨false, 0⟩ 10 0 (.imm 63) 0 .b32 .dyn false .wave .rlx 0)),
   ([0x918A0003, 0xDEADBEEF, 0x00000000], .movi (op .vi ⟨false, 0⟩ 10 0 (.imm 0xDEADBEEF) 0 .b32 .dyn false .wave .rlx 0)),
   ([0x120A0031], .bcast (op .vs ⟨false, 0⟩ 10 0 (.s 12) 0 .b32 .dyn false .wave .rlx 0)),
   ([0x128A1602], .gets (op .uu ⟨false, 0⟩ 10 11 (.s 0) 0 .b32 .dyn false .wave .rlx 0)),
   ([0x13001836], .sets (op .uu ⟨false, 0⟩ 0 12 (.s 13) 0 .b32 .dyn false .wave .rlx 0)),
   ([0x138A0435], .rng (op .vs ⟨false, 0⟩ 10 2 (.s 13) 0 .b32 .dyn false .wave .rlx 0)),
   ([0x79000000, 0x09080706, 0x0100001A], .shfl (op .vv ⟨false, 0⟩ 9 8 (.v 7) 6 .b32 .dyn false .wave .rlx 26)),
   ([0x79000001, 0x09050000, 0x02000042], .vote (op .vs ⟨false, 0⟩ 9 5 (.s 0) 0 .b32 .dyn false .wave .rlx 66)),
   ([0x79000000, 0x09080006, 0x03030008], .gred (op .vv ⟨false, 0⟩ 9 8 (.v 0) 6 .f32 .dyn false .wave .rlx 8)),
   ([0x79000000, 0x09080006, 0x04010011], .gscan (op .vv ⟨false, 0⟩ 9 8 (.v 0) 6 .i32 .dyn false .wave .rlx 17))]

theorem test_wordsMoves : reads wordsMoves = true := by decide +kernel

def wordsMemory0 : List (List Nat × Instr) :=
  [([0x14280AC8], .ld (op .vv ⟨false, 0⟩ 40 5 (.v 50) 0 .b32 .dyn false .wave .rlx 2)),
   ([0x14A90AC8], .st (op .vv ⟨false, 0⟩ 41 5 (.v 50) 0 .b32 .dyn false .wave .rlx 2)),
   ([0x162A0AC8], .lds (op .vv ⟨false, 0⟩ 42 5 (.v 50) 0 .b32 .dyn false .wave .rlx 2)),
   ([0x16AB0AC8], .sts (op .vv ⟨false, 0⟩ 43 5 (.v 50) 0 .b32 .dyn false .wave .rlx 2)),
   ([0x172C0AC8], .ldp (op .vv ⟨false, 0⟩ 44 5 (.v 50) 0 .b32 .dyn false .wave .rlx 2)),
   ([0x17AD0AC8], .stp (op .vv ⟨false, 0⟩ 45 5 (.v 50) 0 .b32 .dyn false .wave .rlx 2)),
   ([0x15280B12], .ldu (op .uu ⟨false, 0⟩ 40 5 (.imm 4) 0 .b64 .dyn false .wave .rlx 0)),
   ([0x15A80A1E], .stu (op .uu ⟨false, 0⟩ 40 5 (.s 7) 0 .b64 .dyn false .wave .rlx 0)),
   ([0x18000A1C], .pf (op .vv ⟨false, 0⟩ 0 5 (.v 7) 0 .b32 .dyn false .wave .rlx 0)),
   ([0x54000000, 0x04050600, 0x000C0883], .ld (op .vv ⟨false, 0⟩ 4 5 (.v 6) 0 .b64 .dyn false .pkg .acq 3)),
   ([0x54FF8003, 0x0405FFF8, 0x00000300], .st (op .vi ⟨false, 0⟩ 4 5 (.imm 0xFFFFFFFFFFFFFFF8) 0 .b32 .dyn false .core .rel 0)),
   ([0x79800000, 0x04050607, 0x01010BA0], .atom (op .vv ⟨false, 0⟩ 4 5 (.v 6) 7 .i32 .dyn false .pod .ar 32)),
   ([0xF9800003, 0x00050007, 0x02000D03, 0x23456789, 0x00000001], .red (op .vi ⟨false, 0⟩ 0 5 (.imm 0x123456789) 7 .b32 .dyn false .sys .rel 3)),
   ([0x7A000002, 0x00050600, 0x01000000], .barInit (op .uu ⟨false, 0⟩ 0 5 (.s 6) 0 .b32 .dyn false .wave .rlx 0))]

theorem test_wordsMemory0 : reads wordsMemory0 = true := by decide +kernel

def wordsMemory1 : List (List Nat × Instr) :=
  [([0x7A000002, 0x00050600, 0x02000001], .barArr (op .uu ⟨false, 0⟩ 0 5 (.s 6) 0 .b32 .dyn false .wave .rlx 1)),
   ([0x7A000002, 0x00050600, 0x03000001], .barExp (op .uu ⟨false, 0⟩ 0 5 (.s 6) 0 .b32 .dyn false .wave .rlx 1)),
   ([0x7A000002, 0x00050600, 0x04000000], .barWait (op .uu ⟨false, 0⟩ 0 5 (.s 6) 0 .b32 .dyn false .wave .rlx 0)),
   ([0x7A800000, 0x3C050600, 0x01000002], .estAdd (op .vv ⟨false, 0⟩ 60 5 (.v 6) 0 .b32 .dyn false .wave .rlx 2)),
   ([0x7A800000, 0x3C050600, 0x02000004], .estMrg (op .vv ⟨false, 0⟩ 60 5 (.v 6) 0 .b32 .dyn false .wave .rlx 4)),
   ([0x7A800000, 0x3C050600, 0x0300000A], .estLd (op .vv ⟨false, 0⟩ 60 5 (.v 6) 0 .b32 .dyn false .wave .rlx 10)),
   ([0x7A800000, 0x00050600, 0x04000001], .estClr (op .vv ⟨false, 0⟩ 0 5 (.v 6) 0 .b32 .dyn false .wave .rlx 1))]

theorem test_wordsMemory1 : reads wordsMemory1 = true := by decide +kernel

def wordsControl0 : List (List Nat × Instr) :=
  [([0x18EFFFFE], .br ⟨false, 0⟩ true 2 (-1)),
   ([0x58B00002, 0x00123456, 0x00A00000], .br ⟨true, 2⟩ false 3 0x123456),
   ([0x196C0000], .brv ⟨false, 0⟩ true 5 (-65536)),
   ([0x19BFFFFE], .jmp ⟨false, 0⟩ 0x0FFFFF),
   ([0x1A001390], .bri ⟨false, 0⟩ true 9 100),
   ([0x1A001229], .bri ⟨false, 0⟩ false 9 10),
   ([0x1AFFFFFA], .call ⟨false, 0⟩ (-2)),
   ([0x1B000002], .ret ⟨false, 0⟩),
   ([0x1C000002], .regang ⟨false, 0⟩),
   ([0x1C800002], .yield ⟨false, 0⟩),
   ([0x1D000002], .exit ⟨false, 0⟩),
   ([0x5D000002, 0x00000000, 0x00A00000], .exit ⟨true, 2⟩),
   ([0x1D800002], .nop ⟨false, 0⟩),
   ([0x5D800002, 0x00000000, 0x00A00000], .nop ⟨true, 2⟩)]

theorem test_wordsControl0 : reads wordsControl0 = true := by decide +kernel

def wordsControl1 : List (List Nat × Instr) :=
  [([0x1E800002], .fsync ⟨false, 0⟩),
   ([0x20000002], .done ⟨false, 0⟩),
   ([0x1BFFFFFE], .loop ⟨false, 0⟩ true 63 16383),
   ([0x1B87000A], .loop ⟨false, 0⟩ false 7 2),
   ([0x1F509002], .wait ⟨false, 0⟩ (some 9) none (some 9) none none),
   ([0x5F000002, 0x0108313F, 0x00000000], .wait ⟨false, 0⟩ (some 1) (some 2) (some 3) (some 4) (some 63)),
   ([0x1FBC0002], .fence ⟨false, 0⟩ .die .ar),
   ([0x208CE002], .deq ⟨false, 0⟩ 12 3 true),
   ([0x5E7FFFFE, 0x80000001, 0x00A8A0A4], .fcall ⟨true, 2⟩ (-1) 0x80000001 2 40 41)]

theorem test_wordsControl1 : reads wordsControl1 = true := by decide +kernel

def wordsSystems : List (List Nat × Instr) :=
  [([0x7B004002, 0x00001234, 0x01000000], .trap (op .uu ⟨false, 0⟩ 0 0 (.imm 0x1234) 0 .b32 .dyn false .wave .rlx 0)),
   ([0x7B000002, 0x00000000, 0x02000000], .xret (op .uu ⟨false, 0⟩ 0 0 (.s 0) 0 .b32 .dyn false .wave .rlx 0)),
   ([0x7B000002, 0x00090000, 0x03000000], .xclr (op .uu ⟨false, 0⟩ 0 9 (.s 0) 0 .b32 .dyn false .wave .rlx 0)),
   ([0x7B004002, 0x09000004, 0x04000000], .cfgr (op .uu ⟨false, 0⟩ 9 0 (.imm 4) 0 .b32 .dyn false .wave .rlx 0)),
   ([0x7B004002, 0x00090000, 0x05000000], .cfgw (op .uu ⟨false, 0⟩ 0 9 (.imm 0) 0 .b32 .dyn false .wave .rlx 0)),
   ([0x7B000002, 0x00090A0B, 0x06000000], .live (op .uu ⟨false, 0⟩ 0 9 (.s 10) 11 .b32 .dyn false .wave .rlx 0)),
   ([0x7B000002, 0x00090000, 0x07000001], .tlbi (op .uu ⟨false, 0⟩ 0 9 (.s 0) 0 .b32 .dyn false .wave .rlx 1)),
   ([0x7B800002, 0x00080900, 0x01000001], .spawn (op .uu ⟨false, 0⟩ 0 8 (.s 9) 0 .b32 .dyn false .wave .rlx 1)),
   ([0x7B814002, 0x00081005, 0x02000000], .amsg (op .uu ⟨false, 0⟩ 0 8 (.imm 0x21005) 0 .b32 .dyn false .wave .rlx 0)),
   ([0x7B8F4002, 0x00080005, 0x03000000], .enq (op .uu ⟨false, 0⟩ 0 8 (.imm 0x1E0005) 0 .b32 .dyn false .wave .rlx 0)),
   ([0x7B800002, 0x07080000, 0x04000001], .dlaunch (op .uu ⟨false, 0⟩ 7 8 (.s 0) 0 .b32 .dyn false .wave .rlx 1))]

theorem test_wordsSystems : reads wordsSystems = true := by decide +kernel

def wordsUnits : List (List Nat × Instr) :=
  [([0x7C000000, 0x0008141E, 0x01000001], .trace (op .vv ⟨false, 0⟩ 0 8 (.v 20) 30 .b32 .dyn false .wave .rlx 1)),
   ([0x7C000000, 0x28000000, 0x02000001], .tget (op .vv ⟨false, 0⟩ 40 0 (.v 0) 0 .b32 .dyn false .wave .rlx 1)),
   ([0x7C000000, 0x28041400, 0x0300004F], .hgf (op .vv ⟨false, 0⟩ 40 4 (.v 20) 0 .b32 .dyn false .wave .rlx 79)),
   ([0x7C000000, 0x00041428, 0x04000001], .hgs (op .vv ⟨false, 0⟩ 0 4 (.v 20) 40 .b32 .dyn false .wave .rlx 1)),
   ([0x7C000000, 0x32061400, 0x05000000], .tex (op .vv ⟨false, 0⟩ 50 6 (.v 20) 0 .b32 .dyn false .wave .rlx 0)),
   ([0x7C000000, 0x32061600, 0x06000000], .tld (op .vv ⟨false, 0⟩ 50 6 (.v 22) 0 .b32 .dyn false .wave .rlx 0))]

theorem test_wordsUnits : reads wordsUnits = true := by decide +kernel

def wordsCommands0 : List (List Nat × Instr) :=
  [([0xFF800002, 0x00200000, 0x01400000, 0x00100003, 0x00000000], .tdefBytes (cp ⟨false, 0⟩ false 0 0 0 5 0 0 (some 0x100003))),
   ([0xFF800002, 0x00400000, 0x01800000, 0x00010008, 0x00030004], .tdefPlane (cp ⟨false, 0⟩ false 0 0 0 6 0 0 (some 0x3000400010008))),
   ([0x7F800002, 0x00600000, 0x01C00005], .tset (cp ⟨false, 0⟩ false 0 0 0 7 0 5 none)),
   ([0x7F800002, 0x00924000, 0x02000000], .tq (cp ⟨false, 0⟩ true 9 0 0 8 0 0 none)),
   ([0x7F800002, 0x10324A2C, 0x314001C5], .cpyLd (cp ⟨false, 3⟩ true 9 10 11 5 0 453 none)),
   ([0x7F800002, 0x10400A00, 0x01400045], .cpySt (cp ⟨false, 0⟩ false 0 10 0 5 0 69 none)),
   ([0xFF800002, 0x10600A30, 0x01400005, 0x00000040, 0x00000000], .cpyGth (cp ⟨false, 0⟩ false 0 10 12 5 0 5 (some 0x40))),
   ([0x7F800002, 0x10800A00, 0x01400018], .cpyWs (cp ⟨false, 0⟩ false 0 10 0 5 0 24 none)),
   ([0x7F800002, 0x10A00A00, 0x01400000], .cpyFill (cp ⟨false, 0⟩ false 0 10 0 5 0 0 none)),
   ([0xFF800002, 0x12000A2C, 0x00000410, 0x0000012C, 0x00000000], .glTopk (cp ⟨false, 0⟩ false 0 10 11 0 0 1040 (some 0x12C))),
   ([0xFF800002, 0x12200A2C, 0x00000200, 0x00000010, 0x3F800000], .glSmax (cp ⟨false, 0⟩ false 0 10 11 0 0 512 (some 0x3F80000000000010))),
   ([0x7F800002, 0x12504A2C, 0x00000100], .glSamp (cp ⟨false, 0⟩ true 1 10 11 0 0 256 none)),
   ([0x7F800002, 0x20308000, 0x00000005], .mlease (cp ⟨false, 0⟩ true 2 0 0 0 0 5 none)),
   ([0x7F800002, 0x20400000, 0x00000000], .mrel (cp ⟨false, 0⟩ false 0 0 0 0 0 0 none))]

theorem test_wordsCommands0 : reads wordsCommands0 = true := by decide +kernel

def wordsCommands1 : List (List Nat × Instr) :=
  [([0x7F800002, 0x20600310, 0x0146003C], .mmo (cp ⟨false, 0⟩ false 0 3 4 5 6 60 none)),
   ([0x7F800002, 0x20800000, 0x90000005], .mclr (cp ⟨true, 1⟩ false 0 0 0 0 0 5 none)),
   ([0x7F800002, 0x20A00300, 0x000000AB], .mdrain (cp ⟨false, 0⟩ false 0 3 0 0 0 171 none)),
   ([0x7F800002, 0x30308300, 0x00000000], .estAdv (cp ⟨false, 0⟩ true 2 3 0 0 0 0 none)),
   ([0x7F800002, 0x30400300, 0x00000000], .estClose (cp ⟨false, 0⟩ false 0 3 0 0 0 0 none))]

theorem test_wordsCommands1 : reads wordsCommands1 = true := by decide +kernel

/-- Words that are no instruction, refused by name: an unassigned primary, a minor opcode, a reserved bit, a literal without an immediate, a
modifier code (R64, R68, R72, R75). -/
theorem test_refused_words :
    decode (bytesOf [0x20800000 + 0x800000]) = .error .opcode ∧ decode (bytesOf [0x78000000, 0, 0x09000000]) = .error .minor ∧
    decode (bytesOf [0x40800004, 0, 0]) = .error .reserved ∧ decode (bytesOf [0x80800000, 0, 0]) = .error .literal ∧
    decode (bytesOf [0x40800000, 0, 0x000F0000]) = .error .modifier ∧ decode (bytesOf [0x18800000]) = .error .kind ∧
    decode (bytesOf [0x3F800002]) = .error .form ∧ decode [0, 0, 0] = .error .short := by decide +kernel


/-! ### States to test on -/

/-- One wave of a placed program, with everything a wave may have, in privileged mode (log 3). -/
def base : State := placeProgram State.reset []

/-- `base` with its wave changed. -/
def withW (f : Wave → Wave) : State := { base with waves := base.waves.map f }

/-- The wave that moves, of a state that has one. -/
def wv (s : State) : Wave := (findWave s 1).getD (newWave s 0 { core := 0, wctx := 0, vbase := 0, sbase := 0 } placedLaunch placedNode placedRecord 0)

/-- The state after an instruction or event; the state itself where it stops. -/
def after (i : Instr) (s : State) : State := match exec i s with | .next t => t | _ => s

/-- Whether the moving wave executes an instruction on some lane. -/
def issues (s : State) (i : Instr) : Bool :=
  match curWave s with
  | some w => legal s w i && !(guardLanes w i).isEmpty
  | none => false

theorem of_issues {s : State} {i : Instr} (h : issues s i = true) : ∃ w ls, Issues s i w ls := by
  unfold issues at h
  split at h
  · next w hw =>
    simp only [Bool.and_eq_true, Bool.not_eq_true', List.isEmpty_eq_false_iff] at h
    exact ⟨w, _, hw, h.1, rfl, h.2⟩
  · cases h

theorem all_issue {s : State} {is : List Instr} (h : is.all (issues s) = true) : ∀ i ∈ is, ∃ w ls, Issues s i w ls :=
  fun i hi => of_issues (List.all_eq_true.mp h i hi)

/-- An instruction issues on its moving wave with a property of the wave and the lanes. -/
def meets (s : State) (i : Instr) (H : Wave → List Nat → Bool) : Bool :=
  issues s i && (match curWave s with | some w => H w (guardLanes w i) | none => false)

theorem of_meets {s : State} {i : Instr} {H : Wave → List Nat → Bool} (h : meets s i H = true) : ∃ w ls, Issues s i w ls ∧ H w ls = true := by
  simp only [meets, Bool.and_eq_true] at h
  obtain ⟨w, ls, hi⟩ := of_issues h.1
  refine ⟨w, ls, hi, ?_⟩
  have h2 := h.2
  rw [hi.1] at h2
  rw [← hi.2.2.1]
  exact h2

/-- Values in the registers of lanes 0 and 1, k3 true in lane 0, s-registers and q2. -/
def regs0 (w : Wave) : Wave :=
  let w1 := [(0, 2, 0x80000000), (0, 3, 0xFFFFFFFF), (0, 4, 33), (0, 6, 0x7FFFFFFF), (0, 7, 1), (0, 8, 0x7FC00001), (0, 9, 0x80000000),
    (1, 2, 5), (1, 3, 7), (1, 4, 31), (1, 8, 0x3F800000)].foldl (fun (x : Wave) (p : Nat × Nat × W32) => wrV x p.1 p.2.1 p.2.2) w
  wrQ (wrK (wrS (wrS (wrS w1 2 0x8000000000000000) 3 0xFFFFFFFFFFFFFFFF) 4 64) 3 0 true) 2 true
def regs : State := withW regs0

/-- Operand forms: vector registers under a guard, an immediate, the drill. -/
def forms (t tu : Ty) (imm : W64) : List Ops :=
  [{ vo 10 2 3 0 t 0 with g := ⟨false, 3⟩ }, { vo 255 6 0 0 t 0 with k := .vi, b := .imm imm }, { go 10 2 imm 0 tu 0 with g := ⟨true, 1⟩ }]

/-! ### Integer, bit and predicate results -/

def isIntegerResults : List Instr :=
  List.flatten [(forms .i32 .i64 31).flatMap (fun o => [.iadd o, .iadd { o with sat := true }, .isub o, .imul o, .imulh o,
      .imin o, .imax o]),
    (forms .b32 .b64 31).flatMap (fun o => [.iand o, .ior o, .ixor o]),
    [vo 10 2 0 0 .b32 0, vo 10 2 0 0 .b64 0, so 10 2 0 0 .b64 0].flatMap (fun o => [.inot o, .ipopc o, .iclz o]),
    [.iabs (vo 10 2 0 0 .i32 0), .iabs { so 10 2 0 0 .i64 0 with sat := true }, .imad (vo 10 2 3 4 .n32 0), .imad (so 10 2 3 4 .i64 0)]]
theorem wit_IntegerResults : ∀ i ∈ isIntegerResults, ∃ w ls, Issues regs i w ls := all_issue (by decide +kernel)

def isShiftsAndBitFields : List Instr :=
  List.flatten [(forms .b32 .b64 31).flatMap (fun o => [.ishl o, .ishr o, .isra o]),
    [vo 10 2 4 7 .i32 0, vo 10 2 3 4 .n32 0, so 10 2 4 7 .i64 0, so 10 2 3 3 .i64 0].map Instr.ibfx,
    [vo 10 2 4 7 .b32 0, vo 10 2 7 4 .b32 0, so 10 2 4 7 .b64 0].map Instr.ibfi]
theorem wit_ShiftsAndBitFields : ∀ i ∈ isShiftsAndBitFields, ∃ w ls, Issues regs i w ls := all_issue (by decide +kernel)

def isComparisonsSelectsAndMoves : List Instr :=
  List.flatten [((List.range 6).map (fun x => vo 3 2 3 0 .i32 x) ++ [so 3 2 3 0 .n64 5]).map Instr.icmp,
    ((List.range 8).map (fun x => vo 3 8 9 0 .f32 x) ++ [so 3 2 3 0 .bf16 7]).map Instr.fcmp,
    [vo 10 2 3 3 .b32 0, vo 10 2 6 3 .b64 0, so 10 2 3 2 .b64 0].map Instr.isel,
    [vo 10 2 0 0 .b32 0, vo 10 2 0 0 .b64 0, so 10 2 0 0 .b64 0].map Instr.mov,
    [.movi { vo 10 0 0 0 .b32 0 with k := .vi, b := .imm 0xFFFFFFFF }, .movi (go 10 0 0xFFFFFFFFFFFFFFFF 0 .b64 0),
     .bcast { vo 10 0 0 0 .b64 0 with k := .vs, b := .s 2 }, .bcast { vo 10 0 0 0 .b32 0 with k := .vs, b := .s 3 }]]
theorem wit_ComparisonsSelectsAndMoves : ∀ i ∈ isComparisonsSelectsAndMoves, ∃ w ls, Issues regs i w ls := all_issue (by decide +kernel)

theorem wit_ResultsFillRegisters : (2 ^ Ty.bits .i8 - 1 < 2 ^ Ty.bits .i8 ∧ 254 < 255 ∧ Ty.is64 .i8 = false) ∧
    (2 ^ Ty.bits .b64 - 1 < 2 ^ Ty.bits .b64 ∧ Ty.is64 .b64 = true) := by decide

/-! ### Floating-point results -/

def isFloatInstructionsComplete : List Instr :=
  List.flatten [([vo 10 8 9 0 .f16 0, { so 10 2 3 0 .bf16 0 with rnd := .rz, sat := true }].flatMap
      (fun o => [.fadd o, .fsub o, .fmul o, .ffma { o with c := 8 }])),
    [vo 10 8 9 0 .f32 0, so 10 2 3 0 .f32 0].flatMap (fun o => [.fdiv o, .fmin o, .fmax o]),
    [vo 10 8 0 0 .f32 0, so 10 2 0 0 .f32 0].flatMap (fun o => [.fsqrt o, .fexp2 o, .flog2 o, .frcp o, .frsq o, .fsin o, .fcos o, .frnd o]),
    [vo 10 8 9 0 .f16 0, { vo 10 8 0 0 .f16 0 with k := .vs, b := .s 2 }].flatMap (fun o => [.hadd2 o, .hmul2 o, .hfma2 { o with c := 3 }]),
    [vo 10 8 0 0 .i8 3, vo 10 8 0 0 .f16 3, so 10 2 0 0 .f32 10, { so 10 2 0 0 .i8 1 with sat := true }].map Instr.cvt,
    (List.range 5).map (fun x => .pack (vo 10 8 9 0 .b32 x)),
    (List.range 8).map (fun x => .unpack (vo 10 8 0 0 .b32 x))]
theorem wit_FloatInstructionsComplete : ∀ i ∈ isFloatInstructionsComplete, ∃ w ls, Issues regs i w ls := all_issue (by decide +kernel)

theorem wit_FloatSpecialOperands :
    ([(Ty.f32, 0x7F800001), (.f16, 0xFC01), (.bf16, 0x7FFF)].all (fun p => expField p.1 p.2 == expOnes p.1 && !(mantField p.1 p.2 == 0))) = true ∧
    0x80800000 ≤ 0xFF7FFFFF ∧ 0xFF7FFFFF < 0xFF800000 := by decide

def isClassMasks : List Instr :=
  List.flatten [[vo 10 8 0 0 .f32 0, vo 10 2 0 0 .f16 0, so 10 2 0 0 .bf16 0].map Instr.fclass]
theorem wit_ClassMasks : ∀ i ∈ isClassMasks, ∃ w ls, Issues regs i w ls := all_issue (by decide +kernel)

/-! ### Lanes, special registers, random numbers -/

def isCrossLaneResults : List Instr :=
  List.flatten [[vo 10 2 3 4 .b32 0, vo 10 2 3 6 .b64 0x1B, { vo 10 2 0 4 .b32 0x40 with k := .vs, b := .s 4 }].map Instr.shfl,
    [vo 10 3 0 0 .b32 0, vo 10 3 0 0 .b32 1, vo 10 3 0 0 .b32 0x42, vo 10 2 0 0 .b32 3].map Instr.vote,
    [vo 10 2 0 3 .i32 0, vo 10 2 0 3 .i32 0x42, vo 10 8 0 9 .f32 8].map Instr.gred,
    [vo 10 2 0 3 .i32 1, vo 10 2 0 3 .b32 0x13].map Instr.gscan]
/-- A vote and a reduction into an s-register whose guard is false in every lane (R101). -/
def emptyO (x : Nat) : Ops := { vo 10 3 0 3 .b32 x with g := ⟨true, 0⟩ }
def emptyR : Ops := { vo 10 2 0 3 .i32 0x40 with g := ⟨true, 0⟩ }
theorem wit_CrossLaneResults : (∀ i ∈ isCrossLaneResults, ∃ w ls, Issues regs i w ls) ∧
    ([Instr.vote { emptyO 0x40 with c := 0 }, .vote { emptyO 0x41 with c := 0 }, .gred emptyR].all (fun i =>
      curWave regs == some (wv regs) && legal regs (wv regs) i && guardLanes (wv regs) i == [])) = true ∧
    laneDs (emptyO 0x40) = true ∧ laneDs emptyR = true :=
  ⟨all_issue (by decide +kernel), by decide +kernel, by decide, by decide⟩

def isSpecialRegistersAndRandomNumbers : List Instr :=
  List.flatten [[vo 10 0 0 0 .b32 0, vo 10 0x0C 0 0 .b32 0, so 10 0x10 0 0 .b32 0, so 10 0x0B 0 0 .b32 0, so 10 0x17 0 0 .b32 0].map Instr.gets,
    [so 0 0x0C 3 0 .b32 0, so 0 0x0D 3 0 .b32 0, so 0 0x10 3 0 .b32 0, so 0 0x11 3 0 .b32 0, so 0 0x17 3 0 .b32 0].map Instr.sets,
    [.rng { vo 10 2 0 0 .b64 63 with k := .vs, b := .s 3 }, .rng { vo 10 2 0 0 .f32 0 with k := .vs, b := .s 3 }, .rng (so 10 2 3 0 .b32 0)]]
theorem wit_SpecialRegistersAndRandomNumbers : (wv regs).trap.prv = true ∧ ∀ i ∈ isSpecialRegistersAndRandomNumbers, ∃ w ls, Issues regs i w ls := ⟨by decide +kernel, all_issue (by decide +kernel)⟩


/-! ### Results of one instruction, worked out from the rules -/

/-- Vector register 10 of a lane after an instruction on `regs`, and s10. -/
def r10 (i : Instr) (l : Nat) : W32 := rdV (wv (after i regs)) l 10
def s10 (i : Instr) : W64 := rdS (wv (after i regs)) 10

/-- 0x80000000 + 0xFFFFFFFF wraps, or clamps to the least value (R80, R85). -/
theorem test_iadd : r10 (.iadd (vo 10 2 3 0 .i32 0)) 0 = 0x7FFFFFFF ∧ r10 (.iadd { vo 10 2 3 0 .i32 0 with sat := true }) 0 = 0x80000000 := by
  decide +kernel
theorem test_isub : r10 (.isub { vo 10 3 2 0 .n32 0 with sat := true }) 1 = 2 ∧ r10 (.isub { vo 10 2 3 0 .n32 0 with sat := true }) 1 = 0 := by
  decide +kernel
/-- -2^31 times -1 is 2^31: its low word, and its high word 0 (R85). -/
theorem test_imul : r10 (.imul (vo 10 2 3 0 .i32 0)) 0 = 0x80000000 ∧ r10 (.imulh (vo 10 2 3 0 .i32 0)) 0 = 0 ∧
    r10 (.imulh (vo 10 2 3 0 .n32 0)) 0 = 0x7FFFFFFF := by decide +kernel
theorem test_imad : r10 (.imad (vo 10 2 3 4 .i32 0)) 1 = 66 ∧ s10 (.imad (so 10 3 3 4 .i64 0)) = 65 := by decide +kernel
theorem test_iabs : r10 (.iabs (vo 10 2 0 0 .i32 0)) 0 = 0x80000000 ∧ r10 (.iabs { vo 10 2 0 0 .i32 0 with sat := true }) 0 = 0x7FFFFFFF := by
  decide +kernel
theorem test_min_max : r10 (.imin (vo 10 2 3 0 .i32 0)) 0 = 0x80000000 ∧ r10 (.imax (vo 10 2 3 0 .i32 0)) 0 = 0xFFFFFFFF ∧
    s10 (.imin (so 10 2 3 0 .n64 0)) = 0x8000000000000000 := by decide +kernel
theorem test_bits : r10 (.iand (vo 10 6 3 0 .b32 0)) 0 = 0x7FFFFFFF ∧ r10 (.ior (vo 10 2 7 0 .b32 0)) 0 = 0x80000001 ∧
    r10 (.ixor (vo 10 3 6 0 .b32 0)) 0 = 0x80000000 ∧ r10 (.inot (vo 10 6 0 0 .b32 0)) 0 = 0x80000000 ∧
    s10 (.ipopc (so 10 3 0 0 .b64 0)) = 64 ∧ r10 (.iclz (vo 10 5 0 0 .b32 0)) 0 = 32 := by decide +kernel
/-- A count never wraps: 33 shifts everything out of a word (R86). -/
theorem test_shifts : r10 (.ishl (vo 10 3 4 0 .b32 0)) 0 = 0 ∧ r10 (.ishl (vo 10 3 4 0 .b32 0)) 1 = 0x80000000 ∧
    r10 (.ishr (vo 10 3 4 0 .b32 0)) 0 = 0 ∧ r10 (.isra (vo 10 2 4 0 .b32 0)) 0 = 0xFFFFFFFF := by decide +kernel
/-- Field of 7 bits at 5, by sign; insertion of 7 at 7 (R86). -/
theorem test_fields : r10 (.ibfx (vo 10 3 2 3 .i32 0)) 1 = 0 ∧ r10 (.ibfx { vo 10 3 2 3 .i32 0 with a := 4 }) 1 = 0 ∧
    r10 (.ibfi (vo 10 3 7 3 .b32 0)) 1 = 7 ∧ r10 (.ibfx (vo 10 8 2 3 .i32 0)) 1 = 0 := by decide +kernel
theorem test_icmp : rdK (wv (after (.icmp (vo 5 2 3 0 .i32 2)) regs)) 5 0 = true ∧ rdK (wv (after (.icmp (vo 5 2 3 0 .n32 4)) regs)) 5 0 = false ∧
    rdQ (wv (after (.icmp (so 3 2 3 0 .i64 2)) regs)) 3 = true := by decide +kernel
theorem test_isel : r10 (.isel (vo 10 2 3 3 .b32 0)) 0 = 0x80000000 ∧ r10 (.isel (vo 10 2 3 3 .b32 0)) 1 = 7 := by decide +kernel
theorem test_moves : s10 (.mov (so 10 2 0 0 .b64 0)) = 0x8000000000000000 ∧ r10 (.movi { vo 10 0 0 0 .b32 0 with k := .vi, b := .imm 5 }) 31 = 5 ∧
    r10 (.bcast { vo 10 0 0 0 .b32 0 with k := .vs, b := .s 3 }) 7 = 0xFFFFFFFF := by decide +kernel
/-- Class numbers of R94: 9 for a quiet NaN, 3 for -0. -/
theorem test_fclass : r10 (.fclass (vo 10 8 0 0 .f32 0)) 0 = 512 ∧ r10 (.fclass (vo 10 9 0 0 .f32 0)) 0 = 8 := by decide +kernel
/-- 1.0 + 1.0; a NaN gives the canonical NaN; 1 over -0 is -inf with DZ (R90, R93). -/
theorem test_float : r10 (.fadd (vo 10 8 8 0 .f32 0)) 1 = 0x40000000 ∧ r10 (.fmul (vo 10 8 9 0 .f32 0)) 0 = 0x7FC00000 ∧
    r10 (.frcp (vo 10 9 0 0 .f32 0)) 0 = 0xFF800000 ∧ r10 (.fcos (vo 10 9 0 0 .f32 0)) 0 = 0x3F800000 ∧
    r10 (.fmin (vo 10 8 9 0 .f32 0)) 0 = 0x80000000 ∧ r10 (.ffma (vo 10 8 8 8 .f32 0)) 1 = 0x40000000 ∧
    r10 (.fdiv (vo 10 8 8 0 .f32 0)) 1 = 0x3F800000 := by decide +kernel
/-- 1.0 as .f16 and as an integer; 33 as a float (R96). -/
theorem test_cvt : r10 (.cvt (vo 10 8 0 0 .f16 3)) 1 = 0x3C00 ∧ r10 (.cvt (vo 10 8 0 0 .i8 3)) 1 = 1 ∧ r10 (.cvt (vo 10 4 0 0 .f32 1)) 0 = 0x42040000 := by
  decide +kernel
/-- Lane 1 names lane 0; k3 is true in lane 0 alone; sums over the gang and over the lanes before (R100 to R102). -/
theorem test_lanes : r10 (.shfl (vo 10 2 7 4 .b32 0)) 1 = 0x80000000 ∧ r10 (.vote (vo 10 3 0 0 .b32 2)) 9 = 1 ∧
    r10 (.gred (vo 10 7 0 5 .i32 0)) 3 = 1 ∧ r10 (.gscan (vo 10 7 0 5 .i32 0x10)) 0 = 0 ∧ r10 (.gscan (vo 10 7 0 5 .i32 0x10)) 1 = 1 := by decide +kernel
/-- With no lane active, all votes are kept by every lane, none is found, and a sum is its start (R101). -/
theorem test_no_lanes : s10 (.vote { emptyO 0x40 with c := 0 }) = 1 ∧ s10 (.vote { emptyO 0x41 with c := 0 }) = 0 ∧
    s10 (.gred emptyR) = BitVec.ofNat 64 (opC (wv regs) emptyR .i32 0) := by decide +kernel
/-- Key 1 and counter 0 give the first value of the generator of R103 from seed 0, which its authors publish as 0xE220A8397B1DCDAF. -/
theorem test_rng : (let s := withW (fun w => wrS w 2 1)
    rdS (wv (after (.rng (so 10 2 3 0 .b64 0)) s)) 10) = 0xE220A8397B1DCDAF := by decide +kernel
theorem test_gets : r10 (.gets (vo 10 0 0 0 .b32 0)) 31 = 31 ∧ s10 (.gets (so 10 7 0 0 .b32 0)) = 0x100000000 := by decide +kernel
theorem test_sets : (wv (after (.sets (so 0 0x0C 3 0 .b32 0)) regs)).fpmode = 0x1F ∧ (wv (after (.sets (so 0 0x11 3 0 .b32 0)) regs)).trap.csel = 15 := by
  decide +kernel

/-! ### Memory -/

/-- Bases in s5 (memory), s6 (scratchpad), s7 (a peer handle naming the wave itself), lane offsets in v4, a handler. -/
def memW (w : Wave) : Wave :=
  let w1 := (List.range 32).foldl (fun x l => wrV (wrV x l 4 (BitVec.ofNat 32 l)) l 9 (BitVec.ofNat 32 (l + 1))) w
  let w2 := wrS (wrS (wrS (wrS (wrS w1 5 0x50000) 6 0x100) 7 0x200) 8 0xFFFFFFFFFFFFFFFC) 9 1023
  { w2 with trap := { w2.trap with xvec := 0x80000 } }
def ms : State := withW memW
/-- An operation of the wave in flight, number 0. -/
def flying (s : State) (cls : Option Cls) (act : Act) (rr : Option Nat) : State := addFlight s (whoOf (wv s)) cls act rr
def fl0 (s : State) : Flight := s.flights.getD 0 { id := 0, who := whoNone 0 0 0, cls := none, act := .nop, rr := none, held := false, tick := none, vis := none, skip := [] }
def padA (lane off : Nat) : Acc := { lane := lane, loc := .pad 1 off, va := off, page := pageNormal }
/-- A place in memory that no L1 keeps. -/
def memA (lane pa : Nat) : Acc := { lane := lane, loc := .mem pa, va := pa, page := { pageNormal with cl := 1 } }
def laneOk (r : Except (List (Nat × LaneFault)) (List Acc)) (s : State) (n : Nat) : Bool :=
  match r with | .ok as => !as.any (accTileBusy s n) | .error _ => false
def isOk {ε α : Type} (r : Except ε α) : Bool := match r with | .ok _ => true | .error _ => false

/-- A handle that names wave context 5, where no wave is. -/
def goneW : State := withW (fun w => wrS (memW w) 7 (5 * 2 ^ 32 + 0x200))
/-- A leaf of the weight store at 2^30, whose bank 0 is in refresh at the start. -/
def weightS : State := withW memW |> fun s => { s with mem := memPutNat s.mem (placedTable + 8) 8 (2 ^ 40 + 0x47), waves := s.waves.map (fun w => wrS w 5 (2 ^ 30)) }

/-- Addresses at both ends: the last word of the scratchpad, one past it, an address past 2^56, one that is not aligned. -/
theorem wit_AddressesAndChecks :
    isOk (padAcc (wv ms) (fun _ => 65532) 4 0) = true ∧ isOk (padAcc (wv ms) (fun _ => 65536) 4 0) = false ∧
    isOk (padAcc (wv ms) (fun _ => 65534) 4 0) = false ∧ (eaOf (wv ms) (vo 1 8 4 0 .b32 2) 2 1).toNat = 0 ∧
    translate ms 1 0x50000 = some (0x1F, 30) ∧ translate ms 1 (2 ^ 56) = none ∧ isOk (checkMem ms 1 false .load (2 ^ 30 - 4) 4) = true ∧
    isOk (checkMem ms 1 false .load (2 ^ 30) 4) = false ∧ isOk (checkMem ms 1 false .estRead 0x50000 4) = false ∧
    isOk (checkMem ms 1 false .fetch 0x50000 4) = true ∧ goneW.waves.all (fun x => !(x.wctx == 5)) = true ∧
    (0x200 : Int) % 4 = 0 ∧ (5 * 2 ^ 32 + 0x200) / 2 ^ 40 = 0 := by decide +kernel

theorem wit_LoadsIssue :
    ([(vo 10 5 4 0 .b32 2), { vo 10 5 0 0 .b64 0 with k := .vs, b := .s 6, ord := .acq, sc := .pkg }, { vo 10 5 0 0 .i8 0 with k := .vi, b := .imm 3 }].all
      (fun o => meets ms (.ld o) (fun w ls => decide (NoForks ms w) && decide (counter ms w.uid .ld < 63) &&
        laneOk (gather (memAcc ms w .load (eaOf w o o.x) (Machine.sizeOf o)) (accLanes o ls)) ms (Machine.sizeOf o)))) = true ∧
    (let o := so 10 5 6 0 .b64 0
     meets ms (.ldu o) (fun w ls => decide (NoForks ms w) && decide (counter ms w.uid .ld < 63) &&
       laneOk (gather (memAcc ms w .load (eaOf w o o.x) 8) (accLanes o ls)) ms 8)) = true ∧
    (let o := vo 10 6 4 0 .b32 2
     meets ms (.lds o) (fun w ls => decide (NoForks ms w) && laneOk (gather (padAcc w (eaOf w o o.x) 4) (accLanes o ls)) ms 4)) = true ∧
    (let o := vo 10 7 4 0 .b32 2
     meets ms (.ldp o) (fun w ls => decide (NoForks ms w) && laneOk (gather (peerAcc ms w o 4) (accLanes o ls)) ms 4)) = true := by decide +kernel

theorem wit_StoresIssue :
    ([(vo 9 5 4 0 .b32 2), { vo 9 5 4 0 .b32 2 with ord := .rel, sc := .die }, { vo 9 5 4 0 .b8 0 with ord := .rel, sc := .sys }].all
      (fun o => meets ms (.st o) (fun w ls => decide (NoForks ms w) && decide (ReleaseReady ms w true) &&
        (match gather (memAcc ms w .store (eaOf w o o.x) (Machine.sizeOf o)) (accLanes o ls) with
         | .ok as => !as.any (accTileBusy ms 4) &&
             decide ((coreAt ms w.die w.core).relb.length + (splitLazy o (lastLanes (as.map (fun a => (a, opD w o o.ty a.lane))))).1.length ≤ 16)
         | .error _ => false)))) = true ∧
    (let o := so 10 5 6 0 .b64 0
     meets ms (.stu o) (fun w ls => decide (NoForks ms w) && laneOk (gather (memAcc ms w .store (eaOf w o o.x) 8) (accLanes o ls)) ms 8)) = true ∧
    (let o := vo 9 6 4 0 .b32 2
     meets ms (.sts o) (fun w ls => decide (NoForks ms w) && laneOk (gather (padAcc w (eaOf w o o.x) 4) (accLanes o ls)) ms 4)) = true ∧
    (let o := vo 9 7 4 0 .b32 2
     meets ms (.stp o) (fun w ls => decide (NoForks ms w) && laneOk (gather (peerAcc ms w o 4) (accLanes o ls)) ms 4)) = true := by decide +kernel

/-- A load of two lanes in flight, from the scratchpad and from memory: .i8 at 0x100 and 0x20001. -/
def ldS : State := flying { putMem (padWrite ms 1 0x100 [0x80]) 0x20001 [0x7F] with turn := .idle } (some .ld)
  (.load { uid := 1, vec := true, reg := 10, ty := .i8 } 1 [padA 0 0x100, memA 5 0x20001] none) none
def lduS : State := flying (padWrite ms 1 0x100 [0x80]) (some .ld) (.load { uid := 1, vec := false, reg := 127, ty := .b8 } 1 [padA 0 0x100] none) none

theorem wit_LoadCompletionWritesRegisters :
    (InFlight ldS 0 (fl0 ldS) ∧ QuietPath ldS (fl0 ldS) ∧ (findWave ldS 1).isSome = true ∧ padPoisoned ldS 1 0x100 1 = false ∧
      0x20001 % 32 + 1 ≤ 32 ∧ 0x20001 / 32 ∉ ldS.poison ∧ weightWaits ldS (fl0 ldS).who false (padA 0 0x100) = false ∧
      weightWaits ldS (fl0 ldS).who false (memA 5 0x20001) = false) ∧
    (InFlight lduS 0 (fl0 lduS) ∧ QuietPath lduS (fl0 lduS) ∧ (findWave lduS 1).isSome = true) := by decide +kernel

/-- A load of two lanes from a normal page with CL = 00: the L1 has the first lane's sector and fetches the second's. -/
def nearA (lane pa : Nat) : Acc := { lane := lane, loc := .mem pa, va := pa, page := pageNormal }
def l1LdS : State :=
  flying (putCore ms 0 0 { coreAt ms 0 0 with l1 := [{ line := 0x200, asid := 0, sectors := [(1, List.replicate 32 0x87)], bad := [] }] }) (some .ld)
    (.load { uid := 1, vec := true, reg := 10, ty := .i16 } 2 [nearA 0 0x20020, nearA 7 0x2007E] none) none
theorem wit_LoadCompletionThroughL1 :
    InFlight l1LdS 0 (fl0 l1LdS) ∧ (findWave l1LdS 1).isSome = true ∧ shadowsOf l1LdS (fl0 l1LdS).who.uid (fun _ _ => true) = [] ∧
    (∀ a ∈ [nearA 0 0x20020, nearA 7 0x2007E], weightWaits l1LdS (fl0 l1LdS).who false a = false ∧ a.page.ptype = .normal ∧ a.page.cl = 0) ∧
    ((fl0 l1LdS).vis.isNone && pathBusy l1LdS (fl0 l1LdS).who.uid (fl0 l1LdS).id (actAccs (fl0 l1LdS).act)) = false ∧
    (∀ v ∈ cachedReads (fl0 l1LdS).who 2 [nearA 0 0x20020, nearA 7 0x2007E] l1LdS, v.2.2 = false) := by decide +kernel
/-- Lane 0 takes the bytes that stand in the L1, whatever stands at the home, extended by sign (R82, R176). -/
theorem test_load_through_l1 : rdV (wv (after (.loadCompletion 0) l1LdS)) 0 10 = 0xFFFF8787 ∧
    rdV (wv (after (.loadCompletion 0) l1LdS)) 7 10 = 0 := by decide +kernel

/-- An .i8 load extends its byte by sign into the lane's register (R82, R188). -/
theorem test_load_completes : rdV (wv (after (.loadCompletion 0) ldS)) 0 10 = 0xFFFFFF80 ∧ rdV (wv (after (.loadCompletion 0) ldS)) 5 10 = 0x7F ∧
    rdBank (wv (after (.loadCompletion 0) lduS)) 127 = 0x80 ∧ counter (after (.loadCompletion 0) ldS) 1 .ld = 0 := by decide +kernel

def l1S : State := putCore ms 0 0 { coreAt ms 0 0 with l1 := [{ line := 0x200, asid := 0, sectors := [(1, List.replicate 32 7)], bad := [] }] }
/-- The quad holds a current replica of another sector of the line (R181). -/
def repS : State := putQuad l1S 0 { quadAt l1S 0 with l2 := [{
  line := 0x200, way := 0, evp := 0, cmp := false, sectors := [2], dirty := false
  rep := some (0, { line := 0x200, asid := 0, sectors := [(2, List.replicate 32 9)], bad := [] }) }] }
/-- What the L1 holds comes from the L1, what it lacks from the replica (R176, R181). -/
theorem test_core_reads : (coreRead repS 0 0 pageNormal .cached 0x20020 2).2 = ([7, 7], false) ∧
    (coreRead repS 0 0 pageNormal .cached 0x20040 2).2 = ([9, 9], false) := by decide +kernel
/-- A poisoned line of the L1 and a poisoned replica give POISON; a store over the whole sector heals the L1 (R404, R406). -/
theorem test_poisoned_copies :
    (coreRead (after (.uncorrectableError (.copy .l1 0 0 0x20000)) repS) 0 0 pageNormal .cached 0x20020 2).2.2 = true ∧
    (coreRead (after (.uncorrectableError (.copy .replica 0 0 0x20040)) repS) 0 0 pageNormal .cached 0x20040 2).2.2 = true ∧
    lineBad (coreAt (addSeen (after (.uncorrectableError (.copy .l1 0 0 0x20000)) repS) (whoOf (wv ms)) none 8
      ((List.range 4).map (fun i => (memA i (0x20020 + 8 * i), 0)))) 0 0).l1 0x20020 = false := by decide +kernel
theorem wit_CoreCaches :
    lineSector (coreAt l1S 0 0).l1 0x20020 = some (List.replicate 32 7) ∧
    (lineSector (coreAt l1S 0 0).l1 0x20040 = none ∧ repSector (quadAt l1S 0) 0x20040 = none ∧ 0x20040 / 32 ∉ l1S.poison ∧ (coreAt l1S 0 0).spw < 8) ∧
    (let s := { l1S with poison := [0x20040 / 32] }
     lineSector (coreAt s 0 0).l1 0x20040 = none ∧ repSector (quadAt s 0) 0x20040 = none ∧ 0x20040 / 32 ∈ s.poison) ∧
    (lineSector (coreAt (after (.uncorrectableError (.copy .l1 0 0 0x20000)) repS) 0 0).l1 0x20020 = some (List.replicate 32 7) ∧
      lineBad (coreAt (after (.uncorrectableError (.copy .l1 0 0 0x20000)) repS) 0 0).l1 0x20020 = true) ∧
    (repBad (quadAt repS 0) 0x20040 = false ∧ repBad (quadAt (after (.uncorrectableError (.copy .replica 0 3 0x20040)) repS) 0) 0x20040 = true) ∧
    repSector (quadAt repS 0) 0x20040 = some (List.replicate 32 9) ∧ (wv ms).fork = none ∧ (∃ l ∈ accLanes (vo 0 5 4 0 .b32 2) [0, 1], prefetchWaits weightS (wv weightS) (vo 0 5 4 0 .b32 2) l = true) ∧ issues weightS (.pf (vo 0 5 4 0 .b32 2)) = true ∧
    issues ms (.pf (vo 0 5 4 0 .b32 2)) = true ∧ issues ms (.pf (go 0 5 0x7FFFFFFFFFFFFFF0 0 .b32 8)) = true := by decide +kernel

theorem wit_AtomicsIssue :
    ([{ vo 10 5 4 9 .i32 0x20 with sc := .pkg }, { vo 10 5 4 9 .b64 0x37 with a := 6, c := 12, sc := .die, ord := .ar, x := 0x37 },
      { so 10 5 6 9 .f32 8 with sc := .quad, ord := .acq }].all
      (fun o => meets ms (.atom o) (fun w ls => decide (NoForks ms w) && decide (ReleaseReady ms w true) && decide (counter ms w.uid .ld < 63) &&
        (match gather (memAcc ms w .atomic (eaOf w o (o.x / 16)) (Machine.sizeOf o)) (accLanes o ls) with
         | .ok as => as.all (fun a => !atomNow ms w o.sc (Machine.sizeOf o) a)
         | .error _ => false)))) = true ∧
    (let o := { vo 0 5 4 9 .i32 0x20 with sc := .sys, ord := .rel }
     meets ms (.red o) (fun w ls => decide (NoForks ms w) && decide (ReleaseReady ms w true) && decide (counter ms w.uid .st < 63) &&
        (match gather (memAcc ms w .atomic (eaOf w o (o.x / 16)) (Machine.sizeOf o)) (accLanes o ls) with
         | .ok as => as.all (fun a => !atomNow ms w o.sc (Machine.sizeOf o) a)
         | .error _ => false))) = true ∧
    2 ^ Ty.bits .i32 - 1 < 2 ^ Ty.bits .i32 := by decide +kernel

/-- Two lanes that add 0xFFFFFFFF and 3 to the word 2 at 0x20000. -/
def atomS : State := flying (putMem ms 0x20000 [2, 0, 0, 0]) (some .ld)
  (.atom (some { uid := 1, vec := true, reg := 10, ty := .i32 }) 0 .i32 [(memA 0 0x20000, 0xFFFFFFFF, 0), (memA 1 0x20000, 3, 0)] .pkg .rlx) none
def redS : State := flying ms (some .st) (.atom none 7 .b32 [(memA 0 0x2001C, 0, 5)] .pkg .rlx) none
theorem wit_AtomicsPerform :
    (InFlight atomS 0 (fl0 atomS) ∧ QuietPath atomS (fl0 atomS) ∧ (atomLocal .pkg (memA 0 0x20000) = false ∧ atomLocal .pkg (memA 1 0x20000) = false) ∧
      shadowsOf atomS 1 (fun _ _ => true) = [] ∧ 0x20000 % 32 + 4 ≤ 32 ∧
      0x20000 / 32 ∉ atomS.poison ∧ (findWave atomS 1).isSome = true) ∧
    (InFlight redS 0 (fl0 redS) ∧ QuietPath redS (fl0 redS) ∧ 0x2001C % 32 + 4 ≤ 32) := by decide +kernel
/-- Lanes work in ascending order: each gets what the lanes before it left (R201). -/
theorem test_atomic_lanes : rdV (wv (after (.loadCompletion 0) atomS)) 0 10 = 2 ∧ rdV (wv (after (.loadCompletion 0) atomS)) 1 10 = 1 ∧
    memNat (after (.loadCompletion 0) atomS).mem 0x20000 4 = 4 ∧ memNat (after (.storeCompletion 0) redS).mem 0x2001C 4 = 5 := by decide +kernel

theorem wit_FencesAndWaits :
    ([(Scope.wave, Ord.acq), (.core, .rel), (.quad, .ar), (.die, .acq), (.sys, .ar)].all
      (fun p => meets ms (.fence gd p.1 p.2) (fun w _ => decide (NoForks ms w) && decide (ReleaseReady ms w true) && counter ms w.uid .ld == 0))) = true ∧
    meets ms (.wait gd (some 0) (some 0) (some 0) (some 63) (some 0)) (fun w _ => decide (ReleaseReady ms w true) &&
      [Cls.ld, .st, .cp, .mx, .tx].all (fun c => counter ms w.uid c == 0)) = true ∧
    meets (addFlight ms (whoOf (wv ms)) (some .ld) .nop none) (.wait gd (some 1) none none none none) (fun w _ => counter (addFlight ms (whoOf (wv ms)) (some .ld) .nop none) w.uid .ld == 1) = true := by decide +kernel

/-- A wave held at a barrier in phase 0, and one that the end of a phase has released (R207). -/
def holdS (phase : Nat) (b : Bool) : State := withW (fun w => { memW w with barHold := some { off := 0x100, phase := phase, released := b } })
theorem wit_BarrierOperationsIssue :
    (let o := go 0 6 1023 0 .b32 0
     meets ms (.barInit o) (fun w _ => decide (NoForks ms w) && decide (counter ms w.uid .st < 63) &&
       isOk (barAddr ms w (bitAt o.x 0) (rdS w o.a) (badCount (opB w o .b64 0))))) = true ∧
    ([go 0 6 1 0 .b32 0, { go 0 7 1 0 .b32 1 with b := .s 9 }].all (fun o => meets ms (.barArr o) (fun w _ => decide (ReleaseReady ms w true) &&
       isOk (barAddr ms w (bitAt o.x 0) (rdS w o.a) (badCount (opB w o .b64 0)))))) = true ∧
    (let o := go 0 7 0 0 .b32 1
     meets ms (.barExp o) (fun w _ => decide (ReleaseReady ms w true) && isOk (barAddr ms w true (rdS w o.a) false))) = true ∧
    (let o := go 0 6 0 0 .b32 0
     meets ms (.barWait o) (fun w _ => isOk (barAddr ms w false (rdS w o.a) false) && (barAt ms 1 0x100).phase == opB w o .b64 0 % 4096)) = true ∧
    (let o := go 0 6 4095 0 .b32 0
     meets ms (.barWait o) (fun w _ => isOk (barAddr ms w false (rdS w o.a) false) && !((barAt ms 1 0x100).phase == opB w o .b64 0 % 4096))) = true ∧
    (wv ms).barHold = none ∧
    pathBusy ms 1 ms.nextFid [({ lane := 0, loc := .pad 1 0x100, va := 0, page := pageNormal }, 16)] = false ∧
    (let o := go 0 6 0 0 .b32 0
     [false, true].all (fun b => meets (holdS 0 b) (.barWait o) (fun w _ => decide (NoForks (holdS 0 b) w) &&
       isOk (barAddr (holdS 0 b) w false (rdS w o.a) false) && w.barHold == some { off := 0x100, phase := 0, released := b } &&
       (barAt (holdS 0 b) 1 0x100).phase == opB w o .b64 0 % 4096))) = true := by
  decide +kernel

def barS (op : BarOp) : State := flying ms (some .st) (.bar 1 0x100 op) none
/-- One arrival after a barrier was set up for one: the phase ends (R206, R207). -/
def barS3 : State := flying (updHolder (after (.barrierOperation 0) (barS (.init 1))) 1 (fun w => { w with
  barHold := some { off := 0x100, phase := 0, released := false } })) (some .st) (.bar 1 0x100 (.arr 1)) none
def barS2 : State := flying (after (.barrierOperation 0) (barS (.init 1))) (some .st) (.bar 1 0x100 (.arr 1)) none
theorem wit_BarrierKeeper :
    ([BarOp.init 1023, .arr 1, .exp 16].all (fun op => decide (InFlight (barS op) 0 (fl0 (barS op))) &&
      !pathBusy (barS op) 1 0 (actAccs (.bar 1 0x100 op)) && (holder (barS op) 1).isSome)) = true ∧ (InFlight barS2 1 (fl0 barS2)) ∧
    (InFlight barS3 1 (fl0 barS3) ∧ (wv barS3).barHold = some { off := 0x100, phase := 0, released := false }) := by decide +kernel
theorem test_barrier_phase : barAt (after (.barrierOperation 1) barS2) 1 0x100 = { ovr := false, reload := 1, await := 1, phase := 1, bytes := 0 } ∧
    (barAt (after (.barrierOperation 0) (barS (.arr 1))) 1 0x100).ovr = true ∧
    (wv (after (.barrierOperation 1) barS3)).barHold = some { off := 0x100, phase := 0, released := true } := by decide +kernel

/-- A store of 8 lanes over one whole sector that is poisoned. -/
def healS : State := { flying ms (some .st) (.store 4 ((List.range 8).map (fun i => (memA i (0x20000 + 4 * i), i)))) none with poison := [0x1000, 0x1001] }
/-- A store of two lanes in flight: to the scratchpad and to memory; a lazy release that is due; a store that will be found poisoned. -/
def stS : State := flying ms (some .st) (.store 4 [(padA 0 0x100, 0x11223344), (memA 1 0x20000, 0x55667788)]) none
def lazyE : RelEnt := { fid := 5, who := whoOf (wv ms), va := 0x30004, pa := 0x20004, size := 4, val := 0xAABBCCDD, page := pageNormal, sc := .pkg, recorded := true, due := true }
def lazyS : State := putCore ms 0 0 { coreAt ms 0 0 with relb := [lazyE] }
theorem wit_StoreEvents :
    (InFlight healS 0 (fl0 healS) ∧ QuietPath healS (fl0 healS) ∧ locHit (memA 7 0x2001C).loc 4 (.mem (32 * 0x1000 + 31)) 1 = true ∧
      locHit (memA 7 0x2001C).loc 4 (.mem (32 * 0x1001)) 32 = false) ∧
    (InFlight stS 0 (fl0 stS) ∧ QuietPath stS (fl0 stS) ∧ (holder stS 1).isSome = true ∧ locHit (.pad 1 0x100) 4 (.mem 0x20000) 4 = false) ∧
    lazyHead (coreAt lazyS 0 0) = some lazyE ∧
    (findFlight lazyS 5 = none ∧ lazyS.cores.findSome? (fun c => (lazyHead c.2).bind (fun e => if e.fid == 5 then some (c.1, e) else none)) = some (0, lazyE) ∧
      (findCtx lazyS lazyE.who.asid).isSome = true) ∧ (∀ g ∈ stS.flights, g.id < stS.nextFid) ∧ recordBusy stS (fl0 stS) (releaseRanges stS (fl0 stS)) = false ∧
    (storeSectors 4 [(padA 0 0x100, 0x11223344), (memA 1 0x20000, 0x55667788)] ≠ [] ∧ 0 ≠ stS.nextFid ∧ (findCtx stS 1).isSome = true) := by
  decide +kernel
theorem test_store_events : memNat (after (.storeCompletion 0) stS).mem 0x20000 4 = 0x55667788 ∧
    padRead (after (.storeCompletion 0) stS) 1 0x100 4 = [0x44, 0x33, 0x22, 0x11] ∧
    memNat (after (.lazyWriteBack 0 0) lazyS).mem 0x20004 4 = 0xAABBCCDD ∧ (coreAt (after (.lazyWriteBack 0 0) lazyS) 0 0).relb = [] ∧
    (after (.storeCompletion 0) healS).poison = [0x1001] ∧
    (after (.lateError 0) stS).poison = [0x1000] ∧
    (after (.lateError 5) lazyS).poison = [0x1000] ∧ (coreAt (after (.lateError 5) lazyS) 0 0).relb = [] := by decide +kernel

/-- Edges of the address map (R167): the last bytes of main memory, the weight stores outside refresh, the first byte of no range. -/
theorem wit_HostAccessesMemory : (∀ c ∈ ms.cores, c.2.relb = []) ∧
    (0 < 4 ∧ (2 ^ 40 - 4) + 4 ≤ 2 ^ 40) ∧
    (let s := { ms with waves := [], time := 1000 }
     0x010200000000 - 1 + 1 ≤ 0x010200000000 ∧ s.waves.all (fun w => !(w.die == homeDie 0x0101FFFFFFFF)) = true ∧
       (linesOf 0x0101FFFFFFFF 1).all (fun l => !inRefresh s.time (bankOf l)) = true) ∧
    (isDevice 0x0F0000000000 = true ∧ isDevice (0x0F0000000000 + 8 - 1) = true) ∧
    (ms.waves.any (fun w => w.die == homeDie 0x010000000000)) = true ∧
    (0x010200000000 ≤ 0x010200000000 ∧ 0x010200000000 < 0x0F0000000000) ∧ 0x20000 / 32 ∉ ms.poison := by decide +kernel
theorem test_host_accesses :
    memNat (after (.hostAccess (2 ^ 40 - 4) 4 [1, 2, 3, 4]) ms).mem (2 ^ 40 - 4) 4 = 0x04030201 ∧
    memNat (after (.hostDmaWeightWrite 0x0101FFFFFFFF [9]) { ms with waves := [], time := 1000 }).mem 0x0101FFFFFFFF 1 = 9 ∧
    memNat (after (.hostAtomic .cas 0x20000 4 0 7) ms).mem 0x20000 4 = 7 ∧
    memNat (after (.hostAtomic .fetchAdd 0x50000 8 0xFFFFFFFFFFFFFFFF 0) ms).mem 0x50000 8 = 0xFFFFFFFFFFFFFFFF := by decide +kernel

/-! ### Estimators -/

def kernelNode : Node :=
  { valid := true, sink := false, entry := 0x40000, rerun := false, aff := false,
    foot := { slices := 2, vregs := 32, spad := 1024, tiles := 0, forks := 0, mx := false }, spill := 0x70000, log2 := 4, cnt := 0 }
def region0 : Region :=
  { valid := true, base := 0x40000000, count := 64, ord := false, ovf := false, rs := true, node := 1, dec := 0, epoch := 5, known := 5,
    minw := 0, rho := 0, left := 1, budget := 1, stage := 0x60000, sfill := 0, scap := 4, desc := 0x30000 }
def ctx2 : Ctx := { placedCtx with ncnt := 2, nodes := [placedNode, kernelNode], errn := 1,
                                   regions := [region0, { region0 with base := 0x40000400, ord := true, rs := false, desc := 0x30040 }] }
/-- The second gigabyte is an estimator page; two regions; cell offsets in v4, samples in v10 to v13, s10 and s11 the regions' bases. -/
def es : State :=
  let s := withW (fun w =>
    let w1 := (List.range 4).foldl (fun x l => wrV (wrV (wrV (wrV (wrV x l 4 (BitVec.ofNat 32 (l % 4))) l 10 0x40000000) l 11
      (if l = 2 then 0x7FC00000 else if l = 3 then 0 else 0x3F800000)) l 12 0x3F800000) l 13 2) w
    { (wrS (wrS (wrS { w1 with k := [(3, 15)] } 10 0x40000000) 11 0x40000400) 12 1) with weight := 9, trap := { w1.trap with xvec := 0x80000 } })
  { (putMem s (placedTable + 8) (leBytes 8 0x4000002F)) with ctxs := [ctx2] }
/-- Guarded by k3, true in lanes 0 to 3. -/
def g3 (o : Ops) : Ops := { o with g := ⟨false, 3⟩ }
def cellsOk (s : State) (w : Wave) (o : Ops) (k : AKind) (ls : List Nat) : Bool := isOk (gather (cellAt s w o k) ls)

theorem wit_EstimatorInstructions :
    ([g3 (vo 10 10 4 0 .b32 4), g3 (vo 10 11 4 0 .b32 4)].all (fun o =>
      meets es (.estAdd o) (fun w ls => decide (NoForks es w) && decide (counter es w.uid .st < 63) && cellsOk es w o .estWrite ls &&
        decide ((coreAt es w.die w.core).ecb.length + ls.length ≤ 64)))) = true ∧
    (let o := g3 (vo 10 10 4 0 .b32 4)
     meets es (.estMrg o) (fun w ls => cellsOk es w o .estWrite ls)) = true ∧
    ([g3 (vo 20 10 4 0 .b32 4), g3 (vo 20 10 4 0 .b32 12)].all (fun o =>
      meets es (.estLd o) (fun w ls => decide (counter es w.uid .ld < 63) && cellsOk es w o .estRead ls && decide (2 ≤ w.weight)))) = true ∧
    (let o := g3 (vo 0 10 4 0 .b32 4)
     meets es (.estClr o) (fun w ls => cellsOk es w o .estWrite ls)) = true ∧
    meets es (.estAdv (co true 5 12 0 0 0 0 none)) (fun w _ => decide ((rdS w 12).toNat < 256) &&
      (match regionOf es w.asid (rdS w 12).toNat with | some r => r.valid | none => false)) = true ∧
    meets es (.estClose (co false 0 12 0 0 0 0 none)) (fun w _ => (regionOf es w.asid (rdS w 12).toNat).isSome) = true :=
  ⟨by decide +kernel, by decide +kernel, by decide +kernel, by decide +kernel, by decide +kernel, by decide +kernel⟩

/-- Operands of every form, cells of both regions, an `est.ld` that asks for no reseed and one that asks for them. -/
theorem wit_EstimatorInstructionsComplete :
    (∀ x ∈ es.waves, x.fork = none) ∧
    ([vo 10 10 4 0 .b32 4, vo 10 11 4 0 .b32 4, { vo 10 10 0 0 .b32 0 with k := .vs, b := .s 2 }, { vo 10 10 0 0 .b32 0 with k := .vi, b := .imm 16 }].all
      (fun o => meets es (.estAdd (g3 o)) (fun w ls => decide (counter es w.uid .st < 63) && cellsOk es w (g3 o) .estWrite ls) &&
        meets es (.estMrg (g3 o)) (fun w ls => cellsOk es w (g3 o) .estWrite ls) &&
        meets es (.estClr { g3 o with d := 0 }) (fun w ls => cellsOk es w { g3 o with d := 0 } .estWrite ls))) = true ∧
    meets es (.estLd (g3 (vo 20 10 4 0 .b32 12))) (fun w ls => decide (counter es w.uid .ld < 63) && cellsOk es w (g3 (vo 20 10 4 0 .b32 12)) .estRead ls &&
      (12 : Nat).testBit 3) = true ∧
    (let o := { vo 20 10 4 0 .b32 4 with g := ⟨false, 4⟩ }
     let s := { es with waves := es.waves.map (fun w => { w with k := [(4, 7)] }) }
     meets s (.estLd o) (fun w ls => match gather (cellAt s w o .estRead) ls with
       | .ok cs => decide (2 ^ cs.length ≤ w.weight)
       | .error _ => false)) = true ∧
    [co true 5 12 0 0 0 0 none, co false 0 12 0 0 0 0 none].all (fun c =>
      meets es (.estAdv c) (fun w _ => decide (counter es w.uid .st < 63) && decide ((rdS w c.sa).toNat < 256) &&
        (match regionOf es w.asid (rdS w c.sa).toNat with | some r => r.valid | none => false)) && issues es (.estClose c)) = true :=
  ⟨by decide +kernel, by decide +kernel, by decide +kernel, by decide +kernel, by decide +kernel⟩

def estT : State := after (.estAdd (g3 (vo 10 10 4 0 .b32 4))) es
def estU : State := after (.estAdd (g3 (vo 10 11 4 0 .b32 4))) es
/-- Samples of value 2.0 and weight 1.0 for two cells; lane 2's NaN weight raises NV, lane 3's zero is dropped (R240, R251). -/
theorem test_est_add : ((coreAt estT 0 0).ecb.length, (wv estT).fpflags, counter estT 1 .st, stGet 0 0 (wv estT).seqs) = (2, 1, 1, 0) ∧
    ((coreAt estU 0 0).ecb.length, counter estU 1 .st, stGet 0 1 (wv estU).seqs) = (0, 1, 1) := by decide +kernel

def cell0 : CellRef := { asid := 1, region := 0, idx := 0, pa := 0x40000000 }
def sample : Partial := { m := 0x40000000, s := 0, w := 0x3F800000, n := 1 }
def staged0 : Staged := { part := sample, lane := 3, cell := 0, seq := 1, widx := 2, lno := 3 }
def inFl (s : State) (act : Act) : State := flying s none act none
/-- A cell with values, last touched in epoch 3. -/
def es1 : State := putMem es 0x40000000 (cellBytes { m := 0x3F800000, s := 0, w := 0x3F800000, n := 1, g := 3, q := false })
def mergeS : State := inFl es1 (.merge cell0 sample [] none)
def foldS : State := inFl es1 (.fold cell0 [staged0, staged0] 0)
def ldCellS : State := flying es1 (some .ld) (.estLd 1 253 true [(31, cell0)] []) none
def clrS : State := flying es1 (some .st) (.estClr [cell0]) none

theorem wit_CellsAtTheirHome :
    (let age (e g : Nat) := (e + 128 - g) % 128
     64 ≤ age 66 2 ∧ age 5 5 = 0 ∧ 0 < age 5 3 ∧ age 5 3 < 64 ∧ age 65 2 < 64) ∧
    f32IsZero (f32Add 0 0x80000000) = true ∧ f32IsZero (f32Add 0x3F800000 0) = false ∧ f32IsNan 0x3F800000 = false ∧
    (InFlight mergeS 0 (fl0 mergeS) ∧ (regionOf mergeS 1 0).isSome = true ∧ cellBusy mergeS (fl0 mergeS) cell0 true = false ∧
      cellTurn mergeS (fl0 mergeS) cell0 = true) ∧
    (InFlight foldS 0 (fl0 foldS) ∧ (regionOf foldS 1 0).isSome = true ∧ cellTurn foldS (fl0 foldS) cell0 = true) ∧
    (InFlight clrS 0 (fl0 clrS) ∧ pathBusy clrS (fl0 clrS).who.uid 0 (actAccs (.estClr [cell0])) = false ∧
      cellsWait clrS (fl0 clrS) [cell0] = false) ∧
    (InFlight ldCellS 0 (fl0 ldCellS) ∧ pathBusy ldCellS (fl0 ldCellS).who.uid 0 (actAccs (fl0 ldCellS).act) = false ∧
      cellsWait ldCellS (fl0 ldCellS) [cell0] = false ∧ (fl0 ldCellS).who.uid = 1 ∧ (findWave ldCellS 1).isSome = true ∧
      cell0.pa / 32 ∉ ldCellS.poison ∧ cell0.pa / 32 ∈ ({ ldCellS with poison := [cell0.pa / 32] } : State).poison) := by decide +kernel
/-- Means 1.0 and 2.0 of weight 1.0 each give mean 1.5, weight 2.0, count 2 (R238); DEC 0 does not decay (R237). -/
theorem test_cells : cellOf (after (.merge 0) mergeS).mem 0x40000000 = { m := 0x3FC00000, s := 0x3F000000, w := 0x40000000, n := 2, g := 5, q := false } ∧
    (cellOf (after (.fold 0) foldS).mem 0x40000000).n = 3 ∧
    rdV (wv (after (.loadCompletion 0) ldCellS)) 31 254 = 0x7F800000 ∧
    cellOf (after (.storeCompletion 0) clrS).mem 0x40000000 = { m := 0, s := 0, w := 0, n := 0, g := 5, q := false } := by decide +kernel

def stageS (fill : Nat) : State := inFl { es with ctxs := [{ ctx2 with regions := [{ region0 with sfill := fill }] }] } (.stage [(cell0, staged0)])
def reseedS : State := inFl es (.reseed 1 0 [(cell0, 1, 2, 3, 4), (cell0, 5, 6, 7, 8)] 4)
def ecbE : EcbEnt := { cell := cell0, epoch := 5, part := sample, waves := [0], since := 0 }
def ecbS : State := { putCore es 0 0 { coreAt es 0 0 with ecb := [ecbE] } with time := 5120 }
def noticeS : State := inFl ecbS (.notice 1 0 6 9)
/-- In this cycle a source of rank 5 has worked on the cell. -/
def touchedS : State := let q := homeQuad cell0.pa; putQuad noticeS q { quadAt noticeS q with cells := [{ pa := cell0.pa, asid := 1, region := 0, cycle := quadCycle noticeS q, rank := 5 }] }
theorem wit_KeeperEvents :
    (InFlight (stageS 4) 0 (fl0 (stageS 4)) ∧ (regionOf (stageS 4) 1 0).isSome = true ∧
      pathBusy (stageS 4) (fl0 (stageS 4)).who.uid 0 (actAccs (fl0 (stageS 4)).act) = false) ∧
    (let s := inFl clrS (.stage [(cell0, staged0)])
     ∃ f ∈ s.flights, InFlight s 1 f ∧ f.act = .stage [(cell0, staged0)] ∧ pathBusy s f.who.uid 1 (actAccs f.act) = true) ∧
    (InFlight (stageS 3) 0 (fl0 (stageS 3)) ∧ ringSlot (stageS 3) 1 (0x60000 + 32 * 3) = some 0x60060) ∧
    (InFlight reseedS 0 (fl0 reseedS) ∧ regionOf reseedS 1 0 = some region0 ∧ 0 < region0.left ∧ ringRoom reseedS (keeperDie region0) 1 1 = true ∧
      0 ≠ reseedS.nextFid) ∧
    (InFlight noticeS 0 (fl0 noticeS) ∧ (regionOf noticeS 1 0).isSome = true ∧ regionTouched noticeS 1 0 = false ∧ regionTouched touchedS 1 0 = true) ∧
    ((coreAt ecbS 0 0).ecb[0]? = some ecbE ∧ 4096 ≤ cyclesSince ecbS 0 0 ecbE.since) := by decide +kernel
/-- A source of lower rank waits for the next cycle, and so does the notice (R243). -/
theorem test_cells_turn : cellTurn touchedS { fl0 mergeS with act := .merge cell0 sample [] none } cell0 = false ∧
    (exec (.epochNotice 0) touchedS matches .next _) ∧ (regionOf (after (.epochNotice 0) touchedS) 1 0).map (fun r => r.known) = some 5 := by decide +kernel
theorem test_keepers :
    (regionOf (after (.stage 0) (stageS 4)) 1 0).map (fun r => (r.ovf, r.sfill)) = some (true, 4) ∧
    (regionOf (after (.stage 0) (stageS 3)) 1 0).map (fun r => (r.ovf, r.sfill)) = some (false, 4) ∧
    memBytes (after (.stage 0) (stageS 3)).mem 0x60060 32 = stagedBytes staged0 ∧
    ((regionOf (after (.reseedRequest 0) reseedS) 1 0).map (fun r => r.left) = some 0 ∧
      ((after (.reseedRequest 0) reseedS).flights.map (fun f => f.id)) = [0, 1]) ∧
    ((regionOf (after (.epochNotice 0) noticeS) 1 0).map (fun r => r.known) = some 6 ∧ (coreAt (after (.epochNotice 0) noticeS) 0 0).ecb = []) ∧
    ((after (.flush 0 0 0) ecbS).flights.map (fun f => f.act) = [.merge cell0 sample [1] none]) := by decide +kernel

/-! ### Control flow -/

/-- `ms` with a table of three targets at 0x50000, whose address is in s5; v7 of lane 1 is index 2, s6 is index 256. -/
def table : List Byte := leBytes 8 3 ++ leBytes 8 0 ++ leBytes 8 0x40100 ++ leBytes 8 0x40200 ++ leBytes 8 0x40300
def cs : State := putMem (withW (fun w => wrV (wrS (memW w) 12 1) 1 7 2)) 0x50000 table
/-- `cs` with every slice changed, and with the gangs of a path list. -/
def slicesS (f : Slice → Slice) : State := { cs with waves := cs.waves.map (fun w => updSlices w (List.range 8) f) }
def gangsS (p : List (List Nat)) (s : State) : State := { s with waves := s.waves.map (fun w => { w with path := p }) }
def part4 : Part := { lanes := [2, 3], pc := 0x40800, loops := [], rets := [] }
/-- Slice 0 of `cs` mixed: lanes 2 and 3 are parked. -/
def mixed : State :=
  { cs with waves := cs.waves.map (fun w => updSlices w [0] (fun sl => { sl with run := { sl.run with lanes := [0, 1] }, parked := [part4] })) }

theorem wit_FalseGuardsOnlyAdvance :
    ([Instr.iadd { vo 10 2 3 0 .i32 0 with g := ⟨true, 0⟩ }, .st { vo 9 5 4 0 .b32 2 with g := ⟨false, 1⟩ }, .exit ⟨false, 3⟩,
      .brv ⟨false, 7⟩ false 1 5, .mrel (cp ⟨false, 1⟩ false 0 0 0 0 0 0 none), .fcall ⟨true, 0⟩ 4 0 0 0 0].all (fun i =>
      !i.isEvent && !runsEmpty i && (match curWave cs with | some w => legal cs w i && (guardLanes w i).isEmpty | none => false))) = true := by decide +kernel

def loopE : LoopEnt := { start := 0x40010, stop := 0x40020, left := 1 }
theorem wit_UniformControl :
    (loopE.stop = 0x40020 ∧ loopE.left = 1 ∧ (0x4001C : W64) ≠ loopE.stop ∧ ({ loopE with left := 0 } : LoopEnt).left ≠ 1) ∧
    (loopE.start.toNat ≤ 0x40010 ∧ 0x40010 < loopE.stop.toNat ∧ ¬(loopE.start.toNat ≤ 0x40020 ∧ 0x40020 < loopE.stop.toNat)) ∧
    ([Instr.br gd false 0 (-1), .br gd true 0 7, .br gd false 1 7, .jmp gd (-8), .nop gd, .yield gd, .fsync gd, .loop gd true 0 2,
      .loop gd true 63 16383, .loop gd false 12 4].all (issues cs)) = true ∧
    ([0, 7].all (fun n => meets (slicesS (fun sl => { sl with run := { sl.run with rets := List.replicate n { addr := 4, depth := 0, fc := none } } }))
      (.call gd 100) (fun w _ => decide ((gangPart w (gang w)).rets.length < 8)))) = true ∧
    ([1, 8].all (fun n => meets (slicesS (fun sl => { sl with run := { sl.run with rets := List.replicate n { addr := 4, depth := 0, fc := none } } }))
      (.ret gd) (fun w _ => decide (NoForks cs w) && (match (gangPart w (gang w)).rets with | e :: _ => e.fc.isNone | [] => false)))) = true ∧
    ([0, 3].all (fun n => meets (slicesS (fun sl => { sl with run := { sl.run with loops := List.replicate n loopE } }))
      (.loop gd true 1 4) (fun w _ => decide ((gangPart w (gang w)).loops.length < 4)))) = true := by decide +kernel

/-- Where the gang of the wave stands after an instruction. -/
def pcAfter (i : Instr) (s : State) : W64 := gpc (wv (after i s))
theorem test_branches : pcAfter (.br gd false 0 (-1)) cs = 0x3FFFC ∧ pcAfter (.br gd true 0 7) cs = (wv cs).npc ∧ pcAfter (.jmp gd (-8)) cs = 0x3FFE0 ∧
    pcAfter (.call gd 100) cs = 0x40190 ∧ pcAfter (.nop gd) cs = (wv cs).npc := by decide +kernel
theorem test_ret : pcAfter (.ret gd) (slicesS (fun sl => { sl with run := { sl.run with rets := [{ addr := 0x40444, depth := 0, fc := none }] } })) = 0x40444 ∧
    pcAfter (.loop gd true 0 16) cs = 0x40040 := by decide +kernel
/-- The last trip drops its entry, and the entry below that ends there counts one down (R117). -/
theorem test_backEdge : backEdge 0x40020 [loopE, { loopE with start := 0x40000, left := 3 }] = (0x40000, [{ loopE with start := 0x40000, left := 2 }]) ∧
    popLoops 0x40020 [loopE, { loopE with stop := 0x40030 }] = [{ loopE with stop := 0x40030 }] := by decide

theorem wit_VectorBranchSendsLanes : ([Instr.brv gd false 1 10, .brv gd true 1 (-10)].all (issues mixed)) = true ∧
    (sliceAt (wv mixed) 0).parked = [part4] ∧ gang (wv mixed) = List.range 8 ∧ (wv mixed).slices.length = 8 := by decide +kernel
/-- Lane 0's predicate is true: slice 0 splits off, its lane 1 falls through and runs, lane 0 is parked at the target (R111, R112). -/
def brvS : State := withW (fun w => wrK w 1 0 true)
theorem test_brv : (sliceAt (wv (after (.brv gd false 1 10) brvS)) 0).run.lanes = [1, 2, 3] ∧
    (sliceAt (wv (after (.brv gd false 1 10) brvS)) 0).parked.map (fun p => (p.lanes, p.pc)) = [([0], 0x40028)] := by decide +kernel

/-- The table's head and the entries of some lanes are read at once, and every entry is a target. -/
def briOk (s : State) (w : Wave) (idx : Nat → Nat) (ls : List Nat) : Bool :=
  match tableAcc s w (ls.headD 0) (rdS w 5) with
  | .error _ => false
  | .ok h =>
    let r := tableRead s w true [h]
    !tableWaits s w [h] && r.2.2 == [] && r.2.1.map (fun v => v.2 % 2 ^ 32) == [3] &&
    (match gather (fun l => entryAcc r.1 w (rdS w 5) 3 l (idx l)) ls with
     | .error _ => false
     | .ok as =>
       let q := tableRead r.1 w false as
       !tableWaits r.1 w as && q.2.2 == [] &&
       isOk (gather (fun l => briEntry (rdS w 5) l (idx l) (((q.2.1.find? (fun v => v.1 == l)).map (fun v => v.2)).getD 0)) ls))
theorem wit_IndirectBranchSendsLanes :
    (rdS (wv cs) 5).toNat % 8 = 0 ∧ meets cs (.bri gd true 5 7) (fun w ls => briOk cs w (fun l => (rdV w l 7).toNat) ls) = true ∧
    meets cs (.bri gd false 5 12) (fun w _ => briOk cs w (fun _ => (rdS w 12).toNat % 2 ^ 32) [uniLane]) = true := by decide +kernel
/-- The packet of the table's first word is to arrive poisoned. -/
def lostBri : State := { cs with waves := cs.waves.map (fun w => { w with lostRead := some 0 }) }
theorem wit_IndirectBranchLost : meets lostBri (.bri gd true 5 7) (fun w ls => w.fork.isNone && decide (findWave lostBri w.uid = some w) &&
    w.lostRead == some 0 && (match tableAcc lostBri w (ls.headD 0) (rdS w 5) with | .ok h => !tableWaits lostBri w [h] | .error _ => false)) = true := by
  decide +kernel
theorem test_bri_lost : ((wv (after (.bri gd true 5 7) lostBri)).trap.held.map (fun r => (r.cause, r.addr))) = [(7, 0x50000)] ∧
    pcAfter (.bri gd true 5 7) lostBri = 0x40000 := by decide +kernel
theorem test_bri : pcAfter (.bri gd false 5 12) cs = 0x40200 ∧
    (sliceAt (wv (after (.bri gd true 5 7) cs)) 0).parked.map (fun p => (p.lanes, p.pc)) = [([1], 0x40300)] := by decide +kernel

/-- `cs` in a handler, with exhausted and with parked slices, and with two gangs. -/
def trapS (f : Trap → Trap) : State := { cs with waves := cs.waves.map (fun w => { w with trap := f w.trap }) }
def inH : State := trapS (fun t => { t with h := true, xpc := 0x40444, ppriv := false })
theorem wit_LanesEnd :
    meets inH (.exit gd) (fun w _ => decide (NoForks inH w) && w.trap.h && decide (0 < w.weight)) = true ∧
    meets cs (.exit gd) (fun w _ => decide (NoForks cs w) && !w.trap.h && w.path == [gang w] && (gang w).all (fun i => (sliceAt w i).parked == [])) = true ∧
    meets mixed (.exit gd) (fun w _ => !w.trap.h && (gang w).any (fun i => decide (i < w.slices.length) && !((sliceAt w i).parked == []))) = true ∧
    meets cs (.done gd) (fun w _ => decide (MergesOver cs w) && [Cls.ld, .st, .cp, .mx, .tx].all (fun c => counter cs w.uid c == 0)) = true := by
  decide +kernel
theorem test_exit : (after (.exit gd) cs).waves = [] ∧ (after (.exit gd) cs).flights.map (fun f => f.act) = [.wreturn (2 ^ 32) (2 ^ 63)] ∧
    (sliceAt (wv (after (.exit gd) mixed)) 0).run = part4 ∧ (sliceAt (wv (after (.exit gd) mixed)) 1).live = false := by decide +kernel

def half : List (List Nat) := [[0, 1, 2, 3], [4, 5, 6, 7]]
def gathering : State := gangsS half
  { cs with waves := cs.waves.map (fun w => { (updSlices w [4, 5, 6, 7] (fun sl => { sl with atRegang := some w.npc })) with regangFrom := some 0 }) }
def idleS : State := gangsS half (slicesS (fun sl => { sl with idle := 64 }))
theorem wit_GangsGatherAndGiveWay :
    meets mixed (.regang gd) (fun w _ => !((sliceAt w 0).parked == [])) = true ∧
    meets (gangsS half cs) (.regang gd) (fun w _ => (liveSlices w).any (fun j => !(gang w).contains j && (sliceAt w j).atRegang.isNone)) = true ∧
    meets gathering (.regang gd) (fun w _ => !(gang w).isEmpty && (gang w).all (fun i => (liveSlices w).contains i && (sliceAt w i).parked == []) &&
      (liveSlices w).all (fun i => samePlace (sliceAt w i).run (gangPart w (gang w)) && ((gang w).contains i || (sliceAt w i).atRegang == some w.npc))) = true ∧
    ((wv gathering).regangFrom = some 0 ∧ (wv gathering).trap.h = false ∧ 256 < cyclesSince { gathering with time := 330 } 0 0 0) ∧
    ((wv idleS).viq = [] ∧ 1 < (wv idleS).path.length ∧ (∀ i ∈ gang (wv idleS), (sliceAt (wv idleS) i).parked = []) ∧ (wv idleS).trap.h = false ∧ gang (wv idleS) ≠ [] ∧ (∀ i ∈ gang (wv idleS), 64 ≤ (sliceAt (wv idleS) i).idle)) ∧
    ((wv mixed).viq = [] ∧ 0 ∈ gang (wv mixed) ∧ 0 < (wv mixed).slices.length ∧ (sliceAt (wv mixed) 0).parked = part4 :: []) ∧
    1024 ≤ cyclesSince { cs with time := 1280 } 0 0 (wv cs).chosen := by decide +kernel
/-- Two waves of a slot that were not chosen for 1,024 cycles, the second of them older. -/
def starvedS : State :=
  { cs with time := 1280, waves := cs.waves.flatMap (fun w => [{ w with age := 5 }, { w with uid := 9, wctx := w.wctx + 1, age := 4 }]) }
theorem wit_StarvedChoice : starvedS.waves.all (fun w => decide (1024 ≤ cyclesSince starvedS w.die w.core w.chosen)) = true ∧
    (starved starvedS starvedS.waves).map (fun w => w.uid) = some 9 ∧ starved cs cs.waves = none := by decide +kernel
theorem test_gather : gang (wv (after (.regang gd) gathering)) = List.range 8 ∧
    (gang (wv (after (.regangRelease 1) { gathering with time := 330 })) ≠ [] ∧
      (sliceAt (wv (after (.regangRelease 1) { gathering with time := 330 })) 5).atRegang = none) ∧
    (wv (after (.gangDemotion 1) idleS)).cur = 1 ∧
    (sliceAt (wv (after (.partSwap 1 0) { mixed with waves := mixed.waves.map (fun w => updSlices w [0] (fun sl => { sl with idle := 64 })) })) 0).run = part4 := by
  decide +kernel

def fc (rc : Nat) : Instr := .fcall gd 16 3 rc 0 0
/-- After a fork the home has returned in every slice. -/
def forked : State := after (fc 0) cs
def resolved (wrote : List RegRef) : State :=
  { forked with waves := forked.waves.map (fun x => match x.fork with | some f => { x with fork := some { f with returned := f.slices, rset := [.v 3], homeWrote := wrote } } | none => x) }
theorem wit_ForkableCalls :
    meets cs (fc 1) (fun w _ => decide ((gangPart w (gang w)).rets.length < 8) && !forkOk cs w 3 { pc := gpc w, rc := 1, rva := 0, rvb := 0 }) = true ∧
    meets cs (fc 0) (fun w _ => decide ((gangPart w (gang w)).rets.length < 8) && (freeCtx cs w.die w.core (w.wctx / 16)).isSome &&
      forkOk cs w 3 { pc := gpc w, rc := 0, rva := 0, rvb := 0 } && pendingRegs cs w.uid == []) = true ∧
    ([[], [RegRef.v 3]].all (fun wr => match findWave (resolved wr) 2 with
      | some x => (match x.fork with
        | some f => f.home == 1 && !f.slices.isEmpty && f.slices.all (fun j => f.returned.contains j) && !retsPending (resolved wr) 1 f.mark &&
            readSetClean f == wr.isEmpty && (match findWave (resolved wr) 1 with | some h => h.fork.isNone && h.saveReq.isNone | none => false)
        | none => false)
      | none => false)) = true := by decide +kernel
/-- A load of the callee that the fork's commit found outstanding: the continuation wrote v10 of slice 0. A load of a byte that the continuation
of a fork read as 7, while 9 stands there. -/
def skipS : State := let s := flying (putMem cs 0x20001 [0x7F]) (some .ld) (.load { uid := 1, vec := true, reg := 10, ty := .i8 } 1 [memA 0 0x20001] none) none
  { s with flights := s.flights.map (fun f => { f with skip := [(.v 10, [0])] }) }
def seenS : State :=
  let s := flying { forked with mem := memPut forked.mem 0x20001 [9] } (some .ld)
    (.load { uid := 1, vec := true, reg := 10, ty := .b8 } 1 [memA 0 0x20001] none) none
  match findWave s 2 with
  | some x => putCore s 0 0 { coreAt s 0 0 with flt := [{ fltOf x (memA 0 0x20001) with seen := [(1, 7)] }] }
  | none => s
theorem wit_ForkableCalls2 :
    (findFlight skipS 0 = some (fl0 skipS) ∧ (findWave skipS 1).isSome = true ∧ (RegRef.v 10, [0]) ∈ (fl0 skipS).skip ∧ (exec (.loadCompletion 0) skipS matches .next _)) ∧
    (InFlight seenS 0 (fl0 seenS) ∧ QuietPath seenS (fl0 seenS) ∧ (memA 0 0x20001).page.cl ≠ 0 ∧ 0x20001 % 32 + 1 ≤ 32 ∧ 0x20001 / 32 ∉ seenS.poison ∧ weightWaits seenS (fl0 seenS).who false (memA 0 0x20001) = false ∧
      (fl0 seenS).who.uid = 1 ∧ bytesAt seenS (memA 0 0x20001) 1 = [9] ∧
      ∃ x ∈ seenS.waves, x.uid = 2 ∧ (match x.fork with
        | some k => k.home == 1 && decide (k.born ≤ 0) && k.slices.any (fun y => (whoSlices (fl0 seenS).who).contains y)
        | none => false) = true ∧ ∃ e ∈ (coreAt seenS 0 0).flt, e.uid = 2 ∧ sameEnt e (fltOf x (memA 0 0x20001)) = true ∧ (1, (7 : Byte)) ∈ e.seen) := by decide +kernel
theorem test_fork_loads : rdV (wv (after (.loadCompletion 0) skipS)) 0 10 = 0 ∧ (findWave seenS 2).isSome = true ∧
    findWave (after (.loadCompletion 0) seenS) 2 = none := by decide +kernel
/-- The fork commits when nothing it read was written by the home: the home's slices go on where the continuation stands; else they stay (R135). -/
theorem test_forks : pcAfter (.forkResolution 2) (resolved []) = (wv cs).npc ∧ pcAfter (.forkResolution 2) (resolved [.v 3]) = 0x40040 ∧
    (after (.forkResolution 2) (resolved [])).waves.length = 1 := by decide +kernel

/-! ### Exceptions, privilege, configuration -/

theorem wit_UndecodableInstructionsTrap :
    ([Instr.iadd (vo 10 2 3 0 .f32 0), .estClose (co false 0 64 0 0 0 0 none)].all (fun i => !i.isEvent &&
      (match curWave cs with | some w => !legal cs w i && decide (CanTrap cs w) | none => false))) = true ∧
    (let s := { cs with regs := { cs.regs with flock := false } }
     match curWave s with | some w => !legal s w (.fsync gd) && decide (CanTrap s w) | none => false) = true := by decide +kernel
theorem test_illegal : pcAfter (.iadd (vo 10 2 3 0 .f32 0)) cs = 0x80000 ∧ xcause (wv (after (.iadd (vo 10 2 3 0 .f32 0)) cs)).trap = 1 ∧
    (wv (after (.iadd (vo 10 2 3 0 .f32 0)) cs)).trap.xpc = 0x40000 := by decide +kernel

def user : State := trapS (fun t => { t with prv := false })
def bad : State := { cs with waves := cs.waves.map (fun w => wrS (wrS (wrS w 13 2) 14 65536) 15 (2 ^ 56)) }
def isErr {ε α : Type} (r : Except ε α) : Bool := !isOk r
theorem wit_CausesEnterHandlers :
    meets cs (.trap (go 0 0 0x7FFFFF 0 .b32 0)) (fun w _ => decide (CanTrap cs w)) = true ∧
    ([Instr.xret (so 0 0 0 0 .b32 0), .xclr (so 0 3 0 0 .b32 0), .tlbi (so 0 0 0 0 .b32 3), .cfgw (go 0 3 0 0 .b32 0), .cfgr (go 3 0 4 0 .b32 0),
      .gets (so 3 0x17 0 0 .b32 0), .sets (so 0 0x10 3 0 .b32 0)].all (fun i => meets user i (fun w _ => decide (CanTrap user w) && !w.trap.prv))) = true ∧
    ([vo 10 13 4 0 .b32 0, so 10 15 3 0 .b32 0].all (fun o => if o.k.vec then
      meets bad (.ld o) (fun w ls => decide (CanTrap bad w) && isErr (gather (memAcc bad w .load (eaOf w o o.x) 4) (accLanes o ls))) else true)) = true ∧
    meets bad (.lds (vo 10 14 4 0 .b32 0)) (fun w ls => isErr (gather (padAcc w (eaOf w (vo 10 14 4 0 .b32 0) 0) 4) ls)) = true ∧
    meets bad (.ldp (vo 10 13 4 0 .b32 0)) (fun w ls => isErr (gather (peerAcc bad w (vo 10 13 4 0 .b32 0) 4) ls)) = true ∧
    meets bad (.atom (vo 10 13 4 9 .i32 0)) (fun w ls => isErr (gather (memAcc bad w .atomic (eaOf w (vo 10 13 4 9 .i32 0) 0) 4) ls)) = true ∧
    meets bad (.estLd (vo 10 13 4 0 .b32 0)) (fun w ls => isErr (gather (cellAt bad w (vo 10 13 4 0 .b32 0) .estRead) ls)) = true ∧
    meets bad (.st (vo 9 15 4 0 .b32 2)) (fun w ls => isErr (gather (memAcc bad w .store (eaOf w (vo 9 15 4 0 .b32 2) 2) 4) ls)) = true ∧
    meets bad (.sts (vo 9 14 4 0 .b32 2)) (fun w ls => isErr (gather (padAcc w (eaOf w (vo 9 14 4 0 .b32 2) 2) 4) ls)) = true ∧
    meets bad (.estAdd (vo 9 13 4 0 .b32 4)) (fun w ls => isErr (gather (cellAt bad w (vo 9 13 4 0 .b32 4) .estWrite) ls)) = true := by decide +kernel
/-- s13 is 2 and s12 is 1: nothing at these addresses is aligned. -/
theorem wit_CausesEnterHandlers3 :
    meets bad (.ldu (so 10 13 12 0 .b32 0)) (fun w ls => isErr (gather (memAcc bad w .load (eaOf w (so 10 13 12 0 .b32 0) 0) 4) (accLanes (so 10 13 12 0 .b32 0) ls))) = true ∧
    meets bad (.stu (so 10 13 12 0 .b32 0)) (fun w ls => isErr (gather (memAcc bad w .store (eaOf w (so 10 13 12 0 .b32 0) 0) 4) (accLanes (so 10 13 12 0 .b32 0) ls))) = true ∧
    meets bad (.stp (vo 9 13 4 0 .b32 0)) (fun w ls => isErr (gather (peerAcc bad w (vo 9 13 4 0 .b32 0) 4) ls)) = true ∧
    meets bad (.red (vo 0 13 4 9 .i32 0)) (fun w ls => isErr (gather (memAcc bad w .atomic (eaOf w (vo 0 13 4 9 .i32 0) 0) 4) ls)) = true ∧
    meets bad (.estMrg (vo 9 13 4 0 .b32 4)) (fun w ls => isErr (gather (cellAt bad w (vo 9 13 4 0 .b32 4) .estWrite) ls)) = true ∧
    meets bad (.estClr (vo 0 13 4 0 .b32 4)) (fun w ls => isErr (gather (cellAt bad w (vo 0 13 4 0 .b32 4) .estWrite) ls)) = true ∧
    meets bad (.barInit (go 0 13 4 0 .b32 0)) (fun w _ => isErr (barAddr bad w (bitAt 0 0) (rdS w 13) (badCount 4))) = true ∧
    meets bad (.barArr (go 0 13 4 0 .b32 0)) (fun w _ => isErr (barAddr bad w (bitAt 0 0) (rdS w 13) (badCount 4))) = true ∧
    meets bad (.barExp (go 0 13 0 0 .b32 1)) (fun w _ => isErr (barAddr bad w (bitAt 1 0) (rdS w 13) false)) = true ∧
    meets bad (.barWait (go 0 13 0 0 .b32 0)) (fun w _ => isErr (barAddr bad w false (rdS w 13) false)) = true := by decide +kernel
theorem wit_CausesEnterHandlers2 :
    ([0, 1024].all (fun n => meets cs (.barInit (go 0 6 n 0 .b32 0)) (fun w _ => (rdS w 6).toNat % 16 == 0 && badCount (opB w (go 0 6 n 0 .b32 0) .b64 0)))) = true ∧
    meets (slicesS (fun sl => { sl with run := { sl.run with rets := List.replicate 8 { addr := 4, depth := 0, fc := none } } })) (.call gd 1)
      (fun w _ => decide (8 ≤ (gangPart w (gang w)).rets.length)) = true ∧
    meets cs (.ret gd) (fun w _ => (gangPart w (gang w)).rets == []) = true ∧
    meets bad (.bri gd false 13 12) (fun w _ => !((rdS w 13).toNat % 8 == 0)) = true ∧
    ([11, 14].all (fun a => meets bad (.cfgw (go 0 a 0 0 .b32 0)) (fun w _ => w.trap.prv && carveBad w (rdS w a).toNat))) = true := by decide +kernel
theorem test_traps : pcAfter (.trap (go 0 0 77 0 .b32 0)) cs = 0x80000 ∧ (wv (after (.trap (go 0 0 77 0 .b32 0)) cs)).trap.xpc = (wv cs).npc &&& 0x00FFFFFFFFFFFFFC ∧
    ((wv (after (.xret (so 0 0 0 0 .b32 0)) user)).trap.recs.map (fun r => r.cause)) = [1] ∧
    ((wv (after (.ld (vo 10 13 4 0 .b32 0)) bad)).trap.recs.map (fun r => (r.cause, r.detail))) = [(4, 4)] := by decide +kernel

def rec1 (c : Nat) : CauseRec := { cause := c, lanes := 1, more := false, addr := 4, pc := 8, detail := 0 }
theorem wit_RecordsAndEndsOfWaves :
    [rec1 1, rec1 5].Pairwise (fun x y => x.cause < y.cause) ∧ (rec1 5).cause = 5 ∧
    (findWave inH 1 = some (wv inH) ∧ NoForks inH (wv inH) ∧ (findCtx inH 1).isSome = true ∧ (wv inH).trap.h = true ∧ (wv inH).viq = [] ∧ reruns inH (wv inH) = false) ∧
    (findWave base 1 = some (wv base) ∧ NoForks base (wv base) ∧ (wv base).trap.h = false ∧ (wv base).trap.xvec = 0 ∧ (wv base).viq = [] ∧ reruns base (wv base) = false) ∧
    (let s := { cs with waves := cs.waves.map (fun w => { w with saveReq := some .full }) }
     findWave s 1 = some (wv s) ∧ NoForks s (wv s) ∧ (findCtx s 1).isSome = true ∧ (wv s).trap.h = false ∧ (wv s).viq = [] ∧ (wv s).saveReq = some .full) := by
  decide +kernel
theorem test_ends : (after (.trap (go 0 0 1 0 .b32 0)) base).waves = [] ∧ (after (.trap (go 0 0 1 0 .b32 0)) inH).waves = [] ∧
    ((after (.trap (go 0 0 1 0 .b32 0)) inH).flights.map (fun f => match f.act with | .record _ r _ => (r.pay.getD 0 0, r.weight) | _ => (0, 0))) = [(3 + 256 * 12, 2 ^ 63)] := by
  decide +kernel

def preS : State := { cs with waves := cs.waves.map (fun w => wrS { w with preq := some 0 } 13 0x0000000100020003) }
theorem wit_SystemInstructions :
    meets inH (.xret (so 0 0 0 0 .b32 0)) (fun w _ => decide (NoForks inH w) && w.trap.prv && w.trap.h && w.trap.recs == [] && w.trap.held == []) = true ∧
    (let s := trapS (fun t => { t with h := true, recs := [rec1 2], held := [rec1 9] })
     meets s (.xret (so 0 0 0 0 .b32 0)) (fun w _ => w.trap.h && !(addRecs w.trap.recs w.trap.held == []) && !(w.trap.xvec == 0))) = true ∧
    ([Instr.xclr (so 0 3 0 0 .b32 0), .xclr (go 0 0 0x7FFF 0 .b32 0), .cfgr (go 3 0 0 0 .b32 0), .cfgr (go 3 0 4 0 .b32 0),
      .tlbi (so 0 0 0 0 .b32 0), .tlbi (so 0 5 0 0 .b32 1), .tlbi (so 0 12 0 0 .b32 2), .tlbi (so 0 0 0 0 .b32 3)].all
      (fun i => meets cs i (fun w _ => w.trap.prv))) = true ∧
    (cfgRead cs (wv cs) 0 = some 6 ∧ cfgRead cs (wv cs) 4 = some 0) ∧
    ([1, 7].all (fun x => meets (withW (fun w => wrS w 13 x)) (.cfgw (go 0 13 0 0 .b32 0)) (fun w _ => !carveBad w (rdS w 13).toNat &&
      (coreAt cs w.die w.core).carve.isNone))) = true ∧
    meets cs (.live (so 0 12 12 12 .b32 0)) (fun w _ => !liveBad w (opB w (so 0 12 12 12 .b32 0) .b64 0) && w.preq.isNone) = true ∧
    meets preS (.live (so 0 13 12 12 .b32 0)) (fun w _ => !liveBad w (opB w (so 0 13 12 12 .b32 0) .b64 0) && w.preq.isSome) = true := by decide +kernel
theorem test_system : pcAfter (.xret (so 0 0 0 0 .b32 0)) inH = 0x40444 ∧ (wv (after (.xret (so 0 0 0 0 .b32 0)) inH)).trap.prv = false ∧
    rdS (wv (after (.cfgr (go 3 0 0 0 .b32 0)) cs)) 3 = 6 ∧ (wv (after (.live (so 0 13 12 12 .b32 0)) preS)).saveReq.isSome = true := by decide +kernel

def heldS : State := trapS (fun t => { t with held := [rec1 9], pte := true })
def carveS : State := putCore cs 0 0 { coreAt cs 0 0 with carve := some (1, 1) }
theorem wit_EventsOfAWave :
    (findWave heldS 1 = some (wv heldS) ∧ NoForks heldS (wv heldS) ∧ atBoundary heldS (wv heldS) = true ∧ (wv heldS).trap.h = false ∧
      (wv heldS).trap.xvec ≠ 0 ∧ (wv heldS).trap.held ≠ [] ∧ (wv heldS).saveReq = none) ∧
    ((wv heldS).preq = none ∧ (wv heldS).trap.pte = true) ∧
    ((wv preS).preq = some 0 ∧ (wv preS).saveReq = none ∧ carving preS (wv preS) = false ∧ 0 + 100000 ≤ ({ preS with time := 100000 } : State).time) ∧
    ((coreAt carveS 0 0).carve = some (1, 1) ∧ ∀ e ∈ spadEnds carveS 0 0, e ≤ 65536 * 1) := by decide +kernel
theorem test_wave_events : pcAfter (.delivery 1) heldS = 0x80000 ∧ ((wv (after (.preemptionRequest 1) heldS)).trap.held.map (fun r => r.cause)) = [9, 15] ∧
    (wv (after (.preemptionTimeout 1) { preS with time := 100000 })).saveReq = some .full ∧ (coreAt (after (.carveChange 0 0) carveS) 0 0).spw = 1 := by
  decide +kernel

def saveS (h : SaveHint) : State := { cs with waves := cs.waves.map (fun w => { w with saveReq := some h }) }
def savedS (b : Option (Bank × Bank)) : State := { cs with waves := [], saved := [{ wave := wv cs, banks := b, ctx := false }] }
theorem wit_SaveAndRestore :
    ([SaveHint.full, .hint 1 [(0, 1)] 0 false, .hint 0xFFFFFFFF [] 1 true].all (fun h => decide (findWave (saveS h) 1 = some (wv (saveS h))) && decide (NoForks (saveS h) (wv (saveS h))) &&
      !saveBusy (saveS h) (wv (saveS h)))) = true ∧
    ([none, some (bankClear, bankClear)].all (fun b => (match (savedS b).saved.find? (fun x => x.wave.uid == 1) with
      | some x => (match findCtx (savedS b) x.wave.asid with | some c => !(c.phase == .saving) | none => false) && restoreFits (savedS b) x.wave &&
          leaseFree (savedS b) (engineOf x.wave.die x.wave.core)
      | none => false))) = true := by decide +kernel
/-- A hint keeps the vector groups it names and, with ACC, the lease and the banks; the rest reads as zero (R159, R160, R317). -/
def leasedS (acc : Bool) : State :=
  let s := saveS (.hint 1 [] 0 acc)
  putEngine { s with waves := s.waves.map (fun w => { (wrV (wrV w 0 7 5) 0 8 6) with lease := 3 }) } 0 { engineAt s 0 with holder := some (1, 1) }
theorem test_save_hint : (after (.save 1) (leasedS true)).saved.map (fun x => (rdV x.wave 0 7, rdV x.wave 0 8, x.wave.lease, x.banks.isSome)) = [(5, 0, 3, true)] ∧
    (after (.save 1) (leasedS false)).saved.map (fun x => (x.wave.lease, x.banks.isSome)) = [(0, false)] := by decide +kernel
theorem test_save : (after (.save 1) (saveS .full)).waves = [] ∧ (after (.save 1) (saveS .full)).saved.map (fun x => x.wave.v) = [(wv cs).v] := by
  decide +kernel

/-! ### Tasks -/

def spot0 : Spot := { core := 5, wctx := 17, vbase := 0, sbase := 512 }
def rec0 : Record := { (mkRecord 1 1 (2 ^ 32) 3 77 none [1, 2, 3, 4, 5, 6, 7, 0xFFFFFFFF]) with seq := some 9 }
theorem wit_TasksStartFromRecords : 0 < kernelNode.foot.slices ∧ 0 < placedNode.foot.slices ∧
    ((4 : Nat) ≤ 4 ∧ (64 : Nat) ≤ 64) ∧ rec0.seq = some 9 ∧ (mkRecord 1 1 (2 ^ 32) 3 77 none []).seq = none ∧ (∀ f ∈ es.flights, f.who.uid ≠ es.nextUid) := by decide +kernel
/-- R356: payload words 0 and 1 in s0, 6 and 7 in s3, the allocation's two slices at the entry. -/
def startW : Wave := newWave es 1 spot0 placedLaunch kernelNode rec0 9
theorem test_start : rdS startW 0 = 0x0000000200000001 ∧ rdS startW 3 = 0xFFFFFFFF00000007 ∧ rdS startW 4 = 0 ∧ gang startW = [0, 1] ∧
    gpc startW = 0x40000 ∧ startW.weight = 77 ∧ startW.widx = 9 ∧
    (indexOf { placedLaunch with count := 3, others := [(1, 2)] } 1 (mkRecord 1 1 (2 ^ 32) 3 77 none [])).1 = 20 ∧ special es startW 0x09 0 = 3 := by decide +kernel

/-- Targets: this die's node 1, and node 1 on die 7, quad 31. -/
def sends5 (x : Nat) : List (Send × Instr × Ops) :=
  [go 0 8 1 0 .b32 x, so 0 8 12 0 .b32 x].map (fun o => (Send.spawn, Instr.spawn o, o)) ++
  [go 0 8 0xFF001 0 .b32 x, so 0 8 12 0 .b32 x].map (fun o => (Send.amsg, Instr.amsg o, o)) ++
  [go 0 8 1 0 .b32 x, go 0 8 0x1E0001 0 .b32 x].map (fun o => (Send.enq, Instr.enq o, o))
def sendsOk (s : State) (x : Send × Instr × Ops) : Bool :=
  meets s x.2.1 (fun w _ => (sendFault s w x.1 (opB w x.2.2 .b64 0)).isNone &&
    (!decide (sendDie s w x.1 (opB w x.2.2 .b64 0) < 8) || ringRoom s (sendDie s w x.1 (opB w x.2.2 .b64 0)) w.asid (opB w x.2.2 .b64 0 % 4096)) &&
    (x.2.2.x.testBit 0 || decide (ReleaseReady s w true)) && (!(w.weight == 1) || decide (2 ^ 56 ≤ poolOf s (quadOf w.die w.core) w.launch)) &&
    sendPkg s .amsg (opB w x.2.2 .b64 0) == s.pod.pkg)
def poorS : State := setPool { es with waves := es.waves.map (fun w => { w with weight := 1 }) } 0 (2 ^ 32) (2 ^ 56)
/-- A wave of node 1 with records of its launch queued on its die, and one that has waited for 4,096 cycles. -/
def deqS (rs : List Record) : State :=
  putQueue { es with waves := es.waves.map (fun w => { w with node := 1 }) } 0
    { asid := 1, node := 1, chip := rs, ring := [], head := 0, tail := 0, batch := false, newest := none }
def waitS : State := { (deqS []) with time := 5120, waves := (deqS []).waves.map (fun w => { w with deqFrom := some (0, 2) }) }
theorem wit_RecordsAreSentAndTaken :
    ((sends5 0 ++ sends5 1).all (fun x => sendsOk es x && sendsOk poorS x)) = true ∧
    nodeOf (deqS []) (wv (deqS [])).asid (wv (deqS [])).node = some kernelNode ∧
    ([0, 3].all (fun q => meets (deqS [rec0]) (.deq gd 8 q false) (fun w _ => (pickRecord (deqS [rec0]) w.die kernelNode (queueAt (deqS [rec0]) w.die w.asid w.node) w.launch).isSome))) = true ∧
    ([false, true].all (fun b => meets (deqS []) (.deq gd 8 3 b) (fun w _ => (pickRecord (deqS []) w.die kernelNode (queueAt (deqS []) w.die w.asid w.node) w.launch).isNone && w.deqFrom.isNone))) = true ∧
    (findWave waitS 1 = some (wv waitS) ∧ (wv waitS).deqFrom = some (0, 2) ∧ 4096 ≤ cyclesSince waitS (wv waitS).die (wv waitS).core 0 ∧
      (wv waitS).fork = none ∧ nodeOf waitS (wv waitS).asid (wv waitS).node = some kernelNode ∧
      (pickRecord waitS 0 kernelNode (queueAt waitS 0 1 1) (wv waitS).launch).isNone = true ∧
      (let s := { (deqS [rec0]) with time := 5120 }
       pickRecord s 0 kernelNode (queueAt s 0 1 1) (wv waitS).launch).isSome = true) := by decide +kernel
/-- The last record of a step's flights. -/
def sent (s : State) : Nat × Nat × Nat × Option Nat := match s.flights.getLast? with
  | some f => (match f.act with | .record die r _ => (die, r.depth, r.weight, r.quad) | _ => (99, 0, 0, none)) | none => (99, 0, 0, none)
theorem test_send : sent (after (.spawn (go 0 8 1 0 .b32 1)) es) = (0, 1, 4, none) ∧ (wv (after (.spawn (go 0 8 1 0 .b32 1)) es)).weight = 5 ∧
    sent (after (.amsg (go 0 8 0xFF001 0 .b32 1)) es) = (7, 0, 4, some 31) ∧
    sent (after (.enq (go 0 8 0x1E0001 0 .b32 1)) poorS) = (7, 0, 2 ^ 55, none) ∧ (wv (after (.enq (go 0 8 0x1E0001 0 .b32 1)) poorS)).weight = 2 ^ 55 + 1 := by
  decide +kernel
theorem test_deq : rdS (wv (after (.deq gd 8 3 false) (deqS [rec0]))) 11 = 0xFFFFFFFF00000007 ∧ (wv (after (.deq gd 8 3 false) (deqS [rec0]))).weight = 86 ∧
    rdQ (wv (after (.deq gd 8 3 false) (deqS [rec0]))) 3 = true ∧ rdQ (wv (after (.deqTimeout 1) waitS)) 2 = false ∧
    (wv (after (.deqTimeout 1) waitS)).deqFrom = none := by decide +kernel

/-- A launch descriptor of node 1 with three tasks from index 5, at 0x48000, whose address is in s12. -/
def dlS (node count : Nat) : State :=
  putMem { es with waves := es.waves.map (fun w => wrS w 12 0x48000) } 0x48000 (leBytes 8 node ++ leBytes 8 (2 ^ 32 * count + 5) ++ List.replicate 48 0)
def childNum : Nat := 2 ^ 32 + 1
theorem wit_DeviceLaunches : ([(1, 3), (1, 0), (9, 1)].all (fun p => [0, 1].all (fun x =>
    meets (dlS p.1 p.2) (.dlaunch (so (13 * x) 12 0 0 .b32 x)) (fun w _ => isOk (checkMem (dlS p.1 p.2) w.asid false .load (rdS w 12).toNat 64) &&
      decide (ReleaseReady (dlS p.1 p.2) w true) && !engRefresh (dlS p.1 p.2) w.asid false [(rdS w 12, 64)] && !(w.weight == 1) &&
      (descBytes (tlbFill (dlS p.1 p.2) w.asid (rdS w 12).toNat) w (rdS w 12)).isSome && (findLaunch (dlS p.1 p.2) (treeNum w.launch)).isSome &&
      (findLaunch (dlS p.1 p.2) w.launch).isSome && (findLaunch (dlS p.1 p.2) childNum).isNone)))) = true := by decide +kernel
theorem test_dlaunch : rdS (wv (after (.dlaunch (so 13 12 0 0 .b32 1)) (dlS 1 3))) 13 = 0x100000001 ∧
    (wv (after (.dlaunch (so 13 12 0 0 .b32 1)) (dlS 1 3))).weight = 5 ∧
    (findLaunch (after (.dlaunch (so 13 12 0 0 .b32 1)) (dlS 1 3)) childNum).map (fun l => (l.first, l.count, l.link, l.home, l.refused)) =
      some (5, 3, 4, 2 ^ 64 - 2 ^ 60, false) ∧
    (findLaunch (after (.dlaunch (so 13 12 0 0 .b32 1)) (dlS 9 1)) childNum).map (fun l => (l.refused, l.complete)) = some (true, false) := by decide +kernel

/-- A launch of four tasks of which the first has started; die 0's dispatcher points at it. -/
def ranged (next : Nat) : Launch :=
  { placedLaunch with node := 1, count := 4, home := 2 ^ 64 - 2 ^ 60, shares := [{ die := 0, next := next, stop := 4, weight := 2 ^ 60 }], pay := [7], ixw := 1 }
def rangeS (next : Nat) : State :=
  putDie { es with waves := [], launches := [ranged next] } 0 { dieAt es 0 with deficit := [(2 ^ 32, 0)], ptr := [(0, 2 ^ 32)] }
theorem wit_RangeTasksStart : ([1, 3].all (fun k => (rangeS k).launches == [ranged k] && launchLive (rangeS k) (ranged k) && !(ranged k).pq && !(ranged k).pers &&
    (dieAt (rangeS k) 0).queues == [] && (match shareOf (ranged k) 0 with | some x => shareReady (ranged k) x && x.next == k | none => false) &&
    Machine.kernelNode (rangeS k) 1 1 == some kernelNode && dieOpen (rangeS k) 0 (2 ^ 32) && coreFits (rangeS k) 0 127 kernelNode.foot &&
    !deqFirst (rangeS k) 0 && (deadRange (rangeS k) 0).isNone && (dieAt (rangeS k) 0).deficit == [(2 ^ 32, 0)] &&
    stGet 0 (effective (rangeS k) (ranged k)) (dieAt (rangeS k) 0).ptr == 2 ^ 32)) = true := by decide +kernel
theorem test_range : (rangeRecord (ranged 1) { die := 0, next := 1, stop := 4, weight := 2 ^ 60 }).1.pay = [8] ∧
    (rangeRecord (ranged 1) { die := 0, next := 1, stop := 4, weight := 2 ^ 60 }).1.weight = 2 ^ 59 ∧
    (rangeRecord (ranged 3) { die := 0, next := 3, stop := 4, weight := 5 }).1.weight = 5 := by decide +kernel

/-- A record on its way to die 7, its queue empty or with its ring in use; a record for a node that is not there. -/
def arrives (q : NodeQ) (r : Record) : State := putQueue (inFl es (.record 7 r false)) 7 q
def q0 : NodeQ := { asid := 1, node := 1, chip := [], ring := [], head := 0, tail := 0, batch := false, newest := none }
def inflight (s : State) : Bool := decide (InFlight s 0 (fl0 s)) && !(s.nextFid == 0)
def oneHome (home : Nat) (act : Act) : State := { (inFl es act) with launches := [{ placedLaunch with home := home }], waves := [] }
def waiting : State := { es with launches := [{ placedLaunch with num := 2 ^ 33, begun := false, deps := [2 ^ 32, 2 ^ 40] }, { placedLaunch with complete := true }] }
def waiting2 : State := { es with launches := [{ placedLaunch with num := 2 ^ 33, begun := false, deps := [2 ^ 32] }, placedLaunch] }
theorem wit_RecordsWeightAndDependences :
    ([q0, { q0 with ring := [rec0] }, { q0 with batch := true }, { q0 with chip := List.replicate 32 rec0 }].all (fun q =>
      let s := arrives q rec0
      inflight s && recordTurn s (fl0 s) 7 rec0 && rankTurn s (fl0 s) 7 rec0 && arrivalRoom s 7 kernelNode rec0 false && arrivalRoom s 7 kernelNode rec0 true &&
        nodeOf s 1 1 == some kernelNode && queueAt s 7 1 1 == q)) = true ∧
    (let s := inFl es (.record 7 { rec0 with node := 9 } false)
     inflight s && recordTurn s (fl0 s) 7 { rec0 with node := 9 } && rankTurn s (fl0 s) 7 { rec0 with node := 9 } && (nodeOf s 1 9).isNone && (findCtx s 1).isSome) = true ∧
    (let s := inFl es (.record 8 rec0 false); inflight s && recordTurn s (fl0 s) 8 rec0) = true ∧
    inflight (inFl es (.batch 7 1 1 [rec0])) = true ∧
    (let s := oneHome 2 (.draw 0 (2 ^ 32) none); inflight s && (findLaunch s (2 ^ 32)).any (fun l => decide (2 ≤ l.home))) = true ∧
    (let s := oneHome (2 ^ 63) (.wreturn (2 ^ 32) 7); inflight s && (findLaunch s (2 ^ 32)).any (fun l => !l.complete && decide (l.home + 7 < 2 ^ 64))) = true ∧
    (let s := oneHome (2 ^ 63) (.wreturn (2 ^ 32) (2 ^ 63))
     inflight s && (findLaunch s (2 ^ 32)).any (fun l => !l.complete && l.home + 2 ^ 63 == 2 ^ 64 && launchQuiet s l) && s.regs.events == []) = true ∧
    ((findLaunch waiting (2 ^ 33)).any (fun l => !l.begun && !l.complete && waiting.regs.events == [] && l.deps.all (depMet waiting))) = true ∧
    ((findLaunch waiting2 (2 ^ 33)).any (fun l => !l.begun && !l.complete && waiting2.regs.events == [] && l.deps.any (fun d => !depMet waiting2 d))) = true := by
  decide +kernel
theorem test_arrivals : (queueAt (after (.recordArrival 0) (arrives q0 rec0)) 7 1 1).chip = [rec0] ∧
    (queueAt (after (.recordArrival 0) (arrives { q0 with chip := List.replicate 32 rec0 } rec0)) 7 1 1).ring = [rec0] ∧
    memBytes (after (.recordArrival 0) (arrives { q0 with chip := List.replicate 32 rec0 } rec0)).mem (0x70000 + 7 * 32 * 16) 8 = [1, 0, 0, 0, 2, 0, 0, 0] ∧
    (findLaunch (after (.weightReturn 0) (oneHome (2 ^ 63) (.wreturn (2 ^ 32) (2 ^ 63)))) (2 ^ 32)).map (fun l => l.complete) = some true ∧
    poolOf (after (.draw 0) (oneHome (2 ^ 62) (.draw 0 (2 ^ 32) none))) 0 (2 ^ 32) = 2 ^ 60 := by decide +kernel

/-! ### Traversal and texture units -/

/-- `es` with a descriptor address in s12. -/
def us : State := { es with waves := es.waves.map (fun w => wrS w 12 0x48000) }
def poorU : State := setPool { us with waves := us.waves.map (fun w => { w with weight := 1 }) } 0 (2 ^ 32) (2 ^ 56)
def unitOk (s : State) (i : Instr) (align : Nat) : Bool :=
  meets s i (fun w _ => decide (NoForks s w) && decide (counter s w.uid .tx < 63) && (rdS w 12).toNat % align == 0 &&
    isOk (checkPage s w.asid false .load (rdS w 12).toNat 8) && isOk (checkMem s w.asid false .load (rdS w 12).toNat 32) &&
    (!(w.weight == 1) || decide (2 ^ 56 ≤ poolOf s (quadOf w.die w.core) w.launch)))
theorem wit_UnitInstructionsIssue :
    ([0, 63, 64, 127].all (fun x => unitOk us (.hgf (vo 20 12 10 0 .b32 x)) 64 && unitOk us (.hgs (vo 0 12 10 20 .b32 x)) 64)) = true ∧
    unitOk us (.tex (vo 20 12 10 0 .b32 0)) 32 = true ∧ unitOk us (.tld (vo 20 12 10 0 .b32 0)) 32 = true ∧
    ([0, 2].all (fun x => unitOk us (.trace (vo 0 12 10 0 .b32 x)) 32)) = true ∧
    (unitOk us (.trace (vo 0 12 10 20 .b32 1)) 32 && unitOk poorU (.trace (vo 0 12 10 20 .b32 1)) 32) = true ∧
    ([0, 1].all (fun x => meets us (.tget (vo 20 0 0 0 .b32 x)) (fun w _ => !slotBusy us w.uid x))) = true := by decide +kernel

/-- Rays along +z from the origin, from 0 to infinity, every mask bit; its words changed by a function. -/
def ray (f : List W32 → List W32) : List W32 := f [0, 0, 0, 0, 0, 0x3F800000, 0, 0x7F800000, 0xFF]
def rayBad (rs : List W32) : Bool :=
  let word (i : Nat) : Nat := (rs.getD i 0).toNat
  let finite (x : Nat) : Bool := expField .f32 x != 255
  let nan (x : Nat) : Bool := expField .f32 x == 255 && mantField .f32 x != 0
  let zero (x : Nat) : Bool := x % 2 ^ 31 == 0
  !(finite (word 0) && finite (word 1) && finite (word 2)) || nan (word 3) || nan (word 4) || nan (word 5) ||
    (zero (word 3) && zero (word 4) && zero (word 5)) || nan (word 6) || nan (word 7) || f32Lt (word 7) (word 6) ||
    decide (2048 ≤ word 8) || word 8 / 512 % 4 == 3
theorem wit_RayRecords :
    ([ray (fun r => r.set 0 0x7F800000), ray (fun r => r.set 3 0x7FC00000), ray (fun r => r.set 5 0x80000000), ray (fun r => r.set 6 0xFFC00000),
      ray (fun r => r.set 7 0x80000001), ray (fun r => r.set 8 2048), ray (fun r => r.set 8 1536)].all rayBad) = true ∧
    ([ray id, ray (fun r => r.set 3 0x7F800000), ray (fun r => r.set 7 0x80000000), ray (fun r => r.set 8 0x5FF)].all (fun r => !rayBad r)) = true := by
  decide +kernel

/-- A descriptor at 0x48000 whose root is one leaf at 0x49000: the triangle (-1,-1,2), (1,-1,2), (0,1,2), primitive 7, mask 0x80, geometry 3, user word 9. -/
def leaf0 : List Nat := [0xBF800000, 0xBF800000, 0x40000000, 0x3F800000, 0xBF800000, 0x40000000, 0, 0x3F800000, 0x40000000, 7, 0x80000003, 9]
def rayM (s : State) : State :=
  putMem (putMem s 0x48000 (leBytes 8 (0x49000 + 8) ++ List.replicate 24 0)) 0x49000 (leaf0.flatMap (leBytes 4))
def rayCmd (queue : Bool) (rays : List Nat) (out : List (Nat × Nat × List W32)) : TraceCmd :=
  { desc := 0x48000, queue := queue, slot := 1, depth := 2, rays := rays.map (fun l => (l, if l = 1 then ray (fun r => r.set 5 0xBF800000) else ray id))
    pays := [], share := 8, out := out, sent := [] }
def rayS (c : TraceCmd) : State := flying (rayM us) (some .tx) (.trace c) none
/-- The same with the descriptor in a bank of the weight store that is in refresh (R184): the walk waits. -/
def bankS (s : State) : State := { s with mem := memPutNat s.mem (placedTable + 16) 8 (2 ^ 40 + 0x47) }
def rayWait (queue : Bool) : TraceCmd := { rayCmd queue [0] [] with desc := 2 ^ 31 }
theorem wit_RaysWait : ([false, true].all (fun q => let s := bankS (rayS (rayWait q))
    inflight s && (traceRay s (fl0 s).who (rayWait q) (ray id)).2.1.getD 0 0 == 7 &&
      (rayWait q).rays.find? (fun x => x.1 == 0) == some (0, ray id))) = true := by decide +kernel
theorem wit_RaysComplete :
    ([rayCmd false [0, 1] [], rayCmd false [1] []].all (fun c => inflight (rayS c) && !c.queue &&
      (match c.rays.find? (fun x => x.1 == 1) with | some x => (traceRay (rayS c) (fl0 (rayS c)).who c x.2).2.1.getD 0 0 != 7 | none => false) &&
      (findWave (rayS c) (fl0 (rayS c)).who.uid).isSome)) = true ∧
    (let c := { rayCmd true [] [] with share := 0, sent := [7] }; inflight (rayS c) && (rayS c).flights.all (fun g => !c.sent.contains g.id)) = true ∧
    ((rayCmd false [0, 1] []).rays.length ≠ 1 ∧ (rayCmd false [0, 1] []).out = [] ∧ (rayCmd false [0, 1] []).rays.Pairwise (fun x y => x.1 ≠ y.1)) ∧
    ([rayCmd true [2] [(1, 1, [9])], rayCmd true [] [(1, 1, [9])], rayCmd true [] [(1, 1, [9]), (2, 1, [8])]].all (fun c => inflight (rayS c) && c.queue &&
      (c.rays.find? (fun x => x.1 == 1)).isNone && c.out.find? (fun x => x.1 == 1) == some (1, 1, [9]) && c.rays.all (fun x => decide (1 < x.1)) &&
      c.out.all (fun x => decide (1 ≤ x.1)) && ringRoom (rayS c) (fl0 (rayS c)).who.die (fl0 (rayS c)).who.asid 1 && !(c.share == 1))) = true := by
  decide +kernel
/-- R324, R330: the hit at t = 2 with (u, v) = (1/4, 1/2), front-facing or not by its winding; the ray the other way misses. -/
def raySlot (l : Nat) : List W32 :=
  (List.range 8).map (fun i => stGet 0 (256 + 8 * l + i) (wv (after (.rayCompletion 0 l) (rayS (rayCmd false [0, 1] [])))).slots)
theorem test_rays : ((raySlot 0).getD 0 0).toNat % 256 = 2 ∧ (raySlot 0).drop 1 = [0x40000000, 0x3E800000, 0x3F000000, 7, 3, 9, 1] ∧
    raySlot 1 = [1, 0, 0, 0, 0, 0, 0, 1] := by decide +kernel
theorem test_queueRay : sent (after (.rayCompletion 0 1) (rayS (rayCmd true [2] [(1, 1, [9])]))) = (0, 2, 4, none) ∧
    sent (after (.rayCompletion 0 1) (rayS (rayCmd true [] [(1, 1, [9])]))) = (0, 2, 8, none) := by decide +kernel

/-- A 2 by 1 texture of FP32 texels at 0x4A000 with its descriptor at 0x48000. -/
def texM (s : State) : State :=
  putMem (putMem s 0x48000 (leBytes 8 0x4A000 ++ leBytes 8 (2 ^ 33 + 1) ++ leBytes 8 8 ++ leBytes 8 0)) 0x4A000 (leBytes 4 0x3F800000 ++ leBytes 4 0x40400000)
def texCmd (fn : TexFn) : TexCmd :=
  { fn := fn, desc := 0x48000, cnt := 1, dim := 2, dst := 20, lanes := [(0, [1, 0], []), (1, [2, 0], [])], formed := false, chunks := [], got := [] }
def texS (c : TexCmd) : State := flying (texM us) (some .tx) (.tex c) none
/-- A formed scatter with two chunks, and two adds of it to one word. -/
def hgsC : TexCmd := { texCmd .hgs with formed := true, chunks := [[(0x20000, 0x3F800000), (0x2FFFC, 0x40000000)], [(0x20000, 0)]] }
def hgsS : State := after (.chunk 0) (texS hgsC)
def flAt (s : State) (fid : Nat) : Flight := (findFlight s fid).getD (fl0 s)
theorem wit_TexelsAndGrids :
    ([TexFn.tld, .tex].all (fun fn => let s := texS (texCmd fn)
      inflight s && (findWave s (fl0 s).who.uid).isSome && (match (texRun s (fl0 s).who (texCmd fn)).2 with
        | .ok x => x.fail.isNone && !x.wait && x.bad == [] && x.vals.length == 8 && x.vals.all (fun v => decide (20 + v.2.1 < 256)) &&
            decide (x.vals.Pairwise (fun u v => ¬(u.1 = v.1 ∧ u.2.1 = v.2.1)))
        | .error _ => false))) = true ∧
    (inflight (texS hgsC) && hgsC.fn == .hgs && hgsC.formed && isOk (hgsPages (texS hgsC) (fl0 (texS hgsC)).who.asid (hgsC.chunks.headD []))) = true ∧
    (decide (InFlight hgsS 1 (flAt hgsS 1)) && (match (flAt hgsS 1).act with
      | .hgsAdd _ pa _ cmd => cmd == 0 && !hgsS.poison.contains (pa / 32) && hgsS.cores.all (fun c => c.2.relb == []) &&
          hgsS.flights.all (fun g => decide (1 ≤ g.id) || (match g.act with | .hgsAdd _ _ _ _ => false | _ => true))
      | _ => false)) = true ∧
    (((-1 : W32).toInt < 0) ∧ ((2 : W32).toInt = 2)) := by decide +kernel
theorem test_tld : ((List.range 4).map (fun i => rdV (wv (after (.textureCompletion 0) (texS (texCmd .tld)))) 0 (20 + i))) = [0x40400000, 0, 0, 0x3F800000] ∧
    rdV (wv (after (.textureCompletion 0) (texS (texCmd .tld)))) 1 20 = 0 := by decide +kernel
/-- The worked example of the hash grid: two levels of resolution 16 and 64, one feature, FP16 (R338, R339). -/
def grid0 : Grid := { bf := false, t := 10, feats := 1, levels := 2, dim := 2, fbase := 0x4B000, gbase := 0x4C000, res := [16, 64] }
def gridLane : TexLane := (0, [0x3DD00000, 0x3F210000], [])
theorem test_gridCorners :
    gridCorners grid0 0 gridLane.2.1 = [(171, 0x3EB40000), (172, 0x3F160000), (188, 0x3CC00000), (189, 0x3D200000)] ∧
    gridCorners grid0 1 gridLane.2.1 = [(942, 0x3EC00000), (943, 0x3EC00000), (351, 0x3E000000), (350, 0x3E000000)] ∧
    (hgfAddrs grid0 1 0 gridLane).map (fun a => a - 0x4B000) = [0xF5C, 0xF5E, 0xABE, 0xABC] := by decide +kernel
def gridS : State := putMem (putMem (putMem us (0x4B000 + 0x156) [0, 0x3C, 0, 0x40]) (0x4B000 + 0x178) [0, 0x42, 0, 0x44]) (0x4B000 + 0xABC) [0, 0x38, 0, 0x48]
def run0 : TexRun := { st := gridS, vals := [], bad := [], fail := none, wait := false }
def texWho : Who := whoOf (wv gridS)
theorem test_hgf : (hgfElem texWho [] grid0 0 0 gridLane run0).vals = [(0, 0, 0x3FE00000)] ∧
    (hgfElem texWho [] grid0 1 0 gridLane { run0 with st := putMem gridS (0x4B000 + 0xF5C) [0, 0x40, 0, 0xC0] }).vals = [(0, 1, 0x3F880000)] := by decide +kernel
/-- Two texels of 1.0 and 3.0: their middle is 2.0; wrapped, -1 is the last (R350). -/
def tex2 (bil wrap : Bool) : Texture := { base := 0x4A000, bil := bil, wrap := wrap, fmt := 2, h := 1, w := 2, pitch := 8 }
def texRun0 : TexRun := { run0 with st := texM us }
theorem wit_TexelValues :
    (texReads texWho [] 2 (hgfAddrs grid0 0 0 gridLane) gridS).2.all isOk = true ∧
    ([false, true].all (fun b => (texReads texWho [] 4 (texAddrs (tex2 b b) (0, [0x3F000000, 0], [])) (texM us)).2.all isOk)) = true ∧
    (texReads texWho [] 4 (tldAddrs (tex2 false false) (0, [1, 0], [])) (texM us)).2.all isOk = true ∧
    (0 ≤ (1 : W32).toInt ∧ (1 : W32).toInt < ((tex2 false false).w : Int)) := by decide +kernel
theorem test_tex :
    (texLane texWho [] (tex2 true false) (0, [0x3F000000, 0x3F000000], []) texRun0).vals = [(0, 0, 0x40000000), (0, 1, 0), (0, 2, 0), (0, 3, 0x3F800000)] ∧
    (texLane texWho [] (tex2 false true) (0, [0xBE800000, 0], []) texRun0).vals.take 1 = [(0, 0, 0x40400000)] ∧
    (texLane texWho [] (tex2 false false) (0, [0xBE800000, 0], []) texRun0).vals.take 1 = [(0, 0, 0x3F800000)] := by decide +kernel
theorem test_hgsAdd : memBytes (after (.hgsAdd 2) hgsS).mem 0x2FFFC 4 = [0, 0, 0, 0x40] := by decide +kernel

/-! ### Tiles, copies, glean -/

def planeT (rows cols planes enc : Nat) (st : TState) : Tile :=
  { plane := true, base := 0, size := 0, rows := rows, cols := cols, planes := planes, enc := enc, loss := false, st := st }
def bytesT (size : Nat) (st : TState) : Tile := { tileEmpty with base := 4, size := size, st := st }
/-- `us` with tiles 0 to 3: a plane of 8 rows, a bytes tile of 300, an empty one, a plane of one bit. s14 is a barrier's offset, s15 a peer handle,
s16 and s17 an address and its stride. -/
def tiles4 : List Tile := [planeT 8 8 8 0 .ready, bytesT 300 .ready, tileEmpty, planeT 16 16 1 0 .ready]
def tls : State :=
  { us with waves := us.waves.map (fun w => wrS (wrS (wrS (wrS { w with tiles := tiles4 ++ w.tiles.drop 4 } 14 0x2000) 15 0x2000) 16 0x48100) 17 0xFFFFFFFFFFFFFF00) }
def issuesAll (is : List Instr) : Bool := is.all (fun i => meets tls i (fun w _ => decide (NoForks tls w) && !copyFull tls w && decide (counter tls w.uid .cp < 63)))
def tileCmdS (c : TileCmd) : State := flying tls (some .cp) (.tile 63 c) none
theorem wit_TileCommands :
    issuesAll [.tdefBytes (co false 0 0 0 63 0 0 (some 0x10000000)), .tdefBytes (co false 0 0 0 0 0 0 (some 0x1000001)),
      .tdefPlane (co false 0 0 0 1 0 0 (some 0x0007000800008000)), .tset (co false 0 0 0 2 0 0 none), .tset (co false 0 0 0 3 0 5 none),
      .tset (co false 0 0 0 1 0 5 none), .tset (co false 0 0 0 0 0 3 none), .tq (co true 3 0 0 1 0 0 none)] = true ∧
    (256 * field 0x10000000 11 0 + field 0x10000000 35 12 = 65536 ∧ 256 * field 0x1000001 11 0 + field 0x1000001 35 12 ≤ (wv tls).foot.spad ∧
      256 * field 0x0007000800008000 11 0 + (field 0x0007000800008000 52 48 + 1) * field 0x0007000800008000 27 12 * field 0x0007000800008000 47 28 / 8 ≤ (wv tls).foot.spad ∧
      (tileNext tls 1 3).planes = 1 ∧ (tileNext tls 1 1).plane = false) ∧
    ([TileCmd.defBytes 0 65536, .defPlane 255 8 8 0, .set true 2, .set false 0].all (fun c => inflight (tileCmdS c) && tileTurns (tileCmdS c) (fl0 (tileCmdS c)) &&
      (match findWave (tileCmdS c) (fl0 (tileCmdS c)).who.uid with | some w => decide (63 < w.tiles.length) | none => false))) = true := by decide +kernel
theorem test_tq : rdS (wv (after (.tq (co true 3 0 0 1 0 0 none)) tls)) 3 = 0x402 ∧
    (tileAt (wv (after (.copyCommandStart 0) (tileCmdS (.defBytes 1 5)))) 63).size = 5 := by decide +kernel

/-- Copies of tile 0 (a plane) and tile 1 (bytes), packed and with a stride, with an own and a peer's barrier, with a reply. -/
def copyFnOf : Instr → Option (CopyFn × Cop)
  | .cpyLd o => some (.ld, o) | .cpySt o => some (.st, o) | .cpyGth o => some (.gth, o) | .cpyWs o => some (.ws, o) | .cpyFill o => some (.fill, o)
  | _ => none
def copyOk (i : Instr) : Bool :=
  meets tls i (fun w _ => decide (NoForks tls w) && !copyFull tls w && (match copyFnOf i with
    | some (fn, o) =>
      let geo := tileNext tls w.uid o.ta
      let a := rdS w o.sa
      let aligned := a.toNat % fmtAlign o.fmt == 0 && (!o.str || (rdS w (o.sa + 1)).toInt % fmtAlign o.fmt == 0)
      (match copyBar tls w o (fn == .gth) with | none | some (.ok _) => true | some (.error _) => false) &&
      (match fn with
       | .ld => aligned
       | .st => aligned && (!o.str || geo.plane) && !tileBreach tls w.uid o.ta
       | .ws => aligned && geo.plane
       | .gth => a.toNat % fmtAlign o.fmt == 0 && (rdS w o.sb).toNat % 4 == 0 && decide ((rdS w o.sb).toNat + 4 * geo.rows ≤ w.foot.spad) && geo.plane
       | .fill => true)
    | none => false))
def gleanOk (i : Instr) (o : Cop) (n size out : Nat) (dst : W64) : Bool :=
  meets tls i (fun w _ => (rdS w o.sa).toNat % size == 0 && dst.toNat % 8 == 0 && (!o.cm.testBit 10 || decide ((rdS w o.sa).toNat + size * n ≤ w.foot.spad)) &&
    (!o.cm.testBit 11 || decide (dst.toNat + out ≤ w.foot.spad)))
def glc (sa sb cm : Nat) (lit : Option W64) : Cop := co true 3 sa sb 0 0 cm lit
theorem wit_CopiesAndGleansIssue :
    ([Instr.cpyLd (co true 3 12 0 0 0 24 none), .cpyLd (co false 0 16 14 0 0 (1 + 0x40 + 0x80) none), .cpyLd (co false 0 12 15 1 0 (1 + 0x80 + 0x100) none),
      .cpySt (co false 0 12 0 1 0 1 none), .cpySt (co true 0 16 0 0 0 (16 + 0x40) none), .cpyWs (co false 0 16 0 0 0 (22 + 0x40) none),
      .cpyGth (co false 0 12 14 0 0 1 (some 64)), .cpyGth (co true 0 12 14 0 0 (24 + 0x80) (some 0x0000200000000020)),
      .cpyFill (co true 3 13 0 1 0 0 none), .cpyFill (co false 0 13 14 0 0 0x80 none)].all copyOk) = true ∧
    ([(12, 14, 0x800), (14, 12, 0x400), (12, 12, 0)].all (fun p =>
      [1, 256].all (fun k => gleanOk (.glTopk (glc p.1 p.2.1 (p.2.2 + k) (some 100))) (glc p.1 p.2.1 (p.2.2 + k) (some 100)) 100 4 (8 * k) (rdS (wv tls) p.2.1)) &&
      gleanOk (.glSmax (glc p.1 p.2.1 (p.2.2 + 512) (some 0x3F80000000000064))) (glc p.1 p.2.1 (p.2.2 + 512) (some 0x3F80000000000064)) 100 2 400 (rdS (wv tls) p.2.1))) = true ∧
    gleanOk (.glSamp (glc 12 14 256 none)) (glc 12 14 256 none) 256 8 0 0 = true ∧
    gleanOk (.glSamp (glc 14 12 1025 none)) (glc 14 12 1025 none) 1 8 0 0 = true ∧
    (rdS (wv tls) 14).toNat % 8 = 0 ∧ (rdS (wv tls) 12).toNat % 8 = 0 := by decide +kernel

/-- A copy in flight, number 0, with its reply in s3. -/
def cpy (fn : CopyFn) (tile : Nat) (geo : Tile) (fmt : Nat) (stride : Int) : CopyCmd :=
  { fn := fn, tile := tile, geo := geo, addr := 0x48000, stride := stride, fmt := fmt, bar := none, idx := 0x2000, started := false,
    first := 0, img := [], todo := [], total := 0, done := 0, lo := 0, hi := 0 }
def plane0 : Tile := planeT 8 8 8 0 .ready
def flyTls (cls : Cls) (act : Act) : State := flying (putMem tls 0x48000 ((List.range 64).map (fun i => BitVec.ofNat 8 (i + 1)))) (some cls) act (some 3)
def copyS (c : CopyCmd) : State := flyTls .cp (.copy c)
def startOk (c : CopyCmd) : Bool :=
  let s := copyS c
  inflight s && decide (findWave s (fl0 s).who.uid = some (wv s)) && decide (c.tile < (wv s).tiles.length) && c.bar.isNone && c.fn != .st && !c.started &&
  tileTurns s (fl0 s) && spanTurn s (fl0 s) [] (writeSpans (fl0 s).act) && !listBusy s 1 c && spanTurn s (fl0 s) [listSpan c] [] &&
  spanTurn s (fl0 s) (startReads s (fl0 s).who c) [] && !engRefresh s 1 (c.fn == .ws) (fillRanges s (fl0 s).who c) &&
  (match fillImage s (fl0 s).who c with | .ok (bs, _) => !bs.isEmpty || !replyBusy s (fl0 s) | .error _ => false)
def fillLen (c : CopyCmd) : Nat := match fillImage (copyS c) (fl0 (copyS c)).who c with | .ok (bs, _) => bs.length | .error _ => 99999
/-- A `cpy.st` of tile 0 or of tile 1, not started. -/
def storeOk (c : CopyCmd) : Bool :=
  let s := copyS c
  inflight s && c.fn == .st && !c.started && tileTurns s (fl0 s) && spanTurn s (fl0 s) [] (writeSpans (fl0 s).act) &&
  spanTurn s (fl0 s) (readSpans (fl0 s).act) [] && !fmtMismatch c.fn c.fmt c.geo && !padPoisoned s 1 (256 * c.geo.base) (tileBytes c.geo) &&
  !(partsOf (storeRows s 1 c).1).isEmpty
/-- A fill of tile 1 in two parts, the second of 44 bytes, and a store of the same. -/
def partC (fn : CopyFn) (todo : List Nat) : CopyCmd :=
  { cpy fn 1 (bytesT 300 .ready) 1 0 with started := true, first := 0x48000, img := [(0, (List.range 300).map (fun i => BitVec.ofNat 8 i))], todo := todo, total := 300,
                                          done := if todo.length = 1 then 256 else 0 }
theorem wit_CopiesRun :
    ([cpy .ld 0 plane0 16 8, cpy .ld 1 (bytesT 300 .ready) 1 0, cpy .gth 0 plane0 16 64, cpy .fill 0 plane0 0 0, cpy .fill 1 (bytesT 300 .ready) 0 0,
      cpy .fill 1 (bytesT 0 .ready) 0 0].all startOk) = true ∧
    (fillLen (cpy .ld 0 plane0 16 8) = 72 ∧ fillLen (cpy .fill 1 (bytesT 0 .ready) 0 0) = 0) ∧
    ([cpy .st 0 plane0 16 8, cpy .st 1 (bytesT 300 .ready) 1 0].all storeOk) = true ∧
    ([CopyFn.ld, .st].all (fun fn => [[0, 1], [1]].all (fun todo => let s := copyS (partC fn todo)
      inflight s && decide (findWave s (fl0 s).who.uid = some (wv s)) && (partC fn todo).todo.contains 1 && (partC fn todo).bar.isNone && !replyBusy s (fl0 s) &&
      isOk (runsPlan s (fl0 s).who.asid 0x48000 (partRuns (partC fn todo).img 1)) && s.cores.all (fun d => d.2.relb == [])))) = true ∧
    (copyS (cpy .fill 1 (bytesT 300 .ready) 0 0)).flights.map (fun f => f.rr) = [some 3] := by decide +kernel
theorem test_copyParts : memBytes (after (.copyPartCompletion 0 1) (copyS (partC .st [0, 1]))).mem 0x480FF 3 = [0, 0, 1] ∧
    padBytes (wv (after (.copyPartCompletion 0 1) (copyS (partC .ld [1])))).pad 0x52B 2 = [43, 0] ∧
    rdS (wv (after (.copyPartCompletion 0 1) (copyS (partC .ld [1])))) 3 = 300 ∧
    (tileAt (wv (after (.copyPartCompletion 0 1) (copyS (partC .ld [1])))) 1).st = .ready := by decide +kernel
/-- R272, R288: `cpy.fill` of 1.0 into eight planes: the same block everywhere. -/
theorem test_fillBytes : (fillImage (copyS (cpy .fill 1 (bytesT 9 .ready) 0 0)) (fl0 (copyS (cpy .fill 1 (bytesT 9 .ready) 0 0))).who
      { cpy .fill 1 (bytesT 9 .ready) 0 0 with addr := 0x0102030405060708 }) = .ok ([8, 7, 6, 5, 4, 3, 2, 1, 8], false) := by decide +kernel

def gl (fn : GleanFn) (n : Nat) (srcPad dstPad started : Bool) (words : List Nat) : GleanCmd :=
  { fn := fn, n := n, bf16 := false, src := if srcPad then 0x3000 else 0x48000, srcPad := srcPad, dst := if dstPad then 0x2000 else 0x50000, dstPad := dstPad,
    started := started, words := words, ans := 7 }
def gleanS (g : GleanCmd) : State := flyTls .cp (.glean g)
def gleanHere (g : GleanCmd) (H : State → Who → Bool) : Bool :=
  let s := gleanS g
  inflight s && decide (findWave s (fl0 s).who.uid = some (wv s)) && s.cores.all (fun d => d.2.relb == []) && spanTurn s (fl0 s) (readSpans (fl0 s).act) (writeSpans (fl0 s).act) &&
  !engRefresh s 1 false (gleanRanges g) && !replyBusy s (fl0 s) && H s (fl0 s).who
theorem wit_GleansRun :
    ([gl (.topk 2) 5 false true false [], gl (.topk 256) 3 true false false [], gl (.samp 0x3F000000 0) 2 false false false []].all (fun g =>
      gleanHere g (fun s who => isOk (gleanRead s who g)))) = true ∧
    ([gl (.smax 0x3F800000) 4 false true false [], gl (.smax 0x3F800000) 4 true false false []].all (fun g => gleanHere g (fun s who => match gleanRead s who g with
      | .ok bs => !smaxBad 0x3F800000 (gleanElems g bs) && !smaxOpen g &&
          isOk (gleanPlan s who g (wordBytes ((gleanElems g bs).map (smaxExp 0x3F800000 (smaxMax (gleanElems g bs))))))
      | .error _ => false))) = true ∧
    ([gl (.topk 1) 5 false true true [3, 4], gl (.topk 1) 5 false false true [3, 4], gl (.samp 0 0) 2 false false true []].all (fun g =>
      gleanHere g (fun s who => isOk (gleanPlan s who g (wordBytes g.words))))) = true := by decide +kernel
theorem test_topk : topPairs 3 [0x3F800000, 0x7FC00000, 0x40000000, 0x40000000] = [(2, 0x40000000), (3, 0x40000000), (0, 0x3F800000)] ∧
    topPairs 2 [0xFFC00001] = [(0, 0x7FC00000), (0xFFFFFFFF, 0x7FC00000)] := by decide +kernel
theorem test_samp : sampAns 0x3F000000 0 [(9, 0x3F800000), (8, 0x40000000)] = 0x0000000100000008 ∧
    sampAns 0x3E800000 0 [(9, 0x3F800000), (8, 0x40000000)] = 9 := by decide +kernel
theorem test_gleanCompletion : padBytes (wv (after (.gleanCompletion 0) (gleanS (gl (.topk 1) 5 false true true [3, 4])))).pad 0x2000 8 = [3, 0, 0, 0, 4, 0, 0, 0] ∧
    rdS (wv (after (.gleanCompletion 0) (gleanS (gl (.topk 1) 5 false true true [3, 4])))) 3 = 7 := by decide +kernel

/-! ### Checks of commands -/

/-- `tls` with s18 at an odd address, s19 four bytes before the end of the scratchpad, s20 at its end, s21 past every page, in a wave of depth 15;
node 2 is a sink. -/
def badC : State :=
  { tls with waves := tls.waves.map (fun w => { (wrS (wrS (wrS (wrS (wrS (wrS w 18 0x48001) 19 65532) 20 65536) 21 (2 ^ 56)) 22 4096) 23 (2 ^ 20)) with depth := 15 })
             ctxs := tls.ctxs.map (fun c => { c with ncnt := 3, nodes := c.nodes ++ [{ kernelNode with sink := true }],
                                                     regions := [{ region0 with valid := false }] }) }
def traps (i : Instr) (H : Wave → Bool) : Bool := meets badC i (fun w _ => decide (CanTrap badC w) && H w)
theorem wit_CommandChecksTrap :
    traps (.trace (vo 0 21 10 0 .b32 0)) (fun w => isErr (checkMem badC w.asid false .load (rdS w 21).toNat 32) && decide (counter badC w.uid .tx < 63)) = true ∧
    ([Instr.hgf (vo 20 18 10 0 .b32 0), .hgs (vo 0 18 10 20 .b32 0), .tex (vo 20 18 10 0 .b32 0), .tld (vo 20 18 10 0 .b32 0)].all (fun i =>
      traps i (fun w => !((rdS w 18).toNat % 32 == 0)))) = true ∧
    ([Instr.hgf (vo 20 21 10 0 .b32 0), .hgs (vo 0 21 10 20 .b32 0), .tex (vo 20 21 10 0 .b32 0), .tld (vo 20 21 10 0 .b32 0)].all (fun i =>
      traps i (fun w => (rdS w 21).toNat % 64 == 0 && isErr (checkPage badC w.asid false .load (rdS w 21).toNat 8)))) = true ∧
    traps (.spawn (go 0 8 1 0 .b32 0)) (fun w => opB w (go 0 8 1 0 .b32 0) .b64 0 == 1 && badC.pod.members.contains badC.pod.pkg &&
      nodeOf badC w.asid 1 == some kernelNode && w.depth == 15) = true ∧
    ([(go 0 8 9 0 .b32 0, 9), (so 0 8 22 0 .b32 0, 4096)].all (fun (o, t) => traps (.spawn o) (fun w => opB w o .b64 0 == t && (decide (2 ^ 12 ≤ t) || (nodeOf badC w.asid t).isNone)) &&
      traps (.enq o) (fun w => !t.testBit 20 && (decide (2 ^ 12 ≤ t) || (nodeOf badC w.asid t).isNone)))) = true ∧
    ([(so 0 8 23 0 .b32 0, 2 ^ 20), (go 0 8 9 0 .b32 0, 9), (go 0 8 2 0 .b32 0, 2)].all (fun (o, t) => traps (.amsg o) (fun w => opB w o .b64 0 == t &&
      !t.testBit 21 && (decide (2 ^ 20 ≤ t) || (match nodeOf badC w.asid t with | none => true | some n => n.sink))))) = true ∧
    traps (.dlaunch (so 0 21 0 0 .b32 0)) (fun w => isErr (checkMem badC w.asid false .load (rdS w 21).toNat 64)) = true ∧
    ([14, 2].all (fun a => [Instr.estAdv (co false 0 a 0 0 0 0 none), .estClose (co false 0 a 0 0 0 0 none)].all (fun i => traps i (fun w =>
      decide (256 ≤ (rdS w a).toNat) || (match regionOf badC w.asid (rdS w a).toNat with | some r => !r.valid | none => false))))) = true := by decide +kernel
theorem wit_CommandChecksTrap2 :
    traps (.tdefBytes (co false 0 0 0 0 0 0 (some 0x10001000))) (fun w => decide (w.foot.spad < 256 * (0x10001000 % 2 ^ 12) + 0x10001000 / 2 ^ 12 % 2 ^ 24)) = true ∧
    traps (.tset (co false 0 0 0 0 0 5 none)) (fun w => (tileNext badC w.uid 0).plane && !((tileNext badC w.uid 0).planes == 1)) = true ∧
    ([Instr.cpyLd (co false 0 18 0 0 0 24 none), .cpySt (co false 0 18 0 0 0 1 none), .cpyWs (co false 0 18 0 1 0 1 none), .cpyGth (co false 0 18 14 0 0 1 (some 64))].all (fun i =>
      traps i (fun w => !copyFull badC w && (match copyFnOf i with | some (_, o) => !((rdS w o.sa).toNat % fmtAlign o.fmt == 0) | none => false)))) = true ∧
    ([Instr.cpyLd (co false 0 16 18 0 0 0x81 none), .cpySt (co false 0 16 18 0 0 0x81 none), .cpyWs (co false 0 16 18 0 0 0x96 none)].all (fun i =>
      traps i (fun w => match copyFnOf i with
        | some (_, o) => (rdS w o.sa).toNat % fmtAlign o.fmt == 0 && !o.str && o.bar && isErr (barAddr badC w o.pb (rdS w o.sb) false)
        | none => false))) = true ∧
    traps (.cpySt (co false 0 16 0 2 0 1 none)) (fun w => tileBreach badC w.uid 2) = true ∧
    traps (.cpyWs (co false 0 16 0 1 0 22 none)) (fun w => !(tileNext badC w.uid 1).plane) = true ∧
    traps (.cpyGth (co false 0 16 18 0 0 1 (some 64))) (fun w => !((rdS w 18).toNat % 4 == 0)) = true ∧
    traps (.cpyGth (co false 0 16 19 0 0 1 (some 64))) (fun w => (rdS w 19).toNat % 4 == 0 && decide (w.foot.spad < (rdS w 19).toNat + 4 * (tileNext badC w.uid 0).rows)) = true ∧
    ([(18, 14, 0), (12, 18, 0), (20, 14, 0x400)].all (fun p => traps (.glTopk (glc p.1 p.2.1 (p.2.2 + 1) (some 100))) (fun _ => true) &&
      traps (.glSmax (glc p.1 p.2.1 (p.2.2 + 512) (some 0x3F80000000000064))) (fun _ => true))) = true ∧
    ((rdS (wv badC) 18).toNat % 2 = 1 ∧ (rdS (wv badC) 20).toNat % 4 = 0 ∧ (wv badC).foot.spad < (rdS (wv badC) 20).toNat + 2 * 100) := by decide +kernel
theorem test_command_checks :
    ((wv (after (.spawn (go 0 8 1 0 .b32 0)) badC)).trap.recs.map (fun r => (r.cause, r.detail))) = [(9, 1)] ∧
    ((wv (after (.cpySt (co false 0 16 0 2 0 1 none)) badC)).trap.recs.map (fun r => (r.cause, r.detail))) = [(8, 2)] ∧
    ((wv (after (.tdefBytes (co false 0 0 0 0 0 0 (some 0x10001000))) badC)).trap.recs.map (fun r => r.cause)) = [5] := by decide +kernel

/-! ### Matrix engine -/

def planeAt (base rows cols planes enc : Nat) : Tile := { planeT rows cols planes enc .ready with base := base }
/-- Tile 0 is A (8 by 16, four planes), tile 1 is B (16 by 8), tile 2 holds bytes, tile 3 is B of a pair; 4 and 5 have one plane, 6 and 7 seventeen. -/
def matTiles : List Tile :=
  [planeAt 0 8 16 4 0, planeAt 1 16 8 4 0, { tileEmpty with base := 8, size := 4096, st := .ready }, planeAt 32 16 128 4 0,
   planeAt 2 128 16 1 1, planeAt 4 16 128 1 1, planeAt 64 8 16 17 1, planeAt 66 16 8 17 1]
/-- `us` with those tiles, a lease count, and the wave of the follower core, number 2, whose tile 3 has 8 columns; s14 a bitmap's offset, s15 the
pair's handle, s16 and s17 an address and a stride. -/
def mxS (lease : Nat) : State :=
  let w := wv us
  let w1 := wrS (wrS (wrS (wrS { w with tiles := matTiles ++ w.tiles.drop 8, lease := lease } 14 0x7FF8) 15 0x4000000000) 16 0x50000) 17 0x100
  { us with waves := [w1, { w1 with uid := 2, core := 1, tiles := matTiles.set 3 (planeAt 32 16 8 4 0) ++ w.tiles.drop 8 }], nextUid := 3 }
def mxF (lease : Nat) : State := { (mxS lease) with waves := (mxS lease).waves.take 1 |>.map (fun w => { w with core := 1 }) }
def mmoOk (lease : Nat) (o : Cop) : Bool :=
  let s := mxS lease
  let mode : BMode := match o.cm % 8 with | 0 => .f32 | 1 => .i32 | 2 => .minplus | 3 => .maxplus | 4 => .maxtimes | _ => .orand
  let planesOk (p : Nat) : Bool := (!(mode == .minplus || mode == .maxplus || mode == .maxtimes) || decide (p ≤ 16)) && (!(mode == .orand) || p == 1)
  meets s (.mmo o) (fun w _ =>
    let a := tileNext s w.uid o.ta
    let b := tileNext s w.uid o.tb
    let off := (rdS w o.sa).toNat
    let h := (rdS w o.sb)
    decide (NoForks s w) && decide (counter s w.uid .mx < 63) && w.core % 2 == 0 && !(w.lease == 0) &&
    (!o.cm.testBit 4 || (off % 2 == 0 && decide (off + a.cols / 4 ≤ w.foot.spad))) && a.plane && [8, 16, 32, 64, 128].contains a.rows && planesOk a.planes &&
    !tileBreach s w.uid o.ta && b.plane && b.rows == a.cols && (if o.cm.testBit 5 then b.cols == 128 else decide (b.cols ≤ 128)) && planesOk b.planes &&
    !tileBreach s w.uid o.tb && (!o.cm.testBit 5 || (field h.toNat 63 40 == 0 && field h.toNat 39 38 == w.core % 4 + 1 && field h.toNat 31 0 == 0 &&
      (match peerOf s w h with
       | some p => let t := tileNext s p.uid o.tb
         decide (o.tb < p.foot.tiles) && t.plane && t.rows == a.cols && decide (t.cols ≤ 128) && t.planes == b.planes && t.enc == b.enc && !tileBreach s p.uid o.tb
       | none => false))))
def drainOk (lease : Nat) (o : Cop) : Bool :=
  let s := mxS lease
  meets s (.mdrain o) (fun w _ =>
    let a := tileNext s w.uid o.ta
    let rows := match field o.cm 6 4 with | 0 => 0 | n => 2 ^ (n + 2)
    let cols := 8 * field o.cm 11 7
    !(w.lease == 0) && (if o.cm.testBit 2 then !a.plane && (rows == 0 || cols == 0 || decide (4 * rows * cols ≤ a.size))
      else (rdS w o.sa).toNat % 4 == 0 && (!o.cm.testBit 3 || (rdS w (o.sa + 1)).toInt % 4 == 0)))
theorem wit_MatrixCommandsIssue :
    ([0, 1, 254, 255].all (fun l => [1, 255].all (fun k => meets (mxS l) (.mlease (co true 3 0 0 0 0 k none)) (fun w _ => decide (NoForks (mxS l) w) && w.core % 2 == 0)) &&
      meets (mxS l) (.mrel (co false 0 0 0 0 0 0 none)) (fun w _ => decide (NoForks (mxS l) w) && w.core % 2 == 0))) = true ∧
    ([1, 255].all (fun l => [0, 1, 5].all (fun k => meets (mxS l) (.mclr (co false 0 0 0 0 0 k none)) (fun w _ => decide (counter (mxS l) w.uid .mx < 63) && !(w.lease == 0))))) = true ∧
    ([co false 0 0 0 0 1 0 none, co false 0 0 0 6 7 1 none, co false 0 14 0 0 1 (8 + 16 + 2) none, co false 0 0 0 0 1 3 none, co false 0 0 0 0 1 4 none,
      co false 0 14 0 4 5 (5 + 16) none, co false 0 0 15 0 3 32 none].all (fun o => mmoOk 1 o && mmoOk 255 o)) = true ∧
    ([co false 0 16 0 0 0 0 none, co false 0 16 0 0 0 (8 + 3) none, co false 0 0 0 2 0 4 none, co false 0 0 0 2 0 (5 + 0x20 + 0x400) none].all (fun o => drainOk 1 o)) = true ∧
    ([Instr.mlease (co false 0 0 0 0 0 1 none), .mrel (co false 0 0 0 0 0 0 none), .mclr (co false 0 0 0 0 0 0 none)].all (fun i =>
      meets (mxF 1) i (fun w _ => decide (CanTrap (mxF 1) w) && w.core % 2 == 1))) = true ∧
    meets (mxS 0) (.mclr (co false 0 0 0 0 0 0 none)) (fun w _ => decide (CanTrap (mxS 0) w) && w.lease == 0) = true := by decide +kernel
/-- The traps of `mmo` and `mdrain`: no lease, the bitmap's offset, the handle, its peer, the tile, a drain's address. -/
def badM (l : Nat) : State := let s := mxS l
  { s with waves := s.waves.map (fun w => wrS (wrS (wrS w 18 0x7FF9) 19 65534) 20 0x4500000000) }
def mxTraps (l : Nat) (i : Instr) (H : Wave → Bool) : Bool :=
  meets (badM l) i (fun w _ => decide (NoForks (badM l) w) && decide (CanTrap (badM l) w) && decide (counter (badM l) w.uid .mx < 63) && H w)
def named (w : Wave) (h : W64) : Bool := h.toNat / 2 ^ 40 % 2 ^ 24 == 0 && h.toNat / 2 ^ 38 % 4 == w.core % 4 + 1 && h.toNat % 2 ^ 32 == 0
theorem wit_MatrixCommandsTrap :
    mxTraps 0 (.mmo (co false 0 0 0 0 1 0 none)) (fun w => w.lease == 0) = true ∧ mxTraps 0 (.mdrain (co false 0 16 0 0 0 0 none)) (fun w => w.lease == 0) = true ∧
    mxTraps 1 (.mmo (co false 0 18 0 0 1 16 none)) (fun w => (rdS w 18).toNat % 2 == 1) = true ∧
    mxTraps 1 (.mmo (co false 0 19 0 0 1 16 none)) (fun w => (rdS w 19).toNat % 2 == 0 && decide (w.foot.spad < (rdS w 19).toNat + (tileNext (badM 1) w.uid 0).cols / 4)) = true ∧
    mxTraps 1 (.mmo (co false 0 0 18 0 1 32 none)) (fun w => !named w (rdS w 18)) = true ∧
    mxTraps 1 (.mmo (co false 0 0 20 0 1 32 none)) (fun w => named w (rdS w 20) && (peerOf (badM 1) w (rdS w 20)).isNone) = true ∧
    mxTraps 1 (.mdrain (co false 0 18 0 0 0 0 none)) (fun w => !((rdS w 18).toNat % 4 == 0)) = true ∧
    mxTraps 1 (.mmo (co false 0 0 0 2 1 0 none)) (fun w => !(w.lease == 0) && w.core % 2 == 0 && !(tileNext (badM 1) w.uid 2).plane) = true ∧
    mxTraps 1 (.mmo (co false 0 0 0 6 7 2 none)) (fun w => !(w.lease == 0) && decide (16 < (tileNext (badM 1) w.uid 6).planes)) = true ∧
    mxTraps 1 (.mdrain (co false 0 0 0 0 0 4 none)) (fun w => !(w.lease == 0) && (tileNext (badM 1) w.uid 0).plane) = true := by decide +kernel
theorem test_matrixTraps :
    let causes (i : Instr) (l : Nat) : List (Nat × W64) := (wv (after i (badM l))).trap.recs.map (fun r => (r.cause, r.detail))
    causes (.mmo (co false 0 0 20 0 1 32 none)) 1 = [(6, 0x501)] ∧ causes (.mmo (co false 0 0 0 2 1 0 none)) 1 = [(8, 2)] := by decide +kernel
def leaseOf (i : Instr) (s : State) : Nat := (wv (after i s)).lease
theorem test_lease : leaseOf (.mlease (co false 0 0 0 0 0 5 none)) (mxS 254) = 255 ∧ leaseOf (.mrel (co false 0 0 0 0 0 0 none)) (mxS 9) = 0 ∧
    leaseOf (.mclr (co false 0 0 0 0 0 1 none)) (mxS 9) = 8 ∧ xcause (wv (after (.mclr (co false 0 0 0 0 0 1 none)) (mxS 0))).trap = 2 ^ 11 := by decide +kernel

/-- Matrix commands in flight; the engine's bank a1 holds one word in its 8 by 8 extent. -/
def bank1 : Bank := { fill := 3, words := [(0, 7), (257, 9)], rows := 8, cols := 8, mode := .i32, ovf := true, last := some (7, 9) }
def eng1 (holder : Option (Nat × Nat)) (last : Option Nat) : Engine := { a0 := bankClear, a1 := bank1, holder := holder, lastCtx := last, errs := [] }
def mxC (e : Engine) (cls : Option Cls) (m : MatCmd) : State := flying { (putEngine (mxS 3) 0 e) with time := 1000 } cls (.matrix m) (some 3)
def mc (fn : MatFn) (ends : Bool) : MatCmd := matCmd (mxS 3) (wv (mxS 3)) fn ends
def fMine : Engine := eng1 (some (1, 1)) (some 0)
def mcOf (s : State) : MatCmd := match (fl0 s).act with | .matrix m => m | _ => mc .rel false
def flOk (s : State) : Bool := inflight s && (match (fl0 s).act with | .matrix m => m.failed.isNone | _ => false)
theorem wit_LeasesAndBanks :
    ([eng1 none none, eng1 none (some 0), eng1 none (some 9), eng1 (some (99, 1)) (some 0)].all (fun e => let s := mxC e none (mc (.lease true 5) false)
      flOk s && leaseFree s 0 && nextLease s 0 == some (fl0 s) && !(fl0 s).held && decide ((mcOf s).cycle < coreClock s (fl0 s).who.die (fl0 s).who.core))) = true ∧
    ([MatFn.lease false 7, .rel].all (fun fn => let s := mxC fMine none (mc fn false)
      flOk s && !(mcOf s).started && matOlder s (fl0 s) (mcOf s) == [] && decide (findWave s (fl0 s).who.uid = some (wv s)))) = true ∧
    ([(0, 0), (1, 1), (1, 2)].all (fun p => [false, true].all (fun e => let s := mxC fMine (some .mx) (mc (.clr p.1 p.2) e)
      flOk s && !(mcOf s).started && matReady s (fl0 s) (mcOf s) && !endWaits s (fl0 s) (mcOf s)))) = true := by decide +kernel
/-- R300: of two requests the one of the earlier cycle is granted, of two of one cycle the one of the lower wave context. -/
def asks (c0 c1 x0 x1 : Nat) : State :=
  let req (c : Nat) : MatCmd := { mc (.lease true 5) false with cycle := c }
  let s := mxC (eng1 none none) none (req c0)
  let t := flying s none (.matrix (req c1)) none
  { t with flights := t.flights.mapIdx (fun i f => { f with who := { f.who with wctx := if i = 0 then x0 else x1 } }) }
theorem test_nextLease : (nextLease (asks 5 4 0 1) 0).map (fun f => f.who.wctx) = some 1 ∧ (nextLease (asks 5 5 7 1) 0).map (fun f => f.who.wctx) = some 1 ∧
    (nextLease (asks 5 6 7 1) 0).map (fun f => f.who.wctx) = some 7 ∧ (nextLease (asks 2000 4000 0 0) 0).isNone = true := by decide +kernel
theorem test_banks : bankWord (engineAt (after (.leaseGrant 0) (mxC (eng1 none (some 9)) none (mc (.lease true 5) false))) 0).a1 1 1 = 0 ∧
    bankWord (engineAt (after (.leaseGrant 0) (mxC (eng1 none (some 0)) none (mc (.lease true 5) false))) 0).a1 1 1 = 9 ∧
    bankWord (engineAt (after (.matrixCommandStart 0) (mxC fMine (some .mx) (mc (.clr 1 2) true))) 0).a1 127 255 = 0x80000000 ∧
    (engineAt (after (.matrixCommandStart 0) (mxC fMine (some .mx) (mc (.clr 1 2) true))) 0).holder = none := by decide +kernel

/-- Running commands: an `mmo` with its words, drains to memory, to a tile, with add-on. -/
def running (fn : MatFn) (words : Store W32) (out : List (Nat × W32)) : MatCmd :=
  { mc fn false with started := true, words := words, out := out, rows := 8, cols := 2, mode := .i32 }
def mmoFn (mode : BMode) : MatFn := .mmo 1 mode 0 1 none none
def outs : List (Nat × W32) := [(0, 5), (1, 6), (2, 7), (3, 8)]
def drTile : State := mxC fMine (some .mx) (running (.drain 1 false (some 2) 0 none 0 0) [] outs)
def drMem (add : Bool) : State := mxC fMine (some .mx) (running (.drain 1 add none 0x50000 (some 0x100) 0 0) [] outs)
theorem wit_MatrixRuns :
    ([mmoFn .i32, mmoFn .f32, .mmo 0 .minplus 0 1 (some 0x7FF8) none, .mmo 1 .orand 4 5 none none, .mmo 1 .f32 0 3 none (some 2),
      .drain 1 false none 0x50000 none 0 0, .drain 1 true none 0x50000 (some 256) 8 16, .drain 1 false (some 2) 0 none 0 0].all (fun fn =>
      let s := mxC fMine (some .mx) (mc fn true)
      flOk s && !(mcOf s).started && matReady s (fl0 s) (mcOf s) && !endWaits s (fl0 s) (mcOf s))) = true ∧
    (let s := mxC fMine (some .mx) (running (mmoFn .i32) [(0, 1)] []); flOk s && !endWaits s (fl0 s) (mcOf s) && !((mcOf s).rows == 0)) = true ∧
    (flOk drTile && !endWaits drTile (fl0 drTile) (mcOf drTile) && decide (findWave drTile (fl0 drTile).who.uid = some (wv drTile)) && decide (2 < (wv drTile).tiles.length)) = true ∧
    ([false, true].all (fun a => flOk (drMem a) && !endWaits (drMem a) (fl0 (drMem a)) (mcOf (drMem a)) && (drMem a).cores.all (fun d => d.2.relb == []))) = true ∧
    (let s := drMem true
     let m := mcOf s
     let l := m.out.filter (fun x => (drainAddr m 0x50000 (some 0x100) x.1).toNat / 256 == 0x501)
     (l.findSome? (fun x => drainFault s (fl0 s) m true 0x50000 (some 0x100) x.1)).isNone && (drainWords s (fl0 s) m true 0x50000 (some 0x100) l).2.isNone) = true ∧
    (let s := { (drMem true) with poison := [0x50104 / 32] }
     let m := mcOf s
     let l := m.out.filter (fun x => (drainAddr m 0x50000 (some 0x100) x.1).toNat / 256 == 0x501)
     flOk s && (l.findSome? (fun x => drainFault s (fl0 s) m true 0x50000 (some 0x100) x.1)).isSome) = true ∧
    ((match engPage (drMem true) 1 3 writable (drainAddr (mcOf (drMem true)) 0x50000 (some 0x100) 3).toNat with
      | .ok p => p.2 == 0x50104 | .error _ => false) &&
      [false, true].all (fun a => (drainFault (drMem a) (fl0 (drMem a)) (mcOf (drMem a)) a 0x50000 (some 0x100) 3).isNone)) = true := by decide +kernel
/-- R271, R308, R309: with every bit of both tiles set, four signed planes hold -1 and the exponent 255 says NaN under `.f32`. -/
theorem test_stepWord : stepWord .i32 { bs := List.replicate 80 255, rows := 8, cols := 16, planes := 4, enc := 0 }
      { bs := List.replicate 80 255, rows := 16, cols := 8, planes := 4, enc := 0 } 0 0 0 5 = (13, false) ∧
    stepWord .minplus { bs := List.replicate 80 255, rows := 8, cols := 16, planes := 4, enc := 0 }
      { bs := List.replicate 80 255, rows := 16, cols := 8, planes := 4, enc := 0 } 0 0 0 0 = (0xFFFFFFFE, false) ∧
    (stepWord .f32 { bs := List.replicate 80 255, rows := 8, cols := 16, planes := 4, enc := 0 }
      { bs := List.replicate 80 255, rows := 16, cols := 8, planes := 4, enc := 0 } 0 0 0 0).1 = 0x7FC00000 ∧
    (let bs : List Byte := List.replicate 64 255 ++ List.replicate 16 127
     (stepWord .f32 { bs := bs, rows := 8, cols := 16, planes := 4, enc := 0 } { bs := bs, rows := 16, cols := 8, planes := 4, enc := 0 } 0 0 0 0x3F800000).1 =
      0x41100000) := by decide +kernel
theorem test_drains : memBytes (after (.drainCompletion 0) (drMem false)).mem 0x50104 4 = [8, 0, 0, 0] ∧
    memBytes (after (.addOnStore 0 0x501) (drMem true)).mem 0x50000 8 = [0, 0, 0, 0, 0, 0, 0, 0] ∧
    padBytes (wv (after (.drainCompletion 0) drTile)).pad 0x80C 4 = [8, 0, 0, 0] := by decide +kernel

/-! ### Host interface -/

/-- `es` with rings of 16 slots: commands at 0x60000, events at 0x1000 of the host's memory. -/
def hs : State := { es with regs := { es.regs with crbase := 0x60000, crlog := 4, evbase := 0x1000, evlog := 4, savemax := 0x100, notify := 2, akeyIdx := 0 } }
def regS (f : Regs → Regs) : State := { hs with regs := f hs.regs }
theorem wit_DeviceRegisters :
    ((16 : W32) - hs.regs.crhead).toNat ≤ 2 ^ hs.regs.crlog ∧ 2 ^ hs.regs.crlog < ((17 : W32) - hs.regs.crhead).toNat ∧
    hs.regs.req = false ∧ (regS (fun r => { r with req := true })).regs.req = true ∧
    (∀ off ∈ [0, 8, 0x58, 0x80, 0x118, 0xFFFFF], off ∉ [0x010, 0x018, 0x020, 0x040, 0x048, 0x050, 0x060, 0x068, 0x078, 0x100, 0x108, 0x110] ∧ off < 0x100000) ∧
    (let r := (regS (fun r => { r with evtail := 16, events := [[1]] })).regs; ¬(r.evtail - r.evhead).toNat < 2 ^ r.evlog ∧ r.events ≠ []) ∧
    (let r := (regS (fun r => { r with evtail := 14, events := [List.replicate 8 1, List.replicate 8 2, List.replicate 8 3] })).regs
     r.events = [List.replicate 8 1, List.replicate 8 2] ++ [List.replicate 8 3] ∧ r.evlog ≤ 20 ∧
       (∀ e ∈ [List.replicate 8 (1 : W32), List.replicate 8 2], e.length = 8) ∧ (r.evtail - r.evhead).toNat + 2 = 2 ^ r.evlog) ∧
    (let r := (regS (fun r => { r with evtail := 14, events := [List.replicate 8 1] })).regs
     r.events = [List.replicate 8 1] ++ [] ∧ (r.evtail - r.evhead).toNat + 1 ≤ 2 ^ r.evlog) := by decide +kernel
/-- Two of three waiting events fit, across the end of the ring (R402). -/
theorem test_events : let s := regS (fun r => { r with evhead := 1, evtail := 15, events := [List.replicate 8 1, List.replicate 8 2, List.replicate 8 3] })
    (after .eventRingResume s).regs.events = [List.replicate 8 3] ∧ (after .eventRingResume s).regs.evtail = 17 ∧
    memBytes (after .eventRingResume s).hostMem (0x1000 + 32 * 15) 4 = [1, 0, 0, 0] ∧ memBytes (after .eventRingResume s).hostMem 0x1000 4 = [2, 0, 0, 0] := by
  decide +kernel
/-- R400, R402: a NOTIFY past the ring is reported, with CRHEAD and OP of all ones, and leaves NOTIFY. -/
theorem test_notify : memBytes (after (.notify 17) hs).hostMem 0x1000 32 = List.replicate 12 0 ++ leBytes 4 0xFFFFFFFF ++ List.replicate 12 0 ++ leBytes 4 0x11 ∧
    (after (.notify 17) hs).regs.notify = 2 ∧ (after (.notify 16) hs).regs.notify = 16 := by decide +kernel
theorem test_registers : (after (.registerWrite 0x048 20) (regS (fun r => { r with crhead := 2 }))).regs.crlog = 4 ∧
    (after (.registerWrite 0x048 16) (regS (fun r => { r with crhead := 2 }))).regs.crlog = 16 ∧
    (after (.registerWrite 0x040 0x61000) hs).regs.crbase = 0x60000 ∧ regRead hs.regs 0x010 = some 0xF := by decide +kernel

/-- A command in slot 0, with its payload in the slots behind it and the CRC of R398. -/
def ringCmd (op npay asid : Nat) (args : List Nat) (pay : List Byte) (wrong : Bool) : State :=
  let q0 := asid + 2 ^ 16 * npay + 2 ^ 24 * op + 2 ^ 32 * (if wrong then 7 else 1)
  let ws := (args ++ List.replicate 6 0).take 6
  let crc := crc32c (leBytes 8 q0 ++ ws.flatMap (leBytes 8) ++ pay)
  putMem hs 0x60000 (leBytes 8 q0 ++ leBytes 8 crc ++ ws.flatMap (leBytes 8) ++ pay)
def isPlain (s : State) (n : Nat) : Bool :=
  let c := cmdAt s
  field (qword c.head 0) 15 11 == 0 && qword c.head 1 / 2 ^ 32 == 0 && (List.range 8).all (fun i => decide (i < n) || qword c.head i == 0)
def ringOk (s : State) (op npay n : Nat) : Bool :=
  cmdDue s && cmdPasses s (cmdAt s) && (cmdAt s).op == op && (cmdAt s).npay == npay && isPlain s n
/-- Launch descriptor of node 1: two tasks from index 5. -/
def launchPay (count : Nat) : List Byte := leBytes 8 1 ++ leBytes 8 (2 ^ 32 * count + 5) ++ List.replicate 48 0
/-- Descriptor of context 5 at 0x61000, its one node the kernel at 0x40000 with two slices. -/
def ctxDesc : List Byte := leBytes 8 5 ++ leBytes 8 0x100000 ++ leBytes 8 0 ++ leBytes 8 0x62000 ++ leBytes 8 1 ++ leBytes 8 0x80000 ++ List.replicate 16 0
def loadS : State := putMem (putMem (ringCmd 2 0 0 [0x61000] [] false) 0x61000 ctxDesc) 0x62000 (leBytes 8 0x40001 ++ leBytes 8 1 ++ List.replicate 16 0)
def saveable (s : State) : State := { s with ctxs := s.ctxs.map (fun c => { c with savea := 0x63000, savesz := 0x100 }) }
def cmdSave : State := saveable (ringCmd 3 0 1 [] [] false)
theorem wit_RingCommands_refusals :
    ([(0, 0), (1, 0), (1, 2), (2, 1), (6, 1), (7, 0), (255, 0)].all (fun p => let s := ringCmd p.1 p.2 1 [] (List.replicate (64 * p.2) 0) false
      cmdDue s && cmdPasses s (cmdAt s) && (cmdAt s).op == p.1 && (cmdAt s).npay == p.2)) = true := by decide +kernel
theorem wit_RingCommands_nopBad :
    (ringOk (ringCmd 5 0 9 [] [] false) 5 0 8 && (findCtx (ringCmd 5 0 9 [] [] false) 9).isNone) = true := by decide +kernel
theorem wit_RingCommands_nop :
    (ringOk (ringCmd 5 0 1 [] [] false) 5 0 8 && (findCtx (ringCmd 5 0 1 [] [] false) 1).isSome) = true := by decide +kernel
theorem wit_RingCommands_launch :
    ([0, 0x80000].all (fun h => let s := { (ringCmd 1 1 1 [h] (launchPay 2) false) with launches := [] }
      let t0 := { s with regs := { s.regs with lastSeq := 1 } }
      ringOk s 1 1 3 && h % 4 == 0 && (findCtx s 1).isSome && decide (s.launches.length < 65536) &&
      (refuseReason t0 1 true 0 (launchDesc (cmdAt s).pay)).isNone && (launchDesc (cmdAt s).pay).count == 2)) = true := by decide +kernel
/-- A launch without tasks, with and without an event that waits. -/
theorem wit_RingCommands_empty :
    ([[], [List.replicate 8 (1 : W32)]].all (fun es =>
      let s := { (ringCmd 1 1 1 [0] (launchPay 0) false) with launches := [] }
      let s1 := { s with regs := { s.regs with events := es } }
      let t0 := { s1 with regs := { s1.regs with lastSeq := 1 } }
      ringOk s1 1 1 3 && (findCtx s1 1).isSome && (refuseReason t0 1 true 0 (launchDesc (cmdAt s1).pay)).isNone && (launchDesc (cmdAt s1).pay).count == 0 &&
      (findLaunch s1 (2 ^ 32)).isNone)) = true := by decide +kernel
theorem wit_RingCommands_ctxload :
    (ringOk loadS 2 0 8 && (loadS.ctxs.find? (fun c => c.phase == .resuming)).isNone && (match namedCtx loadS 0x61000 with
      | some x => x.savea == 0 && !tablesShut loadS x && (withTables loadS x).isSome | none => false)) = true := by decide +kernel
theorem wit_RingCommands_ctxsave :
    (ringOk cmdSave 3 0 8 && (cmdSave.ctxs.find? (fun c => c.phase == .saving)).isNone && (match findCtx cmdSave 1 with
      | some x => x.savea != 0 && x.savesz == 0x100 | none => false) && decide (cmdSave.waves.Pairwise (fun a b => a.uid ≠ b.uid))) = true := by decide +kernel
theorem wit_RingCommands_ctxreset :
    (ringOk (ringCmd 4 0 1 [] [] false) 4 0 8 && (findCtx (ringCmd 4 0 1 [] [] false) 1).isSome) = true := by decide +kernel
theorem wit_RingCommands_attest :
    (let s := ringCmd 6 0 0 [1, 2, 3, 4, 0x7000] [] false
     ringOk s 6 0 7 && (cmdAt s).asid == 0 && qword (cmdAt s).head 6 == 0x7000 && decide (s.regs.akeyIdx < 2 ^ 20)) = true := by decide +kernel
theorem wit_RingCommands_refetch :
    (let s := ringCmd 5 0 1 [] [] true; cmdDue s && !cmdPasses s (cmdAt s) && decide (s.regs.reads < 8)) = true := by decide +kernel
/-- The bound of R397 on a save's size meets the area of `cmdSave`, whatever the context needs. -/
theorem wit_saveFits : ∀ x, findCtx cmdSave 1 = some x → needOf cmdSave x ≤ x.savesz := by
  have h : (match findCtx cmdSave 1 with | some x => x.savesz == 0x100 | none => true) = true := by decide +kernel
  have hm : cmdSave.regs.savemax.toNat = 0x100 := by decide +kernel
  intro x hx
  rw [hx] at h
  have hs : x.savesz = 0x100 := by simpa using h
  rw [hs, needOf, hm]
  omega
theorem wit_ninthRead : (let s := ringCmd 5 0 1 [] [] true; let t := { s with time := 250, regs := { s.regs with reads := 8 } }
    cmdDue t && !cmdPasses t (cmdAt t) && decide (8 ≤ t.regs.reads)) = true := by decide +kernel
/-- R398: CRC-32C of the nine digits. -/
theorem test_crc : crc32c [0x31, 0x32, 0x33, 0x34, 0x35, 0x36, 0x37, 0x38, 0x39] = 0xE3069283 := by decide +kernel
theorem test_ring : (after .nopCmd (ringCmd 5 0 1 [] [] false)).regs.crhead = 1 ∧ (after .nopCmd (ringCmd 5 0 1 [] [] false)).regs.seq = 2 ∧
    memBytes (after .nopCmd (ringCmd 5 0 1 [] [] false)).hostMem 0x101C 4 = leBytes 4 0x13 ∧
    ((findLaunch (after .launch { (ringCmd 1 1 1 [0] (launchPay 2) false) with launches := [] }) (2 ^ 32)).map (fun l => (l.first, l.count, l.home, l.asid))) =
      some (5, 2, 2 ^ 64 - 2 ^ 60, 1) := by decide +kernel
theorem test_contexts : ((findCtx (after .ctxload loadS) 5).map (fun c => c.nodes.map (fun n => (n.entry, n.foot.slices, n.foot.vregs)))) = some [(0x40000, 2, 8)] ∧
    (after .ctxreset (ringCmd 4 0 1 [] [] false)).waves = [] ∧
    ((findCtx (beginSwitch cmdSave 1) 1).map (fun c => c.phase)) = some .saving ∧ (wv (beginSwitch cmdSave 1)).preq.isSome = true := by decide +kernel

/-! ### Package -/

def podS : State := { hs with time := 640000, pod := { hs.pod with members := [0, 3], markers := [] }, ctxs := [{ ctx2 with asid := 5, rx := true }, ctx2] }
def ctlS : State := flying hs none (.rel) none
/-- A store of a context of the pod that waits for its tick: a stall discards it. -/
def stalledS : State :=
  let s := flying podS (some .st) (.store 4 [(memA 0 0x50000, 7)]) none
  { s with flights := s.flights.map (fun f => { f with who := { f.who with asid := 5 }, tick := some 0 }) }
theorem wit_Sites :
    ((stalledS.flights.all (fun f => f.tick.isSome && !f.held)) && stalledS.cores.all (fun c => c.2.relb == []) && decide (missingTick stalledS 3 = some 0)) = true ∧
    (siteCtxs podS (.marker 3 (tickNow podS)) = [5] ∧ 3 ∈ podS.pod.members ∧ 3 ≠ podS.pod.pkg ∧ (3, tickNow podS) ∉ podS.pod.markers) ∧
    (let s := { hs with waves := hs.waves.map (fun w => { w with barHold := some { off := 0, phase := 0, released := true } }) }
     siteCtxs s (.phase 1) = [1] ∧ (findCtx s 1).isSome = true) ∧
    (let e : List W32 := [0, 1, 0, 1, 0, 0, 0, 0]
     let s := { hs with regs := { hs.regs with events := [e] }, launches := hs.launches.map (fun l => { l with num := 2 ^ 32 }) }
     isCompletion (2 ^ 32) e = true ∧ siteCtxs s (.completion (2 ^ 32)) = [1]) := by decide +kernel
theorem wit_LinksTicksAndPower :
    (160 ≤ ({ hs with time := 160 } : State).time - (stationAt { hs with time := 160 } 3).last ∧ ({ hs with time := 159 } : State).time - (stationAt { hs with time := 159 } 3).last < 160) ∧
    (3 ∈ podS.pod.members ∧ 3 ≠ podS.pod.pkg ∧ 3 ∉ podS.pod.lost ∧ (missingTick podS 3).isSome = true ∧ (∀ d ∈ podS.ctxs, d.rx = true → d.asid ≠ 1)) ∧
    (100 < (101 : W32).toInt.natAbs ∧ (-100 : W32).toInt.natAbs ≤ 100) ∧
    (fl0 ctlS ∈ ctlS.flights ∧ (fl0 ctlS).id ∈ [0] ∧ isControl (fl0 ctlS) = true ∧ (findCtx ctlS (fl0 ctlS).who.asid).isSome = true) ∧
    (fl0 ctlS).who.asid ∈ siteCtxs ctlS (.flight (fl0 ctlS).id) ∧
    (40 < (islandAt hs 255).n ∧ ({ (setIsland hs 7 41) with lowered := [7] } : State).lowered = 7 :: [] ∧
      (islandAt { (setIsland hs 7 79) with lowered := [7] } 7).n < 80) := by decide +kernel
/-- FIPS 202: the digest of no bytes. -/
theorem test_shake : shake256 [] = [0x46, 0xB9, 0xDD, 0x2B, 0x0B, 0xA8, 0x8D, 0x13, 0x23, 0x3B, 0x3F, 0xEB, 0x74, 0x3E, 0xEB, 0x24,
    0x3F, 0xCD, 0x52, 0xEA, 0x62, 0xB8, 0x1B, 0x82, 0xB5, 0x0C, 0x27, 0x64, 0x6E, 0xD5, 0x76, 0x2F] := by decide +kernel
theorem test_package : (islandAt (after (.powerCap true [5, 9, 9]) hs) 1).n = (islandAt hs 1).n - 1 ∧
    hottest (setIsland hs 1 40) [5, 9, 9] = some 2 ∧ hottest hs [] = some 0 ∧
    hottest { hs with islands := [] } [0, 0, 4] = some 2 ∧ (islandAt (after (.thermalLimit 7) hs) 7).n = 40 ∧
    memBytes (after (.tickExchangeStalled 3) stalledS).mem 0x50000 1 = memBytes stalledS.mem 0x50000 1 ∧
    (let s := { hs with retired := [.core 0 1, .l2way 0 0 3], rowCopies := [(0, 2, 9)], cores := [(1, { (coreAt hs 0 1) with lasting := true })] }
     (after .packageReset s).retired = [.l2way 0 0 3] ∧ (dieAt (after .packageReset s) 0).coreSpares = 7 ∧ bankSpares (after .packageReset s) 0 2 = 31) ∧
    (after .packageReset hs).waves = [] ∧ memBytes (after .packageReset hs).mem 0x100000 4 = [1, 0, 0x11, 0] ∧
    (findCtx (after (.tickExchangeStalled 3) podS) 5).isNone = true ∧ (findCtx (after (.tickExchangeStalled 3) podS) 1).isSome = true := by decide +kernel

def errS (u : Unit3) : State := { hs with errs := [(u, 3)] }
def noSpare (u : Unit3) : State := { (errS u) with dies := (List.range 8).map (fun d => (d, { dieDefault with coreSpares := 0 })) }
def lostS : State := flying ms (some .ld) (.load { uid := 1, vec := true, reg := 10, ty := .b32 } 4 [memA 5 0x20000] none) none
theorem wit_ErrorsAndSpares :
    (hs.time / 10 ^ 9 ≤ hs.errWindow ∧ ¬(({ hs with time := 10 ^ 9 } : State).time / 10 ^ 9 ≤ hs.errWindow)) ∧
    errCount hs (.core 0 1) + 1 ≠ 4 ∧
    ([Unit3.core 0 0, .core 7 127, .l2way 1 2 23, .wsrow 7 15 65535].all (fun u => errCount (errS u) u + 1 == 4 && !(errS u).retired.contains u &&
      decide ((errS u).time / 10 ^ 9 ≤ (errS u).errWindow))) = true ∧
    ((∃ w ∈ (errS (.core 0 0)).waves, w.die = 0 ∧ w.core = 0) ∧ (∀ w ∈ (errS (.core 7 127)).waves, ¬(w.die = 7 ∧ w.core = 127)) ∧
      coresPending (errS (.core 0 0)) 0 < (dieAt (errS (.core 0 0)) 0).coreSpares ∧ coresPending (errS (.core 7 127)) 7 < (dieAt (errS (.core 7 127)) 7).coreSpares ∧
      (dieAt (noSpare (.core 7 127)) 7).coreSpares ≤ coresPending (noSpare (.core 7 127)) 7 ∧
      rowsPending (errS (.wsrow 7 15 65535)) 7 15 < bankSpares (errS (.wsrow 7 15 65535)) 7 15 ∧ recordBusy stS (fl0 stS) (releaseRanges stS (fl0 stS)) = false) ∧
    ((dieAt (errS (.core 0 0)) 0).coreSpares ≠ 0 ∧ 16 < waysLeft (errS (.l2way 1 2 23)) 1 2 ∧ 0 < bankSpares (errS (.wsrow 7 15 65535)) 7 15) ∧
    (isMain 0 = true ∧ isMain (mainTop - 1) = true ∧ isMain mainTop = false) ∧
    (findWave hs 1 = some (wv hs) ∧ 65535 < (wv hs).foot.spad ∧ (∀ x ∈ (wv hs).trap.held, x.cause ≠ 13)) ∧
    (InFlight lostS 0 (fl0 lostS) ∧ (fl0 lostS).who.uid = 1 ∧ (findWave lostS 1).isSome = true ∧ InFlight stS 0 (fl0 stS)) ∧
    (7, 15, 3) ∈ ({ hs with rowCopies := [(7, 15, 3)] } : State).rowCopies := by decide +kernel
theorem test_spares : (dieAt (after (.correctedError (.core 7 127)) (errS (.core 7 127))) 7).coreSpares = 7 ∧
    (after (.correctedError (.core 7 127)) (errS (.core 7 127))).retired = [] ∧ (after (.correctedError (.core 7 127)) (errS (.core 7 127))).errs = [] ∧
    (after (.correctedError (.core 7 127)) (noSpare (.core 7 127))).retired = [] ∧
    ((after (.rowCopy 7 15 3) { (errS (.wsrow 7 15 3)) with rowCopies := [(7, 15, 3)], retired := [.wsrow 7 15 3] }).errs = [] ∧
      (after (.rowCopy 7 15 3) { (errS (.wsrow 7 15 3)) with rowCopies := [(7, 15, 3)], retired := [.wsrow 7 15 3] }).retired = []) := by decide +kernel
theorem test_errors : (coreAt (after (.correctedError (.core 0 0)) (errS (.core 0 0))) 0 0).lasting = true ∧
    (wv (after (.correctedError (.core 0 0)) (errS (.core 0 0)))).preq.isSome = true ∧
    (after (.uncorrectableError (.sector 0x5003F)) hs).poison = [0x5003F / 32] ∧
    ((wv (after (.uncorrectableError (.wave 1 2)) hs)).trap.held.map (fun r => (r.cause, r.detail))) = [(13, 2)] ∧
    ((wv (after (.uncorrectableError (.packet 0)) lostS)).trap.held.map (fun r => (r.cause, r.addr))) = [(7, 0x20000)] ∧
    weightShut { hs with time := 1000, rowCopies := [(1, 2, 3)] } (wsBase + 2 ^ 30 + 3 * 2 ^ 14 + 0x2FF) = true ∧
    bankSpares (after (.rowCopy 7 15 3) { hs with rowCopies := [(7, 15, 3)] }) 7 15 = 31 := by decide +kernel

/-! ### Steps and encodings -/

/-- A placed program of one instruction: `iadd v1, v2, v3`, or words that the placement leaves out. -/
def placed (i : Instr) : State := placeProgram State.reset (encode i)
/-- An `iadd` steered by the wave, with its operands. -/
def queuedE : VEnt :=
  let w := wv (placed (.iadd (vo 1 2 3 0 .i32 0)))
  { instr := .iadd (vo 1 2 3 0 .i32 0), gang := gang w, slices := w.slices, npc := w.npc, s := w.s, hs := w.hs, q := w.q, h := false }
def queuedS (v : List VEnt) : State :=
  let s := placed (.iadd (vo 1 2 3 0 .i32 0))
  { s with turn := .issue 1, waves := s.waves.map (fun w => { w with viq := v }) }
theorem wit_StepsRunInstructions :
    ((placed (.iadd (vo 1 2 3 0 .i32 0))).turn = .wave 1 ∧ findWave (placed (.iadd (vo 1 2 3 0 .i32 0))) 1 = some (wv (placed (.iadd (vo 1 2 3 0 .i32 0))))) ∧
    ([Instr.iadd (vo 1 2 3 0 .i32 0), .tset (co false 0 0 0 7 0 5 none), .movi (go 1 0 5 0 .b64 0)].all (fun i => let s := placed i
      let w := wv s
      let x := ready s w
      !noTurn s x && (match fetch s x with
        | .ok bs => (match decode bs with | .ok (j, _) => j == i && !regsWait s x j && !shadowBarred s x j && drillFree s x i | .error _ => false)
        | .error _ => false))) = true ∧
    ([[queuedE], [queuedE, queuedE]].all (fun v => let s := queuedS v
      s.turn == .issue 1 && decide (findWave s 1 = some (wv s)) && (ready s (wv s)).viq == v && (ready s (wv s)).blocked.isNone &&
      !regangOver s (ready s (wv s)) && !queuedWaits s (ready s (wv s)) queuedE)) = true ∧
    ({ hs with turn := .event (.thermalLimit 3) } : State).turn = .event (.thermalLimit 3) := by decide +kernel
/-- A wave that has steered an instruction and not issued it: a cause of the drill waits for it (R148). -/
theorem wit_CauseWaitsForViq : let s := queuedS [queuedE]
    findWave s 1 = some (wv s) ∧ NoForks s (wv s) ∧ (findCtx s (wv s).asid).isSome = true ∧ (wv s).viq ≠ [] := by decide +kernel
/-- Of the ready waves of a slot that were not chosen for 1,024 cycles the oldest is offered (R42, log entry 106). -/
def lateS : State := { (queuedS [queuedE]) with time := 1280 }
theorem wit_StarvedChoice2 : (let ws := (slotWaves lateS 0 0 0).filter (issueReady lateS)
    roundRobin lateS ws = false ∧ (starved lateS ws).map (fun x => x.uid) = some 1) := by decide +kernel
/-- Reset and the placed program are states that keep the form; well-formed instructions of every encoding stand in the word tables above. -/
theorem wit_StepsKeepMemoryForm : State.reset.wf = true ∧ (placed (.nop gd)).wf = true ∧ hs.wf = true := by decide +kernel
theorem wit_EncodingsRoundTrip : ([Instr.iadd (vo 255 0 255 0 .i32 0), .movi (go 63 0 0xFFFFFFFFFFFFFFFF 0 .b64 0), .jmp gd (-1), .wait gd (some 0) (some 63) (some 1) (some 2) (some 3),
    .glSmax (co true 63 63 63 0 0 0xE00 (some 0xFFFFFFFF00400000))].all (fun i => i.wf && !i.isEvent)) = true := by decide +kernel
/-- The instruction that the step of a state runs. -/
def ranBy (s : State) : Option Instr := match plan s with | .run i _ => some i | .only _ => none
theorem test_withFetchWord : ([(32, 0x1D800002, Instr.nop gd), (32, 0x009142B4, Instr.iadd (vo 17 33 45 0 .i32 0)),
    (96, 0xDEADBEEF918A0003, Instr.movi { vo 10 0 0 0 .b32 0 with k := .vi, b := .imm 0xDEADBEEF })].all (fun p =>
    decodeTableWord p.1 p.2.1 == some p.2.2 && ranBy (State.reset.withFetchWord p.1 p.2.1) == some p.2.2)) = true := by decide +kernel

end Sys2Proof.Tests
end

section
/-!
PROOFS. The statements of the package: records, batches, draws and weight that arrive, dependences that release (O39), and what reset leaves (O55).
First the laws of the lookups, queues, pools and writes of a die that these events go through.
-/
namespace Sys2Proof.Machine

/-! ### Lists with one element for each key -/

/-- An element put by a test that it passes is the one that the test finds. -/
theorem find?_putBy {α : Type} {p : α → Bool} {x : α} (h : p x = true) (l : List α) : (putBy p x l).find? p = some x := by
  induction l with
  | nil => simp [putBy, h]
  | cons y r ih =>
    cases hy : p y with
    | true => simp [putBy, hy, h]
    | false => simpa [putBy, hy] using ih

/-- An element put in the place of the one of its key is found by the key. -/
theorem find?_map_put {α : Type} (key : α → Nat) {x y : α} {l : List α} (h : l.find? (fun z => key z == key x) = some y) :
    (l.map (fun z => if key z == key x then x else z)).find? (fun z => key z == key x) = some x := by
  induction l with
  | nil => simp at h
  | cons z r ih =>
    by_cases hz : key z = key x
    · simp [hz]
    · have hz' : (key z == key x) = false := by simpa using hz
      simp only [List.find?_cons, List.map_cons, hz', Bool.false_eq_true, if_false] at h ⊢
      exact ih h

/-! ### Operations in flight -/

@[simp] theorem findFlight_dropFlight_same (s : State) (fid : Nat) : findFlight (dropFlight s fid) fid = none := by
  simp [findFlight, dropFlight]

/-- A new operation is found by its own number only. -/
theorem findFlight_addFlight_other {s : State} {fid : Nat} (h : fid ≠ s.nextFid) (who : Who) (cls : Option Cls) (act : Act) (rr : Option Nat) :
    findFlight (addFlight s who cls act rr) fid = findFlight s fid := by
  have h' : s.nextFid ≠ fid := h.symm
  simp [findFlight, addFlight_flights, List.find?_append, h']

/-- The operation just started is in flight. -/
theorem exists_addFlight (s : State) (who : Who) (cls : Option Cls) (act : Act) (rr : Option Nat) :
    ∃ g ∈ (addFlight s who cls act rr).flights, g.act = act :=
  ⟨_, List.mem_append_right s.flights (List.mem_singleton_self _), rfl⟩

/-! ### Launches -/

theorem findLaunch_num {s : State} {num : Nat} {l : Launch} (h : findLaunch s num = some l) : l.num = num := by
  simpa using List.find?_some h

/-- The launch just put is found, if there was one of its number. -/
theorem findLaunch_putLaunch_same {s : State} {l x : Launch} (h : findLaunch s l.num = some x) :
    findLaunch (putLaunch s l) l.num = some l := find?_map_put Launch.num h

/-! ### Weight and error records on their way -/

/-- Weight on its way home is one more operation, or none. -/
theorem returnWeight_frame (s : State) (die asid launch amount : Nat) :
    { returnWeight s die asid launch amount with flights := s.flights, nextFid := s.nextFid } = s := by
  unfold returnWeight
  split <;> rfl

@[simp] theorem returnWeight_launches (s : State) (die asid launch amount : Nat) :
    (returnWeight s die asid launch amount).launches = s.launches := by
  unfold returnWeight
  split <;> rfl

theorem findFlight_returnWeight_other {s : State} {fid : Nat} (h : fid ≠ s.nextFid) (die asid launch amount : Nat) :
    findFlight (returnWeight s die asid launch amount) fid = findFlight s fid := by
  unfold returnWeight
  split
  · rfl
  · exact findFlight_addFlight_other h _ _ _ _

/-- Weight that is not zero is on its way home. -/
theorem exists_returnWeight {amount : Nat} (h : 0 < amount) (s : State) (die asid launch : Nat) :
    ∃ g ∈ (returnWeight s die asid launch amount).flights, g.act = .wreturn launch amount := by
  rw [returnWeight, if_neg (by omega)]
  exact exists_addFlight _ _ _ _ _

/-- An error record is on its way to the context's error node, with the weight and the payload it was sent with (R155). -/
theorem exists_sendError {s : State} {asid : Nat} {c : Ctx} (h : findCtx s asid = some c) (die launch weight : Nat) (pay : List W32) :
    ∃ g ∈ (sendError s die asid launch weight pay).flights, ∃ x, g.act = .record die x true ∧ x.node = c.errn ∧ x.weight = weight ∧ x.pay = pay := by
  simp only [sendError, h]
  obtain ⟨g, hg, ha⟩ := exists_addFlight (updLaunch s launch (fun l => { l with err := true })) (whoNone die asid launch) none
    (.record die { asid := asid, node := c.errn, launch := launch, depth := 0, weight := weight, quad := none, seq := none,
                   pay := pay, rerun := false, bypass := 0, avoid := none } true) none
  exact ⟨g, hg, _, ha, rfl, rfl, rfl⟩

/-! ### Completion -/

/-- An event for the host changes the device registers and the host's ring, and no part of the package that holds work (R402). -/
theorem postEvent_frame (s : State) (kind : Nat) (ws : List Nat) : { postEvent s kind ws with regs := s.regs, hostMem := s.hostMem } = s := by
  unfold postEvent
  simp only
  split <;> rfl

@[simp] theorem postEvent_flights (s : State) (kind : Nat) (ws : List Nat) : (postEvent s kind ws).flights = s.flights :=
  (congrArg State.flights (postEvent_frame s kind ws) :)
@[simp] theorem postEvent_launches (s : State) (kind : Nat) (ws : List Nat) : (postEvent s kind ws).launches = s.launches :=
  (congrArg State.launches (postEvent_frame s kind ws) :)

/-- A launch that completes is complete, with all its weight home (R362). -/
theorem findLaunch_completeLaunch {s : State} {num : Nat} {l : Launch} (h : findLaunch s num = some l) :
    findLaunch (completeLaunch s num) num = some { l with complete := true, shares := [], home := fullWeight } := by
  obtain rfl := findLaunch_num h
  have hput := findLaunch_putLaunch_same (l := { l with complete := true, shares := [], home := fullWeight }) h
  simp only [completeLaunch, h]
  split
  · simpa [findLaunch] using hput
  · simpa [findLaunch] using hput

theorem findFlight_completeLaunch_other {s : State} {fid : Nat} (h : fid ≠ s.nextFid) (num : Nat) :
    findFlight (completeLaunch s num) fid = findFlight s fid := by
  unfold completeLaunch
  split
  · rfl
  · simp only
    split
    · simp [findFlight]
    · exact findFlight_returnWeight_other (s := putLaunch s _) h _ _ _ _

/-! ### Pools -/

@[simp] theorem quadAt_putQuad (s : State) (q : Nat) (x : Quad) : quadAt (putQuad s q x) q = x := stGet_stSet_same _ _ _ _

/-- A pool holds what was put in it. -/
@[simp] theorem poolOf_setPool_same (s : State) (q num amount : Nat) : poolOf (setPool s q num amount) q num = amount := by
  simp [poolOf, setPool, find?_putBy]

/-! ### Queues -/

@[simp] theorem dieAt_putDie (s : State) (d : Nat) (x : Die) : dieAt (putDie s d x) d = x := stGet_stSet_same _ _ _ _

/-- A queue names the node it was looked up by. -/
theorem queueAt_key (s : State) (die asid node : Nat) : (queueAt s die asid node).asid = asid ∧ (queueAt s die asid node).node = node := by
  unfold queueAt
  cases h : (dieAt s die).queues.find? (fun q => q.asid == asid && q.node == node) with
  | none => exact ⟨rfl, rfl⟩
  | some q => simpa using List.find?_some h

/-- The queue just put is the one at its place. -/
theorem queueAt_putQueue_same (s : State) (die : Nat) (q : NodeQ) : queueAt (putQueue s die q) die q.asid q.node = q := by
  simp [queueAt, putQueue, find?_putBy]

/-- A queue put in the place of the queue of a node is the queue of that node. -/
theorem queueAt_putQueue {die asid node : Nat} {q : NodeQ} (hq : q.asid = asid ∧ q.node = node) (s : State) :
    queueAt (putQueue s die q) die asid node = q := by
  obtain ⟨rfl, rfl⟩ := hq
  exact queueAt_putQueue_same s die q

/-! ### Writes of a die -/

/-- `t` is `s` but for the bytes of memory, the marks of poison on them and what the quads hold. -/
def OnlyStored (s t : State) : Prop := { t with mem := s.mem, poison := s.poison, quads := s.quads } = s

theorem OnlyStored.refl (s : State) : OnlyStored s s := rfl

theorem OnlyStored.trans {a b c : State} (h : OnlyStored a b) (g : OnlyStored b c) : OnlyStored a c := by
  unfold OnlyStored at *
  rw [← h, ← g]

/-- A fold of updates that change only stored data changes only stored data. -/
theorem onlyStored_foldl {α : Type} (f : State → α → State) (hf : ∀ s a, OnlyStored s (f s a)) (l : List α) (s : State) :
    OnlyStored s (l.foldl f s) := by
  induction l generalizing s with
  | nil => exact .refl s
  | cons a r ih => exact (hf s a).trans (ih _)

theorem onlyStored_l2Line (s : State) (pg : Page) (wr : Bool) (pa n l : Nat) : OnlyStored s (l2Line s pg wr pa n l) := by
  unfold l2Line
  simp only
  split
  · exact rfl
  · split <;> exact rfl

theorem onlyStored_l2Access (s : State) (pg : Page) (wr : Bool) (pa n : Nat) : OnlyStored s (l2Access s pg wr pa n) := by
  unfold l2Access
  split
  · refine onlyStored_foldl _ (fun st l => OnlyStored.trans (b := touchSlice st (homeQuad l)) ?_ (onlyStored_l2Line _ pg wr pa n l)) _ _
    exact rfl
  · exact .refl s

theorem onlyStored_memWrite (s : State) (pg : Page) (pa : Nat) (bs : List Byte) : OnlyStored s (memWrite s pg pa bs) := by
  have h : OnlyStored s (putMem s pa bs) := rfl
  exact h.trans (onlyStored_l2Access _ pg true pa bs.length)

theorem onlyStored_dieWrite (s : State) (asid va : Nat) (bs : List Byte) : OnlyStored s (dieWrite s asid va bs) := by
  unfold dieWrite
  split
  · exact onlyStored_foldl _ (fun st (p : Piece) => onlyStored_memWrite st p.1 p.2.1 p.2.2) _ _
  · exact .refl s

section
variable (s : State) (asid va : Nat) (bs : List Byte)
@[simp] theorem dieWrite_waves : (dieWrite s asid va bs).waves = s.waves := (congrArg State.waves (onlyStored_dieWrite s asid va bs) :)
@[simp] theorem dieWrite_flights : (dieWrite s asid va bs).flights = s.flights := (congrArg State.flights (onlyStored_dieWrite s asid va bs) :)
@[simp] theorem dieWrite_nextFid : (dieWrite s asid va bs).nextFid = s.nextFid := (congrArg State.nextFid (onlyStored_dieWrite s asid va bs) :)
@[simp] theorem dieWrite_dies : (dieWrite s asid va bs).dies = s.dies := (congrArg State.dies (onlyStored_dieWrite s asid va bs) :)
end

@[simp] theorem queueAt_dieWrite (s : State) (asid va : Nat) (bs : List Byte) (die a n : Nat) :
    queueAt (dieWrite s asid va bs) die a n = queueAt s die a n := by
  simp [queueAt, dieAt]

/-! ### Refill and joining a queue (R364) -/

/-- A queue whose `k` oldest records have left the ring as a batch (R364). -/
def batchLeft (q : NodeQ) (k : Nat) : NodeQ := { q with ring := q.ring.drop k, head := q.head + k, batch := true }

/-- A refill does nothing, or it sends the oldest records of the ring as a batch. -/
theorem refill_cases (s : State) (die asid node : Nat) :
    refill s die asid node = s ∨
    ∃ k, refill s die asid node = addFlight (putQueue s die (batchLeft (queueAt s die asid node) k)) (whoNone die asid 0) none
      (.batch die asid node ((queueAt s die asid node).ring.take k)) none := by
  have h : refill s die asid node = _ ∨ refill s die asid node = s := ite_eq_or_eq _ _ _
  exact h.symm.imp_right (fun h => ⟨_, h⟩)

/-- The queue of the node while a batch leaves it. -/
theorem queueAt_batchLeft (s : State) (die asid node k : Nat) (who : Who) (act : Act) :
    queueAt (addFlight (putQueue s die (batchLeft (queueAt s die asid node) k)) who none act none) die asid node =
      batchLeft (queueAt s die asid node) k :=
  queueAt_putQueue (q := batchLeft (queueAt s die asid node) k) (queueAt_key s die asid node) s

@[simp] theorem refill_mem (s : State) (die asid node : Nat) : (refill s die asid node).mem = s.mem := by
  obtain h | ⟨k, h⟩ := refill_cases s die asid node
  · rw [h]
  · rw [h]; rfl
@[simp] theorem refill_waves (s : State) (die asid node : Nat) : (refill s die asid node).waves = s.waves := by
  obtain h | ⟨k, h⟩ := refill_cases s die asid node
  · rw [h]
  · rw [h]; rfl

theorem findFlight_refill_other {s : State} {fid : Nat} (h : fid ≠ s.nextFid) (die asid node : Nat) :
    findFlight (refill s die asid node) fid = findFlight s fid := by
  obtain hr | ⟨k, hr⟩ := refill_cases s die asid node
  · rw [hr]
  · rw [hr]
    exact findFlight_addFlight_other (s := putQueue s die _) h _ _ _ _

/-- A refill leaves what is on chip, and the tail. -/
theorem queueAt_refill (s : State) (die asid node : Nat) :
    (queueAt (refill s die asid node) die asid node).chip = (queueAt s die asid node).chip ∧
    (queueAt (refill s die asid node) die asid node).tail = (queueAt s die asid node).tail := by
  obtain h | ⟨k, h⟩ := refill_cases s die asid node
  · rw [h]; exact ⟨rfl, rfl⟩
  · rw [h, queueAt_batchLeft]; exact ⟨rfl, rfl⟩

/-- A record of the ring stays there through a refill, or is on its way to the chip. -/
theorem ring_refill {s : State} {die asid node : Nat} {r : Record} (hr : r ∈ (queueAt s die asid node).ring) :
    r ∈ (queueAt (refill s die asid node) die asid node).ring ∨
    ∃ g ∈ (refill s die asid node).flights, ∃ rs, g.act = .batch die asid node rs ∧ r ∈ rs := by
  obtain h | ⟨k, h⟩ := refill_cases s die asid node
  · rw [h]; exact .inl hr
  · rw [← List.take_append_drop k (queueAt s die asid node).ring, List.mem_append] at hr
    rw [h, queueAt_batchLeft]
    refine hr.elim (fun ht => ?_) .inl
    obtain ⟨g, hg, ha⟩ := exists_addFlight (putQueue s die (batchLeft (queueAt s die asid node) k)) (whoNone die asid 0) none
      (.batch die asid node ((queueAt s die asid node).ring.take k)) none
    exact .inr ⟨g, hg, _, ha, ht⟩

/-- With an empty ring, no batch on its way and room on chip, a record joins the records on chip. -/
theorem enqueue_onChip {s : State} {die : Nat} {r : Record} (hr : (queueAt s die r.asid r.node).ring = [])
    (hb : (queueAt s die r.asid r.node).batch = false) (hc : (queueAt s die r.asid r.node).chip.length < 32) (n : Node) :
    enqueue s die n r = putQueue s die { queueAt s die r.asid r.node with chip := (queueAt s die r.asid r.node).chip ++ [r] } := by
  simp [enqueue, hr, hb, hc]

/-- A queue with one more record at its ring's tail (R364). -/
def ringJoined (q : NodeQ) (r : Record) : NodeQ := { q with ring := q.ring ++ [r], tail := q.tail + 1 }

/-- With a record in the ring, a batch on its way or no room on chip, a record is written to the ring's tail, and a refill follows. -/
theorem enqueue_toRing {s : State} {die : Nat} {r : Record} (h : (queueAt s die r.asid r.node).ring ≠ [] ∨
    (queueAt s die r.asid r.node).batch = true ∨ 32 ≤ (queueAt s die r.asid r.node).chip.length) (n : Node) :
    enqueue s die n r = refill (dieWrite (putQueue s die (ringJoined (queueAt s die r.asid r.node) r)) r.asid
      (ringAddr n die (queueAt s die r.asid r.node).tail) (payBytes r.pay)) die r.asid r.node := by
  have hn : ((queueAt s die r.asid r.node).ring.isEmpty && !(queueAt s die r.asid r.node).batch &&
      decide ((queueAt s die r.asid r.node).chip.length < 32)) = false := by
    rcases h with h | h | h
    · simp [h]
    · simp [h]
    · simp [Nat.not_lt.mpr h]
  simp only [enqueue, hn]
  rfl

/-- A record that goes to the ring leaves what is on chip, moves the tail by one, and stands in the ring or in a batch on its way. -/
theorem queueAt_enqueue_toRing {s : State} {die : Nat} {r : Record} (h : (queueAt s die r.asid r.node).ring ≠ [] ∨
    (queueAt s die r.asid r.node).batch = true ∨ 32 ≤ (queueAt s die r.asid r.node).chip.length) (n : Node) :
    (queueAt (enqueue s die n r) die r.asid r.node).chip = (queueAt s die r.asid r.node).chip ∧
    (queueAt (enqueue s die n r) die r.asid r.node).tail = (queueAt s die r.asid r.node).tail + 1 ∧
    (r ∈ (queueAt (enqueue s die n r) die r.asid r.node).ring ∨
      ∃ g ∈ (enqueue s die n r).flights, ∃ rs, g.act = .batch die r.asid r.node rs ∧ r ∈ rs) := by
  rw [enqueue_toRing h]
  generalize hs1 : dieWrite _ r.asid _ (payBytes r.pay) = s1
  have hq : queueAt s1 die r.asid r.node = ringJoined (queueAt s die r.asid r.node) r := by
    rw [← hs1, queueAt_dieWrite]
    exact queueAt_putQueue (q := ringJoined _ r) (queueAt_key s die r.asid r.node) s
  have hr : r ∈ (queueAt s1 die r.asid r.node).ring := by simp [hq, ringJoined]
  obtain ⟨hchip, htail⟩ := queueAt_refill s1 die r.asid r.node
  rw [hq] at hchip htail
  exact ⟨hchip, htail, ring_refill hr⟩

/-- The ways a record joins its queue: on chip, or at the tail of the ring. -/
theorem enqueue_cases (s : State) (die : Nat) (n : Node) (r : Record) :
    (∃ q, enqueue s die n r = putQueue s die q) ∨
    ∃ q va, enqueue s die n r = refill (dieWrite (putQueue s die q) r.asid va (payBytes r.pay)) die r.asid r.node := by
  unfold enqueue
  simp only
  split
  · exact .inl ⟨_, rfl⟩
  · exact .inr ⟨_, _, rfl⟩

@[simp] theorem enqueue_waves (s : State) (die : Nat) (n : Node) (r : Record) : (enqueue s die n r).waves = s.waves := by
  obtain ⟨q, h⟩ | ⟨q, va, h⟩ := enqueue_cases s die n r
  · simp [h, putQueue]
  · simp [h, putQueue]

theorem findFlight_enqueue_other {s : State} {fid : Nat} (h : fid ≠ s.nextFid) (die : Nat) (n : Node) (r : Record) :
    findFlight (enqueue s die n r) fid = findFlight s fid := by
  obtain ⟨q, he⟩ | ⟨q, va, he⟩ := enqueue_cases s die n r
  · rw [he]; rfl
  · have h' : fid ≠ (dieWrite (putQueue s die q) r.asid va (payBytes r.pay)).nextFid := by simpa [putQueue] using h
    rw [he, findFlight_refill_other h']
    simp [findFlight, putQueue]

/-! ### What the events do -/

section
variable {s : State} {fid : Nat} {f : Flight} (hf : InFlight s fid f)
include hf

/-- A record that arrives at a kernel node of this package joins its queue (R354, R364). -/
theorem exec_recordArrival_kernel {die : Nat} {r : Record} {err : Bool} {n : Node} (ha : f.act = .record die r err) (hd : die < 8)
    (ht : recordTurn s f die r = true) (hr : rankTurn s f die r = true) (hn : nodeOf s r.asid r.node = some n) (hv : n.valid = true)
    (hs : n.sink = false) (hroom : arrivalRoom s die n r err = true) :
    exec (.recordArrival fid) s = .next (enqueue (noteArrival (dropFlight s fid) f die r) die n r) := by
  have h8 : ¬8 ≤ die := by omega
  change execRecordArrival fid s = _
  simp [execRecordArrival, findFlight_some hf, ha, ht, hr, h8, hn, hv, hs, hroom]

/-- A record for a node that its context does not have is replaced by an error record (R367). -/
theorem exec_recordArrival_noNode {die : Nat} {r : Record} (ha : f.act = .record die r false) (hd : die < 8)
    (ht : recordTurn s f die r = true) (hr : rankTurn s f die r = true) (hn : nodeOf s r.asid r.node = none) :
    exec (.recordArrival fid) s = .next (replaceRecord (dropFlight s fid) die 2 r) := by
  have h8 : ¬8 ≤ die := by omega
  change execRecordArrival fid s = _
  simp [execRecordArrival, findFlight_some hf, ha, ht, hr, h8, hn]

/-- A record for another package leaves this one, and its weight goes home (R14, R376). -/
theorem exec_recordArrival_foreign {die : Nat} {r : Record} {err : Bool} (ha : f.act = .record die r err) (hd : 8 ≤ die)
    (ht : recordTurn s f die r = true) :
    exec (.recordArrival fid) s = .next (returnWeight (dropFlight s fid) (die % 8) r.asid r.launch r.weight) := by
  change execRecordArrival fid s = _
  simp [execRecordArrival, findFlight_some hf, ha, ht, hd]

/-- A batch joins the records on chip, and a refill follows (R364). -/
theorem exec_batchArrival {die asid node : Nat} {rs : List Record} (ha : f.act = .batch die asid node rs) :
    exec (.batchArrival fid) s = .next (refill (putQueue (dropFlight s fid) die { queueAt s die asid node with
      chip := (queueAt s die asid node).chip ++ rs, batch := false }) die asid node) := by
  change execBatchArrival fid s = _
  simp [execBatchArrival, findFlight_some hf, ha]

/-- The root lends a pool half of what is home, and 2^60 at most (R375). -/
theorem exec_draw_pool {q num : Nat} {l : Launch} (ha : f.act = .draw q num none) (hl : findLaunch s num = some l) (hh : 2 ≤ l.home) :
    exec (.draw fid) s = .next (setPool (dropFlight (putLaunch s { l with home := l.home - min (2 ^ 60) (l.home / 2) }) fid) q num
      (poolOf s q num + min (2 ^ 60) (l.home / 2))) := by
  have h2 : ¬l.home < 2 := by omega
  change execDraw fid s = _
  simp only [execDraw, findFlight_some hf, ha, hl, Option.isSome_none, Bool.false_eq_true, if_false, h2]
  rfl

/-- Weight that does not complete its launch is home (R372). -/
theorem exec_weightReturn_part {num amount : Nat} {l : Launch} (ha : f.act = .wreturn num amount) (hl : findLaunch s num = some l)
    (hc : l.complete = false) (hlt : l.home + amount < fullWeight) :
    exec (.weightReturn fid) s = .next (dropFlight (putLaunch s { l with home := l.home + amount }) fid) := by
  change execWeightReturn fid s = _
  simp [execWeightReturn, findFlight_some hf, ha, hl, hc, hlt]

/-- All weight home completes a launch of which nothing is left to apply, while no event waits (R229, R362, R402). -/
theorem exec_weightReturn_all {num amount : Nat} {l : Launch} (ha : f.act = .wreturn num amount) (hl : findLaunch s num = some l)
    (hc : l.complete = false) (hge : fullWeight ≤ l.home + amount) (he : s.regs.events = []) (hq : launchQuiet s l = true) :
    exec (.weightReturn fid) s = .next (completeLaunch (dropFlight s fid) num) := by
  change execWeightReturn fid s = _
  simp [execWeightReturn, findFlight_some hf, ha, hl, hc, Nat.not_lt.mpr hge, he, hq]
end

section
variable {s : State} {num : Nat} {l : Launch} (hl : findLaunch s num = some l)
include hl

/-- A waiting launch may start once its dependences are met and no event waits (R360, R402). -/
theorem exec_dependenceMet_met (hb : l.begun = false) (hc : l.complete = false) (he : s.regs.events = [])
    (hd : ∀ d ∈ l.deps, depMet s d = true) : exec (.dependenceMet num) s = .next (putLaunch s { l with begun := true }) := by
  have hall : l.deps.all (depMet s) = true := List.all_eq_true.mpr hd
  change execDependenceMet num s = _
  simp only [execDependenceMet, hl, hb, hc, he, hall]
  rfl

/-- A launch does not start while one of its dependences is not met (R360). -/
theorem exec_dependenceMet_unmet (hd : ∃ d ∈ l.deps, depMet s d = false) : exec (.dependenceMet num) s = .next s := by
  obtain ⟨d, hmem, hd⟩ := hd
  have hall : l.deps.all (depMet s) = false := List.all_eq_false.mpr ⟨d, hmem, by simp [hd]⟩
  change execDependenceMet num s = _
  simp [execDependenceMet, hl, hall]
end

/-! ### Queues after an arrival -/

/-- The note of an arrival changes nothing of the record's queue but which arrival is its newest. -/
theorem queueAt_noteArrival (s : State) (f : Flight) (die : Nat) (r : Record) :
    ∃ at', queueAt (noteArrival s f die r) die r.asid r.node = { queueAt s die r.asid r.node with newest := at' } := by
  refine ⟨some (quadCycle s (32 * die), senderRank s f), ?_⟩
  exact queueAt_putQueue (q := { queueAt s die r.asid r.node with newest := some (quadCycle s (32 * die), senderRank s f) })
    (queueAt_key s die r.asid r.node) s

/-- A record that arrives with room on chip stands behind the others there, and memory is as it was. -/
theorem arrival_onChip {s : State} {f : Flight} {die : Nat} {r : Record} (hr : (queueAt s die r.asid r.node).ring = [])
    (hb : (queueAt s die r.asid r.node).batch = false) (hc : (queueAt s die r.asid r.node).chip.length < 32) (n : Node) :
    (enqueue (noteArrival s f die r) die n r).mem = s.mem ∧
    ∃ at', queueAt (enqueue (noteArrival s f die r) die n r) die r.asid r.node =
      { queueAt s die r.asid r.node with chip := (queueAt s die r.asid r.node).chip ++ [r], newest := at' } := by
  obtain ⟨at', hq⟩ := queueAt_noteArrival s f die r
  have he := enqueue_onChip (s := noteArrival s f die r) (die := die) (r := r) (by simpa [hq] using hr) (by simpa [hq] using hb)
    (by simpa [hq] using hc) n
  refine ⟨by rw [he]; rfl, at', ?_⟩
  rw [he, queueAt_putQueue (by exact queueAt_key _ die r.asid r.node), hq]

/-- A record that arrives without room on chip stands in the ring, or in a batch on its way. -/
theorem arrival_toRing {s : State} {f : Flight} {die : Nat} {r : Record} (h : (queueAt s die r.asid r.node).ring ≠ [] ∨
    (queueAt s die r.asid r.node).batch = true ∨ 32 ≤ (queueAt s die r.asid r.node).chip.length) (n : Node) :
    let t := enqueue (noteArrival s f die r) die n r
    (queueAt t die r.asid r.node).chip = (queueAt s die r.asid r.node).chip ∧
    (queueAt t die r.asid r.node).tail = (queueAt s die r.asid r.node).tail + 1 ∧
    (r ∈ (queueAt t die r.asid r.node).ring ∨ ∃ g ∈ t.flights, ∃ rs, g.act = .batch die r.asid r.node rs ∧ r ∈ rs) := by
  obtain ⟨at', hq⟩ := queueAt_noteArrival s f die r
  have he := queueAt_enqueue_toRing (s := noteArrival s f die r) (die := die) (r := r) (by simpa [hq] using h) n
  simpa only [hq] using he

/-! ### The statements -/

/-- Settles O39: every event of the package has one equation for each case, and what it leaves is read off the laws above. -/
theorem recordsWeightAndDependences : Obligations.RecordsWeightAndDependences := by
  unfold Obligations.RecordsWeightAndDependences
  refine ⟨fun s fid f hf hid => ⟨?kernel, ?noNode, ?foreign, ?batch, ?draw, ?weight⟩, fun s num l hl hb hc he => ⟨?met, ?unmet⟩⟩
  case kernel =>
    intro die r err n ha hd ht hr hn hv hs hroom
    refine ⟨_, exec_recordArrival_kernel hf ha hd ht hr hn hv hs hroom, ?_, ?_, ?_, ?_⟩
    · rw [findFlight_enqueue_other (s := noteArrival (dropFlight s fid) f die r) hid]
      exact findFlight_dropFlight_same s fid
    · exact enqueue_waves _ _ _ _
    · exact fun hring hbatch hchip => arrival_onChip (s := dropFlight s fid) hring hbatch hchip _
    · exact fun h => arrival_toRing (s := dropFlight s fid) h _
  case noNode =>
    intro die r c ha hd ht hr hn hc
    exact ⟨_, exec_recordArrival_noNode hf ha hd ht hr hn, (keepsMem_sendError (dropFlight s fid) _ _ _ _ _).1,
      exists_sendError (s := dropFlight s fid) hc _ _ _ _⟩
  case foreign =>
    intro die r err ha hd ht
    refine ⟨_, exec_recordArrival_foreign hf ha hd ht, ?_, ?_, fun hw => exists_returnWeight hw _ _ _ _⟩
    · rw [findFlight_returnWeight_other (s := dropFlight s fid) hid, findFlight_dropFlight_same]
    · exact (congrArg (fun x : State => { x with flights := s.flights }) (returnWeight_frame (dropFlight s fid) _ _ _ _) :)
  case batch =>
    intro die asid node rs ha
    refine ⟨_, exec_batchArrival hf ha, fun a => ?_, ?_⟩
    · rw [refill_mem]; rfl
    · rw [(queueAt_refill _ die asid node).1, queueAt_putQueue (by exact queueAt_key s die asid node)]
  case draw =>
    intro q num l ha hl hh
    refine ⟨_, exec_draw_pool hf ha hl hh, findFlight_dropFlight_same _ fid, ?_⟩
    obtain rfl := findLaunch_num hl
    refine ⟨_, findLaunch_putLaunch_same (l := { l with home := l.home - min (2 ^ 60) (l.home / 2) }) hl, ?_, ?_⟩
    · rw [poolOf_setPool_same]
      dsimp only
      omega
    · rw [poolOf_setPool_same]
  case weight =>
    intro num amount l ha hl hc
    refine ⟨fun hlt => ?_, fun hge he hq => ?_⟩
    · refine ⟨_, exec_weightReturn_part hf ha hl hc hlt, findFlight_dropFlight_same _ fid, ?_⟩
      obtain rfl := findLaunch_num hl
      exact findLaunch_putLaunch_same (l := { l with home := l.home + amount }) hl
    · refine ⟨_, exec_weightReturn_all hf ha hl hc hge he hq, ?_, _, findLaunch_completeLaunch (s := dropFlight s fid) hl, rfl⟩
      rw [findFlight_completeLaunch_other (s := dropFlight s fid) hid, findFlight_dropFlight_same]
  case met =>
    intro hd
    refine ⟨_, exec_dependenceMet_met hl hb hc he hd, rfl, ?_⟩
    obtain rfl := findLaunch_num hl
    exact findLaunch_putLaunch_same (l := { l with begun := true }) hl
  case unmet => exact exec_dependenceMet_unmet hl

/-- Settles O55: nothing is stored for a quad, a core, a die or an engine, so each has its default, and both memories list nothing. -/
theorem resetState : Obligations.ResetState := by
  unfold Obligations.ResetState
  have hwf := reset_wf
  have hquad : ∀ q, quadAt State.reset q = quadDefault := fun _ => rfl
  have hcore : ∀ die core, coreAt State.reset die core = coreDefault := fun _ _ => rfl
  have hdie : ∀ die, dieAt State.reset die = dieDefault := fun _ => rfl
  have hengine : ∀ e, engineAt State.reset e = engineDefault := fun _ => rfl
  have hspares : ∀ die bank, bankSpares State.reset die bank = 32 := fun _ _ => rfl
  simp only [hwf, hquad, hcore, hdie, hengine, hspares]
  simp [State.reset, regsReset, podReset, quadDefault, coreDefault, dieDefault, engineDefault]

end Sys2Proof.Machine
end

section
/-!
PROOFS. The gangs of a wave: gathering at a regang and giving way (O27), the ends of lanes (O26), and what a step runs (O56).
First the laws of slices, path lists and gathering that these statements share.
-/
namespace Sys2Proof.Machine

/-! ### Slices and the path list -/

theorem mem_liveSlices {w : Wave} {i : Nat} : i ∈ liveSlices w ↔ i < w.slices.length ∧ (sliceAt w i).live = true := by
  simp [liveSlices]

/-- A slice that the gang does not name keeps what it was, whether or not the wave has it. -/
theorem sliceAt_updSlices_not_mem (w : Wave) {g : List Nat} (f : Slice → Slice) {i : Nat} (h : i ∉ g) :
    sliceAt (updSlices w g f) i = sliceAt w i := by
  simp only [sliceAt, updSlices, List.getD_eq_getElem?_getD, List.getElem?_mapIdx, List.contains_iff_mem, h, if_false]
  cases w.slices[i]? <;> rfl

theorem sliceAt_updSlices_mem {w : Wave} {g : List Nat} (f : Slice → Slice) {i : Nat} (h : i < w.slices.length) (hg : i ∈ g) :
    sliceAt (updSlices w g f) i = f (sliceAt w i) := by
  simp [sliceAt_updSlices w g f i h, hg]

/-- What an update of a slice leaves alone, it leaves alone in every slice of the wave. -/
theorem sliceAt_updSlices_field {α : Type} (p : Slice → α) {f : Slice → Slice} (hf : ∀ sl, p (f sl) = p sl) (w : Wave) (g : List Nat)
    (i : Nat) : p (sliceAt (updSlices w g f) i) = p (sliceAt w i) := by
  simp only [sliceAt, updSlices, List.getD_eq_getElem?_getD, List.getElem?_mapIdx]
  cases w.slices[i]? with
  | none => rfl
  | some sl =>
    simp only [Option.map_some, Option.getD_some]
    split
    · exact hf sl
    · rfl

@[simp] theorem updSlices_length (w : Wave) (g : List Nat) (f : Slice → Slice) : (updSlices w g f).slices.length = w.slices.length := by
  simp [updSlices]

/-- An update that keeps which slices live keeps the list of live slices. -/
theorem liveSlices_updSlices {f : Slice → Slice} (hf : ∀ sl, (f sl).live = sl.live) (w : Wave) (g : List Nat) :
    liveSlices (updSlices w g f) = liveSlices w := by
  simp [liveSlices, sliceAt_updSlices_field Slice.live hf]

@[simp] theorem swapPart_live (keep : Bool) (sl : Slice) : (swapPart keep sl).live = sl.live := by
  unfold swapPart
  split <;> rfl

theorem swapPart_cons {sl : Slice} {p : Part} {r : List Part} (h : sl.parked = p :: r) (keep : Bool) :
    swapPart keep sl = { sl with run := p, parked := if keep then r ++ [sl.run] else r, idle := 0, atRegang := none } := by
  simp [swapPart, h]


@[simp] theorem sliceAt_leaveGang (w : Wave) (out : List Nat) (i : Nat) : sliceAt (leaveGang w out) i = sliceAt w i := by
  unfold leaveGang
  split <;> rfl

theorem giveWay_frame (w : Wave) : { giveWay w with cur := w.cur } = w := by
  unfold giveWay
  simp only
  split <;> rfl
@[simp] theorem sliceAt_giveWay (w : Wave) (i : Nat) : sliceAt (giveWay w) i = sliceAt w i :=
  (congrArg (fun x => sliceAt x i) (giveWay_frame w) :)
@[simp] theorem giveWay_path (w : Wave) : (giveWay w).path = w.path := (congrArg Wave.path (giveWay_frame w) :)

/-- The first place whose gang does not wait stands no later in the list than any other such place. -/
theorem firstFree_append {w : Wave} {as bs : List Nat} {j : Nat} (hj : j ∈ as) (hw : gangWaits w (w.path.getD j []) = false) :
    ∃ k ∈ as, firstFree w (as ++ bs) = some k := by
  induction as with
  | nil => simp at hj
  | cons a r ih =>
    simp only [List.cons_append, firstFree]
    by_cases ha : gangWaits w (w.path.getD a []) = true
    · have hr : j ∈ r := by
        rcases List.mem_cons.mp hj with rfl | hr
        · exact absurd (hw.symm.trans ha) Bool.false_ne_true
        · exact hr
      obtain ⟨k, hk, he⟩ := ih hr
      exact ⟨k, List.mem_cons_of_mem a hk, by rw [if_pos ha, he]⟩
    · exact ⟨a, List.mem_cons_self, by rw [if_neg ha]⟩

/-- A gang gives way to another one when another one does not wait (R32). -/
theorem giveWay_cur_ne {w : Wave} (hc : w.cur < w.path.length)
    (h : ∃ j, j < w.path.length ∧ j ≠ w.cur ∧ gangWaits w (w.path.getD j []) = false) : (giveWay w).cur ≠ w.cur := by
  obtain ⟨j, hj, hne, hw⟩ := h
  obtain ⟨n, hn⟩ : ∃ n, w.path.length = n + 1 := ⟨w.path.length - 1, by omega⟩
  have hothers : j ∈ (List.range n).map (fun i => (w.cur + 1 + i) % (n + 1)) := by
    rw [List.mem_map]
    by_cases hlt : w.cur < j
    · exact ⟨j - w.cur - 1, by simp; omega, by rw [Nat.mod_eq_of_lt] <;> omega⟩
    · refine ⟨j + n - w.cur, by simp; omega, ?_⟩
      rw [show w.cur + 1 + (j + n - w.cur) = j + (n + 1) by omega, Nat.add_mod_right, Nat.mod_eq_of_lt (by omega)]
  obtain ⟨k, hk, he⟩ := firstFree_append (bs := [(w.cur + 1 + n) % (n + 1)]) hothers hw
  have hgive : (giveWay w).cur = k := by
    simp [giveWay, hn, List.range_succ, he]
  rw [hgive]
  obtain ⟨i, hi, rfl⟩ := List.mem_map.mp hk
  rw [List.mem_range] at hi
  intro heq
  by_cases hlt : w.cur + 1 + i < n + 1
  · rw [Nat.mod_eq_of_lt hlt] at heq; omega
  · rw [Nat.mod_eq_sub_mod (by omega), Nat.mod_eq_of_lt (by omega)] at heq; omega

/-! ### Where paths go -/

theorem SameButPaths.uid {w w' : Wave} (h : SameButPaths w w') : w'.uid = w.uid := by
  unfold SameButPaths at h
  rw [← h]

theorem SameButPaths.trans {a b c : Wave} (h : SameButPaths a b) (g : SameButPaths b c) : SameButPaths a c := by
  unfold SameButPaths at *
  rw [← h, ← g]

theorem sameButPaths_updSlices (w : Wave) (g : List Nat) (f : Slice → Slice) : SameButPaths w (updSlices w g f) := rfl

theorem sameButPaths_splitGang (w : Wave) (gs : List (List Nat)) (now : Nat) :
    SameButPaths w { splitGang w gs with regangFrom := some now } := rfl

theorem sameButPaths_giveWay (w : Wave) : SameButPaths w (giveWay w) := by
  unfold giveWay
  simp only
  split <;> rfl

theorem sameButPaths_leaveGang (w : Wave) (out : List Nat) : SameButPaths w (leaveGang w out) := by
  unfold leaveGang
  split <;> rfl

/-- An instruction or event that puts a wave with other paths in the place of a resident one changes nothing else. -/
theorem repaths_putWave {i : Instr} {s : State} {w w' : Wave} {P : Wave → Prop} (hw : findWave s w.uid = some w)
    (he : exec i s = .next (putWave s w')) (hp : SameButPaths w w') (hP : P w') : Repaths i s w P :=
  ⟨w', he, onlyWave_putWave hw hp.uid, hp, hP⟩

/-! ### Gathering at a regang (R35) -/

theorem samePlace_iff {p q : Part} : samePlace p q = true ↔ p.pc = q.pc ∧ p.loops = q.loops ∧ p.rets = q.rets := by
  simp [samePlace, and_assoc]

/-- Two parts that stand where a third does stand at one place. -/
theorem samePlace_of_same {p q r : Part} (hp : samePlace p r = true) (hq : samePlace q r = true) : samePlace p q = true := by
  rw [samePlace_iff] at *
  obtain ⟨hpc, hloops, hrets⟩ := hp
  obtain ⟨hpc', hloops', hrets'⟩ := hq
  exact ⟨hpc.trans hpc'.symm, hloops.trans hloops'.symm, hrets.trans hrets'.symm⟩

/-- Every live slice waits, all at one place (R35). -/
def allAtRegang (w : Wave) : Bool :=
  !(liveSlices w).isEmpty && (liveSlices w).all (fun i =>
    (sliceAt w i).atRegang.isSome && samePlace (sliceAt w i).run (sliceAt w ((liveSlices w).headD 0)).run)

/-- The live slices form one gang, which has gone past the regang to `a`. -/
def gathered (w : Wave) (a : W64) : Wave :=
  let w1 := updSlices { w with path := [liveSlices w], cur := 0 } (liveSlices w) (fun sl => { sl with atRegang := none })
  updSlices { w1 with regangFrom := none } (liveSlices w) (fun sl => { sl with run := partSeq a sl.run })

theorem gatherGang_eq (w : Wave) :
    gatherGang w = if allAtRegang w then gathered w ((sliceAt w ((liveSlices w).headD 0)).atRegang.getD 0) else w := rfl

theorem sameButPaths_gatherGang (w : Wave) : SameButPaths w (gatherGang w) := by
  rw [gatherGang_eq]
  split <;> rfl

theorem sliceAt_gathered_mem {w : Wave} {i : Nat} (h : i ∈ liveSlices w) (a : W64) :
    sliceAt (gathered w a) i = { sliceAt w i with atRegang := none, run := partSeq a (sliceAt w i).run } := by
  have hlen := (mem_liveSlices.mp h).1
  unfold gathered
  simp only
  generalize hw1 : updSlices { w with path := [liveSlices w], cur := 0 } (liveSlices w) (fun sl => { sl with atRegang := none }) = w1
  have h1 : sliceAt w1 i = { sliceAt w i with atRegang := none } := by
    rw [← hw1]
    exact sliceAt_updSlices_mem (w := { w with path := [liveSlices w], cur := 0 }) _ hlen h
  have hlen1 : i < w1.slices.length := by
    rw [← hw1, updSlices_length]
    exact hlen
  have h2 := sliceAt_updSlices_mem (w := { w1 with regangFrom := none }) (fun sl => { sl with run := partSeq a sl.run }) hlen1 h
  change _ = { sliceAt w1 i with run := partSeq a (sliceAt w1 i).run } at h2
  rw [h2, h1]

theorem sliceAt_gathered_not_mem {w : Wave} {i : Nat} (h : i ∉ liveSlices w) (a : W64) : sliceAt (gathered w a) i = sliceAt w i :=
  (sliceAt_updSlices_not_mem _ _ h).trans (sliceAt_updSlices_not_mem { w with path := [liveSlices w], cur := 0 } _ h)

/-- While a live slice is under way, nothing is gathered. -/
theorem gatherGang_of_underWay {w : Wave} {j : Nat} (hj : j ∈ liveSlices w) (ha : (sliceAt w j).atRegang = none) : gatherGang w = w := by
  have hall : allAtRegang w = false := by
    rw [allAtRegang, List.all_eq_false.mpr ⟨j, hj, by simp [ha]⟩, Bool.and_false]
  rw [gatherGang_eq, hall]
  rfl

/-- A slice that does not wait at a regang is not touched when the others are gathered. -/
theorem sliceAt_gatherGang_of_underWay {w : Wave} {i : Nat} (ha : (sliceAt w i).atRegang = none) :
    sliceAt (gatherGang w) i = sliceAt w i := by
  by_cases hi : i ∈ liveSlices w
  · rw [gatherGang_of_underWay hi ha]
  · rw [gatherGang_eq]
    split
    · exact sliceAt_gathered_not_mem hi _
    · rfl

/-- When every live slice waits at one regang, they form one gang and go past it. -/
theorem gatherGang_gathers {w : Wave} {a : W64} {p : Part} (hne : liveSlices w ≠ [])
    (h : ∀ i ∈ liveSlices w, (sliceAt w i).atRegang = some a ∧ samePlace (sliceAt w i).run p = true) : gatherGang w = gathered w a := by
  obtain ⟨hra, hrp⟩ : (sliceAt w ((liveSlices w).headD 0)).atRegang = some a ∧
      samePlace (sliceAt w ((liveSlices w).headD 0)).run p = true := by
    obtain ⟨x, r, hx⟩ := List.exists_cons_of_ne_nil hne
    exact h _ (by simp [hx])
  have hall : allAtRegang w = true := by
    simp only [allAtRegang, Bool.and_eq_true, List.all_eq_true]
    refine ⟨by simpa using hne, fun i hi => ?_⟩
    obtain ⟨hia, hip⟩ := h i hi
    exact ⟨by simp [hia], samePlace_of_same hip hrp⟩
  rw [gatherGang_eq, hall, hra]
  rfl

/-! ### regang (R35, R112) -/

/-- Slices of the current gang with parked parts, and without (R112). -/
def partedSlices (w : Wave) : List Nat := (gang w).filter (fun i => !(sliceAt w i).parked.isEmpty)
def wholeSlices (w : Wave) : List Nat := (gang w).filter (fun i => (sliceAt w i).parked.isEmpty)

theorem mem_partedSlices {w : Wave} {i : Nat} : i ∈ partedSlices w ↔ i ∈ gang w ∧ (sliceAt w i).parked ≠ [] := by
  simp [partedSlices]
theorem mem_wholeSlices {w : Wave} {i : Nat} : i ∈ wholeSlices w ↔ i ∈ gang w ∧ (sliceAt w i).parked = [] := by
  simp [wholeSlices]

/-- The wave as its current gang has come to a `regang`: slices with parked parts have swapped and stand alone, the others wait there. -/
def atRegangWave (now : Nat) (w : Wave) : Wave :=
  let w2 := updSlices (updSlices w (partedSlices w) (swapPart true)) (wholeSlices w) (fun sl => { sl with atRegang := some w.npc })
  { splitGang w2 (wholeSlices w :: (partedSlices w).map (fun i => [i])) with regangFrom := some now }

/-- The wave after a `regang`: gathered when the last has come, else its gang gives way. -/
def pastRegang (now : Nat) (w : Wave) : Wave :=
  let w1 := gatherGang (atRegangWave now w)
  if (wholeSlices w).isEmpty || (sliceAt w1 ((wholeSlices w).headD 0)).atRegang.isNone then w1 else giveWay w1

theorem exec_regang {s : State} {w : Wave} {ls : List Nat} {g : Guard} (hi : Issues s (.regang g) w ls) :
    exec (.regang g) s = .next (putWave s (pastRegang (coreClock s w.die w.core) w)) := by
  change execRegang g s = _
  rw [execRegang, runInstr_issues hi]
  exact (apply_ite (fun v => Host.Outcome.next (putWave s v)) _ _ _).symm

section
variable (now : Nat) {w : Wave} {i : Nat}

theorem sameButPaths_pastRegang (w : Wave) : SameButPaths w (pastRegang now w) := by
  have hat : SameButPaths w (atRegangWave now w) :=
    ((sameButPaths_updSlices w _ _).trans (sameButPaths_updSlices _ _ _)).trans (sameButPaths_splitGang _ _ now)
  have hg := hat.trans (sameButPaths_gatherGang _)
  unfold pastRegang
  dsimp only
  split
  · exact hg
  · exact hg.trans (sameButPaths_giveWay _)

@[simp] theorem sliceAt_pastRegang (w : Wave) (i : Nat) : sliceAt (pastRegang now w) i = sliceAt (gatherGang (atRegangWave now w)) i := by
  unfold pastRegang
  dsimp only
  split
  · rfl
  · exact sliceAt_giveWay _ i

/-- A `regang` ends no slice. -/
theorem liveSlices_atRegangWave (w : Wave) : liveSlices (atRegangWave now w) = liveSlices w :=
  (liveSlices_updSlices (f := fun sl => { sl with atRegang := some w.npc }) (fun _ => rfl) _ _).trans (liveSlices_updSlices (swapPart_live true) w _)

theorem sliceAt_atRegangWave_other (h : i ∉ gang w) : sliceAt (atRegangWave now w) i = sliceAt w i := by
  have hp : i ∉ partedSlices w := fun hm => h (mem_partedSlices.mp hm).1
  have hs : i ∉ wholeSlices w := fun hm => h (mem_wholeSlices.mp hm).1
  exact (sliceAt_updSlices_not_mem _ _ hs).trans (sliceAt_updSlices_not_mem w _ hp)

/-- A slice with parked parts swaps (R112). -/
theorem sliceAt_atRegangWave_parted (hl : i < w.slices.length) (hg : i ∈ gang w) (hp : (sliceAt w i).parked ≠ []) :
    sliceAt (atRegangWave now w) i = swapPart true (sliceAt w i) := by
  have hs : i ∉ wholeSlices w := fun hm => hp (mem_wholeSlices.mp hm).2
  exact (sliceAt_updSlices_not_mem _ _ hs).trans (sliceAt_updSlices_mem _ hl (mem_partedSlices.mpr ⟨hg, hp⟩))

/-- A slice without parked parts waits (R35). -/
theorem sliceAt_atRegangWave_whole (hl : i < w.slices.length) (hg : i ∈ gang w) (hp : (sliceAt w i).parked = []) :
    sliceAt (atRegangWave now w) i = { sliceAt w i with atRegang := some w.npc } := by
  have hn : i ∉ partedSlices w := fun hm => (mem_partedSlices.mp hm).2 hp
  have h := sliceAt_updSlices_mem (w := updSlices w (partedSlices w) (swapPart true)) (fun sl => { sl with atRegang := some w.npc })
    (by simpa using hl) (mem_wholeSlices.mpr ⟨hg, hp⟩)
  rw [sliceAt_updSlices_not_mem w _ hn] at h
  exact h

/-- A slice with a parked part runs its top one behind the regang, and keeps the one that came to it at the bottom (R112). -/
theorem pastRegang_swaps (hl : i < w.slices.length) (hg : i ∈ gang w) {p : Part} {r : List Part} (hp : (sliceAt w i).parked = p :: r) :
    (sliceAt (pastRegang now w) i).run = p ∧ (sliceAt (pastRegang now w) i).parked = r ++ [(sliceAt w i).run] := by
  have hat : sliceAt (atRegangWave now w) i = swapPart true (sliceAt w i) :=
    sliceAt_atRegangWave_parted now hl hg (by simp [hp])
  rw [swapPart_cons hp] at hat
  rw [sliceAt_pastRegang, sliceAt_gatherGang_of_underWay (by rw [hat]), hat]
  exact ⟨rfl, rfl⟩

/-- While a live slice of another gang is under way, a slice without parked parts waits (R35). -/
theorem pastRegang_waits (hu : ∃ j ∈ liveSlices w, j ∉ gang w ∧ (sliceAt w j).atRegang = none) (hl : i < w.slices.length)
    (hg : i ∈ gang w) (hp : (sliceAt w i).parked = []) : sliceAt (pastRegang now w) i = { sliceAt w i with atRegang := some w.npc } := by
  obtain ⟨j, hj, hjg, hja⟩ := hu
  have hgather : gatherGang (atRegangWave now w) = atRegangWave now w :=
    gatherGang_of_underWay (j := j) (by rwa [liveSlices_atRegangWave]) (by rwa [sliceAt_atRegangWave_other now hjg])
  rw [sliceAt_pastRegang, hgather, sliceAt_atRegangWave_whole now hl hg hp]

/-- The last to arrive lets all go on: the live slices are one gang behind the regang (R35). -/
theorem pastRegang_gathers (hne : gang w ≠ []) (hg : ∀ i ∈ gang w, i ∈ liveSlices w ∧ (sliceAt w i).parked = [])
    (hw : ∀ i ∈ liveSlices w, samePlace (sliceAt w i).run (gangPart w (gang w)) = true ∧
      (i ∈ gang w ∨ (sliceAt w i).atRegang = some w.npc)) :
    gang (pastRegang now w) = liveSlices w ∧ ∀ i ∈ liveSlices w,
      (sliceAt (pastRegang now w) i).run = partSeq w.npc (sliceAt w i).run ∧ (sliceAt (pastRegang now w) i).atRegang = none := by
  have hslice : ∀ i ∈ liveSlices w, (sliceAt (atRegangWave now w) i).atRegang = some w.npc ∧
      (sliceAt (atRegangWave now w) i).run = (sliceAt w i).run := by
    intro i hi
    by_cases hig : i ∈ gang w
    · rw [sliceAt_atRegangWave_whole now (mem_liveSlices.mp hi).1 hig (hg i hig).2]
      exact ⟨rfl, rfl⟩
    · rw [sliceAt_atRegangWave_other now hig]
      exact ⟨(hw i hi).2.resolve_left hig, rfl⟩
  obtain ⟨i0, r, hi0⟩ := List.exists_cons_of_ne_nil hne
  have hi0g : i0 ∈ gang w := by simp [hi0]
  have hlive : liveSlices w ≠ [] := List.ne_nil_of_mem (hg i0 hi0g).1
  have hgather : gatherGang (atRegangWave now w) = gathered (atRegangWave now w) w.npc := by
    refine gatherGang_gathers (p := gangPart w (gang w)) (by rwa [liveSlices_atRegangWave]) (fun i hi => ?_)
    rw [liveSlices_atRegangWave] at hi
    rw [(hslice i hi).1, (hslice i hi).2]
    exact ⟨rfl, (hw i hi).1⟩
  have hgo : ∀ i ∈ liveSlices w, (sliceAt (gatherGang (atRegangWave now w)) i).run = partSeq w.npc (sliceAt w i).run ∧
      (sliceAt (gatherGang (atRegangWave now w)) i).atRegang = none := by
    intro i hi
    rw [hgather, sliceAt_gathered_mem (by rwa [liveSlices_atRegangWave]), ← (hslice i hi).2]
    exact ⟨rfl, rfl⟩
  have hwhole : wholeSlices w = gang w := List.filter_eq_self.mpr (fun i hi => by simp [(hg i hi).2])
  have hpast : pastRegang now w = gatherGang (atRegangWave now w) := by
    rw [pastRegang, hwhole, hi0]
    simp [(hgo i0 (hg i0 hi0g).1).2]
  rw [hpast]
  exact ⟨by rw [hgather, ← liveSlices_atRegangWave now]; rfl, hgo⟩
end

/-! ### Events of a wave's gangs (R36, R40, R112) -/

section
variable {s : State} {uid : Nat} {w : Wave} (hw : findWave s uid = some w)
include hw

/-- A slice that is let go goes on behind the regang at which it waited. -/
def letGo (sl : Slice) : Slice :=
  match sl.atRegang with
  | some a => { sl with atRegang := none, run := partSeq a sl.run }
  | none => sl

theorem exec_regangRelease (hr : regangOver s w = true) :
    exec (.regangRelease uid) s = .next (putWave s { updSlices w (liveSlices w) letGo with regangFrom := none }) := by
  change execRegangRelease uid s = _
  simp only [execRegangRelease, hw, hr, if_true]
  rfl

theorem exec_gangDemotion (hd : demotes w = true) :
    exec (.gangDemotion uid) s = .next (putWave s (giveWay (updSlices w (gang w) (fun sl => { sl with idle := 0 })))) := by
  change execGangDemotion uid s = _
  simp [execGangDemotion, hw, hd]

theorem exec_partSwap {slice : Nat} (hs : swaps w slice = true) :
    exec (.partSwap uid slice) s = .next (putWave s (leaveGang (updSlices w [slice] (swapPart true)) [slice])) := by
  change execPartSwap uid slice s = _
  simp [execPartSwap, hw, hs]

theorem exec_starvedWaveChoice (hc : 1024 ≤ cyclesSince s w.die w.core w.chosen) :
    exec (.starvedWaveChoice uid) s = .next { putWave s { w with chosen := coreClock s w.die w.core } with
      turn := if w.viq = [] then .wave uid else .issue uid } := by
  change execStarvedWaveChoice uid s = _
  simp [execStarvedWaveChoice, hw, hc]
end

theorem letGo_waiting {sl : Slice} {a : W64} (h : sl.atRegang = some a) : (letGo sl).run = partSeq a sl.run := by
  simp [letGo, h]
@[simp] theorem letGo_atRegang (sl : Slice) : (letGo sl).atRegang = none := by
  unfold letGo
  split
  · rfl
  · assumption

/-! ### The starved wave (R42) -/

/-- `byKey` is the library's insertion sort by the key. -/
theorem byKey_eq_insertionSort (k : Wave → Nat) (ws : List Wave) : byKey k ws = ws.insertionSort (fun a b => k a ≤ k b) := by
  have hins (w : Wave) (l : List Wave) : insByKey k w l = l.orderedInsert (fun a b => k a ≤ k b) w := by
    induction l with
    | nil => rfl
    | cons x r ih => simp only [insByKey, List.orderedInsert, ih]
  simp only [byKey, List.insertionSort, funext fun w => funext fun l => hins w l]

theorem mem_byKey {k : Wave → Nat} {ws : List Wave} {w : Wave} : w ∈ byKey k ws ↔ w ∈ ws := by
  rw [byKey_eq_insertionSort, List.mem_insertionSort]

theorem pairwise_byKey (k : Wave → Nat) (ws : List Wave) : (byKey k ws).Pairwise (fun a b => k a ≤ k b) := by
  rw [byKey_eq_insertionSort]
  exact List.pairwise_insertionSort _ ws

/-- The first of a list in rising order that passes a test is the least that passes it. -/
theorem find?_least {k : Wave → Nat} {p : Wave → Bool} {l : List Wave} (hl : l.Pairwise (fun a b => k a ≤ k b)) {x : Wave}
    (hx : l.find? p = some x) {y : Wave} (hy : y ∈ l) (hp : p y = true) : k x ≤ k y := by
  obtain ⟨_, as, bs, rfl, has⟩ := List.find?_eq_some_iff_append.mp hx
  rcases List.mem_append.mp hy with h | h
  · exact absurd hp (by simpa using has y h)
  · rcases List.mem_cons.mp h with rfl | h
    · exact le_rfl
    · exact List.rel_of_pairwise_cons (List.pairwise_append.mp hl).2.1 h

/-- There is a starved wave to choose exactly when one of the ready waves was not chosen for 1,024 cycles. -/
theorem starved_isSome {s : State} {ws : List Wave} :
    (starved s ws).isSome = true ↔ ∃ x ∈ ws, 1024 ≤ cyclesSince s x.die x.core x.chosen := by
  simp [starved, List.find?_isSome, mem_byKey]

/-- The starved wave that is chosen is the oldest of those (log 106). -/
theorem starved_oldest {s : State} {ws : List Wave} {x : Wave} (h : starved s ws = some x) :
    x ∈ ws ∧ 1024 ≤ cyclesSince s x.die x.core x.chosen ∧
    ∀ y ∈ ws, 1024 ≤ cyclesSince s y.die y.core y.chosen → ageKey x ≤ ageKey y :=
  ⟨mem_byKey.mp (List.mem_of_find?_eq_some h), by simpa using List.find?_some h,
    fun _ hy hl => find?_least (pairwise_byKey ageKey ws) h (mem_byKey.mpr hy) (by simpa using hl)⟩

/-- Under greedy-then-oldest a slot with a starved wave chooses it (R42). -/
theorem issueChoice_starved {s : State} {die core slot : Nat} {x : Wave}
    (hrr : roundRobin s ((slotWaves s die core slot).filter (issueReady s)) = false)
    (hx : starved s ((slotWaves s die core slot).filter (issueReady s)) = some x) :
    issueChoice s die core slot = some (.event (.starvedWaveChoice x.uid)) := by
  unfold issueChoice
  simp only
  split
  · next hnil => rw [hnil] at hx; cases hx
  · simp [hrr, hx]

/-! ### The statement -/

/-- Settles O27: a `regang` swaps, waits or gathers slice by slice; each event of a wave's gangs has one equation; and the starved wave is the first
late one in the order of age. -/
theorem gangsGatherAndGiveWay : Obligations.GangsGatherAndGiveWay := by
  unfold Obligations.GangsGatherAndGiveWay
  refine ⟨fun s w ls g => ⟨?swap, ?wait, ?gather, ?release⟩, fun s uid slice w hw => ⟨?demotion, ?partSwap, ?chosen, ?oldest, ?choice⟩⟩
  case swap =>
    intro hi
    exact repaths_putWave (curWave_found hi.1).2 (exec_regang hi) (sameButPaths_pastRegang _ w)
      (fun i hl hg p r hp => pastRegang_swaps _ hl hg hp)
  case wait =>
    intro hi hu
    refine repaths_putWave (curWave_found hi.1).2 (exec_regang hi) (sameButPaths_pastRegang _ w) (fun i hl hg hp => ?_)
    rw [pastRegang_waits _ hu hl hg hp]
    exact ⟨rfl, rfl⟩
  case gather =>
    intro hi hne hg hl
    exact repaths_putWave (curWave_found hi.1).2 (exec_regang hi) (sameButPaths_pastRegang _ w) (pastRegang_gathers _ hne hg hl)
  case release =>
    intro uid x t0 hx ht hh hc
    obtain rfl := findWave_uid hx
    refine repaths_putWave hx (exec_regangRelease hx (by simp [regangOver, ht, hh, hc])) rfl (fun i hi => ?_)
    have hgo := sliceAt_updSlices_mem letGo (mem_liveSlices.mp hi).1 hi
    exact ⟨(congrArg Slice.atRegang hgo).trans (letGo_atRegang _), fun a ha => (congrArg Slice.run hgo).trans (letGo_waiting ha)⟩
  case demotion =>
    intro hp hh hv hne hidle
    obtain rfl := findWave_uid hw
    have hd : demotes w = true := by simpa [demotes, hp, hh, hv, hne] using hidle
    refine repaths_putWave hw (exec_gangDemotion hw hd) ((sameButPaths_updSlices w _ _).trans (sameButPaths_giveWay _))
      ⟨fun i hi hl => ?_, giveWay_path _, fun hc hj => ?_⟩
    · rw [sliceAt_giveWay, sliceAt_updSlices_mem _ hl hi]
      exact ⟨rfl, rfl⟩
    · refine giveWay_cur_ne (w := updSlices w (gang w) (fun sl => { sl with idle := 0 })) hc ?_
      have hwaits : ∀ g, gangWaits (updSlices w (gang w) (fun sl => { sl with idle := 0 })) g = gangWaits w g := fun g => by
        simp only [gangWaits, sliceAt_updSlices_field Slice.atRegang (f := fun sl => { sl with idle := 0 }) (fun _ => rfl),
          sliceAt_updSlices_field Slice.atRet (f := fun sl => { sl with idle := 0 }) (fun _ => rfl)]
      obtain ⟨j, hjl, hjc, hjw⟩ := hj
      exact ⟨j, hjl, hjc, (hwaits _).trans hjw⟩
  case partSwap =>
    intro p r hg hl hh hv hidle hp
    obtain rfl := findWave_uid hw
    have hs : swaps w slice = true := by simp [swaps, hg, hh, hv, hidle, hp]
    refine repaths_putWave hw (exec_partSwap hw hs) ((sameButPaths_updSlices w _ _).trans (sameButPaths_leaveGang _ _)) ?_
    rw [sliceAt_leaveGang, sliceAt_updSlices_mem _ hl (List.mem_singleton_self slice), swapPart_cons hp]
    exact ⟨rfl, rfl, rfl⟩
  case chosen =>
    intro hc
    obtain rfl := findWave_uid hw
    refine ⟨_, exec_starvedWaveChoice hw hc, rfl, rfl, ?_, fun u hu => ?_⟩
    · exact findWave_putWave_same (w := { w with chosen := coreClock s w.die w.core }) hw
    · exact findWave_putWave_other s (w := { w with chosen := coreClock s w.die w.core }) hu
  case oldest => exact fun ws => ⟨starved_isSome.symm, fun x hx => starved_oldest hx⟩
  case choice => exact fun die core slot x hrr hx => issueChoice_starved hrr hx


/-! ### Retirement (R29, R37, R376) -/

/-- A wave without forks has none of any kind to squash (R133). -/
theorem squashWhere_none {s : State} {uid : Nat} (h : shadowsOf s uid (fun _ _ => true) = []) (p : Wave → Fork → Bool) :
    squashWhere s uid p = s := by
  have hp : shadowsOf s uid p = [] := by
    rw [shadowsOf, List.filter_eq_nil_iff] at h ⊢
    intro x hx
    have hx := h x hx
    cases hf : x.fork with
    | none => simp
    | some f =>
      simp only [hf, Bool.and_true] at hx
      simp [hx]
  simp [squashWhere, hp]

/-- `t` is `s` but for its cores, its quads, its dies and what is in flight. -/
def OnlySettled (s t : State) : Prop :=
  { t with cores := s.cores, quads := s.quads, dies := s.dies, flights := s.flights, nextFid := s.nextFid } = s

theorem OnlySettled.refl (s : State) : OnlySettled s s := rfl

theorem OnlySettled.trans {a b c : State} (h : OnlySettled a b) (g : OnlySettled b c) : OnlySettled a c := by
  unfold OnlySettled at *
  rw [← h, ← g]

theorem onlySettled_putDie (s : State) (die : Nat) (d : Die) : OnlySettled s (putDie s die d) := rfl

theorem onlySettled_returnWeight (s : State) (die asid launch amount : Nat) : OnlySettled s (returnWeight s die asid launch amount) := by
  unfold returnWeight
  split <;> rfl

/-- A flush of the combining buffer changes its core and starts operations (R241). -/
theorem onlySettled_flushWhere (s : State) (die core : Nat) (p : EcbEnt → Bool) (waits : List Nat) (cmd : Option Nat) :
    OnlySettled s (flushWhere s die core p waits cmd) := by
  have hfold (es : List EcbEnt) (t : State) : OnlySettled t (es.foldl (fun st e => flushEntry st die core e waits cmd) t) := by
    induction es generalizing t with
    | nil => exact .refl t
    | cons e r ih => exact OnlySettled.trans (b := flushEntry t die core e waits cmd) rfl (ih _)
  have hcore (c : Core) : OnlySettled s (putCore s die core c) := rfl
  exact (hcore _).trans (hfold _ _)

/-- Pool weight that goes home leaves its quad (R375). -/
theorem onlySettled_returnPool (s : State) (w : Wave) : OnlySettled s (returnPool s w) := by
  have hquad (q : Nat) (x : Quad) : OnlySettled s (putQuad s q x) := rfl
  unfold returnPool
  dsimp only
  split
  · exact .refl s
  · split
    · exact .refl s
    · exact (hquad _ _).trans (onlySettled_returnWeight _ _ _ _ _)

theorem mem_flights_returnWeight {s : State} {f : Flight} (h : f ∈ s.flights) (die asid launch amount : Nat) :
    f ∈ (returnWeight s die asid launch amount).flights := by
  unfold returnWeight
  split
  · exact h
  · exact List.mem_append_left _ h

theorem mem_flights_returnPool {s : State} {f : Flight} (h : f ∈ s.flights) (w : Wave) : f ∈ (returnPool s w).flights := by
  unfold returnPool
  dsimp only
  split
  · exact h
  · split
    · exact h
    · exact mem_flights_returnWeight (s := putQuad s _ _) h _ _ _ _

/-- The state without a wave, which stands among the retired ones with some trainings. -/
def withGhost (s : State) (w : Wave) (ts : List Training) : State :=
  { dropWave s w.uid with ghosts := { w with trains := ts } :: s.ghosts }

/-- A wave without forks leaves; then its samples flush, its weight goes home, and its launch is charged. -/
theorem retireWave_eq {s : State} {w : Wave} (h : shadowsOf s w.uid (fun _ _ => true) = []) (weight : Nat) :
    ∃ ts d, retireWave s w weight = putDie (returnPool (returnWeight
      (flushWhere (withGhost s w ts) w.die w.core (fun e => e.waves.contains w.wctx) [] none) w.die w.asid w.launch weight) w) w.die d := by
  unfold retireWave
  rw [squashForks_none h]
  exact ⟨_, _, rfl⟩

/-- Retirement, beside the wave that leaves, changes cores, quads, dies and what is in flight. -/
theorem onlySettled_retireWave {s : State} {w : Wave} (h : shadowsOf s w.uid (fun _ _ => true) = []) (weight : Nat) :
    ∃ ts, OnlySettled (withGhost s w ts) (retireWave s w weight) := by
  obtain ⟨ts, d, he⟩ := retireWave_eq h weight
  rw [he]
  exact ⟨ts, (((onlySettled_flushWhere _ _ _ _ _ _).trans (onlySettled_returnWeight _ _ _ _ _)).trans
    (onlySettled_returnPool _ _)).trans (onlySettled_putDie _ _ _)⟩

/-- A retired wave is resident no more and stands among the ghosts, its weight is on its way home, and memory is as it was. -/
theorem retireWave_retires {s : State} {w : Wave} (h : shadowsOf s w.uid (fun _ _ => true) = []) (weight : Nat) :
    findWave (retireWave s w weight) w.uid = none ∧ SameMemory s (retireWave s w weight) ∧
    (∃ x ∈ (retireWave s w weight).ghosts, x.uid = w.uid) ∧
    (0 < weight → ∃ f ∈ (retireWave s w weight).flights, f.act = .wreturn w.launch weight) := by
  obtain ⟨ts, hframe⟩ := onlySettled_retireWave h weight
  have hwaves : (retireWave s w weight).waves = (dropWave s w.uid).waves := (congrArg State.waves hframe :)
  have hghosts : (retireWave s w weight).ghosts = { w with trains := ts } :: s.ghosts := (congrArg State.ghosts hframe :)
  have hmem : { w with trains := ts } ∈ (retireWave s w weight).ghosts := by simp [hghosts]
  refine ⟨?_, fun a => by rw [(keepsMem_retireWave s w weight).1], ⟨_, hmem, rfl⟩, fun hpos => ?_⟩
  · rw [findWave, hwaves]
    simp [dropWave]
  · obtain ⟨_, _, he⟩ := retireWave_eq h weight
    rw [he]
    obtain ⟨f, hf, ha⟩ := exists_returnWeight hpos (flushWhere _ w.die w.core (fun e => e.waves.contains w.wctx) [] none) w.die w.asid w.launch
    exact ⟨f, mem_flights_returnPool hf w, ha⟩

/-! ### Ends of lanes (R37, R120) -/

/-- What the end of the running lanes leaves of a slice: its top parked part, or nothing that runs. -/
def endSlice (sl : Slice) : Slice :=
  if sl.parked.isEmpty then { sl with live := false, run := { sl.run with lanes := [] }, atRegang := none } else swapPart false sl

/-- The wave when the running lanes of its current gang have ended. -/
def lanesEnded (w : Wave) : Wave := splitGang (updSlices w (gang w) endSlice) ((partedSlices w).map (fun i => [i]))

/-- Such a wave with parts left goes on: the others are gathered if they have all come to a `regang`, and a gang that waits gives way. -/
def pastEnd (w : Wave) : Wave :=
  let w1 := gatherGang { w with cur := w.cur % w.path.length }
  if gangWaits w1 (gang w1) then giveWay w1 else w1

/-- The lanes of a wave without forks end: the wave retires, or it goes on with the parts that are left. -/
theorem endLanes_eq {s : State} {w : Wave} {uid : Nat} {w0 : Wave} (hu : w0.uid = uid) (hw : findWave s uid = some w)
    (hs : shadowsOf s uid (fun _ _ => true) = []) :
    endLanes s w0 = if (lanesEnded w).path.isEmpty then retireWave (putWave s (lanesEnded w)) (lanesEnded w) w.weight
      else putWave s (pastEnd (lanesEnded w)) := by
  subst hu
  unfold endLanes
  rw [squashWhere_none hs]
  simp only [hw]
  rfl

theorem sliceAt_lanesEnded {w : Wave} {i : Nat} (hl : i < w.slices.length) (hg : i ∈ gang w) :
    sliceAt (lanesEnded w) i = endSlice (sliceAt w i) := sliceAt_updSlices_mem endSlice hl hg

@[simp] theorem endSlice_atRegang (sl : Slice) : (endSlice sl).atRegang = none := by
  unfold endSlice
  split
  · rfl
  · next h =>
    obtain ⟨p, r, hp⟩ := List.exists_cons_of_ne_nil (by simpa using h)
    rw [swapPart_cons hp]

/-- A slice whose running lanes have ended is not touched by what its wave does next. -/
theorem sliceAt_pastEnd {w : Wave} {i : Nat} (hl : i < w.slices.length) (hg : i ∈ gang w) :
    sliceAt (pastEnd (lanesEnded w)) i = endSlice (sliceAt w i) := by
  have hend := sliceAt_lanesEnded hl hg
  have hgather : sliceAt (gatherGang { lanesEnded w with cur := (lanesEnded w).cur % (lanesEnded w).path.length }) i =
      sliceAt (lanesEnded w) i := sliceAt_gatherGang_of_underWay (by exact (congrArg Slice.atRegang hend).trans (endSlice_atRegang _))
  unfold pastEnd
  dsimp only
  split
  · rw [sliceAt_giveWay, hgather, hend]
  · rw [hgather, hend]

theorem sameButPaths_lanesEnded (w : Wave) : SameButPaths w (lanesEnded w) := rfl

theorem sameButPaths_pastEnd (w : Wave) : SameButPaths w (pastEnd w) := by
  have hcur : SameButPaths w { w with cur := w.cur % w.path.length } := rfl
  have hg := hcur.trans (sameButPaths_gatherGang _)
  unfold pastEnd
  dsimp only
  split
  · exact hg.trans (sameButPaths_giveWay _)
  · exact hg

/-- A wave whose only gang has no parked parts has no path left when the lanes end. -/
theorem lanesEnded_path_last {w : Wave} (hg : gang w ≠ []) (hp : w.path = [gang w]) (hk : ∀ i ∈ gang w, (sliceAt w i).parked = []) :
    (lanesEnded w).path = [] := by
  have hcur : w.cur = 0 := by
    by_contra hne
    apply hg
    rw [gang, hp]
    exact List.getD_eq_default _ _ (by simp; omega)
  have hparted : partedSlices w = [] := List.filter_eq_nil_iff.mpr (fun i hi => by simp [hk i hi])
  change w.path.take w.cur ++ ((partedSlices w).map (fun i => [i])).filter (fun g => !g.isEmpty) ++ w.path.drop (w.cur + 1) = []
  simp [hcur, hparted, hp]

/-- A slice with a parked part keeps a path when the lanes end. -/
theorem lanesEnded_path_parted {w : Wave} {i : Nat} (hg : i ∈ gang w) (hk : (sliceAt w i).parked ≠ []) : (lanesEnded w).path ≠ [] := by
  have hmem : [i] ∈ (lanesEnded w).path := by
    change [i] ∈ w.path.take w.cur ++ ((partedSlices w).map (fun i => [i])).filter (fun g => !g.isEmpty) ++ w.path.drop (w.cur + 1)
    simp [mem_partedSlices, hg, hk]
  exact List.ne_nil_of_mem hmem

/-- The end of the last lanes retires the wave. -/
theorem endLanes_last {s : State} {w w0 : Wave} (hu : w0.uid = w.uid) (hw : findWave s w.uid = some w) (hn : NoForks s w)
    (hg : gang w ≠ []) (hp : w.path = [gang w]) (hk : ∀ i ∈ gang w, (sliceAt w i).parked = []) :
    findWave (endLanes s w0) w.uid = none ∧ SameMemory s (endLanes s w0) ∧ (∃ x ∈ (endLanes s w0).ghosts, x.uid = w.uid) ∧
    (0 < w.weight → ∃ f ∈ (endLanes s w0).flights, f.act = .wreturn w.launch w.weight) := by
  obtain ⟨hf, hs⟩ := hn
  rw [endLanes_eq hu hw hs, lanesEnded_path_last hg hp hk]
  exact retireWave_retires (s := putWave s (lanesEnded w)) (w := lanesEnded w) (shadowsOf_putWave (by exact hf) hs) w.weight

/-! ### exit and done (R120, R149, R380) -/

/-- An instruction that issues has a gang to issue for. -/
theorem gang_ne_nil_of_issues {s : State} {i : Instr} {w : Wave} {ls : List Nat} (hi : Issues s i w ls) : gang w ≠ [] := by
  obtain ⟨_, _, rfl, hne⟩ := hi
  intro hg
  apply hne
  have hrun : runLanes w = [] := by simp [runLanes, hg]
  unfold guardLanes
  rw [hrun]
  split
  · rfl
  · split <;> rfl

theorem exec_exit {s : State} {w : Wave} {ls : List Nat} {g : Guard} (hi : Issues s (.exit g) w ls) :
    exec (.exit g) s = .next (if w.trap.h then retireWave s w w.weight else endLanes s w) := by
  change execExit g s = _
  rw [execExit, runInstr_issues hi]

/-- The wait of `done` is over when no operation counts and no sample is left to merge, in a wave without forks. -/
theorem exec_done {s : State} {w : Wave} {ls : List Nat} {g : Guard} (hi : Issues s (.done g) w ls)
    (hs : shadowsOf s w.uid (fun _ _ => true) = []) (hm : MergesOver s w) (hc : ∀ c, counter s w.uid c = 0) :
    exec (.done g) s = .next (endLanes (putWave s { w with tookMore := true }) w) := by
  obtain ⟨hbuffer, hmerges⟩ := hm
  have hw := (curWave_found hi.1).2
  have hflush : flushOwn s w = s := by rw [flushOwn, hbuffer]; rfl
  have hsquash : squashOrder s w = s := squashWhere_none hs _
  change execDone g s = _
  rw [execDone, runInstr_issues hi]
  simp [waitBody, hflush, hsquash, countersMeet, hc, hmerges, hw]

/-! ### The statement of O26 -/

/-- Settles O26: lanes that end leave their slice to its top parked part; when no part is left the wave retires, and `done` is an `exit` after
its wait. -/
theorem lanesEnd : Obligations.LanesEnd := by
  unfold Obligations.LanesEnd
  intro s w ls g hn
  obtain ⟨hf, hs⟩ := hn
  refine ⟨?handler, ?last, ?parts, ?done⟩
  case handler =>
    intro hi hh
    exact ⟨_, exec_exit hi, by rw [hh]; exact retireWave_retires hs w.weight⟩
  case last =>
    intro hi hh hlast
    obtain ⟨hp, hk⟩ := hlast
    exact ⟨_, exec_exit hi, by rw [hh]; exact endLanes_last rfl (curWave_found hi.1).2 ⟨hf, hs⟩ (gang_ne_nil_of_issues hi) hp hk⟩
  case parts =>
    intro hi hh hparked
    obtain ⟨j, hj, _, hjk⟩ := hparked
    have hw := (curWave_found hi.1).2
    have hend : endLanes s w = putWave s (pastEnd (lanesEnded w)) := by
      rw [endLanes_eq rfl hw hs, if_neg (by simpa using lanesEnded_path_parted hj hjk)]
    obtain ⟨_, hfound, hothers, hmem⟩ := onlyWave_putWave hw ((sameButPaths_lanesEnded w).trans (sameButPaths_pastEnd _)).uid
    refine ⟨_, exec_exit hi, pastEnd (lanesEnded w), ?_⟩
    rw [hh, if_neg Bool.false_ne_true, hend]
    refine ⟨⟨hfound, hothers⟩, hmem, fun i hg hl => ?_⟩
    rw [sliceAt_pastEnd hl hg]
    split
    · next hnil => simp [endSlice, hnil]
    · next p r hcons => simp [endSlice, hcons, swapPart_cons hcons]
  case done =>
    intro hi hq hlast
    obtain ⟨hm, hc⟩ := hq
    obtain ⟨hp, hk⟩ := hlast
    have hfound : findWave (putWave s { w with tookMore := true }) w.uid = some { w with tookMore := true } :=
      findWave_putWave_same (w := { w with tookMore := true }) (curWave_found hi.1).2
    have hg : gang w ≠ [] := gang_ne_nil_of_issues hi
    exact ⟨_, exec_done hi hs hm hc, endLanes_last (w := { w with tookMore := true }) rfl hfound
      ⟨hf, shadowsOf_putWave (by exact hf) hs⟩ hg hp hk⟩


/-! ### Where the slices stand after a step -/

/-- PCs of the running parts, wave by wave. -/
def runPcs (s : State) : List (List W64) := s.waves.map (fun w => w.slices.map (fun sl => sl.run.pc))

/-- What a step ends in that has planned to run `i` on `t`. -/
def ranOn (i : Instr) (s t : State) : Out :=
  match exec i t with
  | .next u => .next (goAfter i s t u)
  | .fault f => .fault f
  | .refused r => .refused r

theorem step_of_plan_run {s t : State} {i : Instr} (h : plan s = .run i t) : step s = ranOn i s t := by
  rw [step, h]
  rfl

/-- The last entry of a VIQ of an instruction that nothing is steered behind issues on the wave itself, as it stands (R44, R46). -/
theorem plan_issue_atPlace {s : State} {w : Wave} {e : VEnt} (ht : s.turn = .issue w.uid) (hw : findWave s w.uid = some w)
    (hv : w.viq = [e]) (hs : stops e.instr = true) (hb : w.blocked = none) (hr : regangOver s w = false)
    (hq : queuedWaits s w e = false) : plan s = .run e.instr (putWave s { w with npc := e.npc, viq := [], retq := [] }) := by
  simp [plan, planIssue, ht, hw, hv, hs, hb, hr, hq]

/-- PCs after such a step, but for the choice of who moves next. -/
def notedPcs (i : Instr) (s t : State) : Option (List (List W64)) :=
  match exec i t with
  | .next u => some (runPcs (noteAll i s (endIssue s u)))
  | _ => none

theorem runPcs_spendYields (s : State) (die core slot : Nat) (u : Option Nat) : runPcs (spendYields s die core slot u) = runPcs s := by
  have hpcs (c : Bool) (w : Wave) :
      (if c then { w with yielding := none } else w).slices.map (fun sl => sl.run.pc) = w.slices.map (fun sl => sl.run.pc) := by
    cases c <;> rfl
  unfold spendYields runPcs
  rw [List.map_map]
  exact List.map_congr_left (fun w _ => hpcs _ w)

/-- The choice of who moves next moves no slice. -/
theorem runPcs_choose (s : State) (n : Turn) : runPcs (choose s n) = runPcs s := by
  have hissue (uid : Nat) : runPcs (match findWave s uid with
      | some w => if issueReady s w then spendYields s w.die w.core (ctxOf w / 16) (some uid) else s
      | none => s) = runPcs s := by
    cases findWave s uid with
    | none => rfl
    | some w =>
      dsimp only
      split
      · exact runPcs_spendYields _ _ _ _ _
      · rfl
  unfold choose
  split
  · exact hissue _
  · exact hissue _
  · next die core slot => exact runPcs_spendYields s die core slot none
  · rfl

theorem runPcs_goNext (s : State) : runPcs (goNext s) = runPcs s := by
  have h : runPcs (choose (advance s) (nextTurn (advance s))) = runPcs s := runPcs_choose _ _
  unfold goNext
  dsimp only
  split
  · split <;> exact h
  · exact h

/-- A slot's note of whom it served is kept in its core. -/
theorem runPcs_served (s t : State) : runPcs (served s t) = runPcs t := by
  have hnote (turn : Turn) (x y : Slot) (w : Wave) : runPcs (match turn with
      | .issue _ => putIssue t w.die w.core (ctxOf w / 16) x
      | _ => if w.fork.isSome then t else putIssue t w.die w.core (ctxOf w / 16) y) = runPcs t := by
    split
    · rfl
    · split <;> rfl
  unfold served
  split
  case h_4 => rfl
  all_goals
    split
    · rfl
    · exact hnote _ _ _ _

theorem runPcs_goAfter_brv {g : Guard} {n : Bool} {k : Nat} {off : BitVec 24} (s t u : State) :
    runPcs (goAfter (.brv g n k off) s t u) = runPcs (noteAll (.brv g n k off) s (endIssue s u)) := by
  unfold goAfter
  simp only [retries, Bool.false_eq_true, if_false]
  rw [runPcs_goNext]
  split
  · exact runPcs_served _ _
  · rfl

/-- A `brv` whose guard is false in every lane: it only goes on (R66). -/
def idleBranch : Instr := .brv { neg := true, pred := 0 } false 0 0

/-- PCs of the state that a step ends in, if it ends in one. -/
def outcomePcs : Out → Option (List (List W64))
  | .next t => some (runPcs t)
  | _ => none

theorem outcomePcs_ranOn (s t : State) : outcomePcs (ranOn idleBranch s t) = notedPcs idleBranch s t := by
  unfold ranOn notedPcs
  cases exec idleBranch t with
  | next u => exact congrArg some (runPcs_goAfter_brv s t u)
  | fault f => rfl
  | refused r => rfl

/-! ### Two gangs at one place -/

/-- The wave of a placed program (log 3). -/
def placedWave : Wave := newWave State.reset 0 { core := 0, wctx := 0, vbase := 0, sbase := 0 } placedLaunch placedNode placedRecord 0

/-- `idleBranch` as the first slice of that wave has steered it. -/
def branchEntry : VEnt :=
  { instr := idleBranch, gang := [0], slices := placedWave.slices, npc := placedWave.npc + 12, s := placedWave.s, hs := placedWave.hs,
    q := placedWave.q, h := false }

/-- The placed wave with its first slice in a gang of its own, which has steered `idleBranch` and stands at it; the other slices stand
there too, in a second gang. -/
def twoGangsWave : Wave := { placedWave with path := [[0], [1, 2, 3, 4, 5, 6, 7]], viq := [branchEntry] }

/-- That wave is resident, and it is its turn to issue. -/
def twoGangs : State :=
  { placeProgram State.reset (encode idleBranch) with turn := .issue twoGangsWave.uid, waves := [twoGangsWave] }

/-- The state on which such a wave issues its oldest entry at its place. -/
def issuesAt (w : Wave) : State := putWave twoGangs { w with npc := branchEntry.npc, viq := [], retq := [] }

theorem plan_twoGangs : plan twoGangs = .run idleBranch (issuesAt twoGangsWave) :=
  plan_issue_atPlace (e := branchEntry) rfl (by decide +kernel) rfl rfl rfl rfl (by decide +kernel)

/-- The step moves the first slice only: no gangs merge before a queued instruction issues. -/
theorem notedPcs_twoGangs :
    notedPcs idleBranch twoGangs (issuesAt twoGangsWave) = some [[0x4000C, 0x40000, 0x40000, 0x40000, 0x40000, 0x40000, 0x40000, 0x40000]] := by
  decide +kernel

/-- On the merged gang it would move them all. -/
theorem notedPcs_twoGangs_ready :
    notedPcs idleBranch twoGangs (issuesAt (ready twoGangs twoGangsWave)) = some [List.replicate 8 0x4000C] := by
  decide +kernel

/-! ### The statement of O56 -/

/-- Refutes O56: its last clause lets the queued instruction issue on the wave made ready, in which gangs that stand at one place have merged;
the model issues it on the wave as it stands. Of two gangs at one place a step moves the current one only. -/
theorem not_stepsRunInstructions : ¬ Obligations.StepsRunInstructions := by
  unfold Obligations.StepsRunInstructions
  intro h
  obtain ⟨-, -, -, hissue⟩ := h twoGangs
  have hready : step twoGangs = ranOn idleBranch twoGangs (issuesAt (ready twoGangs twoGangsWave)) :=
    hissue twoGangsWave branchEntry [] rfl (by decide +kernel) (by decide +kernel) (by decide +kernel) (by decide +kernel) (by decide +kernel)
  have hsame : notedPcs idleBranch twoGangs (issuesAt twoGangsWave) =
      notedPcs idleBranch twoGangs (issuesAt (ready twoGangs twoGangsWave)) := by
    rw [← outcomePcs_ranOn, ← outcomePcs_ranOn, ← step_of_plan_run plan_twoGangs, hready]
  rw [notedPcs_twoGangs, notedPcs_twoGangs_ready] at hsame
  exact absurd hsame (by decide)

end Sys2Proof.Machine
end

section
/-!
PROOFS. The frame of every instruction of a program: what does not decode for its wave raises ILLEGAL (O29), and what has no active lane only
goes on (O22).
-/
namespace Sys2Proof.Machine

/-! ### The frame of every instruction (R66, R78) -/

/-- An instruction of a program runs in the frame of R66 and R78, whatever it is. -/
theorem exec_eq_runInstr {i : Instr} (h : i.isEvent = false) (s : State) : ∃ body, exec i s = runInstr i s body := by
  cases i with
  | iadd | isub | imul | imulh | iand | ior | ixor | ishl | ishr | isra | imin | imax | inot | iabs | ipopc | iclz | imad | ibfx | ibfi | isel
  | icmp | mov | movi | bcast | rng =>
    simp only [exec, execIadd, execIsub, execImul, execImulh, execIand, execIor, execIxor, execIshl, execIshr, execIsra, execImin, execImax,
      execInot, execIabs, execIpopc, execIclz, execImad, execIbfx, execIbfi, execIsel, execIcmp, execMov, execMovi, execBcast, execRng, aluRun,
      predRun]
    exact ⟨_, rfl⟩
  | fadd | fsub | fmul | fmin | fmax | fdiv | fsqrt | frcp | frsq | fexp2 | flog2 | fsin | fcos | fclass | frnd | fcmp | hadd2 | hmul2 | ffma
  | hfma2 | cvt | pack | unpack =>
    simp only [exec, execFadd, execFsub, execFmul, execFmin, execFmax, execFdiv, execFsqrt, execFrcp, execFrsq, execFexp2, execFlog2, execFsin,
      execFcos, execFclass, execFrnd, execFcmp, execHadd2, execHmul2, execFfma, execHfma2, execCvt, execPack, execUnpack, flt1, flt2, flt3,
      fltRun, predRun]
    exact ⟨_, rfl⟩
  | gets | sets | shfl | vote | gred | gscan | trap | xret | xclr | cfgr | cfgw | live | tlbi =>
    simp only [exec, execGets, execSets, execShfl, execVote, execGred, execGscan, execTrap, execXret, execXclr, execCfgr, execCfgw, execLive,
      execTlbi]
    exact ⟨_, rfl⟩
  | ld | st | ldu | stu | lds | sts | ldp | stp | pf | atom | red | barInit | barArr | barExp | barWait | estAdd | estMrg | estLd | estClr
  | estAdv | estClose =>
    simp only [exec, execLd, execSt, execLdu, execStu, execLds, execSts, execLdp, execStp, execPf, execAtom, execRed, execBarInit, execBarArr,
      execBarExp, execBarWait, execEstAdd, execEstMrg, execEstLd, execEstClr, execEstAdv, execEstClose]
    exact ⟨_, rfl⟩
  | br | brv | jmp | bri | call | ret | loop | regang | yield | exit | nop | fsync | wait | fence | done | deq | fcall =>
    simp only [exec, execBr, execBrv, execJmp, execBri, execCall, execRet, execLoop, execRegang, execYield, execExit, execNop, execFsync, execWait,
      execFence, execDone, execDeq, execFcall]
    exact ⟨_, rfl⟩
  | spawn | amsg | enq | dlaunch | trace | tget | hgf | hgs | tex | tld =>
    simp only [exec, execSpawn, execAmsg, execEnq, execDlaunch, execTrace, execTget, execHgf, execHgs, execTex, execTld]
    exact ⟨_, rfl⟩
  | tdefBytes | tdefPlane | tset | tq | cpyLd | cpySt | cpyGth | cpyWs | cpyFill | glTopk | glSmax | glSamp | mlease | mrel | mmo | mclr | mdrain =>
    simp only [exec, execTdefBytes, execTdefPlane, execTset, execTq, execCpyLd, execCpySt, execCpyGth, execCpyWs, execCpyFill, execGlTopk,
      execGlSmax, execGlSamp, execMlease, execMrel, execMmo, execMclr, execMdrain]
    exact ⟨_, rfl⟩
  | _ => cases h

/-- An instruction of a program that does not decode for its wave raises ILLEGAL (R78). -/
theorem exec_illegal {i : Instr} {s : State} {w : Wave} (he : i.isEvent = false) (hw : curWave s = some w) (hl : legal s w i = false) :
    exec i s = .next (raiseIllegal s w (illegalLanes w i)) := by
  obtain ⟨body, hb⟩ := exec_eq_runInstr he s
  rw [hb, runInstr_illegal hw hl]

/-- An instruction of a program that decodes and takes no effect is over at once (R66). -/
theorem exec_noEffect {i : Instr} {s : State} {w : Wave} (he : i.isEvent = false) (hw : curWave s = some w) (hl : legal s w i = true)
    (ht : takesEffect w i = false) : exec i s = finish s w := by
  obtain ⟨body, hb⟩ := exec_eq_runInstr he s
  rw [hb, runInstr_false hw hl ht]

/-- Settles O29: the frame of every instruction raises ILLEGAL, and a precise exception changes nothing but its wave, which enters the handler. -/
theorem undecodableInstructionsTrap : Obligations.UndecodableInstructionsTrap := by
  unfold Obligations.UndecodableInstructionsTrap
  intro i s w he hw hl hc
  exact ⟨_, exec_illegal he hw hl, takeException_enters (curWave_found hw).2 hc _ _⟩

/-! ### Where the gangs stand after an instruction (R33, R112, R117) -/

theorem mem_insNat {a x : Nat} {l : List Nat} : a ∈ insNat x l ↔ a = x ∨ a ∈ l := by
  induction l with
  | nil => simp [insNat]
  | cons y r ih =>
    unfold insNat
    grind

/-- A union keeps what stood in its first list. -/
theorem mem_unionNat_left {a : Nat} {xs : List Nat} (h : a ∈ xs) (ys : List Nat) : a ∈ unionNat xs ys := by
  unfold unionNat
  induction ys generalizing xs with
  | nil => exact h
  | cons y r ih => exact ih (mem_insNat.2 (.inr h))

/-- Parked parts that join a running part leave it where it stands, with its lanes. -/
theorem unite_run (sl : Slice) : samePlace (unite sl).run sl.run = true ∧ ∀ l ∈ sl.run.lanes, l ∈ (unite sl).run.lanes := by
  refine ⟨by simp [samePlace, unite], fun l hl => ?_⟩
  simp only [unite]
  generalize sl.parked.filter (samePlace sl.run) = ps
  generalize sl.run.lanes = ls at hl
  induction ps generalizing ls with
  | nil => exact hl
  | cons p r ih => exact ih _ (mem_unionNat_left hl _)

@[simp] theorem sliceAt_mergeGangs (w : Wave) (i : Nat) : sliceAt (mergeGangs w) i = sliceAt w i := by
  unfold mergeGangs
  simp only
  split <;> rfl

@[simp] theorem gang_updSlices (w : Wave) (g : List Nat) (f : Slice → Slice) : gang (updSlices w g f) = gang w := rfl

/-- At an issue boundary the running parts of the current gang stay where they are, and the other slices are not touched. -/
theorem moves_settle (w : Wave) : Moves w (settle w) id := by
  intro i hi
  unfold settle
  by_cases hg : i ∈ gang w <;> by_cases hh : w.trap.h = true
  · simp [hg, hh, samePlace]
  · rw [if_pos hg, if_neg hh, sliceAt_mergeGangs, sliceAt_updSlices_mem _ hi hg]
    exact unite_run _
  · simp [hg, hh]
  · rw [if_neg hg, if_neg hh, sliceAt_mergeGangs, sliceAt_updSlices_not_mem _ _ hg]
    exact ⟨rfl, rfl⟩

/-- Moving the running parts of the current gang, and what happens at the issue boundary behind it. -/
theorem moves_settle_updSlices (w : Wave) {f : Part → Part} (hf : ∀ p, (f p).lanes = p.lanes) :
    Moves w (settle (updSlices w (gang w) (fun sl => { sl with run := f sl.run }))) f := by
  intro i hi
  have h := moves_settle (updSlices w (gang w) (fun sl => { sl with run := f sl.run })) i (by simpa using hi)
  rw [gang_updSlices] at h
  split_ifs with hg
  · rw [if_pos hg, sliceAt_updSlices_mem _ hi hg] at h
    exact ⟨h.1, fun l hl => h.2 l (by simpa [hf] using hl)⟩
  · rw [if_neg hg, sliceAt_updSlices_not_mem _ _ hg] at h
    exact h

/-- Going on at the next instruction moves the current gang as sequential execution does (R117). -/
theorem moves_goSeq (w : Wave) : Moves w (goSeq w) (partSeq w.npc) := moves_settle_updSlices w fun _ => rfl

/-- Settles O22: an instruction that takes no effect is over at once, and its wave goes on to the next instruction. -/
theorem falseGuardsOnlyAdvance : Obligations.FalseGuardsOnlyAdvance := by
  unfold Obligations.FalseGuardsOnlyAdvance
  intro i s w he hw hl hg hr
  have ht : takesEffect w i = false := by simp [takesEffect, hg, hr]
  exact ⟨exec_noEffect he hw hl ht, onlyWave_putWave (curWave_found hw).2 (goSeq_uid w), sameRegs_goSeq w, moves_goSeq w⟩

end Sys2Proof.Machine
end

section
/-!
PROOFS. Encodings (O58): the words that the encoder writes are read back field by field, in the extended form, the coprocessor form and the
control layouts; a well-formed instruction has fields that fit; and whatever the decoder reads is an instruction of a program.
-/
namespace Sys2Proof

/-! ### Bytes and words (R4, R59) -/

theorem length_leBytes (n x : Nat) : (leBytes n x).length = n := by
  induction n generalizing x with
  | zero => rfl
  | succ n ih => simp [leBytes, ih]

theorem leNat_leBytes (n x : Nat) : leNat (leBytes n x) = x % 256 ^ n := by
  induction n generalizing x with
  | zero => simp [leBytes, leNat, Nat.mod_one]
  | succ n ih =>
    simp only [leBytes, leNat, ih, BitVec.toNat_ofNat]
    rw [Nat.mod_mod_of_dvd _ (by norm_num), pow_succ' 256, Nat.mod_mul]

/-- A word's bytes in front of others are read as the word. -/
theorem leNat_take_leBytes {w : Nat} (h : w < 2 ^ 32) (bs : List Byte) : leNat ((leBytes 4 w ++ bs).take 4) = w := by
  rw [List.take_left' (length_leBytes 4 w), leNat_leBytes]
  exact Nat.mod_eq_of_lt h

/-- The words of a list are read back from its bytes, whatever follows. -/
theorem wordsOf_flatMap {ws : List Nat} (h : ∀ w ∈ ws, w < 2 ^ 32) (rest : List Byte) :
    wordsOf ws.length (ws.flatMap (leBytes 4) ++ rest) = ws := by
  induction ws with
  | nil => rfl
  | cons w r ih =>
    simp only [List.length_cons, List.flatMap_cons, List.append_assoc, wordsOf]
    rw [leNat_take_leBytes (h w (by simp)), List.drop_left' (length_leBytes 4 w), ih fun x hx => h x (by simp [hx])]

/-- Words that fit their size and their length, and that the decoder reads as an instruction (R59). -/
structure ReadAs (ws : List Nat) (i : Instr) : Prop where
  fit : ∀ w ∈ ws, w < 2 ^ 32
  length : instrWords (ws.getD 0 0) = ws.length
  reads : decodeWords ws = .ok i

theorem instrWords_pos (w : Nat) : 0 < instrWords w := by
  unfold instrWords
  split <;> decide

/-- Such words are read from their bytes, whatever follows. -/
theorem ReadAs.decode {ws : List Nat} {i : Instr} (h : ReadAs ws i) (rest : List Byte) :
    decode (ws.flatMap (leBytes 4) ++ rest) = .ok (i, ws.length) := by
  obtain ⟨hfit, hlen, hreads⟩ := h
  have hbytes : (ws.flatMap (leBytes 4)).length = 4 * ws.length := by
    simp [List.length_flatMap, length_leBytes, mul_comm]
  have hpos := instrWords_pos (ws.getD 0 0)
  have hfirst : leNat ((ws.flatMap (leBytes 4) ++ rest).take 4) = ws.getD 0 0 := by
    cases ws with
    | nil => exact absurd hlen hpos.ne'
    | cons w r => rw [List.flatMap_cons, List.append_assoc, leNat_take_leBytes (hfit w (by simp))]; rfl
  unfold Sys2Proof.decode
  simp only [hfirst, hlen, wordsOf_flatMap hfit, hreads]
  rw [if_neg (by rw [List.length_append, hbytes]; omega), if_neg (by rw [List.length_append, hbytes]; omega)]

/-! ### Codes (R62, R64) -/

@[simp] theorem Kind.ofCode_code (k : Kind) : Kind.ofCode k.code = k := by cases k <;> rfl
@[simp] theorem Ty.ofCode_code (t : Ty) : Ty.ofCode t.code = some t := by cases t <;> rfl
@[simp] theorem Rnd.ofCode_code (r : Rnd) : Rnd.ofCode r.code = some r := by cases r <;> rfl
@[simp] theorem Scope.ofCode_code (c : Scope) : Scope.ofCode c.code = some c := by cases c <;> rfl
@[simp] theorem Ord.ofCode_code (r : Ord) : Ord.ofCode r.code = r := by cases r <;> rfl
theorem Kind.code_lt (k : Kind) : k.code < 4 := by cases k <;> decide
theorem Ty.code_lt (t : Ty) : t.code < 16 := by cases t <;> decide
theorem Rnd.code_lt (r : Rnd) : r.code < 8 := by cases r <;> decide
theorem Scope.code_lt (c : Scope) : c.code < 8 := by cases c <;> decide
theorem Ord.code_lt (r : Ord) : r.code < 4 := by cases r <;> decide

/-! ### Fields of a sum -/

/-- A flag in a sum of fields is its bit. -/
theorem ite_two_pow (b : Bool) (n : Nat) : (if b = true then 2 ^ n else 0) = 2 ^ n * b.toNat := by cases b <;> simp

theorem bitAt_of_eq {x n : Nat} {b : Bool} (h : x / 2 ^ n % 2 = b.toNat) : bitAt x n = b := by
  cases b <;> simp_all [bitAt]

/-! ### The extended form (R63 to R68) -/

/-- What the decoder reads in word 0: LEN, OP, the upper bits of IMM24 with UI beside them, and K (R59, R63). -/
structure Word0 (w len op imh : Nat) (ui : Bool) (k : Kind) : Prop where
  lt : w < 2 ^ 32
  words : instrWords w = len
  extended : field w 30 30 = 1
  opcode : field w 29 23 = op
  upper : field w 22 15 = imh
  flag : bitAt w 14 = ui
  reserved : field w 13 2 = 0
  kind : Kind.ofCode (w % 4) = k

/-- What it reads in word 1: D, A, B8 and C8, the last two also as one number (R63). -/
structure Word1 (w d a b c : Nat) : Prop where
  lt : w < 2 ^ 32
  lower : w % 65536 = b * 256 + c
  d : field w 31 24 = d
  a : field w 23 16 = a
  b : field w 15 8 = b
  c : field w 7 0 = c

/-- What it reads in word 2: the minor opcode, and the guard and the modifiers of an operand record (R63, R64, R66). -/
structure Word2 (w min : Nat) (o : Ops) : Prop where
  lt : w < 2 ^ 32
  minor : field w 31 24 = min
  neg : bitAt w 23 = o.g.neg
  pred : field w 22 20 = o.g.pred
  ty : Ty.ofCode (field w 19 16) = some o.ty
  rnd : Rnd.ofCode (field w 15 13) = some o.rnd
  sat : bitAt w 12 = o.sat
  sc : Scope.ofCode (field w 11 9) = some o.sc
  ord : Ord.ofCode (field w 8 7) = o.ord
  x : field w 6 0 = o.x

/-- Words 0 and 1 by their fields, and word 2 of an operand record, as the encoder puts them together (`encodeOps_register` and so on). -/
def extWord0 (len op imh : Nat) (ui : Bool) (k : Kind) : Nat :=
  len * 2 ^ 30 + op * 2 ^ 23 + imh * 2 ^ 15 + (if ui then 2 ^ 14 else 0) + k.code
def extWord1 (d a b c : Nat) : Nat := d * 2 ^ 24 + a * 2 ^ 16 + b * 2 ^ 8 + c
def extWord2 (min : Nat) (o : Ops) : Nat :=
  min * 2 ^ 24 + (if o.g.neg then 2 ^ 23 else 0) + o.g.pred * 2 ^ 20 + o.ty.code * 2 ^ 16 + o.rnd.code * 2 ^ 13 +
    (if o.sat then 2 ^ 12 else 0) + o.sc.code * 2 ^ 9 + o.ord.code * 2 ^ 7 + o.x

theorem word0 {len op imh : Nat} (ui : Bool) (k : Kind) (hlen : len = 1 ∨ len = 3) (hop : op < 128) (himh : imh < 256) :
    Word0 (extWord0 len op imh ui k) (len + 2) op imh ui k := by
  unfold extWord0
  have hu := ui.toNat_lt
  have hk := k.code_lt
  rw [ite_two_pow]
  generalize hw : len * 2 ^ 30 + op * 2 ^ 23 + imh * 2 ^ 15 + 2 ^ 14 * ui.toNat + k.code = w
  have hl : w / 2 ^ 30 % 4 = len := by omega
  have hc : w % 4 = k.code := by omega
  have hwords : instrWords w = len + 2 := by
    unfold instrWords
    rw [hl]
    rcases hlen with rfl | rfl <;> rfl
  refine ⟨?_, hwords, ?_, ?_, ?_, bitAt_of_eq ?_, ?_, by rw [hc, Kind.ofCode_code]⟩ <;> (try unfold field) <;> omega

theorem word1 {d a b c : Nat} (hd : d < 256) (ha : a < 256) (hb : b < 256) (hc : c < 256) :
    Word1 (extWord1 d a b c) d a b c := by
  unfold extWord1
  constructor <;> (try unfold field) <;> omega

theorem word2 {min : Nat} {o : Ops} (hmin : min < 256) (hp : o.g.pred < 8) (hx : o.x < 128) : Word2 (extWord2 min o) min o := by
  unfold extWord2
  have hn := o.g.neg.toNat_lt
  have hs := o.sat.toNat_lt
  have hty := o.ty.code_lt
  have hrn := o.rnd.code_lt
  have hsc := o.sc.code_lt
  have hod := o.ord.code_lt
  simp only [ite_two_pow]
  generalize hw : min * 2 ^ 24 + 2 ^ 23 * o.g.neg.toNat + o.g.pred * 2 ^ 20 + o.ty.code * 2 ^ 16 + o.rnd.code * 2 ^ 13 +
    2 ^ 12 * o.sat.toNat + o.sc.code * 2 ^ 9 + o.ord.code * 2 ^ 7 + o.x = w
  have h16 : field w 19 16 = o.ty.code := by unfold field; omega
  have h13 : field w 15 13 = o.rnd.code := by unfold field; omega
  have h9 : field w 11 9 = o.sc.code := by unfold field; omega
  have h7 : field w 8 7 = o.ord.code := by unfold field; omega
  refine ⟨?_, ?_, bitAt_of_eq ?_, ?_, by rw [h16, Ty.ofCode_code], by rw [h13, Rnd.ofCode_code], bitAt_of_eq ?_, by rw [h9, Scope.ofCode_code],
    by rw [h7, Ord.ofCode_code], ?_⟩ <;> (try unfold field) <;> omega

/-- The literal of two words (R59). -/
theorem litOf_words (v : W64) (x y z : Nat) : litOf [x, y, z, v.toNat % 2 ^ 32, v.toNat / 2 ^ 32] 3 = v := by
  apply BitVec.eq_of_toNat_eq
  simp only [litOf, List.getD_cons_succ, List.getD_cons_zero, BitVec.toNat_ofNat]
  omega

/-- The sign extension of the low 24 bits of a value whose upper bits are its sign (R67). -/
theorem sext64_low24 {v : W64} (h : v.toNat < 2 ^ 23 ∨ 2 ^ 64 - 2 ^ 23 ≤ v.toNat) : sext64 24 (v.toNat % 2 ^ 24) = v := by
  apply BitVec.eq_of_toNat_eq
  have := v.isLt
  unfold sext64
  split_ifs with hs
  · simp only [BitVec.toNat_ofNat]
    omega
  · simp only [BitVec.toNat_ofNat]
    omega

/-- An extended form without an immediate is read with B in the class that K selects. -/
theorem decodeExt_register {op min w0 w1 w2 n : Nat} {o : Ops} {mk : Ops → Instr} (hrow : rowOf op min = some mk) (h0 : Word0 w0 3 op 0 false o.k)
    (h1 : Word1 w1 o.d o.a n o.c) (h2 : Word2 w2 min o) (hk : o.k ≠ .vi) :
    decodeExt op [w0, w1, w2] = .ok (mk { o with b := if o.k == .vv then .v n else .s n }) := by
  have hvi : (o.k == .vi) = false := by simpa using hk
  simp only [decodeExt, List.getD_cons_zero, List.getD_cons_succ, h0.upper, h0.flag, h0.reserved, h0.kind, h1.d, h1.a, h1.b, h1.c, h2.minor,
    h2.neg, h2.pred, h2.ty, h2.rnd, h2.sat, h2.sc, h2.ord, h2.x, hrow, hvi, Bool.and_false]
  rfl

/-- An extended form with a literal is read back; C8 is C beside the literal of `atom` and `red` only (R63). -/
theorem decodeExt_literal {op min w0 w1 w2 : Nat} {v : W64} {o : Ops} {ik : ImmKind} {mk : Ops → Instr} (hrow : rowOf op min = some mk)
    (hik : ∀ o', immKindOf mk o' = ik) (h0 : Word0 w0 5 op 0 (o.k == .uu) o.k) (h1 : Word1 w1 o.d o.a 0 o.c) (h2 : Word2 w2 min o)
    (hk : o.k = .vi ∨ o.k = .uu) (hi : ik ≠ .none ∧ ik ≠ .imm24) (hc : ik ≠ .atomOff → o.c = 0) :
    decodeExt op [w0, w1, w2, v.toNat % 2 ^ 32, v.toNat / 2 ^ 32] = .ok (mk { o with b := .imm v }) := by
  have himm : (o.k == .vi || o.k == .uu && (o.k == .uu)) = true := by rcases hk with h | h <;> simp [h]
  have hui : ((o.k == .uu) && (o.k != .uu)) = false := by simp [bne]
  have hlow := h1.lower
  simp only [decodeExt, List.getD_cons_zero, List.getD_cons_succ, h0.upper, h0.flag, h0.reserved, h0.kind, h1.d, h1.a, h1.b, h1.c, h2.minor,
    h2.neg, h2.pred, h2.ty, h2.rnd, h2.sat, h2.sc, h2.ord, h2.x, hrow, himm, hui, hik, litOf_words, hlow]
  obtain ⟨hi0, hi24⟩ := hi
  cases ik with
  | none => exact absurd rfl hi0
  | imm24 => exact absurd rfl hi24
  | atomOff => rfl
  | val | lit | off =>
    rw [hc (by simp)]
    rfl

/-- An extended form with a value in IMM24 is read back, sign-extended (R67). -/
theorem decodeExt_imm24 {op min w0 w1 w2 : Nat} {v : W64} {o : Ops} {mk : Ops → Instr} (hrow : rowOf op min = some mk)
    (hik : ∀ o', immKindOf mk o' = .imm24) (h0 : Word0 w0 3 op (v.toNat % 2 ^ 24 / 65536) (o.k == .uu) o.k)
    (h1 : Word1 w1 o.d o.a (v.toNat % 2 ^ 24 / 256 % 256) (v.toNat % 2 ^ 24 % 256)) (h2 : Word2 w2 min o)
    (hk : o.k = .vi ∨ o.k = .uu) (hv : v.toNat < 2 ^ 23 ∨ 2 ^ 64 - 2 ^ 23 ≤ v.toNat) :
    decodeExt op [w0, w1, w2] = .ok (mk { o with b := .imm v, c := 0 }) := by
  have himm : (o.k == .vi || o.k == .uu && (o.k == .uu)) = true := by rcases hk with h | h <;> simp [h]
  have hui : ((o.k == .uu) && (o.k != .uu)) = false := by simp [bne]
  have hlow : v.toNat % 2 ^ 24 / 65536 * 65536 + w1 % 65536 = v.toNat % 2 ^ 24 := by
    have := h1.lower
    omega
  simp only [decodeExt, List.getD_cons_zero, List.getD_cons_succ, h0.upper, h0.flag, h0.reserved, h0.kind, h1.d, h1.a, h1.b, h1.c, h2.minor,
    h2.neg, h2.pred, h2.ty, h2.rnd, h2.sat, h2.sc, h2.ord, h2.x, hrow, himm, hui, hik, hlow, immPattern, sext64_low24 hv, Bool.not_true,
    Bool.and_false, bne_self_eq_false, Bool.or_false]
  rfl

/-- Words of an extended form that the decoder reads as an instruction (R61, R72). -/
theorem readAs_of_decodeExt {op min imh d a b c w0 w1 w2 : Nat} {ui : Bool} {k : Kind} {o : Ops} {r : List Nat} {i : Instr}
    (h0 : Word0 w0 (r.length + 3) op imh ui k) (h1 : Word1 w1 d a b c) (h2 : Word2 w2 min o) (hr : ∀ w ∈ r, w < 2 ^ 32)
    (hop : op ≤ 0x30 ∨ 0x70 ≤ op ∧ op ≤ 0x78) (hd : decodeExt op (w0 :: w1 :: w2 :: r) = .ok i) : ReadAs (w0 :: w1 :: w2 :: r) i := by
  refine ⟨?_, h0.words, ?_⟩
  · simp only [List.forall_mem_cons]
    exact ⟨h0.lt, h1.lt, h2.lt, hr⟩
  · simp only [decodeWords, List.getD_cons_zero, h0.opcode, h0.extended]
    rw [if_neg (by omega), if_neg (by omega), if_neg (by decide), hd]

/-- The words of an operand record whose B is a register. -/
theorem encodeOps_register {o : Ops} {n : Nat} (hb : o.b = if o.k == .vv then .v n else .s n) (op min : Nat) (ik : ImmKind) :
    encodeOps op min o ik = [extWord0 1 op 0 false o.k, extWord1 o.d o.a n o.c, extWord2 min o] := by
  split at hb <;> simp [encodeOps, hb, Src.immNat, extWord0, extWord1, extWord2]

/-- The words of an operand record whose B is an immediate that goes into the literal. -/
theorem encodeOps_literal {o : Ops} {v : W64} {ik : ImmKind} (hb : o.b = .imm v) (hi : ik ≠ .imm24) (hc : ik ≠ .atomOff → o.c = 0)
    (op min : Nat) : encodeOps op min o ik =
      [extWord0 3 op 0 (o.k == .uu) o.k, extWord1 o.d o.a 0 o.c, extWord2 min o, v.toNat % 2 ^ 32, v.toNat / 2 ^ 32] := by
  by_cases h : ik = .atomOff
  · simp [encodeOps, hb, h, Src.immNat, extWord0, extWord1, extWord2]
  · simp [encodeOps, hb, hi, h, hc h, Src.immNat, extWord0, extWord1, extWord2]

/-- The words of an operand record whose B is a value in IMM24. -/
theorem encodeOps_imm24 {o : Ops} {v : W64} (hb : o.b = .imm v) (op min : Nat) : encodeOps op min o .imm24 =
    [extWord0 1 op (v.toNat % 2 ^ 24 / 65536) (o.k == .uu) o.k,
     extWord1 o.d o.a (v.toNat % 2 ^ 24 / 256 % 256) (v.toNat % 2 ^ 24 % 256), extWord2 min o] := by
  simp [encodeOps, hb, Src.immNat, extWord0, extWord1, extWord2]

/-- B is one that the words of an instruction with immediates of a kind can hold: a register of the class that K selects, or an immediate, as a
literal or, sign-extended from 24 bits, in the place of B8 and C8 (R62, R63, R67, R68). -/
def Ops.SrcFits (o : Ops) (ik : ImmKind) : Prop :=
  (∃ n, n < 256 ∧ o.k ≠ .vi ∧ o.b = if o.k == .vv then .v n else .s n) ∨
  ∃ v, o.b = .imm v ∧ (o.k = .vi ∨ o.k = .uu) ∧ ik ≠ .none ∧ (ik = .imm24 → v.toNat < 2 ^ 23 ∨ 2 ^ 64 - 2 ^ 23 ≤ v.toNat) ∧
    (ik ≠ .atomOff → o.c = 0)

/-- The fields of an operand record fit those of the extended form (R63). -/
structure Ops.Fits (o : Ops) (ik : ImmKind) : Prop where
  pred : o.g.pred < 8
  d : o.d < 256
  a : o.a < 256
  b : o.SrcFits ik
  c : o.c < 256
  x : o.x < 128

/-- The words of an operand record that fits are read as its instruction. -/
theorem readAs_encodeOps {op min : Nat} {o : Ops} {ik : ImmKind} {mk : Ops → Instr} (hop : op ≤ 0x30 ∨ 0x70 ≤ op ∧ op ≤ 0x78) (hmin : min < 256)
    (hrow : rowOf op min = some mk) (hik : ∀ o', immKindOf mk o' = ik) (hf : o.Fits ik) : ReadAs (encodeOps op min o ik) (mk o) := by
  obtain ⟨hp, hd, ha, hb, hc, hx⟩ := hf
  have hop' : op < 128 := by omega
  have h2 := word2 (min := min) hmin hp hx
  rcases hb with ⟨n, hn, hk, hB⟩ | ⟨v, hB, hk, hi, hv, hc0⟩
  · have h0 := word0 (imh := 0) false o.k (.inl rfl) hop' (by decide)
    have h1 := word1 hd ha hn hc
    have hread := decodeExt_register hrow h0 h1 h2 hk
    rw [← hB] at hread
    rw [encodeOps_register hB]
    exact readAs_of_decodeExt h0 h1 h2 (by simp) hop hread
  · by_cases h24 : ik = .imm24
    · subst h24
      have h0 := word0 (imh := v.toNat % 2 ^ 24 / 65536) (o.k == .uu) o.k (.inl rfl) hop' (by omega)
      have h1 := word1 (b := v.toNat % 2 ^ 24 / 256 % 256) (c := v.toNat % 2 ^ 24 % 256) hd ha (by omega) (by omega)
      have hread := decodeExt_imm24 hrow hik h0 h1 h2 hk (hv rfl)
      rw [← hB, ← hc0 (by decide)] at hread
      rw [encodeOps_imm24 hB]
      exact readAs_of_decodeExt h0 h1 h2 (by simp) hop hread
    · have h0 := word0 (imh := 0) (o.k == .uu) o.k (.inr rfl) hop' (by decide)
      have h1 := word1 (b := 0) hd ha (by decide) hc
      have hread := decodeExt_literal (v := v) hrow hik h0 h1 h2 hk ⟨hi, h24⟩ hc0
      rw [← hB] at hread
      rw [encodeOps_literal hB h24 hc0]
      refine readAs_of_decodeExt h0 h1 h2 ?_ hop hread
      have := v.isLt
      simp only [List.forall_mem_cons, List.not_mem_nil, false_implies, implies_true, and_true]
      omega

/-! ### The coprocessor form (R69, R76) -/

/-- The words of the coprocessor form, as the encoder puts them together (`encodeCop_eq`). -/
def copWord0 (lit : Bool) : Nat := (if lit then 3 else 1) * 2 ^ 30 + 0x7F * 2 ^ 23 + 2
def copWord1 (eng fn : Nat) (o : Cop) : Nat :=
  eng * 2 ^ 28 + fn * 2 ^ 21 + (if o.rf then 2 ^ 20 else 0) + o.rr * 2 ^ 14 + o.sa * 2 ^ 8 + o.sb * 2 ^ 2
def copWord2 (o : Cop) : Nat := (if o.g.neg then 2 ^ 31 else 0) + o.g.pred * 2 ^ 28 + o.ta * 2 ^ 22 + o.tb * 2 ^ 16 + o.cm
def litWords : Option W64 → List Nat
  | some v => [v.toNat % 2 ^ 32, v.toNat / 2 ^ 32]
  | none => []

theorem encodeCop_eq (eng fn : Nat) (o : Cop) :
    encodeCop eng fn o = copWord0 o.lit.isSome :: copWord1 eng fn o :: copWord2 o :: litWords o.lit := by
  unfold encodeCop
  cases o.lit <;> rfl

/-- What the decoder reads in word 0 of the coprocessor form: LEN, OP, K and zeros (R59, R69). -/
structure CopWord0 (w len : Nat) : Prop where
  lt : w < 2 ^ 32
  words : instrWords w = len
  opcode : field w 29 23 = 0x7F
  extended : field w 30 30 = 1
  kind : w % 4 = 2
  reserved : field w 22 2 = 0

/-- What it reads in word 1: ENG, FN and the first fields of an operand record (R69). -/
structure CopWord1 (w eng fn : Nat) (o : Cop) : Prop where
  lt : w < 2 ^ 32
  reserved : w % 4 = 0
  eng : field w 31 28 = eng
  fn : field w 27 21 = fn
  rf : bitAt w 20 = o.rf
  rr : field w 19 14 = o.rr
  sa : field w 13 8 = o.sa
  sb : field w 7 2 = o.sb

/-- What it reads in word 2: the guard and the other fields (R69). -/
structure CopWord2 (w : Nat) (o : Cop) : Prop where
  lt : w < 2 ^ 32
  neg : bitAt w 31 = o.g.neg
  pred : field w 30 28 = o.g.pred
  ta : field w 27 22 = o.ta
  tb : field w 21 16 = o.tb
  cm : w % 65536 = o.cm

theorem copWord0_reads (lit : Bool) : CopWord0 (copWord0 lit) (if lit then 5 else 3) := by
  cases lit <;> constructor <;> decide

theorem length_litWords (v : Option W64) : (litWords v).length + 3 = if v.isSome then 5 else 3 := by
  cases v <;> rfl

theorem Cop.lt_of_base {o : Cop} (h : o.base = true) :
    o.g.pred < 4 ∧ o.rr < 64 ∧ o.sa < 64 ∧ o.sb < 64 ∧ o.ta < 64 ∧ o.tb < 64 ∧ o.cm < 65536 := by
  simp only [Cop.base, Guard.ok, Bool.and_eq_true, decide_eq_true_eq, Bool.false_eq_true, if_false, and_assoc] at h
  obtain ⟨hp, hrr, hsa, hsb, hta, htb, hcm, -⟩ := h
  exact ⟨hp, hrr, hsa, hsb, hta, htb, hcm⟩

theorem copWord1_reads {eng fn : Nat} {o : Cop} (heng : eng < 16) (hfn : fn < 128) (hb : o.base = true) :
    CopWord1 (copWord1 eng fn o) eng fn o := by
  obtain ⟨-, hrr, hsa, hsb, -⟩ := Cop.lt_of_base hb
  have hrf := o.rf.toNat_lt
  unfold copWord1
  rw [ite_two_pow]
  refine ⟨?_, ?_, ?_, ?_, bitAt_of_eq ?_, ?_, ?_, ?_⟩ <;> (try unfold field) <;> omega

theorem copWord2_reads {o : Cop} (hb : o.base = true) : CopWord2 (copWord2 o) o := by
  obtain ⟨hp, -, -, -, hta, htb, hcm⟩ := Cop.lt_of_base hb
  have hn := o.g.neg.toNat_lt
  unfold copWord2
  rw [ite_two_pow]
  refine ⟨?_, bitAt_of_eq ?_, ?_, ?_, ?_, ?_⟩ <;> (try unfold field) <;> omega

theorem litWords_lt (v : Option W64) : ∀ w ∈ litWords v, w < 2 ^ 32 := by
  cases v with
  | none => simp [litWords]
  | some v =>
    have := v.isLt
    simp only [litWords, List.forall_mem_cons, List.not_mem_nil, false_implies, implies_true, and_true]
    omega

/-- The literal is there when the words are 5. -/
theorem litOf_litWords (v : Option W64) (x y z : Nat) :
    (if (x :: y :: z :: litWords v).length == 5 then some (litOf (x :: y :: z :: litWords v) 3) else none) = v := by
  cases v with
  | none => rfl
  | some v => exact congrArg some (litOf_words v x y z)

/-- Words of the coprocessor form are read as the instruction of their ENG and FN. -/
theorem decodeCop_words {eng fn w0 w1 w2 : Nat} {o : Cop} {mk : Cop → Instr} (hrow : copRowOf eng fn = some mk)
    (h0 : CopWord0 w0 ((litWords o.lit).length + 3)) (h1 : CopWord1 w1 eng fn o) (h2 : CopWord2 w2 o) :
    decodeCop (w0 :: w1 :: w2 :: litWords o.lit) = .ok (mk o) := by
  simp only [decodeCop, List.getD_cons_zero, List.getD_cons_succ, h0.extended, h0.kind, h0.reserved, h1.reserved, h1.eng, h1.fn, h1.rf, h1.rr,
    h1.sa, h1.sb, h2.neg, h2.pred, h2.ta, h2.tb, h2.cm, hrow, litOf_litWords]
  rfl

/-- The words of a coprocessor instruction are read as it. -/
theorem readAs_encodeCop {eng fn : Nat} {o : Cop} {mk : Cop → Instr} (heng : eng < 16) (hfn : fn < 128) (hrow : copRowOf eng fn = some mk)
    (hb : o.base = true) : ReadAs (encodeCop eng fn o) (mk o) := by
  have h0 := copWord0_reads o.lit.isSome
  rw [← length_litWords] at h0
  have h1 := copWord1_reads heng hfn hb
  have h2 := copWord2_reads hb
  rw [encodeCop_eq]
  refine ⟨?_, h0.words, ?_⟩
  · simp only [List.forall_mem_cons]
    exact ⟨h0.lt, h1.lt, h2.lt, litWords_lt o.lit⟩
  · simp only [decodeWords, List.getD_cons_zero, h0.opcode, if_true]
    exact decodeCop_words hrow h0 h1 h2

/-! ### The control layouts (R71, R105, R121) -/

/-- What the decoder reads in word 0 of a control instruction in the extended form: LEN, OP, the layout's bits and K. -/
structure CtlWord0 (w op bits k : Nat) : Prop where
  lt : w < 2 ^ 32
  words : instrWords w = 3
  literal : field w 31 31 = 0
  opcode : field w 29 23 = op
  kind : w % 4 = k
  layout : w % 2 ^ 23 = bits + k

/-- What it reads in word 2: the guard and nothing else (R71). -/
structure GuardWord (w : Nat) (g : Guard) : Prop where
  lt : w < 2 ^ 32
  guard : ({ neg := bitAt w 23, pred := field w 22 20 } : Guard) = g
  only : w / 1048576 % 16 * 1048576 = w

theorem ctlWord0_reads {op bits k : Nat} (hop : op < 128) (hbits : bits < 2 ^ 23) (hmul : bits % 4 = 0) (hk : k < 4) :
    CtlWord0 (2 ^ 30 + op * 2 ^ 23 + bits + k) op bits k := by
  have hwords : instrWords (2 ^ 30 + op * 2 ^ 23 + bits + k) = 3 := by
    unfold instrWords
    generalize hw : 2 ^ 30 + op * 2 ^ 23 + bits + k = w
    have hlen : w / 2 ^ 30 % 4 = 1 := by omega
    rw [hlen]
    rfl
  refine ⟨?_, hwords, ?_, ?_, ?_, ?_⟩ <;> (try unfold field) <;> omega

theorem guardWord_reads {g : Guard} (hg : g.pred < 8) : GuardWord ((if g.neg then 2 ^ 23 else 0) + g.pred * 2 ^ 20) g := by
  have hn := g.neg.toNat_lt
  rw [ite_two_pow]
  generalize hw : 2 ^ 23 * g.neg.toNat + g.pred * 2 ^ 20 = w
  have hneg : bitAt w 23 = g.neg := bitAt_of_eq (by omega)
  have hpred : field w 22 20 = g.pred := by unfold field; omega
  exact ⟨by omega, by rw [hneg, hpred], by omega⟩

/-- The words of a control instruction are read as it when its layout is. -/
theorem readAs_encodeCtl {op k bits w1 : Nat} {g : Guard} {i : Instr} (hop : 0x31 ≤ op ∧ op ≤ 0x41) (hbits : bits < 2 ^ 23) (hmul : bits % 4 = 0)
    (hk : k < 4) (hw1 : w1 < 2 ^ 32) (hg : g.pred < 8)
    (hd : ∀ w0 w2, CtlWord0 w0 op bits k → GuardWord w2 g → decodeCtl op [w0, w1, w2] = .ok i) : ReadAs (encodeCtl op k bits w1 g) i := by
  have h0 := ctlWord0_reads (op := op) (by omega) hbits hmul hk
  have h2 := guardWord_reads hg
  refine ⟨?_, h0.words, ?_⟩
  · simpa [encodeCtl] using ⟨h0.lt, hw1, h2.lt⟩
  · simp only [encodeCtl, decodeWords, List.getD_cons_zero, h0.opcode]
    rw [if_neg (by omega), if_pos hop]
    exact hd _ _ h0 h2

/-! ### Control instructions one by one -/

theorem readAs_br {g : Guard} {q : Nat} (hg : g.pred < 4) (hq : q < 4) (n : Bool) (off : BitVec 24) :
    ReadAs (encodeControl (.br g n q off)) (.br g n q off) := by
  have hn := n.toNat_lt
  have hoff := off.isLt
  simp only [encodeControl, ite_two_pow]
  refine readAs_encodeCtl (by decide) (by omega) (by omega) (by decide) (by omega) (by omega) fun w0 w2 h0 h2 => ?_
  have hl := h0.layout
  have f22 : bitAt w0 22 = n := bitAt_of_eq (by omega)
  have f20 : field w0 21 20 = q := by unfold field; omega
  have f2 : field w0 19 2 = 0 := by unfold field; omega
  have f31 : field off.toNat 31 24 = 0 := by unfold field; omega
  simp [decodeCtl, h0.literal, h0.kind, h2.guard, h2.only, f22, f20, f2, f31]

theorem readAs_brv {g : Guard} {k : Nat} (hg : g.pred < 8) (hk : k < 8) (n : Bool) (off : BitVec 24) :
    ReadAs (encodeControl (.brv g n k off)) (.brv g n k off) := by
  have hn := n.toNat_lt
  have hoff := off.isLt
  simp only [encodeControl, ite_two_pow]
  refine readAs_encodeCtl (by decide) (by omega) (by omega) (by decide) (by omega) hg fun w0 w2 h0 h2 => ?_
  have hl := h0.layout
  have f22 : bitAt w0 22 = n := bitAt_of_eq (by omega)
  have f19 : field w0 21 19 = k := by unfold field; omega
  have f2 : field w0 18 2 = 0 := by unfold field; omega
  have f31 : field off.toNat 31 24 = 0 := by unfold field; omega
  simp [decodeCtl, h0.literal, h0.kind, h2.guard, h2.only, f22, f19, f2, f31]

/-- The branches whose layout holds nothing but the offset. -/
theorem readAs_jump {g : Guard} {op : Nat} {i : Instr} {off : BitVec 24} (hg : g.pred < 4) (hi : (op, i) ∈ [(0x33, .jmp g off), (0x35, .call g off)]) :
    ReadAs (encodeCtl op 2 0 off.toNat g) i := by
  have hoff := off.isLt
  simp only [List.mem_cons, Prod.mk.injEq, List.not_mem_nil, or_false] at hi
  refine readAs_encodeCtl (by omega) (by decide) (by decide) (by decide) (by omega) (by omega) fun w0 w2 h0 h2 => ?_
  have hl := h0.layout
  have f2 : field w0 22 2 = 0 := by unfold field; omega
  have f31 : field off.toNat 31 24 = 0 := by unfold field; omega
  rcases hi with ⟨rfl, rfl⟩ | ⟨rfl, rfl⟩ <;> simp [decodeCtl, h0.literal, h0.kind, h2.guard, h2.only, f2, f31]

theorem readAs_bri {g : Guard} {a b : Nat} (vec : Bool) (hg : g.pred < 8) (ha : a < 64) (hb : b < 128) :
    ReadAs (encodeControl (.bri g vec a b)) (.bri g vec a b) := by
  refine readAs_encodeCtl (by decide) (by omega) (by omega) (by split <;> decide) (by decide) hg fun w0 w2 h0 h2 => ?_
  have hl := h0.layout
  have hk : (if vec = true then 0 else 1) < 4 := by split <;> decide
  have f16 : field w0 22 16 = 0 := by unfold field; omega
  have f9 : field w0 15 9 = a := by unfold field; omega
  have f2 : field w0 8 2 = b := by unfold field; omega
  cases vec <;> simp [decodeCtl, h0.literal, h0.kind, h2.guard, h2.only, f16, f9, f2]

/-- The instructions that have no operand but the guard. -/
theorem readAs_plain {g : Guard} {op : Nat} {i : Instr} (hg : g.pred < 4)
    (hi : (op, i) ∈ [(0x36, .ret g), (0x38, .regang g), (0x39, .yield g), (0x3A, .exit g), (0x3B, .nop g), (0x3D, .fsync g), (0x40, .done g)]) :
    ReadAs (encodeCtl op 2 0 0 g) i := by
  simp only [List.mem_cons, Prod.mk.injEq, List.not_mem_nil, or_false] at hi
  refine readAs_encodeCtl (by omega) (by decide) (by decide) (by decide) (by decide) (by omega) fun w0 w2 h0 h2 => ?_
  have hl := h0.layout
  have f2 : field w0 22 2 = 0 := by unfold field; omega
  rcases hi with ⟨rfl, rfl⟩ | ⟨rfl, rfl⟩ | ⟨rfl, rfl⟩ | ⟨rfl, rfl⟩ | ⟨rfl, rfl⟩ | ⟨rfl, rfl⟩ | ⟨rfl, rfl⟩ <;>
    simp [decodeCtl, h0.literal, h0.kind, h2.guard, h2.only, f2]

theorem readAs_loop {g : Guard} {n off : Nat} (imm : Bool) (hg : g.pred < 4) (hn : n < 64) (hoff : off < 2 ^ 14) :
    ReadAs (encodeControl (.loop g imm n off)) (.loop g imm n off) := by
  have hi := imm.toNat_lt
  simp only [encodeControl, ite_two_pow]
  refine readAs_encodeCtl (by decide) (by omega) (by omega) (by decide) (by decide) (by omega) fun w0 w2 h0 h2 => ?_
  have hl := h0.layout
  have f22 : bitAt w0 22 = imm := bitAt_of_eq (by omega)
  have f16 : field w0 21 16 = n := by unfold field; omega
  have f2 : field w0 15 2 = off := by unfold field; omega
  simp [decodeCtl, h0.literal, h0.kind, h2.guard, h2.only, f22, f16, f2]

theorem readAs_fence {g : Guard} (sc : Scope) (ord : Ord) (hg : g.pred < 4) :
    ReadAs (encodeControl (.fence g sc ord)) (.fence g sc ord) := by
  have hsc := sc.code_lt
  have hord := ord.code_lt
  refine readAs_encodeCtl (by decide) (by omega) (by omega) (by decide) (by decide) (by omega) fun w0 w2 h0 h2 => ?_
  have hl := h0.layout
  have f20 : Scope.ofCode (field w0 22 20) = some sc := by
    rw [show field w0 22 20 = sc.code by unfold field; omega, Scope.ofCode_code]
  have f18 : Ord.ofCode (field w0 19 18) = ord := by
    rw [show field w0 19 18 = ord.code by unfold field; omega, Ord.ofCode_code]
  have f2 : field w0 17 2 = 0 := by unfold field; omega
  simp [decodeCtl, h0.literal, h0.kind, h2.guard, h2.only, f20, f18, f2]

theorem readAs_deq {g : Guard} {d q : Nat} (w : Bool) (hg : g.pred < 4) (hd : d < 64) (hq : q < 4) :
    ReadAs (encodeControl (.deq g d q w)) (.deq g d q w) := by
  have hw := w.toNat_lt
  simp only [encodeControl, ite_two_pow]
  refine readAs_encodeCtl (by decide) (by omega) (by omega) (by decide) (by decide) (by omega) fun w0 w2 h0 h2 => ?_
  have hl := h0.layout
  have f16 : field w0 22 16 = d := by unfold field; omega
  have f14 : field w0 15 14 = q := by unfold field; omega
  have f13 : bitAt w0 13 = w := bitAt_of_eq (by omega)
  have f2 : field w0 12 2 = 0 := by unfold field; omega
  simp [decodeCtl, h0.literal, h0.kind, h2.guard, h2.only, f16, f14, f13, f2]

/-- `fcall` has the return registers beside the guard in word 2, and LIVE as word 1 (R121). -/
theorem readAs_fcall {g : Guard} {rc rva rvb : Nat} (off : BitVec 21) (lv : W32) (hg : g.pred < 4) (hrc : rc ≤ 2) (ha : rva < 256) (hb : rvb < 256) :
    ReadAs (encodeControl (.fcall g off lv rc rva rvb)) (.fcall g off lv rc rva rvb) := by
  have hoff := off.isLt
  have hlv := lv.isLt
  have hn := g.neg.toNat_lt
  have h0 := ctlWord0_reads (op := 0x3C) (bits := off.toNat * 2 ^ 2) (k := 2) (by decide) (by omega) (by omega) (by decide)
  simp only [encodeControl, ite_two_pow]
  generalize 2 ^ 30 + 0x3C * 2 ^ 23 + off.toNat * 2 ^ 2 + 2 = w0 at h0
  generalize hw : 2 ^ 23 * g.neg.toNat + g.pred * 2 ^ 20 + rc * 2 ^ 18 + rva * 2 ^ 10 + rvb * 2 ^ 2 = w2
  have hl := h0.layout
  have fneg : bitAt w2 23 = g.neg := bitAt_of_eq (by omega)
  have fpred : field w2 22 20 = g.pred := by unfold field; omega
  have f18 : field w2 19 18 = rc := by unfold field; omega
  have f10 : field w2 17 10 = rva := by unfold field; omega
  have f2 : field w2 9 2 = rvb := by unfold field; omega
  have fup : w2 < 16777216 := by omega
  have flow : w2 % 4 = 0 := by omega
  have foff : BitVec.ofNat 21 (w0 / 4) = off := by
    apply BitVec.eq_of_toNat_eq
    rw [BitVec.toNat_ofNat]
    omega
  refine ⟨?_, h0.words, ?_⟩
  · simp only [List.forall_mem_cons, List.not_mem_nil, false_implies, implies_true, and_true]
    exact ⟨h0.lt, hlv, by omega⟩
  · simp [decodeWords, decodeCtl, h0.opcode, h0.literal, h0.kind, fneg, fpred, f18, f10, f2, fup, flow, foff]

/-- The extended form of `wait` has a threshold for each class (R71). -/
theorem readAs_wait_all {g : Guard} {a b c d e : Nat} (hg : g.pred < 4) (ha : a < 64) (hb : b < 64) (hc : c < 64) (hd : d < 64) (he : e < 64) :
    ReadAs (encodeControl (.wait g (some a) (some b) (some c) (some d) (some e))) (.wait g (some a) (some b) (some c) (some d) (some e)) := by
  refine readAs_encodeCtl (w1 := a * 2 ^ 24 + b * 2 ^ 18 + c * 2 ^ 12 + d * 2 ^ 6 + e) (by decide) (by decide) (by decide) (by decide) (by omega)
    (by omega) fun w0 w2 h0 h2 => ?_
  generalize hw : a * 2 ^ 24 + b * 2 ^ 18 + c * 2 ^ 12 + d * 2 ^ 6 + e = w1
  have hl := h0.layout
  have f2 : field w0 22 2 = 0 := by unfold field; omega
  have f30 : field w1 31 30 = 0 := by unfold field; omega
  have f24 : field w1 29 24 = a := by unfold field; omega
  have f18 : field w1 23 18 = b := by unfold field; omega
  have f12 : field w1 17 12 = c := by unfold field; omega
  have f6 : field w1 11 6 = d := by unfold field; omega
  have f0 : field w1 5 0 = e := by unfold field; omega
  simp [decodeCtl, h0.literal, h0.kind, h2.guard, h2.only, f2, f30, f24, f18, f12, f6, f0]

/-- A class of a base `wait` waits for the one threshold or for none (R71). -/
theorem waitTh_eq {w0 bit th : Nat} {t : Option Nat} (hbit : bitAt w0 bit = t.isSome) (hth : field w0 17 12 = th) (ht : ∀ n, t = some n → n = th) :
    waitTh w0 bit = t := by
  cases t with
  | none => simp [waitTh, hbit]
  | some n => simp [waitTh, hbit, hth, ht n rfl]

/-- The base form of `wait` has one threshold for the classes that are waited for (R71). -/
theorem readAs_wait_base {a b c d e : Option Nat} {th : Nat} (hth : th < 64)
    (hall : ∀ t ∈ [a, b, c, d, e], ∀ n, t = some n → n = th) :
    ReadAs [0x3E * 2 ^ 23 + waitBit 22 a + waitBit 21 b + waitBit 20 c + waitBit 19 d + waitBit 18 e + th * 2 ^ 12 + 2]
      (.wait Guard.none a b c d e) := by
  have hbit (t : Option Nat) (n : Nat) : waitBit n t = 2 ^ n * t.isSome.toNat := ite_two_pow _ _
  have ha := a.isSome.toNat_lt
  have hb := b.isSome.toNat_lt
  have hc := c.isSome.toNat_lt
  have hd := d.isSome.toNat_lt
  have he := e.isSome.toNat_lt
  simp only [hbit]
  generalize hw : 0x3E * 2 ^ 23 + 2 ^ 22 * a.isSome.toNat + 2 ^ 21 * b.isSome.toNat + 2 ^ 20 * c.isSome.toNat + 2 ^ 19 * d.isSome.toNat +
    2 ^ 18 * e.isSome.toNat + th * 2 ^ 12 + 2 = w
  have hwords : instrWords w = 1 := by
    have hlen : w / 2 ^ 30 % 4 = 0 := by omega
    unfold instrWords
    rw [hlen]
    rfl
  have hop : field w 29 23 = 0x3E := by unfold field; omega
  have hlit : field w 31 31 = 0 := by unfold field; omega
  have hkind : w % 4 = 2 := by omega
  have f2 : field w 11 2 = 0 := by unfold field; omega
  have fth : field w 17 12 = th := by unfold field; omega
  simp only [List.forall_mem_cons, List.not_mem_nil, false_implies, implies_true, and_true] at hall
  obtain ⟨hta, htb, htc, htd, hte⟩ := hall
  have fa := waitTh_eq (w0 := w) (bitAt_of_eq (n := 22) (by omega)) fth hta
  have fb := waitTh_eq (w0 := w) (bitAt_of_eq (n := 21) (by omega)) fth htb
  have fc := waitTh_eq (w0 := w) (bitAt_of_eq (n := 20) (by omega)) fth htc
  have fd := waitTh_eq (w0 := w) (bitAt_of_eq (n := 19) (by omega)) fth htd
  have fe := waitTh_eq (w0 := w) (bitAt_of_eq (n := 18) (by omega)) fth hte
  refine ⟨?_, hwords, ?_⟩
  · simp only [List.forall_mem_cons, List.not_mem_nil, false_implies, implies_true, and_true]
    omega
  · simp [decodeWords, decodeCtl, hop, hlit, hkind, f2, fa, fb, fc, fd, fe]

/-- Where all thresholds of a list are the first one, every class waits for it or for none. -/
theorem eq_first_threshold {ths : List (Option Nat)} {th : Nat} {r : List Nat} (hf : ths.filterMap id = th :: r) (hr : r.all (· == th) = true) :
    some th ∈ ths ∧ ∀ t ∈ ths, ∀ n, t = some n → n = th := by
  have hmem (n : Nat) : some n ∈ ths ↔ n ∈ th :: r := by rw [← hf]; simp
  refine ⟨(hmem th).2 (by simp), ?_⟩
  rintro _ ht n rfl
  rcases List.mem_cons.1 ((hmem n).1 ht) with h | h
  · exact h
  · simpa using List.all_eq_true.1 hr n h

/-- A `wait` that is well formed is read back from either form (R71). -/
theorem readAs_wait {g : Guard} {a b c d e : Option Nat} (h : waitOk g [a, b, c, d, e] = true) :
    ReadAs (encodeControl (.wait g a b c d e)) (.wait g a b c d e) := by
  obtain ⟨hlt, hform⟩ := Bool.and_eq_true_iff.1 h
  have hlt' (n : Nat) (hn : some n ∈ [a, b, c, d, e]) : n < 64 := by simpa using List.all_eq_true.1 hlt _ hn
  by_cases hall : [a, b, c, d, e].all Option.isSome = true
  · rw [if_pos hall] at hform
    have hg : g.pred < 4 := by simpa [Guard.ok] using hform
    simp only [List.all_cons, List.all_nil, Bool.and_true, Bool.and_eq_true, Option.isSome_iff_exists] at hall
    obtain ⟨⟨a, rfl⟩, ⟨b, rfl⟩, ⟨c, rfl⟩, ⟨d, rfl⟩, ⟨e, rfl⟩⟩ := hall
    exact readAs_wait_all hg (hlt' a (by simp)) (hlt' b (by simp)) (hlt' c (by simp)) (hlt' d (by simp)) (hlt' e (by simp))
  · rw [if_neg hall, Bool.and_eq_true, beq_iff_eq] at hform
    obtain ⟨rfl, hsame⟩ := hform
    cases hf : [a, b, c, d, e].filterMap id with
    | nil => simp only [hf] at hsame; cases hsame
    | cons th r =>
      simp only [hf] at hsame
      obtain ⟨hth, hone⟩ := eq_first_threshold hf hsame
      simp only [encodeControl, encodeWait, if_neg hall, hf, List.headD_cons]
      exact readAs_wait_base (hlt' th hth) hone

/-- Whether an instruction has a control layout of its own (R71). -/
def isControl (i : Instr) : Bool := (opcodeOf i).isNone && (copcodeOf i).isNone && !i.isEvent

/-- A control instruction that is well formed is read back from its words. -/
theorem readAs_encodeControl {i : Instr} (hi : isControl i = true) (hwf : i.wf = true) : ReadAs (encodeControl i) i := by
  cases i with
  | br g n q off =>
    obtain ⟨hg, hq⟩ : g.pred < 4 ∧ q < 4 := by simpa [Instr.wf, Instr.spec, Instr.copOk, Guard.ok] using hwf
    exact readAs_br hg hq n off
  | brv g n k off =>
    obtain ⟨hg, hk⟩ : g.pred < 8 ∧ k < 8 := by simpa [Instr.wf, Instr.spec, Instr.copOk, Guard.ok] using hwf
    exact readAs_brv hg hk n off
  | jmp g off | call g off =>
    have hg : g.pred < 4 := by simpa [Instr.wf, Instr.spec, Instr.copOk, Guard.ok] using hwf
    exact readAs_jump hg (by simp)
  | bri g vec a b =>
    obtain ⟨hg, ha, hb⟩ : g.pred < 8 ∧ a < 64 ∧ b < 128 := by
      cases vec <;> simp [Instr.wf, Instr.spec, Instr.copOk, Guard.ok] at hwf <;> omega
    exact readAs_bri vec hg ha hb
  | ret g | regang g | yield g | exit g | nop g | fsync g | done g =>
    have hg : g.pred < 4 := by simpa [Instr.wf, Instr.spec, Instr.copOk, Guard.ok] using hwf
    exact readAs_plain hg (by simp)
  | loop g imm n off =>
    obtain ⟨⟨hg, hn⟩, -, hoff⟩ : (g.pred < 4 ∧ n < 64) ∧ 2 ≤ off ∧ off < 2 ^ 14 := by
      simpa [Instr.wf, Instr.spec, Instr.copOk, Guard.ok] using hwf
    exact readAs_loop imm hg hn hoff
  | wait g a b c d e => exact readAs_wait hwf
  | fence g sc ord =>
    obtain ⟨hg, -⟩ : g.pred < 4 ∧ ord ≠ .rlx := by simpa [Instr.wf, Instr.spec, Instr.copOk, Guard.ok] using hwf
    exact readAs_fence sc ord hg
  | deq g d q w =>
    obtain ⟨⟨⟨hg, hd⟩, -⟩, hq⟩ : ((g.pred < 4 ∧ d < 64) ∧ d % 4 = 0) ∧ q < 4 := by
      simpa [Instr.wf, Instr.spec, Instr.copOk, Guard.ok] using hwf
    exact readAs_deq w hg hd hq
  | fcall g off lv rc rva rvb =>
    simp only [Instr.wf, Instr.spec, Instr.copOk, Guard.ok, Bool.and_eq_true, decide_eq_true_eq, Bool.false_eq_true, if_false] at hwf
    obtain ⟨⟨⟨⟨⟨⟨hg, hrc⟩, ha⟩, hb⟩, -⟩, -⟩, -⟩ := hwf
    exact readAs_fcall off lv hg hrc ha hb
  | _ => cases hi

/-! ### The rows of the tables (R72, R75, R76) -/

/-- Every instruction is read from the row that the encoder writes. -/
theorem row_statement (i : Instr) : Laws.Row.Statement i := by
  cases i with
  | iadd | isub | imul | imulh | iand | ior | ixor | ishl | ishr | isra | imin | imax | inot | iabs | ipopc | iclz | fadd | fsub | fmul | fmin
  | fmax | fdiv | fsqrt | frcp | frsq | fexp2 | flog2 | fsin | fcos | fclass | frnd | hadd2 | hmul2 | mov | movi | bcast | gets | sets | rng | ld
  | st | ldu | stu | lds | sts | ldp | stp | pf | icmp | isel | imad | ibfx | ibfi | ffma | fcmp | hfma2 | cvt | pack | unpack | shfl | vote
  | gred | gscan | atom | red | barInit | barArr | barExp | barWait | estAdd | estMrg | estLd | estClr | trap | xret | xclr | cfgr | cfgw | live
  | tlbi | spawn | amsg | enq | dlaunch | trace | tget | hgf | hgs | tex | tld => exact Laws.Row.of_ops rfl rfl rfl rfl (by decide)
  | tdefBytes | tdefPlane | tset | tq | cpyLd | cpySt | cpyGth | cpyWs | cpyFill | glTopk | glSmax | glSamp | mlease | mrel | mmo | mclr | mdrain
  | estAdv | estClose => exact Laws.Row.of_cop rfl rfl rfl rfl (by decide)
  | _ => exact Laws.Row.of_none rfl rfl

/-- The opcodes and minor opcodes that name an instruction with an extended form. -/
def opRows : List (Nat × Nat) :=
  (List.range' 1 0x30).map (fun op => (op, 0)) ++
  [(0x70, 5), (0x71, 6), (0x72, 4), (0x73, 2), (0x74, 4), (0x75, 4), (0x76, 7), (0x77, 4), (0x78, 6)].flatMap
    (fun g => (List.range' 1 g.2).map (fun min => (g.1, min)))

/-- The engines and functions of the coprocessor form. -/
def copRows : List (Nat × Nat) :=
  [(0, 1), (0, 2), (0, 3), (0, 4), (1, 1), (1, 2), (1, 3), (1, 4), (1, 5), (1, 0x10), (1, 0x11), (1, 0x12), (2, 1), (2, 2), (2, 3), (2, 4), (2, 5),
   (3, 1), (3, 2)]

/-- A minor opcode above 7 names no instruction. -/
theorem rowOf_high {op : Nat} (h : op < 128) (n : Nat) : rowOf op (n + 8) = none := by
  interval_cases op <;> rfl

theorem mem_opRows_of_lt : ∀ (op : Fin 128) (min : Fin 8), (rowOf op min).isSome = true → (op.val, min.val) ∈ opRows := by decide +kernel

theorem mem_opRows {op min : Nat} (hop : op < 128) (h : (rowOf op min).isSome = true) : (op, min) ∈ opRows := by
  by_cases hmin : min < 8
  · exact mem_opRows_of_lt ⟨op, hop⟩ ⟨min, hmin⟩ h
  · obtain ⟨n, rfl⟩ : ∃ n, min = n + 8 := ⟨min - 8, by omega⟩
    rw [rowOf_high hop] at h
    cases h

/-- An opcode and a minor opcode of `opRows` name the instruction that the encoder writes with them, and its immediates do not depend on its operands. -/
theorem row_of_mem_opRows : ∀ p ∈ opRows, ∀ mk, rowOf p.1 p.2 = some mk →
    (∀ o, opcodeOf (mk o) = some (p.1, p.2, o)) ∧ ∀ o o', immKindOf mk o = immKindOf mk o' := by
  simp only [opRows, List.range', List.map_cons, List.map_nil, List.flatMap_cons, List.flatMap_nil, List.cons_append, List.nil_append,
    List.append_nil, List.forall_mem_cons, List.not_mem_nil, false_implies, implies_true, and_true]
  and_intros <;> (rintro _ ⟨⟩; exact ⟨fun _ => rfl, fun _ _ => rfl⟩)

theorem mem_copRows : ∀ (eng : Fin 16) (fn : Fin 128), (copRowOf eng fn).isSome = true → (eng.val, fn.val) ∈ copRows := by decide +kernel

theorem row_of_copRowOf {eng fn : Nat} {mk : Cop → Instr} (h : copRowOf eng fn = some mk) (o : Cop) : copcodeOf (mk o) = some (eng, fn, o) := by
  unfold copRowOf at h
  split at h <;> cases h <;> rfl

/-! ### The fields of an operand record that is well formed (R57, R62 to R68) -/

/-- A role whose numbers are those of registers. -/
def Role.named : Role → Bool
  | .num => false
  | .run m => decide (0 < m)
  | _ => true

/-- The number of a register in its class. -/
def RegRef.num : RegRef → Nat
  | .v n | .s n | .k n | .q n => n

theorem RegRef.num_lt_of_ok {x : RegRef} (h : x.ok = true) : x.num < 256 := by
  cases x <;> simp only [RegRef.ok, decide_eq_true_eq] at h <;> simp only [RegRef.num] <;> omega

/-- The first register of such a role has the number of the field. -/
theorem Role.exists_ref {r : Role} (hr : r.named = true) (h0 : r ≠ .no) (vec : Bool) (n : Nat) : ∃ x ∈ r.refs vec n, x.num = n := by
  cases r with
  | no => exact absurd rfl h0
  | num => cases hr
  | run m => exact ⟨.v (n + 0), List.mem_map.2 ⟨0, List.mem_range.2 (by simpa [Role.named] using hr), rfl⟩, rfl⟩
  | sreg | squad => exact ⟨.s n, by simp [Role.refs], rfl⟩
  | pred =>
    cases vec with
    | false => exact ⟨.q n, by simp [Role.refs], rfl⟩
    | true => exact ⟨.k n, by simp [Role.refs], rfl⟩
  | val t | val2 t =>
    cases vec with
    | false => exact ⟨.s n, by simp [Role.refs], rfl⟩
    | true => exact ⟨.v n, by cases h : t.is64 <;> simp [Role.refs, h], rfl⟩

/-- A number that such a role allows fits its field. -/
theorem Role.lt_of_ok {r : Role} {vec : Bool} {n : Nat} (hr : r.named = true) (h : r.ok vec n = true) : n < 256 := by
  obtain ⟨href, hnum⟩ := Bool.and_eq_true_iff.1 h
  by_cases h0 : r = .no
  · subst h0
    simp only [beq_iff_eq] at hnum
    omega
  · obtain ⟨x, hx, rfl⟩ := Role.exists_ref hr h0 vec n
    exact RegRef.num_lt_of_ok (List.all_eq_true.1 href x hx)

/-- A special register has a number below 0x18 (R58). -/
theorem specialSides_lt {n : Nat} (h : (specialSides n).isSome = true) : n < 256 := by
  by_contra hn
  obtain ⟨m, rfl⟩ : ∃ m, n = m + 256 := ⟨n - 256, by omega⟩
  cases h

theorem specialGets_lt {n : Nat} {vec : Bool} (h : specialGets n vec = true) : n < 256 := by
  unfold specialGets at h
  cases hs : specialSides n with
  | none => simp [hs] at h
  | some p => exact specialSides_lt (by simp [hs])

theorem specialSets_lt {n : Nat} (h : specialSets n = true) : n < 256 := by
  unfold specialSets at h
  cases hs : specialSides n with
  | none => simp [hs] at h
  | some p => exact specialSides_lt (by simp [hs])

theorem named_ite {c : Prop} [Decidable c] {r r' : Role} (h : r.named = true) (h' : r'.named = true) : (if c then r else r').named = true := by
  split <;> assumption

theorem gridDim_pos (o : Ops) : 0 < gridDim o := by
  unfold gridDim
  split <;> decide

theorem lt_of_scaleOk {k : Kind} {n : Nat} (h : scaleOk k n = true) : n < 5 := by
  unfold scaleOk at h
  split at h <;> simp at h <;> omega

/-- D, B and C of every specification name registers. -/
theorem spec_roles_named {i : Instr} {o : Ops} {sp : OpSpec} (h : i.spec = some (o, sp)) :
    sp.d.named = true ∧ sp.b.named = true ∧ sp.c.named = true := by
  cases i with
  | shfl | vote | gred => cases h; exact ⟨named_ite rfl rfl, rfl, rfl⟩
  | atom | trace => cases h; exact ⟨rfl, rfl, named_ite rfl rfl⟩
  | dlaunch => cases h; exact ⟨named_ite rfl rfl, rfl, rfl⟩
  | hgf | hgs => cases h; exact ⟨rfl, decide_eq_true (gridDim_pos _), rfl⟩
  | _ => cases h <;> exact ⟨rfl, rfl, rfl⟩

/-- A names a register, or a special register, whose number is small (R58). -/
theorem spec_a_lt {i : Instr} {o : Ops} {sp : OpSpec} (h : i.spec = some (o, sp)) (hx : sp.x = true) : sp.a.named = true ∨ o.a < 256 := by
  cases i with
  | gets => cases h; exact .inr (specialGets_lt (Bool.and_eq_true_iff.1 hx).2)
  | sets => cases h; exact .inr (specialSets_lt (Bool.and_eq_true_iff.1 hx).2)
  | vote | xclr | tlbi => cases h; exact .inl (named_ite rfl rfl)
  | _ => cases h <;> exact .inl rfl

/-- X has 7 bits (R63). -/
theorem spec_x_lt {i : Instr} {o : Ops} {sp : OpSpec} (h : i.spec = some (o, sp)) (hx : sp.x = true) : o.x < 128 := by
  cases i with
  | ld | st | ldu | stu | lds | sts | ldp | stp =>
    cases h
    have := lt_of_scaleOk hx
    omega
  | gets | sets | rng | pf | icmp | fcmp | cvt | pack | unpack | shfl | vote | gred | gscan | atom | red | barArr | barExp | estAdd | estMrg
  | estLd | estClr | tlbi | spawn | amsg | enq | dlaunch | trace | tget | hgf | hgs =>
    cases h
    simp [cvtOk, shflX, barSpec, estSpec, specMem, taskSpec, texSpec] at hx
    grind
  | _ =>
    cases h <;>
    · have h0 : o.x = 0 := beq_iff_eq.1 hx
      omega

/-- Beside a literal or IMM24 there is no C, but for `atom` and `red` (R63). -/
theorem spec_imm {i : Instr} {o : Ops} {sp : OpSpec} (h : i.spec = some (o, sp)) : sp.imm = .none ∨ sp.imm = .atomOff ∨ sp.c = .no := by
  cases i with
  | isel | imad | ibfx | ibfi | ffma | hfma2 | shfl | gred | gscan | live | trace | hgs => cases h; exact .inl rfl
  | atom | red => cases h; exact .inr (.inl rfl)
  | _ => cases h <;> exact .inr (.inr rfl)

/-- B of a well-formed record is a register of its class or an immediate that the words can hold. -/
theorem srcFits_of_ok {o : Ops} {sp : OpSpec} (hb : sp.b.named = true) (hc : sp.imm = .none ∨ sp.imm = .atomOff ∨ sp.c = .no)
    (hcok : sp.c.ok (sp.c.cls o.k o.k.cVec) o.c = true) (h : srcOk sp o = true) : o.SrcFits sp.imm := by
  unfold srcOk at h
  cases hB : o.b with
  | v n =>
    simp only [hB, Bool.and_eq_true, beq_iff_eq] at h
    obtain ⟨⟨hk, -⟩, hn⟩ := h
    exact .inl ⟨n, Role.lt_of_ok hb hn, by simp [hk], by simp [hk, hB]⟩
  | s n =>
    simp only [hB, Bool.and_eq_true, Bool.or_eq_true, beq_iff_eq] at h
    obtain ⟨⟨hk, -⟩, hn⟩ := h
    exact .inl ⟨n, Role.lt_of_ok hb hn, by rcases hk with hk | hk <;> simp [hk], by rcases hk with hk | hk <;> simp [hk, hB]⟩
  | imm v =>
    simp only [hB, Bool.and_eq_true, Bool.or_eq_true, beq_iff_eq] at h
    obtain ⟨hk, himm⟩ := h
    have hnone : sp.imm ≠ .none := fun h0 => by simp [immOk, h0] at himm
    refine .inr ⟨v, hB, hk, hnone, fun h24 => by simpa [immOk, h24] using himm, fun hatom => ?_⟩
    have hno : sp.c = .no := (hc.resolve_left hnone).resolve_left hatom
    simpa [hno, Role.ok, Role.refs] using hcok

/-- The fields of a well-formed operand record fit those of the extended form. -/
theorem fits_of_ok {i : Instr} {o : Ops} {sp : OpSpec} (h : i.spec = some (o, sp)) (hok : o.ok sp = true) : o.Fits sp.imm := by
  simp only [Ops.ok, Bool.and_eq_true, and_assoc] at hok
  obtain ⟨-, hg, -, hd, -, ha, hb, hc, -, -, -, hx⟩ := hok
  obtain ⟨hdn, hbn, hcn⟩ := spec_roles_named h
  have hpred : o.g.pred < 8 := by
    unfold Guard.ok at hg
    split at hg <;> simp only [decide_eq_true_eq] at hg <;> omega
  exact ⟨hpred, Role.lt_of_ok hdn hd, (spec_a_lt h hx).elim (fun han => Role.lt_of_ok han ha) id, srcFits_of_ok hbn (spec_imm h) hc hb,
    Role.lt_of_ok hcn hc, spec_x_lt h hx⟩

/-! ### Reading back, and what is read -/

theorem spec_of_opcodeOf {i : Instr} {op min : Nat} {o : Ops} (h : opcodeOf i = some (op, min, o)) : ∃ sp, i.spec = some (o, sp) := by
  cases i <;> cases h <;> exact ⟨_, rfl⟩

theorem copOk_of_copcodeOf {i : Instr} {eng fn : Nat} {o : Cop} (h : copcodeOf i = some (eng, fn, o)) :
    i.spec = none ∧ ∃ b, i.copOk = some (o, b) := by
  cases i <;> cases h <;> exact ⟨rfl, _, rfl⟩

/-- The words of every well-formed instruction of a program are read as it. -/
theorem readAs_encodeWords {i : Instr} (hwf : i.wf = true) (he : i.isEvent = false) : ReadAs (encodeWords i) i := by
  obtain ⟨hops, hcops⟩ := row_statement i
  cases hop : opcodeOf i with
  | some p =>
    obtain ⟨op, min, o⟩ := p
    obtain ⟨sp, hsp⟩ := spec_of_opcodeOf hop
    obtain ⟨⟨mk, hrow, rfl⟩, hnum⟩ := hops op min o hop
    have himm : ∀ o', immKindOf mk o' = sp.imm := fun o' => by
      rw [(row_of_mem_opRows _ (mem_opRows (by omega) (by rw [hrow]; rfl)) mk hrow).2 o' o]
      simp [immKindOf, hsp]
    have hok : o.ok sp = true := by simpa [Instr.wf, hsp] using hwf
    simp only [encodeWords, hop, hsp]
    exact readAs_encodeOps (by omega) (by omega) hrow himm (fits_of_ok hsp hok)
  | none =>
    cases hcop : copcodeOf i with
    | some p =>
      obtain ⟨eng, fn, o⟩ := p
      obtain ⟨hsp, b, hcopOk⟩ := copOk_of_copcodeOf hcop
      obtain ⟨⟨mk, hrow, rfl⟩, heng, hfn⟩ := hcops eng fn o hcop
      have hbase : o.base = true := by
        simp only [Instr.wf, hsp, hcopOk, Bool.and_eq_true] at hwf
        exact hwf.1
      simp only [encodeWords, hop, hcop]
      exact readAs_encodeCop (by omega) (by omega) hrow hbase
    | none =>
      simp only [encodeWords, hop, hcop]
      exact readAs_encodeControl (by simp [isControl, hop, hcop, he]) hwf

theorem isEvent_of_opcodeOf {i : Instr} {op min : Nat} {o : Ops} (h : opcodeOf i = some (op, min, o)) : i.isEvent = false := by
  obtain ⟨sp, hsp⟩ := spec_of_opcodeOf h
  simp [Instr.isEvent, hsp]

theorem isEvent_of_copcodeOf {i : Instr} {eng fn : Nat} {o : Cop} (h : copcodeOf i = some (eng, fn, o)) : i.isEvent = false := by
  obtain ⟨hsp, b, hcop⟩ := copOk_of_copcodeOf h
  simp [Instr.isEvent, hsp, hcop]

theorem field_lt (x h l : Nat) : field x h l < 2 ^ (h - l + 1) := Nat.mod_lt _ (Nat.two_pow_pos _)

/-- An instruction of the rows of R72 and R75 is no event. -/
theorem isEvent_of_rowOf {op min : Nat} {mk : Ops → Instr} (hop : op < 128) (h : rowOf op min = some mk) (o : Ops) : (mk o).isEvent = false :=
  isEvent_of_opcodeOf ((row_of_mem_opRows _ (mem_opRows hop (by rw [h]; rfl)) mk h).1 o)

/-- What a decoder reads, if it reads anything, is an instruction of a program. -/
def NoEvent (r : Except DecodeError Instr) : Prop := ∀ i, r = .ok i → i.isEvent = false

@[simp] theorem noEvent_ok (i : Instr) : NoEvent (.ok i) ↔ i.isEvent = false := by simp [NoEvent]
@[simp] theorem noEvent_error (e : DecodeError) : NoEvent (.error e) := by simp [NoEvent]

theorem noEvent_decodeBase {op : Nat} (hop : op < 128) (ws : List Nat) : NoEvent (decodeBase op ws) := by
  unfold decodeBase
  cases hrow : rowOf op 0 with
  | none => exact noEvent_error _
  | some mk =>
    have hev := isEvent_of_rowOf hop hrow
    simp only
    repeat' split
    all_goals simp [hev]

theorem noEvent_decodeExt {op : Nat} (hop : op < 128) (ws : List Nat) : NoEvent (decodeExt op ws) := by
  unfold decodeExt
  simp only
  cases hrow : rowOf op (field (ws.getD 2 0) 31 24) with
  | none => simp only; split_ifs <;> exact noEvent_error _
  | some mk =>
    have hev := isEvent_of_rowOf hop hrow
    simp only
    repeat' split
    all_goals simp [hev]

theorem noEvent_decodeCop (ws : List Nat) : NoEvent (decodeCop ws) := by
  unfold decodeCop
  simp only
  cases hrow : copRowOf (field (ws.getD 1 0) 31 28) (field (ws.getD 1 0) 27 21) with
  | none => split_ifs <;> exact noEvent_error _
  | some mk => split_ifs <;> simp [isEvent_of_copcodeOf (row_of_copRowOf hrow _)]

theorem noEvent_decodeCtl (op : Nat) (ws : List Nat) : NoEvent (decodeCtl op ws) := by
  unfold decodeCtl
  simp only
  repeat' split
  all_goals simp [Instr.isEvent, Instr.spec, Instr.copOk]

theorem noEvent_decodeWords (ws : List Nat) : NoEvent (decodeWords ws) := by
  have hop : field (ws.getD 0 0) 29 23 < 128 := field_lt _ 29 23
  unfold decodeWords
  simp only
  split_ifs
  · exact noEvent_decodeCop ws
  · exact noEvent_decodeCtl _ ws
  · exact noEvent_error _
  · exact noEvent_decodeBase hop ws
  · exact noEvent_decodeExt hop ws

/-- What is read from bytes: the words are those that the first one asks for, and all of them are there (R59). -/
theorem decode_inv {bs : List Byte} {i : Instr} {n : Nat} (h : decode bs = .ok (i, n)) :
    n = instrWords (leNat (bs.take 4)) ∧ 4 * n ≤ bs.length ∧ decodeWords (wordsOf n bs) = .ok i := by
  unfold decode at h
  split_ifs at h with hshort
  simp only at h
  split_ifs at h with hlen
  cases hd : decodeWords (wordsOf (instrWords (leNat (bs.take 4))) bs) with
  | error e => simp [hd] at h
  | ok j =>
    simp only [hd, Except.ok.injEq, Prod.mk.injEq] at h
    obtain ⟨rfl, rfl⟩ := h
    exact ⟨rfl, by omega, hd⟩

/-- Settles O58: the words of a well-formed instruction are read as it, field by field, from the table row that the encoder writes; and no row and
no layout holds an event. -/
theorem encodingsRoundTrip : Obligations.EncodingsRoundTrip := by
  unfold Obligations.EncodingsRoundTrip
  refine ⟨fun i rest hwf he => (readAs_encodeWords hwf he).decode rest, fun bs i n h => ?_⟩
  obtain ⟨hn, hlen, hread⟩ := decode_inv h
  exact ⟨noEvent_decodeWords _ i hread, hn, hlen⟩

end Sys2Proof
end

section
/-!
PROOFS. `gets` of %fpflags (O8): it waits until every older instruction of its wave has completed (R91), so that it does not complete at once.
-/
namespace Sys2Proof.Machine

/-! ### A `gets` that waits -/

/-- `gets` of %fpflags into s10. -/
def getsFlags : Ops :=
  { k := .uu, g := { neg := false, pred := 0 }, d := 10, a := 0x0D, b := .s 0, c := 0, ty := .b32, rnd := .dyn, sat := false, sc := .wave,
    ord := .rlx, x := 0 }

/-- The placed wave after an instruction has raised INVALID. -/
def flaggedWave : Wave := { placedWave with fpflags := 1 }

/-- It is that wave's turn, and a store of it has not completed. -/
def storeOut : State :=
  addFlight { State.reset with turn := .wave flaggedWave.uid, waves := [flaggedWave] } (whoOf flaggedWave) (some .st) .nop none

theorem issues_getsFlags : Issues storeOut (.gets getsFlags) flaggedWave (List.range 32) := by
  refine ⟨?_, ?_, ?_, ?_⟩ <;> decide +kernel

/-- The wave waits for its store (R91). -/
theorem exec_getsFlags : exec (.gets getsFlags) storeOut = stall storeOut := by
  have hout : (getsFlags.a == 0x0D && opsOut storeOut flaggedWave.uid) = true := by decide +kernel
  have hrun : exec (.gets getsFlags) storeOut = execGets getsFlags storeOut := rfl
  rw [hrun, execGets, runInstr_issues issues_getsFlags, if_pos hout]

theorem rdS_flaggedWave : rdS flaggedWave getsFlags.d = 0 := by decide +kernel

theorem special_flaggedWave : special storeOut flaggedWave getsFlags.a 0 = 1 := by decide +kernel

/-- Waves that differ in the control of their gangs only hold the same s-registers. -/
theorem SameRegs.rdS {w w' : Wave} (h : SameRegs w w') (n : Nat) : rdS w' n = rdS w n := by
  unfold SameRegs at h
  rw [← h]
  rfl

/-- An instruction that leaves the state as it was completes only with the registers that the wave has. -/
theorem Completes.of_stall {i : Instr} {s : State} {w : Wave} {P : Wave → Prop} (h : Completes i s w P) (hw : curWave s = some w)
    (he : exec i s = stall s) : ∃ w1, P w1 ∧ ∀ n, rdS w1 n = rdS w n := by
  obtain ⟨w1, hx, ⟨-, hf, -⟩, hr, hP⟩ := h
  have hs : s = putWave s (goSeq w1) := by
    rw [he] at hx
    exact Host.Outcome.next.inj hx
  rw [← hs, (curWave_found hw).2] at hf
  have hg : w = goSeq w1 := Option.some.inj hf
  exact ⟨w1, hP, fun n => by rw [hg, hr.rdS n]⟩

/-- Refutes O8: its clause of `gets` leaves out that %fpflags is read only when every older instruction has completed (R91). With a store of the
wave outstanding the model waits: the destination holds 0, not the flags. -/
theorem not_specialRegistersAndRandomNumbers : ¬ Obligations.SpecialRegistersAndRandomNumbers := by
  unfold Obligations.SpecialRegistersAndRandomNumbers
  intro h
  obtain ⟨hgets, -⟩ := h.1 storeOut flaggedWave (List.range 32) getsFlags (by decide)
  obtain ⟨w1, ⟨-, -, hval⟩, hkept⟩ := (hgets issues_getsFlags).of_stall issues_getsFlags.1 exec_getsFlags
  have h1 : rdS w1 getsFlags.d = special storeOut flaggedWave getsFlags.a 0 := hval 0 (by decide)
  rw [hkept, rdS_flaggedWave, special_flaggedWave] at h1
  exact absurd h1 (by decide)

end Sys2Proof.Machine
end

section
/-!
PROOFS. Cross-lane instructions (O7): what writing their result does, and what each of them writes.
-/
namespace Sys2Proof.Machine

/-! ### What the instructions accept (R62, R100) -/

theorem wf_of_legal {s : State} {w : Wave} {i : Instr} (h : legal s w i = true) : i.wf = true := by
  simp only [legal, Bool.and_eq_true, and_assoc] at h
  exact h.1

/-- Fields of the extended form that the cross-lane instructions turn on: K, D, B and X. -/
theorem fields_of_legal {s : State} {w : Wave} {i : Instr} {o : Ops} {sp : OpSpec} (h : legal s w i = true) (hsp : i.spec = some (o, sp)) :
    o.k ∈ sp.ks ∧ sp.d.ok (sp.d.cls o.k o.k.vec) o.d = true ∧ srcOk sp o = true ∧ sp.x = true := by
  have hok : o.ok sp = true := by simpa [Instr.wf, hsp] using wf_of_legal h
  simp only [Ops.ok, Bool.and_eq_true, and_assoc, List.contains_iff_mem] at hok
  obtain ⟨hk, -, -, hd, -, -, hb, -, -, -, -, hx⟩ := hok
  exact ⟨hk, hd, hb, hx⟩

/-- An instruction on lanes is on the vector side. -/
theorem vec_of_mem_lanes {k : Kind} (h : k ∈ [Kind.vv, .vs]) : k.vec = true := by
  cases k <;> simp_all [Kind.vec]

/-- A vector destination lies in the register file, its pair too (R56, R57). -/
theorem val_ok_vec {t : Ty} {n : Nat} (h : (Role.val t).ok true n = true) : n < 256 ∧ (t.is64 = true → n + 1 < 256) := by
  cases ht : t.is64 <;> simp [Role.ok, Role.refs, RegRef.ok, ht] at h ⊢ <;> omega

theorem sreg_ok {vec : Bool} {n : Nat} (h : Role.sreg.ok vec n = true) : n < 64 := by
  simpa [Role.ok, Role.refs, RegRef.ok] using h

/-- The destination of a cross-lane instruction: an s-register under DS, else vector registers (R100). -/
def LaneDest (o : Ops) (t : Ty) : Prop :=
  if laneDs o then o.d < 64 else o.d < 256 ∧ (t.is64 = true → o.d + 1 < 256)

theorem laneDest_of_ok {o : Ops} {t : Ty} (hk : o.k.vec = true) (h : (laneDst o t).ok ((laneDst o t).cls o.k o.k.vec) o.d = true) :
    LaneDest o t := by
  unfold LaneDest laneDs
  unfold laneDst at h
  split_ifs with hds
  · rw [if_pos hds] at h
    exact sreg_ok h
  · rw [if_neg hds] at h
    exact val_ok_vec (by simpa [Role.cls, hk] using h)

/-! ### Writing the result (R82, R100) -/

/-- Frame of a cross-lane instruction: s[d] under DS, else D in the active lanes. -/
def LaneFrame (o : Ops) (t : Ty) (ls : List Nat) (w w1 : Wave) : Prop :=
  if laneDs o then UniFrame o.d w w1 else VecFrame o.d t.is64 ls w w1

/-- What a lane reads of the result. -/
def laneValue (o : Ops) (t : Ty) (w1 : Wave) (l : Nat) : Nat := if laneDs o then (rdS w1 o.d).toNat else rdVec w1 t l o.d

/-- Bits of the result that the destination keeps. -/
def laneWidth (o : Ops) (t : Ty) : Nat := if laneDs o then 64 else t.bits

theorem bits_le_laneWidth (o : Ops) (t : Ty) : t.bits ≤ laneWidth o t := by
  unfold laneWidth
  split
  · exact ty_bits_le t
  · exact le_rfl

/-- A value of the type is kept whole. -/
theorem mod_laneWidth {x : Nat} (o : Ops) {t : Ty} (h : x < 2 ^ t.bits) : x % 2 ^ laneWidth o t = x :=
  Nat.mod_eq_of_lt (h.trans_le (Nat.pow_le_pow_right (by decide) (bits_le_laneWidth o t)))

/-- The low bits of a result are kept. -/
theorem mod_laneWidth_mod (x : Nat) (o : Ops) (t : Ty) : x % 2 ^ laneWidth o t % 2 ^ t.bits = x % 2 ^ t.bits :=
  Nat.mod_mod_of_dvd x (pow_dvd_pow 2 (bits_le_laneWidth o t))

/-- An s-register written: nothing else of the bank in force changes. -/
theorem uniFrame_wrS (w : Wave) {n : Nat} (x : W64) (hn : n < 64) : UniFrame n w (wrS w n x) :=
  ⟨congrArg (fun q : Wave => { q with fpflags := w.fpflags }) (wrS_frame w n x), fun key hne => by rw [rdBank_wrS w n key x hn, if_neg hne]⟩

@[simp] theorem wrS_fpflags (w : Wave) (n : Nat) (x : W64) : (wrS w n x).fpflags = w.fpflags := by
  unfold wrS; split <;> rfl

@[simp] theorem orFlags_zero (w : Wave) : orFlags w 0 = w := by simp [orFlags]

@[simp] theorem orAll_zeros (x : W32) (ls : List Nat) : orAll x (ls.map fun _ => 0) = x := by
  unfold orAll
  induction ls <;> simp_all

/-- The result of a cross-lane instruction: its frame, no flags, and the values it reads as. Under DS all lanes have one value. -/
theorem writeLane_spec (o : Ops) (t : Ty) (f : Nat → Nat) (w : Wave) (ls : List Nat) (hd : LaneDest o t)
    (hone : laneDs o = true → ∀ l ∈ ls, f l = f (ls.headD 0)) :
    LaneFrame o t ls w (writeLane o t f w ls) ∧ (writeLane o t f w ls).fpflags = w.fpflags ∧
      ∀ l ∈ ls, laneValue o t (writeLane o t f w ls) l = f l % 2 ^ laneWidth o t := by
  unfold LaneFrame laneValue laneWidth writeLane
  unfold LaneDest at hd
  split_ifs with hds
  · rw [if_pos hds] at hd
    exact ⟨uniFrame_wrS w _ hd, wrS_fpflags _ _ _, fun l hl => by rw [rdS_wrS, if_pos rfl, BitVec.toNat_ofNat, hone hds l hl]⟩
  · rw [if_neg hds] at hd
    obtain ⟨hframe, hflags, hval⟩ := foldVec o t (fun l => (f l, 0)) ls w hd.1 hd.2
    simp only [orFlags_zero, orAll_zeros] at hframe hflags hval
    exact ⟨hframe, hflags, fun l hl => by rw [hval l, if_pos hl]⟩

@[simp] theorem writeLane_uid (o : Ops) (t : Ty) (f : Nat → Nat) (w : Wave) (ls : List Nat) : (writeLane o t f w ls).uid = w.uid := by
  unfold writeLane
  split_ifs
  · exact wrS_uid _ _ _
  · induction ls generalizing w with
    | nil => rfl
    | cons a r ih => rw [List.foldl_cons, ih, wrVec_uid]

/-- Raising flags stays in the frame. -/
theorem LaneFrame.orFlags {o : Ops} {t : Ty} {ls : List Nat} {w w1 : Wave} (h : LaneFrame o t ls w w1) (n : Nat) :
    LaneFrame o t ls w (orFlags w1 n) := by
  unfold LaneFrame at h ⊢
  split_ifs at h ⊢ <;> exact h

/-! ### `shfl` (R101) -/

/-- Predicates of the frame of a result are those of the wave. -/
theorem LaneFrame.k {o : Ops} {t : Ty} {ls : List Nat} {w w1 : Wave} (h : LaneFrame o t ls w w1) : w1.k = w.k := by
  unfold LaneFrame at h
  split_ifs at h <;> rw [← h.1]

theorem LaneFrame.rdK {o : Ops} {t : Ty} {ls : List Nat} {w w1 : Wave} (h : LaneFrame o t ls w w1) (n l : Nat) : rdK w1 n l = rdK w n l := by
  unfold Machine.rdK
  rw [h.k]

/-- The result is read past the predicates. -/
theorem laneValue_of_k {w0 w1 : Wave} {ks : Store W32} (h : { w1 with k := ks } = w0) {o : Ops} {t : Ty} (l : Nat) :
    laneValue o t w1 l = laneValue o t w0 l := by
  rw [← h]
  rfl

/-- `shfl` under DS has one source for all lanes: B is an s-register, X[1:0] selects it as it is, and no predicate is written (R100). -/
theorem shfl_ds {o : Ops} (hx : shflX o = true) (hds : laneDs o = true) :
    o.x % 4 = 0 ∧ o.k = .vs ∧ o.x / 8 % 8 = 0 := by
  have hbit : bitAt o.x 6 = true := hds
  simp only [shflX, hbit, if_true, Bool.and_eq_true, beq_iff_eq] at hx
  obtain ⟨-, ⟨h4, hvs⟩, h8⟩ := hx
  exact ⟨h4, hvs, h8⟩

/-- Under K = vs, B is an s-register (R62, R63). -/
theorem src_sreg_of_vs {sp : OpSpec} {o : Ops} (h : srcOk sp o = true) (hk : o.k = .vs) : ∃ n, o.b = .s n := by
  unfold srcOk at h
  cases hb : o.b <;> simp_all

/-- With a uniform source all lanes get the same value. -/
theorem shflVal_uniform {o : Ops} {n : Nat} (w : Wave) (h4 : o.x % 4 = 0) (hvs : o.k = .vs) (hb : o.b = .s n) (l m : Nat) :
    shflVal w o l = shflVal w o m := by
  simp [shflVal, shflSource, opB, opC, h4, hvs, hb, Kind.cVec]

theorem shflVal_lt (w : Wave) (o : Ops) (l : Nat) : (shflVal w o l).1 < 2 ^ o.ty.bits := by
  unfold shflVal
  simp only
  split
  · exact rdVec_lt _ _ _ _
  · exact opC_lt _ _ _ _

/-- The value of `shfl` in a lane, and whether its source is there, with the source lane named. -/
theorem shflVal_eq (w : Wave) (o : Ops) (l : Nat) :
    let j := shflSource (o.x % 4) l (sval 32 (opB w o .b32 l))
    (shflVal w o l).1 = (if lanePresent w j then rdVec w o.ty j.toNat o.a else opC w o o.ty l) ∧ (shflVal w o l).2 = lanePresent w j := by
  unfold shflVal
  simp only
  split <;> simp_all

/-- The presence of the sources written to a predicate, unless X names none (R101). -/
def writePresence (o : Ops) (p : Nat → Bool) (w1 : Wave) (ls : List Nat) : Wave :=
  if o.x / 8 % 8 = 0 then w1 else ls.foldl (fun x l => wrK x (o.x / 8 % 8) l (p l)) w1

theorem writePresence_spec (o : Ops) (p : Nat → Bool) (w1 : Wave) (ls : List Nat) :
    { writePresence o p w1 ls with k := w1.k } = w1 ∧
    ∀ n l, l < 32 → rdK (writePresence o p w1 ls) n l = if o.x / 8 % 8 ≠ 0 ∧ n = o.x / 8 % 8 ∧ l ∈ ls then p l else rdK w1 n l := by
  unfold writePresence
  by_cases hpk : o.x / 8 % 8 = 0
  · simp [hpk]
  · obtain ⟨hframe, hflags, hread⟩ := foldPred (o.x / 8 % 8) (fun l => (p l, 0)) ls w1
    simp only [orFlags_zero, orAll_zeros] at hframe hflags hread
    rw [if_neg hpk]
    refine ⟨?_, fun n l hl => ?_⟩
    · rw [← hflags] at hframe
      exact hframe
    · rw [hread n l hl]
      by_cases hn : n = o.x / 8 % 8
      · have h0 : (o.x / 8 % 8 == 0) = false := by simpa using hpk
        simp [hn, hpk, h0]
      · simp [hn]

theorem exec_shfl {s : State} {w : Wave} {ls : List Nat} {o : Ops} (hi : Issues s (.shfl o) w ls) : exec (.shfl o) s =
    finish s (writePresence o (fun l => (shflVal w o l).2) (writeLane o o.ty (fun l => (shflVal w o l).1) w ls) ls) := by
  have hrun : exec (.shfl o) s = execShfl o s := rfl
  rw [hrun, execShfl, runInstr_issues hi]
  rfl

/-- `shfl` of lanes whose guard is true. -/
theorem completes_shfl {s : State} {w : Wave} {ls : List Nat} {o : Ops} (hi : Issues s (.shfl o) w ls) :
    Completes (.shfl o) s w (fun w1 => LaneFrame o o.ty ls w { w1 with k := w.k } ∧ w1.fpflags = w.fpflags ∧
      (∀ n l, l < 32 → rdK w1 n l = if o.x / 8 % 8 ≠ 0 ∧ n = o.x / 8 % 8 ∧ l ∈ ls then (shflVal w o l).2 else rdK w n l) ∧
      ∀ l ∈ ls, laneValue o o.ty w1 l = (shflVal w o l).1) := by
  obtain ⟨hk, hd, hb, hx⟩ := fields_of_legal hi.2.1 rfl
  have hone : laneDs o = true → ∀ l ∈ ls, (shflVal w o l).1 = (shflVal w o (ls.headD 0)).1 := fun hds l _ => by
    obtain ⟨h4, hvs, -⟩ := shfl_ds hx hds
    obtain ⟨n, hn⟩ := src_sreg_of_vs hb hvs
    rw [shflVal_uniform w h4 hvs hn]
  obtain ⟨hframe, hflags, hval⟩ :=
    writeLane_spec o o.ty (fun l => (shflVal w o l).1) w ls (laneDest_of_ok (vec_of_mem_lanes hk) hd) hone
  obtain ⟨hkept, hread⟩ :=
    writePresence_spec o (fun l => (shflVal w o l).2) (writeLane o o.ty (fun l => (shflVal w o l).1) w ls) ls
  rw [hframe.k] at hkept
  refine completes_finish hi (exec_shfl hi) ?_ ⟨by rw [hkept]; exact hframe, ?_, fun n l hl => ?_, fun l hl => ?_⟩
  · exact (congrArg Wave.uid hkept).trans (writeLane_uid _ _ _ _ _)
  · exact (congrArg Wave.fpflags hkept).trans hflags
  · rw [hread n l hl, hframe.rdK]
  · rw [laneValue_of_k hkept l, hval l hl, mod_laneWidth o (shflVal_lt w o l)]

/-! ### `vote` (R101) -/

/-- What a `vote` answers, function by function. -/
theorem voteVal_eq (w : Wave) (o : Ops) (ls : List Nat) :
    (o.x % 4 = 0 → voteVal w o ls = if ∀ i ∈ ls, rdK w o.a i = true then 1 else 0) ∧
    (o.x % 4 = 1 → voteVal w o ls = if ∃ i ∈ ls, rdK w o.a i = true then 1 else 0) ∧
    (o.x % 4 = 2 → voteVal w o ls = (laneMask (ls.filter (fun i => rdK w o.a i))).toNat) ∧
    (o.x % 4 = 3 → voteVal w o ls = if ∀ i ∈ ls, rdV w i o.a = rdV w (ls.headD 0) o.a then 1 else 0) := by
  refine ⟨fun h => ?_, fun h => ?_, fun h => ?_, fun h => ?_⟩ <;> simp [voteVal, h]

theorem voteVal_lt (w : Wave) (o : Ops) (ls : List Nat) : voteVal w o ls < 2 ^ 32 := by
  unfold voteVal
  split
  · split <;> decide
  · split <;> decide
  · exact BitVec.isLt _
  · split <;> decide

/-- With no active lane, all agree and none is set. -/
theorem voteVal_nil (w : Wave) (o : Ops) : voteVal w o [] = if o.x % 4 = 0 ∨ o.x % 4 = 3 then 1 else 0 := by
  obtain ⟨h0, h1, h2, h3⟩ := voteVal_eq w o []
  have hlt : o.x % 4 < 4 := Nat.mod_lt _ (by decide)
  interval_cases h : o.x % 4 <;> simp_all [laneMask]

theorem laneDest_vote {s : State} {w : Wave} {o : Ops} (h : legal s w (.vote o) = true) : LaneDest o .b32 := by
  obtain ⟨hk, hd, -⟩ := fields_of_legal h rfl
  exact laneDest_of_ok (vec_of_mem_lanes hk) hd

theorem laneDest_gred {s : State} {w : Wave} {o : Ops} (h : legal s w (.gred o) = true) : LaneDest o o.ty := by
  obtain ⟨hk, hd, -⟩ := fields_of_legal h rfl
  exact laneDest_of_ok (vec_of_mem_lanes hk) hd

/-- `vote` of lanes whose guard is true. -/
theorem completes_vote {s : State} {w : Wave} {ls : List Nat} {o : Ops} (hi : Issues s (.vote o) w ls) :
    Completes (.vote o) s w (fun w1 => LaneFrame o .b32 ls w w1 ∧ w1.fpflags = w.fpflags ∧ ∀ l ∈ ls, laneValue o .b32 w1 l = voteVal w o ls) := by
  obtain ⟨hframe, hflags, hval⟩ := writeLane_spec o .b32 (fun _ => voteVal w o ls) w ls (laneDest_vote hi.2.1) fun _ _ _ => rfl
  have hrun : exec (.vote o) s = execVote o s := rfl
  rw [execVote, runInstr_issues hi] at hrun
  refine completes_finish hi hrun (writeLane_uid _ _ _ _ _) ⟨hframe, hflags, fun l hl => ?_⟩
  rw [hval l hl, mod_laneWidth o (voteVal_lt w o ls)]

/-! ### `gred` (R101) -/

/-- `gred` of lanes whose guard is true. -/
theorem completes_gred {s : State} {w : Wave} {ls : List Nat} {o : Ops} (hi : Issues s (.gred o) w ls) :
    Completes (.gred o) s w (fun w1 => LaneFrame o o.ty ls w w1 ∧
      w1.fpflags = w.fpflags ||| BitVec.ofNat 32 (reduce w o (opC w o o.ty (ls.headD 0)) ls).2 ∧
      ∀ l ∈ ls, laneValue o o.ty w1 l % 2 ^ o.ty.bits = (reduce w o (opC w o o.ty (ls.headD 0)) ls).1 % 2 ^ o.ty.bits) := by
  have hhead : ls.headD ((runLanes w).headD 0) = ls.headD 0 := by
    obtain ⟨l, r, hl⟩ := List.exists_cons_of_ne_nil hi.2.2.2
    rw [hl]
    rfl
  have hrun : exec (.gred o) s = execGred o s := rfl
  rw [execGred, runInstr_issues hi] at hrun
  simp only [hhead] at hrun
  generalize reduce w o (opC w o o.ty (ls.headD 0)) ls = r at *
  obtain ⟨hframe, hflags, hval⟩ := writeLane_spec o o.ty (fun _ => r.1) w ls (laneDest_gred hi.2.1) fun _ _ _ => rfl
  refine completes_finish hi hrun ?_ ⟨hframe.orFlags r.2, ?_, fun l hl => ?_⟩
  · rw [orFlags_uid, writeLane_uid]
  · rw [← hflags]
    rfl
  · exact (congrArg (· % 2 ^ o.ty.bits) (hval l hl)).trans (mod_laneWidth_mod _ _ _)

/-! ### Results without an active lane (R101; log 92) -/

/-- An instruction that takes effect has its own effect, active lanes or none. -/
theorem runInstr_takesEffect {i : Instr} {s : State} {w : Wave} (hw : curWave s = some w) (hl : legal s w i = true)
    (ht : takesEffect w i = true) (body : State → Wave → List Nat → Out) : runInstr i s body = body s w (guardLanes w i) := by
  simp [runInstr, hw, hl, ht]

/-- As `completes_finish`, for a wave that may have no active lane. -/
theorem completes_of_curWave {i : Instr} {s : State} {w w1 : Wave} {P : Wave → Prop} (hw : curWave s = some w) (he : exec i s = finish s w1)
    (hu : w1.uid = w.uid) (hP : P w1) : Completes i s w P :=
  ⟨w1, he, onlyWave_putWave (curWave_found hw).2 (by rw [goSeq_uid, hu]), sameRegs_goSeq w1, hP⟩

theorem writeLane_ds {o : Ops} {t : Ty} (hds : laneDs o = true) (f : Nat → Nat) (w : Wave) (ls : List Nat) :
    writeLane o t f w ls = wrS w o.d (BitVec.ofNat 64 (f (ls.headD 0))) := by
  rw [writeLane, if_pos hds]

theorem LaneDest.ds {o : Ops} {t : Ty} (h : LaneDest o t) (hds : laneDs o = true) : o.d < 64 := by
  rwa [LaneDest, if_pos hds] at h

theorem completes_vote_empty {s : State} {w : Wave} {o : Ops} (hw : curWave s = some w) (hds : laneDs o = true)
    (hl : legal s w (.vote o) = true) (hg : guardLanes w (.vote o) = []) :
    Completes (.vote o) s w (fun w1 => UniFrame o.d w w1 ∧ w1.fpflags = w.fpflags ∧
      (rdS w1 o.d).toNat = if o.x % 4 = 0 ∨ o.x % 4 = 3 then 1 else 0) := by
  have ht : takesEffect w (.vote o) = true := by simp [takesEffect, runsEmpty, show bitAt o.x 6 = true from hds]
  have hrun : exec (.vote o) s = execVote o s := rfl
  rw [execVote, runInstr_takesEffect hw hl ht, hg, writeLane_ds hds, voteVal_nil] at hrun
  refine completes_of_curWave hw hrun (wrS_uid _ _ _) ⟨uniFrame_wrS w _ ((laneDest_vote hl).ds hds), wrS_fpflags _ _ _, ?_⟩
  rw [rdS_wrS, if_pos rfl]
  split <;> rfl

theorem completes_gred_empty {s : State} {w : Wave} {o : Ops} (hw : curWave s = some w) (hds : laneDs o = true)
    (hl : legal s w (.gred o) = true) (hg : guardLanes w (.gred o) = []) :
    Completes (.gred o) s w (fun w1 => UniFrame o.d w w1 ∧ w1.fpflags = w.fpflags ∧
      rdS w1 o.d = BitVec.ofNat 64 (opC w o o.ty ((runLanes w).headD 0))) := by
  have ht : takesEffect w (.gred o) = true := by simp [takesEffect, runsEmpty, show bitAt o.x 6 = true from hds]
  have hrun : exec (.gred o) s = execGred o s := rfl
  rw [execGred, runInstr_takesEffect hw hl ht, hg] at hrun
  simp only [writeLane_ds hds, reduce, List.map_nil, List.headD_nil, orFlags_zero] at hrun
  refine completes_of_curWave hw hrun (wrS_uid _ _ _) ⟨uniFrame_wrS w _ ((laneDest_gred hl).ds hds), wrS_fpflags _ _ _, ?_⟩
  rw [rdS_wrS, if_pos rfl]

/-! ### `gscan` (R101) -/

theorem floats_gscan {s : State} {w : Wave} {ls : List Nat} {o : Ops} (hi : Issues s (.gscan o) w ls) :
    Floats (.gscan o) s w ls o o.ty (fun l => reduce w o (opC w o o.ty l) (scanLanes o ls l)) := by
  obtain ⟨hk, hd, -⟩ := fields_of_legal hi.2.1 rfl
  have hvec := vec_of_mem_lanes hk
  have hrun : exec (.gscan o) s = execGscan o s := rfl
  rw [execGscan, runInstr_issues hi] at hrun
  refine completes_finish hi hrun (writeD_uid _ _ _ _ _) (writeD_spec o o.ty _ w ls (fun _ => ?_) fun h => ?_)
  · exact val_ok_vec (by simpa [Role.cls, hvec, spec0] using hd)
  · simp [hvec] at h

/-! ### The statement of O7 -/

/-- What a completing instruction's wave is shown to be may be weakened. -/
theorem Completes.mono {i : Instr} {s : State} {w : Wave} {P Q : Wave → Prop} (h : Completes i s w P) (hPQ : ∀ w1, P w1 → Q w1) :
    Completes i s w Q := by
  obtain ⟨w1, hx, ho, hr, hP⟩ := h
  exact ⟨w1, hx, ho, hr, hPQ w1 hP⟩

/-- Settles O7: each instruction writes its result by `writeLane` or `writeD`, with values computed from the wave as it was. -/
theorem crossLaneResults : Obligations.CrossLaneResults := by
  unfold Obligations.CrossLaneResults
  intro s w ls o frame value
  refine ⟨fun hi => (completes_shfl hi).mono ?_, fun hi => (completes_vote hi).mono ?_, completes_gred, completes_vote_empty,
    completes_gred_empty, floats_gscan⟩
  · rintro w1 ⟨hframe, hflags, hread, hval⟩
    refine ⟨hframe, hflags, fun n l hl hn => by rw [hread n l hl, if_neg hn], fun l hl => ?_⟩
    obtain ⟨hv, hp⟩ := shflVal_eq w o l
    exact ⟨(hval l hl).trans hv, fun hlt hpk => by rw [hread _ l hlt, if_pos ⟨hpk, rfl, hl⟩, hp]⟩
  · rintro w1 ⟨hframe, hflags, hval⟩
    refine ⟨hframe, hflags, fun l hl => (hval l hl).trans ?_⟩
    obtain ⟨h0, h1, h2, h3⟩ := voteVal_eq w o ls
    obtain h | h | h | h : o.x % 4 = 0 ∨ o.x % 4 = 1 ∨ o.x % 4 = 2 ∨ o.x % 4 = 3 := by omega
    · simpa only [h] using h0 h
    · simpa only [h] using h1 h
    · simpa only [h] using h2 h
    · simpa only [h] using h3 h

end Sys2Proof.Machine
end

section
/-!
PROOFS. Instructions that only compute (O1 to O6): what they accept, one lemma for each way to write a result, and the results.
-/
namespace Sys2Proof.Machine

/-! ### What the instructions accept (R57, R62, R67) -/

theorem ok_of_legal {s : State} {w : Wave} {i : Instr} {o : Ops} {sp : OpSpec} (h : legal s w i = true) (hsp : i.spec = some (o, sp)) :
    o.ok sp = true := by
  simpa [Instr.wf, hsp] using wf_of_legal h

/-- A destination of a type lies in the file that K selects: the vector registers, a pair for 64 bits, or the s-registers. -/
def DestOk (o : Ops) (t : Ty) : Prop :=
  (o.k.vec = true → o.d < 256 ∧ (t.is64 = true → o.d + 1 < 256)) ∧ (o.k.vec = false → o.d < 64)

theorem val_ok_uni {t : Ty} {n : Nat} (h : (Role.val t).ok false n = true) : n < 64 := by
  simpa [Role.ok, Role.refs, RegRef.ok] using h

/-- An instruction that issues with D in the role of a value has a destination of that type. -/
theorem destOk_of_issues {s : State} {w : Wave} {i : Instr} {ls : List Nat} {o : Ops} {sp : OpSpec} {t : Ty} (hi : Issues s i w ls)
    (hsp : i.spec = some (o, sp)) (hd : sp.d = .val t) : DestOk o t := by
  obtain ⟨-, hok, -⟩ := fields_of_legal hi.2.1 hsp
  rw [hd] at hok
  refine ⟨fun hk => val_ok_vec ?_, fun hk => val_ok_uni (t := t) ?_⟩ <;> simpa [Role.cls, hk] using hok

/-- A narrow destination fits wherever another one does. -/
theorem DestOk.narrow {o : Ops} {t u : Ty} (h : DestOk o t) (hu : u.is64 = false) : DestOk o u :=
  ⟨fun hk => ⟨(h.1 hk).1, fun h64 => by simp [hu] at h64⟩, h.2⟩

/-! ### Lanes of the drill (R62, R63) -/

/-- The lane an instruction works on for a lane: itself, or lane 0 on the drill. -/
def workLane (o : Ops) (l : Nat) : Nat := if o.k.vec then l else 0

/-- On the drill B is no vector register. -/
theorem opB_workLane {sp : OpSpec} {o : Ops} (hb : srcOk sp o = true) (w : Wave) (t : Ty) (l : Nat) :
    opB w o t (workLane o l) = opB w o t l := by
  unfold workLane
  split
  · rfl
  · next hk =>
    unfold opB
    cases h : o.b with
    | v n => simp_all [srcOk, Kind.vec]
    | s n => rfl
    | imm x => rfl

theorem opA_workLane (w : Wave) (o : Ops) (t : Ty) (l : Nat) : opA w o t (workLane o l) = opA w o t l := by
  unfold opA workLane; split <;> rfl

theorem opD_workLane (w : Wave) (o : Ops) (t : Ty) (l : Nat) : opD w o t (workLane o l) = opD w o t l := by
  unfold opD workLane; split <;> rfl

theorem opPred_workLane (w : Wave) (o : Ops) (n l : Nat) : opPred w o n (workLane o l) = opPred w o n l := by
  unfold opPred workLane; split <;> rfl

theorem opC_workLane (w : Wave) (o : Ops) (t : Ty) (l : Nat) : opC w o t (workLane o l) = opC w o t l := by
  unfold opC workLane
  split
  · cases hk : o.k <;> simp_all [Kind.vec, Kind.cVec]
  · rfl

/-! ### Instructions that write D or a predicate (R82, R83, R87) -/

/-- An instruction that writes D with flags completes with its lanes' results (R83, R90). -/
theorem floats_fltRun {i : Instr} {s : State} {w : Wave} {ls : List Nat} {o : Ops} {t : Ty} {f : Wave → Nat → Nat × Nat}
    (hi : Issues s i w ls) (he : exec i s = fltRun i o t f s) (hd : DestOk o t) : Floats i s w ls o t (f w) := by
  rw [fltRun, runInstr_issues hi] at he
  exact completes_finish hi he (writeD_uid _ _ _ _ _) (writeD_spec o t (f w) w ls hd.1 hd.2)

/-- An instruction that only computes completes with its lanes' values, truncated to the type, and no flag (R82, R84). -/
theorem computes_aluRun {i : Instr} {s : State} {w : Wave} {ls : List Nat} {o : Ops} {t : Ty} {f : Wave → Nat → Nat} {V : Nat → Nat → Prop}
    (hi : Issues s i w ls) (he : exec i s = aluRun i o t f s) (hd : DestOk o t)
    (hV : ∀ l, V l (f w (workLane o l) % 2 ^ t.bits)) : Computes i s w ls o t V := by
  refine (floats_fltRun (f := fun w l => (f w l, 0)) hi he hd).mono fun w1 ⟨hframe, hflags, hval⟩ => ⟨hframe, ?_, fun l hl => ?_⟩
  · rw [hflags, orAll_zeros]
  · rw [hval l hl]
    exact hV l

/-- An instruction that writes a predicate other than k0 or q0 completes with its lanes' results (R87). -/
theorem tests_predRun {i : Instr} {s : State} {w : Wave} {ls : List Nat} {o : Ops} {f : Wave → Nat → Bool × Nat}
    (hi : Issues s i w ls) (he : exec i s = predRun i o f s) (hu : o.k.vec = false → o.d < 4) (h0 : o.d ≠ 0) :
    Tests i s w ls o (f w) := by
  rw [predRun, runInstr_issues hi] at he
  obtain ⟨hframe, hflags, hval⟩ := writeP_spec o (f w) w ls hu
  refine completes_finish hi he (writeP_uid _ _ _ _) ⟨hframe, hflags, fun l hl hlt => ?_⟩
  rw [hval l hl hlt, beq_false_of_ne h0, Bool.false_or]

/-- An instruction that computes from its operands A, B, C and D completes with what it computes in each lane. -/
theorem computes_operands {i : Instr} {s : State} {w : Wave} {ls : List Nat} {o : Ops} {sp : OpSpec} {V : Nat → Nat → Prop}
    (g : Nat → Nat → Nat → Nat → Nat) (hi : Issues s i w ls) (hsp : i.spec = some (o, sp)) (hd : sp.d = .val o.ty)
    (he : exec i s = aluRun i o o.ty (fun w l => g (uA w o l) (uB w o l) (uC w o l) (opD w o o.ty l)) s)
    (hV : ∀ l, V l (g (uA w o l) (uB w o l) (uC w o l) (opD w o o.ty l) % 2 ^ o.ty.bits)) : Computes i s w ls o o.ty V := by
  obtain ⟨-, -, hb, -⟩ := fields_of_legal hi.2.1 hsp
  refine computes_aluRun hi he (destOk_of_issues hi hsp hd) fun l => ?_
  simp only [uA, uB, uC, opA_workLane, opB_workLane hb, opC_workLane, opD_workLane]
  exact hV l

/-! ### Values and patterns (R80) -/

theorem ty_bits_pos (t : Ty) : 0 < t.bits := by cases t <;> decide

theorem two_pow_pred {w : Nat} (hw : 0 < w) : (2 : Int) ^ w = 2 * 2 ^ (w - 1) := by
  rw [← pow_succ', Nat.sub_add_cancel hw]

/-- trunc keeps the value modulo the width. -/
theorem trunc_cast (w : Nat) (e : Int) : (trunc w e : Int) = e % 2 ^ w := Int.toNat_of_nonneg (Int.emod_nonneg _ (by positivity))

theorem trunc_lt (w : Nat) (e : Int) : trunc w e < 2 ^ w := by
  have h := trunc_cast w e
  have hlt := Int.emod_lt_of_pos e (show (0 : Int) < 2 ^ w by positivity)
  rw [← h] at hlt
  exact_mod_cast hlt

@[simp] theorem trunc_mod (w : Nat) (e : Int) : trunc w e % 2 ^ w = trunc w e := Nat.mod_eq_of_lt (trunc_lt w e)

/-- A signed value inside the width is that of its pattern. -/
theorem sval_trunc {w : Nat} {e : Int} (hw : 0 < w) (hlo : -2 ^ (w - 1) ≤ e) (hhi : e < 2 ^ (w - 1)) : sval w (trunc w e) = e := by
  have h := trunc_cast w e
  have h2 := two_pow_pred hw
  have hpow : ((2 ^ (w - 1) : Nat) : Int) = 2 ^ (w - 1) := by push_cast; rfl
  unfold sval
  by_cases h0 : 0 ≤ e
  · rw [Int.emod_eq_of_lt h0 (by omega)] at h
    rw [if_neg (by omega), h]
  · rw [← Int.add_emod_right, Int.emod_eq_of_lt (by omega) (by omega)] at h
    rw [if_pos (by omega), h]
    omega

/-- A value in the range of a type is that of its pattern. -/
theorem tval_trunc {t : Ty} {e : Int} (hlo : tLo t ≤ e) (hhi : e ≤ tHi t) : tval t (trunc t.bits e) = e := by
  unfold tLo at hlo
  unfold tHi at hhi
  unfold tval
  split
  · next hs =>
    rw [if_pos hs] at hlo hhi
    exact sval_trunc (ty_bits_pos t) hlo (by omega)
  · next hs =>
    rw [if_neg hs] at hlo hhi
    rw [trunc_cast, Int.emod_eq_of_lt hlo (by omega)]

theorem sval_bounds {w x : Nat} (hw : 0 < w) (hx : x < 2 ^ w) : -2 ^ (w - 1) ≤ sval w x ∧ sval w x < 2 ^ (w - 1) := by
  have h2 := two_pow_pred hw
  have hpow : ((2 ^ (w - 1) : Nat) : Int) = 2 ^ (w - 1) := by push_cast; rfl
  have hx' : (x : Int) < 2 ^ w := by exact_mod_cast hx
  unfold sval
  split <;> omega

/-- The values of a type's patterns lie in its range. -/
theorem tval_bounds {t : Ty} {x : Nat} (hx : x < 2 ^ t.bits) : tLo t ≤ tval t x ∧ tval t x ≤ tHi t := by
  have hx' : (x : Int) < 2 ^ t.bits := by exact_mod_cast hx
  have hs := sval_bounds (ty_bits_pos t) hx
  unfold tLo tHi tval
  split <;> omega

theorem tLo_le_tHi (t : Ty) : tLo t ≤ tHi t := by
  obtain ⟨h1, h2⟩ := tval_bounds (t := t) (Nat.two_pow_pos t.bits)
  exact h1.trans h2

theorem wraps_trunc (t : Ty) (e : Int) : Wraps t e (trunc t.bits e) := trunc_cast _ _

theorem clamps_satTo (t : Ty) (e : Int) : Clamps t e (satTo t e) :=
  tval_trunc (le_max_left _ _) (max_le (tLo_le_tHi t) (min_le_right _ _))

/-- A result with SAT is clamped, one without is wrapped (R80, R85). -/
theorem fit_spec (t : Ty) (sat : Bool) (e : Int) :
    if sat then Clamps t e (fit t sat e % 2 ^ t.bits) else Wraps t e (fit t sat e % 2 ^ t.bits) := by
  cases sat
  · simpa [fit] using wraps_trunc t e
  · simpa [fit, satTo] using clamps_satTo t e

/-- The operands' values lie in the range of the type. -/
theorem vA_bounds (w : Wave) (o : Ops) (l : Nat) : tLo o.ty ≤ vA w o l ∧ vA w o l ≤ tHi o.ty := tval_bounds (opA_lt _ _ _ _)
theorem vB_bounds (w : Wave) (o : Ops) (l : Nat) : tLo o.ty ≤ vB w o l ∧ vB w o l ≤ tHi o.ty := tval_bounds (opB_lt _ _ _ _)

/-! ### Bits (R85) -/

theorem uA_lt (w : Wave) (o : Ops) (l : Nat) : uA w o l < 2 ^ o.ty.bits := opA_lt _ _ _ _
theorem uB_lt (w : Wave) (o : Ops) (l : Nat) : uB w o l < 2 ^ o.ty.bits := opB_lt _ _ _ _

theorem popcount_eq (x n : Nat) : popcount x n = ((List.range n).filter (fun i => x.testBit i)).length := by
  induction n with
  | zero => rfl
  | succ n ih =>
    have hbit : x / 2 ^ n % 2 = if x.testBit n then 1 else 0 := by
      rw [Nat.testBit_eq_decide_div_mod_eq]
      have := Nat.mod_two_eq_zero_or_one (x / 2 ^ n)
      split <;> simp_all
    rw [popcount, ih, hbit, List.range_succ, List.filter_append, List.length_append]
    cases h : x.testBit n <;> simp [h]

/-- A count of bits is far below what a register of that many bits holds. -/
theorem popcount_lt (x n : Nat) : popcount x n < 2 ^ n := by
  rw [popcount_eq]
  refine (List.length_filter_le _ _).trans_lt ?_
  rw [List.length_range]
  exact Nat.lt_two_pow_self

theorem clz_le (w x : Nat) : clz w x ≤ w := by
  unfold clz; split <;> omega

/-- The leading zeros end at the highest one bit (R85). -/
theorem clz_spec {w x : Nat} (hx : x < 2 ^ w) : x < 2 ^ (w - clz w x) ∧ (clz w x < w → 2 ^ (w - 1 - clz w x) ≤ x) := by
  unfold clz
  split
  · next h => simp [h]
  · next h =>
    have hlog : Nat.log2 x < w := (Nat.log2_lt h).2 hx
    rw [show w - (w - 1 - Nat.log2 x) = Nat.log2 x + 1 by omega, show w - 1 - (w - 1 - Nat.log2 x) = Nat.log2 x by omega]
    exact ⟨Nat.lt_log2_self, fun _ => Nat.log2_self_le h⟩

/-- trunc of a value, as the register's low bits hold it, is the value wrapped. -/
theorem wraps_trunc_mod (t : Ty) (e : Int) : Wraps t e (trunc t.bits e % 2 ^ t.bits) := by
  rw [trunc_mod]
  exact wraps_trunc t e

/-- Bits of a result below 2 to the width are those of what the destination reads as. -/
theorem testBit_mod_of_lt {x n : Nat} (h : x < 2 ^ n) (i : Nat) : (x % 2 ^ n).testBit i = x.testBit i := by
  rw [Nat.mod_eq_of_lt h]

/-! ### The statement of O1 -/

section
variable {s : State} {w : Wave} {ls : List Nat} {o : Ops}

/-- The smaller and the larger operand are in the range of the type. -/
theorem tval_minmax (f : Int → Int → Int) (hf : ∀ a b, f a b = a ∨ f a b = b) (l : Nat) :
    tval o.ty (trunc o.ty.bits (f (vA w o l) (vB w o l)) % 2 ^ o.ty.bits) = f (vA w o l) (vB w o l) := by
  have ha := vA_bounds w o l
  have hb := vB_bounds w o l
  rw [trunc_mod]
  obtain h | h := hf (vA w o l) (vB w o l)
  · rw [h]; exact tval_trunc ha.1 ha.2
  · rw [h]; exact tval_trunc hb.1 hb.2

theorem computes_imin (hi : Issues s (.imin o) w ls) :
    Computes (.imin o) s w ls o o.ty (fun l x => tval o.ty x = min (vA w o l) (vB w o l)) :=
  computes_operands (fun a b _ _ => trunc o.ty.bits (min (tval o.ty a) (tval o.ty b))) hi rfl rfl rfl (tval_minmax min min_choice)

theorem computes_imax (hi : Issues s (.imax o) w ls) :
    Computes (.imax o) s w ls o o.ty (fun l x => tval o.ty x = max (vA w o l) (vB w o l)) :=
  computes_operands (fun a b _ _ => trunc o.ty.bits (max (tval o.ty a) (tval o.ty b))) hi rfl rfl rfl (tval_minmax max max_choice)

theorem computes_iabs (hi : Issues s (.iabs o) w ls) : Computes (.iabs o) s w ls o o.ty (fun l x =>
    if o.sat then Clamps o.ty |vA w o l| x else Wraps o.ty |vA w o l| x) :=
  computes_operands (fun a _ _ _ => fit o.ty o.sat ((tval o.ty a).natAbs : Int)) hi rfl rfl rfl fun l => by
    rw [Int.abs_eq_natAbs]
    exact fit_spec _ _ _

theorem computes_iand (hi : Issues s (.iand o) w ls) : Computes (.iand o) s w ls o o.ty (fun l x =>
    ∀ i, x.testBit i = ((uA w o l).testBit i && (uB w o l).testBit i)) :=
  computes_operands (fun a b _ _ => a &&& b) hi rfl rfl rfl fun l i => by
    rw [testBit_mod_of_lt (Nat.and_lt_two_pow _ (uB_lt w o l)), Nat.testBit_and]

theorem computes_ior (hi : Issues s (.ior o) w ls) : Computes (.ior o) s w ls o o.ty (fun l x =>
    ∀ i, x.testBit i = ((uA w o l).testBit i || (uB w o l).testBit i)) :=
  computes_operands (fun a b _ _ => a ||| b) hi rfl rfl rfl fun l i => by
    rw [testBit_mod_of_lt (Nat.or_lt_two_pow (uA_lt w o l) (uB_lt w o l)), Nat.testBit_or]

theorem computes_ixor (hi : Issues s (.ixor o) w ls) : Computes (.ixor o) s w ls o o.ty (fun l x =>
    ∀ i, x.testBit i = ((uA w o l).testBit i != (uB w o l).testBit i)) :=
  computes_operands (fun a b _ _ => a ^^^ b) hi rfl rfl rfl fun l i => by
    rw [testBit_mod_of_lt (Nat.xor_lt_two_pow (uA_lt w o l) (uB_lt w o l)), Nat.testBit_xor]

theorem computes_inot (hi : Issues s (.inot o) w ls) : Computes (.inot o) s w ls o o.ty (fun l x =>
    ∀ i, i < o.ty.bits → x.testBit i = !(uA w o l).testBit i) :=
  computes_operands (fun a _ _ _ => 2 ^ o.ty.bits - 1 - a) hi rfl rfl rfl fun l i hlt => by
    have hpos := Nat.two_pow_pos o.ty.bits
    rw [testBit_mod_of_lt (by omega), Nat.sub_sub, Nat.add_comm 1, Nat.testBit_two_pow_sub_succ (uA_lt w o l)]
    simp [hlt]

theorem computes_ipopc (hi : Issues s (.ipopc o) w ls) : Computes (.ipopc o) s w ls o o.ty (fun l x =>
    x = ((List.range o.ty.bits).filter (fun i => (uA w o l).testBit i)).length) :=
  computes_operands (fun a _ _ _ => popcount a o.ty.bits) hi rfl rfl rfl fun l => by
    rw [Nat.mod_eq_of_lt (popcount_lt _ _), popcount_eq]

theorem computes_iclz (hi : Issues s (.iclz o) w ls) : Computes (.iclz o) s w ls o o.ty (fun l x =>
    x ≤ o.ty.bits ∧ uA w o l < 2 ^ (o.ty.bits - x) ∧ (x < o.ty.bits → 2 ^ (o.ty.bits - 1 - x) ≤ uA w o l)) :=
  computes_operands (fun a _ _ _ => clz o.ty.bits a) hi rfl rfl rfl fun l => by
    rw [Nat.mod_eq_of_lt ((clz_le _ _).trans_lt Nat.lt_two_pow_self)]
    exact ⟨clz_le _ _, clz_spec (uA_lt w o l)⟩

end

/-- Settles O1: each instruction computes from its operands, and what it computes is the value, wrapped, clamped or in range, or the bits. -/
theorem integerResults : Obligations.IntegerResults := by
  unfold Obligations.IntegerResults
  refine ⟨fun s w ls o => ⟨fun hi => ?iadd, fun hi => ?isub, fun hi => ?imul, fun hi => ?imulh, fun hi => ?imad, computes_imin, computes_imax,
    computes_iabs⟩, fun s w ls o => ⟨computes_iand, computes_ior, computes_ixor, computes_inot, computes_ipopc, computes_iclz⟩⟩
  case iadd => exact computes_operands (fun a b _ _ => fit o.ty o.sat (tval o.ty a + tval o.ty b)) hi rfl rfl rfl fun l => fit_spec _ _ _
  case isub => exact computes_operands (fun a b _ _ => fit o.ty o.sat (tval o.ty a - tval o.ty b)) hi rfl rfl rfl fun l => fit_spec _ _ _
  case imul =>
    exact computes_operands (fun a b _ _ => trunc o.ty.bits (tval o.ty a * tval o.ty b)) hi rfl rfl rfl fun l => wraps_trunc_mod _ _
  case imulh =>
    exact computes_operands (fun a b _ _ => mulHigh o.ty.bits (tval o.ty a * tval o.ty b)) hi rfl rfl rfl fun l => wraps_trunc_mod _ _
  case imad =>
    exact computes_operands (fun a b c _ => trunc o.ty.bits (tval o.ty a * tval o.ty b + tval o.ty c)) hi rfl rfl rfl
      fun l => wraps_trunc_mod _ _

/-! ### Shifts (R86) -/

theorem shlBits_lt (w a n : Nat) : shlBits w a n < 2 ^ w := by
  unfold shlBits
  split
  · exact Nat.two_pow_pos w
  · exact Nat.mod_lt _ (Nat.two_pow_pos w)

/-- A count of the width or more shifts everything out. -/
theorem shrBits_eq {w a : Nat} (ha : a < 2 ^ w) (n : Nat) : shrBits w a n = a / 2 ^ n := by
  unfold shrBits
  split
  · next h => exact (Nat.div_eq_of_lt (ha.trans_le (Nat.pow_le_pow_right (by decide) h))).symm
  · rfl

/-- Dividing brings a value nearer to zero, or to -1. -/
theorem ediv_two_pow_bounds {e p : Int} (hlo : -p ≤ e) (hhi : e < p) (n : Nat) : -p ≤ e / 2 ^ n ∧ e / 2 ^ n < p := by
  have hd : (1 : Int) ≤ 2 ^ n := by exact_mod_cast Nat.one_le_two_pow
  rw [Int.le_ediv_iff_mul_le (by omega), Int.ediv_lt_iff_lt_mul (by omega)]
  constructor <;> nlinarith

/-- A value shifted by its whole width or more is its sign. -/
theorem ediv_two_pow_of_le {e p : Int} {n : Nat} (hlo : -p ≤ e) (hhi : e < p) (hp : p ≤ 2 ^ n) : e / 2 ^ n = if e < 0 then -1 else 0 := by
  split
  · exact ((Int.ediv_emod_unique (r := e + 2 ^ n) (by omega)).2 ⟨by omega, by omega, by omega⟩).1
  · exact Int.ediv_eq_zero_of_lt (by omega) (by omega)

theorem trunc_neg_one (w : Nat) : trunc w (-1) = 2 ^ w - 1 := by
  have h := trunc_cast w (-1)
  have hpos : (1 : Int) ≤ 2 ^ w := by exact_mod_cast Nat.one_le_two_pow
  have hcast : ((2 ^ w : Nat) : Int) = 2 ^ w := by push_cast; rfl
  rw [← Int.add_emod_right, Int.emod_eq_of_lt (by omega) (by omega)] at h
  omega

theorem sval_neg_iff {w a : Nat} (ha : a < 2 ^ w) : sval w a < 0 ↔ 2 ^ (w - 1) ≤ a := by
  have ha' : (a : Int) < 2 ^ w := by exact_mod_cast ha
  unfold sval
  split <;> omega

/-- An arithmetic shift is the value divided, at any count. -/
theorem sraBits_eq {w a : Nat} (hw : 0 < w) (ha : a < 2 ^ w) (n : Nat) : sraBits w a n = trunc w (sval w a / 2 ^ n) := by
  unfold sraBits
  split
  · next h =>
    obtain ⟨hlo, hhi⟩ := sval_bounds hw ha
    have hp : (2 : Int) ^ (w - 1) ≤ 2 ^ n := pow_le_pow_right₀ (by decide) (by omega)
    rw [ediv_two_pow_of_le hlo hhi hp]
    simp only [sval_neg_iff ha]
    split
    · exact (trunc_neg_one w).symm
    · simp [trunc]
  · rfl

theorem sval_sraBits {w a : Nat} (hw : 0 < w) (ha : a < 2 ^ w) (n : Nat) : sval w (sraBits w a n % 2 ^ w) = sval w a / 2 ^ n := by
  obtain ⟨hlo, hhi⟩ := sval_bounds hw ha
  obtain ⟨hlo', hhi'⟩ := ediv_two_pow_bounds hlo hhi n
  rw [sraBits_eq hw ha, trunc_mod, sval_trunc hw hlo' hhi']

/-! ### Bit fields (R86) -/

/-- The top bit of a field says whether its signed value is negative. -/
theorem testBit_top {n f : Nat} (hn : 0 < n) (hf : f < 2 ^ n) : f.testBit (n - 1) = decide (2 ^ (n - 1) ≤ f) := by
  obtain ⟨m, rfl⟩ : ∃ m, n = m + 1 := ⟨n - 1, by omega⟩
  rw [Nat.testBit_eq_decide_div_mod_eq, Nat.add_sub_cancel]
  rw [pow_succ] at hf
  by_cases h : 2 ^ m ≤ f
  · simp [h, show f / 2 ^ m = 1 by rw [Nat.div_eq_iff (Nat.two_pow_pos m)]; omega]
  · simp [h, Nat.div_eq_of_lt (not_le.1 h)]

theorem trunc_sval_of_lt {n w f : Nat} (hnw : n ≤ w) (hf : f < 2 ^ n) (h : f < 2 ^ (n - 1)) : trunc w (sval n f) = f := by
  have hval : sval n f = f := if_neg (not_le.2 h)
  have hlt : (f : Int) < 2 ^ w := by exact_mod_cast hf.trans_le (Nat.pow_le_pow_right (by decide) hnw)
  rw [← Int.natCast_inj, trunc_cast, hval, Int.emod_eq_of_lt (by omega) hlt]

/-- A negative field is extended with ones. -/
theorem trunc_sval_of_ge {n w f : Nat} (hnw : n ≤ w) (hf : f < 2 ^ n) (h : 2 ^ (n - 1) ≤ f) :
    trunc w (sval n f) = 2 ^ n * (2 ^ (w - n) - 1) + f := by
  have hle : 2 ^ n ≤ 2 ^ w := Nat.pow_le_pow_right (by decide) hnw
  have hval : ((2 ^ n * (2 ^ (w - n) - 1) + f : Nat) : Int) = 2 ^ w - 2 ^ n + f := by
    rw [Nat.mul_sub, ← pow_add, Nat.add_sub_cancel' hnw, Nat.mul_one]
    push_cast [hle]
    rfl
  zify at hle hf
  rw [← Int.natCast_inj, trunc_cast, hval, sval, if_pos h, ← Int.add_emod_right, Int.emod_eq_of_lt] <;> omega

/-- Bits of a sign-extended field. -/
theorem testBit_trunc_sval {n w f : Nat} (hn : 0 < n) (hnw : n ≤ w) (hf : f < 2 ^ n) {i : Nat} (hi : i < w) :
    (trunc w (sval n f)).testBit i = if i < n then f.testBit i else f.testBit (n - 1) := by
  rw [testBit_top hn hf]
  by_cases h : 2 ^ (n - 1) ≤ f
  · rw [trunc_sval_of_ge hnw hf h, Nat.testBit_two_pow_mul_add _ hf, Nat.testBit_two_pow_sub_one, decide_eq_true h]
    split
    · rfl
    · exact decide_eq_true (by omega)
  · rw [trunc_sval_of_lt hnw hf (not_le.1 h), decide_eq_false h]
    split
    · rfl
    · exact Nat.testBit_lt_two_pow (hf.trans_le (Nat.pow_le_pow_right (by decide) (by omega)))

/-- Bits of an extracted field: those of a from pos up to the top of the field, then zeros or the field's sign. -/
theorem testBit_bfx {t : Ty} {a b c : Nat} (hc : ¬(c % 256 = 0 ∨ t.bits ≤ b % 256)) {i : Nat} (hi : i < t.bits) :
    (bfx t a b c % 2 ^ t.bits).testBit i = if b % 256 + i < min (b % 256 + c % 256) t.bits then a.testBit (b % 256 + i)
      else t.isSigned && a.testBit (min (b % 256 + c % 256) t.bits - 1) := by
  unfold bfx
  generalize b % 256 = pos at hc ⊢
  generalize htop : min (pos + c % 256) t.bits = top
  obtain ⟨n, rfl⟩ : ∃ n, top = pos + n := ⟨top - pos, by omega⟩
  have hfield (j : Nat) : (a / 2 ^ pos % 2 ^ n).testBit j = (decide (j < n) && a.testBit (pos + j)) := by
    rw [Nat.testBit_mod_two_pow, Nat.testBit_div_two_pow, Nat.add_comm]
  simp only [if_neg hc, htop, Nat.add_sub_cancel_left]
  rw [Nat.testBit_mod_two_pow, decide_eq_true hi, Bool.true_and]
  cases t.isSigned
  · simp only [Bool.false_eq_true, if_false, hfield]
    split <;> simp <;> omega
  · simp only [if_true]
    rw [testBit_trunc_sval (by omega) (by omega) (Nat.mod_lt _ (Nat.two_pow_pos n)) hi]
    simp only [hfield]
    split
    · next h => simp [h]
    · next h => simp [h, show n - 1 < n by omega, show pos + n - 1 = pos + (n - 1) by omega]

/-- Bits of an insertion: those of a in the field, those of d outside it. -/
theorem testBit_bfi {t : Ty} {d a b c : Nat} (hc : ¬(c % 256 = 0 ∨ t.bits ≤ b % 256)) {i : Nat} (hi : i < t.bits) :
    (bfi t d a b c % 2 ^ t.bits).testBit i = if b % 256 ≤ i ∧ i < min (b % 256 + c % 256) t.bits then a.testBit (i - b % 256)
      else d.testBit i := by
  unfold bfi
  generalize b % 256 = pos at hc ⊢
  generalize htop : min (pos + c % 256) t.bits = top
  obtain ⟨n, rfl⟩ : ∃ n, top = pos + n := ⟨top - pos, by omega⟩
  have hsum : d % 2 ^ pos + a % 2 ^ n * 2 ^ pos + d / 2 ^ (pos + n) * 2 ^ (pos + n) =
      2 ^ pos * (2 ^ n * (d / 2 ^ (pos + n)) + a % 2 ^ n) + d % 2 ^ pos := by rw [pow_add]; ring
  simp only [if_neg hc, htop, Nat.add_sub_cancel_left]
  rw [Nat.testBit_mod_two_pow, decide_eq_true hi, Bool.true_and, hsum,
    Nat.testBit_two_pow_mul_add _ (Nat.mod_lt _ (Nat.two_pow_pos pos)), Nat.testBit_two_pow_mul_add _ (Nat.mod_lt _ (Nat.two_pow_pos n)),
    Nat.testBit_mod_two_pow, Nat.testBit_mod_two_pow, Nat.testBit_div_two_pow]
  by_cases h1 : i < pos
  · simp [h1, show ¬ pos ≤ i by omega]
  · by_cases h2 : i < pos + n
    · simp [h1, h2, show pos ≤ i by omega, show i - pos < n by omega]
    · simp [h1, h2, show ¬ i - pos < n by omega, show i - pos - n + (pos + n) = i by omega]

/-! ### The statement of O2 -/

/-- Settles O2: a shift is a multiplication or a division by a power of two at any count, and a bit field moves bits. -/
theorem shiftsAndBitFields : Obligations.ShiftsAndBitFields := by
  unfold Obligations.ShiftsAndBitFields
  refine fun s w ls o => ⟨fun hi => ?ishl, fun hi => ?ishr, fun hi => ?isra, fun hi => ?ibfx, fun hi => ?ibfi⟩
  case ishl => exact computes_operands (fun a b _ _ => shlBits o.ty.bits a b) hi rfl rfl rfl fun l => Nat.mod_eq_of_lt (shlBits_lt _ _ _)
  case ishr =>
    refine computes_operands (fun a b _ _ => shrBits o.ty.bits a b) hi rfl rfl rfl fun l => ?_
    rw [shrBits_eq (uA_lt w o l), Nat.mod_eq_of_lt ((Nat.div_le_self _ _).trans_lt (uA_lt w o l))]
  case isra =>
    exact computes_operands (fun a b _ _ => sraBits o.ty.bits a b) hi rfl rfl rfl fun l => sval_sraBits (ty_bits_pos _) (uA_lt w o l) _
  case ibfx =>
    refine computes_operands (fun a b c _ => bfx o.ty a b c) hi rfl rfl rfl fun l => ?_
    intro pos len top
    split
    · next hc => simp [bfx, pos, len, hc]
    · next hc => exact fun i => testBit_bfx hc
  case ibfi =>
    refine computes_operands (fun a b c d => bfi o.ty d a b c) hi rfl rfl rfl fun l => ?_
    intro pos len top
    split
    · next hc => rw [bfi, if_pos hc, Nat.mod_eq_of_lt (opD_lt _ _ _ _)]
    · next hc => exact fun i => testBit_bfi hc

/-! ### Comparisons, select and moves (R75, R87, R92, R98) -/

/-- An instruction that issues with D in the role of a predicate writes neither k0 nor q0 (R56, R62). -/
theorem predDest_of_issues {s : State} {w : Wave} {i : Instr} {ls : List Nat} {o : Ops} {sp : OpSpec} (hi : Issues s i w ls)
    (hsp : i.spec = some (o, sp)) (hd : sp.d = .pred) (hdst : sp.dst = true) : (o.k.vec = false → o.d < 4) ∧ o.d ≠ 0 := by
  have hok := ok_of_legal hi.2.1 hsp
  simp only [Ops.ok, Bool.and_eq_true, and_assoc, hd, hdst] at hok
  obtain ⟨-, -, -, hfile, hzero, -⟩ := hok
  refine ⟨fun hk => ?_, by simpa using hzero⟩
  simpa [Role.cls, hk, Role.ok, Role.refs, RegRef.ok] using hfile

/-- An immediate value is one of its type (R67). -/
theorem imm_lt_of_issues {s : State} {w : Wave} {i : Instr} {ls : List Nat} {o : Ops} {sp : OpSpec} {v : W64} (hi : Issues s i w ls)
    (hsp : i.spec = some (o, sp)) (hk : sp.imm = .val) (hb : o.b = .imm v) : v.toNat < 2 ^ o.ty.bits := by
  obtain ⟨-, -, hsrc, -⟩ := fields_of_legal hi.2.1 hsp
  simp only [srcOk, hb, immOk, hk, Bool.and_eq_true, decide_eq_true_eq] at hsrc
  exact hsrc.2

/-- The results of an instruction that writes a predicate may be named otherwise. -/
theorem Tests.congr {i : Instr} {s : State} {w : Wave} {ls : List Nat} {o : Ops} {f g : Nat → Bool × Nat} (h : Tests i s w ls o f)
    (hfg : ∀ l, f l = g l) : Tests i s w ls o g := by
  rwa [← funext hfg]

section
variable {s : State} {w : Wave} {ls : List Nat} {o : Ops}

theorem tests_icmp (hi : Issues s (.icmp o) w ls) : Tests (.icmp o) s w ls o (fun l => (intCond o.x (vA w o l) (vB w o l), 0)) := by
  obtain ⟨hu, h0⟩ := predDest_of_issues hi rfl rfl rfl
  exact tests_predRun (f := fun w l => (intCond o.x (vA w o l) (vB w o l), 0)) hi rfl hu h0

theorem tests_fcmp (hi : Issues s (.fcmp o) w ls) :
    Tests (.fcmp o) s w ls o (fun l => fCompare (fmtOfTy o.ty) (fpEnv w o.ty o.rnd) o.x (uA w o l) (uB w o l)) := by
  obtain ⟨hu, h0⟩ := predDest_of_issues hi rfl rfl rfl
  exact tests_predRun (f := fun w l => fCompare (fmtOfTy o.ty) (fpEnv w o.ty o.rnd) o.x (uA w o l) (uB w o l)) hi rfl hu h0

theorem computes_isel (hi : Issues s (.isel o) w ls) : Computes (.isel o) s w ls o o.ty (fun l x =>
    x = if opPred w o o.c l then uA w o l else uB w o l) := by
  obtain ⟨-, -, hb, -⟩ := fields_of_legal hi.2.1 rfl
  refine computes_aluRun (f := fun w l => if opPred w o o.c l then uA w o l else uB w o l) hi rfl (destOk_of_issues hi rfl rfl) fun l => ?_
  simp only [uA, uB, opPred_workLane, opA_workLane, opB_workLane hb]
  split
  · exact Nat.mod_eq_of_lt (opA_lt _ _ _ _)
  · exact Nat.mod_eq_of_lt (opB_lt _ _ _ _)

theorem computes_mov (hi : Issues s (.mov o) w ls) : Computes (.mov o) s w ls o o.ty (fun l x => x = uA w o l) :=
  computes_operands (fun a _ _ _ => a) hi rfl rfl rfl fun l => Nat.mod_eq_of_lt (uA_lt w o l)

theorem computes_movi (hi : Issues s (.movi o) w ls) {v : W64} (hb : o.b = .imm v) :
    Computes (.movi o) s w ls o o.ty (fun _ x => x = v.toNat) :=
  computes_operands (fun _ b _ _ => b) hi rfl rfl rfl fun l => by
    rw [uB, opB, hb, Nat.mod_mod, Nat.mod_eq_of_lt (imm_lt_of_issues hi rfl rfl hb)]

theorem computes_bcast (hi : Issues s (.bcast o) w ls) {n : Nat} (hb : o.b = .s n) :
    Computes (.bcast o) s w ls o o.ty (fun _ x => x = (rdS w n).toNat % 2 ^ o.ty.bits) :=
  computes_operands (fun _ b _ _ => b) hi rfl rfl rfl fun l => by
    rw [uB, opB, hb]
    exact Nat.mod_mod _ _

end

/-! ### The statement of O3 -/

/-- Settles O3: comparisons write the predicate of their condition, and select and moves write an operand as it is. -/
theorem comparisonsSelectsAndMoves : Obligations.ComparisonsSelectsAndMoves := by
  unfold Obligations.ComparisonsSelectsAndMoves
  refine ⟨fun s w ls o => ⟨fun hi => ?icmp, fun hi => ?fcmp, computes_isel⟩,
    fun s w ls o => ⟨computes_mov, fun hi v hb => computes_movi hi hb, fun hi n hb => computes_bcast hi hb⟩⟩
  case icmp =>
    refine (tests_icmp hi).congr fun l => ?_
    generalize o.x = cond
    match cond with
    | 0 | 2 | 3 | 4 | _ + 5 => rfl
    | 1 => simp [intCond]
  case fcmp =>
    refine (tests_fcmp hi).congr fun l => ?_
    generalize o.x = cond
    match cond with
    | 0 | 2 | 3 | 4 | 5 | 6 | _ + 7 => rfl
    | 1 => simp [fCompare]

/-! ### How a result fills its register (R82) -/

/-- A pattern extended by sign is its signed value in the wider register. -/
theorem ofNat_trunc (m : Nat) (e : Int) : BitVec.ofNat m (trunc m e) = BitVec.ofInt m e := by
  apply BitVec.eq_of_toNat_eq
  rw [BitVec.toNat_ofNat, trunc_mod, BitVec.toNat_ofInt, trunc]
  push_cast
  rfl

theorem ofNat_fillBits (m : Nat) (sg : Bool) (t : Ty) (x : Nat) :
    BitVec.ofNat m (fillBits m sg t x) = if sg then BitVec.ofInt m (sval t.bits x) else BitVec.ofNat m x := by
  unfold fillBits
  split
  · exact ofNat_trunc m _
  · rfl

/-- A narrow vector result, extended as its type says. -/
theorem rdV_wrVec_narrow {t : Ty} (h : t.is64 = false) (w : Wave) (l n x : Nat) :
    rdV (wrVec w t l n x) l n = if t = .i8 ∨ t = .i16 then BitVec.ofInt 32 (sval t.bits x) else BitVec.ofNat 32 x := by
  rw [wrVec, if_neg (by simp [h]), rdV_wrV, if_pos rfl, ofNat_fillBits]
  simp only [Bool.or_eq_true, beq_iff_eq]

/-- A 64-bit vector result stands in a pair, low half first. -/
theorem rdV_wrVec_wide {t : Ty} (h : t.is64 = true) (w : Wave) (l n x : Nat) :
    rdV (wrVec w t l n x) l n = BitVec.ofNat 32 x ∧ rdV (wrVec w t l n x) l (n + 1) = BitVec.ofNat 32 (x / 2 ^ 32) := by
  rw [wrVec, if_pos h, rdV_wrV, rdV_wrV, rdV_wrV, if_neg (by omega), if_pos rfl, if_pos (by omega)]
  exact ⟨rfl, rfl⟩

/-- The fill of an s-register. -/
def fillUni (t : Ty) (x : Nat) : W64 := if t = .i8 ∨ t = .i16 ∨ t = .i32 then BitVec.ofInt 64 (sval t.bits x) else BitVec.ofNat 64 x

theorem ofNat_fillUni (t : Ty) (x : Nat) : BitVec.ofNat 64 (fillBits 64 (t == .i8 || t == .i16 || t == .i32) t x) = fillUni t x := by
  rw [ofNat_fillBits, fillUni]
  simp only [Bool.or_eq_true, beq_iff_eq, or_assoc]

/-- Settles O4: a vector register takes its fill, a pair its halves, an s-register its fill. -/
theorem resultsFillRegisters : Obligations.ResultsFillRegisters := by
  unfold Obligations.ResultsFillRegisters
  intro w t x l n hx _
  refine ⟨fun h => rdV_wrVec_narrow h w l n x, fun h => ?_, ?_⟩
  · obtain ⟨hlo, hhi⟩ := rdV_wrVec_wide h w l n x
    rw [ty_bits_64 h] at hx
    rw [hlo, hhi, BitVec.toNat_ofNat, BitVec.toNat_ofNat, Nat.mod_eq_of_lt (a := x / 2 ^ 32) (by omega)]
    exact ⟨rfl, rfl⟩
  · rw [wrUni, rdS_wrS, if_pos rfl, ofNat_fillUni, fillUni]

/-! ### Floating-point instructions (R90 to R97) -/

/-- A floating-point instruction whose D has the role of a value completes with its lanes' results and flags, also where it writes a narrower
type than its own. -/
theorem floats_of_issues {i : Instr} {s : State} {w : Wave} {ls : List Nat} {o : Ops} {sp : OpSpec} {t u : Ty} {f : Wave → Nat → Nat × Nat}
    (hi : Issues s i w ls) (hsp : i.spec = some (o, sp)) (hd : sp.d = .val u) (he : exec i s = fltRun i o t f s)
    (htu : t = u ∨ t.is64 = false) : Floats i s w ls o t (f w) := by
  have hdest := destOk_of_issues hi hsp hd
  obtain rfl | h := htu
  · exact floats_fltRun hi he hdest
  · exact floats_fltRun hi he (hdest.narrow h)

/-- Settles O5: each of them is `fltRun` of its lane operation. -/
theorem floatInstructionsComplete : Obligations.FloatInstructionsComplete := by
  unfold Obligations.FloatInstructionsComplete
  intro s w ls o a b c h k
  refine ⟨?fadd, ?fsub, ?fmul, ?ffma, ?fdiv, ?fsqrt, ?fexp2, ?flog2, ?fmin, ?fmax, ?frcp, ?frsq, ?fsin, ?fcos, ?frnd, ?hadd2, ?hmul2, ?hfma2,
    ?cvt, ?pack, ?unpack⟩
  case fadd | fsub | fmul | ffma | fdiv | fsqrt | fexp2 | flog2 | fmin | fmax | frnd | cvt =>
    exact fun hi => (floats_of_issues hi rfl rfl rfl (.inl rfl) :)
  case frcp | frsq | fsin | fcos | hadd2 | hmul2 | hfma2 | pack | unpack => exact fun hi => (floats_of_issues hi rfl rfl rfl (.inr rfl) :)

/-! ### A NaN operand of `ffma` (R90, R92) -/

/-- 0 × ∞ + NaN in binary32. -/
def zeroInfNaN : List Nat := [0x00000000, 0x7F800000, 0x7FC00000]

/-- `ffma` of them is invalid, whatever its addend is, and raises NV (R92). -/
theorem fOp_ffma_zeroInfNaN : fOp flaggedWave .f32 .rn false zeroInfNaN fnFma = (0x7FC00000, flNV) := by decide +kernel

/-- Refutes O6: its first clause lets an operation with a NaN operand raise no flag but DN, for every operation; but 0 × ∞ of `ffma` is
invalid whatever the addend is (R92), so that 0 × ∞ + NaN raises NV. -/
theorem not_floatSpecialOperands : ¬ Obligations.FloatSpecialOperands := by
  unfold Obligations.FloatSpecialOperands
  rintro ⟨hnan, -⟩
  have hx : ∃ x ∈ zeroInfNaN, expField .f32 x = expOnes .f32 ∧ mantField .f32 x ≠ 0 := ⟨0x7FC00000, by decide⟩
  obtain ⟨-, hflags⟩ := hnan flaggedWave .f32 .rn false zeroInfNaN fnFma (.inl rfl) hx
  rw [fOp_ffma_zeroInfNaN] at hflags
  exact absurd hflags (by decide)

end Sys2Proof.Machine
end

section
/-!
PROOFS. LOAD_COMPLETION (O11): what reads leave as it was, what they answer, and what the registers of the lanes hold then.
-/
namespace Sys2Proof.Machine

/-! ### What reads change (R176, R179, R181) -/

/-- `t` is `s` but for the copies of memory that cores and quads hold. -/
def OnlyCaches (s t : State) : Prop := { t with cores := s.cores, quads := s.quads } = s

theorem OnlyCaches.refl (s : State) : OnlyCaches s s := rfl

theorem OnlyCaches.trans {a b c : State} (h : OnlyCaches a b) (g : OnlyCaches b c) : OnlyCaches a c := by
  unfold OnlyCaches at *
  rw [← h, ← g]

theorem OnlyCaches.waves {s t : State} (h : OnlyCaches s t) : t.waves = s.waves := (congrArg State.waves h :)
theorem OnlyCaches.ghosts {s t : State} (h : OnlyCaches s t) : t.ghosts = s.ghosts := (congrArg State.ghosts h :)
theorem OnlyCaches.mem {s t : State} (h : OnlyCaches s t) : t.mem = s.mem := (congrArg State.mem h :)
theorem OnlyCaches.hostMem {s t : State} (h : OnlyCaches s t) : t.hostMem = s.hostMem := (congrArg State.hostMem h :)
theorem OnlyCaches.poison {s t : State} (h : OnlyCaches s t) : t.poison = s.poison := (congrArg State.poison h :)
theorem OnlyCaches.flights {s t : State} (h : OnlyCaches s t) : t.flights = s.flights := (congrArg State.flights h :)

theorem onlyCaches_foldl {α : Type} (f : State → α → State) (hf : ∀ s a, OnlyCaches s (f s a)) (l : List α) (s : State) :
    OnlyCaches s (l.foldl f s) := by
  induction l generalizing s with
  | nil => exact .refl s
  | cons a r ih => exact (hf s a).trans (ih _)

theorem onlyCaches_putQuad (s : State) (q : Nat) (x : Quad) : OnlyCaches s (putQuad s q x) := rfl
theorem onlyCaches_putCore (s : State) (d c : Nat) (x : Core) : OnlyCaches s (putCore s d c x) := rfl
theorem onlyCaches_l2Put (s : State) (q : Nat) (e : L2Ent) : OnlyCaches s (l2Put s q e) := rfl
theorem onlyCaches_markOld (s : State) (d c l : Nat) (p : Nat → List Byte → Bool) : OnlyCaches s (markOld s d c l p) := rfl

theorem onlyCaches_l2Line (s : State) (pg : Page) (wr : Bool) (pa n l : Nat) : OnlyCaches s (l2Line s pg wr pa n l) := by
  unfold l2Line
  simp only
  split
  · exact onlyCaches_l2Put _ _ _
  · split
    · exact .refl s
    · exact onlyCaches_l2Put _ _ _

theorem onlyCaches_l2Access (s : State) (pg : Page) (wr : Bool) (pa n : Nat) : OnlyCaches s (l2Access s pg wr pa n) := by
  unfold l2Access
  split
  · exact onlyCaches_foldl _ (fun st l => (onlyCaches_putQuad st _ _).trans (onlyCaches_l2Line _ pg wr pa n l)) _ _
  · exact .refl s

theorem onlyCaches_homeSeen (s : State) (d c pa : Nat) : OnlyCaches s (homeSeen s d c pa) := by
  unfold homeSeen
  simp only
  split
  · exact (onlyCaches_putQuad s _ _).trans (onlyCaches_markOld _ _ _ _ _)
  · exact onlyCaches_markOld _ _ _ _ _

theorem onlyCaches_makeReplica (s : State) (d c : Nat) (l : Line) : OnlyCaches s (makeReplica s d c l) := by
  unfold makeReplica
  simp only
  split
  · exact .refl s
  · exact onlyCaches_l2Put _ _ _

theorem onlyCaches_touchReplica (s : State) (d c pa : Nat) : OnlyCaches s (touchReplica s d c pa) := by
  unfold touchReplica
  split
  · exact onlyCaches_l2Put _ _ _
  · exact .refl s

theorem onlyCaches_l1Fill (s : State) (d c pa : Nat) (bs : List Byte) : OnlyCaches s (l1Fill s d c pa bs) := by
  unfold l1Fill
  simp only
  split
  · exact (onlyCaches_putCore s d c _).trans (onlyCaches_makeReplica _ _ _ _)
  · exact onlyCaches_putCore s d c _

/-- A core's read at the home passes the slice, and is seen by the quad. -/
theorem onlyCaches_homeRead (s : State) (d c : Nat) (pg : Page) (pa n : Nat) : OnlyCaches s (homeSeen (l2Access s pg false pa n) d c pa) :=
  (onlyCaches_l2Access _ _ _ _ _).trans (onlyCaches_homeSeen _ _ _ _)

/-- Wherever a core reads, only copies of memory change. -/
theorem onlyCaches_coreRead (s : State) (d c : Nat) (pg : Page) (how : ReadAt) (pa n : Nat) : OnlyCaches s (coreRead s d c pg how pa n).1 := by
  unfold coreRead
  simp only
  split
  · exact onlyCaches_homeRead _ _ _ _ _ _
  · split
    · exact onlyCaches_putCore _ _ _ _
    · split
      · exact onlyCaches_touchReplica _ _ _ _
      · exact (onlyCaches_touchReplica _ _ _ _).trans (onlyCaches_l1Fill _ _ _ _ _)
    · split
      · exact onlyCaches_l2Access _ _ _ _ _
      · exact (onlyCaches_homeRead _ _ _ _ _ _).trans (onlyCaches_l1Fill _ _ _ _ _)

theorem onlyCaches_readAcc (s : State) (who : Who) (home : Bool) (a : Acc) (n : Nat) : OnlyCaches s (readAcc s who home a n).1 := by
  unfold readAcc
  split
  · exact .refl s
  · split
    · exact .refl s
    · exact onlyCaches_coreRead _ _ _ _ _ _ _

/-- A load reads and leaves everything but copies of memory as it was (R191). -/
theorem onlyCaches_readAll (who : Who) (home : Bool) (n : Nat) (as : List Acc) (s : State) : OnlyCaches s (readAll s who home n as).1 := by
  induction as generalizing s with
  | nil => exact .refl s
  | cons a r ih =>
    have h := (onlyCaches_readAcc s who home a n).trans (ih (readAcc s who home a n).1)
    unfold readAll
    simp only
    split <;> exact h

/-! ### Cores without lazy releases (R223, R224) -/

/-- No core has a lazy release on its way. -/
def NoReleases (s : State) : Prop := ∀ c ∈ s.cores, c.2.relb = []

/-- What holds of the default and of every value listed holds of the value at a key. -/
theorem stGet_induction {α : Type} {P : α → Prop} {d : α} {m : Store α} (hd : P d) (hm : ∀ e ∈ m, P e.2) (k : Nat) : P (stGet d k m) := by
  induction m with
  | nil => exact hd
  | cons e r ih =>
    unfold stGet
    split
    · exact hm _ (by simp)
    · exact ih fun e he => hm e (by simp [he])

theorem NoReleases.coreAt {s : State} (h : NoReleases s) (d c : Nat) : (coreAt s d c).relb = [] :=
  stGet_induction (P := fun x : Core => x.relb = []) rfl h _

theorem noReleases_markOld {s : State} (h : NoReleases s) (d c l : Nat) (p : Nat → List Byte → Bool) : NoReleases (markOld s d c l p) := by
  simp only [NoReleases, markOld, List.forall_mem_map]
  intro k hk
  split
  · split <;> exact h k hk
  · exact h k hk

theorem noReleases_homeRead {s : State} (h : NoReleases s) (d c : Nat) (pg : Page) (pa n : Nat) :
    NoReleases (homeSeen (l2Access s pg false pa n) d c pa) := by
  have hcores : (l2Access s pg false pa n).cores = s.cores := (congrArg State.cores (onlyStored_l2Access s pg false pa n) :)
  have hs : NoReleases (l2Access s pg false pa n) := by
    unfold NoReleases
    rwa [hcores]
  have hput (q : Nat) (x : Quad) : NoReleases (putQuad (l2Access s pg false pa n) q x) := hs
  unfold homeSeen
  simp only
  split
  · exact noReleases_markOld (hput _ _) _ _ _ _
  · exact noReleases_markOld hs _ _ _ _

/-! ### Bytes that only the home shows (R176, R214) -/

/-- No store in flight is one that the core's L1 shows ahead of the home. -/
def NoSeenStores (s : State) (die core : Nat) : Prop :=
  ∀ g ∈ s.flights, g.who.die = die → g.who.core = core → g.vis.isSome = true → ∀ n xs, g.act ≠ .store n xs

theorem seenByte_none {s : State} {die core : Nat} (h : NoSeenStores s die core) (pa : Nat) : seenByte s.flights die core pa = none := by
  unfold seenByte NoSeenStores at *
  generalize s.flights = fs at h
  induction fs with
  | nil => rfl
  | cons g r ih =>
    rw [List.foldl_cons]
    have hg := h g (by simp)
    split
    · next v n xs hv hact =>
      rw [if_neg]
      · exact ih fun g hg => h g (by simp [hg])
      · simp only [Bool.and_eq_true, beq_iff_eq]
        rintro ⟨hd, hc⟩
        exact hg hd hc (by simp [hv]) n xs hact
    · exact ih fun g hg => h g (by simp [hg])

/-- Nothing of the core's own lies over what the home has. -/
theorem overlay_eq {s : State} {die core : Nat} (hr : NoReleases s) (hs : NoSeenStores s die core) (pa : Nat) (bs : List Byte) :
    overlay s die core pa bs = bs := by
  have hown (a : Nat) : ownByte s die core a = none := by simp [ownByte, hr.coreAt, bufEntry, seenByte_none hs]
  refine List.ext_getElem (by simp [overlay]) fun i h1 h2 => ?_
  simp [overlay, hown]

theorem drop_memBytes (m : Mem) (a k n : Nat) : (memBytes m a (k + n)).drop k = memBytes m (a + k) n := by
  induction k generalizing a with
  | zero => simp
  | succ k ih =>
    rw [Nat.add_right_comm, memBytes, List.drop_succ_cons, ih, Nat.add_assoc, Nat.add_comm 1]

theorem take_memBytes (m : Mem) (a n k : Nat) : (memBytes m a (n + k)).take n = memBytes m a n := by
  induction n generalizing a with
  | zero => rfl
  | succ n ih => rw [Nat.add_right_comm, memBytes, List.take_succ_cons, ih, memBytes]

/-- Bytes inside a sector, cut out of it. -/
theorem cut_memBytes (m : Mem) {pa n : Nat} (h : pa % 32 + n ≤ 32) :
    ((memBytes m (32 * (pa / 32)) 32).drop (pa % 32)).take n = memBytes m pa n := by
  obtain ⟨k, hk⟩ : ∃ k, 32 = pa % 32 + (n + k) := ⟨32 - pa % 32 - n, by omega⟩
  have hsector : memBytes m (32 * (pa / 32)) 32 = memBytes m (32 * (pa / 32)) (pa % 32 + (n + k)) := congrArg _ hk
  rw [hsector, drop_memBytes, take_memBytes, Nat.div_add_mod]

/-! ### What a load reads (R191) -/

/-- What lanes have read, by lane. -/
def laneReads (vs : List (Acc × Nat)) : List (Nat × Nat) := vs.map (fun v => (v.1.lane, v.2))

@[simp] theorem laneReads_nil : laneReads [] = [] := rfl
@[simp] theorem laneReads_cons (v : Acc × Nat) (vs : List (Acc × Nat)) : laneReads (v :: vs) = (v.1.lane, v.2) :: laneReads vs := rfl

/-- The places of a load as they stand at first, after some of its lanes have read. -/
structure StillThere (s t : State) (who : Who) : Prop where
  caches : OnlyCaches s t
  releases : NoReleases t
  seen : NoSeenStores s who.die who.core

/-- A read of a scratchpad or past the L1 gives the bytes that stand there, healthy. -/
theorem readAcc_plain {s t : State} {who : Who} (h : StillThere s t who) {a : Acc} {n : Nat} (ha : PlainAt s a n) :
    (readAcc t who false a n).2 = (bytesAt s a n, false) ∧ NoReleases (readAcc t who false a n).1 := by
  obtain ⟨hc, hr, hs⟩ := h
  unfold PlainAt at ha
  unfold bytesAt
  cases hl : a.loc with
  | pad u off =>
    have hholder : holder t u = holder s u := by simp [holder, findWave, hc.waves, hc.ghosts]
    rw [hl] at ha
    unfold padPoisoned at ha
    simp only [readAcc, hl, padRead, padPoisoned, hholder]
    exact ⟨by rw [ha], hr⟩
  | mem pa =>
    rw [hl] at ha
    obtain ⟨hdev, hhome, hsect, hpois⟩ := ha
    have hst : NoSeenStores t who.die who.core := by
      unfold NoSeenStores
      rwa [hc.flights]
    have hread : readAcc t who false a n = coreRead t who.die who.core a.page .home pa n := by
      have hhow : (false || !(a.page.cl == 0) || a.page.ptype == .estimator) = true := by simpa using hhome
      simp only [readAcc, hl, beq_false_of_ne hdev, hhow, if_true]
      rfl
    rw [hread]
    have hbytes : (coreRead t who.die who.core a.page .home pa n).2 = (memBytes s.mem pa n, false) := by
      simp [coreRead, overlay_eq hr hst, hc.mem, hc.poison, cut_memBytes _ hsect, hpois]
    exact ⟨hbytes, noReleases_homeRead hr _ _ _ _ _⟩

theorem readAll_plain {s : State} {who : Who} {n : Nat} (as : List Acc) (t : State) (h : StillThere s t who) (has : ∀ a ∈ as, PlainAt s a n) :
    (readAll t who false n as).2 = (laneReads (as.map (fun a => (a, leNat (bytesAt s a n)))), []) := by
  induction as generalizing t with
  | nil => rfl
  | cons a r ih =>
    obtain ⟨hval, hrel⟩ := readAcc_plain h (has a (by simp))
    have hrest := ih (readAcc t who false a n).1 ⟨h.caches.trans (onlyCaches_readAcc _ _ _ _ _), hrel, h.seen⟩
      fun b hb => has b (by simp [hb])
    simp [readAll, hval, hrest]

/-- The place of an access that the L1 keeps. -/
def CachedAcc (a : Acc) : Prop := (∃ pa, a.loc = .mem pa) ∧ (a.page.ptype = .normal ∨ a.page.ptype = .weight) ∧ a.page.cl = 0

theorem readAcc_cached {a : Acc} (ha : CachedAcc a) {pa : Nat} (hl : a.loc = .mem pa) (s : State) (who : Who) (n : Nat) :
    readAcc s who false a n = coreRead s who.die who.core a.page .cached pa n := by
  obtain ⟨-, hty, hcl⟩ := ha
  have hdev : (a.page.ptype == .device) = false := by obtain h | h := hty <;> rw [h] <;> rfl
  have hest : (a.page.ptype == .estimator) = false := by obtain h | h := hty <;> rw [h] <;> rfl
  simp [readAcc, hl, hdev, hest, hcl]

/-- Reads through the L1 give what the core reads lane by lane, where none of it is poisoned. -/
theorem readAll_cached {who : Who} {n : Nat} (as : List Acc) (s : State) (has : ∀ a ∈ as, CachedAcc a)
    (hgood : ∀ v ∈ cachedReads who n as s, v.2.2 = false) :
    (readAll s who false n as).2 = (laneReads ((cachedReads who n as s).map (fun v => (v.1, leNat v.2.1))), []) := by
  induction as generalizing s with
  | nil => rfl
  | cons a r ih =>
    obtain ⟨pa, hl⟩ := (has a (by simp)).1
    simp only [cachedReads, hl, List.forall_mem_cons] at hgood
    have hrest := ih _ (fun b hb => has b (by simp [hb])) hgood.2
    simp [readAll, cachedReads, hl, readAcc_cached (has a (by simp)) hl, hgood.1, hrest]

/-! ### Writing the registers (R82, R192) -/

theorem rdBank_wrBank (w : Wave) (n key : Nat) (x : W64) : rdBank (wrBank w n x) key = if key = n then x else rdBank w key := by
  unfold rdBank wrBank
  by_cases hn : 64 ≤ n <;> by_cases hk : 64 ≤ key
  · simp only [hn, hk, if_true, stGet_stSet, show key - 64 = n - 64 ↔ key = n by omega]
  · simp [hn, hk, show key ≠ n by omega]
  · simp [hn, hk, show key ≠ n by omega]
  · simp [hn, hk, stGet_stSet]

/-- A value loaded into an s-register is its fill, whatever bank the register is of (R82, R147). -/
theorem rdBank_wrUniKey (w : Wave) (t : Ty) (n key x : Nat) :
    rdBank (wrUniKey w t n x) key = if key = n then fillUni t x else rdBank w key := by
  rw [wrUniKey, rdBank_wrBank, ofNat_fillUni]

theorem fillUni_mod (t : Ty) (x : Nat) : (fillUni t x).toNat % 2 ^ t.bits = x % 2 ^ t.bits := by
  rw [← ofNat_fillUni, BitVec.toNat_ofNat, Nat.mod_mod_of_dvd _ (pow_dvd_pow 2 (ty_bits_le t)), fillBits_mod _ _ _ _ (ty_bits_le t)]

theorem lanes_laneReads (vs : List (Acc × Nat)) : (laneReads vs).map Prod.fst = vs.map (fun v => v.1.lane) := by
  simp [laneReads, Function.comp_def]

section
variable {d : LoadDst} (hvec : d.vec = true) (hreg : d.reg + (if d.ty.is64 then 1 else 0) < 256)
include hvec

theorem writeLoad_cons (v : Nat × Nat) (vs : List (Nat × Nat)) (w : Wave) :
    writeLoad w d (v :: vs) = writeLoad (wrVec w d.ty v.1 d.reg v.2) d vs := by
  simp [writeLoad, hvec]

theorem writeLoad_frame (vs : List (Nat × Nat)) (w : Wave) : { writeLoad w d vs with v := w.v } = w := by
  induction vs generalizing w with
  | nil => rfl
  | cons v r ih =>
    rw [writeLoad_cons hvec]
    exact (congrArg (fun q : Wave => { q with v := w.v }) (ih _)).trans (wrVec_frame w _ _ _ _)

include hreg

/-- A load leaves the registers that are not its lanes' destination. -/
theorem rdV_writeLoad_other (vs : List (Nat × Nat)) (w : Wave) {l m : Nat} (hm : m < 256)
    (h : ¬(l ∈ vs.map Prod.fst ∧ (m = d.reg ∨ (d.ty.is64 = true ∧ m = d.reg + 1)))) : rdV (writeLoad w d vs) l m = rdV w l m := by
  induction vs generalizing w with
  | nil => rfl
  | cons v r ih =>
    rw [writeLoad_cons hvec, ih _ fun ⟨hl, hm'⟩ => h ⟨by simp [List.mem_map] at hl ⊢; exact .inr hl, hm'⟩]
    refine rdV_wrVec_other _ _ _ _ _ _ _ fun hkey => h ?_
    obtain hkey | ⟨h64, hkey⟩ := hkey
    · split at hreg <;> exact ⟨by simp [show l = v.1 by omega], .inl (by omega)⟩
    · rw [if_pos h64] at hreg
      exact ⟨by simp [show l = v.1 by omega], .inr ⟨h64, by omega⟩⟩

/-- The registers of a lane are those of its own write, whichever lanes come before and after it. -/
theorem rdV_writeLoad_lane {vs : List (Nat × Nat)} (hnd : (vs.map Prod.fst).Nodup) (w : Wave) {v : Nat × Nat} (hv : v ∈ vs) :
    ∃ x, ∀ m, m < 256 → rdV (writeLoad w d vs) v.1 m = rdV (wrVec x d.ty v.1 d.reg v.2) v.1 m := by
  induction vs generalizing w with
  | nil => simp at hv
  | cons u r ih =>
    rw [List.map_cons, List.nodup_cons] at hnd
    rw [writeLoad_cons hvec]
    obtain rfl | hv := List.mem_cons.1 hv
    · exact ⟨w, fun m hm => rdV_writeLoad_other hvec hreg r _ hm fun h => hnd.1 h.1⟩
    · exact ih hnd.2 _ hv

/-- The lanes of a vector load. -/
theorem loadWrites_vec {n : Nat} {vs : List (Acc × Nat)} (hnd : (vs.map (fun v => v.1.lane)).Nodup) (w : Wave) :
    LoadWrites d n vs w (writeLoad w d (laneReads vs)) := by
  have hframe := writeLoad_frame hvec (laneReads vs) w
  have hlane {v : Acc × Nat} (hv : v ∈ vs) : ∃ x, ∀ m, m < 256 →
      rdV (writeLoad w d (laneReads vs)) v.1.lane m = rdV (wrVec x d.ty v.1.lane d.reg v.2) v.1.lane m :=
    rdV_writeLoad_lane hvec hreg (v := (v.1.lane, v.2)) (by rwa [lanes_laneReads]) w (List.mem_map_of_mem hv)
  refine ⟨fun _ v hv => ?_, ?_⟩
  · rw [if_pos hvec]
    intro h64
    obtain ⟨x, hx⟩ := hlane hv
    rw [hx _ (by omega), rdV_wrVec_narrow h64]
  · rw [if_pos hvec]
    refine ⟨⟨?_, fun l m hm h => ?_⟩, fun v hv => ?_⟩
    · exact congrArg (fun q : Wave =>
        { q with blocked := (writeLoad w d (laneReads vs)).blocked, fpflags := w.fpflags }) hframe
    · exact rdV_writeLoad_other hvec hreg _ w hm (by rwa [lanes_laneReads])
    · obtain ⟨x, hx⟩ := hlane hv
      rw [← rdVec_wrVec x d.ty v.1.lane d.reg v.2]
      unfold rdVec
      split
      · next h64 =>
        rw [if_pos h64] at hreg
        rw [hx _ (by omega), hx _ hreg]
      · rw [hx _ (by omega)]

end

/-- The one value of a load of the drill. -/
theorem loadWrites_uni {d : LoadDst} (hvec : d.vec = false) (n : Nat) (v : Acc × Nat) (w : Wave) :
    LoadWrites d n [v] w (writeLoad w d [(v.1.lane, v.2)]) := by
  have hw : writeLoad w d [(v.1.lane, v.2)] = wrUniKey w d.ty d.reg v.2 := by simp [writeLoad, hvec]
  have hframe : { wrUniKey w d.ty d.reg v.2 with s := w.s, hs := w.hs } = w := wrBank_frame _ _ _
  rw [hw]
  simp only [LoadWrites, hvec, Bool.false_eq_true, if_false, List.mem_singleton, forall_eq, rdBank_wrUniKey, if_true]
  exact ⟨fun _ => rfl, congrArg (fun q : Wave => { q with blocked := w.blocked }) hframe, fun k hk => if_neg hk, fillUni_mod _ _⟩

/-- What a load writes does not depend on whether its wave still waits. -/
theorem LoadWrites.wait {d : LoadDst} {n : Nat} {vs : List (Acc × Nat)} {w w1 : Wave} (h : LoadWrites d n vs w w1) (b : Option Nat) :
    LoadWrites d n vs w { w1 with blocked := b } := by
  obtain ⟨hfill, hrest⟩ := h
  refine ⟨hfill, ?_⟩
  split_ifs at hrest ⊢
  · obtain ⟨⟨hframe, hkept⟩, hval⟩ := hrest
    exact ⟨⟨congrArg (fun q : Wave => { q with blocked := b }) hframe, hkept⟩, hval⟩
  · exact hrest

/-! ### The completion (R48, R184, R194) -/

/-- The wait of a wave for an operation is over. -/
def endWait (f : Flight) (w : Wave) : Wave := if w.blocked == some f.id then { w with blocked := none } else w

theorem endWait_eq (f : Flight) (w : Wave) : endWait f w = { w with blocked := (endWait f w).blocked } := by
  unfold endWait; split <;> rfl

theorem endWait_unblocked (f : Flight) (w : Wave) : { endWait f w with blocked := none } = { w with blocked := none } := by
  unfold endWait; split <;> rfl

@[simp] theorem endWait_uid (f : Flight) (w : Wave) : (endWait f w).uid = w.uid := by unfold endWait; split <;> rfl

theorem endFlight_waves (s : State) (f : Flight) : (endFlight s f).waves = s.waves.map (endWait f) := by
  unfold endFlight completeFlight
  cases f.cls <;> rfl

/-- Without an acquire no lazy release is met (R224). -/
theorem afterLazy_plain (s : State) (f : Flight) (rs : List (Nat × Nat)) (k : Out) : afterLazy s rs (acqMeets f none) k = k := by
  simp [afterLazy, lazyHit, acqMeets]

@[simp] theorem wrUniKey_uid (w : Wave) (t : Ty) (key x : Nat) : (wrUniKey w t key x).uid = w.uid := by
  unfold wrUniKey wrBank
  split <;> rfl

@[simp] theorem writeLoad_uid (d : LoadDst) (vs : List (Nat × Nat)) (w : Wave) : (writeLoad w d vs).uid = w.uid := by
  unfold writeLoad
  induction vs generalizing w with
  | nil => rfl
  | cons v r ih =>
    rw [List.foldl_cons, ih]
    split
    · exact wrVec_uid _ _ _ _ _
    · exact wrUniKey_uid _ _ _ _

/-- Waves that an update leaves their numbers are found by them. -/
theorem findWave_map {s t : State} {g : Wave → Wave} (ht : t.waves = s.waves.map g) (hg : ∀ x, (g x).uid = x.uid) (u : Nat) :
    findWave t u = (findWave s u).map g := by
  rw [findWave, findWave, ht, List.find?_map]
  simp [hg]

section
variable {s : State} {fid n : Nat} {f : Flight} {d : LoadDst} {as : List Acc} {w : Wave} {vs : List (Acc × Nat)}

/-- A load whose reads meet no poison writes the registers of its wave, of a wave without forks. -/
theorem performLoad_plain (hsh : shadowsOf s f.who.uid (fun _ _ => true) = [])
    (hread : (readAll s f.who false n as).2 = (laneReads vs, [])) :
    performLoad s f d n as none =
      updHolder (readAll s f.who false n as).1 d.uid (fun w => writeLoad w d (laneReads vs)) := by
  have hsh' : shadowsOf (readAll s f.who false n as).1 f.who.uid (fun _ _ => true) = [] := by
    rwa [shadowsOf, (onlyCaches_readAll _ _ _ _ _).waves]
  have hhome : acqHome none = false := rfl
  simp only [performLoad, hhome, hread, squashWhere_none hsh', poisonLanes, ite_self]

/-- A load that nothing keeps waiting is performed and ends. -/
theorem exec_loadCompletion (hin : InFlight s fid f) (hact : f.act = .load d n as none)
    (hturn : (f.vis.isNone && pathBusy s f.who.uid f.id (actAccs f.act)) = false) (hwait : ∀ a ∈ as, weightWaits s f.who false a = false) :
    exec (.loadCompletion fid) s = .next (endFlight (performLoad s f d n as none) f) := by
  have hany : as.any (weightWaits s f.who false) = false := by simpa using hwait
  have hrun : exec (.loadCompletion fid) s = execLoadCompletion fid s := rfl
  rw [hrun, execLoadCompletion, findFlight_some hin, hact]
  rw [hact] at hturn
  simp only [pathTurn, hact, hturn, hany, afterLazy_plain, acqHome, Bool.false_and, Bool.or_false, Bool.false_eq_true, if_false]

/-- The state a load leaves: memory as it was, its wave with what it writes, the others as they were but for waits that are over. -/
theorem load_completes (hin : InFlight s fid f) (hact : f.act = .load d n as none) (hw : findWave s d.uid = some w)
    (hsh : shadowsOf s f.who.uid (fun _ _ => true) = []) (hwait : ∀ a ∈ as, weightWaits s f.who false a = false)
    (hturn : (f.vis.isNone && pathBusy s f.who.uid f.id (actAccs f.act)) = false)
    (hread : (readAll s f.who false n as).2 = (laneReads vs, []))
    (hwrites : LoadWrites d n vs w (writeLoad w d (laneReads vs))) :
    Answers (.loadCompletion fid) s (fun t =>
      SameMemory s t ∧ t.hostMem = s.hostMem ∧ ∃ w1, findWave t d.uid = some w1 ∧ OthersKeep s t d.uid ∧ LoadWrites d n vs w w1) := by
  refine ⟨_, exec_loadCompletion hin hact hturn hwait, ?_⟩
  rw [performLoad_plain hsh hread]
  generalize (readAll s f.who false n as).1 = r, onlyCaches_readAll f.who false n as s = hcaches
  generalize laneReads vs = xs at hwrites
  have hmem : KeepsMem s (endFlight (updHolder r d.uid (fun w => writeLoad w d xs)) f) :=
    KeepsMem.trans (b := updHolder r d.uid _) ⟨hcaches.mem, hcaches.hostMem⟩ (keepsMem_endFlight _ f)
  let g (x : Wave) : Wave := endWait f (if x.uid == d.uid then writeLoad x d xs else x)
  have hfind (u : Nat) : findWave (endFlight (updHolder r d.uid (fun w => writeLoad w d xs)) f) u = (findWave s u).map g := by
    refine findWave_map ?_ (fun x => ?_) u
    · rw [endFlight_waves, updHolder, hcaches.waves, List.map_map]
      rfl
    · simp only [g, endWait_uid]
      split <;> simp
  refine ⟨fun a => by rw [hmem.1], hmem.2, g w, by rw [hfind, hw]; rfl, fun u hu => ?_, ?_⟩
  · rw [hfind]
    cases hx : findWave s u with
    | none => rfl
    | some x =>
      have hne : (x.uid == d.uid) = false := by rw [findWave_uid hx]; simpa using hu
      simp only [Option.map_some, g, hne, Bool.false_eq_true, if_false, endWait_unblocked]
  · simp only [g, findWave_uid hw, beq_self_eq_true, if_true]
    rw [endWait_eq]
    exact hwrites.wait _

end

/-! ### The statement of O11 -/

/-- The registers of a load's lanes take what the lanes have read, on the vector side or on the drill. -/
theorem loadWrites_writeLoad {d : LoadDst} {vs : List (Acc × Nat)} (hreg : d.reg + (if d.ty.is64 then 1 else 0) < 256)
    (hnd : d.vec = true → (vs.map (fun v => v.1.lane)).Nodup) (hone : d.vec = false → vs.length = 1) (n : Nat) (w : Wave) :
    LoadWrites d n vs w (writeLoad w d (laneReads vs)) := by
  cases hvec : d.vec with
  | true => exact loadWrites_vec hvec hreg (hnd hvec) w
  | false =>
    obtain ⟨v, rfl⟩ := List.length_eq_one_iff.1 (hone hvec)
    exact loadWrites_uni hvec n v w

theorem cachedReads_accs (who : Who) (n : Nat) (as : List Acc) (s : State) : (cachedReads who n as s).map (fun v => v.1) = as := by
  induction as generalizing s with
  | nil => rfl
  | cons a r ih => simp [cachedReads, ih]

/-- Settles O11: the lanes read what stands at their places, or what the core's L1 gives, and the load ends with those values written. -/
theorem loadCompletionWritesRegisters : Obligations.LoadCompletionWritesRegisters := by
  unfold Obligations.LoadCompletionWritesRegisters
  intro s fid n f d as w hin hact hw hsh hreg hwait hnd hone writes
  refine ⟨fun ⟨hturn, hseen, hrel⟩ hplain => ?plain, fun hturn hcached hgood => ?cached⟩
  case plain =>
    have hstill : StillThere s s f.who :=
      ⟨.refl s, hrel, fun g hg hdie hcore hvis m xs hstore => by rw [hseen g hg hdie hcore hvis, hact] at hstore; cases hstore⟩
    refine load_completes hin hact hw hsh hwait hturn (readAll_plain as s hstill hplain) (loadWrites_writeLoad hreg ?_ ?_ n w)
    · simpa [Function.comp_def] using hnd
    · simpa using hone
  case cached =>
    have haccs : (cachedReads f.who n as s).map (fun v => v.1) = as := cachedReads_accs _ _ _ _
    refine load_completes hin hact hw hsh hwait hturn (readAll_cached as s hcached hgood) (loadWrites_writeLoad hreg ?_ ?_ n w)
    · rw [← haccs] at hnd
      simpa [Function.comp_def] using hnd
    · rw [← haccs] at hone
      simpa using hone

end Sys2Proof.Machine
end

section
/-!
PROOFS. Control of a gang: the loop stack and the uniform control instructions (O23), and `brv` (O24). First where an instruction that moves the
current gang leaves its slices, and what becomes of lanes when parked parts join a running one.
-/
namespace Sys2Proof.Machine

/-! ### Targets and the loop stack (R105, R117, R118) -/

/-- A direct branch goes to its own address plus four times the signed offset. -/
theorem target_eq (w : Wave) {n : Nat} (off : BitVec n) : target w off = BitVec.ofInt 64 ((gpc w).toNat + 4 * off.toInt) := by
  have hoff : (off.signExtend 64) <<< 2 = BitVec.ofInt 64 (4 * off.toInt) := by
    rw [BitVec.shiftLeft_eq_mul_twoPow, BitVec.signExtend, Int.mul_comm, BitVec.ofInt_mul]
    rfl
  rw [target, hoff, BitVec.ofInt_add, BitVec.ofInt_natCast, BitVec.ofNat_toNat, BitVec.setWidth_eq]

theorem length_popLoops_le (t : W64) (ls : List LoopEnt) : (popLoops t ls).length ≤ ls.length := by
  induction ls with
  | nil => simp [popLoops]
  | cons l r ih =>
    unfold popLoops
    split
    · exact le_rfl
    · exact Nat.le_succ_of_le ih

/-! ### Instructions that move the current gang (R107, R108, R116) -/

theorem SameRegs.sameButPaths {w w' : Wave} (h : SameRegs w w') : SameButPaths w w' := by
  unfold SameRegs at h
  unfold SameButPaths
  rw [← h]

theorem updSlices_updSlices (w : Wave) (g : List Nat) (f h : Slice → Slice) :
    updSlices (updSlices w g f) g h = updSlices w g (fun sl => h (f sl)) := by
  simp only [updSlices, List.mapIdx_mapIdx]
  congr 2
  funext i sl
  dsimp only [Function.comp]
  split <;> rfl

section
variable {s : State} {i : Instr} {w : Wave} {ls : List Nat} (hi : Issues s i w ls)
include hi

/-- An instruction that moves the running parts of the current gang, with the issue boundary behind it, does nothing else. -/
theorem walks_settle {f : Part → Part} (hf : ∀ p, (f p).lanes = p.lanes)
    (he : exec i s = .next (putWave s (settle (updSlices w (gang w) (fun sl => { sl with run := f sl.run }))))) : Walks i s w f :=
  have hregs := (sameRegs_updSlices w (gang w) (fun sl => { sl with run := f sl.run })).trans (sameRegs_settle _)
  ⟨_, he, onlyWave_putWave (curWave_found hi.1).2 hregs.uid, hregs.sameButPaths, moves_settle_updSlices w hf⟩

theorem walks_goTo {t : W64} (he : exec i s = .next (putWave s (goTo w t))) : Walks i s w (partTo t) := walks_settle hi (fun _ => rfl) he

theorem walks_finish (he : exec i s = finish s w) : Walks i s w (partSeq w.npc) := walks_settle hi (fun _ => rfl) he

/-- The same, when the instruction has changed the running parts before it goes on. -/
theorem walks_finish_updSlices {f : Part → Part} (hf : ∀ p, (f p).lanes = p.lanes)
    (he : exec i s = finish s (updSlices w (gang w) (fun sl => { sl with run := f sl.run }))) :
    Walks i s w (fun p => partSeq w.npc (f p)) := by
  refine walks_settle hi hf (he.trans ?_)
  rw [finish, goSeq, gang_updSlices, updSlices_updSlices]
  rfl

end

section
variable {s : State} {w : Wave} {ls : List Nat} {g : Guard}

theorem exec_br {n : Bool} {q : Nat} {off : BitVec 24} (hi : Issues s (.br g n q off) w ls) :
    exec (.br g n q off) s = if rdQ w q = n then finish s w else .next (putWave s (goTo w (target w off))) := by
  change execBr g n q off s = _
  rw [execBr, runInstr_issues hi]
  by_cases hq : rdQ w q = n <;> simp [hq]

theorem exec_jmp {off : BitVec 24} (hi : Issues s (.jmp g off) w ls) :
    exec (.jmp g off) s = .next (putWave s (goTo w (target w off))) := by
  change execJmp g off s = _
  rw [execJmp, runInstr_issues hi]

/-- A call with room on the return stack pushes an entry without a mark and branches without popping loop entries (R108, R118). -/
theorem exec_call {off : BitVec 24} (hi : Issues s (.call g off) w ls) (hroom : (gangPart w (gang w)).rets.length < 8) :
    exec (.call g off) s = .next (putWave s (jumpTo (pushRet w none) (target w off))) := by
  have hfull : retsFull w = false := by simpa [retsFull] using hroom
  change execCall g off s = _
  rw [execCall, runInstr_issues hi, hfull]
  rfl

/-- A wave without forks has none that a return of it could end (R134). -/
theorem endingSlices_none (h : shadowsOf s w.uid (fun _ _ => true) = []) : endingSlices s w = [] := by
  have hgroups : endingGroups s w = [] := by
    rw [endingGroups, List.filterMap_eq_nil_iff]
    rw [shadowsOf, List.filter_eq_nil_iff] at h
    intro x hx
    have hx := h x hx
    cases hf : x.fork with
    | none => rfl
    | some f =>
      have hhome : (f.home == w.uid) = false := by simpa [hf] using hx
      simp [endsFork, hhome]
  simp [endingSlices, hgroups]

/-- A return in a wave without forks pops an entry that a plain call has pushed (R108). -/
theorem exec_ret {e : RetEnt} {r : List RetEnt} (hi : Issues s (.ret g) w ls) (hn : NoForks s w)
    (hrets : (gangPart w (gang w)).rets = e :: r) (hfc : e.fc = none) :
    exec (.ret g) s = .next (putWave s (settle (updSlices w (gang w) (fun sl => { sl with run := popRet sl.run })))) := by
  have hsquash : squashParked s w = s := squashWhere_none hn.2 _
  change execRet g s = _
  rw [execRet, runInstr_issues hi]
  simp [hrets, hsquash, (curWave_found hi.1).2, endingSlices_none hn.2, plainRet, hfc]

theorem popRet_lanes (p : Part) : (popRet p).lanes = p.lanes := by
  unfold popRet
  split <;> rfl

/-- Trips of a `loop`, and the end of its body (R116). -/
def loopTrips (w : Wave) (imm : Bool) (n : Nat) : W64 := if imm then BitVec.ofNat 64 n else rdS w n
def loopStop (w : Wave) (off : Nat) : W64 := gpc w + BitVec.ofNat 64 (4 * off)

section
variable {imm : Bool} {n off : Nat} (hi : Issues s (.loop g imm n off) w ls)
include hi

theorem exec_loop_skip (ht : loopTrips w imm n = 0) :
    exec (.loop g imm n off) s = finish s { w with npc := loopStop w off } := by
  change execLoop g imm n off s = _
  rw [execLoop, runInstr_issues hi]
  exact if_pos ht

theorem exec_loop_push (ht : loopTrips w imm n ≠ 0) (hroom : (gangPart w (gang w)).loops.length < 4) :
    exec (.loop g imm n off) s = finish s (updSlices w (gang w) (fun sl => { sl with
      run := { sl.run with loops := { start := w.npc, stop := loopStop w off, left := loopTrips w imm n } :: sl.run.loops } })) := by
  change execLoop g imm n off s = _
  rw [execLoop, runInstr_issues hi]
  exact (if_neg ht).trans (if_neg (Nat.not_le.mpr hroom))

end

theorem exec_nop (hi : Issues s (.nop g) w ls) : exec (.nop g) s = finish s w := by
  change execNop g s = _
  rw [execNop, runInstr_issues hi]

theorem exec_fsync (hi : Issues s (.fsync g) w ls) : exec (.fsync g) s = finish s w := by
  change execFsync g s = _
  rw [execFsync, runInstr_issues hi]

/-- The wave when it has noted that it yields (R211). -/
def yieldNoted (s : State) (w : Wave) : Wave :=
  { w with yielding := match w.yielding with
    | some y => if launchRr s w then some y else some (y.1, coreClock s w.die w.core)
    | none => some (coreClock s w.die w.core, coreClock s w.die w.core) }

theorem exec_yield (hi : Issues s (.yield g) w ls) : exec (.yield g) s = finish s (yieldNoted s w) := by
  change execYield g s = _
  rw [execYield, runInstr_issues hi]
  rfl

end

/-! ### The statement of O23 -/

/-- Settles O23: the loop stack case by case, and every instruction as one move of the current gang's running parts. -/
theorem uniformControl : Obligations.UniformControl := by
  unfold Obligations.UniformControl
  refine ⟨fun next t r => ⟨rfl, rfl, ?other, ?trip, ?last, ?stays, ?goes, length_popLoops_le next _⟩,
    fun s w ls g => ⟨?br, ?jmp, ?call, ?ret, ?loop, fun hi => walks_finish hi (exec_nop hi), ?yield, fun hi => walks_finish hi (exec_fsync hi)⟩⟩
  case other => exact fun h => by simp [backEdge, h]
  case trip => exact fun h hl => by rw [backEdge, if_pos h, if_neg (mt sub_eq_zero.mp hl)]
  case last => exact fun h hl => by rw [backEdge, if_pos h, if_pos (sub_eq_zero.mpr hl)]
  case stays => exact fun h => if_pos h
  case goes => exact fun h => if_neg h
  case br =>
    intro n q off hi
    have he := exec_br hi
    rw [← target_eq]
    split at he
    · next hq => rw [if_pos hq]; exact walks_finish hi he
    · next hq => rw [if_neg hq]; exact walks_goTo hi he
  case jmp =>
    intro off hi
    rw [← target_eq]
    exact walks_goTo hi (exec_jmp hi)
  case call =>
    intro off hi hroom
    have he := exec_call hi hroom
    rw [jumpTo, pushRet, gang_updSlices, updSlices_updSlices, target_eq] at he
    exact walks_settle hi (fun _ => rfl) he
  case ret =>
    intro e r hi hn hrets hfc
    exact walks_settle hi popRet_lanes (exec_ret hi hn hrets hfc)
  case loop =>
    intro imm n off hi
    refine ⟨fun ht => ?_, fun ht hroom => walks_finish_updSlices hi (fun _ => rfl) (exec_loop_push hi ht hroom)⟩
    have hregs := sameRegs_goSeq { w with npc := loopStop w off }
    have hnpc : SameButPaths w { w with npc := loopStop w off } := rfl
    exact ⟨_, exec_loop_skip hi ht, onlyWave_putWave (curWave_found hi.1).2 hregs.uid, hnpc.trans hregs.sameButPaths,
      moves_goSeq { w with npc := loopStop w off }⟩
  case yield =>
    intro hi
    exact completes_finish hi (exec_yield hi) rfl ⟨rfl, moves_goSeq (yieldNoted s w)⟩

/-! ### Parked parts that join a running part (R112) -/

theorem mem_unionNat {a : Nat} {xs ys : List Nat} : a ∈ unionNat xs ys ↔ a ∈ xs ∨ a ∈ ys := by
  unfold unionNat
  induction ys generalizing xs with
  | nil => simp
  | cons y r ih =>
    rw [List.foldl_cons, ih, mem_insNat, List.mem_cons]
    tauto

/-- Lanes of parts put together are the lanes of each. -/
theorem mem_foldl_lanes {a : Nat} {xs : List Nat} {ps : List Part} :
    a ∈ ps.foldl (fun ls p => unionNat ls p.lanes) xs ↔ a ∈ xs ∨ ∃ p ∈ ps, a ∈ p.lanes := by
  induction ps generalizing xs with
  | nil => simp
  | cons p r ih =>
    rw [List.foldl_cons, ih, mem_unionNat, List.exists_mem_cons_iff, or_assoc]

theorem samePlace_refl (p : Part) : samePlace p p = true := samePlace_iff.mpr ⟨rfl, rfl, rfl⟩

theorem samePlace_trans {p q r : Part} (h : samePlace p q = true) (g : samePlace q r = true) : samePlace p r = true := by
  rw [samePlace_iff] at *
  obtain ⟨hpc, hloops, hrets⟩ := h
  obtain ⟨hpc', hloops', hrets'⟩ := g
  exact ⟨hpc.trans hpc', hloops.trans hloops', hrets.trans hrets'⟩

/-- When parked parts join the running one, no lane leaves the place where it stands. -/
theorem unite_keeps_lane {sl : Slice} {q : Part} (hq : q ∈ sl.run :: sl.parked) {l : Nat} (hl : l ∈ q.lanes) :
    ∃ r ∈ (unite sl).run :: (unite sl).parked, l ∈ r.lanes ∧ samePlace r q = true := by
  obtain rfl | hq := List.mem_cons.mp hq
  · exact ⟨_, List.mem_cons_self, (unite_run sl).2 l hl, (unite_run sl).1⟩
  · cases hs : samePlace sl.run q with
    | true =>
      have hjoin : l ∈ (unite sl).run.lanes := mem_foldl_lanes.mpr (.inr ⟨q, List.mem_filter.mpr ⟨hq, hs⟩, hl⟩)
      exact ⟨_, List.mem_cons_self, hjoin, samePlace_trans (unite_run sl).1 hs⟩
    | false =>
      have hstay : q ∈ (unite sl).parked := List.mem_filter.mpr ⟨hq, by simp [hs]⟩
      exact ⟨q, List.mem_cons_of_mem _ hstay, hl, samePlace_refl q⟩

/-- A lane of a slice that then unites stands where its part stood. -/
theorem laneAt_of_unite {w : Wave} {i l : Nat} {sl : Slice} {p q : Part} (h : sliceAt w i = unite sl) (hq : q ∈ sl.run :: sl.parked)
    (hl : l ∈ q.lanes) (hp : samePlace q p = true) : LaneAt w i l p := by
  obtain ⟨r, hr, hlr, hrq⟩ := unite_keeps_lane hq hl
  exact ⟨r, by rwa [h], hlr, samePlace_trans hrq hp⟩

/-! ### brv (R111) -/

section
variable (next tgt : W64) (takes : Nat → Bool) {sl : Slice}

/-- A slice whose lanes all take the branch goes to its target whole. -/
theorem brvSlice_taken (h : sl.run.lanes.all takes = true) : brvSlice next tgt takes sl = { sl with run := partTo tgt sl.run } := by
  have hf : sl.run.lanes.filter (fun l => !takes l) = [] := by simpa using h
  simp [brvSlice, hf]

/-- In another slice the lanes that fall through go on; those that take the branch, if any, are parked on top of the others. -/
theorem brvSlice_notTaken (h : sl.run.lanes.all takes = false) :
    (brvSlice next tgt takes sl).run = partSeq next { sl.run with lanes := sl.run.lanes.filter (fun l => !takes l) } ∧
    ((∃ l ∈ sl.run.lanes, takes l = true) → { sl.run with lanes := sl.run.lanes.filter takes, pc := tgt } ∈ (brvSlice next tgt takes sl).parked) ∧
    ∀ q ∈ sl.parked, q ∈ (brvSlice next tgt takes sl).parked := by
  have hf : (sl.run.lanes.filter (fun l => !takes l)).isEmpty = false := by simpa using h
  unfold brvSlice
  simp only [hf, Bool.false_eq_true, if_false]
  split
  · next ht =>
    have hnone : ∀ l ∈ sl.run.lanes, takes l = false := by simpa using ht
    have hall : sl.run.lanes.filter (fun l => !takes l) = sl.run.lanes := List.filter_eq_self.mpr fun l hl => by simp [hnone l hl]
    refine ⟨by rw [hall], ?_, fun q hq => hq⟩
    rintro ⟨l, hl, htl⟩
    exact absurd ((hnone l hl).symm.trans htl) Bool.false_ne_true
  · exact ⟨rfl, fun _ => List.mem_cons_self, fun q hq => List.mem_cons_of_mem _ hq⟩

end

@[simp] theorem sliceAt_splitGang (w : Wave) (gs : List (List Nat)) (i : Nat) : sliceAt (splitGang w gs) i = sliceAt w i := rfl

theorem sliceAt_brvWave {w : Wave} {i : Nat} (hl : i < w.slices.length) (hg : i ∈ gang w) (takes : Nat → Bool) (tgt : W64) :
    sliceAt (brvWave w takes tgt) i = unite (brvSlice w.npc tgt takes (sliceAt w i)) := by
  rw [brvWave, sliceAt_mergeGangs, sliceAt_splitGang]
  exact sliceAt_updSlices_mem _ hl hg

theorem sameButPaths_mergeGangs (w : Wave) : SameButPaths w (mergeGangs w) := (sameRegs_mergeGangs w).sameButPaths

theorem sameButPaths_brvWave (w : Wave) (takes : Nat → Bool) (tgt : W64) : SameButPaths w (brvWave w takes tgt) :=
  SameButPaths.trans (b := splitGang (updSlices w (gang w) fun sl => unite (brvSlice w.npc tgt takes sl)) _) rfl (sameButPaths_mergeGangs _)

theorem exec_brv {s : State} {w : Wave} {ls : List Nat} {g : Guard} {n : Bool} {k : Nat} {off : BitVec 24}
    (hi : Issues s (.brv g n k off) w ls) : exec (.brv g n k off) s =
      .next (putWave s (brvWave w (fun l => ls.contains l && (rdK w k l != n)) (target w off))) := by
  change execBrv g n k off s = _
  rw [execBrv, runInstr_issues hi]

/-- Settles O24: slice by slice the lanes go as `brvSlice` sends them, and parts that unite leave no lane elsewhere. -/
theorem vectorBranchSendsLanes : Obligations.VectorBranchSendsLanes := by
  unfold Obligations.VectorBranchSendsLanes
  intro s w ls g n k off hi
  refine repaths_putWave (curWave_found hi.1).2 (exec_brv hi) (sameButPaths_brvWave w _ _) fun i hlen hg => ?_
  rw [← target_eq]
  intro p takes tgt
  have hslice := sliceAt_brvWave hlen hg takes tgt
  have hrun := (unite_run (brvSlice w.npc tgt takes (sliceAt w i))).1
  rw [← hslice] at hrun
  cases hall : p.lanes.all takes with
  | true =>
    have hb := brvSlice_taken w.npc tgt takes hall
    rw [hb] at hslice hrun
    refine ⟨fun l hl => ?_, fun q hq l hl => laneAt_of_unite hslice (List.mem_cons_of_mem _ hq) hl (samePlace_refl q), hrun⟩
    rw [if_pos (List.all_eq_true.mp hall l hl)]
    exact laneAt_of_unite hslice List.mem_cons_self hl (samePlace_refl _)
  | false =>
    obtain ⟨hfalls, htaken, hparked⟩ := brvSlice_notTaken w.npc tgt takes hall
    rw [hfalls] at hrun
    refine ⟨fun l hl => ?_, fun q hq l hl => laneAt_of_unite hslice (List.mem_cons_of_mem _ (hparked q hq)) hl (samePlace_refl q), hrun⟩
    cases htl : takes l with
    | true =>
      exact laneAt_of_unite hslice (List.mem_cons_of_mem _ (htaken ⟨l, hl, htl⟩)) (List.mem_filter.mpr ⟨hl, htl⟩) (samePlace_refl _)
    | false =>
      refine laneAt_of_unite hslice List.mem_cons_self ?_ (by rw [hfalls]; exact samePlace_refl _)
      rw [hfalls]
      exact List.mem_filter.mpr ⟨hl, by simp [htl]⟩

end Sys2Proof.Machine
end

section
/-!
PROOFS. `bri` in a continuation (O25): it stops before a table on a weight page, where the statement lets it branch.
-/
namespace Sys2Proof.Machine

/-! ### A continuation stops before its table (R132) -/

/-- A `bri` whose first read is barred to the continuation that executes it has no effect but to stop it. -/
theorem exec_bri_stops {s : State} {w : Wave} {ls : List Nat} {g : Guard} {vec : Bool} {a b : Nat} {h : Acc}
    (hi : Issues s (.bri g vec a b) w ls) (hal : (rdS w a).toNat % 8 = 0) (hacc : tableAcc s w (ls.headD 0) (rdS w a) = .ok h)
    (hstop : tableStops w [h] = true) : exec (.bri g vec a b) s = .next (stopShadow s w) := by
  change execBri g vec a b s = _
  rw [execBri, runInstr_issues hi]
  simp only [briOut, hal, hacc, hstop, ne_eq, not_true_eq_false, if_false, if_true, Option.getD_some]

theorem SameButPaths.fork {w w' : Wave} (h : SameButPaths w w') : w'.fork = w.fork := by
  unfold SameButPaths at h
  rw [← h]

/-! ### A table in the weight store -/

/-- `bri s5, s6`. -/
def uniformBri : Instr := .bri { neg := false, pred := 0 } false 5 6

/-- A table of one entry: its count, and the address of its only target. -/
def putTable (m : Mem) (pa target : Nat) : Mem := memPutNat (memPutNat m pa 8 1) (pa + 16) 8 target

/-- Page tables with a readable leaf of type weight for the second GiB, and the table there, in the second bank. -/
def weightTableMem (m : Mem) : Mem := putTable (memPutNat m (placedTable + 8) 8 (wsBase + 0x47)) (wsBase + 0x100) 0x40100

/-- The placed wave with the table's address in s5; index 0 stands in s6. -/
def tableHome : Wave := wrS placedWave 5 0x40000100

/-- The continuation of a fork of that wave, at a `bri`. -/
def tableShadow : Wave :=
  openShadow (placeProgram State.reset (encode uniformBri)) tableHome 0 { pc := gpc tableHome, rc := 0, rva := 0, rvb := 0 } 1

/-- Home and continuation, whose turn it is. -/
def weightTable : State :=
  { placeProgram State.reset (encode uniformBri) with
    turn := .wave tableShadow.uid, waves := [tableHome, tableShadow], mem := weightTableMem (placedMem [] (encode uniformBri)) }

theorem issues_uniformBri : Issues weightTable uniformBri tableShadow (List.range 32) := by
  refine ⟨?_, ?_, ?_, ?_⟩ <;> decide +kernel

/-- The accesses to the table's first word and to its entry. -/
def countAcc : Acc := { lane := 0, loc := .mem (wsBase + 0x100), va := 0x40000100, page := { pageNormal with ptype := .weight } }
def targetAcc : Acc := { lane := uniLane, loc := .mem (wsBase + 0x110), va := 0x40000110, page := { pageNormal with ptype := .weight } }

theorem tableAcc_weightTable : tableAcc weightTable tableShadow 0 (rdS tableShadow 5) = .ok countAcc := by decide +kernel

/-- Reads that do not wait and meet no poison are made at once, with the state they leave. -/
theorem tableReads_of {s : State} {w : Wave} {head : Bool} {as : List Acc} {vs : List (Nat × Nat)} (hw : tableWaits s w as = false)
    (hv : (tableRead s w head as).2 = (vs, [])) : TableReads s w head as (tableRead s w head as).1 vs :=
  ⟨hw, Prod.ext rfl hv⟩

/-- The state that the read of the count leaves. -/
def countRead : State := (tableRead weightTable tableShadow true [countAcc]).1

theorem tableReads_count : TableReads weightTable tableShadow true [countAcc] countRead [(0, 1)] :=
  tableReads_of (by decide +kernel) (by decide +kernel)

theorem tableReads_target : TableReads countRead tableShadow false [targetAcc]
    (tableRead countRead tableShadow false [targetAcc]).1 [(uniLane, 0x40100)] :=
  tableReads_of (by decide +kernel) (by decide +kernel)

theorem gather_targetAcc :
    gather (fun l => entryAcc countRead tableShadow (rdS tableShadow 5) 1 l ((rdS tableShadow 6).toNat % 2 ^ 32)) [uniLane] = .ok [targetAcc] := by
  decide +kernel

theorem findWave_stopShadow : findWave (stopShadow weightTable tableShadow) tableShadow.uid =
    some { tableShadow with fork := tableShadow.fork.map (fun f => { f with stopped := true }) } :=
  findWave_putWave_same (w := { tableShadow with fork := tableShadow.fork.map (fun f => { f with stopped := true }) })
    (curWave_found issues_uniformBri.1).2

/-- Refutes O25: its clauses of a `bri` that branches do not leave out a continuation whose table lies on a weight page, which stops before the
instruction (R132). With such a table of one entry, read without a wait and without poison, the model moves no lane and notes the stop. -/
theorem not_indirectBranchSendsLanes : ¬ Obligations.IndirectBranchSendsLanes := by
  unfold Obligations.IndirectBranchSendsLanes
  intro h
  obtain ⟨-, hbranch⟩ := h weightTable countRead (tableRead countRead tableShadow false [targetAcc]).1 tableShadow (List.range 32)
    { neg := false, pred := 0 } 5 6 countAcc (0, 1) [targetAcc] [(uniLane, 0x40100)] (by decide +kernel) tableAcc_weightTable
  obtain ⟨-, huniform⟩ := hbranch tableReads_count tableReads_target
  obtain ⟨t, he, -, w', ⟨hfound, -⟩, hpaths, -⟩ := huniform { lane := uniLane, rank := 1, tgt := 0x40100 } issues_uniformBri gather_targetAcc
    (by decide +kernel)
  have hstop : exec uniformBri weightTable = .next (stopShadow weightTable tableShadow) :=
    exec_bri_stops issues_uniformBri (by decide +kernel) tableAcc_weightTable (by decide +kernel)
  obtain rfl : stopShadow weightTable tableShadow = t := Host.Outcome.next.inj (hstop.symm.trans he)
  obtain rfl := Option.some.inj (findWave_stopShadow.symm.trans hfound)
  have hstopped : tableShadow.fork.map (fun f => { f with stopped := true }) = tableShadow.fork := hpaths.fork
  exact absurd hstopped (by decide +kernel)

end Sys2Proof.Machine
end

section
/-!
PROOFS. Forkable calls (O28): the call and the continuation it opens, what a squash and a commit leave, and what a load of the callee does to the
continuation's registers and reads.
-/
namespace Sys2Proof.Machine

/-! ### The call (R121 to R124) -/

/-- The mark that `fcall` leaves on the return stack. -/
def callMark (w : Wave) (rc rva rvb : Nat) : FcMark := { pc := gpc w, rc := rc, rva := rva, rvb := rvb }

/-- Where a running part stands once it has been called (R108, R118). -/
def calledPart (w : Wave) (m : FcMark) (off : BitVec 21) (p : Part) : Part :=
  { p with pc := BitVec.ofInt 64 ((gpc w).toNat + 4 * off.toInt), rets := { addr := w.npc, depth := p.loops.length, fc := some m } :: p.rets }

/-- The wave after the call. -/
def calledWave (w : Wave) (m : FcMark) (off : BitVec 21) : Wave := jumpTo (pushRet w (some m)) (target w off)

theorem calledWave_eq (w : Wave) (m : FcMark) (off : BitVec 21) :
    calledWave w m off = settle (updSlices w (gang w) (fun sl => { sl with run := calledPart w m off sl.run })) := by
  rw [calledWave, jumpTo, pushRet, gang_updSlices, updSlices_updSlices, target_eq]
  rfl

theorem sameRegs_calledWave (w : Wave) (m : FcMark) (off : BitVec 21) : SameRegs w (calledWave w m off) := by
  rw [calledWave_eq]
  exact (sameRegs_updSlices w _ _).trans (sameRegs_settle _)

theorem moves_calledWave (w : Wave) (m : FcMark) (off : BitVec 21) : Moves w (calledWave w m off) (calledPart w m off) := by
  rw [calledWave_eq]
  exact moves_settle_updSlices w fun _ => rfl

section
variable {s : State} {w : Wave} {ls : List Nat} {g : Guard} {off : BitVec 21} {lv : W32} {rc rva rvb : Nat}
  (hi : Issues s (.fcall g off lv rc rva rvb) w ls) (hroom : (gangPart w (gang w)).rets.length < 8)
include hi

/-- The return registers that an `fcall` names are registers (R122). -/
theorem retRegs_lt_of_issues {n : Nat} (hn : n ∈ retRegs (callMark w rc rva rvb)) : n < 256 := by
  have hwf : (Instr.fcall g off lv rc rva rvb).wf = true := by
    have hlegal := hi.2.1
    simp only [legal, Bool.and_eq_true] at hlegal
    tauto
  have hregs : rva < 256 ∧ rvb < 256 := by
    simp [Instr.wf, Instr.spec, Instr.copOk] at hwf
    tauto
  unfold retRegs callMark at hn
  split_ifs at hn <;> simp at hn <;> omega

include hroom

/-- Without room for a continuation, or the conditions of one, `fcall` is a call and nothing else. -/
theorem exec_fcall_calls
    (hno : freeCtx s w.die w.core (w.wctx / 16) = none ∨ forkOk s w lv (callMark w rc rva rvb) = false) :
    exec (.fcall g off lv rc rva rvb) s = .next (putWave s (calledWave w (callMark w rc rva rvb) off)) := by
  have hfull : retsFull w = false := by simpa [retsFull] using hroom
  change execFcall g off lv rc rva rvb s = _
  rw [execFcall, runInstr_issues hi]
  simp only [hfull, Bool.false_eq_true, if_false]
  cases hctx : freeCtx s w.die w.core (w.wctx / 16) with
  | none => rfl
  | some ctx =>
    have hok : forkOk s w lv (callMark w rc rva rvb) = false := by simpa [hctx] using hno
    simp only [callMark] at hok
    simp [hok, calledWave, callMark]

/-- With both, the continuation joins the resident waves besides. -/
theorem exec_fcall_forks {ctx : Nat} (hctx : freeCtx s w.die w.core (w.wctx / 16) = some ctx)
    (hok : forkOk s w lv (callMark w rc rva rvb) = true) :
    exec (.fcall g off lv rc rva rvb) s = .next { putWave s (calledWave w (callMark w rc rva rvb) off) with
      waves := (putWave s (calledWave w (callMark w rc rva rvb) off)).waves ++ [openShadow s w lv (callMark w rc rva rvb) ctx]
      nextUid := s.nextUid + 1 } := by
  have hfull : retsFull w = false := by simpa [retsFull] using hroom
  simp only [callMark] at hok
  change execFcall g off lv rc rva rvb s = _
  rw [execFcall, runInstr_issues hi]
  simp only [hfull, hctx, hok, Bool.false_eq_true, Bool.not_true, if_false]
  rfl

end

/-! ### The continuation (R126 to R128) -/

/-- What stands at a key stays where a filter keeps the key. -/
theorem stGet_filter {α : Type} (d : α) {p : Nat → Bool} {k : Nat} (h : p k = true) (m : Store α) :
    stGet d k (m.filter (fun e => p e.1)) = stGet d k m := by
  induction m with
  | nil => rfl
  | cons e r ih =>
    obtain ⟨a, x⟩ := e
    by_cases hk : k = a
    · subst hk
      simp [h, stGet]
    · by_cases hp : p a = true <;> simp [hp, stGet, hk, ih]

/-- A wave with predicted values in the lanes of some slices: register, base and stride of each. -/
def predicted (sls : List Nat) (ps : List (Nat × W32 × W32)) (x : Wave) : Wave :=
  ps.foldl (fun x p => (sliceLanes sls).foldl (fun y l => wrV y l p.1 (p.2.1 + p.2.2 * BitVec.ofNat 32 l)) x) x

theorem predicted_frame (sls : List Nat) (ps : List (Nat × W32 × W32)) (x : Wave) : { predicted sls ps x with v := x.v } = x := by
  refine List.foldlRecOn (motive := fun y : Wave => { y with v := x.v } = x) ps _ rfl fun y hy p _ => ?_
  exact List.foldlRecOn (motive := fun y : Wave => { y with v := x.v } = x) (sliceLanes sls) _ hy fun z hz l _ => hz

@[simp] theorem predicted_uid (sls : List Nat) (ps : List (Nat × W32 × W32)) (x : Wave) : (predicted sls ps x).uid = x.uid :=
  (congrArg Wave.uid (predicted_frame sls ps x) :)
@[simp] theorem predicted_fork (sls : List Nat) (ps : List (Nat × W32 × W32)) (x : Wave) : (predicted sls ps x).fork = x.fork :=
  (congrArg Wave.fork (predicted_frame sls ps x) :)
@[simp] theorem predicted_slices (sls : List Nat) (ps : List (Nat × W32 × W32)) (x : Wave) : (predicted sls ps x).slices = x.slices :=
  (congrArg Wave.slices (predicted_frame sls ps x) :)

/-- Predictions leave the registers that they do not name. -/
theorem rdV_predicted_other {sls : List Nat} {ps : List (Nat × W32 × W32)} {n : Nat} (hn : n < 256) (hps : ∀ p ∈ ps, p.1 < 256 ∧ p.1 ≠ n)
    (x : Wave) (l : Nat) : rdV (predicted sls ps x) l n = rdV x l n := by
  refine List.foldlRecOn (motive := fun y => rdV y l n = rdV x l n) ps _ rfl fun y hy p hp => ?_
  refine List.foldlRecOn (motive := fun y => rdV y l n = rdV x l n) (sliceLanes sls) _ hy fun z hz k _ => ?_
  obtain ⟨hlt, hne⟩ := hps p hp
  rw [rdV_wrV, if_neg (by omega), hz]

theorem predictions_reg {s : State} {w : Wave} {m : FcMark} {p : Nat × W32 × W32} (hp : p ∈ predictions s w m) : p.1 ∈ retRegs m := by
  obtain ⟨i, hi, rfl⟩ := List.mem_mapIdx.mp hp
  split <;> exact List.getElem_mem hi

/-- The continuation is a copy of the wave with the predictions in it: its gang stands behind the call, and of the registers it has those of LIVE
groups (R124, R127, R128). -/
theorem openShadow_eq (s : State) (w : Wave) (lv : W32) (m : FcMark) (ctx : Nat) :
    ∃ base, openShadow s w lv m ctx = predicted (gang w) (predictions s w m) base ∧ base.uid = s.nextUid ∧
      (∃ f, base.fork = some f ∧ f.home = w.uid ∧ f.slices = gang w) ∧
      base.slices = w.slices.mapIdx (fun i sl =>
        if (gang w).contains i then { sl with run := { sl.run with pc := w.npc } } else sliceDead) ∧
      base.v = w.v.filter (fun x => (gang w).contains (x.1 / 256 / 4) && lv.getLsbD (x.1 % 256 / 8)) :=
  ⟨_, rfl, rfl, ⟨_, rfl, rfl, rfl⟩, rfl, rfl⟩

theorem openShadow_uid (s : State) (w : Wave) (lv : W32) (m : FcMark) (ctx : Nat) : (openShadow s w lv m ctx).uid = s.nextUid := by
  obtain ⟨base, he, huid, -⟩ := openShadow_eq s w lv m ctx
  rw [he, predicted_uid, huid]

theorem openShadow_fork (s : State) (w : Wave) (lv : W32) (m : FcMark) (ctx : Nat) :
    ∃ f, (openShadow s w lv m ctx).fork = some f ∧ f.home = w.uid ∧ f.slices = gang w := by
  obtain ⟨base, he, -, hfork, -⟩ := openShadow_eq s w lv m ctx
  rwa [he, predicted_fork]

theorem sliceAt_openShadow (s : State) {w : Wave} (lv : W32) (m : FcMark) (ctx : Nat) {j : Nat} (hg : j ∈ gang w) (hl : j < w.slices.length) :
    (sliceAt (openShadow s w lv m ctx) j).run = { (sliceAt w j).run with pc := w.npc } := by
  obtain ⟨base, he, -, -, hslices, -⟩ := openShadow_eq s w lv m ctx
  simp [he, sliceAt, hslices, List.getD_eq_getElem?_getD, hl, hg]

/-- A register of a LIVE group is copied, unless it is predicted. -/
theorem rdV_openShadow (s : State) {w : Wave} {lv : W32} {m : FcMark} (ctx : Nat) {l n : Nat} (hl : l / 4 ∈ gang w) (hn : n < 256)
    (hlive : lv.getLsbD (n / 8) = true) (hm : ∀ r ∈ retRegs m, r < 256) (hret : n ∉ retRegs m) :
    rdV (openShadow s w lv m ctx) l n = rdV w l n := by
  obtain ⟨base, he, -, -, -, hv⟩ := openShadow_eq s w lv m ctx
  have hps : ∀ p ∈ predictions s w m, p.1 < 256 ∧ p.1 ≠ n := fun p hp =>
    ⟨hm _ (predictions_reg hp), fun h => hret (h ▸ predictions_reg hp)⟩
  have hlane : (256 * l + n) / 256 = l := by omega
  have hreg : (256 * l + n) % 256 = n := by omega
  rw [he, rdV_predicted_other hn hps, rdV, hv]
  exact stGet_filter 0 (p := fun k => (gang w).contains (k / 256 / 4) && lv.getLsbD (k % 256 / 8))
    (by rw [hlane, hreg]; simp [hl, hlive]) w.v

/-- What a call that forks leaves: its wave at the callee, and a continuation behind the call with the registers it was given. -/
theorem fcall_forks {s : State} {w : Wave} {ls : List Nat} {g : Guard} {off : BitVec 21} {lv : W32} {rc rva rvb : Nat}
    (hi : Issues s (.fcall g off lv rc rva rvb) w ls) (hroom : (gangPart w (gang w)).rets.length < 8)
    (hctx : (freeCtx s w.die w.core (w.wctx / 16)).isSome = true) (hok : forkOk s w lv (callMark w rc rva rvb) = true) :
    Answers (.fcall g off lv rc rva rvb) s (fun t => { t with waves := s.waves, nextUid := s.nextUid } = s ∧
      (∃ w', findWave t w.uid = some w' ∧ SameButPaths w w' ∧ Moves w w' (calledPart w (callMark w rc rva rvb) off)) ∧
      ∃ x ∈ t.waves, x.uid = s.nextUid ∧ ∃ f, x.fork = some f ∧ f.home = w.uid ∧ f.slices = gang w ∧
        (∀ j ∈ gang w, j < w.slices.length → (sliceAt x j).run.pc = w.npc ∧ (sliceAt x j).run.rets = (sliceAt w j).run.rets) ∧
        ∀ l n, l / 4 ∈ gang w → n < 256 → lv.getLsbD (n / 8) = true → n ∉ retRegs (callMark w rc rva rvb) → rdV x l n = rdV w l n) := by
  obtain ⟨ctx, hctx⟩ := Option.isSome_iff_exists.mp hctx
  obtain ⟨f, hfork, hhome, hslices⟩ := openShadow_fork s w lv (callMark w rc rva rvb) ctx
  have hregs := sameRegs_calledWave w (callMark w rc rva rvb) off
  obtain ⟨-, hfound, -⟩ := onlyWave_putWave (curWave_found hi.1).2 hregs.uid
  refine ⟨_, exec_fcall_forks hi hroom hctx hok, rfl, ⟨_, ?_, hregs.sameButPaths, moves_calledWave w _ off⟩,
    openShadow s w lv (callMark w rc rva rvb) ctx, by simp, openShadow_uid s w lv _ ctx, f, hfork, hhome, hslices, fun j hj hlen => ?_,
    fun l n hl hn hlive hret => rdV_openShadow s ctx hl hn hlive (fun _ => retRegs_lt_of_issues hi) hret⟩
  · unfold findWave at hfound ⊢
    rw [List.find?_append, hfound, Option.some_or]
  · rw [sliceAt_openShadow s lv _ ctx hj hlen]
    exact ⟨rfl, rfl⟩

/-! ### Waves that stay where they are -/

/-- A wave stands as another one: of its number, no shadow unless that is one, its slices where those are. -/
structure StandsAs (x y : Wave) : Prop where
  uid : y.uid = x.uid
  home : x.fork = none → y.fork = none
  runs : ∀ j, (sliceAt y j).run = (sliceAt x j).run

theorem StandsAs.refl (x : Wave) : StandsAs x x := ⟨rfl, id, fun _ => rfl⟩

theorem StandsAs.trans {x y z : Wave} (h : StandsAs x y) (g : StandsAs y z) : StandsAs x z :=
  ⟨g.uid.trans h.uid, g.home ∘ h.home, fun j => (g.runs j).trans (h.runs j)⟩

/-- Waves of some numbers leave; every other one stays and stands as before, and none comes. -/
structure WavesLeave (gone : List Nat) (s t : State) : Prop where
  stay : ∀ u x, u ∉ gone → findWave s u = some x → ∃ y, findWave t u = some y ∧ StandsAs x y
  came : ∀ y ∈ t.waves, y.uid ∉ gone ∧ ∃ x ∈ s.waves, StandsAs x y

theorem findWave_mem {s : State} {u : Nat} {w : Wave} (h : findWave s u = some w) : w ∈ s.waves := List.mem_of_find?_eq_some h

theorem findWave_none_iff {s : State} {u : Nat} : findWave s u = none ↔ ∀ y ∈ s.waves, y.uid ≠ u := by
  simp [findWave]

theorem WavesLeave.findWave_none {gone : List Nat} {s t : State} (h : WavesLeave gone s t) {u : Nat} (hu : u ∈ gone) : findWave t u = none :=
  findWave_none_iff.mpr fun y hy he => (h.came y hy).1 (he ▸ hu)

theorem WavesLeave.trans {g₁ g₂ : List Nat} {a b c : State} (h : WavesLeave g₁ a b) (g : WavesLeave g₂ b c) : WavesLeave (g₁ ++ g₂) a c where
  stay u x hu hx := by
    rw [List.mem_append, not_or] at hu
    obtain ⟨y, hy, hxy⟩ := h.stay u x hu.1 hx
    obtain ⟨z, hz, hyz⟩ := g.stay u y hu.2 hy
    exact ⟨z, hz, hxy.trans hyz⟩
  came z hz := by
    obtain ⟨hz₂, y, hy, hyz⟩ := g.came z hz
    obtain ⟨hy₁, x, hx, hxy⟩ := h.came y hy
    rw [← hyz.uid] at hy₁
    exact ⟨by simp [hy₁, hz₂], x, hx, hxy.trans hyz⟩

/-- An update behind which every wave stays. -/
theorem WavesLeave.quiet {gone : List Nat} {a b c : State} (h : WavesLeave gone a b) (g : WavesLeave [] b c) : WavesLeave gone a c :=
  List.append_nil gone ▸ h.trans g

theorem wavesLeave_map {s t : State} {g : Wave → Wave} (ht : t.waves = s.waves.map g) (hg : ∀ x, StandsAs x (g x)) : WavesLeave [] s t where
  stay u x _ hx := ⟨g x, by rw [findWave_map ht (fun y => (hg y).uid), hx]; rfl, hg x⟩
  came y hy := by
    rw [ht] at hy
    obtain ⟨x, hx, rfl⟩ := List.mem_map.mp hy
    exact ⟨List.not_mem_nil, x, hx, hg x⟩

theorem wavesLeave_of_waves {s t : State} (ht : t.waves = s.waves) : WavesLeave [] s t :=
  wavesLeave_map (g := id) (by simp [ht]) StandsAs.refl

theorem findWave_filter {gone : List Nat} {s t : State} (ht : t.waves = s.waves.filter (fun x => !gone.contains x.uid)) {u : Nat}
    (hu : u ∉ gone) : findWave t u = findWave s u := by
  rw [findWave, findWave, ht, List.find?_filter]
  congr 1
  funext x
  by_cases hx : x.uid = u <;> simp [hx, hu]

theorem wavesLeave_filter {gone : List Nat} {s t : State} (ht : t.waves = s.waves.filter (fun x => !gone.contains x.uid)) :
    WavesLeave gone s t where
  stay u x hu hx := ⟨x, by rw [findWave_filter ht hu, hx], .refl x⟩
  came y hy := by
    rw [ht, List.mem_filter] at hy
    exact ⟨by simpa using hy.2, y, hy.1, .refl y⟩

theorem findWave_of_filter {gone : List Nat} {s t : State} (ht : t.waves = s.waves.filter (fun x => !gone.contains x.uid)) {u : Nat} {x : Wave}
    (hx : findWave t u = some x) : findWave s u = some x := by
  have hu : u ∉ gone := fun hu => by simp [(wavesLeave_filter ht).findWave_none hu] at hx
  rwa [← findWave_filter ht hu]

theorem mem_putWave {s : State} {w y : Wave} (hy : y ∈ (putWave s w).waves) :
    (y = w ∧ ∃ x ∈ s.waves, x.uid = w.uid) ∨ (y ∈ s.waves ∧ y.uid ≠ w.uid) := by
  obtain ⟨x, hx, rfl⟩ := List.mem_map.mp hy
  by_cases hu : x.uid = w.uid
  · exact .inl ⟨by simp [hu], x, hx, hu⟩
  · exact .inr (by simpa [hu] using hx)

/-- Putting a wave that stands as the one it replaces. -/
theorem wavesLeave_putWave {s : State} {w : Wave} (h : ∀ x, findWave s w.uid = some x → StandsAs x w) : WavesLeave [] s (putWave s w) where
  stay u x _ hx := by
    by_cases hu : u = w.uid
    · subst hu
      exact ⟨w, findWave_putWave_same hx, h x hx⟩
    · exact ⟨x, by rw [findWave_putWave_other s hu, hx], .refl x⟩
  came y hy := by
    refine ⟨List.not_mem_nil, ?_⟩
    obtain ⟨rfl, z, hz, hzu⟩ | ⟨hy, -⟩ := mem_putWave hy
    · cases hx : findWave s y.uid with
      | none => exact absurd hzu (findWave_none_iff.mp hx z hz)
      | some x => exact ⟨x, findWave_mem hx, h x hx⟩
    · exact ⟨y, hy, .refl y⟩

/-! ### Squash (R126, R133, R136) -/

@[simp] theorem train_waves (s : State) (w : Wave) (m : FcMark) (sls : List Nat) : (train s w m sls).waves = s.waves := by
  unfold train
  split <;> rfl

theorem wavesLeave_settleTraining (s : State) (uid : Nat) (t : Training) : WavesLeave [] s (settleTraining s uid t) := by
  unfold settleTraining
  split
  · exact wavesLeave_of_waves rfl
  · simp only
    split
    · exact wavesLeave_of_waves (train_waves _ _ _ _)
    · refine wavesLeave_map rfl fun x => ?_
      split
      · exact ⟨rfl, id, fun _ => rfl⟩
      · exact .refl x

theorem wavesLeave_trainWhen (s : State) (uid older : Nat) (m : FcMark) (sls : List Nat) : WavesLeave [] s (trainWhen s uid older m sls) := by
  unfold trainWhen
  split
  · exact wavesLeave_of_waves rfl
  · exact wavesLeave_settleTraining _ _ _

theorem wavesLeave_foldl {α : Type} {f : State → α → State} (hf : ∀ s a, WavesLeave [] s (f s a)) (l : List α) (s : State) :
    WavesLeave [] s (l.foldl f s) :=
  List.foldlRecOn l f (wavesLeave_of_waves rfl) fun t ht a _ => ht.quiet (hf t a)

/-- The numbers of the shadows that a squash drops. -/
def droppedBy (s : State) (uid : Nat) (p : Wave → Fork → Bool) : List Nat := (shadowsOf s uid p).map (fun x => x.uid)

theorem mem_shadowsOf {s : State} {uid : Nat} {p : Wave → Fork → Bool} {x : Wave} :
    x ∈ shadowsOf s uid p ↔ x ∈ s.waves ∧ ∃ k, x.fork = some k ∧ k.home = uid ∧ p x k = true := by
  rw [shadowsOf, List.mem_filter]
  cases x.fork <;> simp

theorem mem_droppedBy {s : State} {uid v : Nat} {p : Wave → Fork → Bool} :
    v ∈ droppedBy s uid p ↔ ∃ x ∈ s.waves, x.uid = v ∧ ∃ k, x.fork = some k ∧ k.home = uid ∧ p x k = true := by
  simp only [droppedBy, List.mem_map, mem_shadowsOf]
  tauto

/-- A squash drops the shadows it picks; no other wave moves. -/
theorem wavesLeave_squashWhere {s : State} {uid : Nat} {w : Wave} (hw : findWave s uid = some w) (p : Wave → Fork → Bool) :
    WavesLeave (droppedBy s uid p) s (squashWhere s uid p) := by
  by_cases hnone : shadowsOf s uid p = []
  · simpa [squashWhere, droppedBy, hnone] using wavesLeave_of_waves rfl
  have hids : ((shadowsOf s uid p).map (fun x => x.uid)).isEmpty = false := by simpa using hnone
  obtain rfl := findWave_uid hw
  simp only [squashWhere, hids, hw, Bool.false_eq_true, if_false]
  have htrain (t : State) := wavesLeave_foldl (f := fun st (k : Fork) => trainWhen st w.uid 0 k.mark k.returned)
    (fun st k => wavesLeave_trainWhen st w.uid 0 k.mark k.returned) ((shadowsOf s w.uid p).filterMap (fun x => x.fork)) t
  refine ((wavesLeave_filter (gone := droppedBy s w.uid p) rfl).quiet (wavesLeave_putWave fun x hx => ?_)).quiet (htrain _)
  obtain rfl := Option.some.inj (hw.symm.trans (findWave_of_filter (gone := droppedBy s w.uid p) rfl hx))
  exact ⟨rfl, id, sliceAt_updSlices_field Slice.run (f := fun sl => { sl with atRet := false }) (fun _ => rfl) w _⟩

/-! ### Commit (R135) -/

/-- Taking a continuation's registers changes registers only. -/
theorem takeReg_frame (x : Wave) (f : Fork) (w : Wave) (r : RegRef) :
    { takeReg x f w r with v := w.v, k := w.k, s := w.s, q := w.q } = w := by
  unfold takeReg
  cases r with
  | v n | k n =>
    exact List.foldlRecOn (motive := fun y : Wave => { y with v := w.v, k := w.k, s := w.s, q := w.q } = w) _ _ rfl fun y hy l _ => hy
  | s n => rfl
  | q n => rfl

/-- The wave with the registers that the continuation wrote. -/
def takenRegs (x w : Wave) (f : Fork) : Wave := f.wrote.foldl (takeReg x f) w

theorem takenRegs_frame (x w : Wave) (f : Fork) :
    { takenRegs x w f with v := w.v, k := w.k, s := w.s, q := w.q } = w :=
  List.foldlRecOn (motive := fun y : Wave => { y with v := w.v, k := w.k, s := w.s, q := w.q } = w) f.wrote _ rfl fun y hy r _ => by
    conv_rhs => rw [← hy, ← takeReg_frame x f y r]

@[simp] theorem takenRegs_uid (x w : Wave) (f : Fork) : (takenRegs x w f).uid = w.uid := (congrArg Wave.uid (takenRegs_frame x w f) :)
@[simp] theorem takenRegs_fork (x w : Wave) (f : Fork) : (takenRegs x w f).fork = w.fork := (congrArg Wave.fork (takenRegs_frame x w f) :)
@[simp] theorem takenRegs_slices (x w : Wave) (f : Fork) : (takenRegs x w f).slices = w.slices :=
  (congrArg Wave.slices (takenRegs_frame x w f) :)

/-- A held store of the continuation enters the path of the wave and squashes the forks that have read what it writes (R131, R133). -/
def enterStore (w w1 : Wave) (f : Fork) (st : State) (e : FsbEnt) : State :=
  squashStores (addStore st { whoOf w with pc := e.pc } (some .st) e.size e.accs) w1 f.slices (e.accs.map (fun a => (a.1, e.size)))

/-- A commit in order: the wave takes the continuation's registers and places, the continuation leaves, and its held stores enter the path. -/
theorem commitFork_eq (s : State) (x w : Wave) (f : Fork) :
    ∃ w1 s1, ∃ held : List FsbEnt, commitFork s x w f = held.foldl (enterStore w w1 f) s1 ∧ w1.uid = w.uid ∧ w1.fork = w.fork ∧
      (∀ j ∈ f.slices, j < w.slices.length → sliceAt w1 j = sliceAt x j) ∧
      KeepsMem s s1 ∧ WavesLeave [] (putWave (dropWave s x.uid) w1) s1 := by
  refine ⟨_, _, _, rfl, takenRegs_uid x w f, takenRegs_fork x w f, fun j hj hlen => ?slices, ⟨rfl, rfl⟩,
    wavesLeave_map (s := putWave _ _) rfl fun y => ?noted⟩
  case slices =>
    change (List.mapIdx _ (takenRegs x w f).slices).getD j sliceDead = _
    simp [takenRegs_slices, List.getD_eq_getElem?_getD, hj, hlen]
  case noted =>
    split
    · next h hh =>
      split
      · exact ⟨rfl, fun hn => by simp [hn] at hh, fun _ => rfl⟩
      · exact .refl y
    · exact .refl y

@[simp] theorem healL1_waves (s : State) (die core : Nat) (rs : List (Nat × Nat)) : (healL1 s die core rs).waves = s.waves := by
  unfold healL1
  simp only
  split <;> rfl

@[simp] theorem addStore_waves (s : State) (who : Who) (cls : Option Cls) (n : Nat) (xs : List (Acc × Nat)) :
    (addStore s who cls n xs).waves = s.waves := by
  unfold addStore
  split
  · rfl
  · change (healL1 (xs.foldl _ s) _ _ _).waves = s.waves
    rw [healL1_waves]
    refine List.foldlRecOn (motive := fun t : State => t.waves = s.waves) xs _ rfl fun t ht x _ => ?_
    split
    · split <;> exact ht
    · exact ht

/-- No squash drops a number whose waves are all no shadows. -/
theorem not_mem_droppedBy {s : State} {u : Nat} (h : ∀ y ∈ s.waves, y.uid = u → y.fork = none) (p : Wave → Fork → Bool) (v : Nat) :
    u ∉ droppedBy s v p := by
  rw [mem_droppedBy]
  rintro ⟨y, hy, hu, k, hk, -⟩
  simp [h y hy hu] at hk

theorem keepsMem_enterStore (w w1 : Wave) (f : Fork) (s : State) (e : FsbEnt) : KeepsMem s (enterStore w w1 f s e) :=
  (keepsMem_addStore _ _ _ _ _).trans (keepsMem_squashWhere _ _ _)

/-- Other continuations leave as held stores enter, the wave itself stays. -/
theorem wavesLeave_enterStores {s t : State} (ht : WavesLeave [] s t) {w1 : Wave} (hw : findWave s w1.uid = some w1)
    (halone : ∀ y ∈ s.waves, y.uid = w1.uid → y.fork = none)
    (w : Wave) (f : Fork) (held : List FsbEnt) : ∃ gone, w1.uid ∉ gone ∧ WavesLeave gone s (held.foldl (enterStore w w1 f) t) := by
  refine List.foldlRecOn (motive := fun t => ∃ gone, w1.uid ∉ gone ∧ WavesLeave gone s t) held _ ⟨[], List.not_mem_nil, ht⟩ ?_
  rintro t ⟨gone, hgone, ht⟩ e -
  have hadd : WavesLeave gone s (addStore t { whoOf w with pc := e.pc } (some .st) e.size e.accs) :=
    ht.quiet (wavesLeave_of_waves (addStore_waves _ _ _ _ _))
  obtain ⟨y, hy, -⟩ := hadd.stay w1.uid w1 hgone hw
  refine ⟨_, ?_, hadd.trans (wavesLeave_squashWhere hy _)⟩
  rw [List.mem_append, not_or]
  refine ⟨hgone, not_mem_droppedBy (fun z hz hu => ?_) _ _⟩
  obtain ⟨-, z0, hz0, hstand⟩ := hadd.came z hz
  exact hstand.home (halone z0 hz0 (hstand.uid.symm.trans hu))

/-- A commit: the continuation is gone, and the wave stands with its slices where the continuation stood. -/
theorem commitFork_commits {s : State} {x w : Wave} {f : Fork} (hw : findWave s w.uid = some w) (hfork : w.fork = none) (hne : w.uid ≠ x.uid) :
    findWave (commitFork s x w f) x.uid = none ∧ KeepsMem s (commitFork s x w f) ∧ ∃ w', findWave (commitFork s x w f) w.uid = some w' ∧
      ∀ j ∈ f.slices, j < w.slices.length → (sliceAt w' j).run = (sliceAt x j).run := by
  obtain ⟨w1, s1, held, he, huid, hfork1, hslices, hmem, hleft⟩ := commitFork_eq s x w f
  rw [he]
  have hdrop : WavesLeave [x.uid] s (dropWave s x.uid) := wavesLeave_filter (by simp [dropWave, Bool.beq_eq_decide_eq])
  generalize dropWave s x.uid = d at hdrop hleft
  obtain ⟨y, hy, -⟩ := hdrop.stay w.uid w (by simpa using hne) hw
  rw [← huid] at hy hne ⊢
  have hput : findWave (putWave d w1) w1.uid = some w1 := findWave_putWave_same hy
  have halone : ∀ z ∈ (putWave d w1).waves, z.uid = w1.uid → z.fork = none := fun z hz hu => by
    obtain ⟨rfl, -⟩ | ⟨-, hother⟩ := mem_putWave hz
    · rw [hfork1, hfork]
    · exact absurd hu hother
  have hgone : ∀ z ∈ (putWave d w1).waves, z.uid ≠ x.uid := fun z hz => by
    obtain ⟨rfl, -⟩ | ⟨hd, -⟩ := mem_putWave hz
    · exact hne
    · simpa using (hdrop.came z hd).1
  obtain ⟨gone, hstays, hend⟩ := wavesLeave_enterStores hleft hput halone w f held
  obtain ⟨w', hw', hstand⟩ := hend.stay w1.uid w1 hstays hput
  refine ⟨findWave_none_iff.mpr fun z hz => ?_, hmem.trans (keepsMem_foldl _ (keepsMem_enterStore w w1 f) held s1), w', hw', fun j hj hlen => ?_⟩
  · obtain ⟨-, z0, hz0, hz⟩ := hend.came z hz
    rw [hz.uid]
    exact hgone z0 hz0
  · rw [hstand.runs, hslices j hj hlen]

/-! ### FORK_RESOLUTION (R134 to R136) -/

section
variable {s : State} {uid : Nat} {x h : Wave} {f : Fork} (hx : findWave s uid = some x) (hfork : x.fork = some f)
  (hhome : findWave s f.home = some h)
include hx hfork hhome

/-- A fork whose home has returned, with its registers there, commits or is squashed. -/
theorem exec_forkResolution (hret : ∀ j ∈ f.slices, j ∈ f.returned) (hpend : retsPending s h.uid f.mark = false) (hsave : h.saveReq = none) :
    exec (.forkResolution uid) s = .next (if predictionHolds h f && readSetClean f && specialsHold x h
      then commitFork (train s h f.mark f.slices) x h f
      else squashWhere s h.uid (fun y _ => y.uid == uid)) := by
  have hready : (f.slices.all (fun i => f.returned.contains i) && !retsPending s h.uid f.mark && h.saveReq.isNone) = true := by
    simpa [hpend, hsave] using hret
  change execForkResolution uid s = _
  simp only [execForkResolution, hx, hfork, hhome, hready, if_true]
  split <;> rfl

/-- A squashed fork is gone, and its wave stays where it is. -/
theorem squashWhere_squashes (hne : f.home ≠ uid) :
    findWave (squashWhere s h.uid (fun y _ => y.uid == uid)) uid = none ∧
    ∃ h', findWave (squashWhere s h.uid (fun y _ => y.uid == uid)) h.uid = some h' ∧ StandsAs h h' := by
  have hu := findWave_uid hhome
  rw [← hu] at hne hhome
  have hleft := wavesLeave_squashWhere hhome (fun y _ => y.uid == uid)
  have hdrops : ∀ v, v ∈ droppedBy s h.uid (fun y _ => y.uid == uid) → v = uid := fun v hv => by
    obtain ⟨y, -, rfl, k, -, -, hy⟩ := mem_droppedBy.mp hv
    simpa using hy
  have hshadow : uid ∈ droppedBy s h.uid (fun y _ => y.uid == uid) :=
    mem_droppedBy.mpr ⟨x, findWave_mem hx, findWave_uid hx, f, hfork, hu.symm, by simpa using findWave_uid hx⟩
  exact ⟨hleft.findWave_none hshadow, hleft.stay _ h (fun hm => hne (hdrops _ hm)) hhome⟩

/-- A fork that is ready is gone; the slices of its home go on where the continuation stands when it held, else where they stood. -/
theorem forkResolution_resolves (hhf : h.fork = none) (hne : f.home ≠ uid) (hret : ∀ j ∈ f.slices, j ∈ f.returned)
    (hpend : retsPending s h.uid f.mark = false) (hsave : h.saveReq = none) :
    Answers (.forkResolution uid) s (fun t => findWave t uid = none ∧ SameMemory s t ∧ ∃ h', findWave t h.uid = some h' ∧
      ∀ j ∈ f.slices, j < h.slices.length → (sliceAt h' j).run =
        (if predictionHolds h f && readSetClean f && specialsHold x h then sliceAt x j else sliceAt h j).run) := by
  refine ⟨_, exec_forkResolution hx hfork hhome hret hpend hsave, ?_⟩
  split
  · next hheld =>
    rw [← findWave_uid hhome, ← findWave_uid hx] at hne
    rw [← findWave_uid hx]
    have hhome' : findWave (train s h f.mark f.slices) h.uid = some h := by
      rw [findWave, train_waves, findWave_uid hhome]
      exact hhome
    obtain ⟨hgone, hmem, hstands⟩ := commitFork_commits (f := f) hhome' hhf hne
    exact ⟨hgone, fun a => congrArg (memGet · a) ((keepsMem_train s h f.mark f.slices).trans hmem).1, hstands⟩
  · next hheld =>
    obtain ⟨hgone, h', hh', hstand⟩ := squashWhere_squashes hx hfork hhome hne
    exact ⟨hgone, fun a => congrArg (memGet · a) (keepsMem_squashWhere s _ _).1, h', hh', fun j _ _ => hstand.runs j⟩

end

/-! ### Registers that a continuation keeps (R135) -/

/-- What one step of a fold makes true and every step keeps is true behind it. -/
theorem foldl_of_mem {α β : Type} {P : β → Prop} {f : β → α → β} {l : List α} {a : α} (ha : a ∈ l) (hset : ∀ x, P (f x a))
    (hkeep : ∀ x b, P x → P (f x b)) (x : β) : P (l.foldl f x) := by
  obtain ⟨as, bs, rfl⟩ := List.append_of_mem ha
  rw [List.foldl_append, List.foldl_cons]
  exact List.foldlRecOn bs f (hset _) fun y hy b _ => hkeep y b hy

section
variable {old : Wave} {l n : Nat}

/-- A lane's register that takes its old value leaves every register that has its own. -/
theorem rdV_wrV_old {w : Wave} (h : rdV w l n = rdV old l n) (k m : Nat) : rdV (wrV w k m (rdV old k m)) l n = rdV old l n := by
  rw [rdV_wrV]
  split
  · next hkey => rw [rdV, rdV, hkey]
  · exact h

theorem rdV_keepRegs_old {w : Wave} (h : rdV w l n = rdV old l n) (r : RegRef × List Nat) : rdV (keepRegs old w r) l n = rdV old l n := by
  unfold keepRegs
  split
  · exact List.foldlRecOn (motive := fun y => rdV y l n = rdV old l n) _ _ h fun y hy k _ => rdV_wrV_old hy k _
  · rw [← h]
    unfold wrBank
    split <;> rfl
  · exact h

/-- A register that the continuation wrote has its value back when all of them have been put back. -/
theorem rdV_keepRegs_skip {skip : List (RegRef × List Nat)} {sls : List Nat} (hskip : (RegRef.v n, sls) ∈ skip) (hl : l ∈ sls) (w : Wave) :
    rdV (skip.foldl (keepRegs old) w) l n = rdV old l n := by
  refine foldl_of_mem (P := fun y => rdV y l n = rdV old l n) hskip (fun x => ?_) (fun x r hx => rdV_keepRegs_old hx r) w
  refine foldl_of_mem (P := fun y => rdV y l n = rdV old l n) hl (fun y => ?_) (fun y k hy => rdV_wrV_old hy k n) x
  rw [rdV_wrV, if_pos rfl]

end

@[simp] theorem keepRegs_uid (old w : Wave) (r : RegRef × List Nat) : (keepRegs old w r).uid = w.uid := by
  unfold keepRegs
  split
  · exact List.foldlRecOn (motive := fun y : Wave => y.uid = w.uid) _ _ rfl fun y hy k _ => hy
  · unfold wrBank
    split <;> rfl
  · rfl

/-- The wave of an operation, with the registers put back that it may not write. -/
def regsKept (old : Wave) (skip : List (RegRef × List Nat)) (w : Wave) : Wave := if w.uid == old.uid then skip.foldl (keepRegs old) w else w

theorem regsKept_uid (old : Wave) (skip : List (RegRef × List Nat)) (w : Wave) : (regsKept old skip w).uid = w.uid := by
  unfold regsKept
  split
  · exact List.foldlRecOn (motive := fun y : Wave => y.uid = w.uid) _ _ rfl fun y hy r _ => (keepRegs_uid old y r).trans hy
  · rfl

/-- An event of an operation that a continuation has overtaken either does not happen or puts back what it may not write. -/
theorem onFlight_skips {s t : State} {fid : Nat} {k : Flight → Out} {f : Flight} {old : Wave} (hf : findFlight s fid = some f)
    (hold : findWave s f.who.uid = some old) (hskip : f.skip ≠ []) (he : onFlight s fid k = .next t) :
    t = s ∨ ∃ u : State, t = { u with waves := u.waves.map (regsKept old f.skip) } := by
  have hskip' : f.skip.isEmpty = false := by simpa using hskip
  simp only [onFlight, hf] at he
  split at he
  · exact .inl (Host.Outcome.next.inj he).symm
  · unfold keepWritten at he
    simp only [hskip', hold, Bool.false_eq_true, if_false] at he
    split at he
    · next u v _ hv =>
      obtain rfl := Option.some.inj hv
      exact .inr ⟨u, (Host.Outcome.next.inj he).symm⟩
    · next hno => exact absurd rfl (hno t old he)

/-- A load leaves the registers that its operation may no longer write. -/
theorem loadCompletion_skips {s t : State} {fid n l : Nat} {f : Flight} {old w : Wave} {sls : List Nat} (hf : findFlight s fid = some f)
    (hold : findWave s f.who.uid = some old) (hskip : (RegRef.v n, sls) ∈ f.skip) (hl : l ∈ sls)
    (he : exec (.loadCompletion fid) s = .next t) (hw : findWave t old.uid = some w) : rdV w l n = rdV old l n := by
  obtain rfl | ⟨u, rfl⟩ := onFlight_skips hf hold (List.ne_nil_of_mem hskip) he
  · rw [findWave_uid hold, hold] at hw
    rw [Option.some.inj hw]
  · rw [findWave_map (s := u) rfl (regsKept_uid old f.skip)] at hw
    obtain ⟨v, hv, rfl⟩ := Option.map_eq_some_iff.mp hw
    rw [regsKept, if_pos (by simpa using findWave_uid hv)]
    exact rdV_keepRegs_skip hskip hl v

/-! ### Bytes that a continuation has read (R214, R230) -/

/-- A field that an update of a map's values leaves alone reads at every key as before. -/
theorem stGet_map_field {α β : Type} (p : α → β) (d : α) {h : Nat × α → Nat × α} (hh : ∀ e, (h e).1 = e.1 ∧ p (h e).2 = p e.2) (k : Nat)
    (m : Store α) : p (stGet d k (m.map h)) = p (stGet d k m) := by
  induction m with
  | nil => rfl
  | cons e r ih =>
    obtain ⟨hkey, hval⟩ := hh e
    simp only [List.map_cons, stGet, hkey]
    split
    · exact hval
    · exact ih

theorem markOld_flt (s : State) (d c l : Nat) (p : Nat → List Byte → Bool) (die core : Nat) :
    (coreAt (markOld s d c l p) die core).flt = (coreAt s die core).flt := by
  refine stGet_map_field Core.flt coreDefault (fun e => ?_) _ _
  split
  · split <;> exact ⟨rfl, rfl⟩
  · exact ⟨rfl, rfl⟩

/-- A read at the home notes nothing in a fork load table. -/
theorem homeRead_flt (s : State) (d c : Nat) (pg : Page) (pa n die core : Nat) :
    (coreAt (homeSeen (l2Access s pg false pa n) d c pa) die core).flt = (coreAt s die core).flt := by
  have hcores : (l2Access s pg false pa n).cores = s.cores := (congrArg State.cores (onlyStored_l2Access s pg false pa n) :)
  have hcore : coreAt (l2Access s pg false pa n) die core = coreAt s die core := by rw [coreAt, hcores, coreAt]
  unfold homeSeen
  rw [markOld_flt, ← hcore]
  split <;> rfl

theorem readAcc_plain_flt {s : State} {a : Acc} {n : Nat} (ha : PlainAt s a n) (who : Who) (die core : Nat) :
    (coreAt (readAcc s who false a n).1 die core).flt = (coreAt s die core).flt := by
  unfold PlainAt at ha
  unfold readAcc
  split
  · rfl
  · next pa hl =>
    rw [hl] at ha
    obtain ⟨hdev, hhome, -⟩ := ha
    have hhow : (false || !(a.page.cl == 0) || a.page.ptype == .estimator) = true := by simpa using hhome
    rw [if_neg (by simpa using hdev), hhow]
    exact homeRead_flt _ _ _ _ _ _ _ _

/-- A load that meets no poison squashes the continuations that have read other bytes, and writes its registers. -/
theorem performLoad_healthy {s : State} {f : Flight} {d : LoadDst} {n : Nat} {as : List Acc} {vs : List (Nat × Nat)}
    (hread : (readAll s f.who false n as).2 = (vs, [])) :
    performLoad s f d n as none =
      updHolder (squashWhere (readAll s f.who false n as).1 f.who.uid (fun x k => decide (k.born ≤ f.id) &&
        readsOther (readAll s f.who false n as).1 f.who.uid (whoSlices f.who) n as vs x k)) d.uid (fun w => writeLoad w d vs) := by
  have hhome : acqHome none = false := rfl
  simp only [performLoad, hhome, hread, poisonLanes, ite_self]

/-- A table entry notes another byte than the value of a lane has at its place. -/
def NotesOther (a : Acc) (n v : Nat) (e : FltEnt) : Prop :=
  ∃ j < n, ∃ p ∈ e.seen, p.1 = (spaceAt a + j) % 32 ∧ p.2 ≠ BitVec.ofNat 8 (v / 2 ^ (8 * j))

theorem readsOther_of_notesOther {s : State} {home n v : Nat} {sls : List Nat} {a : Acc} {x : Wave} {k : Fork} {e : FltEnt}
    (hsls : ∃ y ∈ k.slices, y ∈ sls) (he : e ∈ (coreAt s x.die x.core).flt) (hu : e.uid = x.uid) (hent : sameEnt e (fltOf x a) = true)
    (hmem : ∃ pa, a.loc = .mem pa) (hother : NotesOther a n v e) : readsOther s home sls n [a] [(a.lane, v)] x k = true := by
  obtain ⟨pa, hloc⟩ := hmem
  obtain ⟨j, hj, p, hp, hat, hne⟩ := hother
  unfold readsOther
  rw [Bool.and_eq_true, List.any_eq_true, List.any_eq_true]
  refine ⟨by simpa using hsls, e, he, ?_⟩
  simp only [hu, hent, hloc, List.any_cons, List.any_nil, List.find?_cons, beq_self_eq_true, Bool.true_and, Bool.or_false, List.any_eq_true]
  exact ⟨j, List.mem_range.mpr hj, p, hp, by simpa [hat] using hne⟩

section
variable {s : State} {fid n : Nat} {f : Flight} {d : LoadDst} {a : Acc}

/-- The continuations of the wave that a load squashes once it has read a value (R214, R230). -/
def tooEarly (r : State) (f : Flight) (n : Nat) (a : Acc) (v : Nat) (x : Wave) (k : Fork) : Bool :=
  decide (k.born ≤ f.id) && readsOther r f.who.uid (whoSlices f.who) n [a] [(a.lane, v)] x k

/-- A load of one plain place: it is read, with copies of memory changed but no load table, then continuations are squashed, then the register is
written. -/
theorem exec_loadCompletion_plain (hin : InFlight s fid f) (hact : f.act = .load d n [a] none) (hquiet : QuietPath s f) (hplain : PlainAt s a n)
    (hwait : weightWaits s f.who false a = false) :
    ∃ r, OnlyCaches s r ∧ (∀ die core, (coreAt r die core).flt = (coreAt s die core).flt) ∧
      exec (.loadCompletion fid) s = .next (endFlight (updHolder (squashWhere r f.who.uid (tooEarly r f n a (leNat (bytesAt s a n)))) d.uid
        (fun w => writeLoad w d [(a.lane, leNat (bytesAt s a n))])) f) := by
  obtain ⟨hturn, hseen, hrel⟩ := hquiet
  have hstill : StillThere s s f.who :=
    ⟨.refl s, hrel, fun g hg hdie hcore hvis m xs hstore => by rw [hseen g hg hdie hcore hvis, hact] at hstore; cases hstore⟩
  have hread : (readAll s f.who false n [a]).2 = ([(a.lane, leNat (bytesAt s a n))], []) := readAll_plain [a] s hstill (by simpa using hplain)
  have hone : (readAll s f.who false n [a]).1 = (readAcc s f.who false a n).1 := by
    simp only [readAll]
    split <;> rfl
  refine ⟨_, onlyCaches_readAll f.who false n [a] s, fun die core => ?_, ?_⟩
  · rw [hone, readAcc_plain_flt hplain]
  · rw [exec_loadCompletion hin hact hturn (by simpa using hwait), performLoad_healthy hread]
    rfl

/-- The end of a load brings no wave. -/
theorem findWave_loadEnd_none {u : Nat} (h : findWave s u = none) (vs : List (Nat × Nat)) :
    findWave (endFlight (updHolder s d.uid (fun w => writeLoad w d vs)) f) u = none := by
  have hwrites (y : Wave) : (if y.uid == d.uid then writeLoad y d vs else y).uid = y.uid := by
    split <;> simp
  rw [findWave_map (endFlight_waves _ f) (endWait_uid f), findWave_map (s := s) rfl hwrites, h]
  rfl

end

/-- Settles O28: the call with and without its continuation, the commit and the squash of a fork that is ready, and what the completion of a load
puts back and drops. -/
theorem forkableCalls : Obligations.ForkableCalls := by
  unfold Obligations.ForkableCalls
  intro s w ls g off lv rc rva rvb m i calls
  refine ⟨fun hi hroom hno => ?call, fun hi hroom hctx hok => fcall_forks hi hroom hctx hok, ?resolution, ?kept, ?dropped⟩
  case call =>
    have hregs := sameRegs_calledWave w m off
    exact ⟨_, exec_fcall_calls hi hroom hno, onlyWave_putWave (curWave_found hi.1).2 hregs.uid, hregs.sameButPaths, moves_calledWave w m off⟩
  case resolution =>
    intro uid x f h hx hfork hhome hhf hne hret hpend hsave
    exact forkResolution_resolves hx hfork hhome hhf hne hret hpend hsave
  case kept =>
    intro fid f old n sls l hf hold hskip hl t w' he hw'
    exact loadCompletion_skips hf hold hskip hl he hw'
  case dropped =>
    intro fid f d n a x k e p j h hin hact hquiet hplain hwait hh hx hk hhome hborn hsls he hu hent hmem hj hp hat hne
    obtain ⟨r, hcaches, hflt, hexec⟩ := exec_loadCompletion_plain hin hact hquiet hplain hwait
    have hhr : findWave r f.who.uid = some h := by rwa [findWave, hcaches.waves]
    have hother := readsOther_of_notesOther (home := f.who.uid) hsls (hflt _ _ ▸ he) hu hent hmem ⟨j, hj, p, hp, hat, hne⟩
    have hdropped : x.uid ∈ droppedBy r f.who.uid (tooEarly r f n a (leNat (bytesAt s a n))) :=
      mem_droppedBy.mpr ⟨x, by rwa [hcaches.waves], rfl, k, hk, hhome, by simp [tooEarly, hborn, hother]⟩
    exact ⟨_, hexec, findWave_loadEnd_none ((wavesLeave_squashWhere hhr _).findWave_none hdropped) _⟩

end Sys2Proof.Machine
end

section
/-!
PROOFS. Statements about system instructions (O32), events of a wave (O33) and errors (O54) that say nothing else of the package changes but
waves: three of their updates go through `updHolder`, which also changes a retired wave of the same number (R17, R29).
-/
namespace Sys2Proof.Machine

/-- An instruction or event that answers a next state leaves the retired waves as they were. -/
def keepsGhosts (i : Instr) (s : State) : Bool :=
  match exec i s with
  | .next t => t.ghosts == s.ghosts
  | _ => true

theorem keepsGhosts_of_ghosts_eq {i : Instr} {s t : State} (he : exec i s = .next t) (hg : t.ghosts = s.ghosts) : keepsGhosts i s = true := by
  simp [keepsGhosts, he, hg]

/-- A wave is resident and is to move, and a retired wave of its number is still kept. -/
def withTwin (w : Wave) (time : Nat) : State :=
  { placeProgram State.reset [] with turn := .wave w.uid, time := time, waves := [w], ghosts := [placedWave] }

/-- The placed wave, asked for its place at time 0. -/
def askedWave : Wave := { placedWave with preq := some 0 }

/-- A `live` on registers that read as zero: no range to keep. -/
def liveOps : Ops :=
  { g := Guard.none, k := .uu, ty := .b32, d := 0, a := 0, b := .s 0, c := 0, rnd := .dyn, sat := false, sc := .wave, ord := .rlx, x := 0 }

/-- The `live` marks the wave, and the retired one with it. -/
theorem keepsGhosts_live : keepsGhosts (.live liveOps) (withTwin askedWave 0) = false := by decide +kernel

/-- The time-out marks the wave, and the retired one with it. -/
theorem keepsGhosts_preemptionTimeout : keepsGhosts (.preemptionTimeout askedWave.uid) (withTwin askedWave 100000) = false := by decide +kernel

/-- The lost packet is noted for the wave, and for the retired one with it. -/
theorem keepsGhosts_lostRead : keepsGhosts (.uncorrectableError (.read placedWave.uid 0)) (withTwin placedWave 0) = false := by decide +kernel

/-- Refutes O32: its clause of `live` lets nothing but the moving wave change, in every state; a `live` with a request pending marks the waves of
its number, among them a retired one that an operation still names. -/
theorem not_systemInstructions : ¬ Obligations.SystemInstructions := by
  unfold Obligations.SystemInstructions
  intro h
  obtain ⟨-, hlive⟩ := h (withTwin askedWave 0) askedWave (guardLanes askedWave (.live liveOps)) liveOps (by decide +kernel)
  obtain ⟨w1, he, -⟩ := hlive (by decide +kernel) (by decide +kernel)
  have hkept := keepsGhosts_of_ghosts_eq he rfl
  rw [keepsGhosts_live] at hkept
  cases hkept

/-- Refutes O33: its clause of the time-out lets nothing but resident waves change, in every state; the time-out marks the waves of its number for a
full save, among them a retired one that an operation still names. -/
theorem not_eventsOfAWave : ¬ Obligations.EventsOfAWave := by
  unfold Obligations.EventsOfAWave
  intro h
  obtain ⟨-, -, htimeout, -⟩ := h (withTwin askedWave 100000) askedWave.uid askedWave (by decide +kernel) (by decide +kernel)
  obtain ⟨t, he, hframe, -⟩ := htimeout 0 rfl rfl (by decide +kernel) (by decide)
  have hkept := keepsGhosts_of_ghosts_eq he (congrArg State.ghosts hframe :)
  rw [keepsGhosts_preemptionTimeout] at hkept
  cases hkept

/-- Refutes O54: its clause of a table read whose packet is struck lets nothing but resident waves change, in every state; the lost packet is noted
for the waves of its number, among them a retired one that an operation still names. -/
theorem not_errorsAndSpares : ¬ Obligations.ErrorsAndSpares := by
  unfold Obligations.ErrorsAndSpares
  intro h
  obtain ⟨-, -, -, -, -, -, -, -, hread, -⟩ := h (withTwin placedWave 0)
  obtain ⟨t, he, hframe, -⟩ := hread placedWave.uid 0 placedWave (by decide +kernel)
  have hkept := keepsGhosts_of_ghosts_eq he (congrArg State.ghosts hframe :)
  rw [keepsGhosts_lostRead] at hkept
  cases hkept

end Sys2Proof.Machine
end

section
/-!
PROOFS. Records of causes and the waves that end by an exception (O31): where a record joins those held, and what a wave leaves that ends in a
handler or without one.
-/
namespace Sys2Proof.Machine

/-! ### A record joins those held (R146) -/

/-- A record with the event of another of its cause: its lanes are added, and MORE is set. -/
def withLater (x r : CauseRec) : CauseRec := { x with lanes := x.lanes ||| r.lanes, more := true }

section
variable {x r : CauseRec} {t : List CauseRec}

theorem addRec_same (h : x.cause = r.cause) : addRec (x :: t) r = withLater x r :: t := if_pos h

theorem addRec_before (h : r.cause < x.cause) : addRec (x :: t) r = r :: x :: t := by
  rw [addRec, if_neg (by omega), if_pos h]

theorem addRec_behind (h : x.cause < r.cause) : addRec (x :: t) r = x :: addRec t r := by
  rw [addRec, if_neg (by omega), if_neg (by omega)]
end

/-- The records after a new one: those of other causes, and of its cause the new one or the old one with a later event. -/
theorem mem_addRec {rs : List CauseRec} {r y : CauseRec} (hrs : rs.Pairwise (fun x y => x.cause < y.cause)) :
    y ∈ addRec rs r ↔ (y ∈ rs ∧ y.cause ≠ r.cause) ∨ (y = r ∧ ∀ x ∈ rs, x.cause ≠ r.cause) ∨ ∃ x ∈ rs, x.cause = r.cause ∧ y = withLater x r := by
  induction rs with
  | nil => simp [addRec]
  | cons x t ih =>
    obtain ⟨hx, ht⟩ := List.pairwise_cons.mp hrs
    rcases lt_trichotomy x.cause r.cause with h | h | h
    · rw [addRec_behind h, List.mem_cons, ih ht]
      grind
    · rw [addRec_same h, List.mem_cons]
      grind
    · rw [addRec_before h, List.mem_cons]
      grind

/-- Records stay in rising order of cause. -/
theorem pairwise_addRec {rs : List CauseRec} (r : CauseRec) (hrs : rs.Pairwise (fun x y => x.cause < y.cause)) :
    (addRec rs r).Pairwise (fun x y => x.cause < y.cause) := by
  induction rs with
  | nil => simp [addRec]
  | cons x t ih =>
    obtain ⟨hx, ht⟩ := List.pairwise_cons.mp hrs
    rcases lt_trichotomy x.cause r.cause with h | h | h
    · rw [addRec_behind h]
      refine List.pairwise_cons.mpr ⟨fun y hy => ?_, ih ht⟩
      obtain ⟨hyt, -⟩ | ⟨rfl, -⟩ | ⟨z, hz, -, rfl⟩ := (mem_addRec ht).mp hy
      · exact hx y hyt
      · exact h
      · exact hx z hz
    · rw [addRec_same h]
      exact List.pairwise_cons.mpr ⟨hx, ht⟩
    · rw [addRec_before h]
      exact List.pairwise_cons.mpr ⟨List.forall_mem_cons.mpr ⟨h, fun y hy => h.trans (hx y hy)⟩, hrs⟩

/-! ### The end of a wave (R152, R155, R376) -/

/-- A wave with other records. -/
def withRecs (w : Wave) (recs : List CauseRec) : Wave := { w with trap := { w.trap with recs := recs } }

/-- Cause of the first record, or 0. -/
def leadCause (recs : List CauseRec) : Nat := (recs.head?.map (fun x => x.cause)).getD 0

/-- The wave is gone, memory is as it was, and an error record of a kind with the wave's weight is on its way to the context's error node. -/
def EndsIn (s t : State) (w : Wave) (c : Ctx) (kind cause : Nat) : Prop :=
  findWave t w.uid = none ∧ SameMemory s t ∧
  ∃ f ∈ t.flights, ∃ r, f.act = .record w.die r true ∧ r.node = c.errn ∧ r.weight = w.weight ∧ r.launch = w.launch ∧
    r.pay.take 4 = [BitVec.ofNat 32 (kind + 2 ^ 8 * cause + 2 ^ 12 * w.die + 2 ^ 15 * (w.core / 4) + 2 ^ 20 * (w.core % 4) + 2 ^ 22 * w.wctx),
      BitVec.ofNat 32 w.launch, BitVec.ofNat 32 (w.launch / 2 ^ 32), BitVec.ofNat 32 w.widx]

/-- The words of the record of a wave's end. -/
def endWords (w : Wave) (kind : Nat) : Option CauseRec → List W32
  | some c => errWords kind c.cause { whoOf w with pc := c.pc } c.addr
  | none => errWords kind 0 (whoOf w) 0

theorem endWords_take (w : Wave) (kind : Nat) (recs : List CauseRec) : (endWords w kind recs.head?).take 4 =
    [BitVec.ofNat 32 (kind + 2 ^ 8 * leadCause recs + 2 ^ 12 * w.die + 2 ^ 15 * (w.core / 4) + 2 ^ 20 * (w.core % 4) + 2 ^ 22 * w.wctx),
      BitVec.ofNat 32 w.launch, BitVec.ofNat 32 (w.launch / 2 ^ 32), BitVec.ofNat 32 w.widx] := by
  cases recs <;> rfl

/-- A task that is not placed again leaves an error record when it ends so. -/
theorem endWave_eq {s : State} {w : Wave} (h : reruns s w = false) (kind : Nat) (r : Option CauseRec) :
    endWave s w kind r = sendError (abortRays (retireWave s w 0) w.uid) w.die w.asid w.launch w.weight (endWords w kind r) := by
  unfold endWave
  rw [h]
  cases r <;> rfl

/-- Retirement loads and drops no context. -/
theorem findCtx_retireWave {s : State} {w : Wave} (h : shadowsOf s w.uid (fun _ _ => true) = []) (weight asid : Nat) :
    findCtx (retireWave s w weight) asid = findCtx s asid := by
  obtain ⟨ts, hframe⟩ := onlySettled_retireWave h weight
  have hctxs : (retireWave s w weight).ctxs = s.ctxs := (congrArg State.ctxs hframe :)
  rw [findCtx, hctxs, findCtx]

/-- An error record on its way stores nothing and changes no wave. -/
theorem sendError_waves (s : State) (die asid launch weight : Nat) (pay : List W32) : (sendError s die asid launch weight pay).waves = s.waves := by
  unfold sendError
  split <;> rfl

/-- An error record carries its weight and its launch to the error node (R155, R376). -/
theorem sendError_record {s : State} {asid : Nat} {c : Ctx} (h : findCtx s asid = some c) (die launch weight : Nat) (pay : List W32) :
    ∃ f ∈ (sendError s die asid launch weight pay).flights, ∃ r, f.act = .record die r true ∧ r.node = c.errn ∧ r.weight = weight ∧
      r.launch = launch ∧ r.pay = pay := by
  simp only [sendError, h]
  obtain ⟨f, hf, ha⟩ := exists_addFlight (updLaunch s launch (fun l => { l with err := true })) (whoNone die asid launch) none
    (.record die { asid := asid, node := c.errn, launch := launch, depth := 0, weight := weight, quad := none, seq := none,
                   pay := pay, rerun := false, bypass := 0, avoid := none } true) none
  exact ⟨f, hf, _, ha, rfl, rfl, rfl, rfl⟩

/-- A wave without forks that is not placed again is gone, and its error record is on its way. -/
theorem endWave_ends {s : State} {w : Wave} {c : Ctx} (hs : shadowsOf s w.uid (fun _ _ => true) = []) (hr : reruns s w = false)
    (hc : findCtx s w.asid = some c) (kind : Nat) (recs : List CauseRec) :
    EndsIn s (endWave s w kind recs.head?) w c kind (leadCause recs) := by
  have hctx : findCtx (retireWave s w 0) w.asid = some c := (findCtx_retireWave hs 0 w.asid).trans hc
  obtain ⟨hgone, hmem, -⟩ := retireWave_retires hs 0
  rw [endWave_eq hr]
  generalize retireWave s w 0 = t at hctx hgone hmem
  obtain ⟨f, hf, r, ha, hnode, hweight, hlaunch, hpay⟩ := sendError_record (s := abortRays t w.uid) hctx w.die w.launch w.weight
    (endWords w kind recs.head?)
  refine ⟨?_, fun a => ?_, f, hf, r, ha, hnode, hweight, hlaunch, ?_⟩
  · rw [findWave, sendError_waves]
    exact hgone
  · rw [(keepsMem_sendError _ _ _ _ _ _).1]
    exact hmem a
  · rw [hpay, endWords_take]

/-! ### What taking an exception does (R148, R149, R152, R159) -/

section
variable {s : State} {w : Wave} {rs : List CauseRec} (xpc : W64) (hf : w.fork = none) (hq : w.viq = [])
include hf hq

/-- A cause raised in a handler ends the wave. -/
theorem takeException_handler (hh : w.trap.h = true) :
    takeException s w rs xpc = endWave (putWave s (withRecs w (addRecs w.trap.recs rs))) (withRecs w (addRecs w.trap.recs rs)) 3 rs.head? := by
  simp [takeException, hf, hq, hh, withRecs]

/-- A cause met while a full save empties the VIQ is held. -/
theorem takeException_saving (hh : w.trap.h = false) (hv : w.saveReq = some .full) :
    takeException s w rs xpc = putWave s { w with trap := { w.trap with held := addRecs w.trap.held rs } } := by
  simp [takeException, hf, hq, hh, hv]

/-- Any other cause is delivered. -/
theorem takeException_delivers (hh : w.trap.h = false) (hv : w.saveReq ≠ some .full) :
    takeException s w rs xpc = deliver (putWave s (withRecs w (addRecs w.trap.recs rs))) (withRecs w (addRecs w.trap.recs rs)) xpc := by
  simp [takeException, hf, hq, hh, hv, withRecs]
end

/-- A wave as it is delivered its causes. -/
def delivered (w : Wave) (xpc : W64) : Wave :=
  { w with trap := { w.trap with
      recs := addRecs w.trap.recs w.trap.held, held := [], xpc := xpc &&& xaddrMask,
      defr := (addRecs w.trap.recs w.trap.held).all (fun r => isDeferred r.cause), ppriv := w.trap.prv, prv := true, h := true } }

/-- Without a handler a delivery ends the wave. -/
theorem deliver_noHandler {s : State} {w x : Wave} (hw : findWave s w.uid = some x) (hn : NoForks s w) (hx : w.trap.xvec = 0) (xpc : W64) :
    deliver s w xpc = endWave (putWave s (delivered w xpc)) (delivered w xpc) 4 (addRecs w.trap.recs w.trap.held).head? := by
  obtain ⟨hf, hs⟩ := hn
  have hfound : findWave (putWave s (delivered w xpc)) w.uid = some (delivered w xpc) := findWave_putWave_same (w := delivered w xpc) hw
  have hsquash : squashForks (putWave s (delivered w xpc)) w.uid = putWave s (delivered w xpc) :=
    squashForks_none (shadowsOf_putWave (w' := delivered w xpc) hf hs)
  simp only [delivered] at hfound hsquash ⊢
  simp only [deliver, hsquash, hfound, if_pos hx]

section
variable {s : State} {w : Wave} {c : Ctx} {rs : List CauseRec} (xpc : W64) (hw : findWave s w.uid = some w) (hn : NoForks s w)
  (hc : findCtx s w.asid = some c) (hq : w.viq = [])
include hn hc hq

/-- In a handler the wave ends with kind 3 and the new cause (R149). -/
theorem takeException_ends_handler (hh : w.trap.h = true) (hr : reruns s (withRecs w (addRecs w.trap.recs rs)) = false) :
    EndsIn s (takeException s w rs xpc) w c 3 (leadCause rs) := by
  obtain ⟨hf, hs⟩ := hn
  rw [takeException_handler xpc hf hq hh]
  exact endWave_ends (s := putWave s (withRecs w (addRecs w.trap.recs rs))) (w := withRecs w (addRecs w.trap.recs rs))
    (shadowsOf_putWave (by exact hf) hs) hr hc 3 rs

include hw

/-- Without a handler it ends with kind 4 and the lowest of the causes that would have been delivered (R152; log 86). -/
theorem takeException_ends_noHandler (hh : w.trap.h = false) (hv : w.saveReq ≠ some .full) (hx : w.trap.xvec = 0)
    (hr : reruns s (withRecs w (addRecs (addRecs w.trap.recs rs) w.trap.held)) = false) :
    EndsIn s (takeException s w rs xpc) w c 4 (leadCause (addRecs (addRecs w.trap.recs rs) w.trap.held)) := by
  obtain ⟨hf, hs⟩ := hn
  rw [takeException_delivers xpc hf hq hh hv]
  generalize hw1 : withRecs w (addRecs w.trap.recs rs) = w1
  have hs1 : shadowsOf (putWave s w1) w.uid (fun _ _ => true) = [] := shadowsOf_putWave (by rw [← hw1]; exact hf) hs
  have hfound : findWave (putWave s w1) w1.uid = some w1 := findWave_putWave_same (x := w) (by rw [← hw1]; exact hw)
  subst hw1
  rw [deliver_noHandler hfound ⟨by exact hf, hs1⟩ (by exact hx)]
  exact endWave_ends (w := delivered (withRecs w (addRecs w.trap.recs rs)) xpc) (shadowsOf_putWave (by exact hf) hs1) hr hc 4 _
end

/-- Settles O31: a record joins those held in one of three places, and taking an exception has one equation for each case. -/
theorem recordsAndEndsOfWaves : Obligations.RecordsAndEndsOfWaves := by
  unfold Obligations.RecordsAndEndsOfWaves
  refine ⟨fun rs r hrs => ⟨pairwise_addRec r hrs, ?_, ?_, ?_, ?_⟩, fun s w rs xpc c hw hn hc => ⟨?waits, ?handler, ?saving, ?noHandler⟩⟩
  · intro x hx hne
    obtain ⟨hxs, -⟩ | ⟨rfl, -⟩ | ⟨y, -, hy, rfl⟩ := (mem_addRec hrs).mp hx
    · exact hxs
    · exact absurd rfl hne
    · exact absurd hy hne
  · exact fun x hx hne => (mem_addRec hrs).mpr (.inl ⟨hx, hne⟩)
  · exact fun hnew => (mem_addRec hrs).mpr (.inr (.inl ⟨rfl, hnew⟩))
  · exact fun x hx he => (mem_addRec hrs).mpr (.inr (.inr ⟨x, hx, he, rfl⟩))
  case waits => exact fun hq => takeException_waits hn hq rs xpc
  case handler => exact fun hq hh hr => takeException_ends_handler xpc hn hc hq hh hr
  case saving =>
    intro hq hh hv
    obtain ⟨hframe, hfound, hothers, -⟩ :=
      onlyWave_putWave (w' := { w with trap := { w.trap with held := addRecs w.trap.held rs } }) hw rfl
    rw [takeException_saving xpc hn.1 hq hh hv]
    exact ⟨hframe, hfound, hothers⟩
  case noHandler => exact fun hq hh hv hx hr => takeException_ends_noHandler xpc hw hn hc hq hh hv hx hr

end Sys2Proof.Machine
end

section
/-!
PROOFS. The save of a wave that is given up, and its restore (O34): what a whole save and a hint keep of registers, scratchpad and tiles, and
where the wave stands when it is back.
-/
namespace Sys2Proof.Machine

/-! ### What a hint keeps (R157, R160) -/

theorem bitAt_eq_testBit (x n : Nat) : bitAt x n = x.testBit n := bitAt_of_eq (Nat.toNat_testBit x n).symm

/-- A key that a filter drops reads as the default. -/
theorem stGet_filter_dropped {α : Type} (d : α) {p : Nat → Bool} {k : Nat} (h : p k = false) (m : Store α) :
    stGet d k (m.filter (fun e => p e.1)) = d := by
  induction m with
  | nil => rfl
  | cons e r ih =>
    cases hp : p e.1 with
    | false => rw [List.filter_cons_of_neg (by simp [hp]), ih]
    | true =>
      have hne : k ≠ e.1 := fun hk => by rw [hk, hp] at h; cases h
      rw [List.filter_cons_of_pos (p := fun x : Nat × α => p x.1) hp, stGet, if_neg hne, ih]

/-- A byte lies in a range of the hint, or in a tile that it names. -/
def Kept (w : Wave) (ranges : List (Nat × Nat)) (tiles a : Nat) : Prop :=
  (∃ r ∈ ranges, 256 * r.1 ≤ a ∧ a < 256 * (r.1 + r.2)) ∨
  ∃ i t, w.tiles[i]? = some t ∧ tiles.testBit i = true ∧ 256 * t.base ≤ a ∧ a < 256 * t.base + tileBytes t

theorem inRanges_iff {rs : List (Nat × Nat)} {a : Nat} : inRanges rs a = true ↔ ∃ r ∈ rs, r.1 ≤ a ∧ a < r.1 + r.2 := by
  simp [inRanges]

theorem mem_hintRanges {w : Wave} {ranges : List (Nat × Nat)} {tiles : Nat} {r : Nat × Nat} : r ∈ hintRanges w ranges tiles ↔
    (∃ x ∈ ranges, r = (256 * x.1, 256 * x.2)) ∨
    ∃ i t, w.tiles[i]? = some t ∧ tiles.testBit i = true ∧ r = (256 * t.base, tileBytes t) := by
  have hpair (x : Nat × Tile) : x ∈ w.tiles.mapIdx (fun i t => (i, t)) ↔ w.tiles[x.1]? = some x.2 := by
    rw [List.mem_iff_getElem?]
    constructor
    · rintro ⟨i, hi⟩
      rw [List.getElem?_mapIdx, Option.map_eq_some_iff] at hi
      obtain ⟨t, ht, rfl⟩ := hi
      exact ht
    · intro ht
      exact ⟨x.1, by rw [List.getElem?_mapIdx, ht]; rfl⟩
  simp only [hintRanges, List.mem_append, List.mem_map, List.mem_filterMap, hpair, bitAt_eq_testBit, Prod.exists, Option.ite_none_right_eq_some,
    Option.some.injEq, eq_comm (b := r)]

theorem inRanges_hintRanges {w : Wave} {ranges : List (Nat × Nat)} {tiles a : Nat} :
    inRanges (hintRanges w ranges tiles) a = true ↔ Kept w ranges tiles a := by
  rw [inRanges_iff]
  constructor
  · rintro ⟨r, hr, hlo, hhi⟩
    obtain ⟨x, hx, rfl⟩ | ⟨i, t, ht, hb, rfl⟩ := mem_hintRanges.mp hr
    · exact .inl ⟨x, hx, hlo, by rw [Nat.mul_add]; exact hhi⟩
    · exact .inr ⟨i, t, ht, hb, hlo, hhi⟩
  · rintro (⟨x, hx, hlo, hhi⟩ | ⟨i, t, ht, hb, hlo, hhi⟩)
    · exact ⟨_, mem_hintRanges.mpr (.inl ⟨x, hx, rfl⟩), hlo, by rw [Nat.mul_add] at hhi; exact hhi⟩
    · exact ⟨_, mem_hintRanges.mpr (.inr ⟨i, t, ht, hb, rfl⟩), hlo, hhi⟩

section
variable (s : State) (w : Wave) (groups : Nat) (ranges : List (Nat × Nat)) (tiles : Nat) (acc : Bool)

/-- Vector registers of the groups that a hint names come back, the others read as zero. -/
theorem rdV_savedWave_hint (l : Nat) {n : Nat} (hn : n < 256) :
    rdV (savedWave s w (.hint groups ranges tiles acc)) l n = if groups.testBit (n / 8) then rdV w l n else 0 := by
  have hkey : (256 * l + n) % 256 / 8 = n / 8 := by omega
  rw [← bitAt_eq_testBit, ← hkey]
  cases h : bitAt groups ((256 * l + n) % 256 / 8) with
  | true => exact stGet_filter 0 (p := fun k => bitAt groups (k % 256 / 8)) h w.v
  | false => exact stGet_filter_dropped 0 (p := fun k => bitAt groups (k % 256 / 8)) h w.v

theorem tiles_savedWave_hint {i : Nat} {t : Tile} (h : w.tiles[i]? = some t) :
    (savedWave s w (.hint groups ranges tiles acc)).tiles[i]? = some (if tiles.testBit i then t else tileEmpty) := by
  change (w.tiles.mapIdx _)[i]? = _
  rw [List.getElem?_mapIdx, h, ← bitAt_eq_testBit]
  rfl

/-- Bytes of the scratchpad that a hint names come back. -/
theorem padBytes_savedWave_kept {a : Nat} (h : Kept w ranges tiles a) :
    padBytes (savedWave s w (.hint groups ranges tiles acc)).pad a 1 = padBytes w.pad a 1 :=
  congrArg (fun b => [b]) (stGet_filter unlistedByte (p := inRanges (hintRanges w ranges tiles)) (inRanges_hintRanges.mpr h) w.pad)

/-- Every other byte reads as zero. -/
theorem padBytes_savedWave_dropped {a : Nat} (h : ¬Kept w ranges tiles a) :
    padBytes (savedWave s w (.hint groups ranges tiles acc)).pad a 1 = [0] :=
  congrArg (fun b => [b]) (stGet_filter_dropped unlistedByte (p := inRanges (hintRanges w ranges tiles))
    (by rw [← inRanges_hintRanges] at h; simpa using h) w.pad)
end

/-- Whatever a save keeps of vector registers, scratchpad and tiles, it keeps the rest of the wave, which waits for nothing any more. -/
theorem savedWave_frame (s : State) (w : Wave) (h : SaveHint) :
    { savedWave s w h with v := w.v, pad := w.pad, padBad := w.padBad, tiles := w.tiles } = savedWave s w .full := by
  cases h <;> rfl

/-! ### The save (R159, R317) -/

/-- A lasting core's spare takes no wave and no byte of memory away. -/
theorem swapSpare_keeps (s : State) (die core : Nat) :
    (swapSpare s die core).waves = s.waves ∧ (swapSpare s die core).mem = s.mem ∧ (swapSpare s die core).saved = s.saved := by
  unfold swapSpare
  dsimp only
  split
  · generalize hs1 : freshUnit _ _ = s1
    have hpost := postEvent_frame s1 0x15 [die, 0, core, (dieAt s die).coreSpares - 1, 0, 0, 0]
    have hwaves := (congrArg State.waves hpost :)
    have hmem := (congrArg State.mem hpost :)
    have hsaved := (congrArg State.saved hpost :)
    subst hs1
    exact ⟨hwaves, hmem, hsaved⟩
  · exact ⟨rfl, rfl, rfl⟩

/-- The engine's lease is the wave's. -/
def holdsLease (s : State) (w : Wave) : Bool :=
  match (engineAt s (engineOf w.die w.core)).holder with | some x => x.1 == w.uid | none => false

/-- The lease is the wave's, and the save keeps it. -/
def keepsLease (s : State) (w : Wave) (h : SaveHint) : Bool := holdsLease s w && savesAcc h

theorem keepsLease_iff {s : State} {w : Wave} {h : SaveHint} : keepsLease s w h = true ↔
    (engineAt s (engineOf w.die w.core)).holder.map (fun y => y.1) = some w.uid ∧ savesAcc h = true := by
  unfold keepsLease holdsLease
  cases (engineAt s (engineOf w.die w.core)).holder <;> simp

/-- What the save of a wave leaves. -/
def savedEntry (s : State) (w : Wave) (h : SaveHint) : Saved :=
  let e := engineAt s (engineOf w.die w.core)
  { wave := { savedWave s w h with lease := if keepsLease s w h then w.lease else 0 }
    banks := if keepsLease s w h then some (e.a0, e.a1) else none
    ctx := match findCtx s w.asid with | some c => c.phase == .saving | none => false }

/-- The state before the core's place may go to a spare: the wave has left it. -/
def waveLeft (s : State) (w : Wave) : State :=
  let s1 := dropWave (flushWhere s w.die w.core (fun k => k.waves.contains w.wctx) [] none) w.uid
  if holdsLease s w then endLease s1 (engineOf w.die w.core) else s1

theorem saveWave_eq (s : State) (w : Wave) (h : SaveHint) :
    saveWave s w h = swapSpare { waveLeft s w with saved := (waveLeft s w).saved ++ [savedEntry s w h] } w.die w.core := rfl

/-- The wave that leaves is resident no more, and memory and the waves saved before are as they were. -/
theorem waveLeft_leaves (s : State) (w : Wave) :
    (waveLeft s w).waves = (dropWave s w.uid).waves ∧ (waveLeft s w).mem = s.mem ∧ (waveLeft s w).saved = s.saved := by
  have hflush := onlySettled_flushWhere s w.die w.core (fun k => k.waves.contains w.wctx) [] none
  have hwaves : (flushWhere s w.die w.core (fun k => k.waves.contains w.wctx) [] none).waves = s.waves := (congrArg State.waves hflush :)
  unfold waveLeft
  dsimp only
  generalize flushWhere s w.die w.core (fun k => k.waves.contains w.wctx) [] none = s1 at hflush hwaves
  have hdrop : (dropWave s1 w.uid).waves = (dropWave s w.uid).waves := by rw [dropWave, hwaves]; rfl
  have hmem : s1.mem = s.mem := (congrArg State.mem hflush :)
  have hsaved : s1.saved = s.saved := (congrArg State.saved hflush :)
  split
  · exact ⟨hdrop, hmem, hsaved⟩
  · exact ⟨hdrop, hmem, hsaved⟩

/-- A saved wave stands among the saved ones and is resident no more. -/
theorem saveWave_leaves (s : State) (w : Wave) (h : SaveHint) :
    findWave (saveWave s w h) w.uid = none ∧ SameMemory s (saveWave s w h) ∧ savedEntry s w h ∈ (saveWave s w h).saved := by
  obtain ⟨hwaves, hmem, -⟩ := waveLeft_leaves s w
  rw [saveWave_eq]
  obtain ⟨hw, hm, hs⟩ := swapSpare_keeps { waveLeft s w with saved := (waveLeft s w).saved ++ [savedEntry s w h] } w.die w.core
  dsimp only at hw hm hs
  refine ⟨?_, fun a => ?_, ?_⟩
  · rw [findWave, hw, hwaves]
    simp [dropWave]
  · rw [hm, hmem]
  · rw [hs]
    exact List.mem_append_right _ (List.mem_singleton_self _)

theorem exec_save {s : State} {uid : Nat} {w : Wave} {h : SaveHint} (hw : findWave s uid = some w)
    (hs : shadowsOf s uid (fun _ _ => true) = []) (hr : w.saveReq = some h) (hb : saveBusy s w = false) :
    exec (.save uid) s = .next (saveWave s w h) := by
  change execSave uid s = _
  simp [execSave, hw, hr, hb, squashForks_none hs]

/-! ### The restore (R160, R317) -/

/-- Something can be chosen of a list that is not empty. -/
theorem exists_pickBy {α : Type} (n : Nat) {xs : List α} (h : xs ≠ []) : ∃ x, pickBy n xs = some x := by
  have hlen := List.length_pos_iff.mpr h
  have hmod : n % max xs.length 1 < max xs.length 1 := Nat.mod_lt n (by omega)
  exact ⟨_, List.getElem?_eq_getElem (by omega)⟩

/-- The engine with the banks of a lease that a saved wave kept. -/
def withBanks (s : State) (x : Saved) : State :=
  let eng := engineOf x.wave.die x.wave.core
  match x.banks with
  | some k => putEngine s eng { engineAt s eng with
      a0 := k.1, a1 := k.2, holder := some (x.wave.uid, x.wave.asid), lastCtx := (findCtx s x.wave.asid).map (fun (c : Ctx) => c.serial) }
  | none => s

/-- The wave is back, with its registers and its scratchpad at a place of their own. -/
def backWave (s : State) (w : Wave) (v b : Nat) : Wave :=
  { w with vbase := v, sbase := b, placed := coreClock s w.die w.core - w.placed, chosen := coreClock s w.die w.core
           dchosen := coreClock s w.die w.core }
def withBack (s t : State) (x : Saved) (v b : Nat) : State :=
  { t with saved := t.saved.filter (fun y => !(y.wave.uid == x.wave.uid)), waves := t.waves ++ [backWave s x.wave v b] }

/-- The acquire of a wave that a context load starts (R401). -/
def afterLoad (s : State) (x : Saved) : State := if x.ctx then acquireAt s x.wave.die x.wave.core .sys else s

theorem exec_restore {s : State} {uid : Nat} {x : Saved} {c : Ctx} (hx : s.saved.find? (fun x => x.wave.uid == uid) = some x)
    (hc : findCtx s x.wave.asid = some c) (hp : c.phase ≠ .saving) (hfit : restoreFits s x.wave = true)
    (hbank : x.banks.isSome = true → leaseFree s (engineOf x.wave.die x.wave.core) = true) :
    ∃ v b, exec (.restore uid) s = .next (withBack s (afterLoad (withBanks s x) x) x v b) := by
  have huid : x.wave.uid = uid := by simpa using List.find?_some hx
  obtain ⟨hpads, hregs⟩ : coreBases s x.wave.die x.wave.core x.wave.foot ≠ [] ∧
      slotBases s x.wave.die x.wave.core (x.wave.wctx / 16) x.wave.foot ≠ [] := by
    simp only [restoreFits, Bool.and_eq_true] at hfit
    obtain ⟨⟨-, hpads⟩, hregs⟩ := hfit
    exact ⟨by simpa using hpads, by simpa using hregs⟩
  obtain ⟨v, hv⟩ := exists_pickBy (Config.choice (2 ^ 64 * (s.draws + 1) + 0)) hregs
  obtain ⟨b, hb⟩ := exists_pickBy (Config.choice (2 ^ 64 * (s.draws + 1) + 1)) hpads
  have hfree : (x.banks.isNone || leaseFree s (engineOf x.wave.die x.wave.core)) = true := by
    cases hk : x.banks with
    | none => rfl
    | some k => exact hbank (by rw [hk]; rfl)
  have hphase : (c.phase == .saving) = false := by simpa using hp
  refine ⟨v, b, ?_⟩
  change execRestore uid s = _
  simp only [execRestore, hx, hc, hphase, hfit, hfree, hv, hb, Bool.not_false, Bool.and_self]
  rw [← huid, withBack, afterLoad, withBanks, hc]
  rfl

@[simp] theorem acquireAt_engines (s : State) (die core : Nat) (sc : Scope) : (acquireAt s die core sc).engines = s.engines := by
  cases sc <;> rfl

/-- Its engine is held again, with the banks that were saved. -/
theorem engineAt_restored {s : State} {x : Saved} {k : Bank × Bank} (hk : x.banks = some k) (v b : Nat) :
    let e := engineAt (withBack s (afterLoad (withBanks s x) x) x v b) (engineOf x.wave.die x.wave.core)
    e.holder = some (x.wave.uid, x.wave.asid) ∧ e.a0 = k.1 ∧ e.a1 = k.2 := by
  have hengines : (withBack s (afterLoad (withBanks s x) x) x v b).engines = (withBanks s x).engines := by
    change (afterLoad (withBanks s x) x).engines = _
    unfold afterLoad
    split
    · exact acquireAt_engines _ _ _ _
    · rfl
  dsimp only
  rw [engineAt, hengines]
  simp [withBanks, hk, putEngine]

theorem keepsMem_restored (s : State) (x : Saved) (v b : Nat) : KeepsMem s (withBack s (afterLoad (withBanks s x) x) x v b) := by
  have hbanks : KeepsMem s (withBanks s x) := by
    unfold withBanks
    dsimp only
    split <;> exact ⟨rfl, rfl⟩
  have hload : KeepsMem (withBanks s x) (afterLoad (withBanks s x) x) := by
    unfold afterLoad
    split
    · exact keepsMem_acquireAt _ _ _ _
    · exact .refl _
  exact (hbanks.trans hload).trans ⟨rfl, rfl⟩

/-- The lease and the accumulators go with the wave that holds them, unless its hint leaves them out. -/
theorem savedEntry_lease (s : State) (w : Wave) (h : SaveHint) :
    if (engineAt s (engineOf w.die w.core)).holder.map (fun y => y.1) = some w.uid ∧ savesAcc h = true then
      (savedEntry s w h).wave.lease = w.lease ∧
        (savedEntry s w h).banks = some ((engineAt s (engineOf w.die w.core)).a0, (engineAt s (engineOf w.die w.core)).a1)
    else (savedEntry s w h).wave.lease = 0 ∧ (savedEntry s w h).banks = none := by
  split
  · next hk => simp [savedEntry, keepsLease_iff.mpr hk]
  · next hk =>
    have hkeep : keepsLease s w h = false := by simpa using mt keepsLease_iff.mp hk
    simp [savedEntry, hkeep]

/-- The slices keep their lanes. -/
theorem sliceAt_savedWave (s : State) (w : Wave) (h : SaveHint) (i : Nat) :
    (sliceAt (savedWave s w h) i).run = (sliceAt w i).run ∧ (sliceAt (savedWave s w h) i).parked = (sliceAt w i).parked ∧
      (sliceAt (savedWave s w h) i).idle = (sliceAt w i).idle := by
  have hslice : sliceAt (savedWave s w h) i = sliceAt (updSlices w (liveSlices w) (fun sl => { sl with atRegang := none, atRet := false })) i :=
    (congrArg (fun y => sliceAt y i) (savedWave_frame s w h) :)
  rw [hslice]
  exact ⟨sliceAt_updSlices_field Slice.run (by exact fun _ => rfl) w (liveSlices w) i,
    sliceAt_updSlices_field Slice.parked (by exact fun _ => rfl) w (liveSlices w) i, sliceAt_updSlices_field Slice.idle (by exact fun _ => rfl) w (liveSlices w) i⟩

/-- Settles O34: the save leaves one entry, whose fields are the wave's but for those that a hint drops; the restore puts them back at a place
that has room. -/
theorem saveAndRestore : Obligations.SaveAndRestore := by
  unfold Obligations.SaveAndRestore
  refine fun s uid => ⟨fun w h hw hn hr hb => ?save, fun x c hx hc hp hfit hbank => ?restore⟩
  case save =>
    obtain rfl := findWave_uid hw
    obtain ⟨hgone, hmem, hin⟩ := saveWave_leaves s w h
    have hframe := savedWave_frame s w h
    refine ⟨_, exec_save hw hn.2 hr hb, hgone, hmem, _, hin, (congrArg Wave.uid hframe :), (congrArg Wave.saveReq hframe :),
      (congrArg Wave.preq hframe :), (congrArg Wave.s hframe :), (congrArg Wave.hs hframe :), (congrArg Wave.k hframe :), (congrArg Wave.q hframe :),
      (congrArg Wave.trap hframe :), (congrArg Wave.path hframe :), (congrArg Wave.weight hframe :), (congrArg Wave.fpmode hframe :),
      (congrArg Wave.fpflags hframe :), (congrArg Wave.cur hframe :), (congrArg Wave.slots hframe :), (congrArg Wave.seqs hframe :), sliceAt_savedWave s w h,
      savedEntry_lease s w h, ?_, ?_⟩
    · rintro rfl
      exact ⟨rfl, rfl, rfl⟩
    · rintro groups ranges tiles acc rfl
      exact ⟨fun l n hl => rdV_savedWave_hint s w groups ranges tiles acc l hl, fun i t ht => tiles_savedWave_hint s w groups ranges tiles acc ht,
        fun a ha => padBytes_savedWave_kept s w groups ranges tiles acc ha,
        fun a hr ht => padBytes_savedWave_dropped s w groups ranges tiles acc (fun hk => hk.elim hr ht)⟩
  case restore =>
    have huid : x.wave.uid = uid := by simpa using List.find?_some hx
    obtain ⟨v, b, he⟩ := exec_restore hx hc hp hfit hbank
    refine ⟨_, he, fun a => ?_, fun y hy => ?_, ⟨backWave s x.wave v b, List.mem_append_right _ (List.mem_singleton_self _), rfl⟩, fun k hk => ?_⟩
    · rw [(keepsMem_restored s x v b).1]
    · have hne := (List.mem_filter.mp hy).2
      rw [huid] at hne
      simpa using hne
    · rw [← huid]
      exact engineAt_restored hk v b

end Sys2Proof.Machine
end

section
/-!
PROOFS. Causes raised by `trap`, privilege and failed checks (O30). First what a raised cause leaves: its record and the handler entered. Then, for each
body that instructions share, the check that fails first; the obligation takes them one instruction at a time.
-/
namespace Sys2Proof.Machine

/-! ### From a raised cause to its handler (R142, R146) -/

/-- The records of the causes that lanes raise. -/
def laneRecs (w : Wave) (fs : List (Nat × LaneFault)) : List CauseRec :=
  ((List.range 16).filter (fun c => fs.any (fun f => f.2.cause == c))).map (fun c => causeOf w c fs)

theorem raiseLanes_eq (s : State) (w : Wave) (fs : List (Nat × LaneFault)) : raiseLanes s w fs = takeException s w (laneRecs w fs) (gpc w) := rfl

/-- Lanes that all raise one cause share one record. -/
theorem laneRecs_const (w : Wave) {ls : List Nat} (hls : ls ≠ []) {e : LaneFault} (he : e.cause < 16) :
    laneRecs w (ls.map (fun l => (l, e))) =
      [{ cause := e.cause, lanes := laneMask ls, more := false, addr := BitVec.ofNat 64 e.addr, pc := gpc w, detail := BitVec.ofNat 64 e.detail }] := by
  have hone : ∀ c < 16, (List.range 16).filter (fun x => c == x) = [c] := by decide
  have hany (c : Nat) : (ls.map (fun l => (l, e))).any (fun f => f.2.cause == c) = (e.cause == c) := by
    rw [Bool.eq_iff_iff]
    simp [List.exists_mem_of_ne_nil ls hls]
  have hcauses : (List.range 16).filter (fun c => (ls.map (fun l => (l, e))).any (fun f => f.2.cause == c)) = [e.cause] := by
    rw [funext hany, hone _ he]
  obtain ⟨l, r, rfl⟩ := List.exists_cons_of_ne_nil hls
  rw [laneRecs, hcauses]
  simp [causeOf, List.filter_map, Function.comp_def]

section
variable {i : Instr} {s : State} {w : Wave} {ls : List Nat}

theorem runLanes_ne_nil_of_issues (hi : Issues s i w ls) : runLanes w ≠ [] := by
  obtain ⟨-, -, rfl, hne⟩ := hi
  intro hnil
  apply hne
  unfold guardLanes
  rw [hnil]
  split
  · rfl
  · split <;> rfl

/-- On the drill the lanes are those of the running parts. -/
theorem lanes_of_drill (hv : i.vecGuard = false) (hi : Issues s i w ls) : ls = runLanes w := by
  obtain ⟨-, -, rfl, hne⟩ := hi
  simp only [guardLanes, hv] at hne ⊢
  grind

/-- An instruction whose body takes an exception traps. -/
theorem traps_of_body (hc : CanTrap s w) (hi : Issues s i w ls) {body : State → Wave → List Nat → Out} {rs : List CauseRec} {xpc : W64}
    (hx : exec i s = runInstr i s body) (hb : body s w ls = .next (takeException s w rs xpc)) : Traps i s w rs xpc := by
  refine ⟨_, ?_, takeException_enters (curWave_found hi.1).2 hc rs xpc⟩
  rw [hx, runInstr_issues hi, hb]

/-- It does so at word 0 when lanes raise causes. -/
theorem traps_of_lanes (hc : CanTrap s w) (hi : Issues s i w ls) {body : State → Wave → List Nat → Out} {fs : List (Nat × LaneFault)}
    (hx : exec i s = runInstr i s body) (hb : body s w ls = .next (raiseLanes s w fs)) : Traps i s w (laneRecs w fs) (gpc w) :=
  traps_of_body hc hi hx hb

/-- And when a check on the drill raises one, with the lanes of the running parts. -/
theorem traps_of_drill (hc : CanTrap s w) (hi : Issues s i w ls) {body : State → Wave → List Nat → Out} {c a d : Nat} (hcause : c < 16)
    (hx : exec i s = runInstr i s body) (hb : body s w ls = .next (raiseDrill s w c a d)) :
    Traps i s w [drillRec w c (BitVec.ofNat 64 a) d] (gpc w) := by
  have hrec := laneRecs_const w (runLanes_ne_nil_of_issues hi) (e := { cause := c, addr := a, detail := d }) hcause
  have ht := traps_of_lanes hc hi hx hb
  rw [hrec] at ht
  exact ht

/-- The same with the address of word 0. -/
theorem traps_of_pc (hc : CanTrap s w) (hi : Issues s i w ls) {body : State → Wave → List Nat → Out} {c d : Nat} (hcause : c < 16)
    (hx : exec i s = runInstr i s body) (hb : body s w ls = .next (raisePc s w c d)) : Traps i s w [drillRec w c (gpc w) d] (gpc w) := by
  have ht := traps_of_drill hc hi hcause hx hb
  rwa [BitVec.ofNat_toNat, BitVec.setWidth_eq] at ht

end

/-! ### Causes of the checks are defined ones (R142) -/

section
variable {s : State} {w : Wave} {e : LaneFault}

theorem cause_checkPage {asid : Nat} {wsw : Bool} {k : AKind} {va size : Nat} (h : checkPage s asid wsw k va size = .error e) : e.cause < 16 := by
  unfold checkPage at h
  split at h
  · cases h; simp [cXlat]
  · dsimp only at h
    split at h
    · cases h; simp [cMisalign]
    · split at h
      · cases h; simp [cPerm]
      · split at h
        · cases h; simp [cPerm]
        · split at h
          · cases h; simp [cEstType]
          · cases h

theorem cause_checkMem {asid : Nat} {wsw : Bool} {k : AKind} {va size : Nat} (h : checkMem s asid wsw k va size = .error e) : e.cause < 16 := by
  unfold checkMem at h
  split at h
  · cases h; simp [cMisalign]
  · exact cause_checkPage h

theorem cause_peerAt {p : W64} {off : Int} {n : Nat} (h : peerAt s w p off n = .error e) : e.cause < 16 := by
  unfold peerAt at h
  dsimp only at h
  split at h
  · cases h; simp [cMisalign]
  · split at h
    · cases h; simp [cBounds]
    · split at h
      · cases h; simp [cPeerGone]
      · split at h
        · cases h
        · cases h; simp [cBounds]

theorem cause_barAddr {peer early : Bool} {a : W64} (h : barAddr s w peer a early = .error e) : e.cause < 16 := by
  unfold barAddr at h
  generalize (if peer then field a.toNat 31 0 else a.toNat) = p at h
  dsimp only at h
  split at h
  · cases h; simp [cMisalign]
  · split at h
    · cases h; simp [cBounds]
    · split at h
      · exact cause_peerAt h
      · split at h
        · cases h; simp [cBounds]
        · cases h
end

/-! ### Privilege (R153) -/

theorem privileged_raises {w : Wave} (hp : w.trap.prv = false) (s : State) (d : Nat) (k : Out) : privileged s w d k = .next (raisePc s w 1 d) := by
  simp [privileged, hp, cPriv]

theorem regGuard_raises {w : Wave} {n : Nat} (hp : w.trap.prv = false) (hn : specialPriv n = true) (s : State) (k : Out) :
    regGuard s w n k = .next (raisePc s w 1 n) := by
  rw [regGuard, if_pos hn, privileged_raises hp]

/-- Five configuration words can be read. -/
theorem cfgRead_isSome (s : State) (w : Wave) {n : Nat} (h : n < 5) : ∃ x, cfgRead s w n = some x := by
  interval_cases n <;> exact ⟨_, rfl⟩

/-! ### Memory, scratchpad, peers and cells (R143, R189) -/

section
variable {s : State} {w : Wave} {o : Ops} {ls : List Nat} {es : List (Nat × LaneFault)} {n : Nat} {acc : State → Wave → Nat → Except LaneFault Acc}

theorem whoOf_uid (hf : w.fork = none) : (whoOf w).uid = w.uid := by simp [whoOf, hf]

theorem loadBody_fault (hf : w.fork = none) (hn : counter s w.uid .ld < 63) (he : gather (acc s w) (accLanes o ls) = .error es) :
    loadBody o n acc s w ls = .next (raiseLanes s w (accFaults w o es)) := by
  rw [loadBody, whoOf_uid hf, if_neg (by omega), he]

theorem storeBody_fault (hf : w.fork = none) (hn : counter s w.uid .st < 63) (he : gather (acc s w) (accLanes o ls) = .error es) :
    storeBody o n acc s w ls = .next (raiseLanes s w (accFaults w o es)) := by
  rw [storeBody, whoOf_uid hf, if_neg (by simp [hf, hn]), he]

theorem atomBody_fault {load : Bool} (hf : w.fork = none) (hn : counter s w.uid (if load then .ld else .st) < 63)
    (he : gather (memAcc s w .atomic (eaOf w o (o.x / 16)) (Machine.sizeOf o)) (accLanes o ls) = .error es) :
    atomBody o load s w ls = .next (raiseLanes s w (accFaults w o es)) := by
  rw [atomBody, whoOf_uid hf, if_neg (by omega), he]

theorem estBody_fault {k : AKind} {cls : Cls} {body : State → List (Nat × CellRef × Region) → Out} (hn : counter s w.uid cls < 63)
    (he : gather (cellAt s w o k) ls = .error es) : estBody o k cls s w ls body = .next (raiseLanes s w es) := by
  rw [estBody, if_neg (by omega), he]

/-! ### Barriers (R206) -/

theorem barBody_fault {bad release : Bool} {op : BarOp} {e : LaneFault} (hn : counter s w.uid .st < 63)
    (he : barAddr s w (bitAt o.x 0) (rdS w o.a) bad = .error e) :
    barBody o bad release op s w = .next (raiseDrill s w e.cause e.addr e.detail) := by
  rw [barBody, if_neg (by omega), he]

/-- A count out of range is found before the barrier is looked up. -/
theorem barAddr_early {peer : Bool} {a : W64} (ha : (if peer then field a.toNat 31 0 else a.toNat) % 16 = 0) :
    barAddr s w peer a true = .error { cause := 5, addr := (gpc w).toNat, detail := 0 } := by
  simp [barAddr, ha, cBounds]
end

/-! ### Tables (R115) -/

theorem briOut_misaligned {s : State} {w : Wave} {ls : List Nat} {a : Nat} (vec : Bool) (b : Nat) (h : (rdS w a).toNat % 8 ≠ 0) :
    briOut vec a b s w ls = some (.next (raiseLanes s w (ls.map (fun l => (l, { cause := 4, addr := (rdS w a).toNat, detail := 8 }))))) := by
  simp [briOut, h, cMisalign]

/-! ### Descriptors of textures and of launches (R342, R328) -/

theorem texBody_fault {fn : TexFn} {align coords grads : Nat} {o : Ops} {s : State} {w : Wave} {ls : List Nat} {e : LaneFault}
    (hn : counter s w.uid .tx < 63)
    (he : ((rdS w o.a).toNat % align ≠ 0 ∧ e = { cause := 4, addr := (rdS w o.a).toNat, detail := 8 }) ∨
      ((rdS w o.a).toNat % align = 0 ∧ checkPage s w.asid false .load (rdS w o.a).toNat 8 = .error e)) :
    texBody fn align o coords grads s w ls = .next (raiseLanes s w (ls.map (fun l => (l, e)))) := by
  unfold texBody
  dsimp only
  rw [if_neg (by omega)]
  obtain ⟨hmis, rfl⟩ | ⟨hal, hpage⟩ := he
  · rw [if_pos hmis]
    rfl
  · rw [if_neg (by omega), hpage]

/-! ### What is sent (R377) -/

section
variable {s : State} {w : Wave} {k : Send} {t : Nat}

theorem tNode_eq (t : Nat) : tNode t = t % 2 ^ 12 := by simp [tNode, field]

/-- A target with bits it may not hold. -/
theorem sendFault_mask (h : t &&& sendMask k t ≠ t) : sendFault s w k t = some (5, 0) := by
  have hbad : (t == t &&& sendMask k t) = false := by simpa using Ne.symm h
  simp [sendFault, hbad, cBounds]

/-- A node that its context does not have. -/
theorem sendFault_noNode (h : nodeOf s w.asid (t % 2 ^ 12) = none) : sendFault s w k t = some (5, 0) := by
  simp [-Nat.reducePow, sendFault, tNode_eq, h, cBounds]

/-- A message for a sink. -/
theorem sendFault_sink {n : Node} (h : nodeOf s w.asid (t % 2 ^ 12) = some n) (hs : n.sink = true) : sendFault s w .amsg t = some (5, 0) := by
  simp [-Nat.reducePow, sendFault, tNode_eq, h, hs, cBounds]

/-- A child that would lie too deep. -/
theorem sendFault_depth {n : Node} (ht : t < 2 ^ 12) (hp : s.pod.pkg ∈ s.pod.members) (h : nodeOf s w.asid t = some n) (hv : n.valid = true)
    (hd : w.depth = 15) : sendFault s w .spawn t = some (9, t) := by
  have hmod : t % 2 ^ 12 = t := Nat.mod_eq_of_lt ht
  have hmask : t &&& 4095 = t := (Nat.and_two_pow_sub_one_eq_mod t 12).trans hmod
  simp [-Nat.reducePow, sendFault, tNode_eq, hmod, sendMask, hmask, sendPkg, hp, h, hv, hd, cDepth]

/-- A target that names only a node has no bit above it. -/
theorem and_mask_ne {b : Nat} (h : 2 ^ b ≤ t) : t &&& (2 ^ b - 1) ≠ t := by
  rw [Nat.and_two_pow_sub_one_eq_mod]
  have := Nat.mod_lt t (Nat.two_pow_pos b)
  omega

theorem sendBody_fault {o : Ops} {e : Nat × Nat} (h : sendFault s w k (opB w o .b64 0) = some e) :
    sendBody k o s w = .next (raisePc s w e.1 e.2) := by
  unfold sendBody
  dsimp only [taskTarget]
  rw [h]
end

/-! ### Regions and tiles (R278, R279, R282) -/

section
variable {s : State} {w : Wave} {c : Cop}

theorem regionBody_fault {r : Region} {adv : Bool} (hn : counter s w.uid .st < 63)
    (h : 256 ≤ (rdS w c.sa).toNat ∨ (regionOf s w.asid (rdS w c.sa).toNat = some r ∧ r.valid = false)) :
    regionBody c adv s w = .next (raisePc s w 5 0) := by
  unfold regionBody
  dsimp only
  rw [if_neg (by omega)]
  by_cases hlt : (rdS w c.sa).toNat < 256
  · obtain ⟨hr, hv⟩ := h.resolve_left (by omega)
    rw [if_pos hlt, hr]
    simp [hv, cBounds]
  · rw [if_neg hlt]
    rfl

theorem tdefBody_bounds {t base size : Nat} (hn : counter s w.uid .cp < 63) (h : w.foot.spad < 256 * base + size) :
    tdefBody s w t (.defBytes base size) = .next (raisePc s w 5 0) := by
  unfold tdefBody
  dsimp only
  rw [if_neg (by omega), if_pos (by exact h)]
  rfl

/-! ### Copies (R284 to R287) -/

variable {fn : CopyFn}

/-- The address of memory is checked first. -/
theorem copyBody_misaligned (hfull : copyFull s w = false) (hfn : fn ≠ .fill) (h : (rdS w c.sa).toNat % fmtAlign c.fmt ≠ 0) :
    copyBody c fn s w = .next (raiseDrill s w 4 (rdS w c.sa).toNat (fmtAlign c.fmt)) := by
  simp [copyBody, hfull, hfn, h, misFault, firstFault, cMisalign]

/-- Then the barrier that the copy names. -/
theorem copyBody_bar {e : LaneFault} (hfull : copyFull s w = false) (hfn : fn ≠ .gth) (h : (rdS w c.sa).toNat % fmtAlign c.fmt = 0)
    (hstr : c.str = false) (hbar : c.bar = true) (he : barAddr s w c.pb (rdS w c.sb) false = .error e) :
    copyBody c fn s w = .next (raiseDrill s w e.cause e.addr e.detail) := by
  cases hmis : e.cause == cMisalign <;>
    simp [copyBody, hfull, hfn, h, hstr, hbar, he, copyBar, barFault, hmis, misFault, firstFault]

/-- Then the tile's state. -/
theorem copyBody_tile (hfull : copyFull s w = false) (hfn : fn ≠ .gth) (h : (rdS w c.sa).toNat % fmtAlign c.fmt = 0) (hstr : c.str = false)
    (hbar : c.bar = false) (ht : (fn = .ws ∧ (tileNext s w.uid c.ta).plane = false) ∨ (fn = .st ∧ tileBreach s w.uid c.ta = true)) :
    copyBody c fn s w = .next (raisePc s w 8 c.ta) := by
  obtain ⟨rfl, hp⟩ | ⟨rfl, hb⟩ := ht
  · simp [copyBody, hfull, h, hstr, hbar, hp, copyBar, misFault, firstFault, cTileState, raisePc]
  · simp [copyBody, hfull, h, hstr, hbar, hb, copyBar, misFault, firstFault, cTileState, raisePc]

/-- A gather checks the list of its rows: alignment, then bounds. -/
theorem copyBody_index_misaligned (hfull : copyFull s w = false) (h : (rdS w c.sa).toNat % fmtAlign c.fmt = 0) (hstr : c.str = false)
    (hidx : (rdS w c.sb).toNat % 4 ≠ 0) : copyBody c .gth s w = .next (raiseDrill s w 4 (rdS w c.sb).toNat 4) := by
  simp [copyBody, hfull, h, hstr, hidx, misFault, firstFault, cMisalign]

theorem copyBody_index_bounds (hfull : copyFull s w = false) (h : (rdS w c.sa).toNat % fmtAlign c.fmt = 0) (hstr : c.str = false)
    (hbar : c.bar = false) (hidx : (rdS w c.sb).toNat % 4 = 0) (hb : w.foot.spad < (rdS w c.sb).toNat + 4 * (tileNext s w.uid c.ta).rows) :
    copyBody c .gth s w = .next (raiseDrill s w 5 (max (rdS w c.sb).toNat w.foot.spad) 0) := by
  simp [copyBody, hfull, h, hstr, hbar, hidx, hb, copyBar, misFault, firstFault, cBounds]

/-! ### Gleans (R291) -/

variable {g : GleanCmd} {align : Nat}

theorem gleanBody_src_misaligned (hfull : copyFull s w = false) (h : g.src.toNat % gleanSize g ≠ 0) :
    gleanBody c g align s w = .next (raiseDrill s w 4 g.src.toNat (gleanSize g)) := by
  simp [gleanBody, hfull, h, misFault, firstFault, cMisalign]

theorem gleanBody_dst_misaligned (hfull : copyFull s w = false) (h : g.src.toNat % gleanSize g = 0) (hd : g.dst.toNat % align ≠ 0) :
    gleanBody c g align s w = .next (raiseDrill s w 4 g.dst.toNat align) := by
  simp [gleanBody, hfull, h, hd, misFault, firstFault, cMisalign]

theorem gleanBody_src_bounds (hfull : copyFull s w = false) (h : g.src.toNat % gleanSize g = 0) (hd : g.dst.toNat % align = 0)
    (hp : g.srcPad = true) (hb : w.foot.spad < g.src.toNat + gleanSize g * g.n) :
    gleanBody c g align s w = .next (raiseDrill s w 5 (max g.src.toNat w.foot.spad) 0) := by
  simp [gleanBody, hfull, h, hd, hp, hb, padFault, misFault, firstFault, cBounds]
end

/-! ### Which check of which instruction

The groups below take the instructions one by one: each runs its body, and the body's first failing check is one of those above. -/

section
variable {s : State} {w : Wave} {ls : List Nat} {o : Ops} {c : Cop} (hc : CanTrap s w)
include hc

theorem privileged_traps (hp : w.trap.prv = false) :
    (Issues s (.xret o) w ls → Traps (.xret o) s w [drillRec w 1 (gpc w) 0] (gpc w)) ∧
    (Issues s (.xclr o) w ls → Traps (.xclr o) s w [drillRec w 1 (gpc w) 0] (gpc w)) ∧
    (Issues s (.tlbi o) w ls → Traps (.tlbi o) s w [drillRec w 1 (gpc w) 0] (gpc w)) ∧
    (Issues s (.cfgw o) w ls → (immOf o).toNat = 0 → Traps (.cfgw o) s w [drillRec w 1 (gpc w) 0] (gpc w)) ∧
    (Issues s (.cfgr o) w ls → (immOf o).toNat < 5 → Traps (.cfgr o) s w [drillRec w 1 (gpc w) (immOf o).toNat] (gpc w)) ∧
    (Issues s (.gets o) w ls → specialPriv o.a = true → Traps (.gets o) s w [drillRec w 1 (gpc w) o.a] (gpc w)) ∧
    (Issues s (.sets o) w ls → specialPriv o.a = true → Traps (.sets o) s w [drillRec w 1 (gpc w) o.a] (gpc w)) := by
  refine ⟨fun hi => ?_, fun hi => ?_, fun hi => ?_, fun hi himm => ?_, fun hi himm => ?_, fun hi ha => ?_, fun hi ha => ?_⟩
  · exact traps_of_pc hc hi (by decide) (execXret.eq_def o s) (privileged_raises hp s 0 _)
  · exact traps_of_pc hc hi (by decide) (execXclr.eq_def o s) (privileged_raises hp s 0 _)
  · exact traps_of_pc hc hi (by decide) (execTlbi.eq_def o s) (privileged_raises hp s 0 _)
  · refine traps_of_pc hc hi (by decide) (execCfgw.eq_def o s) ?_
    rw [if_neg (not_not.mpr himm), privileged_raises hp]
  · obtain ⟨x, hx⟩ := cfgRead_isSome s w himm
    refine traps_of_pc hc hi (by decide) (execCfgr.eq_def o s) ?_
    rw [hx]
    exact privileged_raises hp s _ _
  · have hne : (o.a == 0x0D) = false := by
      simp only [specialPriv, decide_eq_true_eq] at ha
      simp only [beq_eq_false_iff_ne]
      omega
    refine traps_of_pc hc hi (by decide) (execGets.eq_def o s) ?_
    rw [hne, Bool.false_and, if_neg Bool.false_ne_true, regGuard_raises hp ha]
  · exact traps_of_pc hc hi (by decide) (execSets.eq_def o s) (regGuard_raises hp ha s _)

theorem load_traps (hn : counter s w.uid .ld < 63) (es : List (Nat × LaneFault)) :
    (Issues s (.ld o) w ls → gather (memAcc s w .load (eaOf w o o.x) (Machine.sizeOf o)) (accLanes o ls) = .error es →
      Traps (.ld o) s w (laneRecs w (accFaults w o es)) (gpc w)) ∧
    (Issues s (.ldu o) w ls → gather (memAcc s w .load (eaOf w o o.x) (Machine.sizeOf o)) (accLanes o ls) = .error es →
      Traps (.ldu o) s w (laneRecs w (accFaults w o es)) (gpc w)) ∧
    (Issues s (.lds o) w ls → gather (padAcc w (eaOf w o o.x) (Machine.sizeOf o)) (accLanes o ls) = .error es →
      Traps (.lds o) s w (laneRecs w (accFaults w o es)) (gpc w)) ∧
    (Issues s (.ldp o) w ls → gather (peerAcc s w o (Machine.sizeOf o)) (accLanes o ls) = .error es →
      Traps (.ldp o) s w (laneRecs w (accFaults w o es)) (gpc w)) ∧
    (Issues s (.atom o) w ls → gather (memAcc s w .atomic (eaOf w o (o.x / 16)) (Machine.sizeOf o)) (accLanes o ls) = .error es →
      Traps (.atom o) s w (laneRecs w (accFaults w o es)) (gpc w)) ∧
    (Issues s (.estLd o) w ls → gather (cellAt s w o .estRead) ls = .error es → Traps (.estLd o) s w (laneRecs w es) (gpc w)) := by
  have hf : w.fork = none := hc.1.1
  refine ⟨fun hi he => ?_, fun hi he => ?_, fun hi he => ?_, fun hi he => ?_, fun hi he => ?_, fun hi he => ?_⟩
  · exact traps_of_lanes hc hi (execLd.eq_def o s) (loadBody_fault hf hn he)
  · exact traps_of_lanes hc hi (execLdu.eq_def o s) (loadBody_fault hf hn he)
  · exact traps_of_lanes hc hi (execLds.eq_def o s) (loadBody_fault hf hn he)
  · exact traps_of_lanes hc hi (execLdp.eq_def o s) (loadBody_fault hf hn he)
  · exact traps_of_lanes hc hi (execAtom.eq_def o s) (atomBody_fault (load := true) hf hn he)
  · exact traps_of_lanes hc hi (execEstLd.eq_def o s) (estBody_fault hn he)

theorem store_traps (hn : counter s w.uid .st < 63) (es : List (Nat × LaneFault)) :
    (Issues s (.st o) w ls → gather (memAcc s w .store (eaOf w o o.x) (Machine.sizeOf o)) (accLanes o ls) = .error es →
      Traps (.st o) s w (laneRecs w (accFaults w o es)) (gpc w)) ∧
    (Issues s (.sts o) w ls → gather (padAcc w (eaOf w o o.x) (Machine.sizeOf o)) (accLanes o ls) = .error es →
      Traps (.sts o) s w (laneRecs w (accFaults w o es)) (gpc w)) ∧
    (Issues s (.stu o) w ls → gather (memAcc s w .store (eaOf w o o.x) (Machine.sizeOf o)) (accLanes o ls) = .error es →
      Traps (.stu o) s w (laneRecs w (accFaults w o es)) (gpc w)) ∧
    (Issues s (.stp o) w ls → gather (peerAcc s w o (Machine.sizeOf o)) (accLanes o ls) = .error es →
      Traps (.stp o) s w (laneRecs w (accFaults w o es)) (gpc w)) ∧
    (Issues s (.red o) w ls → gather (memAcc s w .atomic (eaOf w o (o.x / 16)) (Machine.sizeOf o)) (accLanes o ls) = .error es →
      Traps (.red o) s w (laneRecs w (accFaults w o es)) (gpc w)) ∧
    (Issues s (.estAdd o) w ls → gather (cellAt s w o .estWrite) ls = .error es → Traps (.estAdd o) s w (laneRecs w es) (gpc w)) ∧
    (Issues s (.estMrg o) w ls → gather (cellAt s w o .estWrite) ls = .error es → Traps (.estMrg o) s w (laneRecs w es) (gpc w)) ∧
    (Issues s (.estClr o) w ls → gather (cellAt s w o .estWrite) ls = .error es → Traps (.estClr o) s w (laneRecs w es) (gpc w)) := by
  have hf : w.fork = none := hc.1.1
  refine ⟨fun hi he => ?_, fun hi he => ?_, fun hi he => ?_, fun hi he => ?_, fun hi he => ?_, fun hi he => ?_, fun hi he => ?_, fun hi he => ?_⟩
  · exact traps_of_lanes hc hi (execSt.eq_def o s) (storeBody_fault hf hn he)
  · exact traps_of_lanes hc hi (execSts.eq_def o s) (storeBody_fault hf hn he)
  · exact traps_of_lanes hc hi (execStu.eq_def o s) (storeBody_fault hf hn he)
  · exact traps_of_lanes hc hi (execStp.eq_def o s) (storeBody_fault hf hn he)
  · exact traps_of_lanes hc hi (execRed.eq_def o s) (atomBody_fault (load := false) hf hn he)
  · exact traps_of_lanes hc hi (execEstAdd.eq_def o s) (estBody_fault hn he)
  · exact traps_of_lanes hc hi (execEstMrg.eq_def o s) (estBody_fault hn he)
  · exact traps_of_lanes hc hi (execEstClr.eq_def o s) (estBody_fault hn he)

theorem barrier_traps (hn : counter s w.uid .st < 63) {bad : Bool} {e : LaneFault} (he : barAddr s w (bitAt o.x 0) (rdS w o.a) bad = .error e) :
    (Issues s (.barInit o) w ls → bad = badCount (opB w o .b64 0) →
      Traps (.barInit o) s w [drillRec w e.cause (BitVec.ofNat 64 e.addr) e.detail] (gpc w)) ∧
    (Issues s (.barArr o) w ls → bad = badCount (opB w o .b64 0) →
      Traps (.barArr o) s w [drillRec w e.cause (BitVec.ofNat 64 e.addr) e.detail] (gpc w)) ∧
    (Issues s (.barExp o) w ls → bad = false → Traps (.barExp o) s w [drillRec w e.cause (BitVec.ofNat 64 e.addr) e.detail] (gpc w)) := by
  refine ⟨?_, ?_, ?_⟩
  · rintro hi rfl
    exact traps_of_drill hc hi (cause_barAddr he) (execBarInit.eq_def o s) (barBody_fault hn he)
  · rintro hi rfl
    exact traps_of_drill hc hi (cause_barAddr he) (execBarArr.eq_def o s) (barBody_fault hn he)
  · rintro hi rfl
    exact traps_of_drill hc hi (cause_barAddr he) (execBarExp.eq_def o s) (barBody_fault hn he)

theorem barInit_count_traps (hn : counter s w.uid .st < 63) (hi : Issues s (.barInit o) w ls) (ha : (rdS w o.a).toNat % 16 = 0)
    (hcount : badCount (opB w o .b64 0) = true) (hx : bitAt o.x 0 = false) : Traps (.barInit o) s w [drillRec w 5 (gpc w) 0] (gpc w) := by
  refine traps_of_pc hc hi (by decide) (execBarInit.eq_def o s) (barBody_fault hn (e := { cause := 5, addr := (gpc w).toNat, detail := 0 }) ?_)
  rw [barArg, hcount, hx]
  exact barAddr_early ha

theorem barWait_traps {e : LaneFault} (hi : Issues s (.barWait o) w ls) (he : barAddr s w false (rdS w o.a) false = .error e) :
    Traps (.barWait o) s w [drillRec w e.cause (BitVec.ofNat 64 e.addr) e.detail] (gpc w) := by
  refine traps_of_drill hc hi (cause_barAddr he) (execBarWait.eq_def o s) ?_
  rw [he]

theorem call_traps {g : Guard} {off : BitVec 24} (hi : Issues s (.call g off) w ls) (hr : 8 ≤ (gangPart w (gang w)).rets.length) :
    Traps (.call g off) s w [drillRec w 5 (gpc w) 0] (gpc w) := by
  refine traps_of_pc hc hi (by decide) (execCall.eq_def g off s) ?_
  rw [if_pos (by simpa [retsFull] using hr)]
  rfl

theorem ret_traps {g : Guard} (hi : Issues s (.ret g) w ls) (hr : (gangPart w (gang w)).rets = []) :
    Traps (.ret g) s w [drillRec w 5 (gpc w) 0] (gpc w) := by
  refine traps_of_pc hc hi (by decide) (execRet.eq_def g s) ?_
  rw [hr]
  rfl

theorem bri_traps {g : Guard} {a b : Nat} (hi : Issues s (.bri g false a b) w ls) (ha : (rdS w a).toNat % 8 ≠ 0) :
    Traps (.bri g false a b) s w [drillRec w 4 (rdS w a) 8] (gpc w) := by
  have ht := traps_of_drill hc hi (c := 4) (a := (rdS w a).toNat) (d := 8) (by decide) (execBri.eq_def g false a b s) ?_
  · rwa [BitVec.ofNat_toNat, BitVec.setWidth_eq] at ht
  · rw [briOut_misaligned false b ha, lanes_of_drill rfl hi]
    rfl

theorem cfgw_split_traps (hi : Issues s (.cfgw o) w ls) (hp : w.trap.prv = true) (himm : (immOf o).toNat = 0)
    (hbad : carveBad w (rdS w o.a).toNat = true) : Traps (.cfgw o) s w [drillRec w 5 (gpc w) 0] (gpc w) := by
  refine traps_of_pc hc hi (by decide) (execCfgw.eq_def o s) ?_
  rw [if_neg (not_not.mpr himm), privileged, if_pos hp]
  dsimp only
  rw [if_pos hbad]
  rfl

theorem trace_traps (hn : counter s w.uid .tx < 63) {e : LaneFault} (hi : Issues s (.trace o) w ls)
    (he : checkMem s w.asid false .load (rdS w o.a).toNat 32 = .error e) : Traps (.trace o) s w (laneRecs w (ls.map (fun l => (l, e)))) (gpc w) := by
  refine traps_of_lanes hc hi (execTrace.eq_def o s) ?_
  dsimp only
  rw [if_neg (by omega), he]

theorem send_depth_traps {n : Node} (hi : Issues s (.spawn o) w ls) (ht : opB w o .b64 0 < 2 ^ 12) (hp : s.pod.pkg ∈ s.pod.members)
    (hn : nodeOf s w.asid (opB w o .b64 0) = some n) (hv : n.valid = true) (hd : w.depth = 15) :
    Traps (.spawn o) s w [drillRec w 9 (gpc w) (opB w o .b64 0)] (gpc w) :=
  traps_of_pc hc hi (by decide) (execSpawn.eq_def o s) (sendBody_fault (e := (9, opB w o .b64 0)) (sendFault_depth ht hp hn hv hd))

theorem send_target_traps :
    (Issues s (.spawn o) w ls → sendFault s w .spawn (opB w o .b64 0) = some (5, 0) → Traps (.spawn o) s w [drillRec w 5 (gpc w) 0] (gpc w)) ∧
    (Issues s (.enq o) w ls → sendFault s w .enq (opB w o .b64 0) = some (5, 0) → Traps (.enq o) s w [drillRec w 5 (gpc w) 0] (gpc w)) ∧
    (Issues s (.amsg o) w ls → sendFault s w .amsg (opB w o .b64 0) = some (5, 0) → Traps (.amsg o) s w [drillRec w 5 (gpc w) 0] (gpc w)) :=
  ⟨fun hi h => traps_of_pc hc hi (by decide) (execSpawn.eq_def o s) (sendBody_fault (e := (5, 0)) h),
    fun hi h => traps_of_pc hc hi (by decide) (execEnq.eq_def o s) (sendBody_fault (e := (5, 0)) h),
    fun hi h => traps_of_pc hc hi (by decide) (execAmsg.eq_def o s) (sendBody_fault (e := (5, 0)) h)⟩

theorem dlaunch_traps {e : LaneFault} (hi : Issues s (.dlaunch o) w ls) (he : checkMem s w.asid false .load (rdS w o.a).toNat 64 = .error e) :
    Traps (.dlaunch o) s w [drillRec w e.cause (BitVec.ofNat 64 e.addr) e.detail] (gpc w) := by
  refine traps_of_drill hc hi (cause_checkMem he) (execDlaunch.eq_def o s) ?_
  dsimp only
  rw [he]

theorem tdefBytes_traps (hn : counter s w.uid .cp < 63) (hi : Issues s (.tdefBytes c) w ls)
    (hb : w.foot.spad < 256 * (c.litNat % 2 ^ 12) + c.litNat / 2 ^ 12 % 2 ^ 24) : Traps (.tdefBytes c) s w [drillRec w 5 (gpc w) 0] (gpc w) := by
  refine traps_of_pc hc hi (by decide) (execTdefBytes.eq_def c s) (tdefBody_bounds hn ?_)
  simpa [field] using hb

theorem tset_traps (hn : counter s w.uid .cp < 63) (hi : Issues s (.tset c) w ls) (hm : c.cm % 8 = 5)
    (hp : (tileNext s w.uid c.ta).plane = true) (hne : (tileNext s w.uid c.ta).planes ≠ 1) :
    Traps (.tset c) s w [drillRec w 8 (gpc w) c.ta] (gpc w) := by
  have hready : bitAt c.cm 0 = true := by
    rw [bitAt, beq_iff_eq]
    omega
  have henc : field c.cm 2 1 = 2 := by
    rw [field]
    omega
  refine traps_of_pc hc hi (by decide) (execTset.eq_def c s) ?_
  dsimp only
  rw [if_neg (by omega), if_pos (by simp [hready, henc, hp, hne])]
  rfl

/-- A copy command traps for the cause that its body raises. -/
theorem copy_traps {k a d : Nat} (hk : k < 16) :
    (Issues s (.cpyLd c) w ls → copyBody c .ld s w = .next (raiseDrill s w k a d) → Traps (.cpyLd c) s w [drillRec w k (BitVec.ofNat 64 a) d] (gpc w)) ∧
    (Issues s (.cpySt c) w ls → copyBody c .st s w = .next (raiseDrill s w k a d) → Traps (.cpySt c) s w [drillRec w k (BitVec.ofNat 64 a) d] (gpc w)) ∧
    (Issues s (.cpyWs c) w ls → copyBody c .ws s w = .next (raiseDrill s w k a d) → Traps (.cpyWs c) s w [drillRec w k (BitVec.ofNat 64 a) d] (gpc w)) ∧
    (Issues s (.cpyGth c) w ls → copyBody c .gth s w = .next (raiseDrill s w k a d) →
      Traps (.cpyGth c) s w [drillRec w k (BitVec.ofNat 64 a) d] (gpc w)) :=
  ⟨fun hi h => traps_of_drill hc hi hk (execCpyLd.eq_def c s) h, fun hi h => traps_of_drill hc hi hk (execCpySt.eq_def c s) h,
    fun hi h => traps_of_drill hc hi hk (execCpyWs.eq_def c s) h, fun hi h => traps_of_drill hc hi hk (execCpyGth.eq_def c s) h⟩

theorem copy_state_traps :
    (Issues s (.cpySt c) w ls → copyBody c .st s w = .next (raisePc s w 8 c.ta) → Traps (.cpySt c) s w [drillRec w 8 (gpc w) c.ta] (gpc w)) ∧
    (Issues s (.cpyWs c) w ls → copyBody c .ws s w = .next (raisePc s w 8 c.ta) → Traps (.cpyWs c) s w [drillRec w 8 (gpc w) c.ta] (gpc w)) :=
  ⟨fun hi h => traps_of_pc hc hi (by decide) (execCpySt.eq_def c s) h, fun hi h => traps_of_pc hc hi (by decide) (execCpyWs.eq_def c s) h⟩

/-- A glean checks its addresses for alignment, source first, then its source for bounds. -/
theorem glean_traps {i : Instr} {g : GleanCmd} {align : Nat} {body : State → Wave → List Nat → Out} (hi : Issues s i w ls)
    (hfull : copyFull s w = false) (hx : exec i s = runInstr i s body) (hb : body s w ls = gleanBody c g align s w) :
    (g.src.toNat % gleanSize g ≠ 0 → Traps i s w [drillRec w 4 (BitVec.ofNat 64 g.src.toNat) (gleanSize g)] (gpc w)) ∧
    (g.src.toNat % gleanSize g = 0 → g.dst.toNat % align ≠ 0 → Traps i s w [drillRec w 4 (BitVec.ofNat 64 g.dst.toNat) align] (gpc w)) ∧
    (g.src.toNat % gleanSize g = 0 → g.dst.toNat % align = 0 → g.srcPad = true → w.foot.spad < g.src.toNat + gleanSize g * g.n →
      Traps i s w [drillRec w 5 (BitVec.ofNat 64 (max g.src.toNat w.foot.spad)) 0] (gpc w)) :=
  ⟨fun h => traps_of_drill hc hi (by decide) hx (hb.trans (gleanBody_src_misaligned hfull h)),
    fun h hd => traps_of_drill hc hi (by decide) hx (hb.trans (gleanBody_dst_misaligned hfull h hd)),
    fun h hd hp hlt => traps_of_drill hc hi (by decide) hx (hb.trans (gleanBody_src_bounds hfull h hd hp hlt))⟩

end

/-- Settles O30: the check that fails first decides, whatever else the instruction would do, and each takes the same way into the handler. -/
theorem causesEnterHandlers : Obligations.CausesEnterHandlers := by
  unfold Obligations.CausesEnterHandlers
  refine ⟨?trap, fun s w ls o hc hp => privileged_traps hc hp, ?checks, ?commands⟩
  case trap =>
    intro s w ls o code hi hc hb
    have himm : immOf o = code := by rw [immOf, hb]
    refine traps_of_body hc hi (execTrap.eq_def o s) ?_
    rw [himm]
    rfl
  case checks =>
    intro s w ls o es hc n recs all
    exact ⟨fun hn => load_traps hc hn es,
      fun hn =>
        have ⟨hst, hsts, hstu, hstp, hred, hadd, hmrg, hclr⟩ := store_traps hc hn es
        ⟨hst, hsts, hstu, hstp, hred, hadd, hmrg, hclr, fun bad e he => barrier_traps hc hn he, fun hi => barInit_count_traps hc hn hi⟩,
      fun e hi he => barWait_traps hc hi he, fun g off hi hr => call_traps hc hi hr, fun g hi hr => ret_traps hc hi hr,
      fun g a b hi ha => bri_traps hc hi ha, fun hi hp himm hbad => cfgw_split_traps hc hi hp himm hbad⟩
  case commands =>
    intro s w ls o c hc recs lanes drill desc addr
    refine ⟨fun hn => ⟨fun e hi he => trace_traps hc hn hi he, fun e he => ⟨fun hi => ?_, fun hi => ?_⟩, fun e he => ⟨fun hi => ?_, fun hi => ?_⟩⟩,
      ?sends, fun e hi he => dlaunch_traps hc hi he, fun r hn hr => ?regions,
      fun hn => ⟨fun hi hb => tdefBytes_traps hc hn hi hb, fun hi hm hp hne => tset_traps hc hn hi hm hp hne⟩, fun hfull => ?copies⟩
    · exact traps_of_lanes hc hi (execHgf.eq_def o s) (texBody_fault hn he)
    · exact traps_of_lanes hc hi (execHgs.eq_def o s) (texBody_fault hn he)
    · exact traps_of_lanes hc hi (execTex.eq_def o s) (texBody_fault hn he)
    · exact traps_of_lanes hc hi (execTld.eq_def o s) (texBody_fault hn he)
    case sends =>
      obtain ⟨hspawn, henq, hamsg⟩ := send_target_traps hc (ls := ls) (o := o)
      refine ⟨fun n hi ht hp hn hv hd => send_depth_traps hc hi ht hp hn hv hd, fun hi ht => hspawn hi ?_, fun hi ht => henq hi ?_,
        fun hi ht => hamsg hi ?_⟩
      · obtain ht | hn := ht
        · exact sendFault_mask (and_mask_ne ht)
        · exact sendFault_noNode hn
      · obtain ⟨hbit, ht⟩ | hn := ht
        · refine sendFault_mask ?_
          rw [sendMask, bitAt_eq_testBit, hbit]
          exact and_mask_ne ht
        · exact sendFault_noNode hn
      · obtain ⟨hbit, ht⟩ | hn | ⟨n, hn, hs⟩ := ht
        · refine sendFault_mask ?_
          rw [sendMask, bitAt_eq_testBit, hbit]
          exact and_mask_ne ht
        · exact sendFault_noNode hn
        · exact sendFault_sink hn hs
    case regions =>
      refine ⟨fun hi => ?_, fun hi => ?_⟩
      · exact traps_of_pc hc hi (by decide) (execEstAdv.eq_def c s) (regionBody_fault hn hr)
      · exact traps_of_pc hc hi (by decide) (execEstClose.eq_def c s) (regionBody_fault hn hr)
    case copies =>
      obtain ⟨hst8, hws8⟩ := copy_state_traps hc (ls := ls) (c := c)
      refine ⟨fun hmis => ?_, fun hal hstr => ⟨fun e hbar he => ?_, fun hbar => ⟨fun hi hb => hst8 hi ?_, fun hi hp => hws8 hi ?_, fun hi hidx => ?_,
        fun hi hidx hb => ?_⟩⟩, fun g align i hg hi => ?_⟩
      · obtain ⟨hld, hst, hws, hgth⟩ := copy_traps hc (ls := ls) (c := c) (k := 4) (a := addr) (d := fmtAlign c.fmt) (by decide)
        exact ⟨fun hi => hld hi (copyBody_misaligned hfull (by decide) hmis), fun hi => hst hi (copyBody_misaligned hfull (by decide) hmis),
          fun hi => hws hi (copyBody_misaligned hfull (by decide) hmis), fun hi => hgth hi (copyBody_misaligned hfull (by decide) hmis)⟩
      · obtain ⟨hld, hst, hws, -⟩ := copy_traps hc (ls := ls) (c := c) (a := e.addr) (d := e.detail) (cause_barAddr he)
        exact ⟨fun hi => hld hi (copyBody_bar hfull (by decide) hal hstr hbar he), fun hi => hst hi (copyBody_bar hfull (by decide) hal hstr hbar he),
          fun hi => hws hi (copyBody_bar hfull (by decide) hal hstr hbar he)⟩
      · exact copyBody_tile hfull (by decide) hal hstr hbar (.inr ⟨rfl, hb⟩)
      · exact copyBody_tile hfull (by decide) hal hstr hbar (.inl ⟨rfl, hp⟩)
      · obtain ⟨-, -, -, hgth⟩ := copy_traps hc (ls := ls) (c := c) (k := 4) (a := (rdS w c.sb).toNat) (d := 4) (by decide)
        exact hgth hi (copyBody_index_misaligned hfull hal hstr hidx)
      · obtain ⟨-, -, -, hgth⟩ := copy_traps hc (ls := ls) (c := c) (k := 5) (a := max (rdS w c.sb).toNat w.foot.spad) (d := 0) (by decide)
        exact hgth hi (copyBody_index_bounds hfull hal hstr hbar hidx hb)
      · obtain ⟨rfl, rfl, rfl⟩ | ⟨rfl, rfl, rfl⟩ := hg
        · exact glean_traps hc hi hfull (execGlTopk.eq_def c s) rfl
        · exact glean_traps hc hi hfull (execGlSmax.eq_def c s) rfl

end Sys2Proof.Machine
end

section
/-!
PROOFS. What the traversal unit and the texture unit read: only copies of memory change (R184, R332, R346).
-/
namespace Sys2Proof.Machine

/-! ### The units' reads (R332, R346) -/

theorem onlyCaches_unitChunk (s : State) (u : UnitCache) (die core asid va n : Nat) : OnlyCaches s (unitChunk s u die core asid va n).1 := by
  unfold unitChunk
  split
  · exact .refl s
  · simp only
    split
    · exact .refl s
    · split
      · exact .refl s
      · split
        · exact .refl s
        · split
          · exact .refl s
          · simp only
            split
            · exact (onlyCaches_l2Access _ _ _ _ _).trans (onlyCaches_putCore _ _ _ _)
            · exact onlyCaches_l2Access _ _ _ _ _

theorem onlyCaches_unitRead (u : UnitCache) (die core asid fuel : Nat) (s : State) (va n : Nat) :
    OnlyCaches s (unitRead u die core asid fuel s va n).1 := by
  induction fuel generalizing s va n with
  | zero => exact .refl s
  | succ k ih =>
    unfold unitRead
    split
    · exact .refl s
    · simp only
      split
      · exact onlyCaches_unitChunk _ _ _ _ _ _ _
      · exact (onlyCaches_unitChunk _ _ _ _ _ _ _).trans (ih _ _ _)

theorem onlyCaches_unitBytes (s : State) (u : UnitCache) (who : Who) (va n : Nat) : OnlyCaches s (unitBytes s u who va n).1 :=
  onlyCaches_unitRead _ _ _ _ _ _ _ _

theorem onlyCaches_ite {α : Type} {c : Prop} [Decidable c] {s : State} {x y : State × α} (hx : OnlyCaches s x.1) (hy : OnlyCaches s y.1) :
    OnlyCaches s (if c then x else y).1 := by
  split
  · exact hx
  · exact hy

theorem onlyCaches_walkLeaves (who : Who) (r : Ray) (stn : Option Nat) (n va : Nat) (s : State) (w : Walk) :
    OnlyCaches s (walkLeaves who r stn n va s w).1 := by
  induction n generalizing va s w with
  | zero => exact .refl s
  | succ n ih =>
    have h := onlyCaches_unitBytes s .node who va 48
    unfold walkLeaves
    refine onlyCaches_ite (.refl s) ?_
    simp only
    split
    · exact h
    · refine onlyCaches_ite h ?_
      split
      · exact h.trans (ih _ _ _)
      · exact onlyCaches_ite h (h.trans (ih _ _ _))

theorem onlyCaches_walkRay (who : Who) (r : Ray) (stn : Option Nat) (fuel : Nat) (s : State) (w : Walk) :
    OnlyCaches s (walkRay who r stn fuel s w).1 := by
  induction fuel generalizing s w with
  | zero => exact .refl s
  | succ fuel ih =>
    unfold walkRay
    split
    · exact .refl s
    · exact ih _ _
    · simp only
      split
      · exact onlyCaches_walkLeaves _ _ _ _ _ _ _
      · exact (onlyCaches_walkLeaves _ _ _ _ _ _ _).trans (ih _ _)
    · next _ va rest _ =>
      have h := onlyCaches_unitBytes s .node who (va + 96) 32
      refine onlyCaches_ite (.refl s) ?_
      simp only
      split
      · exact h
      · split
        · exact h
        · next kids _ =>
          have hboxes (c : Prop) [Decidable c] := onlyCaches_ite (c := c) (x := ((unitBytes s .node who (va + 96) 32).1, Except.ok []))
            h (h.trans (onlyCaches_unitBytes _ .node who va 96))
          split
          · exact hboxes _
          · exact onlyCaches_ite (hboxes _) ((hboxes _).trans (ih _ _))

/-- Tracing a ray changes nothing but copies of memory. -/
theorem onlyCaches_traceRay (s : State) (who : Who) (c : TraceCmd) (rs : List W32) : OnlyCaches s (traceRay s who c rs).1 := by
  have h := onlyCaches_unitBytes s .node who c.desc.toNat 32
  unfold traceRay
  refine onlyCaches_ite (.refl s) ?_
  simp only
  split
  · exact h
  · split
    · exact h
    · have hwalk (stn w) := h.trans (onlyCaches_walkRay who (rayOf rs) stn (maxSteps + maxStack + 2) _ w)
      refine onlyCaches_ite (hwalk _ _) (onlyCaches_ite ?_ (hwalk _ _))
      split
      · exact hwalk _ _
      · have hnode (stn w va) := (hwalk stn w).trans (onlyCaches_unitBytes _ .node who va 4)
        split
        · exact hnode _ _ _
        · exact onlyCaches_ite (hnode _ _ _) (hnode _ _ _)

theorem onlyCaches_texRead (who : Who) (got : List (Nat × List Byte)) (n va : Nat) (s : State) : OnlyCaches s (texRead who got n va s).1 := by
  unfold texRead
  split
  · exact .refl s
  · exact onlyCaches_unitBytes _ _ _ _ _

theorem onlyCaches_texReads (who : Who) (got : List (Nat × List Byte)) (n : Nat) (vas : List Nat) (s : State) :
    OnlyCaches s (texReads who got n vas s).1 := by
  induction vas generalizing s with
  | nil => exact .refl s
  | cons va r ih => exact (onlyCaches_texRead who got n va s).trans (ih _)

theorem joinErr_st (lane : Nat) (r : TexRun) (x : Except ReadErr (List Byte)) : (joinErr lane r x).st = r.st := by
  unfold joinErr; split <;> rfl

theorem joinRun_st (r : TexRun) (lane : Nat) (x : State × List (Except ReadErr (List Byte))) (f : List (List Byte) → List (Nat × W32)) :
    (joinRun r lane x f).st = x.1 := by
  have herr (ys : List (Except ReadErr (List Byte))) (q : TexRun) : (ys.foldl (joinErr lane) q).st = q.st := by
    induction ys generalizing q with
    | nil => rfl
    | cons y ys ih => rw [List.foldl_cons, ih, joinErr_st]
  unfold joinRun
  simp only
  split <;> exact herr _ _

theorem onlyCaches_runFold {α : Type} (f : TexRun → α → TexRun) (hf : ∀ r a, OnlyCaches r.st (f r a).st) (l : List α) (r : TexRun) :
    OnlyCaches r.st (l.foldl f r).st := by
  induction l generalizing r with
  | nil => exact .refl _
  | cons a l ih => exact (hf r a).trans (ih _)

/-- Reads that join a run leave everything but copies of memory. -/
theorem onlyCaches_join (who : Who) (got : List (Nat × List Byte)) (n : Nat) (vas : List Nat) (r : TexRun) (lane : Nat)
    (f : List (List Byte) → List (Nat × W32)) : OnlyCaches r.st (joinRun r lane (texReads who got n vas r.st) f).st := by
  rw [joinRun_st]
  exact onlyCaches_texReads _ _ _ _ _

theorem onlyCaches_hgfElem (who : Who) (got : List (Nat × List Byte)) (g : Grid) (l f : Nat) (x : TexLane) (r : TexRun) :
    OnlyCaches r.st (hgfElem who got g l f x r).st := by
  unfold hgfElem
  split
  · exact .refl _
  · exact onlyCaches_join _ _ _ _ _ _ _

theorem onlyCaches_tldLane (who : Who) (got : List (Nat × List Byte)) (t : Texture) (x : TexLane) (r : TexRun) :
    OnlyCaches r.st (tldLane who got t x r).st := by
  unfold tldLane
  split
  · exact .refl _
  · exact onlyCaches_join _ _ _ _ _ _ _

theorem onlyCaches_texLane (who : Who) (got : List (Nat × List Byte)) (t : Texture) (x : TexLane) (r : TexRun) :
    OnlyCaches r.st (texLane who got t x r).st := by
  unfold texLane
  simp only
  split
  · exact .refl _
  · split <;> exact onlyCaches_join _ _ _ _ _ _ _

theorem onlyCaches_texDesc (s : State) (who : Who) (c : TexCmd) : OnlyCaches s (texDesc s who c).1 := onlyCaches_unitBytes _ _ _ _ _

theorem onlyCaches_hgfRun (who : Who) (got : List (Nat × List Byte)) (g : Grid) (lanes : List TexLane) (s : State) :
    OnlyCaches s (hgfRun who got g lanes s).st :=
  onlyCaches_runFold _ (fun r _ => onlyCaches_runFold _ (fun r _ => onlyCaches_runFold _ (fun _ _ => onlyCaches_hgfElem _ _ _ _ _ _ _) _ r) _ r) _ _

/-- An instruction of the texture unit that only reads changes nothing but copies of memory, and its run ends in the state it leaves. -/
theorem onlyCaches_texRun (s : State) (who : Who) (c : TexCmd) :
    OnlyCaches s (texRun s who c).1 ∧ ∀ r, (texRun s who c).2 = .ok r → OnlyCaches s r.st := by
  have h := onlyCaches_texDesc s who c
  unfold texRun
  simp only
  split
  · exact ⟨h, fun r hr => by cases hr⟩
  · exact ⟨h, fun r hr => by cases hr; exact h⟩
  · have hrun := h.trans (onlyCaches_hgfRun who c.got ‹_› c.lanes (texDesc s who c).1)
    exact ⟨hrun, fun r hr => by cases hr; exact hrun⟩
  · next t _ =>
    have hrun (start : TexRun) : OnlyCaches start.st
        (c.lanes.foldl (fun r x => if c.fn == .tld then tldLane who c.got t x r else texLane who c.got t x r) start).st :=
      onlyCaches_runFold _ (fun r x => by
        split
        · exact onlyCaches_tldLane _ _ _ _ _
        · exact onlyCaches_texLane _ _ _ _ _) _ _
    exact ⟨h.trans (hrun _), fun r hr => by cases hr; exact h.trans (hrun _)⟩

end Sys2Proof.Machine
end

section
/-!
PROOFS. Every step keeps both memories in canonical form (O60). For each function of the model, in the order in which the model defines them: `wf_` says
that the form of the memories is what it was, or stays where bytes are written; `wfOut_` says so of a result. Bytes are written by `memPut` alone, which
keeps the form (`wf_putMem`, `wf_postEvent`); everything else leaves both memories as they are.
-/
namespace Sys2Proof.Machine

theorem KeepsMem.wf_eq {s t : State} (h : KeepsMem s t) : t.wf = s.wf := by
  unfold State.wf; rw [h.1, h.2]

theorem OnlyCaches.keepsMem {s t : State} (h : OnlyCaches s t) : KeepsMem s t := ⟨h.mem, h.hostMem⟩
theorem OnlyCaches.wf_eq {s t : State} (h : OnlyCaches s t) : t.wf = s.wf := h.keepsMem.wf_eq

/-- The form of a state is that of its two memories, whatever its other fields are. -/
@[simp] theorem wf_mk (turn draws time nextUid nextFid inputs mem code poison hostMem tlb regs ctxs launches waves ghosts saved archives
    flights cores quads engines dies islands lowered stations linksDown errs errWindow retired rowCopies scrubs pod) :
    State.wf ⟨turn, draws, time, nextUid, nextFid, inputs, mem, code, poison, hostMem, tlb, regs, ctxs, launches, waves, ghosts, saved, archives,
    flights, cores, quads, engines, dies, islands, lowered, stations, linksDown, errs, errWindow, retired, rowCopies, scrubs, pod⟩ =
    (mem.wf && hostMem.wf) := rfl

@[simp] theorem mems_wf (s : State) : (s.mem.wf && s.hostMem.wf) = s.wf := rfl

@[simp] theorem wf_ite (c : Prop) [Decidable c] (s t : State) : (if c then s else t).wf = if c then s.wf else t.wf := apply_ite _ _ _ _

@[simp] theorem wf_foldl {α : Type} (f : State → α → State) (hf : ∀ s a, (f s a).wf = s.wf) (l : List α) (s : State) : (l.foldl f s).wf = s.wf := by
  induction l generalizing s with
  | nil => rfl
  | cons a r ih => rw [List.foldl_cons, ih, hf]

/-- A result that is a next state has its memories in canonical form. -/
def WfOut (o : Out) : Prop := ∀ t, o = .next t → t.wf = true
@[simp] theorem wfOut_next (s : State) : WfOut (.next s) ↔ s.wf = true :=
  ⟨fun h => h s rfl, fun h t e => by cases e; exact h⟩

@[simp] theorem wfOut_fault (f : Fault) : WfOut (.fault f) := fun t e => by cases e
@[simp] theorem wfOut_refused (f : Refusal) : WfOut (.refused f) := fun t e => by cases e

@[simp] theorem wfOut_ite (c : Prop) [Decidable c] (a b : Out) : WfOut (if c then a else b) ↔ if c then WfOut a else WfOut b := by
  split <;> rfl

/-- A fold of updates that keep the form keeps it. -/
@[simp] theorem wf_foldl_of {α : Type} {f : State → α → State} (hf : ∀ s a, s.wf = true → (f s a).wf = true) (l : List α) {s : State} (h : s.wf = true) :
    (l.foldl f s).wf = true := by
  induction l generalizing s with
  | nil => exact h
  | cons a r ih => exact ih (hf _ _ h)

theorem wf_foldl_fst {α β : Type} {f : State × β → α → State × β} (hf : ∀ x a, x.1.wf = true → (f x a).1.wf = true) (l : List α) {x : State × β}
    (h : x.1.wf = true) : (l.foldl f x).1.wf = true := by
  induction l generalizing x with
  | nil => exact h
  | cons a r ih => exact ih (hf _ _ h)

/-! ### Translation (R173) -/

@[simp] theorem wf_tlbFill (s : State) (asid va : Nat) : (tlbFill s asid va).wf = s.wf := by
  unfold tlbFill
  split <;> simp

/-! ### Waves, operations in flight, exceptions -/

@[simp] theorem wf_putWave (s : State) (w : Wave) : (putWave s w).wf = s.wf := KeepsMem.wf_eq ⟨rfl, rfl⟩
@[simp] theorem wf_dropWave (s : State) (uid : Nat) : (dropWave s uid).wf = s.wf := KeepsMem.wf_eq ⟨rfl, rfl⟩
@[simp] theorem wf_updHolder (s : State) (uid : Nat) (f : Wave → Wave) : (updHolder s uid f).wf = s.wf := KeepsMem.wf_eq ⟨rfl, rfl⟩
@[simp] theorem wf_putLaunch (s : State) (l : Launch) : (putLaunch s l).wf = s.wf := KeepsMem.wf_eq ⟨rfl, rfl⟩
@[simp] theorem wf_updLaunch (s : State) (num : Nat) (f : Launch → Launch) : (updLaunch s num f).wf = s.wf := KeepsMem.wf_eq ⟨rfl, rfl⟩
@[simp] theorem wf_updCtx (s : State) (asid : Nat) (f : Ctx → Ctx) : (updCtx s asid f).wf = s.wf := KeepsMem.wf_eq ⟨rfl, rfl⟩
@[simp] theorem wf_putCore (s : State) (die core : Nat) (c : Core) : (putCore s die core c).wf = s.wf := (onlyCaches_putCore _ _ _ _).wf_eq
@[simp] theorem wf_putIssue (s : State) (die core i : Nat) (x : Slot) : (putIssue s die core i x).wf = s.wf := KeepsMem.wf_eq ⟨rfl, rfl⟩
@[simp] theorem wf_putQuad (s : State) (q : Nat) (x : Quad) : (putQuad s q x).wf = s.wf := (onlyCaches_putQuad _ _ _).wf_eq
@[simp] theorem wf_putEngine (s : State) (e : Nat) (x : Engine) : (putEngine s e x).wf = s.wf := KeepsMem.wf_eq ⟨rfl, rfl⟩
@[simp] theorem wf_putDie (s : State) (d : Nat) (x : Die) : (putDie s d x).wf = s.wf := KeepsMem.wf_eq ⟨rfl, rfl⟩
@[simp] theorem wf_updRegion (s : State) (asid r : Nat) (f : Region → Region) : (updRegion s asid r f).wf = s.wf := KeepsMem.wf_eq ⟨rfl, rfl⟩
@[simp] theorem wf_putFlight (s : State) (f : Flight) : (putFlight s f).wf = s.wf := KeepsMem.wf_eq ⟨rfl, rfl⟩
@[simp] theorem wf_setAct (s : State) (f : Flight) (a : Act) : (setAct s f a).wf = s.wf := KeepsMem.wf_eq ⟨rfl, rfl⟩
@[simp] theorem wf_dropFlight (s : State) (fid : Nat) : (dropFlight s fid).wf = s.wf := KeepsMem.wf_eq ⟨rfl, rfl⟩
@[simp] theorem wf_addFlight (s : State) (who : Who) (cls : Option Cls) (act : Act) (rr : Option Nat) : (addFlight s who cls act rr).wf = s.wf :=
  KeepsMem.wf_eq ⟨rfl, rfl⟩

@[simp] theorem wf_completeFlight (s : State) (f : Flight) : (completeFlight s f).wf = s.wf := (keepsMem_completeFlight _ _).wf_eq
@[simp] theorem wf_returnWeight (s : State) (die asid launch amount : Nat) : (returnWeight s die asid launch amount).wf = s.wf :=
  (keepsMem_returnWeight _ _ _ _ _).wf_eq

@[simp] theorem wf_sendError (s : State) (die asid launch weight : Nat) (pay : List W32) : (sendError s die asid launch weight pay).wf = s.wf :=
  (keepsMem_sendError _ _ _ _ _ _).wf_eq

@[simp] theorem wf_lateRecord (s : State) (who : Who) (kind cause : Nat) (addr : W64) : (lateRecord s who kind cause addr).wf = s.wf := by
  simp [lateRecord]

@[simp] theorem wf_flushEntry (s : State) (die core : Nat) (e : EcbEnt) (waits : List Nat) (cmd : Option Nat) :
    (flushEntry s die core e waits cmd).wf = s.wf :=
  KeepsMem.wf_eq ⟨rfl, rfl⟩

@[simp] theorem wf_flushWhere (s : State) (die core : Nat) (p : EcbEnt → Bool) (waits : List Nat) (cmd : Option Nat) :
    (flushWhere s die core p waits cmd).wf = s.wf :=
  (keepsMem_flushWhere _ _ _ _ _ _).wf_eq

@[simp] theorem wf_noteWrites (t : State) (home : Wave) (rs : List RegRef) : (noteWrites t home rs).wf = t.wf := KeepsMem.wf_eq ⟨rfl, rfl⟩
@[simp] theorem wf_putPred (s : State) (w : Wave) (pc : W64) (e : PredEnt) : (putPred s w pc e).wf = s.wf := KeepsMem.wf_eq ⟨rfl, rfl⟩
@[simp] theorem wf_train (s : State) (w : Wave) (m : FcMark) (sls : List Nat) : (train s w m sls).wf = s.wf := (keepsMem_train _ _ _ _).wf_eq
@[simp] theorem wf_settleTraining (s : State) (uid : Nat) (t : Training) : (settleTraining s uid t).wf = s.wf :=
  (keepsMem_settleTraining _ _ _).wf_eq

@[simp] theorem wf_trainWhen (s : State) (uid older : Nat) (m : FcMark) (sls : List Nat) : (trainWhen s uid older m sls).wf = s.wf :=
  (keepsMem_trainWhen _ _ _ _ _).wf_eq

@[simp] theorem wf_settleTrains (s : State) (uid : Nat) : (settleTrains s uid).wf = s.wf := (keepsMem_settleTrains _ _).wf_eq
@[simp] theorem wf_squashWhere (s : State) (uid : Nat) (p : Wave → Fork → Bool) : (squashWhere s uid p).wf = s.wf :=
  (keepsMem_squashWhere _ _ _).wf_eq

@[simp] theorem wf_squashForks (s : State) (uid : Nat) : (squashForks s uid).wf = s.wf := (keepsMem_squashForks _ _).wf_eq
@[simp] theorem wf_returnPool (s : State) (w : Wave) : (returnPool s w).wf = s.wf := (keepsMem_returnPool _ _).wf_eq
@[simp] theorem wf_retireWave (s : State) (w : Wave) (weight : Nat) : (retireWave s w weight).wf = s.wf := (keepsMem_retireWave _ _ _).wf_eq
@[simp] theorem wf_putQueue (s : State) (die : Nat) (q : NodeQ) : (putQueue s die q).wf = s.wf := KeepsMem.wf_eq ⟨rfl, rfl⟩
@[simp] theorem wf_abortRays (s : State) (uid : Nat) : (abortRays s uid).wf = s.wf := KeepsMem.wf_eq ⟨rfl, rfl⟩
@[simp] theorem wf_endWave (s : State) (w : Wave) (kind : Nat) (r : Option CauseRec) : (endWave s w kind r).wf = s.wf :=
  (keepsMem_endWave _ _ _ _).wf_eq

@[simp] theorem wf_deliver (s : State) (w : Wave) (xpc : W64) : (deliver s w xpc).wf = s.wf := (keepsMem_deliver _ _ _).wf_eq
@[simp] theorem wf_stopShadow (s : State) (w : Wave) : (stopShadow s w).wf = s.wf := KeepsMem.wf_eq ⟨rfl, rfl⟩
@[simp] theorem wf_takeException (s : State) (w : Wave) (new : List CauseRec) (xpc : W64) : (takeException s w new xpc).wf = s.wf :=
  (keepsMem_takeException _ _ _ _).wf_eq

@[simp] theorem wf_raiseLanes (s : State) (w : Wave) (fs : List (Nat × LaneFault)) : (raiseLanes s w fs).wf = s.wf :=
  (keepsMem_raiseLanes _ _ _).wf_eq

@[simp] theorem wf_raiseDrill (s : State) (w : Wave) (c addr detail : Nat) : (raiseDrill s w c addr detail).wf = s.wf :=
  (keepsMem_raiseDrill _ _ _ _ _).wf_eq

@[simp] theorem wf_raisePc (s : State) (w : Wave) (c detail : Nat) : (raisePc s w c detail).wf = s.wf := by simp [raisePc]

@[simp] theorem wf_addDeferred (s : State) (uid : Nat) (r : CauseRec) : (addDeferred s uid r).wf = s.wf := by
  unfold addDeferred
  split <;> simp

@[simp] theorem wf_deferOrRecord (s : State) (who : Who) (kind cause : Nat) (lanes : W32) (addr detail : W64) :
    (deferOrRecord s who kind cause lanes addr detail).wf = s.wf :=
  (keepsMem_deferOrRecord _ _ _ _ _ _ _).wf_eq

@[simp] theorem wf_returnException (s : State) (w : Wave) : (returnException s w).wf = s.wf := (keepsMem_returnException _ _).wf_eq
@[simp] theorem wf_raiseIllegal (s : State) (w : Wave) (lanes : List Nat) : (raiseIllegal s w lanes).wf = s.wf :=
  (keepsMem_raiseIllegal _ _ _).wf_eq

@[simp] theorem wfOut_runInstr {i : Instr} {s : State} {body : State → Wave → List Nat → Out} (h : s.wf = true) (hb : ∀ w ls, WfOut (body s w ls)) :
    WfOut (runInstr i s body) := by
  unfold runInstr
  (repeat' split) <;> simp [h, hb]

@[simp] theorem wfOut_finish (s : State) (w : Wave) : WfOut (finish s w) ↔ s.wf = true := by simp [finish]

@[simp] theorem wfOut_privileged {s : State} {w : Wave} {d : Nat} {k : Out} (h : s.wf = true) (hk : WfOut k) : WfOut (privileged s w d k) := by
  unfold privileged
  split <;> simp [h, hk]

@[simp] theorem wfOut_goOn (s : State) (uid : Nat) (h : s.wf = true) : WfOut (goOn s uid) := by
  unfold goOn
  (repeat' split) <;> simp [h]

@[simp] theorem wfOut_stall (s : State) : WfOut (stall s) ↔ s.wf = true := by simp [stall]

/-! ### Instructions that only compute (R84) -/

@[simp] theorem wfOut_aluRun {i : Instr} {o : Ops} {t : Ty} {f : Wave → Nat → Nat} {s : State} (h : s.wf = true) : WfOut (aluRun i o t f s) :=
  wfOut_runInstr h fun _ _ => by simpa using h

@[simp] theorem wfOut_fltRun {i : Instr} {o : Ops} {t : Ty} {f : Wave → Nat → Nat × Nat} {s : State} (h : s.wf = true) : WfOut (fltRun i o t f s) :=
  wfOut_runInstr h fun _ _ => by simpa using h

@[simp] theorem wfOut_predRun {i : Instr} {o : Ops} {f : Wave → Nat → Bool × Nat} {s : State} (h : s.wf = true) : WfOut (predRun i o f s) :=
  wfOut_runInstr h fun _ _ => by simpa using h

/-! ### Floating point -/

@[simp] theorem wfOut_flt1 {i : Instr} {o : Ops} {f : Rnd → List FV → Ex} {s : State} (h : s.wf = true) : WfOut (flt1 i o f s) := wfOut_fltRun h
@[simp] theorem wfOut_flt2 {i : Instr} {o : Ops} {f : Rnd → List FV → Ex} {s : State} (h : s.wf = true) : WfOut (flt2 i o f s) := wfOut_fltRun h
@[simp] theorem wfOut_flt3 {i : Instr} {o : Ops} {f : Rnd → List FV → Ex} {s : State} (h : s.wf = true) : WfOut (flt3 i o f s) := wfOut_fltRun h

/-! ### Lanes -/

theorem wfOut_execShfl (o : Ops) (s : State) (h : s.wf = true) : WfOut (execShfl o s) :=
  wfOut_runInstr h fun w ls => by simp [h]

theorem wfOut_execVote (o : Ops) (s : State) (h : s.wf = true) : WfOut (execVote o s) :=
  wfOut_runInstr h fun w ls => by simp [h]

theorem wfOut_execGred (o : Ops) (s : State) (h : s.wf = true) : WfOut (execGred o s) :=
  wfOut_runInstr h fun w ls => by simp [h]

theorem wfOut_execGscan (o : Ops) (s : State) (h : s.wf = true) : WfOut (execGscan o s) :=
  wfOut_runInstr h fun w ls => by simp [h]

/-! ### Device registers and events (R397, R402) -/

@[simp] theorem wf_writeEvent (s : State) (ws : List W32) (h : s.wf = true) : (writeEvent s ws).wf = true := by
  simp only [State.wf, Bool.and_eq_true, writeEvent] at h ⊢
  exact ⟨h.1, wf_memPut h.2 _ _⟩

@[simp] theorem wf_writeNotify (s : State) (v : W32) (h : s.wf = true) : (writeNotify s v).wf = true := by simp [writeNotify, h, wf_postEvent]

@[simp] theorem wf_regWrite (s : State) (off : Nat) (v : W64) (h : s.wf = true) : (regWrite s off v).wf = true := by
  unfold regWrite
  (repeat' split) <;> simp [h]

@[simp] theorem wf_bootWinWrite (s : State) (off : Nat) (bs : List Byte) : (bootWinWrite s off bs).wf = s.wf := by simp [bootWinWrite]
@[simp] theorem wf_devWrite (s : State) (pa : Nat) (bs : List Byte) (h : s.wf = true) : (devWrite s pa bs).wf = true := by simp [devWrite, h]

/-! ### Caches and slices (R177 to R181) -/

@[simp] theorem wf_l2Put (s : State) (q : Nat) (e : L2Ent) : (l2Put s q e).wf = s.wf := (keepsMem_l2Put _ _ _).wf_eq
@[simp] theorem wf_l2Line (s : State) (pg : Page) (write : Bool) (pa n line : Nat) : (l2Line s pg write pa n line).wf = s.wf :=
  (keepsMem_l2Line _ _ _ _ _ _).wf_eq

@[simp] theorem wf_touchSlice (s : State) (q : Nat) : (touchSlice s q).wf = s.wf := KeepsMem.wf_eq ⟨rfl, rfl⟩
@[simp] theorem wf_l2Access (s : State) (pg : Page) (write : Bool) (pa n : Nat) : (l2Access s pg write pa n).wf = s.wf :=
  (keepsMem_l2Access _ _ _ _ _).wf_eq

@[simp] theorem wf_dropWay (s : State) (q way : Nat) : (dropWay s q way).wf = s.wf := KeepsMem.wf_eq ⟨rfl, rfl⟩
@[simp] theorem wf_makeReplica (s : State) (die core : Nat) (l0 : Line) : (makeReplica s die core l0).wf = s.wf :=
  (keepsMem_makeReplica _ _ _ _).wf_eq

@[simp] theorem wf_markOld (s : State) (die core line : Nat) (p : Nat → List Byte → Bool) : (markOld s die core line p).wf = s.wf :=
  (onlyCaches_markOld _ _ _ _ _).wf_eq

@[simp] theorem wf_homeSeen (s : State) (die core pa : Nat) : (homeSeen s die core pa).wf = s.wf := (keepsMem_homeSeen _ _ _ _).wf_eq
@[simp] theorem wf_dropReplica (s : State) (die core pa : Nat) : (dropReplica s die core pa).wf = s.wf := KeepsMem.wf_eq ⟨rfl, rfl⟩
@[simp] theorem wf_newGeneration (s : State) (die core : Nat) : (newGeneration s die core).wf = s.wf := KeepsMem.wf_eq ⟨rfl, rfl⟩

/-! ### Reads, writes, acquire and release -/

@[simp] theorem wf_addMem (s : State) (who : Who) (cls : Option Cls) (act : Act) : (addMem s who cls act).wf = s.wf :=
  (keepsMem_addMem _ _ _ _).wf_eq

@[simp] theorem wf_l1Fill (s : State) (die core pa : Nat) (bs : List Byte) : (l1Fill s die core pa bs).wf = s.wf :=
  (keepsMem_l1Fill _ _ _ _ _).wf_eq

@[simp] theorem wf_touchReplica (s : State) (die core pa : Nat) : (touchReplica s die core pa).wf = s.wf := (keepsMem_touchReplica _ _ _ _).wf_eq
@[simp] theorem wf_coreRead (s : State) (die core : Nat) (pg : Page) (how : ReadAt) (pa n : Nat) : (coreRead s die core pg how pa n).1.wf =
    s.wf :=
  (keepsMem_coreRead _ _ _ _ _ _ _).wf_eq

@[simp] theorem wf_readAcc (s : State) (who : Who) (home : Bool) (a : Acc) (n : Nat) : (readAcc s who home a n).1.wf = s.wf :=
  (onlyCaches_readAcc _ _ _ _ _).wf_eq

@[simp] theorem wf_poisonSectors (s : State) (ss : List Nat) : (poisonSectors s ss).wf = s.wf := (keepsMem_poisonSectors _ _).wf_eq
@[simp] theorem wf_healHome (s : State) (rs : List (Nat × Nat)) : (healHome s rs).wf = s.wf := (keepsMem_healHome _ _).wf_eq
@[simp] theorem wf_healL1 (s : State) (die core : Nat) (rs : List (Nat × Nat)) : (healL1 s die core rs).wf = s.wf :=
  (keepsMem_healL1 _ _ _ _).wf_eq

@[simp] theorem wf_healPads (s : State) (n : Nat) (xs : List (Acc × Nat)) : (healPads s n xs).wf = s.wf := (keepsMem_healPads _ _ _).wf_eq
@[simp] theorem wf_dropL1 (s : State) (die core pa : Nat) : (dropL1 s die core pa).wf = s.wf := KeepsMem.wf_eq ⟨rfl, rfl⟩
@[simp] theorem wf_dropUnits (s : State) (die core pa : Nat) : (dropUnits s die core pa).wf = s.wf := KeepsMem.wf_eq ⟨rfl, rfl⟩
@[simp] theorem wf_padWrite (s : State) (uid off : Nat) (bs : List Byte) : (padWrite s uid off bs).wf = s.wf := (keepsMem_padWrite _ _ _ _).wf_eq
@[simp] theorem wf_l1Update (s : State) (die core pa : Nat) (bs : List Byte) : (l1Update s die core pa bs).wf = s.wf :=
  (keepsMem_l1Update _ _ _ _ _).wf_eq

@[simp] theorem wf_writeAcc (s : State) (who : Who) (seen : Bool) (a : Acc) (bs : List Byte) (h : s.wf = true) :
    (writeAcc s who seen a bs).wf = true := by
  unfold writeAcc
  (repeat' split) <;> simp [h, wf_homeWrite]

@[simp] theorem wf_addSeen (s : State) (who : Who) (cls : Option Cls) (n : Nat) (xs : List (Acc × Nat)) : (addSeen s who cls n xs).wf = s.wf
    := by
  unfold addSeen
  simp
  exact wf_foldl _ (fun st a => by (repeat' split) <;> simp) _ _

@[simp] theorem wf_addStore (s : State) (who : Who) (cls : Option Cls) (n : Nat) (xs : List (Acc × Nat)) : (addStore s who cls n xs).wf = s.wf :=
  (keepsMem_addStore _ _ _ _ _).wf_eq

@[simp] theorem wf_lazyDue (s : State) (pa n : Nat) (p : RelEnt → Bool) : (lazyDue s pa n p).wf = s.wf := KeepsMem.wf_eq ⟨rfl, rfl⟩

@[simp] theorem wfOut_afterLazy {s : State} {rs : List (Nat × Nat)} {p : RelEnt → Bool} {k : Out} (h : s.wf = true) (hk : WfOut k) : WfOut (afterLazy s rs p k) := by
  unfold afterLazy
  split <;> simp [h, hk]

@[simp] theorem wf_acquireAt (s : State) (die core : Nat) (sc : Sys2Proof.Scope) : (acquireAt s die core sc).wf = s.wf :=
  (keepsMem_acquireAt _ _ _ _).wf_eq

@[simp] theorem wf_flushOwn (s : State) (w : Wave) : (flushOwn s w).wf = s.wf := by simp [flushOwn]
@[simp] theorem wf_dueAll (s : State) (die core : Nat) : (dueAll s die core).wf = s.wf := by simp [dueAll]
@[simp] theorem wfOut_afterRelease {s : State} {w : Wave} {e : Bool} {k : State → Out} (h : s.wf = true) (hk : ∀ t, t.wf = true → WfOut (k t)) :
    WfOut (afterRelease s w e k) := by
  unfold afterRelease
  cases e <;> simp only <;> split <;> simp [h, hk]

@[simp] theorem wf_squashOrdered (s : State) (uid die core : Nat) (sls : List Nat) : (squashOrdered s uid die core sls).wf = s.wf := by
  simp [squashOrdered]

@[simp] theorem wf_squashOrder (s : State) (w : Wave) : (squashOrder s w).wf = s.wf := by simp [squashOrder]
@[simp] theorem wf_squashAcquire (s : State) (f : Flight) : (squashAcquire s f).wf = s.wf := by simp [squashAcquire]

@[simp] theorem wf_squashStores (s : State) (w : Wave) (sls : List Nat) (as : List (Acc × Nat)) : (squashStores s w sls as).wf = s.wf := by
  simp [squashStores]

@[simp] theorem wf_unblock (s : State) (f : Flight) : (unblock s f).wf = s.wf := KeepsMem.wf_eq ⟨rfl, rfl⟩
@[simp] theorem wf_endFlight (s : State) (f : Flight) : (endFlight s f).wf = s.wf := (keepsMem_endFlight _ _).wf_eq

@[simp] theorem wf_endPart (s : State) (f : Flight) : (endPart s f).wf = s.wf := by
  unfold endPart
  split <;> simp

@[simp] theorem wfOut_keepWritten {s : State} {f : Flight} {o : Out} (h : WfOut o) : WfOut (keepWritten s f o) := by
  unfold keepWritten
  split
  · exact h
  · split <;> simp_all

@[simp] theorem wfOut_onFlight {s : State} {fid : Nat} {k : Flight → Out} (h : s.wf = true) (hk : ∀ f, WfOut (k f)) : WfOut (onFlight s fid k) := by
  unfold onFlight
  (repeat' split) <;> simp [h, wfOut_keepWritten, hk]

@[simp] theorem wf_reply (s : State) (f : Flight) (v : W64) : (reply s f v).wf = s.wf := by
  unfold reply
  split <;> simp

@[simp] theorem wf_sweepGhosts (s : State) : (sweepGhosts s).wf = s.wf := KeepsMem.wf_eq ⟨rfl, rfl⟩

/-! ### Loads and stores -/

@[simp] theorem wf_fillTlbs (s : State) (asid : Nat) (as : List Acc) : (fillTlbs s asid as).wf = s.wf := by
  unfold fillTlbs
  exact wf_foldl _ (fun st a => by split <;> simp) _ _

@[simp] theorem wf_readAll (s : State) (who : Who) (home : Bool) (n : Nat) (a : List Acc) : (readAll s who home n a).1.wf = s.wf :=
  (onlyCaches_readAll _ _ _ _ _).wf_eq

@[simp] theorem wf_poisonLanes (s : State) (who : Who) (kind : Nat) (bad : List Acc) : (poisonLanes s who kind bad).wf = s.wf := by
  unfold poisonLanes
  split <;> simp

@[simp] theorem wfOut_forkLoad (s : State) (w : Wave) (d : LoadDst) (n : Nat) (as : List Acc) (h : s.wf = true) :
    WfOut (forkLoad s w d n as) := by
  simp [forkLoad, h]

@[simp] theorem wfOut_loadBody (o : Ops) (n : Nat) (acc : State → Wave → Nat → Except LaneFault Acc) (s : State) (w : Wave) (ls : List Nat)
    (h : s.wf = true) : WfOut (loadBody o n acc s w ls) := by
  unfold loadBody
  (repeat' split) <;> simp [h]

theorem wfOut_execLd (o : Ops) (s : State) (h : s.wf = true) : WfOut (execLd o s) :=
  wfOut_runInstr h fun w ls => by simp [h]

theorem wfOut_execLdu (o : Ops) (s : State) (h : s.wf = true) : WfOut (execLdu o s) :=
  wfOut_runInstr h fun w ls => by simp [h]

theorem wfOut_execLds (o : Ops) (s : State) (h : s.wf = true) : WfOut (execLds o s) :=
  wfOut_runInstr h fun w ls => by simp [h]

theorem wfOut_execLdp (o : Ops) (s : State) (h : s.wf = true) : WfOut (execLdp o s) :=
  wfOut_runInstr h fun w ls => by simp [h]

@[simp] theorem wfOut_forkStore (s : State) (w : Wave) (n : Nat) (xs : List (Acc × Nat)) (h : s.wf = true) : WfOut (forkStore s w n xs) := by
  simp [forkStore, h]

@[simp] theorem wfOut_issueStore (s : State) (w : Wave) (o : Ops) (n : Nat) (xs : List (Acc × Nat)) (h : s.wf = true) :
    WfOut (issueStore s w o n xs) := by
  simp [issueStore, h]

@[simp] theorem wfOut_storeBody (o : Ops) (n : Nat) (acc : State → Wave → Nat → Except LaneFault Acc) (s : State) (w : Wave) (ls : List Nat)
    (h : s.wf = true) : WfOut (storeBody o n acc s w ls) := by
  unfold storeBody
  (repeat' split) <;> simp +contextual [h]

theorem wfOut_execSt (o : Ops) (s : State) (h : s.wf = true) : WfOut (execSt o s) :=
  wfOut_runInstr h fun w ls => by simp [h]

theorem wfOut_execStu (o : Ops) (s : State) (h : s.wf = true) : WfOut (execStu o s) :=
  wfOut_runInstr h fun w ls => by simp [h]

theorem wfOut_execSts (o : Ops) (s : State) (h : s.wf = true) : WfOut (execSts o s) :=
  wfOut_runInstr h fun w ls => by simp [h]

theorem wfOut_execStp (o : Ops) (s : State) (h : s.wf = true) : WfOut (execStp o s) :=
  wfOut_runInstr h fun w ls => by simp [h]

@[simp] theorem wf_prefetchLane (s : State) (w : Wave) (o : Ops) (lane : Nat) : (prefetchLane s w o lane).wf = s.wf := by
  unfold prefetchLane
  split <;> simp

theorem wfOut_execPf (o : Ops) (s : State) (h : s.wf = true) : WfOut (execPf o s) :=
  wfOut_runInstr h fun w ls => by simp [h]

@[simp] theorem wf_performLoad (s : State) (f : Flight) (d : LoadDst) (n : Nat) (as : List Acc) (acq : Option Sys2Proof.Scope) :
    (performLoad s f d n as acq).wf = s.wf := by
  unfold performLoad
  split <;> simp

@[simp] theorem wf_performStore (s : State) (f : Flight) (n : Nat) (xs : List (Acc × Nat)) (h : s.wf = true) : (performStore s f n xs).wf = true := by
  have hw := wf_foldl_of (fun st (x : Acc × Nat) ht => wf_writeAcc st f.who f.vis.isSome x.1 (leBytes n x.2) ht) xs h
  unfold performStore
  simp only
  split <;> simpa using hw

@[simp] theorem wf_recordReleases (s : State) (f : Flight) : (recordReleases s f).wf = s.wf := by simp [recordReleases]

theorem wfOut_execLazyWriteBack (die core : Nat) (s : State) (h : s.wf = true) : WfOut (execLazyWriteBack die core s) := by
  unfold execLazyWriteBack
  simp only
  (repeat' split) <;> simp [h, wf_homeWrite]

/-! ### Atomics and fences -/

@[simp] theorem wf_atomLane (who : Who) (sc : Sys2Proof.Scope) (op : Nat) (t : Ty) (s : State) (r : AtomRes) (x : Acc × Nat × Nat)
    (h : s.wf = true) : (atomLane who sc op t s r x).1.wf = true := by
  unfold atomLane
  simp only
  (repeat' split) <;> simp [h, wf_homeWrite]

@[simp] theorem wf_atomLanes (who : Who) (sc : Scope) (op : Nat) (t : Ty) (s : State) (xs : List (Acc × Nat × Nat)) (h : s.wf = true) :
    (atomLanes who sc op t s xs).1.wf = true :=
  wf_foldl_fst (fun _ _ ha => wf_atomLane _ _ _ _ _ _ _ ha) xs h

@[simp] theorem wf_atomFinish (s : State) (who : Who) (dst : Option LoadDst) (t : Ty) (r : AtomRes) (send : Bool) :
    (atomFinish s who dst t r send).wf = s.wf := by
  unfold atomFinish
  split <;> simp

@[simp] theorem wfOut_issueAtom (s : State) (w : Wave) (o : Ops) (dst : Option LoadDst) (as : List Acc) (h : s.wf = true) :
    WfOut (issueAtom s w o dst as) := by
  simp [issueAtom, h]

@[simp] theorem wfOut_atomBody (o : Ops) (load : Bool) (s : State) (w : Wave) (ls : List Nat) (h : s.wf = true) :
    WfOut (atomBody o load s w ls) := by
  unfold atomBody
  (repeat' split) <;> simp +contextual [h]

theorem wfOut_execAtom (o : Ops) (s : State) (h : s.wf = true) : WfOut (execAtom o s) :=
  wfOut_runInstr h fun w ls => by simp [h]

theorem wfOut_execRed (o : Ops) (s : State) (h : s.wf = true) : WfOut (execRed o s) :=
  wfOut_runInstr h fun w ls => by simp [h]

@[simp] theorem wf_performAtom (s : State) (f : Flight) (dst : Option LoadDst) (op : Nat) (t : Ty) (xs : List (Acc × Nat × Nat))
    (sc : Sys2Proof.Scope) (ord : Sys2Proof.Ord) (h : s.wf = true) : (performAtom s f dst op t xs sc ord).wf = true := by
  unfold performAtom
  (repeat' split) <;> simp [h]

theorem wfOut_execFence (g : Guard) (sc : Sys2Proof.Scope) (ord : Sys2Proof.Ord) (s : State) (h : s.wf = true) :
    WfOut (execFence g sc ord s) := by
  refine wfOut_runInstr h fun w ls => ?_
  simp only
  simp +contextual [h]

@[simp] theorem wfOut_waitBody {s : State} {w : Wave} {ths : List (Cls × Option Nat)} {k : State → Out} (h : s.wf = true)
    (hk : ∀ t, t.wf = true → WfOut (k t)) : WfOut (waitBody s w ths k) := by
  unfold waitBody
  simp only
  split <;> simp [h, hk]

theorem wfOut_execWait (g : Guard) (ld st cp mx tx : Option Nat) (s : State) (h : s.wf = true) : WfOut (execWait g ld st cp mx tx s) :=
  wfOut_runInstr h fun _ _ => wfOut_waitBody h fun _ ht => by simp [ht]

/-! ### Barriers -/

@[simp] theorem wf_barFree (s : State) (uid off phase : Nat) : (barFree s uid off phase).wf = s.wf := KeepsMem.wf_eq ⟨rfl, rfl⟩

@[simp] theorem wf_barPut (s : State) (uid off : Nat) (new : BarObj) (completed : Bool) : (barPut s uid off new completed).wf = s.wf := by
  simp [barPut]

@[simp] theorem wf_barDo (s : State) (uid off : Nat) (op : BarOp) : (barDo s uid off op).wf = s.wf := by simp [barDo]
@[simp] theorem wfOut_barBody (o : Ops) (bad release : Bool) (op : BarOp) (s : State) (w : Wave) (h : s.wf = true) :
    WfOut (barBody o bad release op s w) := by
  unfold barBody
  (repeat' split) <;> simp +contextual [h]

theorem wfOut_execBarInit (o : Ops) (s : State) (h : s.wf = true) : WfOut (execBarInit o s) :=
  wfOut_runInstr h fun w ls => by simp [h]

theorem wfOut_execBarArr (o : Ops) (s : State) (h : s.wf = true) : WfOut (execBarArr o s) :=
  wfOut_runInstr h fun w ls => by simp [h]

theorem wfOut_execBarExp (o : Ops) (s : State) (h : s.wf = true) : WfOut (execBarExp o s) :=
  wfOut_runInstr h fun w ls => by simp [h]

theorem wfOut_execBarWait (o : Ops) (s : State) (h : s.wf = true) : WfOut (execBarWait o s) := by
  refine wfOut_runInstr h fun w ls => ?_
  (repeat' split) <;> simp [h]

theorem wfOut_execBarrierOperation (fid : Nat) (s : State) (h : s.wf = true) : WfOut (execBarrierOperation fid s) := by
  refine wfOut_onFlight h fun f => ?_
  (repeat' split) <;> simp [h]

/-! ### Weight and records -/

@[simp] theorem wf_setPool (s : State) (q launch amount : Nat) : (setPool s q launch amount).wf = s.wf := KeepsMem.wf_eq ⟨rfl, rfl⟩

theorem wf_unitShare {s : State} {n sh : Nat} {x : State × Nat} (h : unitShare s n sh = some x) : x.1.wf = s.wf := by
  unfold unitShare at h
  (repeat' split at h) <;> cases h <;> simp

@[simp] theorem wfOut_withUnits {s : State} {w : Wave} {k : State → Wave → Out} (h : s.wf = true) (hk : ∀ t v, t.wf = true → WfOut (k t v)) :
    WfOut (withUnits s w k) := by
  unfold withUnits
  (repeat' split) <;> simp [h, hk]

theorem wfOut_execDraw (fid : Nat) (s : State) (h : s.wf = true) : WfOut (execDraw fid s) := by
  refine wfOut_onFlight h fun f => ?_
  (repeat' split) <;> simp [h]

@[simp] theorem wf_sendRecord (s : State) (who : Who) (die : Nat) (r : Record) : (sendRecord s who die r).wf = s.wf := KeepsMem.wf_eq ⟨rfl, rfl⟩

/-! ### Estimators -/

@[simp] theorem wf_putCell (s : State) (pa : Nat) (c : Cell) (h : s.wf = true) : (putCell s pa c).wf = true := by simp [putCell, h, wf_putMem]
@[simp] theorem wf_writeRegion (s : State) (asid i : Nat) (r : Region) (h : s.wf = true) : (writeRegion s asid i r).wf = true :=
  wf_memWrite (wf_memWrite (wf_memWrite h _ _ _) _ _ _) _ _ _

@[simp] theorem wf_setRegion (s : State) (asid i : Nat) (r : Region) (h : s.wf = true) : (setRegion s asid i r).wf = true := by simp [setRegion, h]

@[simp] theorem wf_homeCell (s : State) (c : CellRef) (r : Region) (x : Cell) (h : s.wf = true) : (homeCell s c r x).wf = true := by
  simp [homeCell, h]

@[simp] theorem wf_noteCell (s : State) (f : Flight) (c : CellRef) : (noteCell s f c).wf = s.wf := KeepsMem.wf_eq ⟨rfl, rfl⟩

@[simp] theorem wf_atCell {s : State} {w : Flight} {c : CellRef} {f : Cell → Cell} (h : s.wf = true) : (atCell s w c f).wf = true := by
  unfold atCell
  (repeat' split) <;> simp [h]

@[simp] theorem wfOut_estBody {o : Ops} {a : AKind} {c : Cls} {s : State} {w : Wave} {ls : List Nat}
    {k : State → List (Nat × CellRef × Region) → Out} (h : s.wf = true) (hk : ∀ t xs, t.wf = true → WfOut (k t xs)) :
    WfOut (estBody o a c s w ls k) := by
  unfold estBody
  (repeat' split) <;> simp [h, hk]

@[simp] theorem wf_ecbAdd (s : State) (w : Wave) (c : CellRef) (epoch : Nat) (p : Partial) : (ecbAdd s w c epoch p).wf = s.wf := by
  unfold ecbAdd
  simp only
  (repeat' split) <;> simp

@[simp] theorem wfOut_estAddBody (o : Ops) (val : Wave → Nat → Partial) (s : State) (w : Wave) (ls : List Nat) (h : s.wf = true) :
    WfOut (estAddBody o val s w ls) := by
  simp [estAddBody, h]

theorem wfOut_execEstAdd (o : Ops) (s : State) (h : s.wf = true) : WfOut (execEstAdd o s) :=
  wfOut_runInstr h fun w ls => by simp [h]

theorem wfOut_execEstMrg (o : Ops) (s : State) (h : s.wf = true) : WfOut (execEstMrg o s) :=
  wfOut_runInstr h fun w ls => by simp [h]

theorem wfOut_execEstClr (o : Ops) (s : State) (h : s.wf = true) : WfOut (execEstClr o s) := by
  refine wfOut_runInstr h fun w ls => ?_
  simp only
  simp +contextual [h]

@[simp] theorem wfOut_splitFor {rs : List Nat} {s : State} {w : Wave} {k : State → Wave → List (Nat × Nat) → Out} (h : s.wf = true)
    (hk : ∀ t v xs, t.wf = true → WfOut (k t v xs)) : WfOut (splitFor s w rs k) := by
  induction rs generalizing s w k with
  | nil => exact hk _ _ _ h
  | cons r rest ih => exact wfOut_withUnits h fun _ _ ht => ih ht fun _ _ _ hu => hk _ _ _ hu

theorem wfOut_execEstLd (o : Ops) (s : State) (h : s.wf = true) : WfOut (execEstLd o s) :=
  wfOut_runInstr h fun _ _ => wfOut_estBody h fun _ _ ht => wfOut_splitFor ht fun _ _ _ hu => by simp [hu]

theorem wfOut_execFlush (die core entry : Nat) (s : State) (h : s.wf = true) : WfOut (execFlush die core entry s) := by
  unfold execFlush
  simp only
  (repeat' split) <;> simp [h]

theorem wfOut_execMerge (fid : Nat) (s : State) (h : s.wf = true) : WfOut (execMerge fid s) := by
  refine wfOut_onFlight h fun f => ?_
  (repeat' split) <;> simp [h]

@[simp] theorem wf_performClr (s : State) (f : Flight) (cs : List CellRef) (h : s.wf = true) : (performClr s f cs).wf = true := by
  unfold performClr
  rw [wf_healHome]
  refine wf_foldl_of (fun st c ht => ?_) cs h
  split <;> simp [ht]

@[simp] theorem wf_estLdLane (s : State) (f : Flight) (nr : Bool) (c : CellRef) (h : s.wf = true) : (estLdLane s f nr c).1.wf = true := by
  unfold estLdLane
  (repeat' split) <;> simp [h]

@[simp] theorem wf_performEstLd (s : State) (f : Flight) (uid reg : Nat) (nr : Bool) (cells : List (Nat × CellRef)) (shares : List (Nat × Nat))
    (h : s.wf = true) : (performEstLd s f uid reg nr cells shares).wf = true := by
  unfold performEstLd
  simp only
  rw [wf_foldl _ (fun _ _ => by simp)]
  split
  · rw [wf_poisonLanes]
    exact wf_foldl_fst (fun x c hx => by simp [hx]) cells h
  · exact wf_foldl_fst (fun x c hx => by simp [hx]) cells h

theorem wfOut_execReseedRequest (fid : Nat) (s : State) (h : s.wf = true) : WfOut (execReseedRequest fid s) := by
  refine wfOut_onFlight h fun f => ?_
  split
  · split
    · simp [h]
    · simp [h]
    · split
      · simp [h]
      · split
        · simp [h]
        · split
          · simp [h]
          · next hx => simp [wf_unitShare hx, h]
  · simp [h]

@[simp] theorem wf_stagedWrite (asid va : Nat) (s : State) (pa : Nat) (bs : List Byte) (h : s.wf = true) : (stagedWrite asid va s pa bs).wf
    = true := by
  simp [stagedWrite, h, wf_memWrite]

@[simp] theorem wf_dropStaged (s : State) (f : Flight) (asid region : Nat) (r : Region) (lane addr : Nat) (h : s.wf = true) :
    (dropStaged s f asid region r lane addr).wf = true := by
  simp [dropStaged, h]

theorem wfOut_execStage (fid : Nat) (s : State) (h : s.wf = true) : WfOut (execStage fid s) := by
  refine wfOut_onFlight h fun f => ?_
  simp only
  (repeat' split) <;> simp [h]

@[simp] theorem wf_closeStep (s : State) (f : Flight) (asid region : Nat) (r : Region) (h : s.wf = true) : (closeStep s f asid region r).wf = true := by
  unfold closeStep
  refine wf_foldl_of (fun st c ht => ?_) _ (by simp [h])
  split <;> simp [ht]

theorem wfOut_execFold (fid : Nat) (s : State) (h : s.wf = true) : WfOut (execFold fid s) := by
  refine wfOut_onFlight h fun f => ?_
  (repeat' split) <;> simp [h]

theorem wfOut_execEpochNotice (fid : Nat) (s : State) (h : s.wf = true) : WfOut (execEpochNotice fid s) := by
  refine wfOut_onFlight h fun f => ?_
  (repeat' split) <;> simp [h]

@[simp] theorem wf_regionStep (s : State) (f : Flight) (asid region : Nat) (adv : Bool) (phase folded : Nat) (ovf : Bool) (h : s.wf = true)
    : (regionStep s f asid region adv phase folded ovf).wf = true := by
  unfold regionStep
  (repeat' split) <;> simp [h]

@[simp] theorem wfOut_regionBody (o : Cop) (adv : Bool) (s : State) (w : Wave) (h : s.wf = true) : WfOut (regionBody o adv s w) := by
  unfold regionBody
  simp only
  (repeat' split) <;> simp [h]

theorem wfOut_execEstAdv (o : Cop) (s : State) (h : s.wf = true) : WfOut (execEstAdv o s) :=
  wfOut_runInstr h fun w ls => by simp [h]

theorem wfOut_execEstClose (o : Cop) (s : State) (h : s.wf = true) : WfOut (execEstClose o s) :=
  wfOut_runInstr h fun w ls => by simp [h]

/-! ### Completions -/

@[simp] theorem wfOut_pathTurn {s : State} {f : Flight} {k : Out} (h : s.wf = true) (hk : WfOut k) : WfOut (pathTurn s f k) := by
  unfold pathTurn
  split <;> simp [h, hk]

theorem wfOut_execLoadCompletion (fid : Nat) (s : State) (h : s.wf = true) : WfOut (execLoadCompletion fid s) := by
  refine wfOut_onFlight h fun f => ?_
  split
  · refine wfOut_pathTurn h ?_
    split
    · simp [h]
    · exact wfOut_afterLazy h (by simp [h])
  · refine wfOut_pathTurn h ?_
    split
    · simp [h]
    · exact wfOut_afterLazy h (by simp [h])
  · refine wfOut_pathTurn h ?_
    split <;> simp [h]
  · split <;> simp [h]
  · simp [h]

theorem wfOut_execStoreCompletion (fid : Nat) (s : State) (h : s.wf = true) : WfOut (execStoreCompletion fid s) := by
  refine wfOut_onFlight h fun f => ?_
  split
  · refine wfOut_pathTurn h ?_
    split
    · simp [h]
    · exact wfOut_afterLazy h (by simp [h])
  · refine wfOut_pathTurn h ?_
    split
    · simp [h]
    · exact wfOut_afterLazy h (by simp [h])
  · refine wfOut_pathTurn h ?_
    split
    · simp [h]
    · exact wfOut_afterLazy h (by simp [h])
  · refine wfOut_pathTurn h ?_
    split <;> simp [h]
  · split <;> simp [h]
  · split <;> simp [h]
  · simp [h]

/-! ### Control flow -/

theorem wfOut_execBr (g : Guard) (n : Bool) (q : Nat) (off : BitVec 24) (s : State) (h : s.wf = true) : WfOut (execBr g n q off s) :=
  wfOut_runInstr h fun w ls => by simp [h]

theorem wfOut_execJmp (g : Guard) (off : BitVec 24) (s : State) (h : s.wf = true) : WfOut (execJmp g off s) :=
  wfOut_runInstr h fun w ls => by simp [h]

theorem wfOut_execBrv (g : Guard) (n : Bool) (k : Nat) (off : BitVec 24) (s : State) (h : s.wf = true) : WfOut (execBrv g n k off s) :=
  wfOut_runInstr h fun w ls => by simp [h]

@[simp] theorem wf_tableRead (s : State) (w : Wave) (head : Bool) (as : List Acc) : (tableRead s w head as).1.wf = s.wf := by simp [tableRead]

@[simp] theorem wf_tablePoison (s : State) (w : Wave) (lanes : List Nat) (bad : List Acc) : (tablePoison s w lanes bad).wf = s.wf := by
  unfold tablePoison
  split <;> simp

@[simp] theorem wf_tableFaults (s : State) (w : Wave) (es : List (Nat × LaneFault)) : (tableFaults s w es).wf = s.wf := by
  unfold tableFaults
  split <;> simp

theorem wfOut_briTable {s : State} {w : Wave} {tab : W64} {n : Nat} {idx : Nat → Nat} {ls : List Nat} {all : Nat → List Nat}
    {k : State → List BriLane → Out} {o : Out} (h : s.wf = true) (hk : ∀ t xs, t.wf = true → WfOut (k t xs))
    (ho : briTable s w tab n idx ls all k = some o) : WfOut o := by
  unfold briTable at ho
  simp only at ho
  (repeat' split at ho) <;> cases ho <;> simp [h, hk]

theorem wfOut_briOut {vec : Bool} {a b : Nat} {s : State} {w : Wave} {ls : List Nat} {o : Out} (h : s.wf = true)
    (ho : briOut vec a b s w ls = some o) : WfOut o := by
  unfold briOut at ho
  simp only at ho
  split at ho
  · cases ho; simp [h]
  · split at ho
    · cases ho; simp [h]
    · split at ho
      · cases ho; simp [h]
      · split at ho
        · cases ho
        · have hread := (wf_tableRead s w true [‹Acc›]).trans h
          split at ho
          · cases ho; simp [h]
          · generalize tableRead s w true _ = r at hread ho
            split at ho
            · exact wfOut_briTable hread (fun t xs ht => by simp [ht]) ho
            · refine wfOut_briTable hread (fun t xs ht => ?_) ho
              split <;> simp [ht]

theorem wfOut_execBri (g : Guard) (vec : Bool) (a b : Nat) (s : State) (h : s.wf = true) : WfOut (execBri g vec a b s) := by
  refine wfOut_runInstr h fun w ls => ?_
  cases ho : briOut vec a b s w ls with
  | none => simp [h]
  | some o => exact wfOut_briOut h ho

theorem wfOut_execCall (g : Guard) (off : BitVec 24) (s : State) (h : s.wf = true) : WfOut (execCall g off s) :=
  wfOut_runInstr h fun w ls => by simp [h]

theorem wfOut_execLoop (g : Guard) (imm : Bool) (n off : Nat) (s : State) (h : s.wf = true) : WfOut (execLoop g imm n off s) :=
  wfOut_runInstr h fun w ls => by simp [h]

theorem wfOut_execRegang (g : Guard) (s : State) (h : s.wf = true) : WfOut (execRegang g s) :=
  wfOut_runInstr h fun w ls => by simp [h]

theorem wfOut_execRegangRelease (uid : Nat) (s : State) (h : s.wf = true) : WfOut (execRegangRelease uid s) := by
  unfold execRegangRelease
  (repeat' split) <;> simp [h]

theorem wfOut_execYield (g : Guard) (s : State) (h : s.wf = true) : WfOut (execYield g s) :=
  wfOut_runInstr h fun w ls => by simp [h]

theorem wfOut_execNop (g : Guard) (s : State) (h : s.wf = true) : WfOut (execNop g s) :=
  wfOut_runInstr h fun w ls => by simp [h]

@[simp] theorem wf_endLanes (s : State) (w0 : Wave) : (endLanes s w0).wf = s.wf := by
  unfold endLanes
  simp only
  split <;> simp

theorem wfOut_execExit (g : Guard) (s : State) (h : s.wf = true) : WfOut (execExit g s) :=
  wfOut_runInstr h fun w ls => by simp [h]

theorem wfOut_execDone (g : Guard) (s : State) (h : s.wf = true) : WfOut (execDone g s) :=
  wfOut_runInstr h fun _ _ => wfOut_waitBody h fun _ ht => by split <;> simp [ht]

theorem wfOut_execGangDemotion (uid : Nat) (s : State) (h : s.wf = true) : WfOut (execGangDemotion uid s) := by
  unfold execGangDemotion
  (repeat' split) <;> simp [h]

theorem wfOut_execPartSwap (uid slice : Nat) (s : State) (h : s.wf = true) : WfOut (execPartSwap uid slice s) := by
  unfold execPartSwap
  (repeat' split) <;> simp [h]

theorem wfOut_execStarvedWaveChoice (uid : Nat) (s : State) (h : s.wf = true) : WfOut (execStarvedWaveChoice uid s) := by
  unfold execStarvedWaveChoice
  (repeat' split) <;> simp [h]

/-! ### Forks -/

theorem wfOut_execFcall (g : Guard) (off : BitVec 21) (lv : W32) (rc rva rvb : Nat) (s : State) (h : s.wf = true) :
    WfOut (execFcall g off lv rc rva rvb s) := by
  refine wfOut_runInstr h fun w ls => ?_
  (repeat' split) <;> simp [h]

@[simp] theorem wf_markReturned (s : State) (w : Wave) (sls : List Nat) : (markReturned s w sls).wf = s.wf := KeepsMem.wf_eq ⟨rfl, rfl⟩

@[simp] theorem wf_plainRet (s : State) (w : Wave) (mark : Option FcMark) : (plainRet s w mark).wf = s.wf := by
  unfold plainRet
  split <;> simp

@[simp] theorem wf_squashParked (s : State) (w : Wave) : (squashParked s w).wf = s.wf := by simp [squashParked]

theorem wfOut_execRet (g : Guard) (s : State) (h : s.wf = true) : WfOut (execRet g s) := by
  refine wfOut_runInstr h fun w ls => ?_
  simp only
  (repeat' split) <;> simp [h]

theorem wfOut_execFsync (g : Guard) (s : State) (h : s.wf = true) : WfOut (execFsync g s) :=
  wfOut_runInstr h fun w ls => by simp [h]

@[simp] theorem wf_commitFork (s : State) (x w : Wave) (f : Fork) : (commitFork s x w f).wf = s.wf := by simp [commitFork]

theorem wfOut_execForkResolution (uid : Nat) (s : State) (h : s.wf = true) : WfOut (execForkResolution uid s) := by
  unfold execForkResolution
  (repeat' split) <;> simp [h]

/-! ### Tiles and engines -/

@[simp] theorem wf_engTouch (s : State) (asid : Nat) (rs : List VRange) : (engTouch s asid rs).wf = s.wf := by simp [engTouch]
@[simp] theorem wf_putPieces (s : State) (d c : Nat) (ps : List Piece) (h : s.wf = true) : (putPieces s d c ps).wf = true :=
  wf_foldl_of (fun _ _ ht => wf_engineWrite ht _ _ _ _ _) ps h

@[simp] theorem wfOut_inReplyOrder {s t : State} {f : Flight} (h : s.wf = true) (ht : t.wf = true) : WfOut (inReplyOrder s f t) := by
  unfold inReplyOrder
  split <;> simp [h, ht]

@[simp] theorem wf_updTile (s : State) (uid t : Nat) (f : Tile → Tile) : (updTile s uid t f).wf = s.wf := KeepsMem.wf_eq ⟨rfl, rfl⟩
@[simp] theorem wfOut_engIssue (s : State) (w : Wave) (cls : Cls) (act : Act) (rr : Option Nat) (h : s.wf = true) :
    WfOut (engIssue s w cls act rr) := by
  simp [engIssue, h]

@[simp] theorem wfOut_tdefBody (s : State) (w : Wave) (t : Nat) (c : TileCmd) (h : s.wf = true) : WfOut (tdefBody s w t c) := by
  simp [tdefBody, h]

theorem wfOut_execTdefBytes (o : Cop) (s : State) (h : s.wf = true) : WfOut (execTdefBytes o s) :=
  wfOut_runInstr h fun w ls => by simp [h]

theorem wfOut_execTdefPlane (o : Cop) (s : State) (h : s.wf = true) : WfOut (execTdefPlane o s) :=
  wfOut_runInstr h fun w ls => by simp [h]

theorem wfOut_execTset (o : Cop) (s : State) (h : s.wf = true) : WfOut (execTset o s) :=
  wfOut_runInstr h fun w ls => by simp [h]

theorem wfOut_execTq (o : Cop) (s : State) (h : s.wf = true) : WfOut (execTq o s) :=
  wfOut_runInstr h fun w ls => by simp [h]

/-! ### Copies -/

@[simp] theorem wfOut_copyBody (o : Cop) (fn : CopyFn) (s : State) (w : Wave) (h : s.wf = true) : WfOut (copyBody o fn s w) := by
  unfold copyBody
  simp only
  (repeat' split) <;> simp [h]

theorem wfOut_execCpyLd (o : Cop) (s : State) (h : s.wf = true) : WfOut (execCpyLd o s) :=
  wfOut_runInstr h fun w ls => by simp [h]

theorem wfOut_execCpySt (o : Cop) (s : State) (h : s.wf = true) : WfOut (execCpySt o s) :=
  wfOut_runInstr h fun w ls => by simp [h]

theorem wfOut_execCpyGth (o : Cop) (s : State) (h : s.wf = true) : WfOut (execCpyGth o s) :=
  wfOut_runInstr h fun w ls => by simp [h]

theorem wfOut_execCpyWs (o : Cop) (s : State) (h : s.wf = true) : WfOut (execCpyWs o s) :=
  wfOut_runInstr h fun w ls => by simp [h]

theorem wfOut_execCpyFill (o : Cop) (s : State) (h : s.wf = true) : WfOut (execCpyFill o s) :=
  wfOut_runInstr h fun w ls => by simp [h]

@[simp] theorem wf_subBar (s : State) (c : CopyCmd) (n : Nat) : (subBar s c n).wf = s.wf := by
  unfold subBar
  split <;> simp

@[simp] theorem wf_endCopy (s : State) (f : Flight) (c : CopyCmd) (failed : Bool) : (endCopy s f c failed).wf = s.wf := by simp [endCopy]
@[simp] theorem wf_failCopy (s : State) (f : Flight) (c : CopyCmd) (addr : Nat) : (failCopy s f c addr).wf = s.wf := by simp [failCopy]
@[simp] theorem wf_allParts (s : State) (f : Flight) (c : CopyCmd) : (allParts s f c).wf = s.wf := by simp [allParts]
@[simp] theorem wf_withParts (s : State) (f : Flight) (c : CopyCmd) : (withParts s f c).wf = s.wf := by simp [withParts]

@[simp] theorem wf_startFill (s : State) (f : Flight) (c : CopyCmd) : (startFill s f c).wf = s.wf := by
  unfold startFill
  simp only
  split <;> simp

@[simp] theorem wf_startStore (s : State) (f : Flight) (c : CopyCmd) : (startStore s f c).wf = s.wf := by simp [startStore]

@[simp] theorem wfOut_copyPart (s : State) (f : Flight) (c : CopyCmd) (part : Nat) (h : s.wf = true) : WfOut (copyPart s f c part) := by
  unfold copyPart
  extract_lets runs n c1
  split
  · simp [h]
  · split
    · split
      · simp [h]
      · exact wfOut_afterLazy h (wfOut_inReplyOrder h (by simp [h]))
    · simp [h]

theorem wfOut_execCopyPartCompletion (fid part : Nat) (s : State) (h : s.wf = true) : WfOut (execCopyPartCompletion fid part s) := by
  refine wfOut_onFlight h fun f => ?_
  (repeat' split) <;> simp [h]

/-! ### Gleans -/

@[simp] theorem wfOut_gleanBody (o : Cop) (g : GleanCmd) (dstAlign : Nat) (s : State) (w : Wave) (h : s.wf = true) :
    WfOut (gleanBody o g dstAlign s w) := by
  unfold gleanBody
  (repeat' split) <;> simp [h]

theorem wfOut_execGlTopk (o : Cop) (s : State) (h : s.wf = true) : WfOut (execGlTopk o s) :=
  wfOut_runInstr h fun w ls => by simp [h]

theorem wfOut_execGlSmax (o : Cop) (s : State) (h : s.wf = true) : WfOut (execGlSmax o s) :=
  wfOut_runInstr h fun w ls => by simp [h]

theorem wfOut_execGlSamp (o : Cop) (s : State) (h : s.wf = true) : WfOut (execGlSamp o s) :=
  wfOut_runInstr h fun w ls => by simp [h]

@[simp] theorem wf_gleanPut (s : State) (who : Who) (g : GleanCmd) (bs : List Byte) (ps : List Piece) (h : s.wf = true) :
    (gleanPut s who g bs ps).wf = true := by
  unfold gleanPut
  split <;> simp [h]

@[simp] theorem wf_failGlean (s : State) (f : Flight) (addr : Nat) : (failGlean s f addr).wf = s.wf := by simp [failGlean]

@[simp] theorem wfOut_startGlean (s : State) (f : Flight) (g : GleanCmd) (h : s.wf = true) : WfOut (startGlean s f g) := by
  unfold startGlean
  simp only
  split
  · simp [h]
  · split <;> simp [h]

theorem wfOut_execGleanCompletion (fid : Nat) (s : State) (h : s.wf = true) : WfOut (execGleanCompletion fid s) := by
  refine wfOut_onFlight h fun f => ?_
  split
  · split
    · simp [h]
    · simp only
      split
      · simp [h]
      · exact wfOut_afterLazy h (wfOut_inReplyOrder h (by simp [h]))
  · simp [h]

theorem wfOut_execCopyCommandStart (fid : Nat) (s : State) (h : s.wf = true) : WfOut (execCopyCommandStart fid s) := by
  refine wfOut_onFlight h fun f => ?_
  (repeat' split) <;> simp [h]

/-! ### The matrix engine -/

theorem wfOut_execMlease (o : Cop) (s : State) (h : s.wf = true) : WfOut (execMlease o s) :=
  wfOut_runInstr h fun w ls => by simp [h]

theorem wfOut_execMrel (o : Cop) (s : State) (h : s.wf = true) : WfOut (execMrel o s) :=
  wfOut_runInstr h fun w ls => by simp [h]

@[simp] theorem wf_squashDrain (s : State) (w : Wave) (t rows cols : Nat) : (squashDrain s w t rows cols).wf = s.wf := by simp [squashDrain]
@[simp] theorem wfOut_leased (s : State) (w : Wave) (early late : List (Option LaneFault)) (fn : MatFn) (h : s.wf = true) :
    WfOut (leased s w early late fn) := by
  unfold leased
  simp only
  (repeat' split) <;> simp [h]

theorem wfOut_execMclr (o : Cop) (s : State) (h : s.wf = true) : WfOut (execMclr o s) :=
  wfOut_runInstr h fun w ls => by simp [h]

theorem wfOut_execMmo (o : Cop) (s : State) (h : s.wf = true) : WfOut (execMmo o s) :=
  wfOut_runInstr h fun w ls => by simp [h]

theorem wfOut_execMdrain (o : Cop) (s : State) (h : s.wf = true) : WfOut (execMdrain o s) :=
  wfOut_runInstr h fun w ls => by simp [h]

@[simp] theorem wf_endLease (s : State) (eng : Nat) : (endLease s eng).wf = s.wf := KeepsMem.wf_eq ⟨rfl, rfl⟩

theorem wfOut_execLeaseGrant (eng : Nat) (s : State) (h : s.wf = true) : WfOut (execLeaseGrant eng s) := by
  unfold execLeaseGrant
  (repeat' split) <;> simp [h]

@[simp] theorem wf_startMmo (s : State) (f : Flight) (m : MatCmd) (bank : Nat) (mode : BMode) (ta tb : Nat) (zb peer : Option Nat) :
    (startMmo s f m bank mode ta tb zb peer).wf = s.wf := by
  unfold startMmo
  simp only
  split <;> simp

@[simp] theorem wf_matError (s : State) (f : Flight) (m : MatCmd) : (matError s f m).wf = s.wf := by
  unfold matError
  split <;> simp

@[simp] theorem wf_endMatrix (s : State) (f : Flight) (m : MatCmd) : (endMatrix s f m).wf = s.wf := by simp [endMatrix]

theorem wfOut_execMmoCompletion (fid : Nat) (s : State) (h : s.wf = true) : WfOut (execMmoCompletion fid s) := by
  refine wfOut_onFlight h fun f => ?_
  (repeat' split) <;> simp [h]

@[simp] theorem wf_startDrain (s : State) (f : Flight) (m : MatCmd) (bank : Nat) (tile : Option Nat) (rows cols : Nat) :
    (startDrain s f m bank tile rows cols).wf = s.wf := by
  unfold startDrain
  simp only
  split <;> simp

@[simp] theorem wf_drainWords (s : State) (f : Flight) (m : MatCmd) (add : Bool) (addr : W64) (stride : Option Int) (ws : List (Nat × W32))
    (h : s.wf = true) : (drainWords s f m add addr stride ws).1.wf = true := by
  induction ws generalizing s with
  | nil => exact h
  | cons x r ih =>
    unfold drainWords
    simp only
    split
    · exact ih _ (wf_engineWrite h _ _ _ _ _)
    · exact h

@[simp] theorem wf_drainTile (s : State) (f : Flight) (m : MatCmd) (add : Bool) (t : Nat) : (drainTile s f m add t).wf = s.wf := by
  simp [drainTile]

theorem wfOut_execDrainCompletion (fid : Nat) (s : State) (h : s.wf = true) : WfOut (execDrainCompletion fid s) := by
  refine wfOut_onFlight h fun f => ?_
  (repeat' split) <;> simp [h]

theorem wfOut_execAddOnStore (fid line : Nat) (s : State) (h : s.wf = true) : WfOut (execAddOnStore fid line s) := by
  refine wfOut_onFlight h fun f => ?_
  simp only
  (repeat' split) <;> simp [h]

theorem wfOut_execMatrixCommandStart (fid : Nat) (s : State) (h : s.wf = true) : WfOut (execMatrixCommandStart fid s) := by
  refine wfOut_onFlight h fun f => ?_
  (repeat' split) <;> simp [h]

/-! ### Special registers -/

@[simp] theorem wfOut_regGuard {s : State} {w : Wave} {n : Nat} {k : Out} (h : s.wf = true) (hk : WfOut k) : WfOut (regGuard s w n k) := by
  unfold regGuard
  split <;> simp [h, hk]

theorem wfOut_execGets (o : Ops) (s : State) (h : s.wf = true) : WfOut (execGets o s) :=
  wfOut_runInstr h fun w ls => by simp [h]

theorem wfOut_execSets (o : Ops) (s : State) (h : s.wf = true) : WfOut (execSets o s) :=
  wfOut_runInstr h fun w ls => by simp [h]

/-! ### Exceptions and configuration -/

theorem wfOut_execTrap (o : Ops) (s : State) (h : s.wf = true) : WfOut (execTrap o s) :=
  wfOut_runInstr h fun w ls => by simp [h]

theorem wfOut_execXret (o : Ops) (s : State) (h : s.wf = true) : WfOut (execXret o s) :=
  wfOut_runInstr h fun w ls => by simp [h]

theorem wfOut_execXclr (o : Ops) (s : State) (h : s.wf = true) : WfOut (execXclr o s) :=
  wfOut_runInstr h fun w ls => by simp [h]

@[simp] theorem wf_openWindow (s : State) : (openWindow s).wf = s.wf := by simp [openWindow]

theorem wfOut_execCfgr (o : Ops) (s : State) (h : s.wf = true) : WfOut (execCfgr o s) := by
  refine wfOut_runInstr h fun w ls => ?_
  (repeat' split) <;> simp [h]

theorem wfOut_execCfgw (o : Ops) (s : State) (h : s.wf = true) : WfOut (execCfgw o s) :=
  wfOut_runInstr h fun w ls => by simp [h]

theorem wfOut_execCarveChange (die core : Nat) (s : State) (h : s.wf = true) : WfOut (execCarveChange die core s) := by
  unfold execCarveChange
  simp only
  (repeat' split) <;> simp [h]

theorem wfOut_execLive (o : Ops) (s : State) (h : s.wf = true) : WfOut (execLive o s) :=
  wfOut_runInstr h fun w ls => by simp [h]

theorem wfOut_execTlbi (o : Ops) (s : State) (h : s.wf = true) : WfOut (execTlbi o s) :=
  wfOut_runInstr h fun w ls => by simp [h]

theorem wfOut_execDelivery (uid : Nat) (s : State) (h : s.wf = true) : WfOut (execDelivery uid s) := by
  unfold execDelivery
  (repeat' split) <;> simp [h]

@[simp] theorem wf_requestPreempt (s : State) (w : Wave) : (requestPreempt s w).wf = s.wf := by simp [requestPreempt]

theorem wfOut_execPreemptionRequest (uid : Nat) (s : State) (h : s.wf = true) : WfOut (execPreemptionRequest uid s) := by
  unfold execPreemptionRequest
  (repeat' split) <;> simp [h]

theorem wfOut_execPreemptionTimeout (uid : Nat) (s : State) (h : s.wf = true) : WfOut (execPreemptionTimeout uid s) := by
  unfold execPreemptionTimeout
  (repeat' split) <;> simp [h]

/-! ### Placing, saving and restoring waves -/

@[simp] theorem wf_placeWave (s : State) (w : Wave) : (placeWave s w).wf = s.wf := KeepsMem.wf_eq ⟨rfl, rfl⟩
@[simp] theorem wf_freshUnit (s : State) (u : Unit3) : (freshUnit s u).wf = s.wf := KeepsMem.wf_eq ⟨rfl, rfl⟩

@[simp] theorem wf_swapSpare (s : State) (die core : Nat) (h : s.wf = true) : (swapSpare s die core).wf = true := by
  simp [swapSpare, h, wf_postEvent]

@[simp] theorem wf_saveWave (s : State) (w : Wave) (k : SaveHint) (h : s.wf = true) : (saveWave s w k).wf = true := by
  unfold saveWave
  simp [h]

theorem wfOut_execSave (uid : Nat) (s : State) (h : s.wf = true) : WfOut (execSave uid s) := by
  unfold execSave
  split
  · simp [h]
  · split
    · simp [h]
    · split
      · simp [h]
      · simp only
        split <;> simp [h]

theorem wfOut_execRestore (uid : Nat) (s : State) (h : s.wf = true) : WfOut (execRestore uid s) := by
  unfold execRestore
  simp only
  (repeat' split) <;> simp [h]

/-! ### Launches and queues -/

@[simp] theorem wf_completeLaunch (s : State) (num : Nat) (h : s.wf = true) : (completeLaunch s num).wf = true := by
  unfold completeLaunch
  (repeat' split) <;> simp [h, wf_postEvent]

@[simp] theorem wf_acceptLaunch (s : State) (asid num : Nat) (host : Bool) (parent die : Nat) (handler : W64) (link : Nat) (pc addr : W64)
    (d : LaunchDesc) (h : s.wf = true) : (acceptLaunch s asid num host parent die handler link pc addr d).wf = true := by
  have hl (ls : List Launch) : ({ s with launches := ls } : State).wf = true := h
  unfold acceptLaunch
  simp only
  generalize hs : ({ s with launches := _ } : State) = s1
  have h1 : s1.wf = true := hs ▸ hl _
  clear hs
  split
  · simp [h1]
  · split
    · exact h1
    · split <;> simp [h1]

theorem wfOut_execDependenceMet (num : Nat) (s : State) (h : s.wf = true) : WfOut (execDependenceMet num s) := by
  unfold execDependenceMet
  (repeat' split) <;> simp [h]

@[simp] theorem wf_launchLazyDue (s : State) (num : Nat) : (launchLazyDue s num).wf = s.wf := KeepsMem.wf_eq ⟨rfl, rfl⟩

theorem wfOut_execWeightReturn (fid : Nat) (s : State) (h : s.wf = true) : WfOut (execWeightReturn fid s) := by
  refine wfOut_onFlight h fun f => ?_
  (repeat' split) <;> simp [h]

@[simp] theorem wf_dieWrite (s : State) (asid va : Nat) (bs : List Byte) (h : s.wf = true) : (dieWrite s asid va bs).wf = true := by
  unfold dieWrite
  split
  · exact wf_foldl_of (fun _ _ ht => wf_memWrite ht _ _ _) _ h
  · exact h

@[simp] theorem wf_refill (s : State) (die asid node : Nat) : (refill s die asid node).wf = s.wf := by simp [refill]

@[simp] theorem wf_enqueue (s : State) (die : Nat) (n : Node) (r : Record) (h : s.wf = true) : (enqueue s die n r).wf = true := by
  simp [enqueue, h]

@[simp] theorem wf_sinkWrite (s : State) (die : Nat) (n : Node) (r : Record) (h : s.wf = true) : (sinkWrite s die n r).wf = true := by
  simp [sinkWrite, h]

@[simp] theorem wf_replaceRecord (s : State) (die reason : Nat) (r : Record) : (replaceRecord s die reason r).wf = s.wf := by simp [replaceRecord]
@[simp] theorem wf_noteArrival (s : State) (f : Flight) (die : Nat) (r : Record) : (noteArrival s f die r).wf = s.wf := KeepsMem.wf_eq ⟨rfl, rfl⟩

theorem wfOut_execRecordArrival (fid : Nat) (s : State) (h : s.wf = true) : WfOut (execRecordArrival fid s) := by
  refine wfOut_onFlight h fun f => ?_
  (repeat' split) <;> simp [h]

theorem wfOut_execBatchArrival (fid : Nat) (s : State) (h : s.wf = true) : WfOut (execBatchArrival fid s) := by
  refine wfOut_onFlight h fun f => ?_
  (repeat' split) <;> simp [h]

/-! ### Tasks -/

@[simp] theorem wf_noteDispatch (s : State) (die num : Nat) : (noteDispatch s die num).wf = s.wf := KeepsMem.wf_eq ⟨rfl, rfl⟩

@[simp] theorem wf_startTask (s : State) (die num : Nat) (n : Node) (r : Record) (p : Spot) : (startTask s die num n r p).wf = s.wf := by
  unfold startTask
  split <;> simp

@[simp] theorem wf_startRange (s : State) (die num shareDie : Nat) (n : Node) (p : Spot) : (startRange s die num shareDie n p).wf = s.wf := by
  unfold startRange
  (repeat' split) <;> simp

@[simp] theorem wf_startPers (s : State) (num : Nat) (n : Node) (shares : List Share) : (startPers s num n shares).wf = s.wf := by
  unfold startPers
  exact wf_foldl _ (fun st a => wf_foldl _ (fun st a => by split <;> simp) _ _) _ _

@[simp] theorem wf_startPq (s : State) (num die quad : Nat) (n : Node) (tasks : List Nat) : (startPq s num die quad n tasks).wf = s.wf := by
  unfold startPq
  exact wf_foldl _ (fun st a => by split <;> simp) _ _

@[simp] theorem wf_placeNext (s : State) (die : Nat) (l : Launch) : (placeNext s die l).wf = s.wf := by
  unfold placeNext
  (repeat' split) <;> simp

@[simp] theorem wf_idleDeficits (s : State) : (idleDeficits s).wf = s.wf := KeepsMem.wf_eq ⟨rfl, rfl⟩

theorem wfOut_execDispatch (die : Nat) (s : State) (h : s.wf = true) : WfOut (execDispatch die s) := by
  unfold execDispatch
  simp only
  (repeat' split) <;> simp [h]

@[simp] theorem wfOut_sendBody (k : Send) (o : Ops) (s : State) (w : Wave) (h : s.wf = true) : WfOut (sendBody k o s w) := by
  unfold sendBody
  simp only
  (repeat' split) <;> simp +contextual [h]

theorem wfOut_execSpawn (o : Ops) (s : State) (h : s.wf = true) : WfOut (execSpawn o s) :=
  wfOut_runInstr h fun w ls => by simp [h]

theorem wfOut_execAmsg (o : Ops) (s : State) (h : s.wf = true) : WfOut (execAmsg o s) :=
  wfOut_runInstr h fun w ls => by simp [h]

theorem wfOut_execEnq (o : Ops) (s : State) (h : s.wf = true) : WfOut (execEnq o s) :=
  wfOut_runInstr h fun w ls => by simp [h]

theorem wfOut_execDeq (g : Guard) (d q : Nat) (b : Bool) (s : State) (h : s.wf = true) : WfOut (execDeq g d q b s) := by
  refine wfOut_runInstr h fun w ls => ?_
  (repeat' split) <;> simp [h]

theorem wfOut_execDeqTimeout (uid : Nat) (s : State) (h : s.wf = true) : WfOut (execDeqTimeout uid s) := by
  unfold execDeqTimeout
  (repeat' split) <;> simp [h]

@[simp] theorem wf_startChild (s : State) (w : Wave) (va : W64) (bs : List Byte) (h : s.wf = true) : (startChild s w va bs).1.wf = true := by
  simp [startChild, h]

theorem wfOut_execDlaunch (o : Ops) (s : State) (h : s.wf = true) : WfOut (execDlaunch o s) := by
  refine wfOut_runInstr h fun w ls => ?_
  simp only
  split
  · simp [h]
  · split
    · simp [h]
    · refine wfOut_afterRelease (by simp [h]) fun t ht => wfOut_withUnits ht fun u v hu => ?_
      split <;> simp [hu]

/-! ### The traversal unit -/

@[simp] theorem wf_unitChunk (s : State) (u : UnitCache) (die core asid va n : Nat) : (unitChunk s u die core asid va n).1.wf = s.wf :=
  (onlyCaches_unitChunk _ _ _ _ _ _ _).wf_eq

@[simp] theorem wf_unitBytes (s : State) (u : UnitCache) (who : Who) (va n : Nat) : (unitBytes s u who va n).1.wf = s.wf :=
  (onlyCaches_unitBytes _ _ _ _ _).wf_eq

@[simp] theorem wf_traceRay (s : State) (who : Who) (c : TraceCmd) (rs : List W32) : (traceRay s who c rs).1.wf = s.wf :=
  (onlyCaches_traceRay _ _ _ _).wf_eq

theorem wfOut_execTrace (o : Ops) (s : State) (h : s.wf = true) : WfOut (execTrace o s) := by
  refine wfOut_runInstr h fun w ls => ?_
  simp only
  (repeat' split) <;> simp [h]

theorem wfOut_execTget (o : Ops) (s : State) (h : s.wf = true) : WfOut (execTget o s) :=
  wfOut_runInstr h fun w ls => by simp [h]

@[simp] theorem wf_putSlot (s : State) (uid slot lane : Nat) : (putSlot s uid slot lane rec').wf = s.wf := KeepsMem.wf_eq ⟨rfl, rfl⟩
@[simp] theorem wf_settleTrace (s : State) (f : Flight) (c : TraceCmd) : (settleTrace s f c).wf = s.wf := by simp [settleTrace]

@[simp] theorem wfOut_sendRay (s : State) (f : Flight) (c : TraceCmd) (x : Nat × Nat × List W32) (h : s.wf = true) : WfOut (sendRay s f c x) := by
  unfold sendRay
  simp only
  split
  · simp [h]
  · split
    · simp [h]
    · next hx =>
      split at hx
      · cases hx; simp [h]
      · simp [wf_unitShare hx, h]

theorem wfOut_execRayCompletion (fid lane : Nat) (s : State) (h : s.wf = true) : WfOut (execRayCompletion fid lane s) := by
  refine wfOut_onFlight h fun f => ?_
  (repeat' split) <;> simp [h]

/-! ### The texture unit -/

@[simp] theorem wfOut_texBody (fn : TexFn) (align : Nat) (o : Ops) (coords grads : Nat) (s : State) (w : Wave) (ls : List Nat)
    (h : s.wf = true) : WfOut (texBody fn align o coords grads s w ls) := by
  unfold texBody
  simp only
  (repeat' split) <;> simp [h]

theorem wfOut_execHgf (o : Ops) (s : State) (h : s.wf = true) : WfOut (execHgf o s) :=
  wfOut_runInstr h fun w ls => by simp [h]

theorem wfOut_execHgs (o : Ops) (s : State) (h : s.wf = true) : WfOut (execHgs o s) :=
  wfOut_runInstr h fun w ls => by simp [h]

theorem wfOut_execTex (o : Ops) (s : State) (h : s.wf = true) : WfOut (execTex o s) :=
  wfOut_runInstr h fun w ls => by simp [h]

theorem wfOut_execTld (o : Ops) (s : State) (h : s.wf = true) : WfOut (execTld o s) :=
  wfOut_runInstr h fun w ls => by simp [h]

@[simp] theorem wf_texRead (who : Who) (got : List (Nat × List Byte)) (n va : Nat) (s : State) : (texRead who got n va s).1.wf = s.wf :=
  (onlyCaches_texRead _ _ _ _ _).wf_eq

@[simp] theorem wf_poisonTex (s : State) (f : Flight) (bad : List (Nat × Nat)) : (poisonTex s f bad).wf = s.wf := by
  unfold poisonTex
  simp only
  split <;> simp

@[simp] theorem wf_failTex (s : State) (f : Flight) (addr : Nat) : (failTex s f addr).wf = s.wf := by simp [failTex]
@[simp] theorem wf_writeTex (s : State) (f : Flight) (c : TexCmd) (r : TexRun) : (writeTex s f c r).wf = s.wf := by simp [writeTex]
@[simp] theorem wf_texDesc (s : State) (who : Who) (c : TexCmd) : (texDesc s who c).1.wf = s.wf := (onlyCaches_texDesc _ _ _).wf_eq
@[simp] theorem wf_texRun (s : State) (who : Who) (c : TexCmd) : (texRun s who c).1.wf = s.wf := (onlyCaches_texRun _ _ _).1.wf_eq

@[simp] theorem wf_aheadBytes (s : State) (who : Who) (va : Nat) : (aheadBytes s who va).1.wf = s.wf := by
  unfold aheadBytes
  (repeat' split) <;> simp

@[simp] theorem wf_readAhead (s : State) (f : Flight) (c : TexCmd) : (readAhead s f c).wf = s.wf := by
  unfold readAhead
  simp only
  (repeat' split) <;> simp

theorem wfOut_execTextureCompletion (fid : Nat) (s : State) (h : s.wf = true) : WfOut (execTextureCompletion fid s) := by
  refine wfOut_onFlight h fun f => ?_
  simp only
  (repeat' split) <;> simp [h]

@[simp] theorem wf_settleHgs (s : State) (cmd : Nat) : (settleHgs s cmd).wf = s.wf := by
  unfold settleHgs
  (repeat' split) <;> simp

@[simp] theorem wf_sendChunk (s : State) (f : Flight) (c : TexCmd) : (sendChunk s f c).wf = s.wf := by
  unfold sendChunk
  (repeat' split) <;> simp

theorem wfOut_execChunk (fid : Nat) (s : State) (h : s.wf = true) : WfOut (execChunk fid s) := by
  refine wfOut_onFlight h fun f => ?_
  simp only
  (repeat' split) <;> simp [h]

theorem wfOut_execHgsAdd (fid : Nat) (s : State) (h : s.wf = true) : WfOut (execHgsAdd fid s) := by
  refine wfOut_onFlight h fun f => ?_
  (repeat' split) <;> simp [h, wf_engineWrite]

/-! ### Contexts -/

@[simp] theorem wf_fillArea (s : State) (c : Ctx) (need serial : Nat) (h : s.wf = true) : (fillArea s c need serial).wf = true :=
  wf_hostWrite (wf_hostWrite (wf_hostWrite (wf_hostWrite h _ _) _ _) _ _) _ _

@[simp] theorem wf_toRing (s : State) (die : Nat) (q : NodeQ) (h : s.wf = true) : (toRing s die q).1.wf = true := by
  unfold toRing
  simp only
  split
  · exact h
  · exact wf_foldl_of (fun _ _ ht => wf_dieWrite _ _ _ _ ht) _ h

@[simp] theorem wf_dropQueues (s : State) (asid : Nat) : (dropQueues s asid).wf = s.wf := KeepsMem.wf_eq ⟨rfl, rfl⟩
@[simp] theorem wf_dropCached (s : State) (asid : Nat) : (dropCached s asid).wf = s.wf := KeepsMem.wf_eq ⟨rfl, rfl⟩
@[simp] theorem wf_cleanMaps (s : State) : (cleanMaps s).wf = s.wf := KeepsMem.wf_eq ⟨rfl, rfl⟩
@[simp] theorem wf_flushSamples (s : State) (asid : Nat) : (flushSamples s asid).wf = s.wf := by simp [flushSamples]
@[simp] theorem wf_dueLazy (s : State) (asid : Nat) : (dueLazy s asid).wf = s.wf := KeepsMem.wf_eq ⟨rfl, rfl⟩

@[simp] theorem wf_beginSwitch (s : State) (asid : Nat) : (beginSwitch s asid).wf = s.wf := by
  unfold beginSwitch
  refine (wf_foldl _ (fun st a => by split <;> simp) _ _).trans ?_
  simp

@[simp] theorem wf_queuesToRings (s : State) (asid : Nat) (h : s.wf = true) : (queuesToRings s asid).wf = true :=
  wf_foldl_of (fun st q ht => by simp [ht]) _ h

@[simp] theorem wf_endSwitch (s : State) (c : Ctx) (h : s.wf = true) : (endSwitch s c).wf = true := by simp [endSwitch, h]
@[simp] theorem wf_beginResume (s : State) (asid : Nat) (a : Archive) : (beginResume s asid a).wf = s.wf := by simp [beginResume]

@[simp] theorem wf_putStateWord (s : State) (c : Ctx) (n : Nat) (h : s.wf = true) : (putStateWord s c n).wf = true := by
  simp [putStateWord, h, wf_hostWrite]

@[simp] theorem wf_endResume (s : State) (c : Ctx) (h : s.wf = true) : (endResume s c).wf = true := by simp [endResume, h]

@[simp] theorem wf_settleFlight (s : State) (f : Flight) (h : s.wf = true) : (settleFlight s f).wf = true := by
  unfold settleFlight
  (repeat' split) <;> simp [h]

@[simp] theorem wf_settleWhole (s : State) (f : Flight) (h : s.wf = true) : (settleWhole s f).wf = true := by
  unfold settleWhole
  rw [wf_dropFlight]
  exact wf_foldl_of (fun st g ht => by simp [ht]) _ (by simp [h])

@[simp] theorem wf_applyLazy (s : State) (p : RelEnt → Bool) (h : s.wf = true) : (applyLazy s p).wf = true :=
  wf_foldl_of (fun _ _ ht => wf_homeWrite ht _ _ _ _ _) _ (by simpa using h)

@[simp] theorem wf_settleAfterLazy (asid : Nat) (s : State) (f : Flight) (h : s.wf = true) : (settleAfterLazy asid s f).wf = true := by
  simp [settleAfterLazy, h]

@[simp] theorem wf_resetContext (s : State) (asid : Nat) (h : s.wf = true) : (resetContext s asid).wf = true := by
  unfold resetContext
  extract_lets mine ids s1 s2 s3 s4 open_ s5 s6
  have h1 : s1.wf = true := wf_foldl_of (fun _ _ ht => by simp [ht]) _ h
  have h4 : s4.wf = true := by simpa [s4, s3] using wf_applyLazy s1 _ h1
  have h5 : s5.wf = true := wf_foldl_of (fun _ _ ht => by simp [ht]) _ h4
  have h6 : s6.wf = true := by simpa [s6] using h5
  clear_value s6
  split
  · split <;> exact h6
  · split <;> exact h6
  · split <;> exact h6
  · exact h6

/-! ### The host -/

@[simp] theorem wf_passCmd (s : State) (npay : Nat) : (passCmd s npay).wf = s.wf := KeepsMem.wf_eq ⟨rfl, rfl⟩
@[simp] theorem wf_endCmd (s : State) (npay : Nat) : (endCmd s npay).wf = s.wf := KeepsMem.wf_eq ⟨rfl, rfl⟩

@[simp] theorem wf_cmdEvent (s : State) (kind op : Nat) (rest : List Nat) (h : s.wf = true) : (cmdEvent s kind op rest).wf = true := by
  simp [cmdEvent, h, wf_postEvent]

@[simp] theorem wf_refuseCmd (s : State) (c : Cmd) (reason : Nat) (h : s.wf = true) : (refuseCmd s c reason).wf = true := by simp [refuseCmd, h]
@[simp] theorem wfOut_onCmd {s : State} {op npay z : Nat} {bad : Cmd → Bool} {c : Bool} {k : Cmd → State} (h : s.wf = true)
    (hk : ∀ c, (k c).wf = true) : WfOut (onCmd s op npay z bad c k) := by
  unfold onCmd
  simp [h, hk]

@[simp] theorem wfOut_execLaunch (s : State) (h : s.wf = true) : WfOut (execLaunch s) :=
  wfOut_onCmd h fun c => by simp [h]

@[simp] theorem wf_doneCmd (s : State) (op : Nat) (h : s.wf = true) : (doneCmd s op).wf = true := by simp [doneCmd, h]

theorem wf_withTables {s t : State} {c : Ctx} (h : withTables s c = some t) : t.wf = s.wf := by
  unfold withTables at h
  simp only at h
  split at h <;> cases h
  simp

@[simp] theorem wf_loadCtx (s : State) (c : Cmd) (x : Ctx) (h : s.wf = true) : (loadCtx s c x).wf = true := by
  unfold loadCtx
  simp only
  split
  · exact h
  · split
    · simp [h]
    · simp [h]
    · next ht => split <;> simp [wf_withTables ht, h]
    · next ht => simp [wf_withTables ht, h]

theorem wfOut_execCtxload (s : State) (h : s.wf = true) : WfOut (execCtxload s) := by
  unfold execCtxload
  split
  · split <;> simp [h]
  · exact wfOut_onCmd h fun c => by split <;> simp [h]

theorem wfOut_execCtxsave (s : State) (h : s.wf = true) : WfOut (execCtxsave s) := by
  unfold execCtxsave
  split
  · (repeat' split) <;> simp [h]
  · exact wfOut_onCmd h fun c => by (repeat' split) <;> simp [h]

theorem wfOut_execCtxreset (s : State) (h : s.wf = true) : WfOut (execCtxreset s) :=
  wfOut_onCmd h fun c => by
    split
    · exact h
    · exact wf_doneCmd _ _ (wf_putStateWord _ _ _ (wf_resetContext _ _ h))

theorem wfOut_execNopCmd (s : State) (h : s.wf = true) : WfOut (execNopCmd s) :=
  wfOut_onCmd h fun c => by simp [wf_postEvent h]

theorem wfOut_execAttest (s : State) (h : s.wf = true) : WfOut (execAttest s) := by
  have hput (at_ : Nat) (bs : List Byte) (rs : Regs) : ({ s with hostMem := memPut s.hostMem at_ bs, regs := rs } : State).wf = true := by
    simp only [State.wf, Bool.and_eq_true] at h ⊢
    exact ⟨h.1, wf_memPut h.2 _ _⟩
  refine wfOut_onCmd h fun c => ?_
  simp only
  split
  · simp [h]
  · split
    · simp [wf_postEvent h]
    · split
      · simp [wf_postEvent h]
      · rw [wf_endCmd]
        exact wf_postEvent (hput _ _ _) _ _

@[simp] theorem wfOut_dmaWrite (pa : Nat) (bytes : List Byte) (s : State) (h : s.wf = true) : WfOut (dmaWrite pa bytes s) := by
  simp [dmaWrite, h, wf_hostWrite]

/-! ### Links, ticks, errors and power -/

@[simp] theorem wf_lateError (s : State) (f : Flight) : (lateError s f).wf = s.wf := by
  unfold lateError
  (repeat' split) <;> simp

@[simp] theorem wf_lateLazy (s : State) (fid : Nat) : (lateLazy s fid).wf = s.wf := by
  unfold lateLazy
  split <;> simp

theorem wfOut_execLateError (fid : Nat) (s : State) (h : s.wf = true) : WfOut (execLateError fid s) := by
  unfold execLateError
  split
  · exact wfOut_onFlight h fun f => by simp [h]
  · simp [h]

@[simp] theorem wf_lostLoad (s : State) (f : Flight) (as : List Acc) (acq : Option Sys2Proof.Scope) : (lostLoad s f as acq).wf = s.wf := by
  unfold lostLoad
  (repeat' split) <;> simp

@[simp] theorem wf_unwritten (old t : State) (uid : Nat) : (unwritten old t uid).wf = t.wf := by
  unfold unwritten
  split <;> simp

@[simp] theorem wf_lostAtom (s : State) (f : Flight) (dst : Option LoadDst) (op : Nat) (t : Ty) (xs : List (Acc × Nat × Nat))
    (sc : Sys2Proof.Scope) (ord : Sys2Proof.Ord) (h : s.wf = true) : (lostAtom s f dst op t xs sc ord).wf = true := by
  unfold lostAtom
  (repeat' split) <;> simp [h]

@[simp] theorem wf_lostCells (s : State) (f : Flight) (uid reg : Nat) (nr : Bool) (cells : List (Nat × CellRef)) (shares : List (Nat × Nat))
    (h : s.wf = true) : (lostCells s f uid reg nr cells shares).wf = true := by
  simp [lostCells, h]

@[simp] theorem wf_lostDrain (s : State) (f : Flight) (m : MatCmd) (add : Bool) (addr : W64) (stride : Option Int) :
    (lostDrain s f m add addr stride).wf = s.wf := by
  unfold lostDrain
  split <;> simp

@[simp] theorem wf_lostTexel (s : State) (f : Flight) (c : TexCmd) : (lostTexel s f c).wf = s.wf := by
  unfold lostTexel
  simp only
  (repeat' split) <;> simp

@[simp] theorem wf_lostRay (s : State) (f : Flight) (c : TraceCmd) : (lostRay s f c).wf = s.wf := by
  unfold lostRay
  split <;> simp

@[simp] theorem wf_lostPacket (s : State) (f : Flight) (h : s.wf = true) : (lostPacket s f).wf = true := by
  unfold lostPacket
  (repeat' split) <;> simp [h]

@[simp] theorem wf_putStation (s : State) (st : Nat) (x : Station) : (putStation s st x).wf = s.wf := KeepsMem.wf_eq ⟨rfl, rfl⟩

theorem wfOut_execLinkDown (link : Nat) (s : State) (h : s.wf = true) : WfOut (execLinkDown link s) := by
  unfold execLinkDown
  (repeat' split) <;> simp +contextual [h]

theorem wfOut_execTickExchangeStalled (pkg : Nat) (s : State) (h : s.wf = true) : WfOut (execTickExchangeStalled pkg s) := by
  unfold execTickExchangeStalled
  split
  · split
    · simp [h]
    · exact (wfOut_next _).2 (wf_postEvent (wf_foldl_of (fun _ _ ht => wf_resetContext _ _ ht) _ (by simp [h])) _ _)
  · simp [h]

@[simp] theorem wf_dropSite (s : State) (p : CtlSite) : (dropSite s p).wf = s.wf := by
  unfold dropSite
  (repeat' split) <;> simp

theorem wfOut_execControlPacketDropped (die unit num : Nat) (ps : List CtlSite) (s : State) (h : s.wf = true) :
    WfOut (execControlPacketDropped die unit num ps s) := by
  unfold execControlPacketDropped
  simp only
  split
  · simp [h]
  · refine (wfOut_next _).2 (wf_foldl_of (fun _ _ ht => wf_resetContext _ _ ht) _ (wf_postEvent ?_ _ _))
    rw [wf_foldl _ (fun _ _ => by simp)]
    exact h

@[simp] theorem wf_retireUnit (s : State) (u : Unit3) (h : s.wf = true) : (retireUnit s u).wf = true := by
  unfold retireUnit
  split
  · simp only
    split
    · exact wf_postEvent h _ _
    · refine wf_swapSpare _ _ _ ?_
      rw [wf_foldl _ (fun _ _ => by split <;> simp)]
      simp [h]
  · split
    · exact wf_postEvent (by simp [h]) _ _
    · exact h
  · split <;> simp [h]

theorem wfOut_execCorrectedError (u : Unit3) (s : State) (h : s.wf = true) : WfOut (execCorrectedError u s) := by
  unfold execCorrectedError
  (repeat' split) <;> simp [h]

@[simp] theorem wf_spoilCopy (s : State) (k : CopyKind) (die core pa : Nat) : (spoilCopy s k die core pa).wf = s.wf := by
  unfold spoilCopy
  split <;> simp

theorem wfOut_execUncorrectableError (e : ErrSite) (s : State) (h : s.wf = true) : WfOut (execUncorrectableError e s) := by
  unfold execUncorrectableError
  split
  · split <;> simp [h]
  · split <;> simp [h]
  · simp [h]
  · simp [h]
  · exact wfOut_onFlight h fun f => by simp [h]
  · simp [h]

@[simp] theorem wf_setIsland (s : State) (i n : Nat) : (setIsland s i n).wf = s.wf := KeepsMem.wf_eq ⟨rfl, rfl⟩

theorem wfOut_execPowerCap (exceeded : Bool) (powers : List Nat) (s : State) (h : s.wf = true) : WfOut (execPowerCap exceeded powers s) := by
  unfold execPowerCap
  (repeat' split) <;> simp [h]

/-! ### What follows a step -/

@[simp] theorem wf_noteHome (t : State) (old : Wave) (i : Instr) : (noteHome t old i).wf = t.wf := by simp [noteHome]
@[simp] theorem wf_noteCode (i : Instr) : (noteCode i s t).wf = t.wf := KeepsMem.wf_eq ⟨rfl, rfl⟩
@[simp] theorem wf_touchStations (i : Instr) : (touchStations i s t).wf = t.wf := by simp [touchStations]
@[simp] theorem wf_swapSpares (s : State) (h : s.wf = true) : (swapSpares s).wf = true :=
  wf_foldl_of (fun st c ht => by simp [ht]) _ h

@[simp] theorem wf_settleAllTrains (s : State) : (settleAllTrains s).wf = s.wf := by simp [settleAllTrains]

@[simp] theorem wf_noteAll (i : Instr) (s t : State) (h : t.wf = true) : (noteAll i s t).wf = true := by
  unfold noteAll
  refine wf_swapSpares _ ?_
  simp only [wf_touchStations, wf_noteCode, wf_settleAllTrains]
  split
  · split
    · rw [wf_noteHome]; exact h
    · exact h
  · exact h

@[simp] theorem wf_fetchFill (s : State) (w : Wave) (n : Nat) : (fetchFill s w n).wf = s.wf := by simp [fetchFill]

@[simp] theorem wf_endIssue (s u : State) : (endIssue s u).wf = u.wf := by
  unfold endIssue
  (repeat' split) <;> simp

@[simp] theorem wf_advance (s : State) : (advance s).wf = s.wf := KeepsMem.wf_eq ⟨rfl, rfl⟩

/-! ### Who moves next -/

@[simp] theorem wf_spendYields (s : State) (die core slot : Nat) (chosen : Option Nat) : (spendYields s die core slot chosen).wf = s.wf :=
  KeepsMem.wf_eq ⟨rfl, rfl⟩

@[simp] theorem wf_choose (s : State) (n : Turn) : (choose s n).wf = s.wf := by
  unfold choose
  (repeat' split) <;> simp

@[simp] theorem wf_served  : (served s t).wf = t.wf := by
  unfold served
  (repeat' split) <;> simp

@[simp] theorem wf_goNext (s : State) : (goNext s).wf = s.wf := by
  unfold goNext
  simp only
  split <;> simp

@[simp] theorem wf_goOnly  : (goOnly s t).wf = t.wf := by
  unfold goOnly
  split <;> simp

theorem wf_goAfter (i : Instr) (s t u : State) (h : u.wf = true) : (goAfter i s t u).wf = true := by
  have hv : (noteAll i s (endIssue s (if retries t i then { u with inputs := i :: u.inputs } else u))).wf = true :=
    wf_noteAll _ _ _ (by simp [h])
  unfold goAfter
  simp only
  generalize noteAll i s _ = v at hv
  split
  · split <;> simp [hv]
  · rw [wf_goNext]
    split <;> simp [hv]

/-! ### Every instruction and event -/

/-- Whatever an instruction or event does, it keeps the canonical form. -/
theorem wfOut_exec (i : Instr) {s : State} (h : s.wf = true) : WfOut (exec i s) := by
  cases i with
  | iadd o => exact wfOut_aluRun h
  | isub o => exact wfOut_aluRun h
  | imul o => exact wfOut_aluRun h
  | imulh o => exact wfOut_aluRun h
  | iand o => exact wfOut_aluRun h
  | ior o => exact wfOut_aluRun h
  | ixor o => exact wfOut_aluRun h
  | ishl o => exact wfOut_aluRun h
  | ishr o => exact wfOut_aluRun h
  | isra o => exact wfOut_aluRun h
  | imin o => exact wfOut_aluRun h
  | imax o => exact wfOut_aluRun h
  | inot o => exact wfOut_aluRun h
  | iabs o => exact wfOut_aluRun h
  | ipopc o => exact wfOut_aluRun h
  | iclz o => exact wfOut_aluRun h
  | fadd o => exact wfOut_flt2 h
  | fsub o => exact wfOut_flt2 h
  | fmul o => exact wfOut_flt2 h
  | fmin o => exact wfOut_fltRun h
  | fmax o => exact wfOut_fltRun h
  | fdiv o => exact wfOut_flt2 h
  | fsqrt o => exact wfOut_flt1 h
  | frcp o => exact wfOut_fltRun h
  | frsq o => exact wfOut_fltRun h
  | fexp2 o => exact wfOut_flt1 h
  | flog2 o => exact wfOut_flt1 h
  | fsin o => exact wfOut_fltRun h
  | fcos o => exact wfOut_fltRun h
  | fclass o => exact wfOut_fltRun h
  | frnd o => exact wfOut_fltRun h
  | hadd2 o => exact wfOut_fltRun h
  | hmul2 o => exact wfOut_fltRun h
  | mov o => exact wfOut_aluRun h
  | movi o => exact wfOut_aluRun h
  | bcast o => exact wfOut_aluRun h
  | gets o => exact wfOut_execGets o s h
  | sets o => exact wfOut_execSets o s h
  | rng o => exact wfOut_aluRun h
  | ld o => exact wfOut_execLd o s h
  | st o => exact wfOut_execSt o s h
  | ldu o => exact wfOut_execLdu o s h
  | stu o => exact wfOut_execStu o s h
  | lds o => exact wfOut_execLds o s h
  | sts o => exact wfOut_execSts o s h
  | ldp o => exact wfOut_execLdp o s h
  | stp o => exact wfOut_execStp o s h
  | pf o => exact wfOut_execPf o s h
  | br g n q off => exact wfOut_execBr g n q off s h
  | brv g n k off => exact wfOut_execBrv g n k off s h
  | jmp g off => exact wfOut_execJmp g off s h
  | bri g vec a b => exact wfOut_execBri g vec a b s h
  | call g off => exact wfOut_execCall g off s h
  | ret g => exact wfOut_execRet g s h
  | loop g imm n off => exact wfOut_execLoop g imm n off s h
  | regang g => exact wfOut_execRegang g s h
  | yield g => exact wfOut_execYield g s h
  | exit g => exact wfOut_execExit g s h
  | nop g => exact wfOut_execNop g s h
  | fsync g => exact wfOut_execFsync g s h
  | wait g ld st cp mx tx => exact wfOut_execWait g ld st cp mx tx s h
  | fence g sc ord => exact wfOut_execFence g sc ord s h
  | done g => exact wfOut_execDone g s h
  | deq g d q w => exact wfOut_execDeq g d q w s h
  | icmp o => exact wfOut_predRun h
  | isel o => exact wfOut_aluRun h
  | imad o => exact wfOut_aluRun h
  | ibfx o => exact wfOut_aluRun h
  | ibfi o => exact wfOut_aluRun h
  | ffma o => exact wfOut_flt3 h
  | fcmp o => exact wfOut_predRun h
  | hfma2 o => exact wfOut_fltRun h
  | cvt o => exact wfOut_fltRun h
  | pack o => exact wfOut_fltRun h
  | unpack o => exact wfOut_fltRun h
  | shfl o => exact wfOut_execShfl o s h
  | vote o => exact wfOut_execVote o s h
  | gred o => exact wfOut_execGred o s h
  | gscan o => exact wfOut_execGscan o s h
  | atom o => exact wfOut_execAtom o s h
  | red o => exact wfOut_execRed o s h
  | barInit o => exact wfOut_execBarInit o s h
  | barArr o => exact wfOut_execBarArr o s h
  | barExp o => exact wfOut_execBarExp o s h
  | barWait o => exact wfOut_execBarWait o s h
  | estAdd o => exact wfOut_execEstAdd o s h
  | estMrg o => exact wfOut_execEstMrg o s h
  | estLd o => exact wfOut_execEstLd o s h
  | estClr o => exact wfOut_execEstClr o s h
  | trap o => exact wfOut_execTrap o s h
  | xret o => exact wfOut_execXret o s h
  | xclr o => exact wfOut_execXclr o s h
  | cfgr o => exact wfOut_execCfgr o s h
  | cfgw o => exact wfOut_execCfgw o s h
  | live o => exact wfOut_execLive o s h
  | tlbi o => exact wfOut_execTlbi o s h
  | spawn o => exact wfOut_execSpawn o s h
  | amsg o => exact wfOut_execAmsg o s h
  | enq o => exact wfOut_execEnq o s h
  | dlaunch o => exact wfOut_execDlaunch o s h
  | trace o => exact wfOut_execTrace o s h
  | tget o => exact wfOut_execTget o s h
  | hgf o => exact wfOut_execHgf o s h
  | hgs o => exact wfOut_execHgs o s h
  | tex o => exact wfOut_execTex o s h
  | tld o => exact wfOut_execTld o s h
  | fcall g off live rc rva rvb => exact wfOut_execFcall g off live rc rva rvb s h
  | tdefBytes o => exact wfOut_execTdefBytes o s h
  | tdefPlane o => exact wfOut_execTdefPlane o s h
  | tset o => exact wfOut_execTset o s h
  | tq o => exact wfOut_execTq o s h
  | cpyLd o => exact wfOut_execCpyLd o s h
  | cpySt o => exact wfOut_execCpySt o s h
  | cpyGth o => exact wfOut_execCpyGth o s h
  | cpyWs o => exact wfOut_execCpyWs o s h
  | cpyFill o => exact wfOut_execCpyFill o s h
  | glTopk o => exact wfOut_execGlTopk o s h
  | glSmax o => exact wfOut_execGlSmax o s h
  | glSamp o => exact wfOut_execGlSamp o s h
  | mlease o => exact wfOut_execMlease o s h
  | mrel o => exact wfOut_execMrel o s h
  | mmo o => exact wfOut_execMmo o s h
  | mclr o => exact wfOut_execMclr o s h
  | mdrain o => exact wfOut_execMdrain o s h
  | estAdv o => exact wfOut_execEstAdv o s h
  | estClose o => exact wfOut_execEstClose o s h
  | regangRelease uid => exact wfOut_execRegangRelease uid s h
  | gangDemotion uid => exact wfOut_execGangDemotion uid s h
  | partSwap uid slice => exact wfOut_execPartSwap uid slice s h
  | starvedWaveChoice uid => exact wfOut_execStarvedWaveChoice uid s h
  | forkResolution uid => exact wfOut_execForkResolution uid s h
  | delivery uid => exact wfOut_execDelivery uid s h
  | preemptionRequest uid => exact wfOut_execPreemptionRequest uid s h
  | preemptionTimeout uid => exact wfOut_execPreemptionTimeout uid s h
  | save uid => exact wfOut_execSave uid s h
  | restore uid => exact wfOut_execRestore uid s h
  | carveChange die core => exact wfOut_execCarveChange die core s h
  | deqTimeout uid => exact wfOut_execDeqTimeout uid s h
  | loadCompletion fid => exact wfOut_execLoadCompletion fid s h
  | storeCompletion fid => exact wfOut_execStoreCompletion fid s h
  | lazyWriteBack die core => exact wfOut_execLazyWriteBack die core s h
  | lateError fid => exact wfOut_execLateError fid s h
  | barrierOperation fid => exact wfOut_execBarrierOperation fid s h
  | hostAtomic op pa size x y => simp [exec, execHostAtomic, h, wf_hostWrite]
  | hostDmaWeightWrite pa bytes => simp [exec, execHostDmaWeightWrite, h]
  | refreshWindow die bank => simp [exec, execRefreshWindow, h]
  | copyCommandStart fid => exact wfOut_execCopyCommandStart fid s h
  | copyPartCompletion fid part => exact wfOut_execCopyPartCompletion fid part s h
  | gleanCompletion fid => exact wfOut_execGleanCompletion fid s h
  | leaseGrant eng => exact wfOut_execLeaseGrant eng s h
  | matrixCommandStart fid => exact wfOut_execMatrixCommandStart fid s h
  | mmoCompletion fid => exact wfOut_execMmoCompletion fid s h
  | drainCompletion fid => exact wfOut_execDrainCompletion fid s h
  | addOnStore fid line => exact wfOut_execAddOnStore fid line s h
  | flush die core entry => exact wfOut_execFlush die core entry s h
  | merge fid => exact wfOut_execMerge fid s h
  | stage fid => exact wfOut_execStage fid s h
  | reseedRequest fid => exact wfOut_execReseedRequest fid s h
  | epochNotice fid => exact wfOut_execEpochNotice fid s h
  | fold fid => exact wfOut_execFold fid s h
  | rayCompletion fid lane => exact wfOut_execRayCompletion fid lane s h
  | textureCompletion fid => exact wfOut_execTextureCompletion fid s h
  | chunk fid => exact wfOut_execChunk fid s h
  | hgsAdd fid => exact wfOut_execHgsAdd fid s h
  | recordArrival fid => exact wfOut_execRecordArrival fid s h
  | dispatch die => exact wfOut_execDispatch die s h
  | batchArrival fid => exact wfOut_execBatchArrival fid s h
  | draw fid => exact wfOut_execDraw fid s h
  | weightReturn fid => exact wfOut_execWeightReturn fid s h
  | dependenceMet launch => exact wfOut_execDependenceMet launch s h
  | flock => simp [exec, execFlock, h]
  | notify v => simp [exec, execNotify, h]
  | evhead v => simp [exec, execEvhead, h]
  | go => simp [exec, execGo, h]
  | registerWrite off v => simp [exec, execRegisterWrite, h]
  | launch => exact wfOut_execLaunch s h
  | ctxload => exact wfOut_execCtxload s h
  | ctxsave => exact wfOut_execCtxsave s h
  | ctxreset => exact wfOut_execCtxreset s h
  | nopCmd => exact wfOut_execNopCmd s h
  | attest => exact wfOut_execAttest s h
  | commandRefetch => simp [exec, execCommandRefetch, h, wf_postEvent]
  | eventRingResume => simp [exec, execEventRingResume, h, wf_pumpEvents]
  | packageReset => simp [exec, execPackageReset, h]
  | tickBoundary => simp [exec, execTickBoundary, h]
  | markerArrival pkg tick => simp [exec, execMarkerArrival, h]
  | tickExchangeStalled pkg => exact wfOut_execTickExchangeStalled pkg s h
  | timeBaseOutOfBound off => simp [exec, execTimeBaseOutOfBound, h, wf_postEvent]
  | stationPowerDown st => simp [exec, execStationPowerDown, h]
  | wake st => simp [exec, execWake, h]
  | linkDown link => exact wfOut_execLinkDown link s h
  | controlPacketDropped die unit num ps => exact wfOut_execControlPacketDropped die unit num ps s h
  | correctedError u => exact wfOut_execCorrectedError u s h
  | errorWindow => simp [exec, execErrorWindow, h]
  | uncorrectableError e => exact wfOut_execUncorrectableError e s h
  | scrub die bank => simp [exec, execScrub, h]
  | frequencyChange island n => simp [exec, execFrequencyChange, h]
  | powerCap exceeded powers => exact wfOut_execPowerCap exceeded powers s h
  | thermalLimit island => simp [exec, execThermalLimit, h]
  | hostAccess pa len bytes => simp [exec, execHostAccess, h, wf_hostWrite]
  | rowCopy die bank row => simp [exec, execRowCopy, h, wf_postEvent]

/-- The state of a plan has the memories of the state it was made for. -/
def Plan.start : Plan → State
  | .only s => s
  | .run _ s => s

@[simp] theorem Plan.start_only (s : State) : (Plan.only s).start = s := rfl
@[simp] theorem Plan.start_run (i : Instr) (s : State) : (Plan.run i s).start = s := rfl

theorem wf_fetched (s : State) (w : Wave) (k : Instr → List Byte → Plan) (hk : ∀ i bs, (k i bs).start.wf = s.wf) : (fetched s w k).start.wf = s.wf := by
  unfold fetched
  (repeat' split) <;> simp [hk]

theorem wf_planWave (s : State) (w : Wave) : (planWave s w).start.wf = s.wf := by
  unfold planWave
  split
  · rfl
  · exact wf_fetched _ _ _ fun i bs => by (repeat' split) <;> simp

theorem wf_planSteer (s : State) (w : Wave) : (planSteer s w).start.wf = s.wf := by
  unfold planSteer
  split
  · rfl
  · exact wf_fetched _ _ _ fun i bs => by (repeat' split) <;> simp

theorem wf_planIssue (s : State) (w : Wave) : (planIssue s w).start.wf = s.wf := by
  unfold planIssue
  (repeat' split) <;> simp

theorem wf_plan (s : State) : (plan s).start.wf = s.wf := by
  unfold plan
  split
  · rfl
  · rfl
  · rfl
  · split
    · rfl
    · exact wf_planWave _ _
  · split
    · rfl
    · exact wf_planSteer _ _
  · split
    · rfl
    · exact wf_planIssue _ _

/-- Settles O60: the plan of a step starts from the memories as they are, what it runs keeps their form, and so does what follows it. -/
theorem stepsKeepMemoryForm : Obligations.StepsKeepMemoryForm := by
  unfold Obligations.StepsKeepMemoryForm
  intro s t h hs
  have hp : (plan s).start.wf = true := (wf_plan s).trans h
  unfold step at hs
  split at hs
  · next u hu =>
    cases hs
    rw [hu] at hp
    simpa using hp
  · next i u hu =>
    rw [hu] at hp
    split at hs
    · next v hv =>
      cases hs
      exact wf_goAfter _ _ _ _ (wfOut_exec i hp v hv)
    · cases hs
    · cases hs

end Sys2Proof.Machine
end

section
/-!
PROOFS. What a core reads through its L1, and `pf` (O12). First what a fill leaves in the L1; then where a read comes from; then the lanes of `pf`.
-/
namespace Sys2Proof.Machine

/-! ### What a fill leaves in the L1 (R176) -/

theorem lineSector_cons {l : Line} {ls : List Line} {pa : Nat} (h : l.line = lineOf pa) :
    lineSector (l :: ls) pa = (l.sectors.find? (fun x => x.1 == pa / 32 % 8)).map (fun x => x.2) := by
  simp [lineSector, h]

theorem find_stIns {k : Nat} {bs : List Byte} {m : Store (List Byte)} (h : ∀ e ∈ m, e.1 ≠ k) :
    (stIns k bs m).find? (fun x => x.1 == k) = some (k, bs) := by
  induction m with
  | nil => simp [stIns]
  | cons e r ih =>
    have he : (e.1 == k) = false := by simpa using h e (by simp)
    have hr := ih fun x hx => h x (by simp [hx])
    simp only [stIns]
    split
    · simp
    · simp [he, hr]

theorem find_stSet {k : Nat} {bs : List Byte} (hbs : bs ≠ []) (m : Store (List Byte)) :
    (stSet [] k bs m).find? (fun x => x.1 == k) = some (k, bs) := by
  rw [stSet, if_neg hbs]
  exact find_stIns (stDel_no_key k m)

/-- A line put into an L1 that has a way holds the sector from then on. -/
theorem lineSector_l1Put {ways : Nat} (hw : 0 < ways) (ls : List Line) (pa : Nat) {bs : List Byte} (hbs : bs ≠ []) :
    lineSector (l1Put ways ls pa bs).1 pa = some bs := by
  unfold l1Put
  simp only
  split
  · next l hl =>
    have hline : ({ l with sectors := stSet [] (pa / 32 % 8) bs l.sectors } : Line).line = lineOf pa := by simpa using List.find?_some hl
    exact (lineSector_cons hline).trans (congrArg (Option.map _) (find_stSet hbs _))
  · have hnew (rest : List Line) : lineSector ({ line := lineOf pa, asid := 0, sectors := [(pa / 32 % 8, bs)], bad := [] } :: rest) pa = some bs := by
      rw [lineSector_cons rfl]
      simp
    split
    · exact hnew _
    · next hset =>
      split
      · exact hnew _
      · next hlast =>
        rw [List.getLast?_eq_none_iff] at hlast
        rw [hlast] at hset
        exact absurd hw hset

theorem overlay_ne_nil (s : State) (die core pa : Nat) {bs : List Byte} (h : bs ≠ []) : overlay s die core pa bs ≠ [] := by
  simpa [overlay] using h

/-- What lies over the bytes of a read is the core's own: its releases and its stores in flight. -/
theorem overlay_congr {s t : State} {die core : Nat} (hc : coreAt t die core = coreAt s die core) (hf : t.flights = s.flights) (pa : Nat)
    (bs : List Byte) : overlay t die core pa bs = overlay s die core pa bs := by
  simp [overlay, ownByte, hc, hf]

theorem cores_l2Put (s : State) (q : Nat) (e : L2Ent) : (l2Put s q e).cores = s.cores := rfl

theorem cores_l2Access (s : State) (pg : Page) (wr : Bool) (pa n : Nat) : (l2Access s pg wr pa n).cores = s.cores :=
  (congrArg State.cores (onlyStored_l2Access s pg wr pa n) :)

theorem cores_touchReplica (s : State) (die core pa : Nat) : (touchReplica s die core pa).cores = s.cores := by
  unfold touchReplica
  split <;> rfl

theorem cores_makeReplica (s : State) (die core : Nat) (l : Line) : (makeReplica s die core l).cores = s.cores := by
  unfold makeReplica
  simp only
  split <;> rfl

theorem coreAt_of_cores {s t : State} (h : t.cores = s.cores) (die core : Nat) : coreAt t die core = coreAt s die core := by
  simp [coreAt, h]

theorem stGet_map_same {α : Type} (d : α) (k : Nat) (f : Nat × α → Nat × α) (hkey : ∀ e, (f e).1 = e.1) (hsame : ∀ e, e.1 = k → f e = e) (m : Store α) :
    stGet d k (m.map f) = stGet d k m := by
  induction m with
  | nil => rfl
  | cons e r ih =>
    obtain ⟨a, x⟩ := e
    by_cases h : a = k
    · rw [List.map_cons, hsame _ h]
      simp [stGet, h]
    · have hf : f (a, x) = (a, (f (a, x)).2) := Prod.ext (hkey (a, x)) rfl
      rw [List.map_cons, hf]
      simpa [stGet, Ne.symm h] using ih

/-- A core that marks the copies of its quad's other cores keeps its own (R181). -/
theorem coreAt_markOld (s : State) (die core line : Nat) (p : Nat → List Byte → Bool) :
    coreAt (markOld s die core line p) die core = coreAt s die core := by
  refine stGet_map_same _ _ _ (fun e => ?_) (fun e he => ?_) s.cores
  · split
    · split <;> rfl
    · rfl
  · simp [he]

theorem coreAt_homeSeen (s : State) (die core pa : Nat) : coreAt (homeSeen s die core pa) die core = coreAt s die core := by
  unfold homeSeen
  simp only
  split
  · exact coreAt_markOld _ _ _ _ _
  · exact coreAt_markOld _ _ _ _ _

/-- A fill leaves the sector in the core's L1, with the core's own bytes over it. -/
theorem lineSector_l1Fill {s t : State} {die core : Nat} (hc : coreAt t die core = coreAt s die core) (hf : t.flights = s.flights) (pa : Nat)
    {bs : List Byte} (hw : (coreAt s die core).spw < 8) (hbs : bs ≠ []) :
    lineSector (coreAt (l1Fill t die core pa bs) die core).l1 pa = some (overlay s die core (32 * (pa / 32)) bs) := by
  have hput := lineSector_l1Put (show 0 < 8 - (coreAt s die core).spw by omega) (coreAt s die core).l1 pa
    (overlay_ne_nil s die core (32 * (pa / 32)) hbs)
  unfold l1Fill
  simp only [hc, overlay_congr hc hf]
  split
  · rw [coreAt_of_cores (cores_makeReplica _ _ _ _), coreAt_putCore]
    exact hput
  · rw [coreAt_putCore]
    exact hput

/-! ### Where a read comes from (R176, R181) -/

section
variable (s : State) (die core pa n : Nat) (pg : Page)

theorem coreRead_l1 {bs : List Byte} (h : lineSector (coreAt s die core).l1 pa = some bs) :
    (coreRead s die core pg .cached pa n).2 = ((bs.drop (pa % 32)).take n, lineBad (coreAt s die core).l1 pa) ∧
      (coreRead s die core pg .cached pa n).1.quads = s.quads := by
  simp [coreRead, h, putCore]

theorem coreRead_badReplica {bs : List Byte} (hl : lineSector (coreAt s die core).l1 pa = none)
    (hr : repSector (quadAt s (quadOf die core)) pa = some bs) (hb : repBad (quadAt s (quadOf die core)) pa = true) :
    coreRead s die core pg .cached pa n = (touchReplica s die core pa, overlay s die core pa ((bs.drop (pa % 32)).take n), true) := by
  simp [coreRead, hl, hr, hb]

theorem coreRead_replica {bs : List Byte} (hl : lineSector (coreAt s die core).l1 pa = none)
    (hr : repSector (quadAt s (quadOf die core)) pa = some bs) (hb : repBad (quadAt s (quadOf die core)) pa = false) :
    coreRead s die core pg .cached pa n =
      (l1Fill (touchReplica s die core pa) die core pa bs, overlay s die core pa ((bs.drop (pa % 32)).take n), false) := by
  simp [coreRead, hl, hr, hb]

theorem coreRead_badHome (hl : lineSector (coreAt s die core).l1 pa = none) (hr : repSector (quadAt s (quadOf die core)) pa = none)
    (hb : pa / 32 ∈ s.poison) :
    coreRead s die core pg .cached pa n =
      (l2Access s pg false pa n, overlay s die core pa (((memBytes s.mem (32 * (pa / 32)) 32).drop (pa % 32)).take n), true) := by
  simp [coreRead, hl, hr, hb]

theorem coreRead_home (hl : lineSector (coreAt s die core).l1 pa = none) (hr : repSector (quadAt s (quadOf die core)) pa = none)
    (hb : pa / 32 ∉ s.poison) :
    coreRead s die core pg .cached pa n =
      (l1Fill (homeSeen (l2Access s pg false pa n) die core pa) die core pa (memBytes s.mem (32 * (pa / 32)) 32),
        overlay s die core pa (((memBytes s.mem (32 * (pa / 32)) 32).drop (pa % 32)).take n), false) := by
  simp [coreRead, hl, hr, hb]

end

/-! ### pf (R199) -/

/-- `t` is `s` but for cached translations and copies of memory. -/
def OnlyFetched (s t : State) : Prop := { t with tlb := s.tlb, cores := s.cores, quads := s.quads } = s

theorem OnlyFetched.refl (s : State) : OnlyFetched s s := rfl

theorem OnlyFetched.trans {a b c : State} (h : OnlyFetched a b) (g : OnlyFetched b c) : OnlyFetched a c := by
  unfold OnlyFetched at *
  rw [← h, ← g]

theorem OnlyFetched.waves {s t : State} (h : OnlyFetched s t) : t.waves = s.waves := (congrArg State.waves h :)
theorem OnlyFetched.mem {s t : State} (h : OnlyFetched s t) : t.mem = s.mem := (congrArg State.mem h :)

theorem OnlyCaches.fetched {s t : State} (h : OnlyCaches s t) : OnlyFetched s t := by
  unfold OnlyCaches OnlyFetched at *
  rw [← h]

theorem onlyFetched_tlbFill (s : State) (asid va : Nat) : OnlyFetched s (tlbFill s asid va) := by
  unfold tlbFill
  split <;> rfl

theorem onlyCaches_prefetchSectors (s : State) (die core line : Nat) (is : List Nat) :
    OnlyCaches s (is.foldl (fun st i =>
      if st.poison.contains ((line + 32 * i) / 32) || (lineSector (coreAt st die core).l1 (line + 32 * i)).isSome then st
      else l1Fill (homeSeen st die core (line + 32 * i)) die core (line + 32 * i) (memBytes st.mem (line + 32 * i) 32)) s) :=
  onlyCaches_foldl _ (fun st i => by
    split
    · exact .refl st
    · exact (onlyCaches_homeSeen _ _ _ _).trans (onlyCaches_l1Fill _ _ _ _ _)) is s

theorem onlyFetched_prefetchLane (s : State) (w : Wave) (o : Ops) (lane : Nat) : OnlyFetched s (prefetchLane s w o lane) := by
  unfold prefetchLane
  simp only
  split
  · exact .refl s
  · next pa pg _ =>
    have hline := (onlyFetched_tlbFill s w.asid (eaOf w o (o.x % 8) lane).toNat).trans (onlyCaches_l2Access _ pg false (256 * lineOf pa) 256).fetched
    split
    · exact .refl s
    · split
      · exact hline
      · exact hline.trans (onlyCaches_prefetchSectors _ _ _ _ _).fetched

theorem onlyFetched_prefetch (w : Wave) (o : Ops) (ls : List Nat) (s : State) :
    OnlyFetched s (ls.foldl (fun st l => prefetchLane st w o l) s) := by
  induction ls generalizing s with
  | nil => exact .refl s
  | cons l r ih => exact (onlyFetched_prefetchLane s w o l).trans (ih _)

theorem goOn_found {t : State} {w : Wave} (h : findWave t w.uid = some w) : goOn t w.uid = .next (putWave t (goSeq w)) := by
  simp [goOn, h]

/-- `pf` of lanes that no barrier stops waits for a bank in refresh, or fetches lane by lane. -/
theorem exec_pf {s : State} {w : Wave} {ls : List Nat} {o : Ops} (hi : Issues s (.pf o) w ls)
    (hb : w.fork = none ∨ ∀ l ∈ accLanes o ls, ∀ r, prefetchPage s w o l = some r → r.2.ptype ≠ .device ∧ r.2.ptype ≠ .weight) :
    exec (.pf o) s =
      if ∃ l ∈ accLanes o ls, prefetchWaits s w o l = true then .next s
      else goOn ((accLanes o ls).foldl (fun st l => prefetchLane st w o l) s) w.uid := by
  have hexec : exec (.pf o) s = execPf o s := rfl
  rw [hexec, execPf, runInstr_issues hi]
  refine (if_neg ?_).trans (by simp only [List.any_eq_true]; rfl)
  obtain hf | hp := hb
  · simp [hf]
  · simp only [Bool.and_eq_true, List.any_eq_true, not_and, not_exists]
    rintro - l hl
    split
    · next r hr => simpa using hp l hl r hr
    · simp

/-- Settles O12: of the read, the place it comes from decides what it answers and what the L1 holds then; `pf` fetches lane by lane. -/
theorem coreCaches : Obligations.CoreCaches := by
  unfold Obligations.CoreCaches
  refine ⟨?read, ?prefetch⟩
  case read =>
    intro s die core pa n pg r sector filled
    refine ⟨onlyCaches_coreRead s die core pg .cached pa n, fun bs h => coreRead_l1 s die core pa n pg h,
      fun hl => ⟨fun bs hr => ?replica, fun hr => ⟨fun hb => ?badHome, fun hb => ?home⟩⟩⟩
    case replica =>
      split
      · next hb =>
        simp only [r, coreRead_badReplica s die core pa n pg hl hr hb]
        exact ⟨trivial, cores_touchReplica _ _ _ _⟩
      · next hb =>
        simp only [filled, r, coreRead_replica s die core pa n pg hl hr (by simpa using hb)]
        exact ⟨trivial, fun hw hbs =>
          lineSector_l1Fill (coreAt_of_cores (cores_touchReplica _ _ _ _) _ _) (onlyCaches_touchReplica _ _ _ _).flights pa hw hbs⟩
    case badHome =>
      simp only [r, coreRead_badHome s die core pa n pg hl hr hb]
      exact ⟨trivial, cores_l2Access _ _ _ _ _⟩
    case home =>
      simp only [filled, r, coreRead_home s die core pa n pg hl hr hb]
      exact ⟨rfl, fun hw hbs => lineSector_l1Fill ((coreAt_homeSeen _ _ _ _).trans (coreAt_of_cores (cores_l2Access _ _ _ _ _) _ _))
        (onlyCaches_homeRead _ _ _ _ _ _).flights pa hw hbs⟩
  case prefetch =>
    intro s w ls o hi hb
    have hx := exec_pf hi hb
    split
    · next hwait => rw [hx, if_pos hwait]
    · next hwait =>
      have hf := onlyFetched_prefetch w o (accLanes o ls) s
      generalize (accLanes o ls).foldl (fun st l => prefetchLane st w o l) s = t at hf hx
      have hw : findWave t w.uid = some w := by
        rw [findWave, hf.waves]
        exact (curWave_found hi.1).2
      obtain ⟨hwaves, hfound, hothers, -⟩ := onlyWave_putWave hw (goSeq_uid w)
      refine ⟨putWave t (goSeq w), ?_, ?_, ⟨hfound, fun u hu => ?_⟩, fun a => ?_⟩
      · rw [hx, if_neg hwait, goOn_found hw]
      · exact (congrArg (fun x : State => { x with waves := s.waves }) hf)
      · rw [hothers u hu, findWave, findWave, hf.waves]
      · rw [putWave_mem, hf.mem]

end Sys2Proof.Machine
end

section
/-!
PROOFS. Accesses of the host (O17): one equation per range of R167, and what a write at the homes leaves.
-/
namespace Sys2Proof.Machine

/-! ### Without lazy releases nothing waits (R224) -/

theorem lazyHit_none {s : State} (h : NoReleases s) (pa n : Nat) (p : RelEnt → Bool) : lazyHit s pa n p = false := by
  simp only [lazyHit, List.any_eq_false]
  intro c hc
  simp [h c hc]

theorem afterLazy_none {s : State} (h : NoReleases s) (rs : List (Nat × Nat)) (p : RelEnt → Bool) (k : Out) : afterLazy s rs p k = k := by
  have hno : rs.any (fun r => lazyHit s r.1 r.2 p) = false := by simp [lazyHit_none h]
  rw [afterLazy, hno]
  rfl

/-! ### Ranges of R167 -/

section
variable {pa n : Nat}

theorem isMain_range (hn : 0 < n) (h : pa + n ≤ 2 ^ 40) : isMain pa = true ∧ isMain (pa + n - 1) = true ∧ isDevice pa = false := by
  simp only [isMain, isDevice, decide_eq_true_eq, decide_eq_false_iff_not]
  unfold mainTop devBase
  omega

theorem isWeight_range (hn : 0 < n) (hlo : 0x010000000000 ≤ pa) (hhi : pa + n ≤ 0x010200000000) :
    isWeight pa = true ∧ isWeight (pa + n - 1) = true ∧ isMain pa = false ∧ isDevice pa = false := by
  simp only [isWeight, isMain, isDevice, decide_eq_true_eq, decide_eq_false_iff_not]
  unfold wsTop mainTop wsBase devBase
  omega

theorem gap_range (hlo : 0x010200000000 ≤ pa) (hhi : pa < 0x0F0000000000) : isWeight pa = false ∧ isMain pa = false ∧ isDevice pa = false := by
  simp only [isWeight, isMain, isDevice, decide_eq_false_iff_not]
  unfold wsTop mainTop wsBase devBase
  omega

end

/-! ### Writes of the host (R179, R183, R212) -/

theorem onlyStored_hostWrite (s : State) (pa : Nat) (bs : List Byte) : OnlyStored s (hostWrite s pa bs) := onlyStored_memWrite _ _ _ _

theorem mem_hostWrite (s : State) (pa : Nat) (bs : List Byte) : (hostWrite s pa bs).mem = memPut s.mem pa bs := (hostWrite_mem s pa bs).1

/-- What holds a DMA write to the weight store outside: a wave on a die it lies on, or a bank away for refresh (R183, R184). -/
theorem dmaWrite_weight {pa : Nat} {bytes : List Byte} (hb : bytes ≠ []) (hlo : 0x010000000000 ≤ pa) (hhi : pa + bytes.length ≤ 0x010200000000)
    (s : State) :
    dmaWrite pa bytes s =
      if (linesOf pa bytes.length).any (fun l => s.waves.any (fun w => w.die == homeDie l) || inRefresh s.time (bankOf l)) then
        .next (if s.inputs.contains (.hostDmaWeightWrite pa bytes) then s else { s with inputs := s.inputs ++ [.hostDmaWeightWrite pa bytes] })
      else .next { hostWrite s pa bytes with inputs := s.inputs.filter (fun i => !(i == .hostDmaWeightWrite pa bytes)) } := by
  obtain ⟨hw, hw', -, -⟩ := isWeight_range (List.length_pos_iff.mpr hb) hlo hhi
  simp [dmaWrite, hw, hw']

section
variable {s : State} {pa : Nat} {bytes : List Byte} (hb : bytes ≠ []) (hlo : 0x010000000000 ≤ pa) (hhi : pa + bytes.length ≤ 0x010200000000)
include hb hlo hhi

theorem dmaWrite_free (hfree : ∀ l ∈ linesOf pa bytes.length, inRefresh s.time (bankOf l) = false ∧ ∀ w ∈ s.waves, w.die ≠ homeDie l) :
    dmaWrite pa bytes s = .next { hostWrite s pa bytes with inputs := s.inputs.filter (fun i => !(i == .hostDmaWeightWrite pa bytes)) } := by
  rw [dmaWrite_weight hb hlo hhi, if_neg]
  simp only [List.any_eq_true, Bool.or_eq_true, beq_iff_eq, not_exists, not_and, not_or, Bool.not_eq_true]
  exact fun l hl => ⟨(hfree l hl).2, (hfree l hl).1⟩

theorem dmaWrite_waits (hbusy : ∃ l ∈ linesOf pa bytes.length, inRefresh s.time (bankOf l) = true ∨ ∃ w ∈ s.waves, w.die = homeDie l) :
    ∃ t, dmaWrite pa bytes s = .next t ∧ { t with inputs := s.inputs } = s := by
  rw [dmaWrite_weight hb hlo hhi, if_pos]
  · split
    · exact ⟨s, rfl, rfl⟩
    · exact ⟨_, rfl, rfl⟩
  · obtain ⟨l, hl, h⟩ := hbusy
    simp only [List.any_eq_true, Bool.or_eq_true, beq_iff_eq]
    exact ⟨l, hl, h.symm⟩

/-- An access of the host to the weight store writes as the DMA does. -/
theorem exec_hostAccess_weight (len : Nat) : exec (.hostAccess pa len bytes) s = dmaWrite pa bytes s := by
  have hne : bytes.isEmpty = false := by simpa using hb
  have hn := List.length_pos_iff.mpr hb
  obtain ⟨hw, hw', hm, hd⟩ := isWeight_range hn hlo hhi
  have hexec : exec (.hostAccess pa len bytes) s = execHostAccess pa len bytes s := rfl
  simp [hexec, execHostAccess, hne, hw, hw', hm, hd, hb]

end

/-- A write to main memory is performed where no lazy release is on its way. -/
theorem exec_hostAccess_main {s : State} (hr : NoReleases s) {pa len : Nat} {bytes : List Byte} (hn : 0 < if bytes.isEmpty then len else bytes.length)
    (h : pa + (if bytes.isEmpty then len else bytes.length) ≤ 2 ^ 40) :
    exec (.hostAccess pa len bytes) s = .next (if bytes.isEmpty then s else hostWrite s pa bytes) := by
  obtain ⟨hm, hm', hd⟩ := isMain_range hn h
  have hexec : exec (.hostAccess pa len bytes) s = execHostAccess pa len bytes s := rfl
  simp only [hexec, execHostAccess, hm, hm', hd, afterLazy_none hr, if_neg (Nat.ne_of_gt hn), Bool.false_and, Bool.false_eq_true, if_false, Bool.and_self,
    if_true]
  split <;> rfl

/-- In device space a write is one to a register, and a read changes nothing (R397). -/
theorem exec_hostAccess_device {s : State} {pa len : Nat} {bytes : List Byte} (hd : isDevice pa = true)
    (hd' : isDevice (pa + (if bytes.isEmpty then len else bytes.length) - 1) = true) :
    exec (.hostAccess pa len bytes) s = .next (if bytes = [] then s else devWrite s pa bytes) := by
  have hexec : exec (.hostAccess pa len bytes) s = execHostAccess pa len bytes s := rfl
  by_cases hb : bytes = []
  · subst hb
    have hd2 : isDevice (pa + len - 1) = true := hd'
    simp [hexec, execHostAccess, hd, hd2]
  · have hne : bytes.isEmpty = false := by simpa using hb
    rw [hne] at hd'
    have hd2 : isDevice (pa + bytes.length - 1) = true := hd'
    simp [hexec, execHostAccess, hd, hd2, hb]

/-- The value that an AtomicOp of the host leaves (R201). -/
def hostAtomicNew (op : HostOp) (size old : Nat) (x y : W64) : Nat :=
  match op with
  | .fetchAdd => (old + x.toNat) % 2 ^ (8 * size)
  | .swap => x.toNat % 2 ^ (8 * size)
  | .cas => if old = x.toNat % 2 ^ (8 * size) then y.toNat % 2 ^ (8 * size) else old

theorem exec_hostAtomic {s : State} (hr : NoReleases s) {pa : Nat} (h : pa < 2 ^ 40) (hp : pa / 32 ∉ s.poison) (op : HostOp) (size : Nat) (x y : W64) :
    exec (.hostAtomic op pa size x y) s = .next (hostWrite s pa (leBytes size (hostAtomicNew op size (memNat s.mem pa size) x y))) := by
  have hm : isMain pa = true := decide_eq_true h
  have hexec : exec (.hostAtomic op pa size x y) s = execHostAtomic op pa size x y s := rfl
  simp only [hexec, execHostAtomic, hm, afterLazy_none hr]
  simp [hp]
  rfl

/-- Settles O17: each range of R167 has its own answer, and a write leaves its bytes, marks and lines of the slices changed. -/
theorem hostAccessesMemory : Obligations.HostAccessesMemory := by
  unfold Obligations.HostAccessesMemory
  intro s pa len bytes hr n puts caches
  refine ⟨fun hn h => ?main, fun hb hlo hhi hfree => ?free, fun hb hlo hhi hbusy => ?waits, fun hd hd' => ?device, fun hn hlo hhi => ?gap,
    fun op size x y h hp => ?atomic⟩
  case main =>
    refine ⟨_, exec_hostAccess_main hr hn h, ?_⟩
    by_cases hb : bytes = []
    · subst hb
      exact ⟨rfl, fun a => rfl, fun _ => rfl⟩
    · have hne : bytes.isEmpty = false := by simpa using hb
      simp only [hne, Bool.false_eq_true, if_false]
      exact ⟨onlyStored_hostWrite s pa bytes, fun a => by rw [mem_hostWrite], fun h => absurd h hb⟩
  case free =>
    have hne : n = bytes.length := by simp [n, hb]
    rw [hne] at hhi hfree
    rw [exec_hostAccess_weight hb hlo hhi]
    have hdma : exec (.hostDmaWeightWrite pa bytes) s = dmaWrite pa bytes s := rfl
    rw [hdma, dmaWrite_free hb hlo hhi hfree, and_self]
    exact ⟨_, rfl, congrArg (fun x : State => { x with inputs := s.inputs }) (onlyStored_hostWrite s pa bytes),
      fun a => by simp only [mem_hostWrite]⟩
  case waits =>
    have hne : n = bytes.length := by simp [n, hb]
    rw [hne] at hhi hbusy
    rw [exec_hostAccess_weight hb hlo hhi]
    exact ⟨dmaWrite_waits hb hlo hhi hbusy, dmaWrite_waits hb hlo hhi hbusy⟩
  case device => exact exec_hostAccess_device hd hd'
  case gap =>
    obtain ⟨hw, hm, hd⟩ := gap_range hlo hhi
    have hexec : exec (.hostAccess pa len bytes) s = execHostAccess pa len bytes s := rfl
    simp only [hexec, execHostAccess, hw, hm, hd, Bool.false_and, Bool.false_eq_true, if_false]
    exact if_neg (Nat.ne_of_gt hn)
  case atomic =>
    refine ⟨_, exec_hostAtomic hr h hp op size x y, onlyStored_hostWrite _ _ _, fun a => ?_⟩
    rw [mem_hostWrite]
    rfl

end Sys2Proof.Machine
end

section
/-!
PROOFS. `dlaunch` (O37): the release that it is does not wait, the child is accepted or refused under its number, and the wave gives half of its weight.
-/
namespace Sys2Proof.Machine

/-! ### A release that is ready is performed at once (R218, R220) -/

theorem afterRelease_ready {s : State} {w : Wave} {eager : Bool} (h : ReleaseReady s w eager) (k : State → Out) : afterRelease s w eager k = k s := by
  obtain ⟨⟨hecb, hmerges⟩, hquiet, hrelb⟩ := h
  have hflush : flushOwn s w = s := by
    rw [flushOwn, hecb]
    rfl
  have hdue : (if eager then dueAll (flushOwn s w) w.die w.core else flushOwn s w) = s := by
    cases eager with
    | false => simp [hflush]
    | true =>
      have hnone : (coreAt s w.die w.core).relb = [] := List.eq_nil_iff_forall_not_mem.mpr fun e he => by simpa using (hrelb e he).2
      simp [hflush, dueAll, hnone]
  have hall : (coreAt s w.die w.core).relb.all (fun e => e.recorded && !eager) = true := by simpa using hrelb
  simp only [afterRelease, hdue, hquiet, hmerges, hall]
  rfl

/-- A wave with more than one unit of weight needs no draw (R374). -/
theorem withUnits_enough {w : Wave} (h : w.weight ≠ 1) (s : State) (k : State → Wave → Out) : withUnits s w k = k s w := by
  simp [withUnits, h]

/-! ### The child among the launches (R360, R361) -/

theorem findLaunch_updLaunch (s : State) (k num : Nat) (f : Launch → Launch) (hf : ∀ l, (f l).num = l.num) :
    findLaunch (updLaunch s k f) num = (findLaunch s num).map (fun l => if l.num == k then f l else l) := by
  unfold findLaunch updLaunch
  induction s.launches with
  | nil => rfl
  | cons l r ih =>
    have hnum : (if l.num == k then f l else l).num = l.num := by split <;> simp [hf]
    rw [List.map_cons, List.find?_cons, hnum, List.find?_cons]
    split
    · rfl
    · exact ih

/-- The newest launch is never forgotten (R360). -/
theorem find_trimLaunches {ls : List Launch} {l : Launch} (h : ∀ x ∈ ls, x.num ≠ l.num) :
    (trimLaunches (ls ++ [l])).find? (fun x => x.num == l.num) = some l := by
  have hk : (ls ++ [l]).length - 65536 ≤ ls.length := by simp
  rw [trimLaunches, List.take_append_of_le_length hk, List.drop_append_of_le_length hk, List.find?_append, List.find?_append]
  have hold (q : Launch → Bool) (n : Nat) : ((ls.take n).filter q).find? (fun x => x.num == l.num) = none ∧
      (ls.drop n).find? (fun x => x.num == l.num) = none := by
    simp only [List.find?_eq_none, beq_iff_eq]
    exact ⟨fun x hx => h x (List.mem_of_mem_take (List.mem_of_mem_filter hx)), fun x hx => h x (List.mem_of_mem_drop hx)⟩
  rw [(hold _ _).1, (hold (fun _ => true) _).2]
  simp

theorem findLaunch_sendError {s : State} {num : Nat} {l : Launch} (h : findLaunch s num = some l) (die asid launch weight : Nat) (pay : List W32) :
    ∃ e, findLaunch (sendError s die asid launch weight pay) num = some { l with err := e } := by
  unfold sendError
  split
  · exact ⟨l.err, h⟩
  · have hupd := findLaunch_updLaunch s launch num (fun l => { l with err := true }) fun _ => rfl
    rw [h, Option.map_some] at hupd
    split at hupd
    · exact ⟨true, hupd⟩
    · exact ⟨l.err, hupd⟩

/-- What a launch was asked to be, whatever has become of it since. -/
structure Asked (l : Launch) (asid : Nat) (host : Bool) (parent die : Nat) (handler : W64) (link node : Nat) : Prop where
  asid : l.asid = asid
  host : l.host = host
  parent : l.parent = parent
  rootDie : l.rootDie = die
  handler : l.handler = handler
  link : l.link = link
  node : l.node = node

/-- `t` is `s` but for launches and operations in flight. -/
def OnlyLaunches (s t : State) : Prop := { t with launches := s.launches, flights := s.flights, nextFid := s.nextFid } = s

theorem OnlyLaunches.trans {a b c : State} (h : OnlyLaunches a b) (g : OnlyLaunches b c) : OnlyLaunches a c := by
  unfold OnlyLaunches at *
  rw [← h, ← g]

theorem OnlyLaunches.waves {s t : State} (h : OnlyLaunches s t) : t.waves = s.waves := (congrArg State.waves h :)
theorem OnlyLaunches.mem {s t : State} (h : OnlyLaunches s t) : t.mem = s.mem := (congrArg State.mem h :)
theorem OnlyLaunches.hostMem {s t : State} (h : OnlyLaunches s t) : t.hostMem = s.hostMem := (congrArg State.hostMem h :)

theorem onlyLaunches_updLaunch (s : State) (num : Nat) (f : Launch → Launch) : OnlyLaunches s (updLaunch s num f) := rfl

theorem onlyLaunches_addFlight (s : State) (who : Who) (cls : Option Cls) (act : Act) (rr : Option Nat) : OnlyLaunches s (addFlight s who cls act rr) := rfl

theorem onlyLaunches_sendError (s : State) (die asid launch weight : Nat) (pay : List W32) : OnlyLaunches s (sendError s die asid launch weight pay) := by
  unfold sendError
  split <;> rfl

theorem onlyLaunches_completeLaunch {s : State} {num : Nat} {l : Launch} (h : findLaunch s num = some l) (hh : l.host = false) :
    OnlyLaunches s (completeLaunch s num) := by
  simp only [completeLaunch, h, hh]
  exact (congrArg (fun x : State => { x with launches := s.launches }) (returnWeight_frame (putLaunch s _) _ _ _ _) :)

/-- What an acceptance does: the launch joins those of the package as it was asked for; then it is refused with a record, stays, completes, or is
to complete (R361). -/
theorem acceptLaunch_cases {s : State} {num : Nat} (h : findLaunch s num = none) (asid : Nat) (host : Bool) (parent die : Nat) (handler : W64)
    (link : Nat) (pc addr : W64) (d : LaunchDesc) :
    ∃ s1 l, OnlyLaunches s s1 ∧ findLaunch s1 num = some l ∧ Asked l asid host parent die handler link d.node ∧
      ((∃ pay, acceptLaunch s asid num host parent die handler link pc addr d =
        addFlight (sendError s1 die asid num 0 pay) (whoNone die asid num) none (.wreturn num 0) none) ∨
      acceptLaunch s asid num host parent die handler link pc addr d = s1 ∨
      acceptLaunch s asid num host parent die handler link pc addr d = completeLaunch s1 num ∨
      acceptLaunch s asid num host parent die handler link pc addr d = addFlight s1 (whoNone die asid num) none (.wreturn num 0) none) := by
  unfold acceptLaunch
  extract_lets refused shares l s1
  refine ⟨s1, l, rfl, find_trimLaunches (l := l) fun x hx => ?_, ⟨rfl, rfl, rfl, rfl, rfl, rfl, rfl⟩, ?_⟩
  · simpa using List.find?_eq_none.mp h x (List.mem_of_mem_filter hx)
  · obtain hr | ⟨r, hr⟩ := refused.eq_none_or_eq_some
    · simp only [hr]
      split
      · exact .inr (.inl rfl)
      · split
        · exact .inr (.inr (.inl rfl))
        · exact .inr (.inr (.inr rfl))
    · simp only [hr]
      exact .inl ⟨_, rfl⟩

/-- A launch of a device whose number is new stands among the launches as it was asked for, accepted or refused, and posts no event (R402). -/
theorem acceptLaunch_device {s : State} {num : Nat} (h : findLaunch s num = none) (asid : Nat) (parent die : Nat) (handler : W64)
    (link : Nat) (pc addr : W64) (d : LaunchDesc) :
    OnlyLaunches s (acceptLaunch s asid num false parent die handler link pc addr d) ∧
      ∃ l, findLaunch (acceptLaunch s asid num false parent die handler link pc addr d) num = some l ∧
        Asked l asid false parent die handler link d.node := by
  obtain ⟨s1, l, hs1, hfound, hasked, ⟨pay, he⟩ | he | he | he⟩ := acceptLaunch_cases h asid false parent die handler link pc addr d
  · obtain ⟨e, hl⟩ := findLaunch_sendError hfound die asid num 0 pay
    rw [he]
    exact ⟨(hs1.trans (onlyLaunches_sendError _ _ _ _ _ _)).trans (onlyLaunches_addFlight _ _ _ _ _), _, hl, { hasked with }⟩
  · rw [he]
    exact ⟨hs1, l, hfound, hasked⟩
  · rw [he]
    exact ⟨hs1.trans (onlyLaunches_completeLaunch hfound hasked.host), _, findLaunch_completeLaunch hfound, { hasked with }⟩
  · rw [he]
    exact ⟨hs1.trans (onlyLaunches_addFlight _ _ _ _ _), l, hfound, hasked⟩

/-! ### The instruction (R381) -/

/-- The wave that a `dlaunch` leaves: half of its weight is the child's link share, and the number stands in s[d] where it is asked for. -/
def launchWave (w : Wave) (o : Ops) (num : Nat) : Wave :=
  let w1 := { w with weight := w.weight - halfOf w.weight }
  if bitAt o.x 0 then wrS w1 o.d (BitVec.ofNat 64 num) else w1

theorem launchWave_frame {w : Wave} (hh : w.trap.h = false) (o : Ops) (num : Nat) :
    (launchWave w o num).weight = w.weight - w.weight / 2 ∧ { launchWave w o num with s := w.s, weight := w.weight } = w := by
  unfold launchWave halfOf
  simp only [wrS, hh, Bool.false_and, Bool.false_eq_true, if_false]
  split <;> exact ⟨rfl, rfl⟩

theorem rdS_launchWave (w : Wave) (o : Ops) (num m : Nat) :
    rdS (launchWave w o num) m = if o.x.testBit 0 = true ∧ m = o.d then BitVec.ofNat 64 num else rdS w m := by
  have hbit : bitAt o.x 0 = o.x.testBit 0 := bitAt_eq_testBit _ _
  unfold launchWave
  rw [hbit]
  cases o.x.testBit 0 with
  | true => exact (rdS_wrS { w with weight := w.weight - halfOf w.weight } o.d m (BitVec.ofNat 64 num)).trans (by simp [rdS])
  | false => simp [rdS]

/-- A `dlaunch` whose descriptor can be read starts the child and goes on. -/
theorem exec_dlaunch {s : State} {w : Wave} {ls : List Nat} {o : Ops} {bs : List Byte} {pa : Nat × Page} (hi : Issues s (.dlaunch o) w ls)
    (hc : checkMem s w.asid false .load (rdS w o.a).toNat 64 = .ok pa) (hr : ReleaseReady s w true) (hw : w.weight ≠ 1)
    (he : engRefresh s w.asid false [(rdS w o.a, 64)] = false)
    (hd : descBytes (tlbFill s w.asid (rdS w o.a).toNat) w (rdS w o.a) = some bs) :
    let c := startChild (tlbFill s w.asid (rdS w o.a).toNat) w (rdS w o.a) bs
    exec (.dlaunch o) s = finish c.1 (launchWave w o c.2) := by
  have hready : ReleaseReady (tlbFill s w.asid (rdS w o.a).toNat) w true := by
    unfold tlbFill
    split <;> exact hr
  have hexec : exec (.dlaunch o) s = execDlaunch o s := rfl
  simp only [hexec, execDlaunch, runInstr_issues hi, hc, he, Bool.false_eq_true, if_false, afterRelease_ready hready, withUnits_enough hw, hd]
  rfl

/-- Settles O37: the child is accepted under the next number of the tree, and the wave goes on with what it keeps. -/
theorem deviceLaunches : Obligations.DeviceLaunches := by
  unfold Obligations.DeviceLaunches
  intro s w ls o bs root parent pa hi hc hr hw he hd hroot hparent num hnum
  have hx := exec_dlaunch hi hc hr hw he hd
  have hfill := onlyFetched_tlbFill s w.asid (rdS w o.a).toNat
  generalize tlbFill s w.asid (rdS w o.a).toNat = f at hfill hx hd
  have hlaunches : f.launches = s.launches := (congrArg State.launches hfill :)
  have hfind (n : Nat) : findLaunch f n = findLaunch s n := by simp [findLaunch, hlaunches]
  have hupd : findLaunch (updLaunch f (treeNum w.launch) (fun l => { l with tree := nextTree root.tree })) num = none := by
    refine (findLaunch_updLaunch f _ num (fun l => { l with tree := nextTree root.tree }) fun _ => rfl).trans ?_
    rw [hfind, hnum]
    rfl
  have hstart : startChild f w (rdS w o.a) bs =
      (acceptLaunch (updLaunch f (treeNum w.launch) (fun l => { l with tree := nextTree root.tree })) w.asid num false w.launch w.die parent.handler
        (halfOf w.weight) (gpc w) (rdS w o.a) (launchDesc bs), num) := by
    simp only [startChild, hfind, hroot, hparent]
    rfl
  obtain ⟨honly, l, hl, hasked⟩ := acceptLaunch_device hupd w.asid w.launch w.die parent.handler (halfOf w.weight) (gpc w) (rdS w o.a) (launchDesc bs)
  replace honly := (onlyLaunches_updLaunch f _ _).trans honly
  rw [hstart] at hx
  generalize acceptLaunch _ _ _ _ _ _ _ _ _ _ _ = t at hl honly hx
  have hwaves : t.waves = s.waves := honly.waves.trans hfill.waves
  have hfound : findWave t w.uid = some w := by
    rw [findWave, hwaves]
    exact (curWave_found hi.1).2
  have hh : w.trap.h = false := by
    have hlegal := hi.2.1
    simp only [legal, handlerBars, Bool.and_true, Bool.and_eq_true, Bool.not_eq_true'] at hlegal
    exact hlegal.2
  obtain ⟨hweight, hframe⟩ := launchWave_frame hh o num
  have huid : (launchWave w o num).uid = w.uid := (congrArg Wave.uid hframe :)
  obtain ⟨-, hput, hothers, -⟩ := onlyWave_putWave hfound ((goSeq_uid (launchWave w o num)).trans huid)
  refine ⟨_, hx, fun a => ?_, ?_, ⟨launchWave w o num, ⟨hput, fun u hu => ?_⟩, hweight, hframe, fun m hm => ?_, fun hb => ?_⟩,
    l, hl, hasked.host, hasked.parent, hasked.link, hasked.handler, hasked.asid, hasked.rootDie, hasked.node.trans ?_⟩
  · rw [putWave_mem, honly.mem, hfill.mem]
  · exact honly.hostMem.trans (congrArg State.hostMem hfill :)
  · rw [hothers u hu, findWave, findWave, hwaves]
  · rw [rdS_launchWave, if_neg hm]
  · rw [rdS_launchWave, if_pos ⟨hb, rfl⟩]
  · simp [launchDesc, field]

end Sys2Proof.Machine
end

section
/-!
PROOFS. The statuses of rays (R319, R330), and which ray records are invalid.
-/
namespace Sys2Proof.Machine

/-! ### The classes of an FP32 pattern by its fields (R88) -/

/-- A pattern lies above the largest finite one exactly when its exponent field is all ones. -/
theorem maxPat_lt_fMag_f32 (a : Nat) : fmtF32.maxPat < fMag fmtF32 a ↔ expField .f32 a = 255 := by
  simp only [fMag, fmtF32, expField, mantBits, Ty.bits]
  omega

theorem fvOf_f32_finite {a : Nat} (h : expField .f32 a ≠ 255) : ∃ n m e, fvOf fmtF32 a = .fin n m e := by
  have hmag : ¬fmtF32.maxPat < fMag fmtF32 a := fun hm => h ((maxPat_lt_fMag_f32 a).1 hm)
  unfold fvOf
  simp only [if_neg hmag]
  split
  · exact ⟨_, _, _, rfl⟩
  · exact ⟨_, _, _, rfl⟩

theorem fvOf_f32_inf {a : Nat} (h : expField .f32 a = 255) (hm : mantField .f32 a = 0) : fvOf fmtF32 a = .inf (fNeg fmtF32 a) := by
  have hmag : fMag fmtF32 a = fmtF32.maxPat + 1 := by
    simp only [fMag, fmtF32, expField, mantField, mantBits, Ty.bits] at h hm ⊢
    omega
  unfold fvOf
  simp only [hmag]
  rfl

theorem fvOf_f32_nan {a : Nat} (h : expField .f32 a = 255) (hm : mantField .f32 a ≠ 0) : fvOf fmtF32 a = .nan := by
  have hinf : ¬(fmtF32.hasInf && fMag fmtF32 a == fmtF32.maxPat + 1) = true := by
    simp only [fMag, fmtF32, mantField, mantBits, Bool.true_and, beq_iff_eq] at hm ⊢
    omega
  unfold fvOf
  simp only [if_pos ((maxPat_lt_fMag_f32 a).2 h), if_neg hinf]

theorem f32IsFin_iff (a : Nat) : f32IsFin a = true ↔ expField .f32 a ≠ 255 := by
  rw [f32IsFin]
  by_cases h : expField .f32 a = 255
  · by_cases hm : mantField .f32 a = 0
    · simp [fvOf_f32_inf h hm, h]
    · simp [fvOf_f32_nan h hm, h]
  · obtain ⟨n, m, e, hv⟩ := fvOf_f32_finite h
    simp [hv, h]

/-- Of the patterns with an exponent of ones, the infinities are those with the mantissa 0. -/
theorem f32IsNan_iff (a : Nat) : f32IsNan a = true ↔ expField .f32 a = 255 ∧ mantField .f32 a ≠ 0 := by
  rw [f32IsNan]
  by_cases h : expField .f32 a = 255
  · by_cases hm : mantField .f32 a = 0
    · simp [fvOf_f32_inf h hm, FV.isNan, hm]
    · simp [fvOf_f32_nan h hm, FV.isNan, h, hm]
  · obtain ⟨n, m, e, hv⟩ := fvOf_f32_finite h
    simp [hv, FV.isNan, h]

theorem f32IsZero_iff (a : Nat) : f32IsZero a = true ↔ a % 2 ^ 31 = 0 := by
  simp [f32IsZero, fMag, fmtF32]

/-- R319: what makes the record of a ray invalid, by the fields of its words. -/
def RayBad (word : Nat → W32) : Prop :=
  let finite (x : W32) : Prop := expField .f32 x.toNat ≠ 255
  let nan (x : W32) : Prop := expField .f32 x.toNat = 255 ∧ mantField .f32 x.toNat ≠ 0
  let zero (x : W32) : Prop := x.toNat % 2 ^ 31 = 0
  ¬(finite (word 0) ∧ finite (word 1) ∧ finite (word 2)) ∨ nan (word 3) ∨ nan (word 4) ∨ nan (word 5) ∨
    (zero (word 3) ∧ zero (word 4) ∧ zero (word 5)) ∨ nan (word 6) ∨ nan (word 7) ∨ f32Lt (word 7).toNat (word 6).toNat = true ∨
    2048 ≤ (word 8).toNat ∨ (word 8).toNat / 512 % 4 = 3

theorem rayInvalid_rayOf (rs : List W32) : rayInvalid (rayOf rs) = true ↔ RayBad (fun i => rs.getD i 0) := by
  have hctl (n : Nat) : ¬n / 2 ^ 11 = 0 ↔ 2048 ≤ n := by omega
  have hdir (n : Nat) : field n 10 9 = n / 512 % 4 := rfl
  simp only [rayInvalid, rayOf, RayBad, Bool.or_eq_true, List.any_cons, List.any_nil, List.all_cons, List.all_nil, Bool.or_false, Bool.and_true,
    Bool.and_eq_true, Bool.not_eq_true', beq_iff_eq, hdir, hctl, Ne, f32IsNan_iff, f32IsZero_iff,
    ← Bool.not_eq_true, f32IsFin_iff, not_and_or, or_assoc]

/-! ### Statuses of a walk (R330) -/

/-- The statuses a ray with a valid record can end with, and the mark of one that waits. -/
def EndsOf (st : Nat) : Prop := 1 ≤ st ∧ st ≤ 7 ∧ st ≠ stInvalid

theorem endsOf_stFault : EndsOf stFault := by unfold EndsOf; decide
theorem endsOf_stMiss : EndsOf stMiss := by unfold EndsOf; decide
theorem endsOf_stHit : EndsOf stHit := by unfold EndsOf; decide

theorem endsOf_some {st : Nat} (h : EndsOf st) : ∀ x ∈ some st, EndsOf x := by
  rintro x ⟨⟩
  exact h

theorem endsOf_ite {c : Prop} [Decidable c] {x y : State × Walk × Option Nat} (hx : ∀ st ∈ x.2.2, EndsOf st) (hy : ∀ st ∈ y.2.2, EndsOf st) :
    ∀ st ∈ (if c then x else y).2.2, EndsOf st := by
  split
  · exact hx
  · exact hy

theorem endsOf_stOf (e : ReadErr) : EndsOf (stOf e) := by
  unfold EndsOf
  cases e with
  | fault va => exact (by decide : 1 ≤ stFault ∧ stFault ≤ 7 ∧ stFault ≠ stInvalid)
  | poison va => exact (by decide : 1 ≤ stPoison ∧ stPoison ≤ 7 ∧ stPoison ≠ stInvalid)
  | wait => exact (by decide : 1 ≤ stWait ∧ stWait ≤ 7 ∧ stWait ≠ stInvalid)

/-- Leaves leave the status open or give one of these. -/
theorem endsOf_walkLeaves (who : Who) (r : Ray) (stn : Option Nat) (n va : Nat) (s : State) (w : Walk) :
    ∀ st ∈ (walkLeaves who r stn n va s w).2.2, EndsOf st := by
  induction n generalizing va s w with
  | zero => exact fun st h => nomatch h
  | succ n ih =>
    unfold walkLeaves
    refine endsOf_ite ?_ ?_
    · exact endsOf_some endsOf_stFault
    · simp only
      split
      · exact endsOf_some (endsOf_stOf _)
      · refine endsOf_ite (endsOf_some endsOf_stFault) ?_
        split
        · exact ih _ _ _
        · exact endsOf_ite (endsOf_some endsOf_stHit) (ih _ _ _)

theorem endsOf_walkRay (who : Who) (r : Ray) (stn : Option Nat) (fuel : Nat) (s : State) (w : Walk) :
    EndsOf (walkRay who r stn fuel s w).2.2 := by
  induction fuel generalizing s w with
  | zero => exact endsOf_stFault
  | succ fuel ih =>
    unfold walkRay
    split
    · cases w.best.isSome
      · exact endsOf_stMiss
      · exact endsOf_stHit
    · exact ih _ _
    · next _ va n rest _ =>
      simp only
      split
      · next st h => exact endsOf_walkLeaves _ _ _ _ _ _ _ st h
      · exact ih _ _
    · split
      · exact endsOf_stFault
      · simp only
        split
        · exact endsOf_stOf _
        · split
          · exact endsOf_stFault
          · split
            · exact endsOf_stOf _
            · split
              · exact endsOf_stFault
              · exact ih _ _

/-! ### Records (R319, R330) -/

theorem traceRay_invalid {s : State} {who : Who} {c : TraceCmd} {rs : List W32} (h : rayInvalid (rayOf rs) = true) :
    traceRay s who c rs = (s, [5, 0, 0, 0, 0, 0, 0, 0], none) := by
  unfold traceRay
  rw [if_pos h]
  rfl

/-- A record as a ray with a valid record gets it. -/
def Recorded (x : State × List W32 × Option Nat) : Prop := ∃ st w, EndsOf st ∧ x.2.1 = rayRecord st w

theorem Recorded.of {st : Nat} (h : EndsOf st) (s : State) (w : Walk) (node : Option Nat) : Recorded (s, rayRecord st w, node) := ⟨st, w, h, rfl⟩

theorem recorded_ite {c : Prop} [Decidable c] {x y : State × List W32 × Option Nat} (hx : Recorded x) (hy : Recorded y) :
    Recorded (if c then x else y) := by
  split
  · exact hx
  · exact hy

theorem recorded_traceRay {s : State} {who : Who} {c : TraceCmd} {rs : List W32} (h : ¬rayInvalid (rayOf rs) = true) :
    Recorded (traceRay s who c rs) := by
  unfold traceRay
  rw [if_neg h]
  simp only
  split
  · exact .of (endsOf_stOf _) _ _ _
  · split
    · exact .of endsOf_stFault _ _ _
    · refine recorded_ite (.of endsOf_stMiss _ _ _) (recorded_ite ?_ (.of (endsOf_walkRay _ _ _ _ _ _) _ _ _))
      split
      · exact .of endsOf_stMiss _ _ _
      · split
        · exact .of (endsOf_stOf _) _ _ _
        · exact recorded_ite (.of endsOf_stHit _ _ _) (.of endsOf_stFault _ _ _)

/-- What R330 says about a record, its status being one a valid ray ends with or that of an invalid one. -/
def RecordForm (rec' : List W32) : Prop :=
  rec'.length = 8 ∧ (let status := (rec'.getD 0 0).toNat % 256
    1 ≤ status ∧ status ≤ 7 ∧ (status ≠ 2 → rec'.getD 0 0 = BitVec.ofNat 32 status ∧ ∀ i, 1 ≤ i → i < 7 → rec'.getD i 0 = 0))

theorem recordForm_plain {st : Nat} (h1 : 1 ≤ st) (h7 : st ≤ 7) (steps : W32) : RecordForm [BitVec.ofNat 32 st, 0, 0, 0, 0, 0, 0, steps] := by
  have hst : (BitVec.ofNat 32 st).toNat % 256 = st := by rw [BitVec.toNat_ofNat]; omega
  refine ⟨rfl, ?_⟩
  rw [List.getD_cons_zero, hst]
  refine ⟨h1, h7, fun _ => ⟨rfl, fun i hi hi7 => ?_⟩⟩
  obtain rfl | rfl | rfl | rfl | rfl | rfl : i = 1 ∨ i = 2 ∨ i = 3 ∨ i = 4 ∨ i = 5 ∨ i = 6 := by omega
  all_goals rfl

/-- Word 0 of a record that hit: status 2, and 256 for a back face. -/
def hitWord (back : Bool) : W32 := BitVec.ofNat 32 (stHit + (if back then 256 else 0))

theorem hitWord_status (back : Bool) : (hitWord back).toNat % 256 = 2 ∧ hitWord back ≠ 5 := by
  cases back <;> decide

theorem recordForm_hit (back : Bool) {rest : List W32} (h : rest.length = 7) : RecordForm (hitWord back :: rest) := by
  obtain ⟨h2, -⟩ := hitWord_status back
  refine ⟨by rw [List.length_cons, h], ?_⟩
  simp only [List.getD_cons_zero, h2]
  exact ⟨by decide, by decide, fun hn => absurd rfl hn⟩

theorem rayRecord_form {st : Nat} (h : EndsOf st) (w : Walk) : RecordForm (rayRecord st w) ∧ (rayRecord st w).getD 0 0 ≠ 5 := by
  obtain ⟨h1, h7, h5⟩ := h
  unfold rayRecord
  split
  · next b _ _ =>
    obtain ⟨-, hb⟩ := hitWord_status b.hit.back
    exact ⟨recordForm_hit b.hit.back rfl, hb⟩
  · refine ⟨recordForm_plain h1 h7 _, fun h => h5 ?_⟩
    have hn : (BitVec.ofNat 32 st).toNat = 5 := congrArg BitVec.toNat h
    rw [BitVec.toNat_ofNat] at hn
    rw [stInvalid]
    omega

/-- Settles O41: an invalid ray answers at once; a valid one gets a record of a status its walk can end with, and reading its hierarchy changes
copies of memory only. -/
theorem rayRecords : Obligations.RayRecords := by
  unfold Obligations.RayRecords
  intro s who c rs r word finite nan zero invalid
  have hiff : rayInvalid (rayOf rs) = true ↔ invalid := rayInvalid_rayOf rs
  have hread := onlyCaches_traceRay s who c rs
  have hrec : RecordForm r.2.1 ∧ (¬invalid → r.2.1.getD 0 0 ≠ 5) := by
    by_cases h : rayInvalid (rayOf rs) = true
    · have hr : r = _ := traceRay_invalid h
      rw [hr]
      exact ⟨recordForm_plain (st := 5) (by decide) (by decide) 0, fun hn => absurd (hiff.1 h) hn⟩
    · obtain ⟨st, w, hst, hr⟩ := recorded_traceRay (s := s) (who := who) (c := c) h
      obtain ⟨hform, h5⟩ := rayRecord_form hst w
      exact ⟨hr ▸ hform, fun _ => hr ▸ h5⟩
  obtain ⟨⟨hlen, hstatus⟩, h5⟩ := hrec
  exact ⟨fun h => traceRay_invalid (hiff.2 h), h5, hlen, hstatus, fun a => congrArg (memGet · a) hread.mem, hread.waves, hread.flights⟩

end Sys2Proof.Machine
end

section
/-!
PROOFS. A trace that completes behind an older one of its wave (R195, R328).
-/
namespace Sys2Proof.Machine

/-! ### The end of a trace that has nothing left (R328) -/

/-- A trace with nothing left whose share is spent ends, as any operation of its class does. -/
theorem exec_rayCompletion_spent {s : State} {fid lane : Nat} {f : Flight} {c : TraceCmd} (hin : InFlight s fid f) (hact : f.act = .trace c)
    (hrays : c.rays = []) (hout : c.out = []) (hshare : c.share = 0) (hsent : ∀ g ∈ s.flights, g.id ∉ c.sent) :
    exec (.rayCompletion fid lane) s = .next (endFlight s f) := by
  have hexec : exec (.rayCompletion fid lane) s = execRayCompletion fid lane s := rfl
  have hnone : s.flights.any (fun g => c.sent.contains g.id) = false := by simpa using hsent
  rw [hexec, execRayCompletion, findFlight_some hin, hact]
  simp only [hrays, hout, List.find?_nil, settleTrace, hnone, hshare, returnWeight, List.isEmpty_nil, Bool.not_false, Bool.and_self, if_true]

/-! ### Two traces of one wave -/

/-- An inline trace that still has a ray to trace. -/
def openTrace : TraceCmd :=
  { desc := 0, queue := false, slot := 0, depth := 0, rays := [(0, [])], pays := [], share := 0, out := [], sent := [] }

/-- A trace in queue mode whose records have all left, with the whole share. -/
def spentTrace : TraceCmd := { openTrace with queue := true, rays := [] }

/-- A wave with an open trace and, behind it, a spent one. -/
def spentBehind : State :=
  let start (s : State) (c : TraceCmd) : State := addFlight s (whoOf placedWave) (some .tx) (.trace c) none
  start (start { State.reset with waves := [placedWave] } openTrace) spentTrace

/-- The spent trace in flight. -/
def spentFlight : Flight :=
  { id := 1, who := whoOf placedWave, cls := some .tx, act := .trace spentTrace, rr := none, held := false, tick := none, vis := none, skip := [] }

theorem inFlight_spentBehind : InFlight spentBehind 1 spentFlight := by decide +kernel

/-- The spent trace is held until the older one of its class has completed. -/
theorem findFlight_endFlight_spentBehind :
    findFlight (endFlight spentBehind spentFlight) 1 = some { spentFlight with act := .nop, held := true } := by decide +kernel

/-- Refutes O42: its last clause says that a trace with nothing left is in flight no more once it completes. Operations of one class of a wave
complete in order (R195): the second of two traces that stands finished behind the first, which has a ray left, is held in flight. -/
theorem not_raysComplete : ¬ Obligations.RaysComplete := by
  unfold Obligations.RaysComplete
  intro h
  obtain ⟨-, -, -, hlast⟩ := h spentBehind 1 0 spentFlight spentTrace inFlight_spentBehind rfl (by decide)
  obtain ⟨t, hexec, -, hgone⟩ := hlast rfl rfl rfl (fun _ _ => List.not_mem_nil)
  rw [exec_rayCompletion_spent inFlight_spentBehind rfl rfl rfl rfl (fun _ _ => List.not_mem_nil)] at hexec
  cases hexec
  rw [findFlight_endFlight_spentBehind] at hgone
  cases hgone

end Sys2Proof.Machine
end

section
/-!
PROOFS. A package that is lost to the tick exchange (R395): what the resets of its contexts may do to memory in an arbitrary state.
-/
namespace Sys2Proof.Machine

/-! ### A stalled exchange with two contexts -/

/-- Two contexts that exchange with a pod, 1 and 2. -/
def exchanging : List Ctx := [{ placedCtx with rx := true }, { placedCtx with asid := 2, rx := true }]

/-- An open launch of context 1, behind a child launch of context 2 that bears the same number. -/
def sameNumber : List Launch := [{ placedLaunch with asid := 2, host := false, link := 1 }, placedLaunch]

/-- A store of a context that does not exchange, shown by its core's L1. It bears the number that the next operation gets. -/
def shownStore : Flight :=
  { id := 0, who := whoNone 0 3 0, cls := none, act := .store 1 [({ lane := 0, loc := .mem 0x50000, va := 0, page := pageNormal }, 1)]
    rr := none, held := false, tick := none, vis := some 0, skip := [] }

/-- Package 1 of the pod has sent no marker for 64 ticks. -/
def stalledPod : State :=
  { State.reset with
    time := 640000, ctxs := exchanging, launches := sameNumber, flights := [shownStore], pod := { State.reset.pod with members := [0, 1] } }

theorem missingTick_stalledPod : missingTick stalledPod 1 = some 0 := by decide +kernel

/-- No operation of the contexts that exchange is in flight. -/
theorem none_exchanging : ∀ f ∈ stalledPod.flights, ∀ c ∈ stalledPod.ctxs, c.rx = true → c.asid ≠ f.who.asid := by decide +kernel

/-- The state that the stalled exchange leaves. -/
def stalledResult : State :=
  match exec (.tickExchangeStalled 1) stalledPod with
  | .next t => t
  | _ => stalledPod

theorem exec_stalledPod {t : State} (h : exec (.tickExchangeStalled 1) stalledPod = .next t) : stalledResult = t := by
  simp only [stalledResult, h]

theorem memGet_stalledPod : memGet stalledPod.mem 0x50000 = 0 := by decide +kernel

/-- The reset of context 1 completes its launch by the number, which finds the child launch and sends its weight home for context 2. The reset of
context 2 settles that packet, and with it the store, whose number it bears. -/
theorem memGet_stalledResult : memGet stalledResult.mem 0x50000 = 1 := by decide +kernel

/-- Refutes O53: its clause on a stalled exchange says of any state that memory stays as it is when no operation of the contexts that exchange is in
flight. Not where two launches bear one number and an operation bears the number that the next one gets, which no run is meant to reach: there the
two resets bring a store of another context home. -/
theorem not_linksTicksAndPower : ¬ Obligations.LinksTicksAndPower := by
  unfold Obligations.LinksTicksAndPower
  intro h
  obtain ⟨-, -, -, -, -, hstalled, -⟩ := h stalledPod
  obtain ⟨t, hexec, -, -, -, hsame⟩ := hstalled 1 0 (by decide) (by decide) (by decide) missingTick_stalledPod
  have hmem : SameMemory stalledPod t :=
    hsame (fun _ hc => nomatch hc) (fun f hf c hc hrx hid => absurd hid (none_exchanging f hf c hc hrx))
  have hbyte := hmem 0x50000
  rw [← exec_stalledPod hexec, memGet_stalledResult, memGet_stalledPod] at hbyte
  exact absurd hbyte (by decide)

end Sys2Proof.Machine
end

section
/-!
PROOFS. Where a lane's access goes, and its checks in their order (O9).
-/
namespace Sys2Proof.Machine

/-! ### Addresses (R187, R196, R197) -/

/-- The offset of a lane as a number, before the sum (R187). -/
def offsetNat (w : Wave) (o : Ops) (scale lane : Nat) : Nat :=
  match o.b with
  | .v m => (rdV w lane m).toNat * 2 ^ scale
  | .s m => (rdS w m).toNat
  | .imm x => x.toNat

theorem toNat_eaOf (w : Wave) (o : Ops) (scale lane : Nat) :
    (eaOf w o scale lane).toNat = ((rdS w o.a).toNat + offsetNat w o scale lane) % 2 ^ 64 := by
  have hoff : (offsetOf w o scale lane).toNat = offsetNat w o scale lane % 2 ^ 64 := by
    unfold offsetOf offsetNat
    cases o.b with
    | v m => simp [Nat.shiftLeft_eq]
    | s m => exact (Nat.mod_eq_of_lt (BitVec.isLt _)).symm
    | imm x => exact (Nat.mod_eq_of_lt (BitVec.isLt _)).symm
  rw [eaOf, BitVec.toNat_add, hoff, Nat.add_mod_mod]

section
variable {s : State} {w : Wave} {o : Ops} {ea : Nat → W64} {n l : Nat}

theorem padAcc_inside (hal : (ea l).toNat % n = 0) (hin : (ea l).toNat < w.foot.spad) :
    padAcc w ea n l = .ok { lane := l, loc := .pad (whoOf w).uid (ea l).toNat, va := (ea l).toNat, page := pageNormal } := by
  simp [padAcc, hal, hin]

theorem padAcc_misaligned (hal : (ea l).toNat % n ≠ 0) : padAcc w ea n l = .error { cause := 4, addr := (ea l).toNat, detail := n } := by
  simp [padAcc, hal, cMisalign]

theorem padAcc_outside (hal : (ea l).toNat % n = 0) (hout : w.foot.spad ≤ (ea l).toNat) :
    padAcc w ea n l = .error { cause := 5, addr := (ea l).toNat, detail := 0 } := by
  simp [padAcc, hal, hout, cBounds]

theorem padAcc_toOption (w : Wave) (ea : Nat → W64) (n l : Nat) : (padAcc w ea n l).toOption =
    if (ea l).toNat % n = 0 ∧ (ea l).toNat < w.foot.spad then
      some { lane := l, loc := .pad (whoOf w).uid (ea l).toNat, va := (ea l).toNat, page := pageNormal } else none := by
  split
  · next h => rw [padAcc_inside h.1 h.2]; rfl
  · next h =>
    by_cases hal : (ea l).toNat % n = 0
    · rw [padAcc_outside hal (not_lt.mp fun hin => h ⟨hal, hin⟩)]; rfl
    · rw [padAcc_misaligned hal]; rfl

theorem memAcc_misaligned (s : State) (w : Wave) (k : AKind) (hal : (ea l).toNat % n ≠ 0) :
    memAcc s w k ea n l = .error { cause := 4, addr := (ea l).toNat, detail := n } := by
  simp [memAcc, checkMem, hal, cMisalign]

/-- A handle whose fields name no live wave of the launch (R143, R197). -/
theorem peerAcc_gone (hal : (((rdS w o.a).toNat % 2 ^ 32 : Nat) + peerOffset w o o.x l) % (n : Int) = 0)
    (htop : (rdS w o.a).toNat / 2 ^ 40 = 0)
    (hnone : ∀ x ∈ s.waves, ¬(x.fork = none ∧ x.die = w.die ∧ x.core = 4 * (w.core / 4) + (rdS w o.a).toNat / 2 ^ 38 % 4 ∧
      x.wctx = (rdS w o.a).toNat / 2 ^ 32 % 64 ∧ x.launch = w.launch)) :
    peerAcc s w o n l = .error {
      cause := 6
      addr := ((((rdS w o.a).toNat % 2 ^ 32 : Nat) + peerOffset w o o.x l) % 2 ^ 64).toNat
      detail := 4 * (w.core / 4) + (rdS w o.a).toNat / 2 ^ 38 % 4 + 2 ^ 8 * ((rdS w o.a).toNat / 2 ^ 32 % 64) } := by
  have hpeer : peerOf s w (rdS w o.a) = none := by
    simp only [peerOf, List.find?_eq_none, Bool.and_eq_true, beq_iff_eq, Option.isNone_iff_eq_none]
    rintro x hx ⟨⟨⟨⟨hfork, hdie⟩, hcore⟩, hctx⟩, hlaunch⟩
    exact hnone x hx ⟨hfork, hdie, hcore, hctx, hlaunch⟩
  have hlow : field (rdS w o.a).toNat 31 0 = (rdS w o.a).toNat % 2 ^ 32 := by simp [field]
  have hhigh : field (rdS w o.a).toNat 63 40 = 0 := by rw [field, htop, Nat.zero_mod]
  simp only [peerAcc, peerAt, hlow, hal, hhigh, hpeer, ne_eq, not_true_eq_false, if_false]
  rfl

end

/-! ### The checks of one access (R143, R172, R174) -/

/-- A device page takes loads and stores of 4 and 8 bytes only. -/
def TooNarrow (k : AKind) (ty : PType) (n : Nat) : Prop := ty = .device ∧ (k = .load ∨ k = .store) ∧ n ≠ 4 ∧ n ≠ 8

/-- What the leaf or the type of its page forbids (R172, R174). -/
def Denied (k : AKind) (leaf : Nat) (wsw : Bool) : Prop :=
  (k = .fetch ∧ leaf.testBit 4 = false) ∨ ((k = .load ∨ k = .estRead ∨ k = .atomic) ∧ leaf.testBit 2 = false) ∨
    ((k = .store ∨ k = .estWrite ∨ k = .atomic) ∧ leaf.testBit 3 = false) ∨
    (k = .store ∧ (pageOf leaf).ptype = .weight ∧ wsw = false) ∨
    (k = .atomic ∧ ((pageOf leaf).ptype = .weight ∨ (pageOf leaf).ptype = .device))

/-- Estimator pages take estimator accesses, and those no others (R174). -/
def Mistyped (k : AKind) (ty : PType) : Prop :=
  ((k = .store ∨ k = .atomic) ∧ ty = .estimator) ∨ ((k = .estRead ∨ k = .estWrite) ∧ ty ≠ .estimator)

theorem tooNarrow_iff (k : AKind) (ty : PType) (n : Nat) :
    (ty == .device && (k == .load || k == .store) && !(n == 4 || n == 8)) = true ↔ TooNarrow k ty n := by
  simp [TooNarrow, and_assoc]

theorem denied_iff (k : AKind) (leaf : Nat) (wsw : Bool) :
    ((permLack k leaf).isSome || typeDenies k (pageOf leaf).ptype wsw) = true ↔ Denied k leaf wsw := by
  unfold Denied permLack
  simp only [bitAt_eq_testBit]
  cases k <;> cases (pageOf leaf).ptype <;> simp [typeDenies] <;> grind

theorem mistyped_iff (k : AKind) (ty : PType) : typeMismatch k ty = true ↔ Mistyped k ty := by
  cases k <;> cases ty <;> simp [typeMismatch, Mistyped]

section
variable {s : State} {asid va n : Nat} {wsw : Bool} {k : AKind} {leaf : Nat × Nat}

theorem checkMem_aligned (hal : va % n = 0) : checkMem s asid wsw k va n = checkPage s asid wsw k va n := by
  simp [checkMem, hal]

theorem checkPage_untranslated (ht : translate s asid va = none) :
    checkPage s asid wsw k va n = .error { cause := 2, addr := va, detail := asid } := by
  simp [checkPage, ht, cXlat]

variable (ht : translate s asid va = some leaf)
include ht

theorem checkPage_narrow (hn : TooNarrow k (pageOf leaf.1).ptype n) :
    checkPage s asid wsw k va n = .error { cause := 4, addr := va, detail := n } := by
  simp only [checkPage, ht, (tooNarrow_iff _ _ _).mpr hn, if_true, cMisalign]

variable (hn : ¬TooNarrow k (pageOf leaf.1).ptype n)
include hn

theorem checkPage_denied (hd : Denied k leaf.1 wsw) : ∃ d, checkPage s asid wsw k va n = .error { cause := 3, addr := va, detail := d } := by
  rw [← tooNarrow_iff] at hn
  rw [← denied_iff] at hd
  simp only [checkPage, ht, hn, cPerm]
  cases hp : permLack k leaf.1 with
  | some d => exact ⟨d, rfl⟩
  | none =>
    rw [hp] at hd
    exact ⟨1, if_pos (by simpa using hd)⟩

theorem checkPage_granted (hd : ¬Denied k leaf.1 wsw) : checkPage s asid wsw k va n =
    if typeMismatch k (pageOf leaf.1).ptype then .error { cause := 10, addr := va, detail := 0 } else .ok (paUnder leaf va, pageOf leaf.1) := by
  rw [← tooNarrow_iff] at hn
  rw [← denied_iff] at hd
  obtain ⟨hp, hty⟩ : permLack k leaf.1 = none ∧ typeDenies k (pageOf leaf.1).ptype wsw = false := by simpa using hd
  simp only [checkPage, ht, hn, hp, hty, Bool.false_eq_true, if_false, cEstType]

end

/-- Settles O9: each place and each check has an equation of its own; the checks follow one another in the order of R143. -/
theorem addressesAndChecks : Obligations.AddressesAndChecks := by
  unfold Obligations.AddressesAndChecks
  refine ⟨fun s w o sc l n k hn => ⟨toNat_eaOf w o sc l, padAcc_toOption w _ n l,
      fun h => ⟨padAcc_misaligned h, memAcc_misaligned s w k h⟩, fun h hout => padAcc_outside h hout,
      fun hal htop hnone => peerAcc_gone hal htop hnone⟩,
    fun s asid va n wsw k hn hal => ?checks⟩
  case checks =>
    rw [checkMem_aligned hal]
    refine ⟨checkPage_untranslated, fun leaf ht => ⟨checkPage_narrow ht, checkPage_denied ht, fun hna hd hm => ?_, fun hna hd hm => ?_⟩⟩
    · rw [checkPage_granted ht hna hd, if_pos ((mistyped_iff _ _).mpr hm)]
    · rw [checkPage_granted ht hna hd, if_neg (mt (mistyped_iff _ _).mp hm)]

end Sys2Proof.Machine
end

section
/-!
PROOFS. Loads and stores as they issue (O10). First what an operation that enters the path leaves as it was: the other operations and their counters,
every core but its own, and of that all but its L1. Then the body that loads share and the one that stores share.
-/
namespace Sys2Proof.Machine

/-! ### One operation more in flight (R194) -/

/-- One operation more is in flight; of the others only such as bear its number may differ, in nothing that counters see. -/
def OneMore (s t : State) (who : Who) (cls : Option Cls) (act : Act) : Prop :=
  ∃ (g : Flight → Flight) (f : Flight), t.flights = s.flights.map g ++ [f] ∧
    (∀ x, (x.id ≠ s.nextFid → g x = x) ∧ (g x).id = x.id ∧ (g x).who = x.who ∧ (g x).cls = x.cls) ∧
    f.id = s.nextFid ∧ f.who = who ∧ f.cls = cls ∧ f.act = act ∧ f.rr = none ∧ f.held = false

section
variable {s t : State} {who : Who} {cls : Option Cls} {act : Act}

theorem OneMore.mem_iff (h : OneMore s t who cls act) {x : Flight} (hx : x.id ≠ s.nextFid) : x ∈ t.flights ↔ x ∈ s.flights := by
  obtain ⟨g, f, hfl, hg, hid, -⟩ := h
  have hnew : x ≠ f := fun e => hx (e ▸ hid)
  simp only [hfl, List.mem_append, List.mem_map, List.mem_singleton, hnew, or_false]
  constructor
  · rintro ⟨y, hy, rfl⟩
    rw [(hg y).2.1] at hx
    rwa [(hg y).1 hx]
  · exact fun hy => ⟨x, hy, (hg x).1 hx⟩

theorem OneMore.newFlight {w : Wave} (h : OneMore s t (whoOf w) cls act) : NewFlight s t w cls act none := by
  obtain ⟨g, f, hfl, -, hid, hwho, hcls, hact, hrr, hheld⟩ := h
  exact ⟨f, by simp [hfl], hid, hwho, hcls, hact, hrr, hheld⟩

theorem OneMore.counter (h : OneMore s t who cls act) (uid : Nat) (c : Cls) :
    counter t uid c = counter s uid c + if who.uid = uid ∧ cls = some c then 1 else 0 := by
  obtain ⟨g, f, hfl, hg, -, rfl, rfl, -⟩ := h
  have hold : (fun x : Flight => x.who.uid == uid && x.cls == some c) ∘ g = fun x => x.who.uid == uid && x.cls == some c := by
    funext x
    simp [(hg x).2.2]
  simp only [Machine.counter, hfl, List.filter_append, List.length_append, List.filter_map, List.length_map, hold]
  by_cases hf : f.who.uid = uid ∧ f.cls = some c <;> simp [hf]

/-- The counter of its class counts it (R194). -/
theorem OneMore.countsUp {w : Wave} {cls : Cls} (h : OneMore s t (whoOf w) (some cls) act) (hf : w.fork = none) : CountsUp s t w.uid cls := by
  have hu : (whoOf w).uid = w.uid := whoOf_uid hf
  refine ⟨by simp [h.counter, hu], fun c hc => ?_⟩
  simp [h.counter, hu, Ne.symm hc]

/-- Changes before it that leave what is in flight do not matter. -/
theorem OneMore.of_flights {r : State} (h : OneMore r t who cls act) (hfl : r.flights = s.flights) (hn : r.nextFid = s.nextFid) :
    OneMore s t who cls act := by
  unfold OneMore at *
  rwa [hfl, hn] at h

theorem OneMore.of_flights_eq {u : State} (h : OneMore s t who cls act) (hfl : u.flights = t.flights) : OneMore s u who cls act := by
  unfold OneMore at *
  rwa [hfl]

theorem oneMore_addMem (s : State) (who : Who) (cls : Option Cls) (act : Act) : OneMore s (addMem s who cls act) who cls act :=
  ⟨id, _, by rw [List.map_id]; exact addFlight_flights s who cls act none, fun x => ⟨fun _ => rfl, rfl, rfl, rfl⟩, rfl, rfl, rfl, rfl, rfl, rfl⟩

end

/-! ### What else entering the path changes (R173, R176) -/

/-- `t` with the cached translations, the operations in flight and the cores of `s`. -/
def withPathOf (s t : State) : State := { t with tlb := s.tlb, flights := s.flights, nextFid := s.nextFid, cores := s.cores }

/-- `t` is `s` but for cached translations, for what is in flight, and for the L1 of one core. -/
structure OnlyPath (s t : State) (die core : Nat) : Prop where
  frame : withPathOf s t = s
  others : OnlyCore s t die core
  own : { coreAt t die core with l1 := (coreAt s die core).l1 } = coreAt s die core

section
variable {s t : State} {die core : Nat}

theorem OnlyPath.refl (s : State) (die core : Nat) : OnlyPath s s die core := ⟨rfl, fun _ _ => rfl, rfl⟩

theorem OnlyPath.trans {a b c : State} (h : OnlyPath a b die core) (g : OnlyPath b c die core) : OnlyPath a c die core := by
  obtain ⟨hf, ho, hw⟩ := h
  obtain ⟨gf, go, gw⟩ := g
  refine ⟨?_, fun k hk => (go k hk).trans (ho k hk), ?_⟩
  · exact (congrArg (withPathOf a) gf :).trans hf
  · rw [← hw, ← gw]

theorem OnlyPath.waves (h : OnlyPath s t die core) : t.waves = s.waves := (congrArg State.waves h.frame :)
theorem OnlyPath.ghosts (h : OnlyPath s t die core) : t.ghosts = s.ghosts := (congrArg State.ghosts h.frame :)
theorem OnlyPath.relb (h : OnlyPath s t die core) : (coreAt t die core).relb = (coreAt s die core).relb := (congrArg Core.relb h.own :)

theorem onlyPath_of_cores (hf : { t with tlb := s.tlb, flights := s.flights, nextFid := s.nextFid } = s) : OnlyPath s t die core := by
  have hc : t.cores = s.cores := (congrArg State.cores hf :)
  refine ⟨?_, fun k _ => by rw [hc], by rw [coreAt_of_cores hc]⟩
  exact (congrArg (fun x : State => { x with cores := s.cores }) hf)

theorem onlyPath_addMem (s : State) (who : Who) (cls : Option Cls) (act : Act) (die core : Nat) : OnlyPath s (addMem s who cls act) die core :=
  onlyPath_of_cores rfl

theorem onlyPath_foldl {α : Type} (f : State → α → State) (hf : ∀ s a, OnlyPath s (f s a) die core) (l : List α) (s : State) :
    OnlyPath s (l.foldl f s) die core := by
  induction l generalizing s with
  | nil => exact .refl s die core
  | cons a r ih => exact (hf s a).trans (ih _)

theorem onlyPath_putL1 (s : State) (die core : Nat) (ls : List Line) :
    OnlyPath s (putCore s die core { coreAt s die core with l1 := ls }) die core :=
  ⟨rfl, fun _ hk => stGet_stSet_other _ _ hk _, by rw [coreAt_putCore]⟩

theorem onlyPath_l1Update (s : State) (die core pa : Nat) (bs : List Byte) : OnlyPath s (l1Update s die core pa bs) die core :=
  onlyPath_putL1 s die core _

theorem onlyPath_healL1 (s : State) (die core : Nat) (rs : List (Nat × Nat)) : OnlyPath s (healL1 s die core rs) die core := by
  unfold healL1
  simp only
  split
  · exact .refl s die core
  · exact onlyPath_putL1 s die core _

/-- Translations that an instruction used are cached, and nothing else changes (R173). -/
theorem fillTlbs_frame (asid : Nat) (as : List Acc) (s : State) : { fillTlbs s asid as with tlb := s.tlb } = s := by
  induction as generalizing s with
  | nil => rfl
  | cons a r ih =>
    have hstep : ∃ tlb, (match a.loc with | .mem _ => tlbFill s asid a.va | .pad _ _ => s) = { s with tlb := tlb } := by
      split
      · unfold tlbFill
        split <;> exact ⟨_, rfl⟩
      · exact ⟨_, rfl⟩
    obtain ⟨tlb, hstep⟩ := hstep
    have hr := ih { s with tlb := tlb }
    rw [← hstep] at hr
    exact congrArg (fun x : State => { x with tlb := s.tlb }) (hr.trans hstep)

theorem onlyPath_fillTlbs (s : State) (asid : Nat) (as : List Acc) (die core : Nat) : OnlyPath s (fillTlbs s asid as) die core :=
  onlyPath_of_cores (congrArg (fun x : State => { x with flights := s.flights, nextFid := s.nextFid }) (fillTlbs_frame asid as s))

end

/-! ### A store takes its place in the path (R176, R201) -/

/-- The L1 copies of a store's lanes as it issues. -/
def shownInL1 (s : State) (die core n : Nat) (xs : List (Acc × Nat)) : State :=
  healL1 (xs.foldl (fun st x => match x.1.loc with
    | .mem pa => if x.1.page.ptype == .device then st else l1Update st die core pa (leBytes n x.2)
    | .pad _ _ => st) s) die core (memRanges (xs.map (fun x => (x.1, n))))

theorem onlyPath_shownInL1 (s : State) (die core n : Nat) (xs : List (Acc × Nat)) : OnlyPath s (shownInL1 s die core n xs) die core := by
  refine OnlyPath.trans (onlyPath_foldl _ (fun st x => ?_) xs s) (onlyPath_healL1 _ _ _ _)
  split
  · split
    · exact .refl st die core
    · exact onlyPath_l1Update _ _ _ _ _
  · exact .refl st die core

theorem shownInL1_frame (s : State) (die core n : Nat) (xs : List (Acc × Nat)) : { shownInL1 s die core n xs with cores := s.cores } = s := by
  have hl1 (s : State) (pa : Nat) (bs : List Byte) : { l1Update s die core pa bs with cores := s.cores } = s := rfl
  have hfold (s : State) : ∃ cs, xs.foldl (fun st x => match x.1.loc with
      | .mem pa => if x.1.page.ptype == .device then st else l1Update st die core pa (leBytes n x.2)
      | .pad _ _ => st) s = { s with cores := cs } := by
    induction xs generalizing s with
    | nil => exact ⟨_, rfl⟩
    | cons x r ih =>
      rw [List.foldl_cons]
      split
      · split
        · exact ih s
        · exact ih (l1Update s die core _ _)
      · exact ih s
  obtain ⟨cs, hcs⟩ := hfold s
  unfold shownInL1 healL1
  simp only [hcs]
  split <;> rfl

/-- A store that the L1 takes at once bears the number that orders it among those that the L1 shows. -/
def markSeen (n : Nat) (f : Flight) : Flight := if f.id == n then { f with vis := some n } else f

theorem addSeen_eq (s : State) (who : Who) (cls : Option Cls) (n : Nat) (xs : List (Acc × Nat)) : addSeen s who cls n xs =
    { addMem (shownInL1 s who.die who.core n xs) who cls (.store n xs) with
      flights := (addMem (shownInL1 s who.die who.core n xs) who cls (.store n xs)).flights.map (markSeen s.nextFid) } := rfl

section
variable (s : State) (who : Who) (cls : Option Cls) (n : Nat) (xs : List (Acc × Nat))

theorem onlyPath_addSeen : OnlyPath s (addSeen s who cls n xs) who.die who.core := by
  rw [addSeen_eq]
  exact ((onlyPath_shownInL1 s _ _ n xs).trans (onlyPath_addMem _ who cls (.store n xs) _ _)).trans (onlyPath_of_cores rfl)

theorem oneMore_addSeen : OneMore s (addSeen s who cls n xs) who cls (.store n xs) := by
  have hshown := shownInL1_frame s who.die who.core n xs
  have hfl : (shownInL1 s who.die who.core n xs).flights = s.flights := (congrArg State.flights hshown :)
  have hn : (shownInL1 s who.die who.core n xs).nextFid = s.nextFid := (congrArg State.nextFid hshown :)
  obtain ⟨g, f, he, hg, hid, hwho, hcls, hact, hrr, hheld⟩ :=
    (oneMore_addMem (shownInL1 s who.die who.core n xs) who cls (.store n xs)).of_flights hfl hn
  refine ⟨markSeen s.nextFid ∘ g, markSeen s.nextFid f, ?_, fun x => ?_, ?_⟩
  · rw [addSeen_eq]
    simp [he]
  · obtain ⟨hsame, hgid, hgwho, hgcls⟩ := hg x
    have hmark : (markSeen s.nextFid (g x)).id = (g x).id ∧ (markSeen s.nextFid (g x)).who = (g x).who ∧
        (markSeen s.nextFid (g x)).cls = (g x).cls := by unfold markSeen; split <;> exact ⟨rfl, rfl, rfl⟩
    refine ⟨fun hx => ?_, hmark.1.trans hgid, hmark.2.1.trans hgwho, hmark.2.2.trans hgcls⟩
    simp [markSeen, hsame hx, hx]
  · unfold markSeen
    split <;> exact ⟨hid, hwho, hcls, hact, hrr, hheld⟩

theorem onlyPath_addStore : OnlyPath s (addStore s who cls n xs) who.die who.core := by
  unfold addStore
  split
  · exact onlyPath_addMem _ _ _ _ _ _
  · exact onlyPath_addSeen _ _ _ _ _

theorem oneMore_addStore : OneMore s (addStore s who cls n xs) who cls (.store n xs) := by
  unfold addStore
  split
  · exact oneMore_addMem _ _ _ _
  · exact oneMore_addSeen _ _ _ _ _

end

/-! ### The wave goes on, or waits for its acquire (R217) -/

/-- An acquire holds its wave until the operation of its number has ended. -/
def waitsFor (acquires : Bool) (s : State) (w : Wave) (fid : Nat) : State :=
  if acquires then updHolder s w.uid (fun x => { x with blocked := some fid }) else s

/-- The wave that an instruction leaves that acquires or does not. -/
def waiting (acquires : Bool) (w : Wave) (fid : Nat) : Wave := if acquires then { w with blocked := some fid } else w

@[simp] theorem waiting_uid (acquires : Bool) (w : Wave) (fid : Nat) : (waiting acquires w fid).uid = w.uid := by
  unfold waiting; split <;> rfl

theorem waitsFor_frame (acquires : Bool) (s : State) (w : Wave) (fid : Nat) :
    { waitsFor acquires s w fid with waves := s.waves, ghosts := s.ghosts } = s := by
  unfold waitsFor; split <;> rfl

theorem findWave_updHolder (s : State) (uid : Nat) (f : Wave → Wave) (hf : ∀ x, (f x).uid = x.uid) (u : Nat) :
    findWave (updHolder s uid f) u = (findWave s u).map (fun x => if x.uid == uid then f x else x) :=
  findWave_map rfl (fun x => by split <;> simp [hf]) u

/-- One wave has changed, when all of its number have. -/
theorem waveIs_updHolder {s : State} {w : Wave} (hw : findWave s w.uid = some w) (f : Wave → Wave) (hf : ∀ x, (f x).uid = x.uid) :
    WaveIs s (updHolder s w.uid f) w.uid (f w) := by
  refine ⟨by simp [findWave_updHolder s w.uid f hf, hw], fun u hu => ?_⟩
  rw [findWave_updHolder s w.uid f hf]
  cases hx : findWave s u with
  | none => rfl
  | some x => simp [findWave_uid hx, hu]

theorem mem_ghosts_updHolder (s : State) (uid : Nat) (f : Wave → Wave) (hf : ∀ x, (f x).uid = x.uid) {g : Wave} (hg : g.uid ≠ uid) :
    g ∈ (updHolder s uid f).ghosts ↔ g ∈ s.ghosts := by
  have hghosts : (updHolder s uid f).ghosts = s.ghosts.map (fun x => if x.uid == uid then f x else x) := rfl
  rw [hghosts, List.mem_map]
  constructor
  · rintro ⟨x, hx, rfl⟩
    by_cases hxu : (x.uid == uid) = true
    · rw [if_pos hxu, hf] at hg
      exact absurd (by simpa using hxu) hg
    · rwa [if_neg hxu]
  · exact fun hmem => ⟨g, hmem, by simp [hg]⟩

theorem waveIs_waitsFor {s : State} {w : Wave} (hw : findWave s w.uid = some w) (acquires : Bool) (fid : Nat) :
    WaveIs s (waitsFor acquires s w fid) w.uid (waiting acquires w fid) := by
  unfold waitsFor waiting
  split
  · exact waveIs_updHolder hw _ fun _ => rfl
  · exact ⟨hw, fun _ _ => rfl⟩

theorem mem_ghosts_waitsFor (acquires : Bool) (s : State) (w : Wave) (fid : Nat) {g : Wave} (hg : g.uid ≠ w.uid) :
    g ∈ (waitsFor acquires s w fid).ghosts ↔ g ∈ s.ghosts := by
  unfold waitsFor
  split
  · exact mem_ghosts_updHolder s w.uid (fun x => { x with blocked := some fid }) (fun _ => rfl) hg
  · rfl

theorem waveIs_trans {a b c : State} {uid : Nat} {w w' : Wave} (h : WaveIs a b uid w) (g : WaveIs b c uid w') : WaveIs a c uid w' :=
  ⟨g.1, fun u hu => (g.2 u hu).trans (h.2 u hu)⟩

theorem waveIs_of_waves {s t : State} {w : Wave} (hw : findWave s w.uid = some w) (h : t.waves = s.waves) : WaveIs s t w.uid w := by
  have hfind (u : Nat) : findWave t u = findWave s u := by simp [findWave, h]
  exact ⟨(hfind _).trans hw, fun u _ => hfind u⟩

/-- The wave that stands in the state goes on at its next instruction. -/
theorem goOn_waveIs {s t : State} {uid : Nat} {w1 : Wave} (h : WaveIs s t uid w1) (hu : w1.uid = uid) :
    goOn t uid = .next (putWave t (goSeq w1)) ∧ WaveIs s (putWave t (goSeq w1)) uid (goSeq w1) := by
  subst hu
  obtain ⟨hfound, hothers⟩ := h
  obtain ⟨-, hput, hkeep, -⟩ := onlyWave_putWave hfound (goSeq_uid w1)
  exact ⟨goOn_found hfound, hput, fun u hu => (hkeep u hu).trans (hothers u hu)⟩

/-- Forks are looked for among the waves, so a change that keeps the waves opens none. -/
theorem noForks_of_waves {s t : State} {w : Wave} (h : NoForks s w) (hw : t.waves = s.waves) : NoForks t w :=
  ⟨h.1, by rw [shadowsOf, hw]; exact h.2⟩

/-- Without forks no order of performance squashes any (R230). -/
theorem squashOrder_quiet {s t : State} {w : Wave} (h : NoForks s w) (hw : t.waves = s.waves) : squashOrder t w = t :=
  squashWhere_none (noForks_of_waves h hw).2 _

theorem squashStores_quiet {s t : State} {w : Wave} (h : NoForks s w) (hw : t.waves = s.waves) (sls : List Nat) (rs : List (Acc × Nat)) :
    squashStores t w sls rs = t :=
  squashWhere_none (noForks_of_waves h hw).2 _

/-- An instruction that puts one operation into the path and goes on. -/
theorem sends_goOn {i : Instr} {s t : State} {w : Wave} {ls : List Nat} {cls : Cls} {act : Act} {P : State → Prop} (hi : Issues s i w ls)
    (hf : w.fork = none) (b : Bool) (fid : Nat) (hx : exec i s = goOn (waitsFor b t w fid) w.uid)
    (hpath : withPathOf s t = s)
    (hone : OneMore s t (whoOf w) (some cls) act) (hP : P (putWave (waitsFor b t w fid) (goSeq (waiting b w fid)))) :
    Sends i s w (waiting b w fid) cls act none P := by
  have hwaves : t.waves = s.waves := (congrArg State.waves hpath :)
  have hghosts : t.ghosts = s.ghosts := (congrArg State.ghosts hpath :)
  have hat := waveIs_of_waves (curWave_found hi.1).2 hwaves
  obtain ⟨hgo, hwave⟩ := goOn_waveIs (waveIs_trans hat (waveIs_waitsFor hat.1 b fid)) (waiting_uid b w fid)
  have hwait := waitsFor_frame b t w fid
  have hone' : OneMore s (putWave (waitsFor b t w fid) (goSeq (waiting b w fid))) (whoOf w) (some cls) act :=
    hone.of_flights_eq (congrArg State.flights hwait :)
  refine ⟨_, hx.trans hgo, ?_, hwave, fun g hg => ?_, fun f hfid => hone'.mem_iff hfid, hone'.newFlight, hone'.countsUp hf, hP⟩
  · exact (congrArg (fun x : State => { withPathOf s x with waves := s.waves, ghosts := s.ghosts }) hwait :).trans
      (congrArg (fun x : State => { x with waves := s.waves, ghosts := s.ghosts }) hpath)
  · rw [putWave_ghosts, mem_ghosts_waitsFor b t w fid hg, hghosts]

/-! ### Loads (R187 to R193, R217) -/

section
variable {s : State} {w : Wave} {ls : List Nat} {o : Ops} {n : Nat} {acc : State → Wave → Nat → Except LaneFault Acc} {as : List Acc}

/-- The path once a load has entered it. -/
def loadInPath (s : State) (w : Wave) (o : Ops) (n : Nat) (as : List Acc) : State :=
  addMem (fillTlbs s w.asid as) (whoOf w) (some .ld) (.load (loadDst w o) n as (acqScope o))

theorem loadBody_issues (hn : NoForks s w) (hc : counter s w.uid .ld < 63) (hb : as.any (accTileBusy s n) = false)
    (hg : gather (acc s w) (accLanes o ls) = .ok as) :
    loadBody o n acc s w ls = goOn (waitsFor (acqScope o).isSome (loadInPath s w o n as) w s.nextFid) w.uid := by
  have hquiet : squashOrder (loadInPath s w o n as) w = loadInPath s w o n as :=
    squashOrder_quiet hn (onlyPath_fillTlbs s w.asid as 0 0).waves
  unfold loadBody
  simp only [whoOf_uid hn.1, Nat.not_le.mpr hc, hg, hb, hn.1, Option.isSome_none, Bool.false_eq_true, if_false]
  cases hacq : acqScope o with
  | none => simp [waitsFor, loadInPath, hacq]
  | some sc =>
    simp only [loadInPath, hacq] at hquiet
    simp [waitsFor, loadInPath, hacq, hquiet]

/-- A load that every check lets pass leaves as one operation. -/
theorem load_sends {i : Instr} (hi : Issues s i w ls) (hx : exec i s = runInstr i s (loadBody o n acc)) (hn : NoForks s w)
    (hc : counter s w.uid .ld < 63) (hb : as.any (accTileBusy s n) = false) (hg : gather (acc s w) (accLanes o ls) = .ok as) :
    Sends i s w (waiting (acqScope o).isSome w s.nextFid) .ld (.load (loadDst w o) n as (acqScope o)) none (fun t => t.cores = s.cores) := by
  have hfill := fillTlbs_frame w.asid as s
  have hcores : (fillTlbs s w.asid as).cores = s.cores := (congrArg State.cores hfill :)
  have hone := oneMore_addMem (fillTlbs s w.asid as) (whoOf w) (some .ld) (.load (loadDst w o) n as (acqScope o))
  refine sends_goOn (t := loadInPath s w o n as) hi hn.1 (acqScope o).isSome s.nextFid ?_ ?_
    (hone.of_flights (congrArg State.flights hfill :) (congrArg State.nextFid hfill :)) ?_
  · rw [hx, runInstr_issues hi, loadBody_issues hn hc hb hg]
  · exact congrArg (fun x : State => { x with flights := s.flights, nextFid := s.nextFid, cores := s.cores }) hfill
  · exact ((congrArg State.cores (waitsFor_frame _ (loadInPath s w o n as) w s.nextFid)).trans hcores :)

end

/-! ### Stores (R187 to R196, R218, R223) -/

section
variable {s : State} {w : Wave} {ls : List Nat} {o : Ops} {n : Nat} {acc : State → Wave → Nat → Except LaneFault Acc} {as : List Acc}

/-- Entries of the release buffer for the lazy lanes of a store. -/
def lazyEntries (s : State) (w : Wave) (o : Ops) (n : Nat) (lz : List (Acc × Nat)) : List RelEnt :=
  lz.map (fun x => { fid := s.nextFid, who := whoOf w, pa := lazyPa x.1, va := x.1.va, size := n, val := x.2, page := x.1.page, sc := o.sc,
                     recorded := false, due := false })

/-- The release buffer with new entries at its end. -/
def buffered (s : State) (die core : Nat) (es : List RelEnt) : State :=
  if es.isEmpty then s else putCore s die core { coreAt s die core with relb := (coreAt s die core).relb ++ es }

/-- The lazy lanes of a store take their entries, and the L1 shows them. -/
def lazyTaken (s : State) (w : Wave) (o : Ops) (n : Nat) (lz : List (Acc × Nat)) : State :=
  lz.foldl (fun st x => l1Update st w.die w.core (lazyPa x.1) (leBytes n x.2)) (buffered s w.die w.core (lazyEntries s w o n lz))

/-- The lanes that store at once enter the path; with none of them the operation is the record of the lazy ones. -/
def storeInPath (s : State) (w : Wave) (n : Nat) (xs : List (Acc × Nat)) : State :=
  if xs.isEmpty then addMem s (whoOf w) (some .st) .rel else addStore s (whoOf w) (some .st) n xs

theorem coreAt_buffered (s : State) (die core : Nat) (es : List RelEnt) :
    coreAt (buffered s die core es) die core = { coreAt s die core with relb := (coreAt s die core).relb ++ es } := by
  unfold buffered
  split
  · next h => simp [List.isEmpty_iff.mp h]
  · exact coreAt_putCore _ _ _ _

theorem buffered_frame (s : State) (die core : Nat) (es : List RelEnt) :
    { buffered s die core es with cores := s.cores } = s ∧ OnlyCore s (buffered s die core es) die core := by
  unfold buffered
  split
  · exact ⟨rfl, fun _ _ => rfl⟩
  · exact ⟨rfl, fun _ hk => stGet_stSet_other _ _ hk _⟩

theorem onlyPath_lazyTaken (s : State) (w : Wave) (o : Ops) (n : Nat) (lz : List (Acc × Nat)) :
    OnlyPath (buffered s w.die w.core (lazyEntries s w o n lz)) (lazyTaken s w o n lz) w.die w.core :=
  onlyPath_foldl _ (fun _ _ => onlyPath_l1Update _ _ _ _ _) _ _

theorem lazyTaken_frame (s : State) (w : Wave) (o : Ops) (n : Nat) (lz : List (Acc × Nat)) : { lazyTaken s w o n lz with cores := s.cores } = s := by
  have hfold (t : State) (xs : List (Acc × Nat)) :
      { xs.foldl (fun st x => l1Update st w.die w.core (lazyPa x.1) (leBytes n x.2)) t with cores := t.cores } = t := by
    induction xs generalizing t with
    | nil => rfl
    | cons x r ih => exact congrArg (fun y : State => { y with cores := t.cores }) (ih (l1Update t w.die w.core (lazyPa x.1) (leBytes n x.2)))
  exact congrArg (fun y : State => { y with cores := s.cores }) ((hfold (buffered s w.die w.core (lazyEntries s w o n lz)) lz).trans rfl)
    |>.trans (buffered_frame s w.die w.core _).1

theorem onlyPath_storeInPath (s : State) (w : Wave) (n : Nat) (xs : List (Acc × Nat)) : OnlyPath s (storeInPath s w n xs) w.die w.core := by
  unfold storeInPath
  split
  · exact onlyPath_addMem _ _ _ _ _ _
  · exact onlyPath_addStore s (whoOf w) _ _ _

theorem oneMore_storeInPath (s : State) (w : Wave) (n : Nat) (xs : List (Acc × Nat)) :
    OneMore s (storeInPath s w n xs) (whoOf w) (some .st) (if xs.isEmpty then .rel else .store n xs) := by
  unfold storeInPath
  split
  · exact oneMore_addMem _ _ _ _
  · exact oneMore_addStore _ _ _ _ _

theorem issueStore_room (hn : NoForks s w) {xs : List (Acc × Nat)}
    (hroom : (coreAt s w.die w.core).relb.length + (splitLazy o xs).1.length ≤ 16) :
    issueStore s w o n xs = goOn (storeInPath (lazyTaken s w o n (splitLazy o xs).1) w n (splitLazy o xs).2) w.uid := by
  have hlazy := lazyTaken_frame s w o n (splitLazy o xs).1
  have hwaves : (storeInPath (lazyTaken s w o n (splitLazy o xs).1) w n (splitLazy o xs).2).waves = s.waves :=
    (onlyPath_storeInPath _ _ _ _).waves.trans (congrArg State.waves hlazy :)
  have hquiet := squashStores_quiet hn hwaves
  unfold issueStore
  simp only [if_neg (Nat.not_lt.mpr hroom)]
  exact congrArg (fun t => goOn t w.uid) (hquiet _ _)

/-- Cached translations keep no release waiting. -/
theorem releaseReady_fillTlbs {eager : Bool} (h : ReleaseReady s w eager) (asid : Nat) (as : List Acc) : ReleaseReady (fillTlbs s asid as) w eager := by
  have hfill := fillTlbs_frame asid as s
  have hfl : (fillTlbs s asid as).flights = s.flights := (congrArg State.flights hfill :)
  have hcores : (fillTlbs s asid as).cores = s.cores := (congrArg State.cores hfill :)
  simp only [ReleaseReady, MergesOver, mergesOut, pathQuiet, hfl, coreAt_of_cores hcores] at h ⊢
  exact h

theorem storeBody_issues (hn : NoForks s w) (hc : counter s w.uid .st < 63) (hb : as.any (accTileBusy s n) = false)
    (hg : gather (acc s w) (accLanes o ls) = .ok as) {xs : List (Acc × Nat)} (hxs : xs = lastLanes (as.map (fun a => (a, opD w o o.ty a.lane))))
    (hr : isRelease o = true → ReleaseReady s w (eagerRelease o xs)) :
    storeBody o n acc s w ls = issueStore (fillTlbs s w.asid as) w o n xs := by
  subst hxs
  unfold storeBody
  simp only [whoOf_uid hn.1, Nat.not_le.mpr hc, hg, hb, hn.1, Option.isNone_none, Option.isSome_none, decide_false, Bool.and_false,
    Bool.false_eq_true, if_false, storeVal]
  split
  · next hrel => exact afterRelease_ready (releaseReady_fillTlbs (hr hrel) w.asid as) _
  · rfl

/-- A store that every check lets pass leaves as one operation, its lazy lanes in the release buffer. -/
theorem store_sends {i : Instr} (hi : Issues s i w ls) (hx : exec i s = runInstr i s (storeBody o n acc)) (hn : NoForks s w)
    (hc : counter s w.uid .st < 63) (hb : as.any (accTileBusy s n) = false) (hg : gather (acc s w) (accLanes o ls) = .ok as)
    {xs : List (Acc × Nat)} (hxs : xs = lastLanes (as.map (fun a => (a, opD w o o.ty a.lane))))
    (hr : isRelease o = true → ReleaseReady s w (eagerRelease o xs))
    (hroom : (coreAt s w.die w.core).relb.length + (splitLazy o xs).1.length ≤ 16) :
    Sends i s w w .st (if (splitLazy o xs).2.isEmpty then .rel else .store n (splitLazy o xs).2) none (fun t =>
      OnlyCore s t w.die w.core ∧
      { coreAt t w.die w.core with l1 := (coreAt s w.die w.core).l1, relb := (coreAt s w.die w.core).relb } = coreAt s w.die w.core ∧
      (coreAt t w.die w.core).relb.map (fun e => (e.pa, e.size, e.val)) =
        (coreAt s w.die w.core).relb.map (fun e => (e.pa, e.size, e.val)) ++ (splitLazy o xs).1.map (fun x => (lazyPa x.1, n, x.2))) := by
  have hfill := fillTlbs_frame w.asid as s
  have hfillc : (fillTlbs s w.asid as).cores = s.cores := (congrArg State.cores hfill :)
  have hbody := storeBody_issues hn hc hb hg hxs hr
  rw [issueStore_room (s := fillTlbs s w.asid as) (noForks_of_waves hn (congrArg State.waves hfill :)) (by rwa [coreAt_of_cores hfillc])] at hbody
  have hlazyf := lazyTaken_frame (fillTlbs s w.asid as) w o n (splitLazy o xs).1
  have hlazy := onlyPath_lazyTaken (fillTlbs s w.asid as) w o n (splitLazy o xs).1
  have hcore := coreAt_buffered (fillTlbs s w.asid as) w.die w.core (lazyEntries (fillTlbs s w.asid as) w o n (splitLazy o xs).1)
  have hbuf := (buffered_frame (fillTlbs s w.asid as) w.die w.core (lazyEntries (fillTlbs s w.asid as) w o n (splitLazy o xs).1)).2
  have hstore := onlyPath_storeInPath (lazyTaken (fillTlbs s w.asid as) w o n (splitLazy o xs).1) w n (splitLazy o xs).2
  rw [coreAt_of_cores hfillc] at hcore
  have hpath := hlazy.trans hstore
  refine sends_goOn (t := storeInPath (lazyTaken (fillTlbs s w.asid as) w o n (splitLazy o xs).1) w n (splitLazy o xs).2)
    hi hn.1 false s.nextFid (by rw [hx, runInstr_issues hi, hbody]; rfl) ?_ ?_ ⟨fun k hk => ?_, ?_, ?_⟩
  · exact ((congrArg (withPathOf s) hstore.frame :).trans (congrArg (withPathOf s) hlazyf :)).trans (congrArg (withPathOf s) hfill :)
  · refine (oneMore_storeInPath _ _ _ _).of_flights ?_ ?_
    · exact (congrArg State.flights (hlazyf.trans rfl) :) |>.trans (congrArg State.flights hfill :)
    · exact (congrArg State.nextFid (hlazyf.trans rfl) :) |>.trans (congrArg State.nextFid hfill :)
  · refine ((hpath.others k hk).trans (hbuf k hk)).trans ?_
    rw [hfillc]
  · have hown := hpath.own
    rw [hcore] at hown
    exact congrArg (fun x : Core => { x with l1 := (coreAt s w.die w.core).l1, relb := (coreAt s w.die w.core).relb }) hown
  · have hrelb := hpath.relb
    rw [hcore] at hrelb
    refine (congrArg (List.map _) hrelb).trans ?_
    simp [lazyEntries, Function.comp_def]

end

/-- Settles O10: the eight instructions are the two shared bodies with an access function each. -/
theorem loadsAndStoresIssue : Obligations.LoadsAndStoresIssue := by
  unfold Obligations.LoadsAndStoresIssue
  refine ⟨fun s w ls o as hn hc hb => ⟨?_, ?_, ?_, ?_⟩, fun s w ls o as hn hc hb => ?_⟩
  · exact fun hi hg => load_sends hi rfl hn hc hb hg
  · exact fun hi hg => load_sends hi rfl hn hc hb hg
  · exact fun hi hg => load_sends hi rfl hn hc hb hg
  · exact fun hi hg => load_sends hi rfl hn hc hb hg
  · intro xs ps c hr hroom
    refine ⟨?_, ?_, ?_, ?_⟩
    all_goals exact fun hi hg => store_sends hi rfl hn hc hb hg rfl hr hroom

end Sys2Proof.Machine
end

section
/-!
PROOFS. Fences and waits (O14): what an acquire does to the core's caches, by scope, and that nothing is left to wait for.
-/
namespace Sys2Proof.Machine

/-! ### A map over a store -/

theorem stGet_map_val {α : Type} {d : α} {g : Nat → α → α} {k : Nat} (hd : g k d = d) (m : Store α) :
    stGet d k (m.map (fun e => (e.1, g e.1 e.2))) = g k (stGet d k m) := by
  induction m with
  | nil => exact hd.symm
  | cons e r ih =>
    obtain ⟨a, x⟩ := e
    by_cases h : k = a
    · subst h
      simp [stGet]
    · simpa [stGet, h] using ih

/-! ### Acquires (R217) -/

/-- A core of the quad marks what its L1 holds as of an older generation. -/
def outdated (quad k : Nat) (c : Core) : Core :=
  if k / 4 == quad && !c.l1.isEmpty then { c with l1old := c.l1.flatMap (fun l => l.sectors.map (fun x => sectorNo l.line x.1)) } else c

/-- The core's caches, emptied. -/
def cachesEmpty (c : Core) : Core := { c with l1 := [], l1old := [], ncache := [], tcache := [] }

theorem outdated_sameButCopies (quad k : Nat) (c : Core) : SameButCopies c (outdated quad k c) := by
  unfold outdated
  split <;> rfl

theorem outdated_cachesEmpty (quad k : Nat) (c : Core) : outdated quad k (cachesEmpty c) = cachesEmpty c := by
  simp [outdated, cachesEmpty]

theorem stGet_newGeneration (s : State) (die core k : Nat) :
    stGet coreDefault k (newGeneration s die core).cores = outdated (coreKey die core / 4) k (stGet coreDefault k s.cores) := by
  refine Eq.trans (congrArg (stGet coreDefault k) (List.map_congr_left fun e _ => ?_)) (stGet_map_val (by simp [outdated, coreDefault]) s.cores)
  unfold outdated
  split <;> rfl

theorem quadAt_newGeneration (s : State) (die core : Nat) :
    (quadAt (newGeneration s die core) (quadOf die core)).gen = ((quadAt s (quadOf die core)).gen + 1) % 256 :=
  congrArg Quad.gen (quadAt_putQuad s (quadOf die core) _)

theorem acquireAt_inside {sc : Scope} (h : sc = .wave ∨ sc = .core) (s : State) (die core : Nat) : acquireAt s die core sc = s := by
  obtain rfl | rfl := h <;> rfl

/-- At quad scope the core's caches are emptied, and no more. -/
theorem acquireAt_quad (s : State) (die core : Nat) :
    acquireAt s die core .quad = putCore s die core (cachesEmpty (coreAt s die core)) := rfl

/-- Beyond the quad a new generation of replicas begins besides. -/
theorem acquireAt_wide {sc : Scope} (hw : sc ≠ .wave) (hc : sc ≠ .core) (hq : sc ≠ .quad) (s : State) (die core : Nat) :
    acquireAt s die core sc = newGeneration (putCore s die core (cachesEmpty (coreAt s die core))) die core := by
  cases sc with
  | wave => exact absurd rfl hw
  | core => exact absurd rfl hc
  | quad => exact absurd rfl hq
  | _ => rfl

theorem newGeneration_frame {s t : State} (h : { t with cores := s.cores } = s) (die core : Nat) :
    { newGeneration t die core with cores := s.cores, quads := s.quads } = s := by
  unfold newGeneration
  exact (congrArg (fun x : State => { x with quads := s.quads }) h :)

theorem acquireAt_frame (s : State) (die core : Nat) (sc : Scope) :
    { acquireAt s die core sc with cores := s.cores, quads := s.quads } = s := by
  by_cases hin : sc = .wave ∨ sc = .core
  · rw [acquireAt_inside hin]
  obtain ⟨hw, hc⟩ := not_or.mp hin
  by_cases hq : sc = .quad
  · rw [hq, acquireAt_quad]
    rfl
  · rw [acquireAt_wide hw hc hq]
    exact newGeneration_frame rfl die core

/-- An acquire beyond the core empties the core's caches. -/
theorem coreAt_acquireAt {sc : Scope} (hw : sc ≠ .wave) (hc : sc ≠ .core) (s : State) (die core : Nat) :
    coreAt (acquireAt s die core sc) die core = cachesEmpty (coreAt s die core) := by
  by_cases hq : sc = .quad
  · rw [hq, acquireAt_quad, coreAt_putCore]
  · rw [acquireAt_wide hw hc hq, coreAt, stGet_newGeneration]
    refine (congrArg (outdated _ _) (coreAt_putCore s die core _)).trans (outdated_cachesEmpty _ _ _)

/-- Other cores lose nothing but that copies of theirs are current. -/
theorem acquireAt_others (s : State) (die core : Nat) (sc : Scope) {k : Nat} (hk : k ≠ coreKey die core) :
    SameButCopies (stGet coreDefault k s.cores) (stGet coreDefault k (acquireAt s die core sc).cores) := by
  have hput (c : Core) : stGet coreDefault k (putCore s die core c).cores = stGet coreDefault k s.cores := stGet_stSet_other _ _ hk _
  by_cases hin : sc = .wave ∨ sc = .core
  · rw [acquireAt_inside hin]
    rfl
  obtain ⟨hw, hc⟩ := not_or.mp hin
  by_cases hq : sc = .quad
  · rw [hq, acquireAt_quad, hput]
    rfl
  · rw [acquireAt_wide hw hc hq, stGet_newGeneration, hput]
    exact outdated_sameButCopies _ _ _

/-- A wave that goes on after an acquire (R217). -/
theorem goOn_acquireAt {s : State} {w w1 : Wave} {t : State} (h : WaveIs s t w.uid w1) (hu : w1.uid = w.uid) (die core : Nat) (sc : Scope) :
    ∃ r, goOn (acquireAt t die core sc) w.uid = .next r ∧ { r with waves := t.waves } = acquireAt t die core sc ∧
      WaveIs s r w.uid (goSeq w1) := by
  have hwaves : (acquireAt t die core sc).waves = t.waves := (congrArg State.waves (acquireAt_frame t die core sc) :)
  have hat : WaveIs s (acquireAt t die core sc) w.uid w1 := by
    simpa only [WaveIs, findWave, hwaves] using h
  obtain ⟨hgo, hwave⟩ := goOn_waveIs hat hu
  exact ⟨_, hgo, (congrArg (fun x : State => { acquireAt t die core sc with waves := x.waves }) (acquireAt_frame t die core sc)).symm.trans rfl, hwave⟩

/-! ### `fence` (R203) -/

theorem ordReleases_iff (ord : Ord) : ordReleases ord = true ↔ ord = .rel ∨ ord = .ar := by cases ord <;> simp [ordReleases]
theorem ordAcquires_iff (ord : Ord) : ordAcquires ord = true ↔ ord = .acq ∨ ord = .ar := by cases ord <;> simp [ordAcquires]

/-- A fence that has nothing to wait for acquires, if it does, and goes on. -/
theorem exec_fence {s : State} {w : Wave} {ls : List Nat} {g : Guard} {sc : Scope} {ord : Ord} (hn : NoForks s w)
    (hi : Issues s (.fence g sc ord) w ls) (hr : ord = .rel ∨ ord = .ar → ReleaseReady s w (beyondCore sc))
    (ha : ord = .acq ∨ ord = .ar → counter s w.uid .ld = 0) :
    exec (.fence g sc ord) s = goOn (if ord = .acq ∨ ord = .ar then acquireAt s w.die w.core sc else s) w.uid := by
  have hexec : exec (.fence g sc ord) s = execFence g sc ord s := rfl
  have hquiet : squashOrder s w = s := squashOrder_quiet hn rfl
  rw [hexec, execFence, runInstr_issues hi]
  simp only [ordReleases_iff, ordAcquires_iff]
  split
  · next hrel =>
    rw [afterRelease_ready (hr hrel)]
    split
    · next hacq => rw [if_pos (ha hacq), hquiet]
    · rfl
  · split
    · next hacq => rw [if_pos (ha hacq), hquiet]
    · rfl

/-! ### `wait` (R204) -/

/-- A wait whose counters are low enough and whose samples are merged is over. -/
theorem waitBody_over {s : State} {w : Wave} (hn : NoForks s w) {ths : List (Cls × Option Nat)} (hc : ∀ c n, (c, some n) ∈ ths → counter s w.uid c ≤ n)
    (hm : (Cls.st, some 0) ∈ ths → MergesOver s w) (k : State → Out) : waitBody s w ths k = k s := by
  have hflush : (if ths.contains (Cls.st, some 0) then flushOwn s w else s) = s := by
    split
    · next h => rw [flushOwn, (hm (List.contains_iff_mem.mp h)).1]; rfl
    · rfl
  have hmeet : countersMeet s w.uid ths = true := by
    refine List.all_eq_true.mpr fun t ht => ?_
    obtain ⟨c, th⟩ := t
    cases th with
    | none => rfl
    | some n => exact decide_eq_true (hc c n ht)
  have hout : (ths.contains (Cls.st, some 0) && mergesOut s w.uid) = false := by
    by_cases h : ths.contains (Cls.st, some 0) = true
    · rw [(hm (List.contains_iff_mem.mp h)).2, Bool.and_false]
    · rw [Bool.not_eq_true _ |>.mp h, Bool.false_and]
  have hquiet : squashOrder s w = s := squashOrder_quiet hn rfl
  simp only [waitBody, hflush, hquiet, hmeet, hout, Bool.not_false, Bool.and_self, if_true]

/-- Settles O14: a fence is its acquire, a wait is nothing, once neither has anything to wait for. -/
theorem fencesAndWaits : Obligations.FencesAndWaits := by
  unfold Obligations.FencesAndWaits
  intro s w ls g hn
  refine ⟨fun sc ord hi hr ha => ?_, fun ld st cp mx tx hi hld hst hcp hmx htx hm => ?_⟩
  · have hat : WaveIs s s w.uid w := ⟨(curWave_found hi.1).2, fun _ _ => rfl⟩
    have hexec := exec_fence hn hi hr ha
    split at hexec
    · next hacq =>
      obtain ⟨t, hgo, hframe, hwave⟩ := goOn_acquireAt hat rfl w.die w.core sc
      have hcores : t.cores = (acquireAt s w.die w.core sc).cores := (congrArg State.cores hframe :)
      have hquads : t.quads = (acquireAt s w.die w.core sc).quads := (congrArg State.quads hframe :)
      refine ⟨t, hexec.trans hgo, ?_, hwave, ?_⟩
      · exact (congrArg (fun x : State => { x with cores := s.cores, quads := s.quads }) hframe :).trans (acquireAt_frame s w.die w.core sc)
      intro c q
      split
      · next h =>
        obtain ⟨-, hw, hc⟩ := h
        refine ⟨(coreAt_of_cores hcores w.die w.core).trans (coreAt_acquireAt hw hc s w.die w.core), fun k hk => ?_, ?_, ?_, ?_⟩
        · rw [hcores]
          exact acquireAt_others s w.die w.core sc hk
        · rintro rfl k hk
          rw [hcores]
          exact stGet_stSet_other _ _ hk _
        · intro hq
          rw [quadAt, hquads, acquireAt_wide hw hc hq]
          exact quadAt_newGeneration _ w.die w.core
        · rintro rfl
          exact hquads
      · next h =>
        have hin : sc = .wave ∨ sc = .core := by
          by_contra hno
          exact h ⟨hacq, not_or.mp hno⟩
        rw [hcores, hquads, acquireAt_inside hin]
        exact ⟨rfl, rfl⟩
    · next hacq =>
      obtain ⟨hgo, hwave⟩ := goOn_waveIs hat rfl
      refine ⟨_, hexec.trans hgo, rfl, hwave, ?_⟩
      rw [if_neg fun h => hacq h.1]
      exact ⟨rfl, rfl⟩
  · refine ⟨w, ?_, onlyWave_putWave (curWave_found hi.1).2 (goSeq_uid w), sameRegs_goSeq w, rfl⟩
    have hexec : exec (.wait g ld st cp mx tx) s = execWait g ld st cp mx tx s := rfl
    rw [hexec, execWait, runInstr_issues hi, waitBody_over hn, goOn_found (curWave_found hi.1).2]
    · simp only [List.mem_cons, Prod.mk.injEq, List.not_mem_nil, or_false]
      rintro c n (⟨rfl, h⟩ | ⟨rfl, h⟩ | ⟨rfl, h⟩ | ⟨rfl, h⟩ | ⟨rfl, h⟩)
      · exact hld n h.symm
      · exact hst n h.symm
      · exact hcp n h.symm
      · exact hmx n h.symm
      · exact htx n h.symm
    · simp only [List.mem_cons, Prod.mk.injEq, reduceCtorEq, false_and, true_and, List.not_mem_nil, or_false, false_or]
      exact fun h => hm h.symm

end Sys2Proof.Machine
end

section
/-!
PROOFS. Scratchpads under a write, and barriers (O15): the instructions leave as operations or wait, and the keeper changes one object.
-/
namespace Sys2Proof.Machine

/-! ### Scratchpads (R17, R29) -/

/-- The same scratchpads stand in both states. -/
def SamePads (s t : State) : Prop := ∀ u, (holder t u).map Wave.pad = (holder s u).map Wave.pad

theorem padRead_eq (s : State) (u a n : Nat) :
    padRead s u a n = (((holder s u).map Wave.pad).map (fun p => padBytes p a n)).getD (List.replicate n 0) := by
  unfold padRead
  cases holder s u <;> rfl

theorem SamePads.padRead {s t : State} (h : SamePads s t) (u a n : Nat) : padRead t u a n = padRead s u a n := by
  rw [padRead_eq, padRead_eq, h u]

theorem samePads_of_same {s t : State} (hw : t.waves = s.waves) (hg : t.ghosts = s.ghosts) : SamePads s t := by
  intro u
  rw [holder, holder, findWave, findWave, hw, hg]

/-- What happens to waves beside their scratchpads does not matter. -/
theorem samePads_of_map {s t : State} {g : Wave → Wave} (hw : t.waves = s.waves.map g) (hgh : t.ghosts = s.ghosts)
    (hg : ∀ x, (g x).uid = x.uid ∧ (g x).pad = x.pad) : SamePads s t := by
  intro u
  rw [holder, holder, findWave_map hw (fun x => (hg x).1), hgh]
  cases findWave s u with
  | none => rfl
  | some w => exact congrArg some (hg w).2

theorem samePads_endFlight (s : State) (f : Flight) : SamePads s (endFlight s f) :=
  samePads_of_map (endFlight_waves s f) (congrArg State.ghosts (endFlight_frame s f) :)
    fun x => ⟨endWait_uid f x, (congrArg Wave.pad (endWait_eq f x) :)⟩

theorem holder_updHolder (s : State) (uid : Nat) (f : Wave → Wave) (hf : ∀ x, (f x).uid = x.uid) (u : Nat) :
    holder (updHolder s uid f) u = (holder s u).map (fun x => if x.uid == uid then f x else x) := by
  have hghosts : (updHolder s uid f).ghosts.find? (fun x => x.uid == u) =
      (s.ghosts.find? (fun x => x.uid == u)).map (fun x => if x.uid == uid then f x else x) := by
    refine (List.find?_map ..).trans (congrArg _ (congrArg (fun p => s.ghosts.find? p) (funext fun x => ?_)))
    simp only [Function.comp_apply]
    split <;> simp [hf]
  rw [holder, holder, findWave_updHolder s uid f hf]
  cases findWave s u with
  | none => exact hghosts
  | some w => rfl

theorem holder_uid {s : State} {u : Nat} {w : Wave} (h : holder s u = some w) : w.uid = u := by
  unfold holder at h
  split at h
  · next hw =>
    obtain rfl := Option.some.inj h
    exact findWave_uid hw
  · simpa using List.find?_some h

/-- A scratchpad with bytes written. -/
def putPad (off : Nat) (bs : List Byte) (w : Wave) : Wave :=
  { w with
    pad := padPut w.pad off bs
    padBad := w.padBad.filter (fun p => !(decide (off ≤ 8 * p) && decide (8 * p + 8 ≤ off + bs.length))) }

theorem padWrite_eq (s : State) (uid off : Nat) (bs : List Byte) : padWrite s uid off bs = updHolder s uid (putPad off bs) := rfl

theorem pads_padWrite (s : State) (uid off : Nat) (bs : List Byte) (u : Nat) :
    (holder (padWrite s uid off bs) u).map Wave.pad = ((holder s u).map Wave.pad).map (fun p => if u = uid then padPut p off bs else p) := by
  rw [padWrite_eq, holder_updHolder s uid (putPad off bs) fun x => rfl]
  cases hu : holder s u with
  | none => rfl
  | some w =>
    obtain rfl := holder_uid hu
    by_cases h : w.uid = uid <;> simp [h, putPad]

/-- The bytes that a write puts into a scratchpad are read back. -/
theorem padRead_padWrite_same {s : State} {uid : Nat} (h : (holder s uid).isSome = true) (off : Nat) (bs : List Byte) :
    padRead (padWrite s uid off bs) uid off bs.length = bs := by
  obtain ⟨w, hw⟩ := Option.isSome_iff_exists.mp h
  rw [padRead_eq, pads_padWrite, hw]
  simp [padBytes, padPut, memBytes_memPut_same]

/-- It reaches no other scratchpad, and of its own no byte beside those written. -/
theorem padRead_padWrite_other {s : State} {uid u off a n : Nat} {bs : List Byte} (h : u ≠ uid ∨ a + n ≤ off ∨ off + bs.length ≤ a) :
    padRead (padWrite s uid off bs) u a n = padRead s u a n := by
  rw [padRead_eq, padRead_eq, pads_padWrite]
  cases holder s u with
  | none => rfl
  | some w =>
    by_cases hu : u = uid
    · simpa [hu, padBytes, padPut] using memBytes_memPut_other w.pad bs (h.resolve_left (not_not_intro hu))
    · simp [hu]

/-! ### Barrier objects (R205) -/

/-- A barrier object that its 16 bytes can hold. -/
def BarObj.Fits (b : BarObj) : Prop := b.reload < 1024 ∧ b.await < 1024 ∧ b.phase < 4096

theorem length_barToBytes (b : BarObj) : (barToBytes b).length = 16 := by simp [barToBytes, length_leBytes]

theorem barOfBytes_barToBytes {b : BarObj} (h : b.Fits) : barOfBytes (barToBytes b) = b := by
  obtain ⟨hr, ha, hp⟩ := h
  obtain ⟨ovr, reload, await, phase, bytes⟩ := b
  simp only at hr ha hp
  have hlen : (leBytes 8 ((if ovr then 2 ^ 32 else 0) + 2 ^ 22 * reload + 2 ^ 12 * await + phase)).length = 8 := length_leBytes _ _
  have hbytes : bytes.toNat % 256 ^ 8 = bytes.toNat := Nat.mod_eq_of_lt bytes.isLt
  simp only [barOfBytes, barToBytes, List.take_left' hlen, List.drop_left' hlen, leNat_leBytes, hbytes, BarObj.mk.injEq, bitAt, field]
  cases ovr <;> simp <;> omega

theorem barAt_fits (s : State) (uid off : Nat) : (barAt s uid off).Fits :=
  ⟨field_lt _ 31 22, field_lt _ 21 12, field_lt _ 11 0⟩

theorem barSettle_fits {b : BarObj} (h : b.Fits) : (barSettle b).Fits := by
  obtain ⟨hr, ha, hp⟩ := h
  unfold barSettle
  split
  · exact ⟨hr, hr, Nat.mod_lt _ (by decide)⟩
  · exact ⟨hr, ha, hp⟩

theorem barApply_fits {b : BarObj} (h : b.Fits) {op : BarOp} (hop : ∀ n, op = .init n → n ≤ 1023) : (barApply b op).Fits := by
  obtain ⟨hr, ha, hp⟩ := h
  cases op with
  | init n =>
    have hn : n < 1024 := Nat.lt_succ_of_le (hop n rfl)
    exact ⟨hn, hn, by simp [barApply]⟩
  | arr n =>
    refine barSettle_fits ?_
    split
    · exact ⟨hr, by simp, hp⟩
    · exact ⟨hr, Nat.lt_of_le_of_lt (Nat.sub_le _ _) ha, hp⟩
  | exp n => exact barSettle_fits ⟨hr, ha, hp⟩

/-! ### The keeper (R206, R207) -/

/-- A wave whose `bar.wait` on the object a completed phase releases. -/
def freedBy (uid off phase : Nat) (w : Wave) : Wave :=
  match w.barHold with
  | some h => if w.uid == uid && h.off == off && !(h.phase == phase) then { w with barHold := some { h with released := true } } else w
  | none => w

theorem freedBy_frame (uid off phase : Nat) (w : Wave) : { freedBy uid off phase w with barHold := w.barHold } = w := by
  unfold freedBy
  split
  · split <;> rfl
  · rfl

theorem barFree_waves (s : State) (uid off phase : Nat) : (barFree s uid off phase).waves = s.waves.map (freedBy uid off phase) := rfl

theorem freedBy_uid (uid off phase : Nat) (w : Wave) : (freedBy uid off phase w).uid = w.uid := (congrArg Wave.uid (freedBy_frame uid off phase w) :)

theorem samePads_barPut (s : State) (uid off : Nat) (new : BarObj) (completed : Bool) :
    SamePads (padWrite s uid off (barToBytes new)) (barPut s uid off new completed) := by
  unfold barPut
  simp only
  split
  · exact samePads_of_map (barFree_waves _ uid off new.phase) rfl
      fun x => ⟨freedBy_uid uid off new.phase x, (congrArg Wave.pad (freedBy_frame uid off new.phase x) :)⟩
  · exact samePads_of_same rfl rfl

theorem barPut_frame (s : State) (uid off : Nat) (new : BarObj) (completed : Bool) :
    { barPut s uid off new completed with waves := s.waves, ghosts := s.ghosts } = s := by
  cases completed <;> rfl

/-- The keeper changes scratchpads and waves only. -/
theorem barDo_frame (s : State) (uid off : Nat) (op : BarOp) : { barDo s uid off op with waves := s.waves, ghosts := s.ghosts } = s :=
  barPut_frame s uid off _ _

/-- What a read of a scratchpad finds after an operation on the object. -/
theorem padRead_barDo (s : State) (uid off : Nat) (op : BarOp) (f : Flight) (u a n : Nat) :
    padRead (endFlight (barDo s uid off op) f) u a n = padRead (padWrite s uid off (barToBytes (barApply (barAt s uid off) op))) u a n :=
  ((samePads_endFlight _ f).padRead u a n).trans ((samePads_barPut s uid off _ _).padRead u a n)

theorem barAt_barDo {s : State} {uid : Nat} (hh : (holder s uid).isSome = true) (off : Nat) {op : BarOp} (hop : ∀ n, op = .init n → n ≤ 1023)
    (f : Flight) : barAt (endFlight (barDo s uid off op) f) uid off = barApply (barAt s uid off) op := by
  have hread := padRead_padWrite_same hh off (barToBytes (barApply (barAt s uid off) op))
  rw [length_barToBytes] at hread
  rw [barAt, padRead_barDo, hread, barOfBytes_barToBytes (barApply_fits (barAt_fits s uid off) hop)]

/-- The wait of an owner that a completed phase releases. -/
theorem findWave_barDo_released {s : State} {uid off : Nat} {op : BarOp} {w : Wave} {h : BarHold} (hw : findWave s uid = some w)
    (hh : w.barHold = some h) (hoff : h.off = off) (hop : ∀ n, op ≠ .init n)
    (hphase : (barApply (barAt s uid off) op).phase ≠ (barAt s uid off).phase) (hnew : h.phase ≠ (barApply (barAt s uid off) op).phase) (f : Flight) :
    ∃ w', findWave (endFlight (barDo s uid off op) f) uid = some w' ∧ w'.barHold = some { h with released := true } := by
  have hdo : barDo s uid off op =
      barFree (padWrite s uid off (barToBytes (barApply (barAt s uid off) op))) uid off (barApply (barAt s uid off) op).phase := by
    unfold barDo barPut
    refine if_pos ?_
    cases op with
    | init n => exact absurd rfl (hop n)
    | _ => simpa using hphase
  obtain rfl := findWave_uid hw
  rw [hdo, findWave_map (endFlight_waves _ f) (endWait_uid f), findWave_map (barFree_waves _ _ _ _) (freedBy_uid _ _ _), padWrite_eq,
    findWave_updHolder s w.uid (putPad off _) fun x => rfl, hw]
  refine ⟨_, rfl, ?_⟩
  rw [endWait_eq]
  simp [freedBy, putPad, hh, hoff, hnew]

/-! ### The instructions (R206, R208) -/

section
variable {s : State} {w : Wave} {ls : List Nat} {o : Ops} {uid off : Nat}

theorem barBody_issues {bad release : Bool} (op : BarOp) (hn : NoForks s w) (hc : counter s w.uid .st < 63)
    (ha : barAddr s w (bitAt o.x 0) (rdS w o.a) bad = .ok (uid, off)) (hr : release = true → ReleaseReady s w true) :
    barBody o bad release op s w = goOn (addMem s (whoOf w) (some .st) (.bar uid off op)) w.uid := by
  have hquiet := squashStores_quiet (t := addMem s (whoOf w) (some .st) (.bar uid off op)) hn rfl
  rw [barBody, if_neg (by omega), ha]
  simp only
  split
  · next h => exact (afterRelease_ready (hr h) _).trans (congrArg (fun t => goOn t w.uid) (hquiet _ _))
  · exact congrArg (fun t => goOn t w.uid) (hquiet _ _)

/-- A barrier instruction whose address is in order leaves as one operation. -/
theorem bar_sends {i : Instr} (hi : Issues s i w ls) {bad : Wave → Bool} {release : Bool} {op : Wave → BarOp}
    (hx : exec i s = runInstr i s (fun s w _ => barBody o (bad w) release (op w) s w)) (hn : NoForks s w) (hc : counter s w.uid .st < 63)
    (ha : barAddr s w (bitAt o.x 0) (rdS w o.a) (bad w) = .ok (uid, off)) (hr : release = true → ReleaseReady s w true) :
    Sends i s w w .st (.bar uid off (op w)) none (fun t => t.cores = s.cores) := by
  refine sends_goOn (t := addMem s (whoOf w) (some .st) (.bar uid off (op w))) hi hn.1 false s.nextFid ?_ rfl (oneMore_addMem _ _ _ _) rfl
  rw [hx, runInstr_issues hi, barBody_issues (op w) hn hc ha hr]
  rfl

/-- `bar.wait` at a good address, after the wave's own operations on the object. -/
theorem exec_barWait (hn : NoForks s w) (hi : Issues s (.barWait o) w ls) (ha : barAddr s w false (rdS w o.a) false = .ok (uid, off))
    (hq : pathBusy s w.uid s.nextFid [({ lane := 0, loc := .pad uid off, va := 0, page := pageNormal }, 16)] = false) :
    exec (.barWait o) s =
      if (barAt s uid off).phase = barArg w o % 4096 ∧ w.barHold ≠ some { off := off, phase := barArg w o % 4096, released := true } then
        .next (if w.barHold = some { off := off, phase := barArg w o % 4096, released := false } then s
          else updHolder s w.uid (fun x => { x with barHold := some { off := off, phase := barArg w o % 4096, released := false } }))
      else goOn (acquireAt (updHolder s w.uid (fun x => { x with barHold := none })) w.die w.core .quad) w.uid := by
  have hexec : exec (.barWait o) s = execBarWait o s := rfl
  have hquiet : squashOrder s w = s := squashOrder_quiet hn rfl
  rw [hexec, execBarWait, runInstr_issues hi, ha]
  simp only [hquiet, hq]
  cases hb : w.barHold with
  | none => simp
  | some h =>
    obtain ⟨hoff, hphase, hrel⟩ := h
    by_cases hmine : hoff = off ∧ hphase = barArg w o % 4096
    · obtain ⟨rfl, rfl⟩ := hmine
      cases hrel <;> simp
    · have hmine' : (hoff == off && hphase == barArg w o % 4096) = false := by simpa using hmine
      have hother (b : Bool) : BarHold.mk hoff hphase hrel ≠ { off := off, phase := barArg w o % 4096, released := b } := by
        simp only [ne_eq, BarHold.mk.injEq]
        tauto
      simp [hmine', hother]

end

/-- Settles O15: the instructions by their shared body, the keeper by the round trip of an object through its 16 bytes. -/
theorem barrierOperations : Obligations.BarrierOperations := by
  unfold Obligations.BarrierOperations
  refine ⟨fun s w ls o uid off hn => ⟨fun hc => ⟨fun hi ha => ?_, fun hr => ⟨fun hi ha => ?_, fun hi ha => ?_⟩⟩, fun hi ha hq => ?_⟩,
    fun s fid uid off f op hf hact hq hh hop => ?_⟩
  · exact bar_sends hi (execBarInit.eq_def o s) hn hc ha (fun h => absurd h Bool.false_ne_true)
  · exact bar_sends hi (execBarArr.eq_def o s) hn hc ha (fun _ => hr)
  · exact bar_sends hi (bad := fun _ => false) (execBarExp.eq_def o s) hn hc ha (fun _ => hr)
  · have hexec := exec_barWait hn hi ha hq
    refine ⟨fun hp hh => ?_, fun hp hh => ?_, fun hover => ?_⟩
    · exact hexec.trans ((if_pos ⟨hp, by simp [hh]⟩).trans (congrArg Host.Outcome.next (if_pos hh)))
    · exact hexec.trans ((if_pos ⟨hp, by simp [hh]⟩).trans (congrArg Host.Outcome.next (if_neg (by simp [hh]))))
    · replace hexec := hexec.trans (if_neg fun h => hover.elim (fun hp => hp h.1) h.2)
      obtain ⟨t, hgo, hframe, hwave⟩ := goOn_acquireAt (waveIs_updHolder (curWave_found hi.1).2 (fun x => { x with barHold := none }) fun _ => rfl)
        rfl w.die w.core .quad
      rw [acquireAt_quad] at hframe
      have hcores := (congrArg State.cores hframe :)
      refine ⟨t, hexec.trans hgo, ?_, hwave, fun k hk => ?_, ?_⟩
      · exact (congrArg (fun x : State => { x with waves := s.waves, ghosts := s.ghosts, cores := s.cores }) hframe :)
      · exact (congrArg (stGet coreDefault k) hcores).trans (stGet_stSet_other _ _ hk _)
      · exact (congrArg (stGet coreDefault _) hcores).trans (stGet_stSet_same _ _ _ _)
  · have hexec : exec (.barrierOperation fid) s = execBarrierOperation fid s := rfl
    have hframe := endFlight_frame (barDo s uid off op) f
    have hdo := barDo_frame s uid off op
    have hat := barAt_barDo hh off hop f
    refine ⟨endFlight (barDo s uid off op) f, ?_, ?_, ?_, fun a ha => ?_, fun u a hu => ?_, fun w h hw hb hoff hinit hphase hnew => ?_, ?_⟩
    · rw [hexec, execBarrierOperation, findFlight_some hf]
      simp only [hact] at hq ⊢
      rw [hq]
      rfl
    · exact ((congrArg State.mem hframe :).trans (congrArg State.mem hdo :) :)
    · exact ((congrArg State.cores hframe :).trans (congrArg State.cores hdo :) :)
    · rw [padRead_barDo, padRead_padWrite_other]
      rw [length_barToBytes]
      omega
    · rw [padRead_barDo, padRead_padWrite_other (.inl hu)]
    · rw [hat] at hphase hnew
      exact findWave_barDo_released hw hb hoff hinit hphase hnew f
    · intro b settled
      rw [hat]
      cases op with
      | init n => rfl
      | arr n =>
        by_cases h : n ≤ b.await
        · exact (congrArg barSettle (if_neg (Nat.not_lt.mpr h))).trans (if_pos h).symm
        · exact (congrArg barSettle (if_pos (Nat.lt_of_not_le h))).trans (if_neg h).symm
      | exp n => rfl

end Sys2Proof.Machine
end

section
/-!
PROOFS. Stores at their homes and their late events (O16). A lane's write is described by the places it reaches and leaves alone; the lanes of
a store then add up, and what follows them (marks of poison, records of lazy releases, the end of the operation) moves no byte.
-/
namespace Sys2Proof.Machine

/-! ### Places and their bytes -/

/-- The bytes at a place of memory or of a scratchpad. -/
def bytesIn (s : State) (l : Loc) (n : Nat) : List Byte :=
  match l with
  | .mem pa => memBytes s.mem pa n
  | .pad u off => padRead s u off n

/-- A place of memory, or of a scratchpad that is there. -/
def PlaceStands (s : State) (l : Loc) : Prop :=
  match l with
  | .mem _ => True
  | .pad u _ => (holder s u).isSome = true

theorem locHit_comm (a b : Loc) (na nb : Nat) : locHit a na b nb = locHit b nb a na := by
  cases a <;> cases b <;> simp only [locHit] <;> grind

/-- Every byte of memory, of the host's and of the scratchpads stands as it was. -/
structure SameBytes (s t : State) : Prop where
  mem : t.mem = s.mem
  host : t.hostMem = s.hostMem
  pads : SamePads s t

theorem SamePads.trans {a b c : State} (h : SamePads a b) (g : SamePads b c) : SamePads a c := fun u => (g u).trans (h u)

theorem SamePads.holder_isSome {s t : State} (h : SamePads s t) (u : Nat) : (holder t u).isSome = (holder s u).isSome := by
  have hu := congrArg Option.isSome (h u)
  simpa using hu

theorem SameBytes.trans {a b c : State} (h : SameBytes a b) (g : SameBytes b c) : SameBytes a c :=
  ⟨g.mem.trans h.mem, g.host.trans h.host, h.pads.trans g.pads⟩

theorem SameBytes.bytesIn {s t : State} (h : SameBytes s t) (l : Loc) (n : Nat) : bytesIn t l n = bytesIn s l n := by
  cases l with
  | mem pa => exact congrArg (fun m => memBytes m pa n) h.mem
  | pad u off => exact h.pads.padRead u off n

theorem sameBytes_of_caches {s t : State} (h : OnlyCaches s t) : SameBytes s t := ⟨h.mem, h.hostMem, samePads_of_same h.waves h.ghosts⟩

theorem sameBytes_updHolder (s : State) (uid : Nat) (f : Wave → Wave) (hf : ∀ x, (f x).uid = x.uid ∧ (f x).pad = x.pad) :
    SameBytes s (updHolder s uid f) := by
  refine ⟨rfl, rfl, fun u => ?_⟩
  rw [holder_updHolder _ _ _ fun x => (hf x).1]
  cases holder s u with
  | none => rfl
  | some w =>
    simp only [Option.map_some]
    split
    · rw [(hf w).2]
    · rfl

/-! ### One lane's write (R194, R406) -/

/-- `t` is `s` with bytes written at a place: they stand there, and no place beside it and no mark of a sector beside it changed. -/
structure Wrote (s t : State) (l : Loc) (n : Nat) (bs : List Byte) : Prop where
  host : t.hostMem = s.hostMem
  holders : ∀ u, (holder t u).isSome = (holder s u).isSome
  landed : PlaceStands s l → bytesIn t l n = bs
  beside : ∀ m k, locHit l n m k = false → bytesIn t m k = bytesIn s m k
  marks : ∀ k, locHit l n (.mem (32 * k)) 32 = false → (k ∈ t.poison ↔ k ∈ s.poison)

theorem Wrote.caches {s t r : State} {l : Loc} {n : Nat} {bs : List Byte} (h : Wrote s t l n bs) (hc : OnlyCaches t r) : Wrote s r l n bs := by
  obtain ⟨hhost, hholders, hlanded, hbeside, hmarks⟩ := h
  have hsame := sameBytes_of_caches hc
  refine ⟨hsame.host.trans hhost, fun u => (hsame.pads.holder_isSome u).trans (hholders u), fun hl => (hsame.bytesIn l n).trans (hlanded hl),
    fun m k hm => (hsame.bytesIn m k).trans (hbeside m k hm), fun k hk => ?_⟩
  rw [hc.poison]
  exact hmarks k hk

theorem wrote_putMem (s : State) (pa n : Nat) (bs : List Byte) (hn : bs.length = n) : Wrote s (putMem s pa bs) (.mem pa) n bs := by
  subst hn
  have hpads : SamePads s (putMem s pa bs) := samePads_of_same rfl rfl
  refine ⟨rfl, fun u => hpads.holder_isSome u, fun _ => memBytes_memPut_same _ _ _, fun m k hm => ?_, fun k hk => ?_⟩
  · cases m with
    | mem qa =>
      refine memBytes_memPut_other _ _ ?_
      simp only [locHit, Bool.and_eq_false_iff, decide_eq_false_iff_not] at hm
      omega
    | pad u off => exact hpads.padRead u off k
  · simp only [locHit, Bool.and_eq_false_iff, decide_eq_false_iff_not] at hk
    simp only [putMem, List.mem_filter, Bool.not_eq_true', Bool.and_eq_false_iff, decide_eq_false_iff_not, and_iff_left_iff_imp]
    omega

theorem wrote_padWrite (s : State) (u off n : Nat) (bs : List Byte) (hn : bs.length = n) : Wrote s (padWrite s u off bs) (.pad u off) n bs := by
  subst hn
  refine ⟨rfl, fun v => ?_, fun hl => padRead_padWrite_same hl off bs, fun m k hm => ?_, fun _ _ => Iff.rfl⟩
  · simpa using congrArg Option.isSome (pads_padWrite s u off bs v)
  · cases m with
    | mem qa => rfl
    | pad v a =>
      refine padRead_padWrite_other ?_
      simp only [locHit, Bool.and_eq_false_iff, decide_eq_false_iff_not, beq_eq_false_iff_ne] at hm
      grind

theorem onlyCaches_dropReplica (s : State) (die core pa : Nat) : OnlyCaches s (dropReplica s die core pa) :=
  (onlyCaches_putQuad s (quadOf die core) _).trans (onlyCaches_markOld _ die core _ _)

theorem onlyCaches_dropUnits (s : State) (die core pa : Nat) : OnlyCaches s (dropUnits s die core pa) := onlyCaches_putCore s die core _

theorem onlyCaches_dropLines (die core : Nat) (ls : List Nat) (s : State) :
    OnlyCaches s (ls.foldl (fun st l => dropUnits (dropReplica st die core l) die core l) s) :=
  onlyCaches_foldl (fun st l => dropUnits (dropReplica st die core l) die core l)
    (fun st l => (onlyCaches_dropReplica st die core l).trans (onlyCaches_dropUnits _ die core l)) ls s

/-- A write of a core at a home is the write of the bytes; the rest moves copies. -/
theorem onlyCaches_homeWrite (s : State) (die core : Nat) (pg : Page) (pa : Nat) (bs : List Byte) :
    OnlyCaches (putMem s pa bs) (homeWrite s die core pg pa bs) :=
  (onlyCaches_l2Access _ pg true pa bs.length).trans (onlyCaches_dropLines die core _ _)

theorem wrote_writeAcc (s : State) (who : Who) (seen : Bool) {a : Acc} (ha : a.page.ptype ≠ .device) (n : Nat) (bs : List Byte)
    (hn : bs.length = n) : Wrote s (writeAcc s who seen a bs) a.loc n bs := by
  unfold writeAcc
  split
  · next u off hl => exact hl ▸ wrote_padWrite s u off n bs hn
  · next pa hl =>
    rw [hl, if_neg (by simpa using ha)]
    have hput := (wrote_putMem s pa n bs hn).caches (onlyCaches_homeWrite s who.die who.core a.page pa bs)
    cases seen with
    | true => exact hput
    | false => exact hput.caches (onlyCaches_putCore _ _ _ _)

/-! ### The lanes of a store (R191, R194) -/

/-- `t` is `s` with the lanes of a store written in their order. -/
structure WroteLanes (s t : State) (n : Nat) (xs : List (Acc × Nat)) : Prop where
  host : t.hostMem = s.hostMem
  beside : ∀ m k, (∀ x ∈ xs, locHit x.1.loc n m k = false) → bytesIn t m k = bytesIn s m k
  landed : (∀ x ∈ xs, PlaceStands s x.1.loc) → xs.Pairwise (fun x y => locHit x.1.loc n y.1.loc n = false) →
    ∀ x ∈ xs, bytesIn t x.1.loc n = leBytes n x.2
  marks : ∀ k, (∀ x ∈ xs, locHit x.1.loc n (.mem (32 * k)) 32 = false) → (k ∈ t.poison ↔ k ∈ s.poison)

theorem Wrote.placeStands {s t : State} {l m : Loc} {n : Nat} {bs : List Byte} (h : Wrote s t l n bs) (hm : PlaceStands s m) : PlaceStands t m := by
  cases m with
  | mem pa => trivial
  | pad u off => exact (h.holders u).trans hm

theorem wroteLanes_foldl (who : Who) (seen : Bool) (n : Nat) {xs : List (Acc × Nat)} (hd : ∀ x ∈ xs, x.1.page.ptype ≠ .device) (s : State) :
    WroteLanes s (xs.foldl (fun st x => writeAcc st who seen x.1 (leBytes n x.2)) s) n xs := by
  induction xs generalizing s with
  | nil => exact ⟨rfl, fun _ _ _ => rfl, fun _ _ x hx => by simp at hx, fun _ _ => Iff.rfl⟩
  | cons x r ih =>
    have hx := wrote_writeAcc s who seen (hd x (by simp)) n (leBytes n x.2) (length_leBytes n x.2)
    obtain ⟨hhost, hbeside, hlanded, hmarks⟩ := ih (fun y hy => hd y (by simp [hy])) (writeAcc s who seen x.1 (leBytes n x.2))
    refine ⟨hhost.trans hx.host, fun m k hm => ?_, fun hstand hpair => ?_, fun k hk => ?_⟩
    · exact (hbeside m k fun y hy => hm y (by simp [hy])).trans (hx.beside m k (hm x (by simp)))
    · obtain ⟨hfirst, hrest⟩ := List.pairwise_cons.mp hpair
      have hlater := hlanded (fun y hy => hx.placeStands (hstand y (by simp [hy]))) hrest
      rintro y (_ | ⟨_, hy⟩)
      · refine (hbeside x.1.loc n fun y hy => ?_).trans (hx.landed (hstand x (by simp)))
        rw [locHit_comm]
        exact hfirst y hy
      · exact hlater y hy
    · exact (hmarks k fun y hy => hk y (by simp [hy])).trans (hx.marks k (hk x (by simp)))

/-! ### Sectors that the lanes cover together (R406, log 113) -/

theorem mem_memRanges {n : Nat} {xs : List (Acc × Nat)} {r : Nat × Nat} :
    r ∈ memRanges (xs.map (fun x => (x.1, n))) ↔ ∃ x ∈ xs, x.1.loc = .mem r.1 ∧ r.2 = n := by
  obtain ⟨pa, k⟩ := r
  simp only [memRanges, List.mem_filterMap, List.mem_map, exists_exists_and_eq_and]
  refine exists_congr fun x => and_congr_right fun _ => ?_
  cases x.1.loc <;> simp [eq_comm]

/-- A byte lies in a range of the lanes when a lane reaches it. -/
theorem laneReaches_iff {n a : Nat} {xs : List (Acc × Nat)} :
    ((memRanges (xs.map (fun x => (x.1, n)))).any (fun r => decide (r.1 ≤ a) && decide (a < r.1 + r.2))) = true ↔
      ∃ x ∈ xs, locHit x.1.loc n (.mem a) 1 = true := by
  simp only [List.any_eq_true, mem_memRanges, Bool.and_eq_true, decide_eq_true_eq]
  constructor
  · rintro ⟨⟨pa, k⟩, ⟨x, hx, hl, rfl⟩, h1, h2⟩
    refine ⟨x, hx, ?_⟩
    simp only [hl, locHit, Bool.and_eq_true, decide_eq_true_eq]
    omega
  · rintro ⟨x, hx, hhit⟩
    cases hl : x.1.loc with
    | pad u off => simp [hl, locHit] at hhit
    | mem pa =>
      simp only [hl, locHit, Bool.and_eq_true, decide_eq_true_eq] at hhit
      exact ⟨(pa, n), ⟨x, hx, hl, rfl⟩, by omega, by omega⟩

theorem wholly_lanes_iff {n k : Nat} {xs : List (Acc × Nat)} :
    wholly (memRanges (xs.map (fun x => (x.1, n)))) (32 * k) 32 = true ↔ ∀ i, i < 32 → ∃ x ∈ xs, locHit x.1.loc n (.mem (32 * k + i)) 1 = true := by
  simp only [wholly, List.all_eq_true, List.mem_range, laneReaches_iff]

theorem onlyCaches_healL1 (s : State) (die core : Nat) (rs : List (Nat × Nat)) : OnlyCaches s (healL1 s die core rs) := by
  unfold healL1
  simp only
  split
  · exact .refl s
  · exact onlyCaches_putCore _ _ _ _

/-- A scratchpad whose words that the lanes cover whole lose their marks. -/
def healPad (n : Nat) (xs : List (Acc × Nat)) (u : Nat) (w : Wave) : Wave :=
  let rs := xs.filterMap (fun x => match x.1.loc with | .pad v off => if v == u then some (off, n) else none | .mem _ => none)
  { w with padBad := w.padBad.filter (fun p => !wholly rs (8 * p) 8) }

/-- Marks of scratchpad words are no bytes. -/
theorem healPads_same (s : State) (n : Nat) (xs : List (Acc × Nat)) : SameBytes s (healPads s n xs) ∧ (healPads s n xs).poison = s.poison := by
  have hfold (us : List Nat) (s : State) : SameBytes s (us.foldl (fun st u => updHolder st u (healPad n xs u)) s) ∧
      (us.foldl (fun st u => updHolder st u (healPad n xs u)) s).poison = s.poison := by
    induction us generalizing s with
    | nil => exact ⟨⟨rfl, rfl, fun _ => rfl⟩, rfl⟩
    | cons u r ih =>
      obtain ⟨hsame, hpoison⟩ := ih (updHolder s u (healPad n xs u))
      exact ⟨(sameBytes_updHolder s u (healPad n xs u) fun x => ⟨rfl, rfl⟩).trans hsame, hpoison⟩
  exact hfold _ s

/-- What follows the lanes of a store: sectors they cover whole lose their marks. -/
theorem performStore_heals (s : State) (f : Flight) (n : Nat) (xs : List (Acc × Nat)) :
    let t := xs.foldl (fun st x => writeAcc st f.who f.vis.isSome x.1 (leBytes n x.2)) s
    SameBytes t (performStore s f n xs) ∧
    (performStore s f n xs).poison = t.poison.filter (fun k => !wholly (memRanges (xs.map (fun x => (x.1, n)))) (32 * k) 32) := by
  intro t
  have hhome : SameBytes t (healHome t (memRanges (xs.map (fun x => (x.1, n))))) := ⟨rfl, rfl, samePads_of_same rfl rfl⟩
  unfold performStore
  simp only
  split
  · obtain ⟨hsame, hpoison⟩ := healPads_same (healHome t (memRanges (xs.map (fun x => (x.1, n))))) n xs
    exact ⟨hhome.trans hsame, hpoison⟩
  · have hl1 := onlyCaches_healL1 (healHome t (memRanges (xs.map (fun x => (x.1, n))))) f.who.die f.who.core (memRanges (xs.map (fun x => (x.1, n))))
    obtain ⟨hsame, hpoison⟩ := healPads_same (healL1 (healHome t (memRanges (xs.map (fun x => (x.1, n))))) f.who.die f.who.core
      (memRanges (xs.map (fun x => (x.1, n))))) n xs
    exact ⟨(hhome.trans (sameBytes_of_caches hl1)).trans hsame, hpoison.trans hl1.poison⟩

/-! ### The end of a store (R194, R223) -/

theorem onlyCaches_recordReleases (s : State) (f : Flight) : OnlyCaches s (recordReleases s f) := by
  unfold recordReleases
  simp only
  refine OnlyCaches.trans ?_ (onlyCaches_foldl (fun st (e : RelEnt) => dropReplica st f.who.die f.who.core e.pa)
    (fun st e => onlyCaches_dropReplica st _ _ e.pa) _ _)
  split
  · exact onlyCaches_putCore _ _ _ _
  · exact .refl s

/-- A part of a store ends: flights change, and waves that waited for it. -/
theorem endPart_frame (s : State) (f : Flight) : { endPart s f with waves := s.waves, flights := s.flights } = s := by
  unfold endPart
  split
  · rfl
  · exact endFlight_frame s f

theorem sameBytes_endPart (s : State) (f : Flight) : SameBytes s (endPart s f) := by
  have hframe := endPart_frame s f
  refine ⟨(congrArg State.mem hframe :), (congrArg State.hostMem hframe :), ?_⟩
  unfold endPart
  split
  · exact samePads_of_same rfl rfl
  · exact samePads_endFlight s f

/-- Nothing that the core shows stands ahead of an operation on its quiet path. -/
theorem homeBusy_quiet {s : State} {f g : Flight} (h : QuietPath s f) (hid : g.id = f.id) (hwho : g.who = f.who) (rs : List (Nat × Nat)) :
    homeBusy s g rs = false := by
  obtain ⟨-, hseen, hrel⟩ := h
  have hnone : (coreAt s g.who.die g.who.core).relb = [] := NoReleases.coreAt hrel _ _
  unfold homeBusy
  simp only [hnone, List.any_nil, Bool.or_false, List.any_eq_false, Bool.and_eq_true, not_and, Bool.not_eq_true, beq_iff_eq, Bool.not_eq_true',
    beq_eq_false_iff_ne]
  rintro x hx ⟨⟨hne, hdie⟩, hcore⟩
  split
  · next v n xs hv hact => exact absurd ((congrArg Flight.id (hseen x hx (hwho ▸ hdie) (hwho ▸ hcore) (by simp [hv]))).trans hid.symm) hne
  · rfl

/-- A store that has its turn is performed. -/
theorem exec_storeCompletion {s : State} {fid n : Nat} {f : Flight} {xs : List (Acc × Nat)} (hf : InFlight s fid f) (hact : f.act = .store n xs)
    (hq : QuietPath s f) : exec (.storeCompletion fid) s = .next (endPart (recordReleases (performStore s f n xs) f) f) := by
  have hexec : exec (.storeCompletion fid) s = execStoreCompletion fid s := rfl
  have hturn := hq.1
  have hrec : recordBusy s f (releaseRanges s f) = false := homeBusy_quiet (g := { f with vis := some f.id }) hq rfl rfl _
  rw [hexec, execStoreCompletion, findFlight_some hf]
  simp only [hact] at hturn ⊢
  rw [pathTurn, hact, if_neg (by simp [hturn]), homeBusy_quiet hq rfl rfl, hrec, afterLazy_none hq.2.2]
  rfl

/-! ### Late events of stores (R155, R224) -/

/-- Every core differs at most in its copies of memory. -/
def CopiesOnly (s t : State) : Prop := ∀ k, SameButCopies (stGet coreDefault k s.cores) (stGet coreDefault k t.cores)

/-- A core without its copies of memory. -/
def bare (c : Core) : Core := { c with l1 := [], l1old := [], ncache := [], tcache := [] }

theorem sameButCopies_iff {c d : Core} : SameButCopies c d ↔ bare d = bare c := by
  constructor
  · intro h
    exact (congrArg bare h :)
  · intro h
    exact (congrArg (fun x : Core => { x with l1 := c.l1, l1old := c.l1old, ncache := c.ncache, tcache := c.tcache }) h :)

theorem CopiesOnly.trans {a b c : State} (h : CopiesOnly a b) (g : CopiesOnly b c) : CopiesOnly a c := fun k =>
  sameButCopies_iff.mpr ((sameButCopies_iff.mp (g k)).trans (sameButCopies_iff.mp (h k)))

theorem copiesOnly_of_cores {s t : State} (h : t.cores = s.cores) : CopiesOnly s t := fun k => by rw [h]; rfl

theorem copiesOnly_foldl {α : Type} (f : State → α → State) (hf : ∀ s a, CopiesOnly s (f s a)) (l : List α) (s : State) :
    CopiesOnly s (l.foldl f s) := by
  induction l generalizing s with
  | nil => exact copiesOnly_of_cores rfl
  | cons a r ih => exact (hf s a).trans (ih _)

theorem copiesOnly_markOld (s : State) (die core line : Nat) (p : Nat → List Byte → Bool) : CopiesOnly s (markOld s die core line p) := by
  intro k
  refine sameButCopies_iff.mpr (stGet_map_field bare coreDefault (fun e => ?_) k s.cores)
  split
  · split <;> exact ⟨rfl, rfl⟩
  · exact ⟨rfl, rfl⟩

theorem copiesOnly_putCore {s : State} {die core : Nat} {c : Core} (h : bare c = bare (coreAt s die core)) : CopiesOnly s (putCore s die core c) := by
  intro k
  refine sameButCopies_iff.mpr ?_
  by_cases hk : k = coreKey die core
  · subst hk
    exact (congrArg bare (coreAt_putCore s die core c)).trans h
  · exact congrArg bare (stGet_stSet_other _ _ hk _)

theorem copiesOnly_dropReplica (s : State) (die core pa : Nat) : CopiesOnly s (dropReplica s die core pa) := copiesOnly_markOld _ die core _ _

theorem copiesOnly_dropUnits (s : State) (die core pa : Nat) : CopiesOnly s (dropUnits s die core pa) := copiesOnly_putCore rfl

theorem copiesOnly_homeWrite (s : State) (die core : Nat) (pg : Page) (pa : Nat) (bs : List Byte) : CopiesOnly s (homeWrite s die core pg pa bs) :=
  (copiesOnly_of_cores (congrArg State.cores (onlyStored_memWrite s pg pa bs) :)).trans
    (copiesOnly_foldl _ (fun st l => (copiesOnly_dropReplica st die core l).trans (copiesOnly_dropUnits _ die core l)) _ _)

theorem exec_lazyWriteBack {s : State} {die core : Nat} {e : RelEnt} (h : lazyHead (coreAt s die core) = some e) :
    exec (.lazyWriteBack die core) s = .next (homeWrite (putCore s die core { coreAt s die core with relb := (coreAt s die core).relb.drop 1 })
      die core e.page e.pa (leBytes e.size e.val)) := by
  have hexec : exec (.lazyWriteBack die core) s = execLazyWriteBack die core s := rfl
  rw [hexec, execLazyWriteBack, h]

theorem mem_natsFrom {a n p : Nat} : p ∈ natsFrom a n ↔ a ≤ p ∧ p < a + n := by
  induction n generalizing a with
  | zero => simp [natsFrom]
  | succ n ih =>
    rw [natsFrom, List.mem_cons, ih]
    omega

/-- The sectors of a range. -/
theorem mem_sectors {pa n p : Nat} : p ∈ natsFrom (pa / 32) ((pa + n + 31) / 32 - pa / 32) ↔ pa / 32 ≤ p ∧ 32 * p < pa + n := by
  rw [mem_natsFrom]
  omega

theorem mem_poisonSectors {s : State} {ss : List Nat} {p : Nat} : p ∈ (poisonSectors s ss).poison ↔ p ∈ s.poison ∨ p ∈ ss := mem_unionNat

/-- The record that a late error sends to the context's error node. -/
def LateRec (c : Ctx) (who : Who) (addr : W64) (g : Flight) : Prop :=
  ∃ r, g.act = .record who.die r true ∧ r.node = c.errn ∧ r.weight = 0 ∧ r.pay = errWords 1 7 who addr

/-- A late error of poisoned data puts one operation at the end of those in flight, its record. -/
theorem lateRecord_sends {s : State} {who : Who} {c : Ctx} (h : findCtx s who.asid = some c) (addr : W64) :
    ∃ g, (lateRecord s who 1 cPoison addr).flights = s.flights ++ [g] ∧ g.id = s.nextFid ∧ g.cls = none ∧ LateRec c who addr g := by
  simp only [lateRecord, sendError, h]
  exact ⟨_, addFlight_flights _ _ _ _ _, rfl, rfl, _, rfl, rfl, rfl, rfl⟩

theorem mem_dropHeld {uid : Nat} {c : Cls} {g : Flight} (hg : g.cls = none) {fs : List Flight} (h : g ∈ fs) : g ∈ dropHeld uid c fs := by
  induction fs with
  | nil => simp at h
  | cons x r ih =>
    unfold dropHeld
    split
    · next hx =>
      split
      · refine ih ((List.mem_cons.mp h).resolve_left ?_)
        rintro rfl
        simp [hg] at hx
      · exact h
    · rcases List.mem_cons.mp h with rfl | h
      · exact List.mem_cons_self
      · exact List.mem_cons_of_mem _ (ih h)

/-- An operation of no class stays in flight when another one ends. -/
theorem mem_endPart {s : State} {f g : Flight} (hg : g ∈ s.flights) (hid : g.id ≠ f.id) (hcls : g.cls = none)
    (honly : ∀ x ∈ s.flights, x.id = g.id → ∀ n xs, x.act ≠ .store n xs) : g ∈ (endPart s f).flights := by
  have hkeep (h : Flight) (hh : g.id ≠ h.id) {fs : List Flight} (hfs : g ∈ fs) : g ∈ fs.map (fun x => if x.id == h.id then h else x) :=
    List.mem_map.mpr ⟨g, hfs, by simp [hh]⟩
  have hdrop : g ∈ (dropFlight s f.id).flights := List.mem_filter.mpr ⟨hg, by simp [hid]⟩
  unfold endPart
  split
  · next x hx =>
    unfold lanesOut at hx
    split at hx
    · have hmem := List.mem_of_find?_eq_some hx
      have hstore := List.find?_some hx
      refine hkeep { x with cls := f.cls } (fun he => ?_) hdrop
      simp only [Bool.and_eq_true] at hstore
      split at hstore
      · next n xs hact => exact honly x hmem he.symm n xs hact
      · simp at hstore
    · simp at hx
  · unfold endFlight completeFlight
    cases hc : f.cls with
    | none => exact hdrop
    | some c => exact mem_dropHeld hcls (hkeep { f with cls := some c, act := .nop, held := true, rr := none } hid hg)

/-- Poisoned data of a store: its sectors are poisoned, a record is sent, and the store ends. -/
theorem exec_lateError_store {s : State} {fid n : Nat} {f : Flight} {xs : List (Acc × Nat)} (hf : InFlight s fid f) (hact : f.act = .store n xs)
    (hs : storeSectors n xs ≠ []) (hb : recordBusy s f (releaseRanges s f) = false) :
    exec (.lateError fid) s = .next (endPart (recordReleases (lateRecord (poisonSectors s (storeSectors n xs)) f.who 1 cPoison
      (BitVec.ofNat 64 ((xs.map (fun x => x.1.va)).headD 0))) f) f) := by
  have hexec : exec (.lateError fid) s = execLateError fid s := rfl
  obtain ⟨p, ps, hsec⟩ := List.exists_cons_of_ne_nil hs
  rw [hexec, execLateError, if_pos (by rw [hf.1]; rfl), findFlight_some hf, lateError, hact]
  simp only [hsec, hb]
  rfl

theorem exec_lateError_lazy {s : State} {fid k : Nat} {e : RelEnt} (hf : findFlight s fid = none)
    (hk : s.cores.findSome? (fun c => (lazyHead c.2).bind (fun e => if e.fid == fid then some (c.1, e) else none)) = some (k, e)) :
    exec (.lateError fid) s = .next (lateRecord (poisonSectors (putCore s (k / 128) (k % 128)
      { coreAt s (k / 128) (k % 128) with relb := (coreAt s (k / 128) (k % 128)).relb.drop 1 })
        (natsFrom (e.pa / 32) ((e.pa + e.size + 31) / 32 - e.pa / 32))) e.who 1 cPoison (BitVec.ofNat 64 e.va)) := by
  have hexec : exec (.lateError fid) s = execLateError fid s := rfl
  rw [hexec, execLateError, hf, lateLazy, hk]
  rfl

/-- The release buffers do not change as sectors are poisoned. -/
theorem relb_poisonSectors (s : State) (ss : List Nat) (die core : Nat) : (coreAt (poisonSectors s ss) die core).relb = (coreAt s die core).relb := by
  unfold coreAt poisonSectors
  refine stGet_map_field Core.relb coreDefault (fun e => ?_) _ s.cores
  exact ⟨rfl, rfl⟩

theorem lateRecord_launches (s : State) (who : Who) (addr : W64) : OnlyLaunches s (lateRecord s who 1 cPoison addr) :=
  onlyLaunches_sendError _ _ _ _ _ _

/-- What a record on its way leaves as it was, and that it is on its way. -/
theorem lateRecord_kept {r : State} {who : Who} {c : Ctx} (hc : findCtx r who.asid = some c) (addr : W64) :
    (lateRecord r who 1 cPoison addr).mem = r.mem ∧ (lateRecord r who 1 cPoison addr).poison = r.poison ∧
    (lateRecord r who 1 cPoison addr).cores = r.cores ∧
    ∃ g ∈ (lateRecord r who 1 cPoison addr).flights, g.id = r.nextFid ∧ LateRec c who addr g := by
  have hlate := lateRecord_launches r who addr
  obtain ⟨g, hflights, hid, -, hrec⟩ := lateRecord_sends hc addr
  exact ⟨hlate.mem, (congrArg State.poison hlate :), (congrArg State.cores hlate :), g, by simp [hflights], hid, hrec⟩

/-- The same once the store ends that the record speaks of. -/
theorem lateRecord_endPart {r : State} {f : Flight} {c : Ctx} (hf : f ∈ r.flights) (hids : ∀ g ∈ r.flights, g.id < r.nextFid)
    (hc : findCtx r f.who.asid = some c) (addr : W64) :
    (endPart (recordReleases (lateRecord r f.who 1 cPoison addr) f) f).mem = r.mem ∧
    (endPart (recordReleases (lateRecord r f.who 1 cPoison addr) f) f).poison = r.poison ∧
    ∃ g ∈ (endPart (recordReleases (lateRecord r f.who 1 cPoison addr) f) f).flights, g.id = r.nextFid ∧ LateRec c f.who addr g := by
  obtain ⟨g, hflights, hid, hcls, hrec⟩ := lateRecord_sends hc addr
  have hlate := lateRecord_launches r f.who addr
  have hcaches := onlyCaches_recordReleases (lateRecord r f.who 1 cPoison addr) f
  have hend := endPart_frame (recordReleases (lateRecord r f.who 1 cPoison addr) f) f
  have hfl := hcaches.flights.trans hflights
  refine ⟨((congrArg State.mem hend :).trans hcaches.mem).trans hlate.mem,
    ((congrArg State.poison hend :).trans hcaches.poison).trans (congrArg State.poison hlate :), g, mem_endPart ?_ ?_ hcls ?_, hid, hrec⟩
  · simp [hfl]
  · rw [hid]
    exact (Nat.ne_of_lt (hids f hf)).symm
  · rw [hfl]
    intro x hx hxid m ys hstore
    rcases List.mem_append.mp hx with hx | hx
    · exact absurd (hxid.trans hid) (Nat.ne_of_lt (hids x hx))
    · obtain rfl := List.mem_singleton.mp hx
      obtain ⟨r, hr, -⟩ := hrec
      rw [hr] at hstore
      cases hstore

/-! ### The statement -/

/-- A store's completion, read off from what its lanes wrote. -/
theorem storeCompletion_wrote {s : State} {fid n : Nat} {f : Flight} {xs : List (Acc × Nat)} (hf : InFlight s fid f) (hact : f.act = .store n xs)
    (hq : QuietPath s f) (hd : ∀ x ∈ xs, x.1.page.ptype ≠ .device) :
    Answers (.storeCompletion fid) s (fun t => WroteLanes s t n xs ∧
      ∀ k, (∀ i, i < 32 → ∃ x ∈ xs, locHit x.1.loc n (.mem (32 * k + i)) 1 = true) → k ∉ t.poison) := by
  obtain ⟨hhost, hbeside, hlanded, hmarks⟩ := wroteLanes_foldl f.who f.vis.isSome n hd s
  obtain ⟨hheals, hpoison⟩ := performStore_heals s f n xs
  have hrec := onlyCaches_recordReleases (performStore s f n xs) f
  have hend := sameBytes_endPart (recordReleases (performStore s f n xs) f) f
  have hsame := (hheals.trans (sameBytes_of_caches hrec)).trans hend
  have hpoison' := ((congrArg State.poison (endPart_frame (recordReleases (performStore s f n xs) f) f) :).trans hrec.poison).trans hpoison
  refine ⟨_, exec_storeCompletion hf hact hq, ⟨hsame.host.trans hhost, fun m k hm => (hsame.bytesIn m k).trans (hbeside m k hm),
    fun hstand hpair x hx => (hsame.bytesIn _ _).trans (hlanded hstand hpair x hx), fun k hk => ?_⟩, fun k hk => ?_⟩
  · have hnot : wholly (memRanges (xs.map (fun x => (x.1, n)))) (32 * k) 32 = false := by
      by_contra hw
      obtain ⟨x, hx, hhit⟩ := wholly_lanes_iff.mp (by simpa using hw) 0 (by omega)
      have hfree := hk x hx
      cases hl : x.1.loc <;> simp [hl, locHit] at hhit hfree
      omega
    rw [← hmarks k hk, hpoison']
    simp [hnot]
  · rw [hpoison']
    simp [wholly_lanes_iff.mpr hk]

/-- Settles O16: lanes add up place by place; late events follow the state that their marks of poison leave. -/
theorem storeEvents : Obligations.StoreEvents := by
  unfold Obligations.StoreEvents
  refine ⟨fun s fid n f xs hf hact hq hxs => ?_, fun s => ⟨fun die core e he => ?_, fun fid f n xs c hf hact hs hids hb hc => ?_,
    fun fid k e c hf hk hc => ?_⟩⟩
  · obtain ⟨t, hexec, ⟨hhost, hbeside, hlanded, hmarks⟩, hheal⟩ := storeCompletion_wrote hf hact hq fun x hx => (hxs x hx).1
    refine ⟨t, hexec, hhost, fun a ha => ?_, fun u a ha => hbeside (.pad u a) 1 ha, fun hpair x hx => ?_, hheal, hmarks⟩
    · simpa [bytesIn, memBytes] using hbeside (.mem a) 1 ha
    · have hx' := hlanded (fun y hy => (hxs y hy).2) hpair x hx
      cases hl : x.1.loc with
      | mem pa => rwa [hl] at hx'
      | pad u off => rwa [hl] at hx'
  · have hput := onlyCaches_homeWrite (putCore s die core { coreAt s die core with relb := (coreAt s die core).relb.drop 1 }) die core e.page e.pa
      (leBytes e.size e.val)
    have hcopies := copiesOnly_homeWrite (putCore s die core { coreAt s die core with relb := (coreAt s die core).relb.drop 1 }) die core e.page e.pa
      (leBytes e.size e.val)
    refine ⟨_, exec_lazyWriteBack he, fun a => congrArg (fun m => memGet m a) hput.mem, hput.waves, hput.flights, fun k hk => ?_, ?_⟩
    · have hk' := hcopies k
      rwa [show stGet coreDefault k (putCore s die core _).cores = _ from stGet_stSet_other _ _ hk _] at hk'
    · have hown := hcopies (coreKey die core)
      rwa [show stGet coreDefault (coreKey die core) (putCore s die core _).cores = _ from stGet_stSet_same _ _ _ _] at hown
  · obtain ⟨hmem, hpoison, hrec⟩ := lateRecord_endPart (r := poisonSectors s (storeSectors n xs)) (List.mem_of_find?_eq_some hf.1) hids hc
      (BitVec.ofNat 64 ((xs.map (fun x => x.1.va)).headD 0))
    refine ⟨_, exec_lateError_store hf hact hs hb, hmem, fun p => ?_, hrec⟩
    rw [hpoison]
    exact mem_poisonSectors
  · obtain ⟨hmem, hpoison, hcores, hrec⟩ := lateRecord_kept (r := poisonSectors (putCore s (k / 128) (k % 128)
      { coreAt s (k / 128) (k % 128) with relb := (coreAt s (k / 128) (k % 128)).relb.drop 1 })
        (natsFrom (e.pa / 32) ((e.pa + e.size + 31) / 32 - e.pa / 32))) hc (BitVec.ofNat 64 e.va)
    refine ⟨_, exec_lateError_lazy hf hk, hmem, fun p => ?_, ?_, hrec⟩
    · rw [hpoison]
      exact mem_poisonSectors.trans (or_congr_right mem_sectors)
    · rw [coreAt_of_cores hcores]
      exact (relb_poisonSectors _ _ _ _).trans (congrArg Core.relb (coreAt_putCore _ _ _ _))

end Sys2Proof.Machine
end

section
/-!
PROOFS. Atomics as they issue (O13): the lanes that the L1 performs change copies of memory, registers of the wave and causes deferred to it, and
the others are in flight.
-/
namespace Sys2Proof.Machine

/-! ### What an atomic does to its wave as it issues (R200, R217, R406) -/

/-- A wave that differs in registers, in what it waits for and in the causes deferred to it. -/
def AtomWave (w w2 : Wave) : Prop :=
  { w2 with v := w.v, s := w.s, hs := w.hs, blocked := w.blocked, trap := w.trap } = w ∧ { w2.trap with held := w.trap.held } = w.trap

theorem AtomWave.trans {w w1 w2 : Wave} (h : AtomWave w w1) (g : AtomWave w1 w2) : AtomWave w w2 := by
  obtain ⟨hw, ht⟩ := h
  obtain ⟨gw, gt⟩ := g
  exact ⟨(congrArg (fun x : Wave => { x with v := w.v, s := w.s, hs := w.hs, blocked := w.blocked, trap := w.trap }) gw :).trans hw,
    (congrArg (fun x : Trap => { x with held := w.trap.held }) gt :).trans ht⟩

theorem AtomWave.uid {w w2 : Wave} (h : AtomWave w w2) : w2.uid = w.uid := (congrArg Wave.uid h.1 :)
theorem AtomWave.fork {w w2 : Wave} (h : AtomWave w w2) : w2.fork = w.fork := (congrArg Wave.fork h.1 :)

theorem atomWave_blocked (w : Wave) (b : Option Nat) : AtomWave w { w with blocked := b } := ⟨rfl, rfl⟩
theorem atomWave_held (w : Wave) (rs : List CauseRec) : AtomWave w { w with trap := { w.trap with held := rs } } := ⟨rfl, rfl⟩

theorem writeLoad_regs (d : LoadDst) (vs : List (Nat × Nat)) (w : Wave) : { writeLoad w d vs with v := w.v, s := w.s, hs := w.hs } = w := by
  unfold writeLoad
  induction vs generalizing w with
  | nil => rfl
  | cons v r ih =>
    rw [List.foldl_cons]
    refine (congrArg (fun x : Wave => { x with v := w.v, s := w.s, hs := w.hs }) (ih _) :).trans ?_
    split
    · exact (congrArg (fun x : Wave => { x with s := w.s, hs := w.hs }) (wrVec_frame w d.ty v.1 d.reg v.2) :)
    · exact (congrArg (fun x : Wave => { x with v := w.v }) (wrBank_frame w d.reg _) :)

theorem atomWave_writeLoad (d : LoadDst) (vs : List (Nat × Nat)) (w : Wave) : AtomWave w (writeLoad w d vs) := by
  have h := writeLoad_regs d vs w
  have htrap : (writeLoad w d vs).trap = w.trap := (congrArg Wave.trap h :)
  exact ⟨(congrArg (fun x : Wave => { x with blocked := w.blocked, trap := w.trap }) h :), by rw [htrap]⟩

/-- An update that makes no wave a shadow leaves a wave without forks. -/
theorem shadowsOf_updHolder {s : State} {u uid : Nat} {f : Wave → Wave} (hf : ∀ x, (f x).fork = x.fork)
    (h : shadowsOf s u (fun _ _ => true) = []) : shadowsOf (updHolder s uid f) u (fun _ _ => true) = [] := by
  simp only [shadowsOf, List.filter_eq_nil_iff, updHolder, List.mem_map] at h ⊢
  rintro x ⟨y, hy, rfl⟩
  by_cases hu : (y.uid == uid) = true
  · simpa [hu, hf] using h y hy
  · rw [if_neg hu]
    exact h y hy

/-- What issuing an atomic of a class has done so far: it is counted, and nothing changed but copies of memory and the wave, as `AtomWave` says. -/
structure AtomIssued (s t : State) (w : Wave) (cls : Cls) : Prop where
  mem : t.mem = s.mem
  host : t.hostMem = s.hostMem
  counts : CountsUp s t w.uid cls
  shadows : shadowsOf t w.uid (fun _ _ => true) = []
  wave : ∃ w2, WaveIs s t w.uid w2 ∧ AtomWave w w2

section
variable {s t r : State} {w : Wave} {cls : Cls}

theorem AtomIssued.found (h : AtomIssued s t w cls) : ∃ w2, findWave t w.uid = some w2 ∧ AtomWave w w2 := by
  obtain ⟨w2, hw, hat⟩ := h.wave
  exact ⟨w2, hw.1, hat⟩

/-- The operation has entered the path. -/
theorem atomIssued_start (hw : findWave s w.uid = some w) (hn : NoForks s w) {act : Act} (hone : OneMore s t (whoOf w) (some cls) act)
    (hmem : t.mem = s.mem) (hhost : t.hostMem = s.hostMem) (hwaves : t.waves = s.waves) : AtomIssued s t w cls :=
  ⟨hmem, hhost, hone.countsUp hn.1, (noForks_of_waves hn hwaves).2, w, waveIs_of_waves hw hwaves, rfl, rfl⟩

/-- Changes that keep waves, memory and counters. -/
theorem AtomIssued.kept (h : AtomIssued s t w cls) (hmem : r.mem = t.mem) (hhost : r.hostMem = t.hostMem) (hwaves : r.waves = t.waves)
    (hcount : ∀ u c, counter r u c = counter t u c) : AtomIssued s r w cls := by
  obtain ⟨hm, hh, ⟨hup, hother⟩, hshadows, w2, hwave, hat⟩ := h
  refine ⟨hmem.trans hm, hhost.trans hh, ⟨(hcount _ _).trans hup, fun c hc => (hcount _ _).trans (hother c hc)⟩,
    by rw [shadowsOf, hwaves]; exact hshadows, w2, ?_, hat⟩
  rw [WaveIs, findWave, hwaves]
  exact ⟨hwave.1, fun u hu => by rw [findWave, hwaves]; exact hwave.2 u hu⟩

/-- Its wave changes as an atomic may change it. -/
theorem AtomIssued.updHolder (h : AtomIssued s t w cls) {f : Wave → Wave} (hf : ∀ x, AtomWave x (f x)) :
    AtomIssued s (updHolder t w.uid f) w cls := by
  obtain ⟨hm, hh, hcounts, hshadows, w2, hwave, hat⟩ := h
  have hupd := waveIs_updHolder (s := t) (w := w2) (by rw [hat.uid]; exact hwave.1) f fun x => (hf x).uid
  rw [hat.uid] at hupd
  exact ⟨hm, hh, hcounts, shadowsOf_updHolder (fun x => (hf x).fork) hshadows, f w2, waveIs_trans hwave hupd, hat.trans (hf w2)⟩

/-- A cause deferred to a wave (R151). -/
def deferTo (w : Wave) (rec : CauseRec) : Wave := { w with trap := { w.trap with held := addRec w.trap.held rec } }

theorem addDeferred_found {u : Nat} {w2 : Wave} (h : findWave t u = some w2) (rec : CauseRec) :
    Machine.addDeferred t u rec = putWave t (deferTo w2 rec) := by
  simp only [Machine.addDeferred, h]
  rfl

/-- Poison is deferred to it. -/
theorem AtomIssued.addDeferred (h : AtomIssued s t w cls) (hf : w.fork = none) (rec : CauseRec) : AtomIssued s (addDeferred t w.uid rec) w cls := by
  obtain ⟨hm, hh, hcounts, hshadows, w2, hwave, hat⟩ := h
  have hfound2 : findWave t w2.uid = some w2 := by rw [hat.uid]; exact hwave.1
  obtain ⟨-, hfound, hothers, -⟩ := onlyWave_putWave (w' := deferTo w2 rec) hfound2 rfl
  rw [hat.uid] at hfound hothers
  rw [addDeferred_found hwave.1]
  exact ⟨hm, hh, hcounts, shadowsOf_putWave (hat.fork.trans hf) hshadows, _, waveIs_trans hwave ⟨hfound, hothers⟩, hat.trans (atomWave_held w2 _)⟩

theorem AtomIssued.poisonLanes (h : AtomIssued s t w cls) (hf : w.fork = none) (kind : Nat) (bad : List Acc) :
    AtomIssued s (poisonLanes t (whoOf w) kind bad) w cls := by
  unfold Machine.poisonLanes
  split
  · exact h
  · obtain ⟨w2, hw, -⟩ := h.found
    rw [deferOrRecord, whoOf_uid hf, if_pos (by rw [hw]; rfl)]
    exact h.addDeferred hf _

/-- A store that no counter sees. -/
theorem AtomIssued.addSeen (h : AtomIssued s t w cls) (n : Nat) (xs : List (Acc × Nat)) : AtomIssued s (addSeen t (whoOf w) none n xs) w cls := by
  have hpath := onlyPath_addSeen t (whoOf w) none n xs
  exact h.kept (congrArg State.mem hpath.frame :) (congrArg State.hostMem hpath.frame :) hpath.waves fun u c => by
    simp [(oneMore_addSeen t (whoOf w) none n xs).counter]

/-- The destination of an atomic takes what its lanes found. -/
def atomRegs (s : State) (dst : Option LoadDst) (olds : List (Nat × Nat)) : State :=
  match dst with
  | some d => Machine.updHolder s d.uid (fun w => writeLoad w d olds)
  | none => s

theorem AtomIssued.atomRegs (h : AtomIssued s t w cls) {dst : Option LoadDst} (hd : ∀ d, dst = some d → d.uid = w.uid)
    (olds : List (Nat × Nat)) : AtomIssued s (atomRegs t dst olds) w cls := by
  cases dst with
  | none => exact h
  | some d =>
    simp only [Machine.atomRegs, hd d rfl]
    exact h.updHolder fun x => atomWave_writeLoad d olds x

theorem AtomIssued.atomFinish (h : AtomIssued s t w cls) (hf : w.fork = none) {dst : Option LoadDst} (hd : ∀ d, dst = some d → d.uid = w.uid)
    (ty : Ty) (res : AtomRes) (send : Bool) : AtomIssued s (atomFinish t (whoOf w) dst ty res send) w cls := by
  have hbad := (h.atomRegs hd res.olds).poisonLanes hf 1 res.bad
  unfold Machine.atomFinish
  simp only
  split
  · exact hbad.addSeen _ _
  · exact hbad

end

/-! ### Lanes that the L1 performs (R201) -/

theorem onlyCaches_atomLane {sc : Scope} {x : Acc × Nat × Nat} (hx : atomLocal sc x.1 = true) (who : Who) (op : Nat) (t : Ty) (s : State) (r : AtomRes) :
    OnlyCaches s (atomLane who sc op t s r x).1 := by
  unfold atomLane
  split
  · exact .refl s
  · next pa hl =>
    have hread := onlyCaches_coreRead s who.die who.core x.1.page .fill pa (t.bits / 8)
    simp only [hx, if_true]
    split
    · exact hread
    · exact hread.trans (onlyCaches_putCore _ _ _ _)

theorem onlyCaches_atomLanes {sc : Scope} {xs : List (Acc × Nat × Nat)} (hxs : ∀ x ∈ xs, atomLocal sc x.1 = true) (who : Who) (op : Nat) (t : Ty)
    (s : State) : OnlyCaches s (atomLanes who sc op t s xs).1 := by
  have hfold (xs : List (Acc × Nat × Nat)) (hxs : ∀ x ∈ xs, atomLocal sc x.1 = true) (a : State × AtomRes) :
      OnlyCaches a.1 (xs.foldl (fun a x => atomLane who sc op t a.1 a.2 x) a).1 := by
    induction xs generalizing a with
    | nil => exact .refl a.1
    | cons x r ih => exact (onlyCaches_atomLane (hxs x (by simp)) who op t a.1 a.2).trans (ih (fun y hy => hxs y (by simp [hy])) _)
  exact hfold xs hxs (s, { olds := [], bad := [], kids := [] })

theorem atomLocal_of_now {s : State} {w : Wave} {sc : Scope} {n : Nat} {a : Acc} (h : atomNow s w sc n a = true) : atomLocal sc a = true := by
  simp only [atomNow, Bool.and_eq_true] at h
  exact h.1.1

/-! ### The issue (R194, R200, R201) -/

/-- The lanes of an atomic with their operands. -/
def atomOperands (w : Wave) (o : Ops) (as : List Acc) : List (Acc × Nat × Nat) := as.map (fun a => (a, opC w o o.ty a.lane, casNew w o a.lane))

/-- The lanes that do not find their lines in the L1. -/
def atomLate (s : State) (w : Wave) (o : Ops) (as : List Acc) : List (Acc × Nat × Nat) :=
  (atomOperands w o as).filter (fun x => !atomNow s w o.sc (o.ty.bits / 8) x.1)

/-- What the lanes that find them have done. -/
def atomNows (s : State) (w : Wave) (o : Ops) (as : List Acc) : State × AtomRes :=
  atomLanes (whoOf w) o.sc (o.x % 16) o.ty s ((atomOperands w o as).filter (fun x => atomNow s w o.sc (o.ty.bits / 8) x.1))

/-- An atomic in the path: lanes that the L1 performed have their results, the others are in flight; its counter counts it in either case. -/
def atomInPath (s : State) (w : Wave) (o : Ops) (dst : Option LoadDst) (as : List Acc) : State :=
  let cls : Cls := if dst.isSome then .ld else .st
  let r := atomNows s w o as
  if !(atomLate s w o as).isEmpty then
    atomFinish (addMem r.1 (whoOf w) (some cls) (.atom dst (o.x % 16) o.ty (atomLate s w o as) o.sc o.ord)) (whoOf w) dst o.ty r.2 true
  else if dst.isSome then atomFinish (addMem r.1 (whoOf w) (some cls) .nop) (whoOf w) dst o.ty r.2 true
  else atomFinish (addSeen r.1 (whoOf w) (some cls) (o.ty.bits / 8) (lastLanes r.2.kids)) (whoOf w) dst o.ty r.2 false

section
variable {s : State} {w : Wave} {ls : List Nat} {o : Ops} {dst : Option LoadDst} {as : List Acc} {load : Bool}

/-- A wave without forks goes on once its atomic is in the path, or waits for its acquire. -/
theorem issueAtom_quiet (hf : w.fork = none) (hs : shadowsOf (atomInPath s w o dst as) w.uid (fun _ _ => true) = []) :
    issueAtom s w o dst as =
      goOn (waitsFor ((acqScope o).isSome && !(atomLate s w o as).isEmpty) (atomInPath s w o dst as) w s.nextFid) w.uid := by
  have horder : squashOrder (atomInPath s w o dst as) w = atomInPath s w o dst as := squashOrder_quiet ⟨hf, hs⟩ rfl
  have hstores := squashStores_quiet (t := atomInPath s w o dst as) ⟨hf, hs⟩ rfl (gang w) (as.map (fun a => (a, o.ty.bits / 8)))
  have hquiet : squashStores (if (acqScope o).isSome then squashOrder (atomInPath s w o dst as) w else atomInPath s w o dst as) w (gang w)
      (as.map (fun a => (a, o.ty.bits / 8))) = atomInPath s w o dst as := by rw [horder, ite_self, hstores]
  unfold waitsFor
  refine Eq.trans ?_ (apply_ite (fun t => goOn t w.uid) _ _ _).symm
  exact (congrArg (fun t => if ((acqScope o).isSome && !(atomLate s w o as).isEmpty) = true then
    goOn (updHolder t w.uid (fun x => { x with blocked := some s.nextFid })) w.uid else goOn t w.uid) hquiet :)

/-- Lanes of an atomic that every check lets pass. -/
theorem atomBody_issues (hn : NoForks s w) (hc : counter s w.uid (if load then .ld else .st) < 63)
    (hg : gather (memAcc s w .atomic (eaOf w o (o.x / 16)) (sizeOf o)) (accLanes o ls) = .ok as)
    (hr : isRelease o = true → ReleaseReady s w (beyondCore o.sc)) :
    atomBody o load s w ls = issueAtom (fillTlbs s w.asid as) w o (if load then some (loadDst w o) else none) as := by
  rw [atomBody, whoOf_uid hn.1, if_neg (by omega), hg]
  simp only
  split
  · next hrel => exact afterRelease_ready (releaseReady_fillTlbs (hr hrel) w.asid as) _
  · rfl

/-- The operation is counted, and nothing changed but copies of memory and the wave. -/
theorem atomIssued_atomInPath (hw : findWave s w.uid = some w) (hn : NoForks s w) (hd : ∀ d, dst = some d → d.uid = w.uid) :
    AtomIssued s (atomInPath (fillTlbs s w.asid as) w o dst as) w (if dst.isSome then .ld else .st) := by
  have hfill := fillTlbs_frame w.asid as s
  have hcaches : OnlyCaches (fillTlbs s w.asid as) (atomNows (fillTlbs s w.asid as) w o as).1 :=
    onlyCaches_atomLanes (fun x hx => atomLocal_of_now (List.mem_filter.mp hx).2) _ _ _ _
  have hflights : (atomNows (fillTlbs s w.asid as) w o as).1.flights = s.flights := hcaches.flights.trans (congrArg State.flights hfill :)
  have hnext : (atomNows (fillTlbs s w.asid as) w o as).1.nextFid = s.nextFid :=
    (congrArg State.nextFid hcaches :).trans (congrArg State.nextFid hfill :)
  unfold atomInPath
  generalize atomNows (fillTlbs s w.asid as) w o as = r at hcaches hflights hnext
  have hpath {t : State} (h : OnlyPath r.1 t w.die w.core) {act : Act}
      (hone : OneMore r.1 t (whoOf w) (some (if dst.isSome then .ld else .st)) act) : AtomIssued s t w (if dst.isSome then .ld else .st) :=
    atomIssued_start hw hn (hone.of_flights hflights hnext)
      (((congrArg State.mem h.frame :).trans hcaches.mem).trans (congrArg State.mem hfill :))
      (((congrArg State.hostMem h.frame :).trans hcaches.hostMem).trans (congrArg State.hostMem hfill :))
      ((h.waves.trans hcaches.waves).trans (congrArg State.waves hfill :))
  have hmem (act : Act) := hpath (onlyPath_addMem r.1 (whoOf w) _ act w.die w.core) (oneMore_addMem r.1 (whoOf w) _ act)
  have hseen (n : Nat) (xs : List (Acc × Nat)) := hpath (onlyPath_addSeen r.1 (whoOf w) _ n xs) (oneMore_addSeen r.1 (whoOf w) _ n xs)
  simp only
  split
  · exact (hmem _).atomFinish hn.1 hd _ _ _
  · cases dst with
    | some d => exact (hmem .nop).atomFinish hn.1 hd o.ty r.2 true
    | none => exact (hseen (o.ty.bits / 8) (lastLanes r.2.kids)).atomFinish hn.1 hd o.ty r.2 false

theorem loadDst_uid (load : Bool) : ∀ d, (if load then some (loadDst w o) else none) = some d → d.uid = w.uid := by
  intro d hd
  cases load with
  | false => simp at hd
  | true => exact (Option.some.inj hd) ▸ rfl

/-- An atomic or reduction is counted and its wave goes on or waits (R194, R217). -/
theorem atom_goesOn {i : Instr} (hi : Issues s i w ls) (hx : exec i s = runInstr i s (atomBody o load)) (hn : NoForks s w)
    (hc : counter s w.uid (if load then .ld else .st) < 63)
    (hg : gather (memAcc s w .atomic (eaOf w o (o.x / 16)) (sizeOf o)) (accLanes o ls) = .ok as)
    (hr : isRelease o = true → ReleaseReady s w (beyondCore o.sc)) :
    Answers i s (fun t => SameMemory s t ∧ t.hostMem = s.hostMem ∧ CountsUp s t w.uid (if load then .ld else .st) ∧
      ∃ w2, WaveIs s t w.uid (goSeq w2) ∧ AtomWave w w2) := by
  have hcls : (if (if load then some (loadDst w o) else none).isSome then Cls.ld else .st) = if load then .ld else .st := by cases load <;> rfl
  have hissued := atomIssued_atomInPath (as := as) (o := o) (curWave_found hi.1).2 hn (loadDst_uid (o := o) load)
  rw [hcls] at hissued
  have hblocked := hissued.updHolder (f := fun x => { x with blocked := some (fillTlbs s w.asid as).nextFid }) fun x => atomWave_blocked x _
  have hbody := (atomBody_issues hn hc hg hr).trans (issueAtom_quiet hn.1 hissued.shadows)
  have hwaits : AtomIssued s (waitsFor ((acqScope o).isSome && !(atomLate (fillTlbs s w.asid as) w o as).isEmpty)
      (atomInPath (fillTlbs s w.asid as) w o (if load then some (loadDst w o) else none) as) w (fillTlbs s w.asid as).nextFid) w
      (if load then .ld else .st) := by
    unfold waitsFor
    split
    · exact hblocked
    · exact hissued
  obtain ⟨hmem, hhost, hcounts, -, w2, hwave, hat⟩ := hwaits
  obtain ⟨hgo, hwave'⟩ := goOn_waveIs hwave hat.uid
  refine ⟨_, (hx.trans (runInstr_issues hi _)).trans (hbody.trans hgo), fun a => congrArg (fun m => memGet m a) hmem, hhost, hcounts, w2, hwave', hat⟩

theorem updHolder_id (s : State) (uid : Nat) : updHolder s uid (fun x => x) = s := by
  simp [updHolder]

/-- With no lane that the L1 performs, all are in flight. -/
theorem atomInPath_late (hnow : ∀ a ∈ as, atomNow s w o.sc (o.ty.bits / 8) a = false) (hne : as ≠ []) (dst : Option LoadDst) :
    atomLate s w o as = atomOperands w o as ∧ atomInPath s w o dst as =
      addMem s (whoOf w) (some (if dst.isSome then .ld else .st)) (.atom dst (o.x % 16) o.ty (atomOperands w o as) o.sc o.ord) := by
  have hlate : atomLate s w o as = atomOperands w o as := by
    simpa [atomLate, atomOperands, List.filter_eq_self] using hnow
  have hnone : (atomOperands w o as).filter (fun x => atomNow s w o.sc (o.ty.bits / 8) x.1) = [] := by
    simpa [atomOperands, List.filter_eq_nil_iff] using hnow
  have hsome : (atomOperands w o as).isEmpty = false := by simpa [atomOperands] using hne
  have hres : atomNows s w o as = (s, { olds := [], bad := [], kids := [] }) := by rw [atomNows, hnone]; rfl
  refine ⟨hlate, ?_⟩
  simp only [atomInPath, hlate, hsome, hres, Bool.not_false, if_true]
  cases dst with
  | none => rfl
  | some d => simp [atomFinish, writeLoad, updHolder_id, poisonLanes]

theorem gather_ne_nil {f : Nat → Except LaneFault Acc} {l : Nat} {r : List Nat} (hg : gather f (l :: r) = .ok as) : as ≠ [] := by
  rintro rfl
  unfold gather at hg
  split at hg <;> simp at hg

theorem accLanes_ne_nil {i : Instr} (hi : Issues s i w ls) : accLanes o ls ≠ [] := by
  obtain ⟨_, _, _, hne⟩ := hi
  unfold accLanes
  split
  · exact hne
  · simp

/-- An atomic whose lanes all go to the home leaves as one operation (R200, R201). -/
theorem atom_sends {i : Instr} (hi : Issues s i w ls) (hx : exec i s = runInstr i s (atomBody o load)) (hn : NoForks s w)
    (hc : counter s w.uid (if load then .ld else .st) < 63)
    (hg : gather (memAcc s w .atomic (eaOf w o (o.x / 16)) (sizeOf o)) (accLanes o ls) = .ok as)
    (hr : isRelease o = true → ReleaseReady s w (beyondCore o.sc)) (hnow : ∀ a ∈ as, atomNow s w o.sc (sizeOf o) a = false) :
    Sends i s w (waiting (acqScope o).isSome w s.nextFid) (if load then .ld else .st)
      (.atom (if load then some (loadDst w o) else none) (o.x % 16) o.ty (atomOperands w o as) o.sc o.ord) none (fun t => t.cores = s.cores) := by
  have hfill := fillTlbs_frame w.asid as s
  have hfl : (fillTlbs s w.asid as).flights = s.flights := (congrArg State.flights hfill :)
  have hcores : (fillTlbs s w.asid as).cores = s.cores := (congrArg State.cores hfill :)
  have hnext : (fillTlbs s w.asid as).nextFid = s.nextFid := (congrArg State.nextFid hfill :)
  have hnow' : ∀ a ∈ as, atomNow (fillTlbs s w.asid as) w o.sc (o.ty.bits / 8) a = false := fun a ha => by
    have h := hnow a ha
    simpa only [atomNow, l1Busy, hfl, coreAt_of_cores hcores, Machine.sizeOf] using h
  have hne : as ≠ [] := by
    obtain ⟨l, r, hl⟩ := List.exists_cons_of_ne_nil (accLanes_ne_nil (o := o) hi)
    exact gather_ne_nil (hl ▸ hg)
  have hlane : (atomOperands w o as).isEmpty = false := by simpa [atomOperands] using hne
  have hcls : (if (if load then some (loadDst w o) else none).isSome then Cls.ld else .st) = if load then .ld else .st := by cases load <;> rfl
  obtain ⟨hlate, hin⟩ := atomInPath_late hnow' hne (if load then some (loadDst w o) else none)
  rw [hcls] at hin
  have hissued := atomIssued_atomInPath (as := as) (o := o) (curWave_found hi.1).2 hn (loadDst_uid (o := o) load)
  have hbody := (atomBody_issues hn hc hg hr).trans (issueAtom_quiet hn.1 hissued.shadows)
  rw [hlate, hin, hlane, Bool.not_false, Bool.and_true, hnext] at hbody
  refine sends_goOn hi hn.1 (acqScope o).isSome s.nextFid ((hx.trans (runInstr_issues hi _)).trans hbody) ?_
    ((oneMore_addMem (fillTlbs s w.asid as) _ _ _).of_flights hfl hnext) ?_
  · exact (congrArg (withPathOf s) hfill :)
  · exact ((congrArg State.cores (waitsFor_frame _ (addMem (fillTlbs s w.asid as) (whoOf w) _ _) w s.nextFid)).trans hcores :)

end

end Sys2Proof.Machine
end

section
/-!
PROOFS. Atomics as they are performed (O13): the new value of a location, and the lanes at the home one after another.
-/
namespace Sys2Proof.Machine

/-! ### New values (R75, R200) -/

theorem trunc_natCast (w x : Nat) : trunc w (x : Int) = x % 2 ^ w := by
  rw [← Int.natCast_inj, trunc_cast]
  push_cast
  rfl

/-- The pattern of a pattern's value. -/
theorem trunc_tval {t : Ty} {x : Nat} (hx : x < 2 ^ t.bits) : trunc t.bits (tval t x) = x := by
  unfold tval
  split
  · have h := trunc_sval_mod t.bits t.bits x le_rfl
    rwa [trunc_mod, Nat.mod_eq_of_lt hx] at h
  · rw [trunc_natCast, Nat.mod_eq_of_lt hx]

theorem atomNew_min {t : Ty} {old c : Nat} (ho : old < 2 ^ t.bits) (hc : c < 2 ^ t.bits) (c2 : Nat) :
    atomNew 1 t old c c2 = if tval t c < tval t old then c else old := by
  rw [show atomNew 1 t old c c2 = trunc t.bits (min (tval t old) (tval t c)) from rfl]
  split
  · next h => rw [min_eq_right h.le, trunc_tval hc]
  · next h => rw [min_eq_left (not_lt.mp h), trunc_tval ho]

theorem atomNew_max {t : Ty} {old c : Nat} (ho : old < 2 ^ t.bits) (hc : c < 2 ^ t.bits) (c2 : Nat) :
    atomNew 2 t old c c2 = if tval t old < tval t c then c else old := by
  rw [show atomNew 2 t old c c2 = trunc t.bits (max (tval t old) (tval t c)) from rfl]
  split
  · next h => rw [max_eq_right h.le, trunc_tval hc]
  · next h => rw [max_eq_left (not_lt.mp h), trunc_tval ho]

/-- With the reset mode, operations on binary32 round to nearest even and keep subnormals (R88). -/
theorem fpEnv_reset {w : Wave} (h : w.fpmode = 0) : fpEnv w .f32 .rn = envRN := by
  simp [fpEnv, envRN, rmOf, subCtl, h]

theorem exAdd_nan {rm : Rnd} {x y : FV} (h : x.isNan = true ∨ y.isNan = true) : exAdd rm x y = .nan := by
  obtain h | h := h
  · cases x with
    | nan => simp [exAdd]
    | _ => cases h
  · cases y with
    | nan => cases x <;> rfl
    | _ => cases h

/-- The float addition of atomics is that of `fadd` (R92). -/
theorem f32Add_eq_fadd {w : Wave} (h : w.fpmode = 0) (a b : Nat) : f32Add a b = (fOp w .f32 .rn false [a, b] fnAdd).1 := by
  have hdaz (x : Nat) : fDaz fmtF32 envRN x = (x, 0) := by simp [fDaz, envRN]
  have hfn : fnAdd .rn [fvOf fmtF32 a, fvOf fmtF32 b] = exAdd .rn (fvOf fmtF32 a) (fvOf fmtF32 b) := rfl
  have hrm : rmOf w .rn = .rn := rfl
  have hfmt : fmtOfTy .f32 = fmtF32 := rfl
  simp only [fOp, fRun, fpEnv_reset h, hrm, hfmt, List.map_cons, List.map_nil, hdaz, hfn, f32Add, rn32]
  by_cases hnan : (fvOf fmtF32 a).isNan = true ∨ (fvOf fmtF32 b).isNan = true
  · rw [exAdd_nan hnan]
    simp [fFinish]
  · obtain ⟨ha, hb⟩ := not_or.mp hnan
    simp [ha, hb]

/-! ### Lanes at the home (R200, R201) -/

theorem copiesOnly_homeRead (s : State) (die core : Nat) (pg : Page) (pa n : Nat) :
    CopiesOnly s (homeSeen (l2Access s pg false pa n) die core pa) := by
  have hread : CopiesOnly s (l2Access s pg false pa n) := copiesOnly_of_cores (congrArg State.cores (onlyStored_l2Access s pg false pa n) :)
  unfold homeSeen
  simp only
  split
  · exact (hread.trans (copiesOnly_of_cores rfl)).trans (copiesOnly_markOld _ _ _ _ _)
  · exact hread.trans (copiesOnly_markOld _ _ _ _ _)

theorem copiesOnly_dropL1 (s : State) (die core pa : Nat) : CopiesOnly s (dropL1 s die core pa) := copiesOnly_putCore rfl

theorem SameButCopies.relb {c d : Core} (h : SameButCopies c d) : d.relb = c.relb := (congrArg Core.relb h :)

/-- What an agent reads at the home when nothing of its core lies over it. -/
theorem overlay_quiet {s : State} {die core : Nat} (hr : (coreAt s die core).relb = []) (hs : NoSeenStores s die core) (pa : Nat) (bs : List Byte) :
    overlay s die core pa bs = bs := by
  have hown (a : Nat) : ownByte s die core a = none := by simp [ownByte, hr, bufEntry, seenByte_none hs]
  refine List.ext_getElem (by simp [overlay]) fun i h1 h2 => ?_
  simp [overlay, hown]

/-- The bytes of memory once a lane of an atomic has been performed. -/
def atomAfter (op : Nat) (t : Ty) (m : Mem) (x : Acc × Nat × Nat) : Mem :=
  match x.1.loc with
  | .mem pa => memPutNat m pa (t.bits / 8) (atomNew op t (memNat m pa (t.bits / 8)) x.2.1 x.2.2)
  | .pad _ _ => m

/-- What a lane finds in memory. -/
def atomFinds (t : Ty) (m : Mem) (x : Acc × Nat × Nat) : Nat :=
  match x.1.loc with
  | .mem pa => memNat m pa (t.bits / 8)
  | .pad _ _ => 0

/-- What lanes find that are performed one after another. -/
def atomOlds (op : Nat) (t : Ty) : Mem → List (Acc × Nat × Nat) → List (Acc × Nat)
  | _, [] => []
  | m, x :: r => (x.1, atomFinds t m x) :: atomOlds op t (atomAfter op t m x) r

theorem atomOlds_accs (op : Nat) (t : Ty) (m : Mem) (xs : List (Acc × Nat × Nat)) :
    (atomOlds op t m xs).map (fun v => v.1) = xs.map (fun x => x.1) := by
  induction xs generalizing m with
  | nil => rfl
  | cons x r ih => simp [atomOlds, ih]

/-- Each lane finds what the lanes before it left. -/
theorem mem_atomOlds (op : Nat) (t : Ty) (m : Mem) (pre : List (Acc × Nat × Nat)) (x : Acc × Nat × Nat) (post : List (Acc × Nat × Nat)) :
    (x.1, atomFinds t (pre.foldl (atomAfter op t) m) x) ∈ atomOlds op t m (pre ++ x :: post) := by
  induction pre generalizing m with
  | nil => exact List.mem_cons_self
  | cons y r ih => exact List.mem_cons_of_mem _ (ih _)

/-- `t` is `s` but for bytes of memory, which are `m`, for marks of poison that have gone, and for copies of memory. -/
structure AtHome (s t : State) (m : Mem) : Prop where
  frame : { t with mem := s.mem, poison := s.poison, cores := s.cores, quads := s.quads } = s
  mem : t.mem = m
  poison : ∀ p ∈ t.poison, p ∈ s.poison
  copies : CopiesOnly s t

section
variable {s u : State} {m : Mem} {who : Who} {sc : Scope} {op : Nat} {t : Ty}

theorem AtHome.caches {r : State} (h : AtHome s u m) (hc : OnlyCaches u r) (hr : CopiesOnly u r) : AtHome s r m := by
  obtain ⟨hframe, hmem, hpoison, hcopies⟩ := h
  exact ⟨(congrArg (fun x : State => { x with mem := s.mem, poison := s.poison, cores := s.cores, quads := s.quads }) hc :).trans hframe,
    hc.mem.trans hmem, hc.poison ▸ hpoison, hcopies.trans hr⟩

theorem AtHome.putMem (h : AtHome s u m) (pa : Nat) (bs : List Byte) : AtHome s (putMem u pa bs) (memPut m pa bs) := by
  obtain ⟨hframe, rfl, hpoison, hcopies⟩ := h
  exact ⟨hframe, rfl, fun p hp => hpoison p (List.mem_filter.mp hp).1, hcopies.trans (copiesOnly_of_cores rfl)⟩

/-- A lane reads its bytes at the home. -/
theorem AtHome.coreRead (h : AtHome s u m) (hrel : ∀ die core, (coreAt s die core).relb = []) (hs : NoSeenStores s who.die who.core) (pg : Page)
    {pa n : Nat} (hsec : pa % 32 + n ≤ 32) (hp : pa / 32 ∉ s.poison) :
    (Machine.coreRead u who.die who.core pg .home pa n).2 = (memBytes m pa n, false) ∧
    AtHome s (Machine.coreRead u who.die who.core pg .home pa n).1 m := by
  have hcaches := onlyCaches_coreRead u who.die who.core pg .home pa n
  have hcopies := copiesOnly_homeRead u who.die who.core pg pa n
  have hflights : u.flights = s.flights := (congrArg State.flights h.frame :)
  have hrelb : (coreAt u who.die who.core).relb = [] := (h.copies _).relb.trans (hrel _ _)
  have hseen : NoSeenStores u who.die who.core := by rw [NoSeenStores, hflights]; exact hs
  have hhealthy : u.poison.contains (pa / 32) = false := by
    rw [← Bool.not_eq_true, List.contains_iff_mem]
    exact fun hmem => hp (h.poison _ hmem)
  have hread : Machine.coreRead u who.die who.core pg .home pa n = (homeSeen (l2Access u pg false pa n) who.die who.core pa,
      overlay u who.die who.core pa (((memBytes u.mem (32 * (pa / 32)) 32).drop (pa % 32)).take n), u.poison.contains (pa / 32)) := rfl
  refine ⟨?_, h.caches hcaches (hread ▸ hcopies)⟩
  rw [hread, overlay_quiet hrelb hseen, cut_memBytes _ hsec, hhealthy, h.mem]

theorem AtHome.homeWrite (h : AtHome s u m) (die core : Nat) (pg : Page) (pa : Nat) (bs : List Byte) :
    AtHome s (dropL1 (homeWrite u die core pg pa bs) die core pa) (memPut m pa bs) := by
  have hwrite := onlyCaches_homeWrite u die core pg pa bs
  have hcopies : CopiesOnly (Machine.putMem u pa bs) (Machine.homeWrite u die core pg pa bs) := copiesOnly_homeWrite u die core pg pa bs
  exact (h.putMem pa bs).caches (hwrite.trans (onlyCaches_putCore _ _ _ _)) (hcopies.trans (copiesOnly_dropL1 _ _ _ _))

/-- One lane at the home: it finds the bytes there and leaves the new ones (R200). -/
theorem atomLane_home (h : AtHome s u m) (hrel : ∀ die core, (coreAt s die core).relb = []) (hs : NoSeenStores s who.die who.core)
    {x : Acc × Nat × Nat} (hl : atomLocal sc x.1 = false)
    (hx : ∃ pa, x.1.loc = .mem pa ∧ pa % 32 + t.bits / 8 ≤ 32 ∧ pa / 32 ∉ s.poison) (r : AtomRes) :
    AtHome s (atomLane who sc op t u r x).1 (atomAfter op t m x) ∧
    (atomLane who sc op t u r x).2 = { r with olds := r.olds ++ [(x.1.lane, atomFinds t m x)] } := by
  obtain ⟨pa, hloc, hsec, hp⟩ := hx
  obtain ⟨hread, hafter⟩ := h.coreRead hrel hs x.1.page hsec hp
  have hlane : atomLane who sc op t u r x =
      (dropL1 (Machine.homeWrite (Machine.coreRead u who.die who.core x.1.page .home pa (t.bits / 8)).1 who.die who.core x.1.page pa
        (leBytes (t.bits / 8) (atomNew op t (memNat m pa (t.bits / 8)) x.2.1 x.2.2))) who.die who.core pa,
        { r with olds := r.olds ++ [(x.1.lane, memNat m pa (t.bits / 8))] }) := by
    simp [atomLane, hloc, hl, hread, memNat]
  rw [hlane, atomAfter, atomFinds, hloc]
  exact ⟨hafter.homeWrite _ _ _ _ _, rfl⟩

/-- Lanes at the home one after another. -/
theorem atomLanes_home (hrel : ∀ die core, (coreAt s die core).relb = []) (hs : NoSeenStores s who.die who.core) {xs : List (Acc × Nat × Nat)}
    (hl : ∀ x ∈ xs, atomLocal sc x.1 = false) (hx : ∀ x ∈ xs, ∃ pa, x.1.loc = .mem pa ∧ pa % 32 + t.bits / 8 ≤ 32 ∧ pa / 32 ∉ s.poison) :
    AtHome s (atomLanes who sc op t s xs).1 (xs.foldl (atomAfter op t) s.mem) ∧
    (atomLanes who sc op t s xs).2 = { olds := laneReads (atomOlds op t s.mem xs), bad := [], kids := [] } := by
  have hfold (xs : List (Acc × Nat × Nat)) (hl : ∀ x ∈ xs, atomLocal sc x.1 = false)
      (hx : ∀ x ∈ xs, ∃ pa, x.1.loc = .mem pa ∧ pa % 32 + t.bits / 8 ≤ 32 ∧ pa / 32 ∉ s.poison)
      (u : State) (r : AtomRes) (m : Mem) (h : AtHome s u m) :
      AtHome s (xs.foldl (fun a x => atomLane who sc op t a.1 a.2 x) (u, r)).1 (xs.foldl (atomAfter op t) m) ∧
      (xs.foldl (fun a x => atomLane who sc op t a.1 a.2 x) (u, r)).2 = { r with olds := r.olds ++ laneReads (atomOlds op t m xs) } := by
    induction xs generalizing u r m with
    | nil => exact ⟨h, by simp [atomOlds, laneReads]⟩
    | cons x xs ih =>
      obtain ⟨hhome, hres⟩ := atomLane_home (op := op) h hrel hs (hl x (by simp)) (hx x (by simp)) r
      have hrest := ih (fun y hy => hl y (by simp [hy])) (fun y hy => hx y (by simp [hy])) _ (atomLane who sc op t u r x).2 _ hhome
      refine ⟨hrest.1, hrest.2.trans ?_⟩
      rw [hres]
      simp [atomOlds, laneReads]
  exact hfold xs hl hx s _ _ ⟨rfl, rfl, fun _ hp => hp, copiesOnly_of_cores rfl⟩

end

/-! ### The end of an atomic at the home (R194, R217) -/

theorem leNat_lt (bs : List Byte) : leNat bs < 256 ^ bs.length := by
  induction bs with
  | nil => simp [leNat]
  | cons b r ih =>
    have hb := b.isLt
    rw [leNat, List.length_cons, pow_succ]
    omega

theorem pow_bytes (t : Ty) : 256 ^ (t.bits / 8) = 2 ^ t.bits := by cases t <;> rfl

theorem memNat_lt (m : Mem) (pa : Nat) (t : Ty) : memNat m pa (t.bits / 8) < 2 ^ t.bits := by
  have h := leNat_lt (memBytes m pa (t.bits / 8))
  rwa [length_memBytes, pow_bytes] at h

/-- Waves as a part of a store ends: some no longer wait. -/
theorem endPart_waves (s : State) (f : Flight) :
    ∃ g : Wave → Wave, (endPart s f).waves = s.waves.map g ∧ ∀ x, g x = { x with blocked := (g x).blocked } := by
  unfold endPart
  split
  · exact ⟨id, (List.map_id _).symm, fun _ => rfl⟩
  · exact ⟨endWait f, endFlight_waves s f, endWait_eq f⟩

/-- What the acquire of an atomic does (R217). -/
def atomAcquire (s : State) (f : Flight) (sc : Scope) (ord : Ord) : State :=
  match ord with
  | .acq | .ar => acquireAt (squashAcquire s f) f.who.die f.who.core sc
  | _ => s

/-- Of a wave without forks it changes copies of memory. -/
theorem onlyCaches_atomAcquire {s : State} {f : Flight} (h : shadowsOf s f.who.uid (fun _ _ => true) = []) (sc : Scope) (ord : Ord) :
    OnlyCaches s (atomAcquire s f sc ord) := by
  have hquiet : squashAcquire s f = s := squashWhere_none h _
  have hacq : OnlyCaches s (acquireAt (squashAcquire s f) f.who.die f.who.core sc) := by
    rw [hquiet]
    exact acquireAt_frame s f.who.die f.who.core sc
  cases ord with
  | acq => exact hacq
  | ar => exact hacq
  | _ => exact .refl s

theorem shadowsOf_atomRegs {s : State} {u : Nat} (h : shadowsOf s u (fun _ _ => true) = []) (dst : Option LoadDst) (olds : List (Nat × Nat)) :
    shadowsOf (atomRegs s dst olds) u (fun _ _ => true) = [] := by
  cases dst with
  | none => exact h
  | some d => exact shadowsOf_updHolder (fun x => (atomWave_writeLoad d olds x).fork) h

section
variable {s : State} {f : Flight} {dst : Option LoadDst} {op : Nat} {t : Ty} {xs : List (Acc × Nat × Nat)} {sc : Scope}

/-- An atomic whose lanes the home performs: their results are written, an acquire takes effect, and the operation ends. -/
theorem performAtom_home {olds : List (Nat × Nat)} (hres : (atomLanes f.who sc op t s xs).2 = { olds := olds, bad := [], kids := [] }) (ord : Ord) :
    performAtom s f dst op t xs sc ord =
      endPart (atomAcquire (atomRegs (atomLanes f.who sc op t s xs).1 dst olds) f sc ord) f := by
  have hfinish : atomFinish (atomLanes f.who sc op t s xs).1 f.who dst t (atomLanes f.who sc op t s xs).2 dst.isSome =
      atomRegs (atomLanes f.who sc op t s xs).1 dst olds := by
    rw [hres]
    simp only [atomFinish, poisonLanes, List.isEmpty_nil, Bool.not_true, Bool.and_false, Bool.false_eq_true, if_false]
    rfl
  unfold performAtom
  simp only [hfinish]
  rw [hres]
  simp only [List.isEmpty_nil, Bool.not_true, Bool.and_false, Bool.false_eq_true, if_false]
  rfl

/-- An atomic that has its turn is performed. -/
theorem exec_atom {fid : Nat} {ord : Ord} (hf : InFlight s fid f) (hact : f.act = .atom dst op t xs sc ord) (hq : QuietPath s f) :
    exec (if dst.isSome then .loadCompletion fid else .storeCompletion fid) s = .next (performAtom s f dst op t xs sc ord) := by
  have hturn : (f.vis.isNone && pathBusy s f.who.uid f.id (actAccs f.act)) = false := hq.1
  have hbusy : atomBusy s f xs sc = false := homeBusy_quiet hq rfl rfl _
  cases dst with
  | some d =>
    have hexec : exec (.loadCompletion fid) s = execLoadCompletion fid s := rfl
    refine hexec.trans ?_
    rw [execLoadCompletion, findFlight_some hf]
    simp only [hact, hbusy]
    rw [pathTurn, hturn, afterLazy_none hq.2.2]
    rfl
  | none =>
    have hexec : exec (.storeCompletion fid) s = execStoreCompletion fid s := rfl
    refine hexec.trans ?_
    rw [execStoreCompletion, findFlight_some hf]
    simp only [hact, hbusy]
    rw [pathTurn, hturn, afterLazy_none hq.2.2]
    rfl

/-- What an atomic at the home leaves: its lanes' bytes in memory, and its wave with what they found. -/
theorem performAtom_leaves (hrel : ∀ die core, (coreAt s die core).relb = []) (hs : NoSeenStores s f.who.die f.who.core)
    (hl : ∀ x ∈ xs, atomLocal sc x.1 = false) (hx : ∀ x ∈ xs, ∃ pa, x.1.loc = .mem pa ∧ pa % 32 + t.bits / 8 ≤ 32 ∧ pa / 32 ∉ s.poison)
    (hsh : shadowsOf s f.who.uid (fun _ _ => true) = []) (ord : Ord) :
    (performAtom s f dst op t xs sc ord).mem = xs.foldl (atomAfter op t) s.mem ∧ (performAtom s f dst op t xs sc ord).hostMem = s.hostMem ∧
    ∀ d w, dst = some d → findWave s d.uid = some w → ∃ b,
      findWave (performAtom s f dst op t xs sc ord) d.uid =
        some { writeLoad w d (laneReads (atomOlds op t s.mem xs)) with blocked := b } ∧
      OthersKeep s (performAtom s f dst op t xs sc ord) d.uid := by
  obtain ⟨hhome, hres⟩ := atomLanes_home (op := op) hrel hs hl hx
  rw [performAtom_home hres]
  generalize (atomLanes f.who sc op t s xs).1 = r at hhome
  generalize laneReads (atomOlds op t s.mem xs) = olds
  have hwaves : r.waves = s.waves := (congrArg State.waves hhome.frame :)
  have hhost : r.hostMem = s.hostMem := (congrArg State.hostMem hhome.frame :)
  have hacq := onlyCaches_atomAcquire (shadowsOf_atomRegs (dst := dst) (olds := olds) (by rw [shadowsOf, hwaves]; exact hsh)) (f := f) sc ord
  have hregs : SameBytes r (atomRegs r dst olds) := by
    cases dst with
    | none => exact ⟨rfl, rfl, fun _ => rfl⟩
    | some d =>
      exact sameBytes_updHolder r d.uid (fun w => writeLoad w d olds)
        fun x => ⟨writeLoad_uid d olds x, (congrArg Wave.pad (writeLoad_regs d olds x) :)⟩
  generalize atomAcquire (atomRegs r dst olds) f sc ord = a at hacq
  have hsame := (hregs.trans (sameBytes_of_caches hacq)).trans (sameBytes_endPart a f)
  refine ⟨hsame.mem.trans hhome.mem, hsame.host.trans hhost, ?_⟩
  rintro d w rfl hw
  obtain ⟨g, hg, hblocked⟩ := endPart_waves a f
  have hfind (u : Nat) : findWave (endPart a f) u = ((findWave s u).map (fun x => if x.uid == d.uid then writeLoad x d olds else x)).map g := by
    have hupd := findWave_updHolder r d.uid (fun x => writeLoad x d olds) (fun x => writeLoad_uid d olds x) u
    rw [show findWave r u = findWave s u by rw [findWave, hwaves, findWave]] at hupd
    rw [findWave_map hg (fun x => by rw [hblocked x]), ← hupd, findWave, hacq.waves]
    rfl
  refine ⟨(g (writeLoad w d olds)).blocked, ?_, fun u hu => ?_⟩
  · rw [hfind, hw]
    simp only [Option.map_some, findWave_uid hw, beq_self_eq_true, if_true]
    exact congrArg some (hblocked _)
  · rw [hfind]
    cases hx : findWave s u with
    | none => rfl
    | some x =>
      have hne : (x.uid == d.uid) = false := by rw [findWave_uid hx]; simpa using hu
      simp only [Option.map_some, hne, Bool.false_eq_true, if_false]
      rw [hblocked x]

end

/-- Settles O13: the issue is followed step by step, and at the home the lanes are a fold over memory. -/
theorem atomicsIssueAndPerform : Obligations.AtomicsIssueAndPerform := by
  unfold Obligations.AtomicsIssueAndPerform
  refine ⟨fun s w ls o as hn hr hg => ?_, fun t old c c2 ho hc => ?_, fun s fid op f dst t xs sc ord => ?_⟩
  · exact ⟨fun hi hc => atom_goesOn (load := true) hi rfl hn hc hg hr, fun hi hc => atom_goesOn (load := false) hi rfl hn hc hg hr,
      fun hnow => ⟨fun hi hc => atom_sends (load := true) hi rfl hn hc hg hr hnow, fun hi hc => atom_sends (load := false) hi rfl hn hc hg hr hnow⟩⟩
  · refine ⟨?_, atomNew_min ho hc c2, atomNew_max ho hc c2, fun i => Nat.testBit_and _ _ i, fun i => Nat.testBit_or _ _ i, fun i => Nat.testBit_xor _ _ i,
      rfl, rfl, ?_⟩
    · exact (congrArg (trunc t.bits) (Nat.cast_add old c).symm).trans (trunc_natCast t.bits (old + c))
    · rintro - w hw
      rw [fpEnv_reset hw]
      exact ⟨f32Add_eq_fadd hw old c, rfl, rfl⟩
  · intro n after hf hact hq hl hsh hx hd
    have hrel (die core : Nat) : (coreAt s die core).relb = [] := NoReleases.coreAt hq.2.2 die core
    have hseen : NoSeenStores s f.who.die f.who.core := fun g hg hdie hcore hvis m ys hstore => by
      rw [hq.2.1 g hg hdie hcore hvis, hact] at hstore
      cases hstore
    have hafter : after = atomAfter op t := rfl
    obtain ⟨hmem, hhost, hwave⟩ := performAtom_leaves (op := op) (dst := dst) hrel hseen hl hx hsh ord
    refine ⟨_, exec_atom hf hact hq, fun a => by rw [hmem, hafter], hhost, fun d w hdst hw => ?_⟩
    obtain ⟨-, rfl, hreg, hlanes⟩ := hd d hdst
    obtain ⟨b, hfound, hothers⟩ := hwave d w hdst hw
    have haccs := atomOlds_accs op d.ty s.mem xs
    have hlane : (atomOlds op d.ty s.mem xs).map (fun v => v.1.lane) = xs.map (fun x => x.1.lane) := by
      simpa [Function.comp_def] using congrArg (List.map Acc.lane) haccs
    have hlen : (atomOlds op d.ty s.mem xs).length = xs.length := by simpa using congrArg List.length haccs
    have hwrites := (loadWrites_writeLoad (vs := atomOlds op d.ty s.mem xs) hreg (fun hv => by rw [hlane]; rwa [if_pos hv] at hlanes)
      (fun hv => by rw [hlen]; rwa [if_neg (by simp [hv])] at hlanes) n w).wait b
    obtain ⟨-, hwrites⟩ := hwrites
    have hfinds {pre post : List (Acc × Nat × Nat)} {x : Acc × Nat × Nat} {pa : Nat} (hxs : xs = pre ++ x :: post) (hloc : x.1.loc = .mem pa) :
        (x.1, memNat (pre.foldl after s.mem) pa n) ∈ atomOlds op d.ty s.mem xs := by
      have hmem := mem_atomOlds op d.ty s.mem pre x post
      rw [atomFinds, hloc, ← hxs] at hmem
      exact hmem
    have hlt (pre : List (Acc × Nat × Nat)) (pa : Nat) : memNat (pre.foldl after s.mem) pa n % 2 ^ d.ty.bits = memNat (pre.foldl after s.mem) pa n :=
      Nat.mod_eq_of_lt (memNat_lt _ pa d.ty)
    refine ⟨_, hfound, hothers, ?_⟩
    cases hv : d.vec with
    | true =>
      rw [if_pos hv, hlane] at hwrites
      obtain ⟨hframe, hval⟩ := hwrites
      exact ⟨hframe, fun pre x post pa hxs hloc => (hval _ (hfinds hxs hloc)).trans (hlt pre pa)⟩
    | false =>
      rw [if_neg (by simp [hv])] at hwrites
      obtain ⟨hframe, hkept, hval⟩ := hwrites
      exact ⟨⟨hframe, hkept⟩, fun pre x post pa hxs hloc => (hval _ (hfinds hxs hloc)).trans (hlt pre pa)⟩

end Sys2Proof.Machine
end

section
/-!
PROOFS. The six estimator instructions as they issue (O18, O19): the lanes' screen and the combining buffer, the flush of its entries, the shares
of weight that an `est.ld` takes along, and forks that a change of cells squashes.
-/
namespace Sys2Proof.Machine

/-! ### The frame of the instructions on cells (R250) -/

theorem tlbFill_eq (s : State) (asid va : Nat) : ∃ tlb, tlbFill s asid va = { s with tlb := tlb } := by
  unfold tlbFill
  split <;> exact ⟨_, rfl⟩

theorem foldl_tlbFill_eq {α : Type} (asid : Nat) (va : α → Nat) (ls : List α) (s : State) :
    ∃ tlb, ls.foldl (fun st l => tlbFill st asid (va l)) s = { s with tlb := tlb } := by
  induction ls generalizing s with
  | nil => exact ⟨s.tlb, rfl⟩
  | cons l r ih =>
    obtain ⟨tlb, h⟩ := tlbFill_eq s asid (va l)
    rw [List.foldl_cons, h]
    exact ih _

/-- Lanes that every check lets pass are worked on with their translations cached. -/
theorem estBody_passes {s : State} {w : Wave} {ls : List Nat} {o : Ops} {k : AKind} {cls : Cls} {cs : List (Nat × CellRef × Region)}
    (hc : counter s w.uid cls < 63) (hg : gather (cellAt s w o k) ls = .ok cs) :
    ∃ tlb, ∀ body, estBody o k cls s w ls body = body { s with tlb := tlb } cs := by
  obtain ⟨tlb, h⟩ := foldl_tlbFill_eq w.asid (fun l => (eaOf w o (o.x % 8) l).toNat) ls s
  exact ⟨tlb, fun body => by rw [estBody, if_neg (by omega), hg, ← h]⟩

theorem mem_of_gather {α : Type} {f : Nat → Except LaneFault α} {ls : List Nat} {xs : List α} (hg : gather f ls = .ok xs) :
    ∀ x ∈ xs, ∃ l ∈ ls, f l = .ok x := by
  induction ls generalizing xs with
  | nil => cases hg; simp
  | cons l r ih =>
    unfold gather at hg
    split at hg
    · next y ys hy hys =>
      cases hg
      intro x hx
      obtain rfl | hx := List.mem_cons.mp hx
      · exact ⟨l, by simp, hy⟩
      · obtain ⟨m, hm, he⟩ := ih hys x hx
        exact ⟨m, by simp [hm], he⟩
    all_goals cases hg

/-- A lane's cell is one of the wave's context. -/
theorem cellAt_asid {s : State} {w : Wave} {o : Ops} {k : AKind} {l : Nat} {c : Nat × CellRef × Region} (h : cellAt s w o k l = .ok c) :
    c.2.1.asid = w.asid := by
  unfold cellAt at h
  dsimp only at h
  split at h
  · cases h
  · split at h
    · cases h
    · revert h
      cases checkPage s w.asid false k (eaOf w o (o.x % 8) l).toNat 16 with
      | error e => exact fun h => nomatch h
      | ok p => rintro ⟨⟩; rfl

/-! ### The screen of a lane's weight (R251) -/

/-- A weight that is NaN, negative or infinite. -/
def badWeight (x : Nat) : Bool := f32IsNan x || f32Lt x 0 || x == 0x7F800000

/-- The lanes that the screen keeps. -/
def keptLanes (val : Nat → Partial) (cs : List (Nat × CellRef × Region)) : List (Nat × CellRef × Region) :=
  cs.filter (fun c => !badWeight (val c.1).w && !f32IsZero (val c.1).w)

theorem screen_eq (p : Partial) :
    screen p = if badWeight p.w then (none, true) else if f32IsZero p.w then (none, false) else (some p, false) := by
  have hiff : (f32IsNan p.w = true ∨ f32Lt p.w 0 = true ∨ p.w = 0x7F800000) ↔ badWeight p.w = true := by simp [badWeight, or_assoc]
  simp only [screen, hiff]

theorem screen_raises (p : Partial) : (screen p).2 = badWeight p.w := by
  rw [screen_eq]
  cases badWeight p.w <;> cases f32IsZero p.w <;> rfl

theorem screen_keeps (val : Nat → Partial) (cs : List (Nat × CellRef × Region)) :
    cs.filterMap (fun c => (screen (val c.1)).1.map (fun p => (c, p))) = (keptLanes val cs).map (fun c => (c, val c.1)) := by
  induction cs with
  | nil => rfl
  | cons c r ih =>
    rw [List.filterMap_cons, ih, keptLanes, keptLanes, List.filter_cons, screen_eq]
    cases badWeight (val c.1).w <;> cases f32IsZero (val c.1).w <;> rfl

/-! ### The combining buffer (R239, R240) -/

/-- The entry of a context's cell and epoch. -/
def entryOf (asid pa epoch : Nat) (e : EcbEnt) : Bool := e.cell.pa == pa && e.cell.asid == asid && e.epoch == epoch

/-- The value of a cell and epoch in some entries. -/
def partIn (es : List EcbEnt) (asid pa epoch : Nat) : Partial := ((es.find? (entryOf asid pa epoch)).map (fun e => e.part)).getD emptyPart

theorem bufferPart_eq (s : State) (die core asid pa epoch : Nat) :
    bufferPart s die core asid pa epoch = partIn (coreAt s die core).ecb asid pa epoch := rfl

/-- An entry after one lane more. -/
def withLane (p : Partial) (wctx now : Nat) (e : EcbEnt) : EcbEnt :=
  { e with part := mergePart e.part p, waves := insNat wctx e.waves, since := now }

/-- Entries after one lane more, where there is room (R239). -/
def combine (c : CellRef) (epoch : Nat) (p : Partial) (wctx now : Nat) (es : List EcbEnt) : List EcbEnt :=
  if es.any (entryOf c.asid c.pa epoch) then es.map (fun e => if entryOf c.asid c.pa epoch e then withLane p wctx now e else e)
  else es ++ [{ cell := c, epoch := epoch, part := mergePart emptyPart p, waves := [wctx], since := now }]

theorem ecbAdd_room {s : State} {w : Wave} (h : (coreAt s w.die w.core).ecb.length < 64) (c : CellRef) (epoch : Nat) (p : Partial) :
    ecbAdd s w c epoch p = putCore s w.die w.core { coreAt s w.die w.core with
      ecb := combine c epoch p w.wctx (coreClock s w.die w.core) (coreAt s w.die w.core).ecb } := by
  unfold ecbAdd
  simp only [if_pos h]
  exact (apply_ite (fun es => putCore s w.die w.core { coreAt s w.die w.core with ecb := es }) _ _ _).symm

theorem length_combine_le (c : CellRef) (epoch : Nat) (p : Partial) (wctx now : Nat) (es : List EcbEnt) :
    (combine c epoch p wctx now es).length ≤ es.length + 1 := by
  unfold combine
  split <;> simp

/-- A lane that finds the entry of its cell and epoch merges into that value and into no other. -/
theorem partIn_withLane {c : CellRef} {epoch : Nat} {es : List EcbEnt} (hany : es.any (entryOf c.asid c.pa epoch) = true) (p : Partial)
    (wctx now pa e : Nat) :
    partIn (es.map (fun x => if entryOf c.asid c.pa epoch x then withLane p wctx now x else x)) c.asid pa e =
      if c.pa = pa ∧ epoch = e then mergePart (partIn es c.asid pa e) p else partIn es c.asid pa e := by
  have hkey (x : EcbEnt) : entryOf c.asid pa e (if entryOf c.asid c.pa epoch x then withLane p wctx now x else x) = entryOf c.asid pa e x := by
    split <;> rfl
  have hfind : (es.map (fun x => if entryOf c.asid c.pa epoch x then withLane p wctx now x else x)).find? (entryOf c.asid pa e) =
      (es.find? (entryOf c.asid pa e)).map (fun x => if entryOf c.asid c.pa epoch x then withLane p wctx now x else x) := by
    rw [List.find?_map]
    exact congrArg (fun q => (es.find? q).map _) (funext hkey)
  unfold partIn
  rw [hfind]
  cases hx : es.find? (entryOf c.asid pa e) with
  | none =>
    have hother : ¬(c.pa = pa ∧ epoch = e) := by
      rintro ⟨rfl, rfl⟩
      obtain ⟨x, hmem, hxe⟩ := List.any_eq_true.mp hany
      exact List.find?_eq_none.mp hx x hmem hxe
    rw [if_neg hother]
    rfl
  | some x =>
    have hxe : entryOf c.asid pa e x = true := List.find?_some hx
    have hmine : entryOf c.asid c.pa epoch x = true ↔ c.pa = pa ∧ epoch = e := by
      simp only [entryOf, Bool.and_eq_true, beq_iff_eq] at hxe ⊢
      grind
    simp only [Option.map_some, Option.getD_some]
    by_cases h : c.pa = pa ∧ epoch = e
    · rw [if_pos h, if_pos (hmine.mpr h), withLane]
    · rw [if_neg h, if_neg (mt hmine.mp h)]

/-- A lane that finds none opens one, with its sample as the value. -/
theorem partIn_append {c : CellRef} {epoch : Nat} {es : List EcbEnt} (hany : ¬es.any (entryOf c.asid c.pa epoch) = true) (p : Partial)
    (ws : List Nat) (now pa e : Nat) :
    partIn (es ++ [{ cell := c, epoch := epoch, part := mergePart emptyPart p, waves := ws, since := now }]) c.asid pa e =
      if c.pa = pa ∧ epoch = e then mergePart (partIn es c.asid pa e) p else partIn es c.asid pa e := by
  unfold partIn
  rw [List.find?_append]
  by_cases h : c.pa = pa ∧ epoch = e
  · obtain ⟨rfl, rfl⟩ := h
    have hnone : es.find? (entryOf c.asid c.pa epoch) = none := by
      rw [List.find?_eq_none]
      exact fun x hx hx' => hany (List.any_eq_true.mpr ⟨x, hx, hx'⟩)
    simp [hnone, entryOf]
  · have hnew : entryOf c.asid pa e { cell := c, epoch := epoch, part := mergePart emptyPart p, waves := ws, since := now } = false := by
      simpa [entryOf] using h
    simp [h, hnew]

theorem partIn_combine (c : CellRef) (epoch : Nat) (p : Partial) (wctx now pa e : Nat) (es : List EcbEnt) :
    partIn (combine c epoch p wctx now es) c.asid pa e =
      if c.pa = pa ∧ epoch = e then mergePart (partIn es c.asid pa e) p else partIn es c.asid pa e := by
  unfold combine
  split
  · next hany => exact partIn_withLane hany p wctx now pa e
  · next hany => exact partIn_append hany p [wctx] now pa e

/-- Lanes combine one after another. -/
def combineAll (w : Wave) (val : Nat → Partial) (ks : List (Nat × CellRef × Region)) (s : State) : State :=
  ks.foldl (fun st c => ecbAdd st w c.2.1 c.2.2.known (val c.1)) s

/-- Where the buffer has room, lanes change the buffer of their core and nothing else: a cell's value takes its lanes in their order (R240). -/
theorem combineAll_room {w : Wave} (val : Nat → Partial) (ks : List (Nat × CellRef × Region)) (hk : ∀ c ∈ ks, c.2.1.asid = w.asid) (s : State)
    (h : (coreAt s w.die w.core).ecb.length + ks.length ≤ 64) :
    { combineAll w val ks s with cores := s.cores } = s ∧ OnlyCore s (combineAll w val ks s) w.die w.core ∧
    ∀ pa e, bufferPart (combineAll w val ks s) w.die w.core w.asid pa e =
      (ks.filter (fun k => k.2.1.pa == pa && k.2.2.known == e)).foldl (fun p k => mergePart p (val k.1)) (bufferPart s w.die w.core w.asid pa e) := by
  induction ks generalizing s with
  | nil => exact ⟨rfl, fun _ _ => rfl, fun _ _ => rfl⟩
  | cons c r ih =>
    rw [List.length_cons] at h
    have hlane := ecbAdd_room (s := s) (w := w) (by omega) c.2.1 c.2.2.known (val c.1)
    have hbuf : (coreAt (ecbAdd s w c.2.1 c.2.2.known (val c.1)) w.die w.core).ecb =
        combine c.2.1 c.2.2.known (val c.1) w.wctx (coreClock s w.die w.core) (coreAt s w.die w.core).ecb := by rw [hlane, coreAt_putCore]
    have hlen := length_combine_le c.2.1 c.2.2.known (val c.1) w.wctx (coreClock s w.die w.core) (coreAt s w.die w.core).ecb
    obtain ⟨hframe, honly, hparts⟩ := ih (fun x hx => hk x (by simp [hx])) (ecbAdd s w c.2.1 c.2.2.known (val c.1)) (by rw [hbuf]; omega)
    refine ⟨?_, fun k hk => (honly k hk).trans ?_, fun pa e => (hparts pa e).trans ?_⟩
    · refine (congrArg (fun t : State => { t with cores := s.cores }) hframe :).trans ?_
      rw [hlane]
      rfl
    · rw [hlane]
      exact stGet_stSet_other _ _ hk _
    · have hasid : w.asid = c.2.1.asid := (hk c (by simp)).symm
      rw [bufferPart_eq, bufferPart_eq, hbuf, hasid, partIn_combine, List.filter_cons]
      by_cases hc : c.2.1.pa = pa ∧ c.2.2.known = e
      · rw [if_pos hc, if_pos (by simpa using hc)]
        rfl
      · rw [if_neg hc, if_neg (by simpa using hc)]

/-- With room or without, lanes that combine change cores and start operations. -/
theorem onlySettled_combineAll (w : Wave) (val : Nat → Partial) (ks : List (Nat × CellRef × Region)) (s : State) :
    OnlySettled s (combineAll w val ks s) := by
  have hlane (s : State) (c : CellRef) (epoch : Nat) (p : Partial) : OnlySettled s (ecbAdd s w c epoch p) := by
    unfold ecbAdd
    dsimp only
    (repeat' split) <;> rfl
  induction ks generalizing s with
  | nil => exact .refl s
  | cons c r ih => exact (hlane s _ _ _).trans (ih _)

/-! ### One operation more, and the wave goes on (R194) -/

theorem putWave_putWave (s : State) {a b : Wave} (h : b.uid = a.uid) : putWave (putWave s a) b = putWave s b := by
  have hone (x : Wave) : (if (if x.uid == a.uid then a else x).uid == b.uid then b else if x.uid == a.uid then a else x) =
      if x.uid == b.uid then b else x := by
    rw [h]
    by_cases hx : x.uid = a.uid <;> simp [hx]
  simp only [putWave, List.map_map, Function.comp_def, hone]

/-- A wave that stands in the state goes on as at the end of an instruction; without forks no change of cells squashes any. -/
theorem goOn_squash_quiet {s t : State} {w : Wave} (hn : NoForks s w) (hw : findWave s w.uid = some w) (ht : t.waves = s.waves) (sls : List Nat)
    (rs : List (Acc × Nat)) : goOn (squashStores t w sls rs) w.uid = finish t w := by
  rw [squashStores_quiet hn ht]
  exact goOn_found (waveIs_of_waves hw ht).1

/-- So does a wave just put in its place. -/
theorem goOn_squash_putWave {s t : State} {w w1 : Wave} (hn : NoForks s w) (hw : findWave s w.uid = some w) (ht : t.waves = s.waves)
    (hu : w1.uid = w.uid) (hf : w1.fork = w.fork) (sls : List Nat) (rs : List (Acc × Nat)) :
    goOn (squashStores (putWave t w1) w1 sls rs) w.uid = finish t w1 := by
  have hf1 : w1.fork = none := hf.trans hn.1
  have hn1 : NoForks (putWave t w1) w1 := ⟨hf1, shadowsOf_putWave hf1 (hu ▸ (noForks_of_waves hn ht).2)⟩
  obtain ⟨-, hput, -, -⟩ := onlyWave_putWave (waveIs_of_waves hw ht).1 hu
  rw [squashStores_quiet hn1 rfl]
  rw [← hu] at hput ⊢
  rw [goOn_found hput, putWave_putWave t (goSeq_uid w1), finish]

section
variable {i : Instr} {s r : State} {w w1 : Wave} {ls : List Nat} {cls : Cls} {act : Act} {rr : Option Nat}

theorem waveIs_finish {t : State} (hi : Issues s i w ls) (ht : t.waves = s.waves) (hu : w1.uid = w.uid) :
    WaveIs s (putWave t (goSeq w1)) w.uid (goSeq w1) := by
  have hat := waveIs_of_waves (curWave_found hi.1).2 ht
  obtain ⟨-, hput, hkeep, -⟩ := onlyWave_putWave (w' := goSeq w1) hat.1 ((goSeq_uid w1).trans hu)
  exact waveIs_trans hat ⟨hput, hkeep⟩

/-- An instruction that starts one operation behind those that were there, and goes on. -/
theorem sends_finish {P : State → Prop} (hi : Issues s i w ls) (hf : w.fork = none) (hr : { r with tlb := s.tlb, cores := s.cores } = s)
    (hx : exec i s = finish (addFlight r (whoOf w) (some cls) act rr) w1) (hu : w1.uid = w.uid)
    (hP : P (putWave (addFlight r (whoOf w) (some cls) act rr) (goSeq w1))) : Sends i s w w1 cls act rr P := by
  have hwaves : r.waves = s.waves := (congrArg State.waves hr :)
  have hghosts : r.ghosts = s.ghosts := (congrArg State.ghosts hr :)
  have hfl : r.flights = s.flights := (congrArg State.flights hr :)
  have hnext : r.nextFid = s.nextFid := (congrArg State.nextFid hr :)
  have hnew : NewFlight r (putWave (addFlight r (whoOf w) (some cls) act rr) (goSeq w1)) w (some cls) act rr := newFlight_addFlight rfl
  have hcount : CountsUp r (putWave (addFlight r (whoOf w) (some cls) act rr) (goSeq w1)) w.uid cls := countsUp_addFlight hf rfl
  refine ⟨_, hx, ?_, waveIs_finish hi hwaves hu, fun g _ => by rw [putWave_ghosts, ← hghosts]; rfl, fun f hid => ?_, ?_, ?_, hP⟩
  · exact (congrArg (fun t : State => { t with waves := s.waves, ghosts := s.ghosts, flights := s.flights, nextFid := s.nextFid }) hr :)
  · rw [← hfl]
    exact mem_addFlight (by rwa [hnext])
  · rwa [NewFlight, hnext] at hnew
  · simpa only [CountsUp, counter, hfl] using hcount

end

/-! ### est.add and est.mrg (R240, R245, R251) -/

/-- The staged record of a lane of an ordered region (R245). -/
def stagedLane (w : Wave) (val : Nat → Partial) (c : Nat × CellRef × Region) : Staged :=
  { part := val c.1, lane := c.1, cell := c.2.1.idx, seq := stGet 0 c.2.1.region w.seqs, widx := w.widx, lno := w.launch % 2 ^ 32 }

/-- The records that leave for the keepers. -/
def stagedLanes (w : Wave) (val : Nat → Partial) (cs : List (Nat × CellRef × Region)) : List (CellRef × Staged) :=
  ((keptLanes val cs).filter (fun c => c.2.2.ord)).map (fun c => (c.2.1, stagedLane w val c))

/-- The wave behind its samples: NV, and one more of each ordered region named. -/
def sampled (w : Wave) (val : Nat → Partial) (cs : List (Nat × CellRef × Region)) : Wave :=
  { w with
    fpflags := if cs.any (fun c => badWeight (val c.1).w) then w.fpflags ||| 1 else w.fpflags
    seqs := (orderedNamed cs).foldl (fun m r => stSet 0 r ((stGet 0 r m + 1) % 2 ^ 24) m) w.seqs }

section
variable {s : State} {w : Wave} {ls : List Nat} {o : Ops} {cs : List (Nat × CellRef × Region)}

theorem estAddBody_passes (val : Wave → Nat → Partial) (hc : counter s w.uid .st < 63) (hg : gather (cellAt s w o .estWrite) ls = .ok cs) :
    ∃ tlb, estAddBody o val s w ls =
      if keptLanes (val w) cs = [] then finish { s with tlb := tlb } (sampled w (val w) cs)
      else finish (addFlight (combineAll w (val w) ((keptLanes (val w) cs).filter (fun c => !c.2.2.ord)) { s with tlb := tlb }) (whoOf w) (some .st)
        (if (stagedLanes w (val w) cs).isEmpty then .nop else .stage (stagedLanes w (val w) cs)) none) (sampled w (val w) cs) := by
  obtain ⟨tlb, h⟩ := estBody_passes hc hg
  refine ⟨tlb, (h _).trans ?_⟩
  have hwave : { (if cs.any (fun c => badWeight (val w c.1).w) then orFlags w flNV else w) with
      seqs := (orderedNamed cs).foldl (fun m r => stSet 0 r ((stGet 0 r m + 1) % 2 ^ 24) m)
        (if cs.any (fun c => badWeight (val w c.1).w) then orFlags w flNV else w).seqs } = sampled w (val w) cs := by
    unfold sampled
    split <;> rfl
  simp only [screen_keeps, screen_raises, hwave]
  simp only [List.filter_map, List.foldl_map, List.map_map, Function.comp_def, List.isEmpty_map]
  by_cases hk : keptLanes (val w) cs = []
  · simp [hk]
  · simp only [hk, stagedLanes, List.isEmpty_iff, List.map_eq_nil_iff, if_false]
    rfl

theorem mem_keptLanes {val : Nat → Partial} {c : Nat × CellRef × Region} (h : c ∈ keptLanes val cs) : c ∈ cs := (List.mem_filter.mp h).1

/-- Lanes whose samples are all dropped leave nothing behind but what the wave notes. -/
theorem samples_dropped {i : Instr} {val : Wave → Nat → Partial} (hi : Issues s i w ls) (hx : exec i s = runInstr i s (estAddBody o val))
    (hc : counter s w.uid .st < 63) (hg : gather (cellAt s w o .estWrite) ls = .ok cs) (hk : keptLanes (val w) cs = []) :
    Answers i s (fun t => WaveIs s t w.uid (goSeq (sampled w (val w) cs)) ∧ { t with waves := s.waves, tlb := s.tlb } = s) := by
  obtain ⟨tlb, hbody⟩ := estAddBody_passes val hc hg
  rw [if_pos hk] at hbody
  exact ⟨_, (hx.trans (runInstr_issues hi _)).trans hbody, waveIs_finish hi rfl rfl, rfl⟩

/-- Samples that are kept combine in the buffer, or leave for the keepers. -/
theorem samples_send {i : Instr} {val : Wave → Nat → Partial} (hi : Issues s i w ls) (hx : exec i s = runInstr i s (estAddBody o val))
    (hf : w.fork = none) (hc : counter s w.uid .st < 63) (hg : gather (cellAt s w o .estWrite) ls = .ok cs)
    (hroom : (coreAt s w.die w.core).ecb.length + cs.length ≤ 64) (hk : keptLanes (val w) cs ≠ []) :
    Sends i s w (sampled w (val w) cs) .st (if (stagedLanes w (val w) cs).isEmpty then .nop else .stage (stagedLanes w (val w) cs)) none (fun t =>
      OnlyCore s t w.die w.core ∧ ∀ pa e, bufferPart t w.die w.core w.asid pa e =
        ((keptLanes (val w) cs).filter (fun k => !k.2.2.ord && k.2.1.pa == pa && k.2.2.known == e)).foldl (fun p k => mergePart p (val w k.1))
          (bufferPart s w.die w.core w.asid pa e)) := by
  obtain ⟨tlb, hbody⟩ := estAddBody_passes val hc hg
  rw [if_neg hk] at hbody
  have hasid : ∀ c ∈ (keptLanes (val w) cs).filter (fun c => !c.2.2.ord), c.2.1.asid = w.asid := fun c hc => by
    obtain ⟨l, -, hl⟩ := mem_of_gather hg c (mem_keptLanes (List.mem_filter.mp hc).1)
    exact cellAt_asid hl
  have hlen : ((keptLanes (val w) cs).filter (fun c => !c.2.2.ord)).length ≤ cs.length :=
    (List.length_filter_le _ _).trans (List.length_filter_le _ _)
  obtain ⟨hframe, honly, hparts⟩ := combineAll_room (val w) _ hasid { s with tlb := tlb } ((Nat.add_le_add_left hlen _).trans hroom)
  refine sends_finish hi hf (congrArg (fun t : State => { t with tlb := s.tlb }) hframe) ((hx.trans (runInstr_issues hi _)).trans hbody) rfl
    ⟨honly, fun pa e => (hparts pa e).trans ?_⟩
  rw [List.filter_filter]
  refine congrArg (fun p => ((keptLanes (val w) cs).filter p).foldl _ _) (funext fun k => ?_)
  rw [Bool.and_comm, Bool.and_assoc]

end

/-! ### The shares of an `est.ld` (R249, R374) -/

/-- Half of what is left goes with each region in turn. -/
def sharesOf : Nat → List Nat → List (Nat × Nat)
  | _, [] => []
  | g, r :: rs => (r, g / 2) :: sharesOf (g - g / 2) rs

/-- What the wave keeps. -/
def weightKept : Nat → List Nat → Nat
  | g, [] => g
  | g, _ :: rs => weightKept (g - g / 2) rs

theorem sharesOf_regions (g : Nat) (rs : List Nat) : (sharesOf g rs).map (fun x => x.1) = rs := by
  induction rs generalizing g with
  | nil => rfl
  | cons r rs ih => rw [sharesOf, List.map_cons, ih]

theorem weightKept_add_shares (g : Nat) (rs : List Nat) : weightKept g rs + ((sharesOf g rs).map (fun x => x.2)).sum = g := by
  induction rs generalizing g with
  | nil => rfl
  | cons r rs ih =>
    have hrest := ih (g - g / 2)
    simp only [weightKept, sharesOf, List.map_cons, List.sum_cons]
    omega

theorem sharesOf_half {g : Nat} {rs : List Nat} {pre post : List (Nat × Nat)} {x : Nat × Nat} (h : sharesOf g rs = pre ++ x :: post) :
    x.2 = (g - (pre.map (fun y => y.2)).sum) / 2 := by
  induction pre generalizing g rs with
  | nil =>
    cases rs with
    | nil => cases h
    | cons r rs => cases h; rfl
  | cons y pre ih =>
    cases rs with
    | nil => cases h
    | cons r rs =>
      obtain ⟨rfl, hrest⟩ := List.cons.inj h
      rw [ih hrest, List.map_cons, List.sum_cons, Nat.sub_sub]

/-- A wave with a unit of weight for each region splits without a draw. -/
theorem splitFor_enough {rs : List Nat} {w : Wave} (h : rs ≠ [] → 2 ^ rs.length ≤ w.weight) (s : State) (k : State → Wave → List (Nat × Nat) → Out) :
    splitFor s w rs k = k s { w with weight := weightKept w.weight rs } (sharesOf w.weight rs) := by
  induction rs generalizing w k with
  | nil => rfl
  | cons r rs ih =>
    have h2 : 2 * 2 ^ rs.length ≤ w.weight := by
      have := h (List.cons_ne_nil r rs)
      rwa [List.length_cons, Nat.pow_succ, Nat.mul_comm] at this
    have hpos : 0 < 2 ^ rs.length := Nat.two_pow_pos _
    rw [splitFor, withUnits_enough (by omega)]
    exact ih (fun _ => by show 2 ^ rs.length ≤ w.weight - w.weight / 2; omega) _

/-- The regions that an `est.ld` asks for reseeds. -/
def askedRegions (nr : Bool) (cs : List (Nat × CellRef × Region)) : List Nat :=
  if nr then [] else ((cs.filter (fun c => c.2.2.rs)).map (fun c => c.2.1.region)).eraseDups

/-- A wave that has given shares away. -/
def shared (w : Wave) (rs : List Nat) : Wave := { w with weight := weightKept w.weight rs }

section
variable {s : State} {w : Wave} {ls : List Nat} {o : Ops} {cs : List (Nat × CellRef × Region)}

/-- What an `est.ld` changes in the wave's program order, for the forks that have read it (log 117). -/
def askedCells (nr : Bool) (cs : List (Nat × CellRef × Region)) : List (Acc × Nat) :=
  cellsChanged (cs.filter (fun c => (askedRegions nr cs).contains c.2.1.region))

/-- An `est.ld` with a unit of weight for each region that it asks. -/
theorem exec_estLd (hi : Issues s (.estLd o) w ls) (hc : counter s w.uid .ld < 63) (hg : gather (cellAt s w o .estRead) ls = .ok cs)
    (hw : askedRegions (o.x.testBit 3) cs ≠ [] → 2 ^ (askedRegions (o.x.testBit 3) cs).length ≤ w.weight) :
    ∃ tlb, exec (.estLd o) s = goOn (squashStores (putWave (addFlight { s with tlb := tlb } (whoOf w) (some .ld)
      (.estLd w.uid o.d (o.x.testBit 3) (cs.map (fun c => (c.1, c.2.1))) (sharesOf w.weight (askedRegions (o.x.testBit 3) cs))) none)
      (shared w (askedRegions (o.x.testBit 3) cs))) (shared w (askedRegions (o.x.testBit 3) cs)) (gang w) (askedCells (o.x.testBit 3) cs)) w.uid := by
  obtain ⟨tlb, hbody⟩ := estBody_passes hc hg
  have hexec : exec (.estLd o) s = execEstLd o s := rfl
  refine ⟨tlb, hexec.trans ((runInstr_issues hi _).trans ((hbody _).trans ?_))⟩
  dsimp only
  rw [bitAt_eq_testBit]
  exact splitFor_enough hw _ _

theorem estLd_sends (hi : Issues s (.estLd o) w ls) (hn : NoForks s w) (hc : counter s w.uid .ld < 63)
    (hg : gather (cellAt s w o .estRead) ls = .ok cs)
    (hw : askedRegions (o.x.testBit 3) cs ≠ [] → 2 ^ (askedRegions (o.x.testBit 3) cs).length ≤ w.weight) :
    Sends (.estLd o) s w (shared w (askedRegions (o.x.testBit 3) cs)) .ld
      (.estLd w.uid o.d (o.x.testBit 3) (cs.map (fun c => (c.1, c.2.1))) (sharesOf w.weight (askedRegions (o.x.testBit 3) cs))) none
      (fun t => t.cores = s.cores) := by
  obtain ⟨tlb, hexec⟩ := exec_estLd hi hc hg hw
  have hend := goOn_squash_putWave (w1 := shared w (askedRegions (o.x.testBit 3) cs))
    (t := addFlight { s with tlb := tlb } (whoOf w) (some .ld)
      (.estLd w.uid o.d (o.x.testBit 3) (cs.map (fun c => (c.1, c.2.1))) (sharesOf w.weight (askedRegions (o.x.testBit 3) cs))) none)
    hn (curWave_found hi.1).2 rfl rfl rfl (gang w) (askedCells (o.x.testBit 3) cs)
  exact sends_finish (r := { s with tlb := tlb }) (w1 := shared w (askedRegions (o.x.testBit 3) cs)) hi hn.1 rfl (hexec.trans hend) rfl rfl

end

/-! ### Flushes (R241) -/

/-- Operations have started behind those that were there. -/
def started (s : State) (ms : List Flight) (n : Nat) : State := { s with flights := s.flights ++ ms, nextFid := n }

/-- Operations in no class, among them a merge of each of some entries. -/
structure Merges (es : List EcbEnt) (cmd : Option Nat) (ms : List Flight) : Prop where
  unclassed : ∀ g ∈ ms, g.cls = none
  sent : ∀ e ∈ es, ∃ g ∈ ms, ∃ ws, g.act = .merge e.cell e.part ws cmd

theorem counter_started {ms : List Flight} (h : ∀ g ∈ ms, g.cls = none) (s : State) (n uid : Nat) (c : Cls) :
    counter (started s ms n) uid c = counter s uid c := by
  have hnone : ms.filter (fun f => f.who.uid == uid && f.cls == some c) = [] := by
    rw [List.filter_eq_nil_iff]
    intro g hg
    simp [h g hg]
  simp [counter, started, List.filter_append, hnone]

theorem flushEntry_eq (s : State) (die core : Nat) (e : EcbEnt) (waits : List Nat) (cmd : Option Nat) :
    ∃ g, flushEntry s die core e waits cmd = started s [g] (s.nextFid + 1) ∧ g.cls = none ∧ ∃ ws, g.act = .merge e.cell e.part ws cmd :=
  ⟨_, rfl, rfl, _, rfl⟩

theorem flushEntries_eq (die core : Nat) (waits : List Nat) (cmd : Option Nat) (es : List EcbEnt) (s : State) :
    ∃ ms n, es.foldl (fun st e => flushEntry st die core e waits cmd) s = started s ms n ∧ Merges es cmd ms := by
  induction es generalizing s with
  | nil => exact ⟨[], s.nextFid, by simp [started], by simp, by simp⟩
  | cons e r ih =>
    obtain ⟨g, hflush, hcls, hact⟩ := flushEntry_eq s die core e waits cmd
    obtain ⟨ms, n, hrest, hclss, hacts⟩ := ih (started s [g] (s.nextFid + 1))
    refine ⟨g :: ms, n, ?_, List.forall_mem_cons.mpr ⟨hcls, hclss⟩, List.forall_mem_cons.mpr ⟨⟨g, List.mem_cons_self, hact⟩, fun x hx => ?_⟩⟩
    · rw [List.foldl_cons, hflush, hrest]
      simp [started]
    · obtain ⟨y, hy, hyact⟩ := hacts x hx
      exact ⟨y, List.mem_cons_of_mem _ hy, hyact⟩

/-- A core without the entries that a test picks. -/
def withoutEntries (p : EcbEnt → Bool) (c : Core) : Core := { c with ecb := c.ecb.filter (fun e => !p e) }

/-- A flush takes the entries it picks out of the buffer and starts a merge for each. -/
theorem flushWhere_eq (s : State) (die core : Nat) (p : EcbEnt → Bool) (waits : List Nat) (cmd : Option Nat) :
    ∃ ms n, flushWhere s die core p waits cmd = started (putCore s die core (withoutEntries p (coreAt s die core))) ms n ∧
      Merges ((coreAt s die core).ecb.filter p) cmd ms :=
  flushEntries_eq die core waits cmd _ _

/-! ### est.clr (R252) -/

/-- The entries that stand for one of some cells. -/
def ofCells (cs : List (Nat × CellRef × Region)) (e : EcbEnt) : Bool := (cs.map (fun c => c.2.1)).any (fun c => c.pa == e.cell.pa)

theorem ofCells_iff {cs : List (Nat × CellRef × Region)} {e : EcbEnt} : ofCells cs e = true ↔ e.cell.pa ∈ cs.map (fun c => c.2.1.pa) := by
  simp [ofCells]

section
variable {s : State} {w : Wave} {ls : List Nat} {o : Ops} {cs : List (Nat × CellRef × Region)}

/-- An `est.clr` flushes the entries of its cells and leaves behind them. -/
theorem exec_estClr (hi : Issues s (.estClr o) w ls) (hc : counter s w.uid .st < 63) (hg : gather (cellAt s w o .estWrite) ls = .ok cs) :
    ∃ tlb ms n, Merges ((coreAt s w.die w.core).ecb.filter (ofCells cs)) none ms ∧
      exec (.estClr o) s = goOn (squashStores (addFlight (started (putCore { s with tlb := tlb } w.die w.core
        (withoutEntries (ofCells cs) (coreAt s w.die w.core))) ms n) (whoOf w) (some .st) (.estClr (cs.map (fun c => c.2.1))) none) w (gang w)
        (cellsChanged cs)) w.uid := by
  obtain ⟨tlb, hbody⟩ := estBody_passes hc hg
  obtain ⟨ms, n, hflush, hms⟩ := flushWhere_eq { s with tlb := tlb } w.die w.core (ofCells cs) [] none
  have hexec : exec (.estClr o) s = execEstClr o s := rfl
  refine ⟨tlb, ms, n, hms, hexec.trans ((runInstr_issues hi _).trans ((hbody _).trans ?_))⟩
  exact congrArg (fun t => goOn (squashStores (addFlight t (whoOf w) (some .st) (.estClr (cs.map (fun c => c.2.1))) none) w (gang w)
    (cellsChanged cs)) w.uid) hflush

theorem estClr_answers (hi : Issues s (.estClr o) w ls) (hn : NoForks s w) (hc : counter s w.uid .st < 63)
    (hg : gather (cellAt s w o .estWrite) ls = .ok cs) :
    Answers (.estClr o) s (fun t =>
      { t with waves := s.waves, tlb := s.tlb, flights := s.flights, nextFid := s.nextFid, cores := s.cores } = s ∧
      WaveIs s t w.uid (goSeq w) ∧ OnlyCore s t w.die w.core ∧ CountsUp s t w.uid .st ∧
      (∃ f ∈ t.flights, f.who = whoOf w ∧ f.cls = some .st ∧ f.act = .estClr (cs.map (fun c => c.2.1))) ∧
      (∀ e ∈ (coreAt t w.die w.core).ecb, e.cell.pa ∉ cs.map (fun c => c.2.1.pa)) ∧
      ∀ e ∈ (coreAt s w.die w.core).ecb, e.cell.pa ∈ cs.map (fun c => c.2.1.pa) → ∃ g ∈ t.flights, ∃ ws, g.act = .merge e.cell e.part ws none) := by
  obtain ⟨tlb, ms, n, ⟨hcls, hsent⟩, hexec⟩ := exec_estClr hi hc hg
  replace hexec := hexec.trans (goOn_squash_quiet hn (curWave_found hi.1).2 (by rfl) _ _)
  generalize hr : started (putCore { s with tlb := tlb } w.die w.core (withoutEntries (ofCells cs) (coreAt s w.die w.core))) ms n = r at hexec
  have hcore : coreAt r w.die w.core = withoutEntries (ofCells cs) (coreAt s w.die w.core) := by
    rw [← hr]
    exact coreAt_putCore _ _ _ _
  have hcount (c : Cls) : counter r w.uid c = counter s w.uid c := by
    rw [← hr]
    exact counter_started hcls _ n w.uid c
  obtain ⟨hup, hother⟩ : CountsUp r (putWave (addFlight r (whoOf w) (some .st) (.estClr (cs.map (fun c => c.2.1))) none) (goSeq w)) w.uid .st :=
    countsUp_addFlight hn.1 rfl
  refine ⟨_, hexec, ?_, waveIs_finish hi ?_ rfl, fun k hk => ?_, ⟨hup.trans (by rw [hcount]), fun c hc => (hother c hc).trans (hcount c)⟩,
    ⟨_, List.mem_append_right _ (List.mem_singleton_self _), rfl, rfl, rfl⟩, fun e he => ?_, fun e he hpa => ?_⟩
  · rw [← hr]; rfl
  · rw [← hr]; rfl
  · rw [← hr]
    exact stGet_stSet_other _ _ hk _
  · have hecb : e ∈ (withoutEntries (ofCells cs) (coreAt s w.die w.core)).ecb := hcore ▸ he
    have hnot := (List.mem_filter.mp hecb).2
    rw [← ofCells_iff]
    simpa using hnot
  · obtain ⟨g, hg, hact⟩ := hsent e (List.mem_filter.mpr ⟨he, ofCells_iff.mpr hpa⟩)
    refine ⟨g, List.mem_append_left _ ?_, hact⟩
    rw [← hr]
    exact List.mem_append_right _ hg

end

/-! ### est.adv and est.close (R253) -/

section
variable {s : State} {w : Wave} {ls : List Nat} {c : Cop} {r : Region}

/-- The reply register of a command, in the bank in force (R147). -/
def replyKey (w : Wave) (c : Cop) : Option Nat := if c.rf then some (bankKey w c.rr) else none

theorem regionBody_valid (hc : counter s w.uid .st < 63) (hsa : (rdS w c.sa).toNat < 256) (hr : regionOf s w.asid (rdS w c.sa).toNat = some r)
    (hv : r.valid = true) (adv : Bool) :
    regionBody c adv s w =
      finish (addFlight s (whoOf w) (some .st) (.region w.asid (rdS w c.sa).toNat adv 0 0 false) (replyKey w c)) w := by
  rw [regionBody, if_neg (by omega)]
  simp only [hsa, if_true, hr, hv, Bool.not_true, Bool.false_eq_true, if_false, replyKey]

theorem region_sends {i : Instr} {adv : Bool} (hi : Issues s i w ls) (hx : exec i s = runInstr i s (fun s w _ => regionBody c adv s w))
    (hf : w.fork = none) (hc : counter s w.uid .st < 63) (hsa : (rdS w c.sa).toNat < 256)
    (hr : regionOf s w.asid (rdS w c.sa).toNat = some r) (hv : r.valid = true) :
    Sends i s w w .st (.region w.asid (rdS w c.sa).toNat adv 0 0 false) (replyKey w c) (fun t => t.cores = s.cores) :=
  sends_finish hi hf rfl ((hx.trans (runInstr_issues hi _)).trans (regionBody_valid hc hsa hr hv adv)) rfl rfl

end

/-- Settles O18: samples go through the screen into the buffer or to the keepers; the other four leave as one operation each. -/
theorem estimatorInstructions : Obligations.EstimatorInstructions := by
  unfold Obligations.EstimatorInstructions
  refine ⟨fun s w ls o cs hn hc hg hroom => ⟨?add, ?mrg⟩, fun s w ls hn => ⟨?ld, fun o cs hi hc hg => estClr_answers hi hn hc hg, ?region⟩⟩
  case add =>
    exact fun hi => ⟨samples_send (val := fun w l => sampleOf w o l) hi rfl hn.1 hc hg hroom,
      samples_dropped (val := fun w l => sampleOf w o l) hi rfl hc hg⟩
  case mrg =>
    exact fun hi => ⟨samples_send (val := fun w l => partOf w o l) hi rfl hn.1 hc hg hroom,
      samples_dropped (val := fun w l => partOf w o l) hi rfl hc hg⟩
  case ld =>
    intro o cs hi hc hg rs hw
    exact ⟨shared w rs, sharesOf w.weight rs, sharesOf_regions _ rs, weightKept_add_shares _ rs, fun pre x post h => sharesOf_half h, rfl,
      estLd_sends hi hn hc hg hw.resolve_left⟩
  case region =>
    intro o r hc hsa hr hv
    exact ⟨fun hi => region_sends hi rfl hn.1 hc hsa hr hv, fun hi => region_sends hi rfl hn.1 hc hsa hr hv⟩

end Sys2Proof.Machine
end

section
/-!
PROOFS. The six estimator instructions run to their end (O19): what a squash leaves the wave whose forks it drops, and the waves that go on.
-/
namespace Sys2Proof.Machine

/-! ### What a squash leaves (R126, R133) -/

/-- The predictor learns, at once or later: no operation starts or ends, and waves note at most what they still have to teach. -/
def Learns (s t : State) : Prop :=
  t.flights = s.flights ∧ ∃ h : Wave → Wave, t.waves = s.waves.map h ∧ ∀ x, { h x with trains := x.trains } = x

theorem Learns.of_eq {s t : State} (hf : t.flights = s.flights) (hw : t.waves = s.waves) : Learns s t :=
  ⟨hf, id, by simp [hw], fun _ => rfl⟩

theorem Learns.trans {a b c : State} (h : Learns a b) (g : Learns b c) : Learns a c := by
  obtain ⟨hf, p, hp, hpx⟩ := h
  obtain ⟨gf, q, hq, hqx⟩ := g
  refine ⟨gf.trans hf, q ∘ p, by rw [hq, hp, List.map_map], fun x => ?_⟩
  conv_rhs => rw [← hpx x, ← hqx (p x)]
  rfl

theorem Learns.findWave {s t : State} (h : Learns s t) {u : Nat} {x : Wave} (hx : findWave s u = some x) :
    ∃ y, findWave t u = some y ∧ { y with trains := x.trains } = x := by
  obtain ⟨-, g, hg, hgx⟩ := h
  exact ⟨g x, by rw [findWave_map hg (fun y => (congrArg Wave.uid (hgx y) :)), hx]; rfl, hgx x⟩

@[simp] theorem train_flights (s : State) (w : Wave) (m : FcMark) (sls : List Nat) : (train s w m sls).flights = s.flights := by
  unfold train
  split <;> rfl

theorem learns_trainWhen (s : State) (uid older : Nat) (m : FcMark) (sls : List Nat) : Learns s (trainWhen s uid older m sls) := by
  unfold trainWhen settleTraining
  dsimp only
  split
  · exact .of_eq rfl rfl
  · split
    · exact .of_eq rfl rfl
    · split
      · exact .of_eq (train_flights _ _ _ _) (train_waves _ _ _ _)
      · exact ⟨rfl, _, rfl, fun x => by split <;> rfl⟩

theorem learns_trainAll (uid : Nat) (fs : List Fork) (s : State) :
    Learns s (fs.foldl (fun st f => trainWhen st uid 0 f.mark f.returned) s) :=
  List.foldlRecOn fs _ (.of_eq rfl rfl) fun _ ht f _ => ht.trans (learns_trainWhen _ uid 0 f.mark f.returned)

/-- A wave put in its place learns on. -/
theorem learns_putWave {s : State} {w w0 : Wave} (hw : findWave s w.uid = some w0) (fs : List Fork) :
    (fs.foldl (fun st f => trainWhen st w.uid 0 f.mark f.returned) (putWave s w)).flights = s.flights ∧
    ∃ w1, findWave (fs.foldl (fun st f => trainWhen st w.uid 0 f.mark f.returned) (putWave s w)) w.uid = some w1 ∧
      { w1 with trains := w.trains } = w := by
  have hlearn := learns_trainAll w.uid fs (putWave s w)
  exact ⟨hlearn.1, hlearn.findWave (findWave_putWave_same hw)⟩

/-- A squash ends no operation, and a wave that it does not drop keeps all but the marks of its return and what the predictor still learns. -/
theorem squashWhere_keeps {s : State} {w : Wave} (hw : findWave s w.uid = some w) {p : Wave → Fork → Bool}
    (hstay : w.uid ∉ droppedBy s w.uid p) :
    (squashWhere s w.uid p).flights = s.flights ∧
    ∃ w1, findWave (squashWhere s w.uid p) w.uid = some w1 ∧ { w1 with slices := w.slices, trains := w.trains } = w := by
  by_cases hnone : shadowsOf s w.uid p = []
  · have hsame : squashWhere s w.uid p = s := by simp [squashWhere, hnone]
    exact ⟨congrArg State.flights hsame, w, by rw [hsame, hw], rfl⟩
  have hids : ((shadowsOf s w.uid p).map (fun x => x.uid)).isEmpty = false := by simpa using hnone
  simp only [squashWhere, hids, hw, Bool.false_eq_true, if_false]
  generalize hs2 : ({ putCore s w.die w.core _ with waves := _ } : State) = s2
  have hfl : s2.flights = s.flights := by rw [← hs2]; rfl
  have hfound : findWave s2 w.uid = some w := by
    rw [← hw]
    exact findWave_filter (gone := droppedBy s w.uid p) (by rw [← hs2]; rfl) hstay
  generalize (shadowsOf s w.uid p).filterMap (fun x => x.fork) = fs
  obtain ⟨hflights, w1, hw1, hframe⟩ := learns_putWave (w := updSlices w (fs.flatMap (fun f => f.returned)) (fun sl => { sl with atRet := false }))
    hfound fs
  exact ⟨hflights.trans hfl, w1, hw1, (congrArg (fun x : Wave => { x with slices := w.slices }) hframe :)⟩

/-! ### Waves that go on -/

/-- An instruction answers, its wave goes on as `w1`, and no byte of memory has changed. -/
def GoesOn (i : Instr) (s : State) (w : Wave) (P : State → Wave → Prop) : Prop :=
  ∃ t w1, exec i s = .next t ∧ findWave t w.uid = some (goSeq w1) ∧ SameMemory s t ∧ P t w1

theorem GoesOn.mono {i : Instr} {s : State} {w : Wave} {P Q : State → Wave → Prop} (h : GoesOn i s w P) (hPQ : ∀ t w1, P t w1 → Q t w1) :
    GoesOn i s w Q := by
  obtain ⟨t, w1, hexec, hfound, hmem, hP⟩ := h
  exact ⟨t, w1, hexec, hfound, hmem, hPQ t w1 hP⟩

section
variable {i : Instr} {s r : State} {w w1 : Wave} {ls : List Nat} {cls : Cls}

theorem finish_goesOn (hi : Issues s i w ls) (hx : exec i s = finish r w1) (hu : w1.uid = w.uid) (hw : r.waves = s.waves) (hm : r.mem = s.mem) :
    GoesOn i s w (fun t w2 => w2 = w1 ∧ t.flights = r.flights) :=
  ⟨_, w1, hx, (waveIs_finish hi hw hu).1, fun a => congrArg (memGet · a) hm, rfl, rfl⟩

/-- No continuation has the number of the wave that it was forked from. -/
def NotOwnFork (s : State) (uid : Nat) : Prop := ∀ x ∈ s.waves, ∀ f, x.fork = some f → f.home = uid → x.uid ≠ uid

theorem NotOwnFork.stays {uid : Nat} (h : NotOwnFork s uid) (p : Wave → Fork → Bool) : uid ∉ droppedBy s uid p := by
  rw [mem_droppedBy]
  rintro ⟨x, hx, hu, f, hf, hhome, -⟩
  exact h x hx f hf hhome hu

theorem squashStores_eq (s : State) (w : Wave) (sls : List Nat) (as : List (Acc × Nat)) : ∃ p, squashStores s w sls as = squashWhere s w.uid p :=
  ⟨_, rfl⟩

/-- A wave whose change of cells squashes forks goes on behind it. -/
theorem squash_goesOn {sls : List Nat} {as : List (Acc × Nat)} (hx : exec i s = goOn (squashStores r w1 sls as) w.uid) (hu : w1.uid = w.uid)
    (hfound : findWave r w.uid = some w1) (hown : NotOwnFork r w.uid) (hm : r.mem = s.mem) :
    GoesOn i s w (fun t w2 => { w2 with slices := w1.slices, trains := w1.trains } = w1 ∧ t.flights = r.flights) := by
  rw [← hu] at hx hfound hown
  obtain ⟨p, hp⟩ := squashStores_eq r w1 sls as
  obtain ⟨hfl, w2, hw2, hframe⟩ := squashWhere_keeps hfound (hown.stays p)
  rw [hp] at hx
  obtain ⟨hgo, hput, -⟩ := goOn_waveIs ⟨hw2, fun _ _ => rfl⟩ (findWave_uid hw2)
  exact ⟨_, w2, hx.trans hgo, hu ▸ hput, fun a => congrArg (memGet · a) ((keepsMem_squashWhere r w1.uid p).1.trans hm), hframe, hfl⟩

end

/-! ### The six instructions -/

section
variable {s : State} {w : Wave} {ls : List Nat} {o : Ops} {cs : List (Nat × CellRef × Region)}

theorem sampled_frame (w : Wave) (val : Nat → Partial) (cs : List (Nat × CellRef × Region)) :
    { sampled w val cs with fpflags := w.fpflags, seqs := w.seqs } = w := rfl

/-- Samples go on whether the buffer has room for them or not. -/
theorem samples_goOn {i : Instr} {val : Wave → Nat → Partial} (hi : Issues s i w ls) (hx : exec i s = runInstr i s (estAddBody o val))
    (hc : counter s w.uid .st < 63) (hg : gather (cellAt s w o .estWrite) ls = .ok cs) :
    GoesOn i s w (fun _ w1 => { w1 with fpflags := w.fpflags, seqs := w.seqs } = w) := by
  obtain ⟨tlb, hbody⟩ := estAddBody_passes val hc hg
  replace hbody := (hx.trans (runInstr_issues hi _)).trans hbody
  split at hbody
  · exact (finish_goesOn hi hbody rfl rfl rfl).mono fun _ _ h => h.1 ▸ sampled_frame w (val w) cs
  · have hsettled := onlySettled_combineAll w (val w) ((keptLanes (val w) cs).filter (fun c => !c.2.2.ord)) { s with tlb := tlb }
    exact (finish_goesOn hi hbody rfl (congrArg State.waves hsettled :) (congrArg State.mem hsettled :)).mono fun _ _ h =>
      h.1 ▸ sampled_frame w (val w) cs

theorem length_eraseDups_le : (l : List Nat) → l.eraseDups.length ≤ l.length
  | [] => by simp
  | a :: r => by
    rw [List.eraseDups_cons, List.length_cons, List.length_cons]
    exact Nat.succ_le_succ ((length_eraseDups_le _).trans (List.length_filter_le _ r))
termination_by l => l.length
decreasing_by exact Nat.lt_succ_of_le (List.length_filter_le _ r)

theorem length_askedRegions_le (nr : Bool) (cs : List (Nat × CellRef × Region)) : (askedRegions nr cs).length ≤ cs.length := by
  unfold askedRegions
  split
  · exact Nat.zero_le _
  · calc _ ≤ ((cs.filter (fun c => c.2.2.rs)).map (fun c => c.2.1.region)).length := length_eraseDups_le _
      _ = (cs.filter (fun c => c.2.2.rs)).length := List.length_map _
      _ ≤ cs.length := List.length_filter_le _ _

/-- A unit of weight for each cell is one for each region. -/
theorem weight_forRegions {nr : Bool} (hw : nr = true ∨ 2 ^ cs.length ≤ w.weight) (hne : askedRegions nr cs ≠ []) :
    2 ^ (askedRegions nr cs).length ≤ w.weight := by
  obtain rfl | hw := hw
  · exact absurd rfl hne
  · exact (Nat.pow_le_pow_right (by omega) (length_askedRegions_le nr cs)).trans hw

theorem NotOwnFork.putWave {w1 : Wave} {uid : Nat} (h : NotOwnFork s uid) (hw : findWave s uid = some w) (hf : w1.fork = w.fork) (hu : w1.uid = uid) :
    NotOwnFork (putWave s w1) uid := by
  intro x hx f hxf hhome
  obtain ⟨rfl, -⟩ | ⟨hx, -⟩ := mem_putWave hx
  · exact absurd (findWave_uid hw) (h w (findWave_mem hw) f (hf ▸ hxf) hhome)
  · exact h x hx f hxf hhome

theorem estLd_goesOn (hi : Issues s (.estLd o) w ls) (hown : NotOwnFork s w.uid) (hc : counter s w.uid .ld < 63)
    (hg : gather (cellAt s w o .estRead) ls = .ok cs) (hw : o.x.testBit 3 = true ∨ 2 ^ cs.length ≤ w.weight) :
    GoesOn (.estLd o) s w (fun t w1 => { w1 with weight := w.weight, slices := w.slices, trains := w.trains } = w ∧
      (w.fork = none → CountsUp s t w.uid .ld)) := by
  obtain ⟨tlb, hexec⟩ := exec_estLd hi hc hg (weight_forRegions hw)
  have hfound := (curWave_found hi.1).2
  refine (squash_goesOn hexec rfl ?_ (hown.putWave hfound rfl rfl) rfl).mono fun t w1 h => ?_
  · exact findWave_putWave_same (w := shared w (askedRegions (o.x.testBit 3) cs)) hfound
  · exact ⟨(congrArg (fun x : Wave => { x with weight := w.weight }) h.1 :), fun hf => countsUp_addFlight hf h.2⟩

theorem estClr_goesOn (hi : Issues s (.estClr o) w ls) (hown : NotOwnFork s w.uid) (hc : counter s w.uid .st < 63)
    (hg : gather (cellAt s w o .estWrite) ls = .ok cs) :
    GoesOn (.estClr o) s w (fun t w1 => { w1 with slices := w.slices, trains := w.trains } = w ∧ (w.fork = none → CountsUp s t w.uid .st)) := by
  obtain ⟨tlb, ms, n, ⟨hcls, -⟩, hexec⟩ := exec_estClr hi hc hg
  refine (squash_goesOn hexec rfl (curWave_found hi.1).2 hown rfl).mono fun t w1 h => ⟨h.1, fun hf => ?_⟩
  obtain ⟨hup, hother⟩ : CountsUp (started (putCore { s with tlb := tlb } w.die w.core (withoutEntries (ofCells cs) (coreAt s w.die w.core))) ms n)
    t w.uid .st := countsUp_addFlight hf h.2
  rw [counter_started hcls] at hup
  exact ⟨hup, fun c hc => (hother c hc).trans (counter_started hcls _ n w.uid c)⟩

theorem region_goesOn {i : Instr} {c : Cop} {r : Region} {adv : Bool} (hi : Issues s i w ls)
    (hx : exec i s = runInstr i s (fun s w _ => regionBody c adv s w)) (hc : counter s w.uid .st < 63) (hsa : (rdS w c.sa).toNat < 256)
    (hr : regionOf s w.asid (rdS w c.sa).toNat = some r) (hv : r.valid = true) :
    GoesOn i s w (fun t w1 => w1 = w ∧ (w.fork = none → CountsUp s t w.uid .st)) :=
  (finish_goesOn hi ((hx.trans (runInstr_issues hi _)).trans (regionBody_valid hc hsa hr hv adv)) rfl rfl rfl).mono fun _ _ h =>
    ⟨h.1, fun hf => countsUp_addFlight hf h.2⟩

end

/-- Settles O19: each of the six ends as a wave that goes on, the two that squash forks through what a squash leaves the wave. -/
theorem estimatorInstructionsComplete : Obligations.EstimatorInstructionsComplete := by
  unfold Obligations.EstimatorInstructionsComplete
  exact fun s w ls o cs hown => ⟨fun hi hc hg => samples_goOn (val := fun w l => sampleOf w o l) hi rfl hc hg,
    fun hi hc hg => samples_goOn (val := fun w l => partOf w o l) hi rfl hc hg,
    fun hi hc hg hw => estLd_goesOn hi hown hc hg hw,
    fun hi hc hg => estClr_goesOn hi hown hc hg,
    fun c r hc hsa hr hv => ⟨fun hi => region_goesOn hi rfl hc hsa hr hv, fun hi => region_goesOn hi rfl hc hsa hr hv⟩⟩

end Sys2Proof.Machine
end

section
/-!
PROOFS. The arithmetic of estimator cells, and what merges, folds, `est.ld` and `est.clr` do at a cell's home (O20).
-/
namespace Sys2Proof.Machine

/-! ### Cell arithmetic (R233, R237, R238, R247) -/

theorem emptied_eq (c : Cell) : emptied c = { c with m := if f32IsZero c.w then 0 else c.m, s := if f32IsZero c.w then 0 else c.s } := by
  unfold emptied
  split <;> rfl

section
variable {dec epoch : Nat} {c : Cell}

/-- A cell of 64 epochs or more is empty. -/
theorem touch_old (h : 64 ≤ (epoch + 128 - c.g) % 128) : touch dec epoch c = { m := 0, s := 0, w := 0, n := 0, g := epoch, q := false } := by
  simp only [touch, emptied_eq, h, if_true]

/-- A cell of the epoch keeps what it holds. -/
theorem touch_current (h : (epoch + 128 - c.g) % 128 = 0) :
    touch dec epoch c = { c with m := if f32IsZero c.w then 0 else c.m, s := if f32IsZero c.w then 0 else c.s, g := epoch } := by
  simp [touch, emptied_eq, h]

/-- One between decays, and may become empty. -/
theorem touch_decays (hpos : 0 < (epoch + 128 - c.g) % 128) (hyoung : (epoch + 128 - c.g) % 128 < 64) :
    touch dec epoch c =
      { m := if f32IsZero c.w || f32IsZero (f32Mul c.w (decayFactor dec ((epoch + 128 - c.g) % 128))) then 0 else c.m
        s := if f32IsZero (f32Mul c.w (decayFactor dec ((epoch + 128 - c.g) % 128))) then 0
             else f32Mul (if f32IsZero c.w then 0 else c.s) (decayFactor dec ((epoch + 128 - c.g) % 128))
        w := f32Mul c.w (decayFactor dec ((epoch + 128 - c.g) % 128)), n := c.n, g := epoch, q := false } := by
  simp only [touch, emptied_eq, hpos, Nat.not_le.mpr hyoung, if_true, if_false, Bool.or_eq_true, Cell.mk.injEq, and_true]
  split_ifs <;> simp_all

end

/-- Nothing comes of weights that cancel or are both zero. -/
theorem mergePart_zero {a b : Partial} (h : f32IsZero (f32Add a.w b.w) = true) : mergePart a b = a := if_pos h

theorem mergePart_weight {a b : Partial} (h : f32IsZero (f32Add a.w b.w) = false) :
    mergePart a b =
      { m := f32Add a.m (f32Mul (f32Sub b.m a.m) (f32Div b.w (f32Add a.w b.w)))
        s := f32Add (f32Add a.s b.s) (f32Mul (f32Mul (f32Sub b.m a.m) (f32Sub b.m a.m)) (f32Mul a.w (f32Div b.w (f32Add a.w b.w))))
        w := f32Add a.w b.w, n := min (a.n + b.n) 16777215 } := if_neg (by simp [h])

theorem stdErr_number {c : Cell} (hw : f32IsNan c.w = false) (hs : f32IsNan c.s = false) :
    stdErr c = if f32Lt 0x3F800000 c.w then f32Sqrt (f32Div c.s (f32Mul c.w (f32Sub c.w 0x3F800000))) else 0x7F800000 := by
  simp [stdErr, hw, hs]

theorem foldl_withPartial (x : Cell) (rs : List Staged) (p : Partial) :
    rs.foldl (fun y q => withPartial y (mergePart (partialOf y) q.part)) (withPartial x p) =
      withPartial x (rs.foldl (fun p q => mergePart p q.part) p) := by
  induction rs generalizing p with
  | nil => rfl
  | cons q rs ih => exact ih _

/-- Records of a run merge into a cell's values one after another (R255). -/
theorem foldl_mergePart (x : Cell) (rs : List Staged) :
    rs.foldl (fun y q => withPartial y (mergePart (partialOf y) q.part)) x =
      withPartial x (rs.foldl (fun p q => mergePart p q.part) (partialOf x)) :=
  foldl_withPartial x rs (partialOf x)

/-! ### A cell at its home (R179, R243) -/

theorem length_cellBytes (x : Cell) : (cellBytes x).length = 16 := by simp [cellBytes, length_leBytes]

/-- The 16 bytes of a cell have become `x`; no byte elsewhere has changed. -/
def CellIs (s t : State) (pa : Nat) (x : Cell) : Prop :=
  memBytes t.mem pa 16 = cellBytes x ∧ ∀ a, a < pa ∨ pa + 16 ≤ a → memGet t.mem a = memGet s.mem a

theorem cellIs_of_mem {s t : State} {pa : Nat} {x : Cell} (h : t.mem = memPut s.mem pa (cellBytes x)) : CellIs s t pa x := by
  have hread := memBytes_memPut_same s.mem pa (cellBytes x)
  rw [length_cellBytes] at hread
  exact ⟨by rw [h, hread], fun a ha => by rw [h]; exact memGet_memPut_outside _ _ (by rwa [length_cellBytes])⟩

section
variable {s : State} {f : Flight} {c : CellRef} {r : Region}

theorem CellIs.endFlight {t : State} {pa : Nat} {x : Cell} (h : CellIs s t pa x) (f : Flight) : CellIs s (endFlight t f) pa x := by
  rwa [CellIs, (keepsMem_endFlight t f).1]

/-- A cell is written with no more than copies and the note of it changed elsewhere. -/
theorem onlyCaches_homeCell (s : State) (f : Flight) (c : CellRef) (r : Region) (x : Cell) :
    OnlyCaches (putCell s c.pa x) (homeCell (noteCell s f c) c r x) :=
  OnlyCaches.trans (b := putCell (noteCell s f c) c.pa x) (onlyCaches_putQuad (putCell s c.pa x) (homeQuad c.pa) _) (onlyCaches_l2Access _ _ true c.pa 16)

theorem cellIs_homeCell (s : State) (f : Flight) (c : CellRef) (r : Region) (x : Cell) : CellIs s (homeCell (noteCell s f c) c r x) c.pa x :=
  cellIs_of_mem (onlyCaches_homeCell s f c r x).mem

theorem waves_homeCell (s : State) (f : Flight) (c : CellRef) (r : Region) (x : Cell) : (homeCell (noteCell s f c) c r x).waves = s.waves :=
  (onlyCaches_homeCell s f c r x).waves

theorem atCell_eq (hr : regionOf s c.asid c.region = some r) (g : Cell → Cell) :
    atCell s f c g = homeCell (noteCell s f c) c r (g (touch r.dec r.known (cellOf s.mem c.pa))) := by
  simp only [atCell, hr]

theorem cellIs_atCell (hr : regionOf s c.asid c.region = some r) (g : Cell → Cell) :
    CellIs s (atCell s f c g) c.pa (g (touch r.dec r.known (cellOf s.mem c.pa))) ∧ (atCell s f c g).waves = s.waves := by
  rw [atCell_eq hr]
  exact ⟨cellIs_homeCell s f c r _, waves_homeCell s f c r _⟩

/-! ### Merges and folds (R243, R255) -/

variable {fid : Nat}

theorem exec_merge {p : Partial} {ws : List Nat} {cmd : Option Nat} (hin : InFlight s fid f) (hact : f.act = .merge c p ws cmd) (hbusy : cellBusy s f c true = false)
    (hturn : cellTurn s f c = true) :
    exec (.merge fid) s = .next (dropFlight (atCell s f c (fun x => withPartial x (mergePart (partialOf x) p))) fid) := by
  have hexec : exec (.merge fid) s = execMerge fid s := rfl
  rw [hexec, execMerge, findFlight_some hin]
  simp [hact, hbusy, hturn]

theorem exec_fold {rs : List Staged} {cmd : Nat} (hin : InFlight s fid f) (hact : f.act = .fold c rs cmd) (hturn : cellTurn s f c = true) :
    exec (.fold fid) s =
      .next (dropFlight (atCell s f c (fun x => rs.foldl (fun y q => withPartial y (mergePart (partialOf y) q.part)) x)) fid) := by
  have hexec : exec (.fold fid) s = execFold fid s := rfl
  rw [hexec, execFold, findFlight_some hin]
  simp [hact, hturn]

/-! ### est.clr at the homes (R252) -/

theorem exec_estClr_completion (hin : InFlight s fid f) (hact : f.act = .estClr [c])
    (hpath : pathBusy s f.who.uid f.id (actAccs f.act) = false) (hwait : cellsWait s f [c] = false) :
    exec (.storeCompletion fid) s = .next (endFlight (performClr s f [c]) f) := by
  have hexec : exec (.storeCompletion fid) s = execStoreCompletion fid s := rfl
  rw [hexec, execStoreCompletion, findFlight_some hin]
  simp [hact, pathTurn, hwait, hact ▸ hpath]

theorem cellIs_performClr (hr : regionOf s c.asid c.region = some r) :
    CellIs s (endFlight (performClr s f [c]) f) c.pa { m := 0, s := 0, w := 0, n := 0, g := r.known, q := false } := by
  have hperform : performClr s f [c] =
      healHome (homeCell (noteCell s f c) c r { m := 0, s := 0, w := 0, n := 0, g := r.known, q := false }) [(c.pa, 16)] := by
    simp only [performClr, List.foldl_cons, List.foldl_nil, hr, List.map_cons, List.map_nil]
  have hmem : (performClr s f [c]).mem = memPut s.mem c.pa (cellBytes { m := 0, s := 0, w := 0, n := 0, g := r.known, q := false }) := by
    rw [hperform]
    exact (onlyCaches_homeCell s f c r _).mem
  exact (cellIs_of_mem hmem).endFlight f

/-! ### est.ld at the homes (R247, R248, R406) -/

variable {uid reg lane : Nat} {nr : Bool} {w : Wave}

theorem exec_estLd_completion (hin : InFlight s fid f) (hact : f.act = .estLd uid reg nr [(lane, c)] [])
    (hpath : pathBusy s f.who.uid f.id (actAccs f.act) = false) (hwait : cellsWait s f [c] = false) :
    exec (.loadCompletion fid) s = .next (endFlight (performEstLd s f uid reg nr [(lane, c)] []) f) := by
  have hexec : exec (.loadCompletion fid) s = execLoadCompletion fid s := rfl
  rw [hexec, execLoadCompletion, findFlight_some hin]
  simp [hact, pathTurn, hwait, hact ▸ hpath]

/-- A wave's lane with the three values of a cell. -/
def cellRegs (lane reg : Nat) (x : Cell) (w : Wave) : Wave :=
  wrV (wrV (wrV w lane reg (BitVec.ofNat 32 x.m)) lane (reg + 1) (BitVec.ofNat 32 (stdErr x))) lane (reg + 2) (BitVec.ofNat 32 x.w)

/-- What the cell holds after one lane of an `est.ld`: a request for a reseed may be pending now. -/
def afterLd (r : Region) (nr : Bool) (x : Cell) : Cell := { x with q := x.q || wantsReseed r nr x }

@[simp] theorem cellRegs_uid (lane reg : Nat) (x : Cell) (w : Wave) : (cellRegs lane reg x w).uid = w.uid := by simp [cellRegs]

theorem cellRegs_eq (lane reg : Nat) (x : Cell) :
    (fun w => [x.m, stdErr x, x.w].zipIdx.foldl (fun w v => wrV w lane (reg + v.2) (BitVec.ofNat 32 v.1)) w) = cellRegs lane reg x := funext fun _ => rfl

/-- A lane of a healthy cell gets its three values. -/
theorem performEstLd_healthy (hr : regionOf s c.asid c.region = some r) (hp : c.pa / 32 ∉ s.poison) :
    performEstLd s f uid reg nr [(lane, c)] [] =
      updHolder (homeCell (noteCell s f c) c r (afterLd r nr (touch r.dec r.known (cellOf s.mem c.pa)))) uid
        (cellRegs lane reg (touch r.dec r.known (cellOf s.mem c.pa))) := by
  have hbad : estBad s [(lane, c)] = [] := by simp [estBad, hr, hp]
  have hlane : s.poison.contains (c.pa / 32) = false := by simpa using hp
  simp only [performEstLd, hbad, poisonLanes, ite_self, List.foldl_cons, List.foldl_nil, estLdLane, hr, hlane, Bool.false_eq_true, if_false,
    cellRegs_eq, afterLd]

/-- A lane of a poisoned cell gets none, and POISON is deferred to its wave. -/
theorem performEstLd_poisoned (hr : regionOf s c.asid c.region = some r) (hp : c.pa / 32 ∈ s.poison) (hw : findWave s f.who.uid = some w) :
    ∃ rec, rec.cause = 7 ∧ performEstLd s f uid reg nr [(lane, c)] [] = putWave s (deferTo w rec) := by
  have hbad : estBad s [(lane, c)] = [{ lane := lane, loc := .mem c.pa, va := r.base + 16 * c.idx, page := pageNormal }] := by simp [estBad, hr, hp]
  have hlane : s.poison.contains (c.pa / 32) = true := by simpa using hp
  simp only [performEstLd, hbad, List.foldl_cons, List.foldl_nil, estLdLane, hr, hlane, if_true, List.zipIdx_nil, updHolder_id, hw,
    Option.isSome_some, poisonLanes, deferOrRecord, addDeferred_found hw]
  exact ⟨_, rfl, rfl⟩

/-- The end of an operation ends its wave's wait and nothing else of a wave. -/
theorem WaveIs.endFlight {t : State} {u : Nat} {w' : Wave} (h : WaveIs s t u w') (f : Flight) :
    findWave (endFlight t f) u = some (endWait f w') ∧ OthersKeep s (endFlight t f) u := by
  obtain ⟨hfound, hothers⟩ := h
  have hmap (v : Nat) : findWave (Machine.endFlight t f) v = (findWave t v).map (endWait f) :=
    findWave_map (endFlight_waves t f) (endWait_uid f) v
  refine ⟨by rw [hmap, hfound]; rfl, fun v hv => ?_⟩
  rw [hmap, hothers v hv, Option.map_map]
  exact congrArg (fun g => (findWave s v).map g) (funext (endWait_unblocked f))

theorem endWait_v (f : Flight) (w : Wave) : (endWait f w).v = w.v := by
  rw [endWait_eq]

theorem endWait_held (f : Flight) (w : Wave) : (endWait f w).trap.held = w.trap.held := by
  rw [endWait_eq]

/-- A record has joined those of its cause. -/
theorem cause_mem_addRec (rs : List CauseRec) (x : CauseRec) : ∃ p ∈ addRec rs x, p.cause = x.cause := by
  induction rs with
  | nil => exact ⟨x, List.mem_singleton_self x, rfl⟩
  | cons y rs ih =>
    rcases lt_trichotomy y.cause x.cause with h | h | h
    · obtain ⟨p, hp, hcause⟩ := ih
      rw [addRec_behind h]
      exact ⟨p, List.mem_cons_of_mem _ hp, hcause⟩
    · rw [addRec_same h]
      exact ⟨withLater y x, List.mem_cons_self, h⟩
    · rw [addRec_before h]
      exact ⟨x, List.mem_cons_self, rfl⟩

theorem rdV_cellRegs (x : Cell) (w : Wave) (h : reg + 2 < 256) :
    rdV (cellRegs lane reg x w) lane reg = BitVec.ofNat 32 x.m ∧ rdV (cellRegs lane reg x w) lane (reg + 1) = BitVec.ofNat 32 (stdErr x) ∧
    rdV (cellRegs lane reg x w) lane (reg + 2) = BitVec.ofNat 32 x.w ∧
    ∀ l k, l ≠ lane ∨ (k ≠ reg ∧ k ≠ reg + 1 ∧ k ≠ reg + 2) → k < 256 → rdV (cellRegs lane reg x w) l k = rdV w l k := by
  simp only [cellRegs, rdV_wrV]
  refine ⟨by simp, by simp, by simp, fun l k hne hk => ?_⟩
  rw [if_neg (by omega), if_neg (by omega), if_neg (by omega)]

/-- A cell is written, and a lane of a wave gets values. -/
theorem waveIs_cellRegs (hw : findWave s uid = some w) (f : Flight) (c : CellRef) (r : Region) (x y : Cell) :
    WaveIs s (updHolder (homeCell (noteCell s f c) c r y) uid (cellRegs lane reg x)) uid (cellRegs lane reg x w) := by
  obtain rfl := findWave_uid hw
  have hhome := waveIs_of_waves hw (waves_homeCell s f c r y)
  generalize homeCell (noteCell s f c) c r y = t at hhome ⊢
  exact waveIs_trans hhome (waveIs_updHolder hhome.1 (cellRegs lane reg x) (cellRegs_uid lane reg x))

/-- A completed `est.ld` of a healthy cell. -/
theorem estLd_answers_healthy (hexec : exec (.loadCompletion fid) s = .next (endFlight (performEstLd s f uid reg nr [(lane, c)] []) f))
    (hr : regionOf s c.asid c.region = some r) (hw : findWave s uid = some w) (hp : c.pa / 32 ∉ s.poison) :
    Answers (.loadCompletion fid) s (fun t => CellIs s t c.pa (afterLd r nr (touch r.dec r.known (cellOf s.mem c.pa))) ∧
      ∃ w1, findWave t uid = some w1 ∧ OthersKeep s t uid ∧
        ∀ l k, rdV w1 l k = rdV (cellRegs lane reg (touch r.dec r.known (cellOf s.mem c.pa)) w) l k) := by
  rw [performEstLd_healthy hr hp] at hexec
  generalize touch r.dec r.known (cellOf s.mem c.pa) = x at hexec ⊢
  have hcell : CellIs s (updHolder (homeCell (noteCell s f c) c r (afterLd r nr x)) uid (cellRegs lane reg x)) c.pa (afterLd r nr x) :=
    cellIs_homeCell s f c r (afterLd r nr x)
  obtain ⟨hfound, hothers⟩ := (waveIs_cellRegs (lane := lane) (reg := reg) hw f c r x (afterLd r nr x)).endFlight f
  exact ⟨_, hexec, hcell.endFlight f, _, hfound, hothers, fun l k => by rw [rdV, rdV, endWait_v]⟩

/-- A completed `est.ld` of a poisoned cell. -/
theorem estLd_answers_poisoned (hexec : exec (.loadCompletion fid) s = .next (endFlight (performEstLd s f uid reg nr [(lane, c)] []) f))
    (hr : regionOf s c.asid c.region = some r) (hu : uid = f.who.uid) (hw : findWave s uid = some w) (hp : c.pa / 32 ∈ s.poison) :
    Answers (.loadCompletion fid) s (fun t => SameMemory s t ∧ ∃ w1, findWave t uid = some w1 ∧ OthersKeep s t uid ∧
      w1.v = w.v ∧ ∃ p ∈ w1.trap.held, p.cause = 7) := by
  obtain ⟨rec, hrec, ht⟩ := performEstLd_poisoned (uid := uid) (reg := reg) (nr := nr) (lane := lane) hr hp (hu ▸ hw)
  rw [ht] at hexec
  obtain rfl := findWave_uid hw
  obtain ⟨-, hput, hkeep, -⟩ := onlyWave_putWave (w' := deferTo w rec) hw rfl
  obtain ⟨hfound, hothers⟩ := WaveIs.endFlight ⟨hput, hkeep⟩ f
  have hmem := (keepsMem_endFlight (putWave s (deferTo w rec)) f).1
  refine ⟨_, hexec, fun a => congrArg (memGet · a) hmem, _, hfound, hothers, endWait_v f _, ?_⟩
  rw [endWait_held, ← hrec]
  exact cause_mem_addRec w.trap.held rec

end

/-- Settles O20: the arithmetic case by case; at its home a cell is brought to its epoch and takes the one operation. -/
theorem cellsAtTheirHome : Obligations.CellsAtTheirHome := by
  unfold Obligations.CellsAtTheirHome
  refine ⟨fun c a b dec epoch => ⟨touch_old, touch_current, touch_decays, mergePart_zero, mergePart_weight, stdErr_number⟩,
    fun s fid f c r hin hr => ⟨?merge, ?fold, ?ld, ?clr⟩⟩
  case merge =>
    intro p ws cmd hact hbusy hturn
    obtain ⟨⟨hcell, helse⟩, hwaves⟩ := cellIs_atCell (f := f) hr (fun x => withPartial x (mergePart (partialOf x) p))
    exact ⟨_, exec_merge hin hact hbusy hturn, ⟨hcell, hwaves, helse⟩, findFlight_dropFlight_same _ fid⟩
  case fold =>
    intro rs cmd hact hturn
    obtain ⟨⟨hcell, helse⟩, hwaves⟩ :=
      cellIs_atCell (f := f) hr (fun x => rs.foldl (fun y q => withPartial y (mergePart (partialOf y) q.part)) x)
    rw [foldl_mergePart] at hcell
    exact ⟨_, exec_fold hin hact hturn, ⟨hcell, hwaves, helse⟩, findFlight_dropFlight_same _ fid⟩
  case ld =>
    intro uid reg nr lane w hact hu _ hreg hw hpath hwait
    have hexec := exec_estLd_completion hin hact hpath hwait
    refine ⟨fun hp => ?_, estLd_answers_poisoned hexec hr hu hw⟩
    obtain ⟨t, hend, ⟨hcell, helse⟩, w1, hfound, hothers, hregs⟩ := estLd_answers_healthy hexec hr hw hp
    obtain ⟨hm, hse, hweight, hrest⟩ := rdV_cellRegs (lane := lane) (touch r.dec r.known (cellOf s.mem c.pa)) w hreg
    exact ⟨t, hend, hcell, helse, w1, hfound, hothers, (hregs _ _).trans hm, (hregs _ _).trans hse, (hregs _ _).trans hweight,
      fun l k hne _ hk => (hregs l k).trans (hrest l k hne hk)⟩
  case clr =>
    exact fun hact hpath hwait => ⟨_, exec_estClr_completion hin hact hpath hwait, cellIs_performClr hr⟩

end Sys2Proof.Machine
end

section
/-!
PROOFS. What an idle entry of a combining buffer leaves as (O21).
-/
namespace Sys2Proof.Machine

/-! ### The flush of an idle entry (R241) -/

/-- The merge of an idle entry carries the waves of the entry in rising order of their numbers. -/
theorem flush_idle_merges {s : State} {die core n : Nat} {e : EcbEnt} (he : (coreAt s die core).ecb[n]? = some e)
    (hidle : 4096 ≤ cyclesSince s die core e.since) :
    Answers (.flush die core n) s (fun t => t.flights.map (fun f => f.act) =
      s.flights.map (fun f => f.act) ++ [.merge e.cell e.part (unionNat [] (entryWaves s die core e)) none]) := by
  have hexec : exec (.flush die core n) s = execFlush die core n s := rfl
  rw [execFlush] at hexec
  simp only [he, hidle, if_true] at hexec
  refine ⟨_, hexec, ?_⟩
  simp only [flushEntry, addFlight_flights, List.map_append, List.map_cons, List.map_nil]
  rfl

/-- Samples of two waves, the younger one in the lower wave context: its context was free again when it came. -/
def twoWaveEntry : EcbEnt :=
  { cell := { asid := 1, region := 0, idx := 0, pa := 256 }, epoch := 0, part := emptyPart, waves := [0, 1], since := 0 }

def idleBuffer : State :=
  { putCore State.reset 0 0 { coreAt State.reset 0 0 with ecb := [twoWaveEntry] } with
    time := 5120, waves := [{ placedWave with uid := 1, wctx := 1 }, { placedWave with uid := 2, wctx := 0 }] }

theorem buffer_idleBuffer : (coreAt idleBuffer 0 0).ecb[0]? = some twoWaveEntry := by decide +kernel

theorem idle_idleBuffer : 4096 ≤ cyclesSince idleBuffer 0 0 twoWaveEntry.since := by decide +kernel

theorem entryWaves_idleBuffer : entryWaves idleBuffer 0 0 twoWaveEntry = [2, 1] := by decide +kernel

/-- Refutes O21: the merge that an idle entry leaves as names the waves with samples in it in rising order of their numbers (a set, R239), not in
the order of their wave contexts, where a younger wave stands first once it has taken a lower context. -/
theorem not_keeperEvents : ¬ Obligations.KeeperEvents := by
  unfold Obligations.KeeperEvents
  intro h
  obtain ⟨-, -, -, hflush⟩ := h idleBuffer
  obtain ⟨t, hexec, -, -, -, g, hg, -, hact⟩ := hflush 0 0 0 twoWaveEntry buffer_idleBuffer idle_idleBuffer
  obtain ⟨t', hexec', hacts⟩ := flush_idle_merges buffer_idleBuffer idle_idleBuffer
  obtain ⟨⟩ := hexec.symm.trans hexec'
  have hflights : idleBuffer.flights = [] := rfl
  have hmerge : g.act ∈ [Act.merge twoWaveEntry.cell twoWaveEntry.part (unionNat [] [2, 1]) none] := by
    rw [← entryWaves_idleBuffer]
    simpa only [hacts, hflights, List.map_nil, List.nil_append] using List.mem_map_of_mem (f := fun f : Flight => f.act) hg
  rw [hact, entryWaves_idleBuffer, List.mem_singleton, Act.merge.injEq] at hmerge
  obtain ⟨-, -, hwaves, -⟩ := hmerge
  exact absurd hwaves (by decide)

end Sys2Proof.Machine
end

section
/-!
PROOFS. Tile commands and `tq` (O44): the command joins the tile's order, and its turn changes the entry.
-/
namespace Sys2Proof.Machine

/-! ### What enters the queue of the engines (R194, R280, R283) -/

/-- An instruction of the drill that queues a command for an engine goes on. -/
theorem engIssue_sends {i : Instr} {s : State} {w : Wave} {ls : List Nat} {cls : Cls} {act : Act} {rr : Option Nat}
    {body : State → Wave → List Nat → Out} (hi : Issues s i w ls) (hf : w.fork = none) (hx : exec i s = runInstr i s body)
    (hb : body s w ls = engIssue s w cls act rr) : Sends i s w w cls act rr (fun t => t.cores = s.cores) :=
  sends_finish hi hf rfl ((hx.trans (runInstr_issues hi body)).trans hb) rfl rfl

/-! ### The commands (R278 to R280) -/

section
variable {s : State} {w : Wave} {ls : List Nat} {o : Cop}

/-- A definition that lies inside the allocation passes its check. -/
theorem tdefBody_passes {c : TileCmd} (t : Nat) (hc : counter s w.uid .cp < 63)
    (h : 256 * (tileApply c tileEmpty).base + tileBytes (tileApply c tileEmpty) ≤ w.foot.spad) :
    tdefBody s w t c = engIssue s w .cp (.tile t c) none := by
  rw [tdefBody, if_neg (by omega)]
  exact if_neg (by omega)

/-- The check of `tset`: no bipolar encoding for a plane tile of several planes. -/
theorem tset_check (h : o.cm % 2 = 0 ∨ o.cm / 2 % 4 ≠ 2 ∨ (tileNext s w.uid o.ta).plane = false ∨ (tileNext s w.uid o.ta).planes = 1) :
    (bitAt o.cm 0 && field o.cm 2 1 == 2 && (tileNext s w.uid o.ta).plane && !((tileNext s w.uid o.ta).planes == 1)) = false := by
  obtain h | h | h | h := h <;> simp [h, bitAt, field]

theorem tset_sends (hi : Issues s (.tset o) w ls) (hf : w.fork = none) (hc : counter s w.uid .cp < 63)
    (h : o.cm % 2 = 0 ∨ o.cm / 2 % 4 ≠ 2 ∨ (tileNext s w.uid o.ta).plane = false ∨ (tileNext s w.uid o.ta).planes = 1) :
    Sends (.tset o) s w w .cp (.tile o.ta (.set (o.cm.testBit 0) (o.cm / 2 % 4))) none (fun t => t.cores = s.cores) := by
  refine engIssue_sends hi hf (execTset.eq_def o s) ?_
  dsimp only
  rw [if_neg (by omega), tset_check h, bitAt_eq_testBit]
  rfl

/-- A command whose register fields are in range names a register. -/
theorem tq_reg (hi : Issues s (.tq o) w ls) : o.rr < 64 := by
  obtain ⟨-, hl, -⟩ := hi
  simp only [legal, Instr.wf, Instr.spec, Instr.copOk, Bool.and_eq_true] at hl
  obtain ⟨⟨⟨⟨⟨hb, -⟩, -⟩, -⟩, -⟩, -⟩ := hl
  exact (Cop.lt_of_base hb).2.1

theorem tq_completes (hi : Issues s (.tq o) w ls) :
    Completes (.tq o) s w (fun w1 => UniFrame o.rr w w1 ∧ w1.fpflags = w.fpflags ∧
      rdS w1 o.rr = BitVec.ofNat 64 (tileWord (tileAt w o.ta) (!(tileQueue s w.uid o.ta).isEmpty))) := by
  have hr := tq_reg hi
  have hframe := wrS_frame w o.rr (BitVec.ofNat 64 (tileWord (tileAt w o.ta) (!(tileQueue s w.uid o.ta).isEmpty)))
  refine completes_finish hi ((execTq.eq_def o s).trans (runInstr_issues hi _)) (wrS_uid _ _ _) ⟨⟨?_, fun k hk => ?_⟩, ?_, ?_⟩
  · exact (congrArg (fun x : Wave => { x with fpflags := w.fpflags }) hframe :)
  · rw [rdBank_wrS _ _ _ _ hr, if_neg hk]
  · exact (congrArg Wave.fpflags hframe :)
  · rw [rdS_wrS, if_pos rfl]

end

/-! ### Entries of the tile table (R277, R281) -/

/-- A wave with one entry of its tile table changed. -/
def withTile (t : Nat) (f : Tile → Tile) (w : Wave) : Wave := { w with tiles := w.tiles.modify t f }

@[simp] theorem withTile_uid (t : Nat) (f : Tile → Tile) (w : Wave) : (withTile t f w).uid = w.uid := rfl

theorem tileAt_withTile_same {t : Nat} {w : Wave} (h : t < w.tiles.length) (f : Tile → Tile) : tileAt (withTile t f w) t = f (tileAt w t) := by
  simp [tileAt, withTile, List.getD_eq_getElem?_getD, h]

theorem tileAt_withTile_other {t i : Nat} (h : i ≠ t) (f : Tile → Tile) (w : Wave) : tileAt (withTile t f w) i = tileAt w i := by
  simp [tileAt, withTile, List.getD_eq_getElem?_getD, h.symm]

theorem waveIs_updTile {s : State} {w : Wave} (hw : findWave s w.uid = some w) (t : Nat) (f : Tile → Tile) :
    WaveIs s (updTile s w.uid t f) w.uid (withTile t f w) := waveIs_updHolder hw (withTile t f) (withTile_uid t f)

section
variable {s : State} {fid t : Nat} {f : Flight} {c : TileCmd} {w : Wave}

/-- A tile command whose turn has come changes its entry and ends. -/
theorem exec_copyCommandStart_tile (hin : InFlight s fid f) (hact : f.act = .tile t c) (hturn : tileTurns s f = true) :
    exec (.copyCommandStart fid) s = .next (endFlight (updTile s f.who.uid t (tileApply c)) f) := by
  have hexec : exec (.copyCommandStart fid) s = execCopyCommandStart fid s := rfl
  rw [hexec, execCopyCommandStart, findFlight_some hin, hact]
  exact if_pos hturn

theorem tileCommand_answers (hin : InFlight s fid f) (hact : f.act = .tile t c) (hturn : tileTurns s f = true)
    (hw : findWave s f.who.uid = some w) (ht : t < w.tiles.length) :
    Answers (.copyCommandStart fid) s (fun u => SameMemory s u ∧ OthersKeep s u w.uid ∧ ∃ w1, findWave u w.uid = some w1 ∧
      { w1 with tiles := w.tiles, blocked := w.blocked } = w ∧ w1.tiles.length = w.tiles.length ∧
      (∀ i, i ≠ t → tileAt w1 i = tileAt w i) ∧ tileAt w1 t = tileApply c (tileAt w t)) := by
  have hu := findWave_uid hw
  rw [← hu] at hw
  obtain ⟨hfound, hothers⟩ := (waveIs_updTile hw t (tileApply c)).endFlight f
  refine ⟨_, exec_copyCommandStart_tile hin hact hturn, fun a => ?_, ?_⟩
  · rw [(keepsMem_endFlight _ f).1]
    rfl
  · rw [← hu]
    refine ⟨hothers, _, hfound, ?_, ?_, fun i hi => ?_, ?_⟩ <;> rw [endWait_eq]
    · rfl
    · exact List.length_modify ..
    · exact tileAt_withTile_other hi (tileApply c) w
    · exact tileAt_withTile_same ht (tileApply c)

end

/-- Settles O44: the three commands pass their checks and are queued, `tq` reads the entry, and a command whose turn has come changes it. -/
theorem tileCommands : Obligations.TileCommands := by
  unfold Obligations.TileCommands
  intro s w ls o hn
  refine ⟨fun hc => ⟨fun hi h => ?bytes, fun hi h => ?plane, fun hi h => tset_sends hi hn.1 hc h⟩, fun hi => ?tq, ?turn⟩
  case bytes => exact engIssue_sends hi hn.1 (execTdefBytes.eq_def o s) (tdefBody_passes o.ta hc h)
  case plane => exact engIssue_sends hi hn.1 (execTdefPlane.eq_def o s) (tdefBody_passes o.ta hc h)
  case tq =>
    obtain ⟨w1, hexec, honly, hsame, hframe, hflags, hword⟩ := tq_completes hi
    refine ⟨w1, hexec, honly, hsame, hframe, hflags, hword.trans ?_⟩
    cases tileQueue s w.uid o.ta <;> rfl
  case turn =>
    intro fid f t c hin hact hturn hw ht
    obtain ⟨u, hexec, hmem, hothers, w1, hfound, hframe, hlength, hrest, hentry⟩ := tileCommand_answers hin hact hturn hw ht
    refine ⟨u, hexec, hmem, hothers, w1, hfound, hframe, hlength, hrest, hentry.trans ?_⟩
    cases c with
    | defBytes base size => rfl
    | defPlane base rows cols planes => rfl
    | set ready enc => cases ready <;> rfl

end Sys2Proof.Machine
end

section
/-!
PROOFS. Copy and glean commands join the core's queue once the drill's checks pass (O45).
-/
namespace Sys2Proof.Machine

/-- Checks of which none finds a fault. -/
theorem firstFault_none {l : List (Option LaneFault)} (h : ∀ x ∈ l, x = none) : firstFault l = none := by
  induction l with
  | nil => rfl
  | cons x r ih =>
    obtain ⟨rfl, hr⟩ := List.forall_mem_cons.mp h
    exact ih hr

/-- A check of alignment that finds none. -/
theorem misFault_none {bad : Bool} (h : bad = false) (addr size : Nat) : misFault bad addr size = none := by simp [misFault, h]

theorem field_low (x h : Nat) : field x h 0 = x % 2 ^ (h + 1) := by simp [field]

/-- The high half of a register. -/
theorem field_high (x : W64) : field x.toNat 63 32 = x.toNat / 2 ^ 32 := by
  have hx := x.isLt
  unfold field
  omega

/-! ### Copies (R283 to R288) -/

/-- The stride of a copy's rows: the literal's, the register pair's, or that of packed rows (R284, R287). -/
def copyStride (s : State) (w : Wave) (o : Cop) (fn : CopyFn) : Int :=
  if fn == .gth then (field o.litNat 31 0 : Nat)
  else if o.str then (rdS w (o.sa + 1)).toInt
  else (rowLen o.fmt (tileNext s w.uid o.ta).cols : Nat)

/-- A copy as it joins the queue. -/
def queuedCopy (s : State) (w : Wave) (o : Cop) (fn : CopyFn) (stride : Int) (bar : Option (Nat × Nat)) : CopyCmd :=
  { fn := fn, tile := o.ta, geo := tileNext s w.uid o.ta, addr := rdS w o.sa, stride := stride, fmt := o.fmt, bar := bar, idx := (rdS w o.sb).toNat
    started := false, first := 0, img := [], todo := [], total := 0, done := 0, lo := 0, hi := 0 }

/-- What the drill checks of a copy beside its barrier (R282, R284, R286, R287). -/
structure CopyPasses (s : State) (w : Wave) (o : Cop) (fn : CopyFn) : Prop where
  addr : fn ≠ .fill → (rdS w o.sa).toNat % fmtAlign o.fmt = 0
  stride : fn ≠ .fill → o.str = true → copyStride s w o fn % fmtAlign o.fmt = 0
  list : fn = .gth → (rdS w o.sb).toNat % 4 = 0 ∧ (rdS w o.sb).toNat + 4 * (tileNext s w.uid o.ta).rows ≤ w.foot.spad
  plane : fn = .gth ∨ fn = .ws ∨ (fn = .st ∧ o.str = true) → (tileNext s w.uid o.ta).plane = true
  state : fn = .st → tileBreach s w.uid o.ta = false

section
variable {s : State} {w : Wave} {ls : List Nat} {o : Cop} {fn : CopyFn} {b : Option (Nat × Nat)}

theorem copyBody_passes (hfull : copyFull s w = false) (h : CopyPasses s w o fn)
    (hbar : copyBar s w o (fn == .gth) = none ∧ b = none ∨ ∃ x, copyBar s w o (fn == .gth) = some (.ok x) ∧ b = some x) :
    copyBody o fn s w = engIssue s w .cp (.copy (queuedCopy s w o fn (copyStride s w o fn) b)) (replyKey w o) := by
  obtain ⟨haddr, hstride, hlist, hplane, hstate⟩ := h
  unfold copyBody
  rw [if_neg (by simp [hfull])]
  dsimp only
  rw [firstFault_none]
  · obtain ⟨hb, rfl⟩ | ⟨x, hb, rfl⟩ := hbar <;> (rw [hb]; rfl)
  · simp only [List.forall_mem_cons, List.not_mem_nil, false_implies, implies_true, and_true]
    refine ⟨misFault_none ?_ _ _, misFault_none ?_ _ _, misFault_none ?_ _ _, ?_, if_neg ?_, ?_, if_neg ?_⟩
    · by_cases hf : fn = .fill <;> simp [hf, haddr]
    · change (!(fn == .fill) && o.str && copyStride s w o fn % fmtAlign o.fmt != 0) = false
      by_cases hf : fn = .fill
      · simp [hf]
      · cases hs : o.str <;> simp [hs, hstride hf]
    · by_cases hg : fn = .gth <;> simp [hg, hlist]
    · obtain ⟨hb, -⟩ | ⟨x, hb, -⟩ := hbar <;> simp [hb, barFault]
    · simp only [Bool.and_eq_true, beq_iff_eq, decide_eq_true_eq, not_and, not_lt]
      exact fun hg => (hlist hg).2
    · obtain ⟨hb, -⟩ | ⟨x, hb, -⟩ := hbar <;> simp [hb, barFault]
    · simp only [Bool.and_eq_true, Bool.or_eq_true, beq_iff_eq, Bool.not_eq_true']
      rintro (⟨hf, hp⟩ | ⟨hf, ht⟩)
      · rw [hplane (or_assoc.mp hf)] at hp
        cases hp
      · rw [hstate hf] at ht
        cases ht

theorem copy_sends {i : Instr} {stride : Int} (hi : Issues s i w ls) (hn : NoForks s w) (hfull : copyFull s w = false)
    (hx : exec i s = runInstr i s (fun s w _ => copyBody o fn s w)) (h : CopyPasses s w o fn) (hs : copyStride s w o fn = stride)
    (hbar : copyBar s w o (fn == .gth) = none ∧ b = none ∨ ∃ x, copyBar s w o (fn == .gth) = some (.ok x) ∧ b = some x) :
    Sends i s w w .cp (.copy (queuedCopy s w o fn stride b)) (replyKey w o) (fun t => t.cores = s.cores) :=
  engIssue_sends hi hn.1 hx (hs ▸ copyBody_passes hfull h hbar)

/-- The literal of a gather holds its stride, so no register does (R287). -/
theorem gather_str (hi : Issues s (.cpyGth o) w ls) : o.str = false := by
  obtain ⟨-, hl, -⟩ := hi
  simp only [legal, Instr.wf, Instr.spec, Instr.copOk, Bool.and_eq_true, Bool.not_eq_true'] at hl
  tauto

end

/-! ### Gleans (R291) -/

theorem gleanCmd_eq (w : Wave) (o : Cop) (fn : GleanFn) (n : Nat) (dst : W64) : gleanCmd w o fn n dst =
    { fn := fn, n := n, bf16 := o.cm.testBit 9, src := rdS w o.sa, srcPad := o.cm.testBit 10, dst := dst, dstPad := o.cm.testBit 11,
      started := false, words := [], ans := 0 } := by
  simp only [gleanCmd, bitAt_eq_testBit]

section
variable {s : State} {w : Wave} {ls : List Nat} {o : Cop}

theorem padFault_none {pad : Bool} {a : W64} {n : Nat} (h : pad = true → a.toNat + n ≤ w.foot.spad) : padFault w pad a n = none := by
  refine if_neg ?_
  simp only [Bool.and_eq_true, decide_eq_true_eq, not_and, not_lt]
  exact h

theorem gleanBody_passes {g : GleanCmd} {align : Nat} (hfull : copyFull s w = false) (hsrc : g.src.toNat % gleanSize g = 0)
    (hdst : g.dst.toNat % align = 0) (hsp : g.srcPad = true → g.src.toNat + gleanSize g * g.n ≤ w.foot.spad)
    (hdp : g.dstPad = true → g.dst.toNat + gleanOut g ≤ w.foot.spad) :
    gleanBody o g align s w = engIssue s w .cp (.glean g) (replyKey w o) := by
  unfold gleanBody
  rw [if_neg (by simp [hfull]), firstFault_none]
  · rfl
  · simp only [List.forall_mem_cons, List.not_mem_nil, false_implies, implies_true, and_true]
    exact ⟨misFault_none (by simp [hsrc]) _ _, misFault_none (by simp [hdst]) _ _, padFault_none hsp, padFault_none hdp⟩

theorem glean_sends {i : Instr} {fn : GleanFn} {n size out align : Nat} {dst : W64} {body : State → Wave → List Nat → Out} (hi : Issues s i w ls)
    (hn : NoForks s w) (hfull : copyFull s w = false) (hx : exec i s = runInstr i s body)
    (hb : body s w ls = gleanBody o (gleanCmd w o fn n dst) align s w) (hsize : gleanSize (gleanCmd w o fn n dst) = size)
    (hout : gleanOut (gleanCmd w o fn n dst) = out) (hdst : dst.toNat % align = 0) (hsrc : (rdS w o.sa).toNat % size = 0)
    (hsp : o.cm.testBit 10 = true → (rdS w o.sa).toNat + size * n ≤ w.foot.spad)
    (hdp : o.cm.testBit 11 = true → dst.toNat + out ≤ w.foot.spad) :
    Sends i s w w .cp (.glean { fn := fn, n := n, bf16 := o.cm.testBit 9, src := rdS w o.sa, srcPad := o.cm.testBit 10, dst := dst,
                                dstPad := o.cm.testBit 11, started := false, words := [], ans := 0 }) (replyKey w o) (fun t => t.cores = s.cores) := by
  subst hsize hout
  rw [gleanCmd_eq] at hb hsrc hsp hdp
  exact engIssue_sends hi hn.1 hx (hb.trans (gleanBody_passes hfull hsrc hdst hsp hdp))

end

/-- Settles O45: each command passes the drill's checks, so it joins the queue as its registers and its literal give it. -/
theorem copiesAndGleansIssue : Obligations.CopiesAndGleansIssue := by
  unfold Obligations.CopiesAndGleansIssue
  intro s w ls o hn hfull rr geo addr byRegs copy aligned glean elem n
  have hlow : field o.litNat 22 0 = n := field_low _ _
  have hsize : (if bitAt o.cm 9 then 2 else 4) = elem := by rw [bitAt_eq_testBit]
  refine ⟨?ld, ?st, ?ws, ?gth, ?fill, ?topk, ?smax, ?samp⟩
  case ld =>
    intro ha hi b hb
    exact copy_sends hi hn hfull (execCpyLd.eq_def o s) ⟨fun _ => ha.1, fun _ hs => by simpa [copyStride, hs] using ha.2 hs, nofun, by simp, nofun⟩ rfl hb
  case st =>
    intro ha hplane hbreach hi b hb
    exact copy_sends hi hn hfull (execCpySt.eq_def o s)
      ⟨fun _ => ha.1, fun _ hs => by simpa [copyStride, hs] using ha.2 hs, nofun, by simpa using hplane, fun _ => hbreach⟩ rfl hb
  case ws =>
    intro ha hplane hi b hb
    exact copy_sends hi hn hfull (execCpyWs.eq_def o s)
      ⟨fun _ => ha.1, fun _ hs => by simpa [copyStride, hs] using ha.2 hs, nofun, fun _ => hplane, nofun⟩ rfl hb
  case gth =>
    intro ha hidx hlist hplane hi b hb
    have hstr := gather_str hi
    exact copy_sends hi hn hfull (execCpyGth.eq_def o s) ⟨fun _ => ha, by simp [hstr], fun _ => ⟨hidx, hlist⟩, fun _ => hplane, nofun⟩
      (congrArg Nat.cast (field_low o.litNat 31)) hb
  case fill =>
    intro hi b hb
    exact copy_sends hi hn hfull (execCpyFill.eq_def o s) ⟨by simp, by simp, nofun, by simp, nofun⟩ rfl hb
  case topk =>
    intro hdst hi srcPad dstPad hsrc hsp hdp
    exact glean_sends hi hn hfull (execGlTopk.eq_def o s) (by rw [← hlow]; rfl) hsize rfl hdst hsrc hsp hdp
  case smax =>
    intro hdst hi srcPad dstPad hsrc hsp hdp
    exact glean_sends hi hn hfull (execGlSmax.eq_def o s) (by rw [← hlow]; rfl) hsize rfl hdst hsrc hsp hdp
  case samp =>
    intro hi srcPad dstPad hsrc hsp hdp
    exact glean_sends hi hn hfull (execGlSamp.eq_def o s) (align := 8) (by rw [field_low, field_high]) rfl rfl rfl hsrc hsp hdp

end Sys2Proof.Machine
end

section
/-!
PROOFS. A fill of no bytes that completes behind an older copy of its wave (O46; R195, R281).
-/
namespace Sys2Proof.Machine

/-! ### The start of a fill that reads no memory (R281, R288) -/

/-- A `cpy.fill` whose turn has come starts. -/
theorem exec_copyCommandStart_fill {s : State} {fid : Nat} {f : Flight} {c : CopyCmd} (hin : InFlight s fid f) (hact : f.act = .copy c)
    (hfn : c.fn = .fill) (hstarted : c.started = false) (hturn : tileTurns s f = true) (hspan : spanTurn s f [] (writeSpans f.act) = true)
    (hreply : replyBusy s f = false) : exec (.copyCommandStart fid) s = .next (startFill s f c) := by
  have hexec : exec (.copyCommandStart fid) s = execCopyCommandStart fid s := rfl
  have hreads : spanTurn s f (startReads s f.who c) [] = true := by simp [startReads, readSpans, spanTurn, spansHit, hfn]
  have hrefresh : engRefresh s f.who.asid (c.fn == .ws) (fillRanges s f.who c) = false := by simp [fillRanges, engRefresh, engSectors, hfn]
  rw [hexec, execCopyCommandStart, findFlight_some hin]
  simp [hact, hact ▸ hspan, hfn, hstarted, hturn, hreads, hfn ▸ hrefresh, listBusy, inReplyOrder, hreply]

/-! ### Two fills of one wave -/

/-- A `cpy.fill` of a tile that no command has defined, and which has no bytes (R277). -/
def undefinedFill (t : Nat) : CopyCmd :=
  { fn := .fill, tile := t, geo := tileEmpty, addr := 0, stride := 0, fmt := 0, bar := none, idx := 0, started := false, first := 0, img := []
    todo := [], total := 0, done := 0, lo := 0, hi := 0 }

/-- A wave with fills of two tiles in its core's queue. -/
def twoFills : State :=
  let queue (s : State) (c : CopyCmd) : State := addFlight s (whoOf placedWave) (some .cp) (.copy c) none
  queue (queue { State.reset with waves := [placedWave] } (undefinedFill 0)) (undefinedFill 1)

/-- The younger fill in flight. -/
def secondFill : Flight :=
  { id := 1, who := whoOf placedWave, cls := some .cp, act := .copy (undefinedFill 1), rr := none, held := false, tick := none, vis := none
    skip := [] }

theorem inFlight_twoFills : InFlight twoFills 1 secondFill := by decide +kernel

theorem tileTurns_twoFills : tileTurns twoFills secondFill = true := by decide +kernel

theorem spanTurn_twoFills : spanTurn twoFills secondFill [] (writeSpans secondFill.act) = true := by decide +kernel

/-- The younger fill, complete as it starts, is held until the older one has completed. -/
theorem findFlight_startFill_twoFills :
    findFlight (startFill twoFills secondFill (undefinedFill 1)) 1 = some { secondFill with act := .nop, held := true } := by decide +kernel

/-- Refutes O46: its first clause says that a fill of a tile of no bytes is in flight no more once it has started. Operations of one class of a wave
complete in order (R195): the younger of two such fills of different tiles, free to start before the older one, is held in flight. -/
theorem not_copiesRun : ¬ Obligations.CopiesRun := by
  unfold Obligations.CopiesRun
  intro h
  obtain ⟨hstart, -⟩ := h twoFills 1 secondFill (undefinedFill 1) placedWave inFlight_twoFills rfl (by decide +kernel) (by decide) rfl
  obtain ⟨-, hempty⟩ := hstart [] false (by decide) rfl tileTurns_twoFills spanTurn_twoFills (by decide) nofun (by decide) (by decide) rfl
  obtain ⟨t, hexec, -, -, hgone, -⟩ := hempty rfl (by decide)
  rw [exec_copyCommandStart_fill inFlight_twoFills rfl rfl rfl tileTurns_twoFills spanTurn_twoFills (by decide)] at hexec
  cases hexec
  rw [findFlight_startFill_twoFills] at hgone
  cases hgone

end Sys2Proof.Machine
end

section
/-!
PROOFS. Glean commands (O47): what an engine reads does not depend on the slices it passes; what it writes; then the start and the completion.
-/
namespace Sys2Proof.Machine

/-! ### What an engine reads and where it writes (R172, R179, R290) -/

section
variable (s : State) (q : Store Quad)

/-- The slices hold no bytes of their own, so a read does not depend on them. -/
theorem engRead_quads (die core asid : Nat) (ok : Page → Nat → Bool) (fuel va n : Nat) :
    engRead { s with quads := q } die core asid ok fuel va n = engRead s die core asid ok fuel va n := by
  induction fuel generalizing va n with
  | zero => rfl
  | succ fuel ih =>
    simp only [engRead, ih]
    rfl

theorem engPieces_quads (asid : Nat) (ok : Page → Nat → Bool) (fuel va : Nat) (bs : List Byte) :
    engPieces { s with quads := q } asid ok fuel va bs = engPieces s asid ok fuel va bs := by
  induction fuel generalizing va bs with
  | zero => rfl
  | succ fuel ih =>
    simp only [engPieces, ih]
    rfl

theorem gleanRead_quads (who : Who) (g : GleanCmd) : gleanRead { s with quads := q } who g = gleanRead s who g := by
  unfold gleanRead engBytes
  rw [engRead_quads]
  rfl

theorem gleanPlan_quads (who : Who) (g : GleanCmd) (bs : List Byte) : gleanPlan { s with quads := q } who g bs = gleanPlan s who g bs := by
  unfold gleanPlan engPlan
  rw [engPieces_quads]

end

theorem l2Access_quads (s : State) (pg : Page) (wr : Bool) (pa n : Nat) : ∃ q, l2Access s pg wr pa n = { s with quads := q } := by
  have hcaches := onlyCaches_l2Access s pg wr pa n
  have hcores := cores_l2Access s pg wr pa n
  generalize l2Access s pg wr pa n = t at hcaches hcores ⊢
  refine ⟨t.quads, ?_⟩
  calc t = { t with cores := s.cores } := by rw [← hcores]
    _ = { s with quads := t.quads } := (congrArg (fun x : State => { x with quads := t.quads }) hcaches :)

/-- The reads of an engine move lines of the slices and nothing else (R179). -/
theorem engTouch_quads (s : State) (asid : Nat) (rs : List VRange) : ∃ q, engTouch s asid rs = { s with quads := q } := by
  unfold engTouch
  generalize engSectors s asid rs = ps
  induction ps generalizing s with
  | nil => exact ⟨s.quads, rfl⟩
  | cons p ps ih =>
    obtain ⟨q, hfirst⟩ := l2Access_quads s p.1 false p.2 32
    rw [List.foldl_cons, hfirst]
    exact ih { s with quads := q }

/-! ### What an engine writes (R176, R181) -/

theorem onlyCaches_engineWrite (s : State) (die core : Nat) (pg : Page) (pa : Nat) (bs : List Byte) :
    OnlyCaches (putMem s pa bs) (engineWrite s die core pg pa bs) :=
  (onlyCaches_homeWrite s die core pg pa bs).trans
    (onlyCaches_foldl (fun st l => dropL1 st die core l) (fun st _ => onlyCaches_putCore st die core _) _ _)

/-- Pieces change memory, the marks of poison on it and its copies. -/
theorem putPieces_frame (s : State) (die core : Nat) (ps : List Piece) :
    { putPieces s die core ps with mem := s.mem, poison := s.poison, cores := s.cores, quads := s.quads } = s := by
  unfold putPieces
  induction ps generalizing s with
  | nil => rfl
  | cons p ps ih =>
    have hrest := congrArg (fun x : State => { x with mem := s.mem, poison := s.poison, cores := s.cores, quads := s.quads })
      (ih (engineWrite s die core p.1 p.2.1 p.2.2))
    have hfirst := congrArg (fun x : State => { x with mem := s.mem, poison := s.poison })
      (onlyCaches_engineWrite s die core p.1 p.2.1 p.2.2)
    exact hrest.trans hfirst

/-- Their bytes stand in memory, the last written on top. -/
theorem putPieces_mem (s : State) (die core : Nat) (ps : List Piece) :
    (putPieces s die core ps).mem = ps.foldl (fun m p => memPut m p.2.1 p.2.2) s.mem := by
  unfold putPieces
  induction ps generalizing s with
  | nil => rfl
  | cons p ps ih =>
    rw [List.foldl_cons, ih, (onlyCaches_engineWrite s die core p.1 p.2.1 p.2.2).mem]
    rfl

theorem putPad_nil (off : Nat) (w : Wave) : putPad off [] w = w := by
  have hbad : w.padBad.filter (fun p => !(decide (off ≤ 8 * p) && decide (8 * p + 8 ≤ off + ([] : List Byte).length))) = w.padBad := by
    rw [List.filter_eq_self]
    intro p _
    simp only [List.length_nil, Bool.not_eq_true', Bool.and_eq_false_iff, decide_eq_false_iff_not]
    omega
  rw [putPad, hbad]
  rfl

/-- The wave whose scratchpad takes the words of a glean command, or another place does. -/
def gleaned (g : GleanCmd) (bs : List Byte) (w : Wave) : Wave := if g.dstPad then putPad g.dst.toNat bs w else w

section
variable (s : State) (who : Who) (g : GleanCmd) (bs : List Byte) (ps : List Piece)

/-- Nothing to write changes nothing. -/
theorem gleanPut_nil : gleanPut s who g [] [] = s := by
  unfold gleanPut
  split
  · rw [padWrite_eq, funext (putPad_nil g.dst.toNat)]
    exact updHolder_id s who.uid
  · rfl

theorem gleanPut_flights : (gleanPut s who g bs ps).flights = s.flights := by
  unfold gleanPut
  split
  · rfl
  · exact (congrArg State.flights (putPieces_frame s who.die who.core ps) :)

theorem gleanPut_mem : (gleanPut s who g bs ps).mem = if g.dstPad then s.mem else ps.foldl (fun m p => memPut m p.2.1 p.2.2) s.mem := by
  unfold gleanPut
  split
  · rfl
  · exact putPieces_mem s who.die who.core ps

theorem gleanPut_waveIs {s : State} {w : Wave} (hw : findWave s who.uid = some w) : WaveIs s (gleanPut s who g bs ps) w.uid (gleaned g bs w) := by
  have hu := findWave_uid hw
  rw [← hu] at hw
  unfold gleanPut gleaned
  rw [← hu]
  split
  · exact waveIs_updHolder hw (putPad g.dst.toNat bs) fun _ => rfl
  · exact waveIs_of_waves hw (congrArg State.waves (putPieces_frame s who.die who.core ps) :)

end

/-! ### The start (R283, R291) -/

theorem findFlight_setAct {s : State} {fid : Nat} {f : Flight} (h : findFlight s fid = some f) (a : Act) :
    findFlight (setAct s f a) fid = some { f with act := a } := by
  obtain rfl := findFlight_id h
  exact find?_map_put Flight.id (x := { f with act := a }) h

section
variable {s : State} {fid : Nat} {f : Flight} {g : GleanCmd}

/-- A glean command whose turn has come starts. -/
theorem exec_copyCommandStart_glean (hin : InFlight s fid f) (hact : f.act = .glean g) (hstarted : g.started = false)
    (hspan : spanTurn s f (readSpans f.act) (writeSpans f.act) = true) (hrefresh : engRefresh s f.who.asid false (gleanRanges g) = false) :
    exec (.copyCommandStart fid) s = startGlean s f g := by
  have hexec : exec (.copyCommandStart fid) s = execCopyCommandStart fid s := rfl
  rw [hact] at hspan
  rw [hexec, execCopyCommandStart, findFlight_some hin, hact]
  simp only [hstarted, hspan, hrefresh, Bool.not_true, Bool.or_self, Bool.false_eq_true, if_false]

/-- A glean command as its start leaves it: its words and its reply are formed. -/
def gleanStarted (s : State) (g : GleanCmd) (bs : List Byte) : GleanCmd :=
  { g with started := true, words := (gleanForm s g bs).1, ans := (gleanForm s g bs).2.1 }

/-- The start reads the source, and writes the words that are shown meanwhile. -/
theorem startGlean_reads {bs : List Byte} {ps : List Piece} (hno : NoReleases s) (hread : gleanRead s f.who g = .ok bs)
    (hplan : gleanPlan s f.who g (wordBytes (gleanForm s g bs).2.2) = .ok ps) :
    ∃ q, startGlean s f g =
      .next (setAct (gleanPut { s with quads := q } f.who g (wordBytes (gleanForm s g bs).2.2) ps) f (.glean (gleanStarted s g bs))) := by
  obtain ⟨q, hq⟩ := engTouch_quads s f.who.asid (gleanRanges g)
  refine ⟨q, ?_⟩
  have hform : gleanForm { s with quads := q } g bs = gleanForm s g bs := rfl
  unfold startGlean
  simp only [hq, gleanRead_quads, hread, hform, gleanPlan_quads, hplan]
  exact afterLazy_none (s := { s with quads := q }) hno _ _ _

/-- After the start the command stands in flight as it was formed. -/
theorem glean_starts {bs : List Byte} {ps : List Piece} (hin : InFlight s fid f) (hact : f.act = .glean g) (hno : NoReleases s)
    (hstarted : g.started = false) (hspan : spanTurn s f (readSpans f.act) (writeSpans f.act) = true)
    (hrefresh : engRefresh s f.who.asid false (gleanRanges g) = false) (hread : gleanRead s f.who g = .ok bs)
    (hplan : gleanPlan s f.who g (wordBytes (gleanForm s g bs).2.2) = .ok ps) :
    Answers (.copyCommandStart fid) s (fun t => ∃ h, findFlight t fid = some h ∧ h.act = .glean (gleanStarted s g bs)) := by
  obtain ⟨q, hstart⟩ := startGlean_reads (f := f) hno hread hplan
  have hfind : findFlight (gleanPut { s with quads := q } f.who g (wordBytes (gleanForm s g bs).2.2) ps) fid = some f := by
    rw [findFlight, gleanPut_flights]
    exact hin.1
  exact ⟨_, (exec_copyCommandStart_glean hin hact hstarted hspan hrefresh).trans hstart, _, findFlight_setAct hfind _, rfl⟩

/-- A command that shows no words meanwhile only reads: memory and waves are as they were. -/
theorem glean_starts_quietly {bs : List Byte} (hin : InFlight s fid f) (hact : f.act = .glean g) (hno : NoReleases s)
    (hstarted : g.started = false) (hspan : spanTurn s f (readSpans f.act) (writeSpans f.act) = true)
    (hrefresh : engRefresh s f.who.asid false (gleanRanges g) = false) (hread : gleanRead s f.who g = .ok bs)
    (hnone : (gleanForm s g bs).2.2 = []) :
    Answers (.copyCommandStart fid) s (fun t => SameMemory s t ∧ t.waves = s.waves ∧
      ∃ h, findFlight t fid = some h ∧ h.act = .glean (gleanStarted s g bs)) := by
  have hplan : gleanPlan s f.who g (wordBytes (gleanForm s g bs).2.2) = .ok [] := by
    rw [hnone, gleanPlan]
    split <;> rfl
  obtain ⟨q, hstart⟩ := startGlean_reads (f := f) hno hread hplan
  have hnil : gleanPut { s with quads := q } f.who g (wordBytes (gleanForm s g bs).2.2) [] = { s with quads := q } := by
    rw [hnone]
    exact gleanPut_nil _ f.who g
  rw [hnil] at hstart
  exact ⟨_, (exec_copyCommandStart_glean hin hact hstarted hspan hrefresh).trans hstart, fun _ => rfl, rfl, _,
    findFlight_setAct (s := { s with quads := q }) hin.1 _, rfl⟩

end

/-! ### What a start forms (R292 to R294) -/

section
variable {g : GleanCmd}

theorem gleanForm_topk {k : Nat} (h : g.fn = .topk k) (s : State) (bs : List Byte) : gleanForm s g bs =
    ((topPairs k (gleanElems g bs)).flatMap (fun p => [p.1, p.2]), BitVec.ofNat 64 ((gleanElems g bs).filter f32IsNan).length, []) := by
  simp only [gleanForm, h]

theorem gleanForm_samp {u p : Nat} (h : g.fn = .samp u p) (s : State) (bs : List Byte) :
    gleanForm s g bs = ([], sampAns u p (sampPairs bs g.n), []) := by
  simp only [gleanForm, h]

/-- The exponentials are shown meanwhile, and each is divided by their sum. -/
theorem gleanForm_smax {sc : Nat} (h : g.fn = .smax sc) (hopen : smaxOpen g = false) (s : State) {bs : List Byte}
    (hbad : smaxBad sc (gleanElems g bs) = false) : gleanForm s g bs =
    (let es := (gleanElems g bs).map (smaxExp sc (smaxMax (gleanElems g bs)))
     (es.map (fun e => f32Div e (smaxSum es)), BitVec.ofNat 64 (smaxReply s (gleanElems g bs) + 2 ^ 32 * smaxSum es), es)) := by
  simp only [gleanForm, h, hbad, hopen, Bool.false_eq_true, if_false]

/-- Only `gl.smax` shows words before its completion. -/
theorem gleanForm_shows_none (h : ∀ sc, g.fn ≠ .smax sc) (s : State) (bs : List Byte) : (gleanForm s g bs).2.2 = [] := by
  cases hfn : g.fn with
  | topk k => rw [gleanForm_topk hfn]
  | smax sc => exact absurd hfn (h sc)
  | samp u p => rw [gleanForm_samp hfn]

/-- The maximum that is replied is the maximum, unless both zeros stand for it (log 114). -/
theorem smaxReply_eq {xs : List Nat} (h : f32IsZero (smaxMax xs) = false ∨ 0 ∉ xs ∨ 0x80000000 ∉ xs) (s : State) : smaxReply s xs = smaxMax xs := by
  refine if_neg ?_
  obtain h | h | h := h <;> simp [h]

/-- It is a zero when the maximum is. -/
theorem smaxReply_zero (s : State) (xs : List Nat) : f32IsZero (smaxReply s xs) = f32IsZero (smaxMax xs) := by
  unfold smaxReply
  split
  · next h =>
    simp only [Bool.and_eq_true] at h
    obtain ⟨⟨hzero, -⟩, -⟩ := h
    rw [hzero]
    split <;> decide
  · rfl

theorem length_topIns {k : Nat} (x : Nat × Nat) {ys : List (Nat × Nat)} (h : ys.length ≤ k) : (topIns k x ys).length ≤ k := by
  induction ys generalizing k with
  | nil => simp [topIns]
  | cons y r ih =>
    rw [List.length_cons] at h
    unfold topIns
    split
    · exact List.length_take_le _ _
    · rw [List.length_cons]
      have hrest := ih (k := k - 1) (by omega)
      omega

theorem length_foldl_topIns {k : Nat} (xs : List (Nat × Nat)) {acc : List (Nat × Nat)} (h : acc.length ≤ k) :
    (xs.foldl (fun acc x => topIns k x acc) acc).length ≤ k := by
  induction xs generalizing acc with
  | nil => exact h
  | cons x xs ih => exact ih (length_topIns x h)

/-- As many pairs as asked for, whatever the elements are (R292). -/
theorem length_topPairs (k : Nat) (xs : List Nat) : (topPairs k xs).length = k := by
  have hkept := length_foldl_topIns (k := k) (xs.mapIdx (fun i x => (i, x))) (acc := []) (Nat.zero_le k)
  simp only [topPairs, List.length_append, List.length_map, List.length_replicate]
  omega

/-- No pair, no sample (R294). -/
theorem sampAns_nil (u p : Nat) : sampAns u p [] = BitVec.ofNat 64 (2 ^ 64 - 1) := by
  simp [sampAns, runSums]

end

/-! ### The completion (R70, R195, R291) -/

/-- A wave with the reply of a command in its register. -/
def replied (f : Flight) (v : W64) (w : Wave) : Wave := match f.rr with | none => w | some n => wrBank w n v

theorem replied_frame (f : Flight) (v : W64) (w : Wave) : { replied f v w with s := w.s, hs := w.hs } = w := by
  unfold replied
  split
  · rfl
  · exact wrBank_frame w _ v

theorem rdBank_replied_same {f : Flight} {k : Nat} (h : f.rr = some k) (v : W64) (w : Wave) : rdBank (replied f v w) k = v := by
  simp [replied, h, rdBank_wrBank]

theorem rdBank_replied_other {f : Flight} {k : Nat} (h : f.rr ≠ some k) (v : W64) (w : Wave) : rdBank (replied f v w) k = rdBank w k := by
  unfold replied
  split
  · rfl
  · next n hn =>
    rw [rdBank_wrBank, if_neg fun hk => h (by rw [hn, hk])]

@[simp] theorem wrBank_uid (w : Wave) (n : Nat) (v : W64) : (wrBank w n v).uid = w.uid := (congrArg Wave.uid (wrBank_frame w n v) :)

theorem WaveIs.reply {s t : State} {f : Flight} {w : Wave} (h : WaveIs s t f.who.uid w) (v : W64) :
    WaveIs s (reply t f v) f.who.uid (replied f v w) := by
  obtain ⟨hfound, hothers⟩ := h
  cases hrr : f.rr with
  | none => simpa only [Machine.reply, replied, hrr] using ⟨hfound, hothers⟩
  | some n =>
    simp only [Machine.reply, replied, hrr]
    have hmap (u : Nat) := findWave_map (s := t) (t := { t with waves := t.waves.map (fun x => if x.uid == f.who.uid then wrBank x n v else x) })
      rfl (fun x => by split <;> simp) u
    refine ⟨?_, fun u hu => ?_⟩
    · rw [hmap, hfound]
      simp [findWave_uid hfound]
    · rw [hmap, hothers u hu]
      cases hx : findWave s u with
      | none => rfl
      | some x => simp [findWave_uid hx, hu]

theorem reply_mem (s : State) (f : Flight) (v : W64) : (reply s f v).mem = s.mem := by
  unfold reply
  split <;> rfl

theorem inReplyOrder_free {s : State} {f : Flight} (h : replyBusy s f = false) (t : State) : inReplyOrder s f t = .next t := by
  simp [inReplyOrder, h]

/-- Four bytes for each word. -/
theorem length_wordBytes (xs : List Nat) : (wordBytes xs).length = 4 * xs.length := by
  simp [wordBytes, List.length_flatMap, length_leBytes, mul_comm]

section
variable {s : State} {fid : Nat} {f : Flight} {g : GleanCmd} {w : Wave} {ps : List Piece}

/-- A glean command that has started writes its words and its reply, and ends. -/
theorem exec_gleanCompletion (hin : InFlight s fid f) (hact : f.act = .glean g) (hno : NoReleases s) (hstarted : g.started = true)
    (hbusy : replyBusy s f = false) (hplan : gleanPlan s f.who g (wordBytes g.words) = .ok ps) :
    exec (.gleanCompletion fid) s = .next (endFlight (reply (gleanPut s f.who g (wordBytes g.words) ps) f g.ans) f) := by
  have hexec : exec (.gleanCompletion fid) s = execGleanCompletion fid s := rfl
  rw [hexec, execGleanCompletion, findFlight_some hin, hact]
  simp only [hstarted, hplan, afterLazy_none hno, inReplyOrder_free hbusy, Bool.not_true, Bool.false_eq_true, if_false]

/-- The wave that a completed glean command leaves. -/
def gleanEnded (f : Flight) (g : GleanCmd) (w : Wave) : Wave := endWait f (replied f g.ans (gleaned g (wordBytes g.words) w))

theorem gleanEnded_waves (hw : findWave s f.who.uid = some w) (ps : List Piece) :
    findWave (endFlight (reply (gleanPut s f.who g (wordBytes g.words) ps) f g.ans) f) w.uid = some (gleanEnded f g w) ∧
    OthersKeep s (endFlight (reply (gleanPut s f.who g (wordBytes g.words) ps) f g.ans) f) w.uid := by
  have hput := gleanPut_waveIs f.who g (wordBytes g.words) ps hw
  rw [findWave_uid hw] at hput ⊢
  exact (hput.reply g.ans).endFlight f

theorem gleanEnded_mem (s : State) (f : Flight) (g : GleanCmd) (ps : List Piece) :
    (endFlight (reply (gleanPut s f.who g (wordBytes g.words) ps) f g.ans) f).mem =
      if g.dstPad then s.mem else ps.foldl (fun m p => memPut m p.2.1 p.2.2) s.mem := by
  rw [(keepsMem_endFlight _ f).1, reply_mem, gleanPut_mem]

theorem gleanEnded_frame (f : Flight) (g : GleanCmd) (w : Wave) :
    { gleanEnded f g w with pad := w.pad, padBad := w.padBad, s := w.s, hs := w.hs, blocked := w.blocked } = w := by
  have hreply := congrArg (fun x : Wave => { x with pad := w.pad, padBad := w.padBad, s := w.s, hs := w.hs, blocked := w.blocked })
    (replied_frame f g.ans (gleaned g (wordBytes g.words) w))
  unfold gleanEnded
  rw [endWait_eq]
  refine hreply.trans ?_
  unfold gleaned
  split <;> rfl

theorem rdBank_gleanEnded (f : Flight) (g : GleanCmd) (w : Wave) (k : Nat) :
    rdBank (gleanEnded f g w) k = rdBank (replied f g.ans (gleaned g (wordBytes g.words) w)) k := by
  unfold gleanEnded
  rw [endWait_eq]
  rfl

theorem rdBank_gleaned (g : GleanCmd) (bs : List Byte) (w : Wave) (k : Nat) : rdBank (gleaned g bs w) k = rdBank w k := by
  unfold gleaned
  split <;> rfl

/-- The words stand in the scratchpad they are written to. -/
theorem padBytes_gleanEnded (hpad : g.dstPad = true) (f : Flight) (w : Wave) :
    padBytes (gleanEnded f g w).pad g.dst.toNat (4 * g.words.length) = wordBytes g.words := by
  have hreply : (replied f g.ans (gleaned g (wordBytes g.words) w)).pad = (gleaned g (wordBytes g.words) w).pad :=
    (congrArg Wave.pad (replied_frame f g.ans (gleaned g (wordBytes g.words) w)) :)
  have hput : (gleanEnded f g w).pad = padPut w.pad g.dst.toNat (wordBytes g.words) := by
    unfold gleanEnded
    rw [endWait_eq]
    refine hreply.trans ?_
    rw [gleaned, if_pos hpad]
    rfl
  rw [hput, ← length_wordBytes]
  exact memBytes_memPut_same _ _ _

end

/-- Settles O47: the start forms the words and the reply from the source alone, the completion writes them; the pairs and the sample are counted. -/
theorem gleansRun : Obligations.GleansRun := by
  unfold Obligations.GleansRun
  intro s fid f g w hin hact hw hno refreshed
  refine ⟨?start, ?smax, ?complete, length_topPairs, sampAns_nil⟩
  case start =>
    intro bs hstarted hspan hrefresh hread hfn
    obtain ⟨t, hexec, hmem, hwaves, h, hfound, hh⟩ :=
      glean_starts_quietly hin hact hno hstarted hspan hrefresh hread (gleanForm_shows_none hfn s bs)
    refine ⟨t, hexec, hmem, hwaves, h, hfound, _, _, hh, fun k hk => ?_, fun u p hp => ?_⟩
    · rw [gleanForm_topk hk]
      exact ⟨rfl, rfl⟩
    · rw [gleanForm_samp hp]
      exact ⟨rfl, rfl⟩
  case smax =>
    intro bs sc ps hstarted hspan hrefresh hread hfn xs es
    refine ⟨fun h => smaxReply_eq h s, smaxReply_zero s xs, fun hbad hopen hplan => ?_⟩
    have hform := gleanForm_smax hfn hopen s hbad
    rw [show es = (gleanForm s g bs).2.2 by rw [hform]] at hplan
    obtain ⟨t, hexec, h, hfound, hh⟩ := glean_starts hin hact hno hstarted hspan hrefresh hread hplan
    refine ⟨t, hexec, h, hfound, hh.trans ?_⟩
    rw [gleanStarted, hform]
  case complete =>
    intro ps hstarted hbusy hplan
    obtain ⟨hfound, hothers⟩ := gleanEnded_waves (g := g) hw ps
    have hmem := gleanEnded_mem s f g ps
    refine ⟨_, exec_gleanCompletion hin hact hno hstarted hbusy hplan, hothers,
      ⟨_, hfound, gleanEnded_frame f g w, fun k hk => ?_, fun k hk _ => ?_, fun hpad => padBytes_gleanEnded hpad f w⟩, fun hpad a => ?_, fun hpad a => ?_⟩
    · rw [rdBank_gleanEnded, rdBank_replied_other hk, rdBank_gleaned]
    · rw [rdBank_gleanEnded, rdBank_replied_same hk]
    · rw [hmem, if_pos hpad]
    · rw [hmem, if_neg (by simp [hpad])]

end Sys2Proof.Machine
end
